-- ==== Sys2Proof/Word.lean ====
section
/-! DEFINITION. The word types of the machine and the plain records that arrive from outside it. -/

namespace Sys2Proof

/-- A 64-bit register value. -/
abbrev Word := BitVec 64
/-- A byte of memory. -/
abbrev Byte := BitVec 8
/-- A vector register (R17). -/
abbrev VReg := BitVec 512

/-- What an access does at its target. -/
inductive AccKind where
  | read
  | write
  | atomic (fn : BitVec 6)
deriving DecidableEq, Repr

/-- Where an uncorrectable memory error lies (R24, R234, R415): a byte of memory by its key, or a store of a matrix
engine, by frame. -/
inductive ErrPlace where
  | mem (key : Nat)
  | acc (frame : Nat)
  | cim (frame : Nat)
deriving DecidableEq, Repr

/-- The access that met a memory error: an operation of a hart by its number, or, as the number `ErrAccess.fetch`, which no
operation has, what the hart reads for its next instruction: its bytes, or an entry of a walk (R415). -/
structure ErrAccess where
  hart : Nat
  op : Nat
deriving DecidableEq, Repr

/-- The number that stands for a fetch or a walk of the hart. -/
def ErrAccess.fetch : Nat := 2 ^ 64

/-- What a remote translation is for: the access's need by its code, and whether its hart runs in U mode (R145, R147). -/
structure WalkNeed where
  need : BitVec 3
  user : Bool
deriving DecidableEq, Repr

/-- A lane's failure: the fibre, and how many beats of the present packet the lane had delivered (R352). -/
structure LaneLoss where
  fibre : BitVec 6
  done : Nat
deriving DecidableEq, Repr

/-- An access as it arrives from another fabric node (R140, R447): the node it comes from, the region number it
carries, whether its hart runs in M mode, the global address, the size in bytes, and the operands of a store or an
atomic. -/
structure Access where
  node : BitVec 4
  region : Option (BitVec 16)
  mmode : Bool
  kind : AccKind
  addr : Word
  size : Nat
  data : BitVec 512
  mask : BitVec 64
  cmp : Word
  vector : Bool
deriving DecidableEq, Repr

/-- A message as it arrives at its receiver (R356): the sender, the receiver, the region number and the level it
carries, the header words and the payload. -/
structure Message where
  srcNode : BitVec 4
  srcHart : BitVec 11
  dstHart : BitVec 11
  region : Option (BitVec 16)
  mmode : Bool
  header : List Word
  payload : List Byte
deriving DecidableEq, Repr

end Sys2Proof
end

