-- ==== Sys2Proof/Syntax.lean ====
section
/-! DEFINITION. The instructions and the events of the machine: one constructor per row of the opcode table.
The rows stand in the order of the table, the rows without operand fields after the others. The 248 encoded rows carry the fields of their word (rule R65 and the tables after it); a register field is
the number the word holds, `m` is the switch marker (R68), `w` the 32-bit form, `t` the lane shape.
The 81 rows without an encoding are steps of the machine's other agents (the engines, the copy channels, the
links, the dispatcher): they carry what names the unit that moves, and what arrives from outside. -/

namespace Sys2Proof

/-- An instruction or an event of the opcode table. -/
inductive Instr where
  /-- R119. Adds two x registers with wraparound; q[0] selects the .w form. -/
  | add (d : BitVec 5) (a : BitVec 5) (b : BitVec 5) (w : Bool) (m : Bool)
  /-- R119. Subtracts x[b] from x[a] with wraparound; q[0] selects the .w form. -/
  | sub (d : BitVec 5) (a : BitVec 5) (b : BitVec 5) (w : Bool) (m : Bool)
  /-- R119. Bitwise AND of two x registers. -/
  | and (d : BitVec 5) (a : BitVec 5) (b : BitVec 5) (m : Bool)
  /-- R119. Bitwise OR of two x registers. -/
  | or (d : BitVec 5) (a : BitVec 5) (b : BitVec 5) (m : Bool)
  /-- R119. Bitwise XOR of two x registers. -/
  | xor (d : BitVec 5) (a : BitVec 5) (b : BitVec 5) (m : Bool)
  /-- R119. Logical left shift by a register count; q[0] selects the .w form. -/
  | sll (d : BitVec 5) (a : BitVec 5) (b : BitVec 5) (w : Bool) (m : Bool)
  /-- R119. Logical right shift by a register count; q[0] selects the .w form. -/
  | srl (d : BitVec 5) (a : BitVec 5) (b : BitVec 5) (w : Bool) (m : Bool)
  /-- R119. Arithmetic right shift by a register count; q[0] selects the .w form. -/
  | sra (d : BitVec 5) (a : BitVec 5) (b : BitVec 5) (w : Bool) (m : Bool)
  /-- R119. Sets x[d] to 1 if x[a] is less than x[b], signed. -/
  | slt (d : BitVec 5) (a : BitVec 5) (b : BitVec 5) (m : Bool)
  /-- R119. Sets x[d] to 1 if x[a] is less than x[b], unsigned. -/
  | sltu (d : BitVec 5) (a : BitVec 5) (b : BitVec 5) (m : Bool)
  /-- R119. Writes the signed lesser of two x registers. -/
  | min (d : BitVec 5) (a : BitVec 5) (b : BitVec 5) (m : Bool)
  /-- R119. Writes the signed greater of two x registers. -/
  | max (d : BitVec 5) (a : BitVec 5) (b : BitVec 5) (m : Bool)
  /-- R119. Writes the unsigned lesser of two x registers. -/
  | minu (d : BitVec 5) (a : BitVec 5) (b : BitVec 5) (m : Bool)
  /-- R119. Writes the unsigned greater of two x registers. -/
  | maxu (d : BitVec 5) (a : BitVec 5) (b : BitVec 5) (m : Bool)
  /-- R119. Rotates x[a] left by a register count; q[0] selects the .w form. -/
  | rotl (d : BitVec 5) (a : BitVec 5) (b : BitVec 5) (w : Bool) (m : Bool)
  /-- R119. Rotates x[a] right by a register count; q[0] selects the .w form. -/
  | rotr (d : BitVec 5) (a : BitVec 5) (b : BitVec 5) (w : Bool) (m : Bool)
  /-- R119. Low 64 bits of the product; q[0] selects the .w form. -/
  | mul (d : BitVec 5) (a : BitVec 5) (b : BitVec 5) (w : Bool) (m : Bool)
  /-- R119. High 64 bits of the signed product. -/
  | mulh (d : BitVec 5) (a : BitVec 5) (b : BitVec 5) (m : Bool)
  /-- R119. High 64 bits of the unsigned product. -/
  | mulhu (d : BitVec 5) (a : BitVec 5) (b : BitVec 5) (m : Bool)
  /-- R120. Signed division truncating towards zero, with fixed results for division by zero and overflow. -/
  | div (d : BitVec 5) (a : BitVec 5) (b : BitVec 5) (w : Bool) (m : Bool)
  /-- R120. Unsigned division, with all ones for a zero divisor. -/
  | divu (d : BitVec 5) (a : BitVec 5) (b : BitVec 5) (w : Bool) (m : Bool)
  /-- R120. Signed remainder with the sign of the dividend. -/
  | rem (d : BitVec 5) (a : BitVec 5) (b : BitVec 5) (w : Bool) (m : Bool)
  /-- R120. Unsigned remainder. -/
  | remu (d : BitVec 5) (a : BitVec 5) (b : BitVec 5) (w : Bool) (m : Bool)
  /-- R121. Tests the old x[d] against zero under the condition in q and writes x[a] or x[b]. -/
  | sel (d : BitVec 5) (a : BitVec 5) (b : BitVec 5) (c : BitVec 3) (m : Bool)
  /-- R119. Counts leading zero bits; q[0] selects the .w form. -/
  | clz (d : BitVec 5) (a : BitVec 5) (w : Bool) (m : Bool)
  /-- R119. Counts trailing zero bits; q[0] selects the .w form. -/
  | ctz (d : BitVec 5) (a : BitVec 5) (w : Bool) (m : Bool)
  /-- R119. Counts one bits; q[0] selects the .w form. -/
  | popc (d : BitVec 5) (a : BitVec 5) (w : Bool) (m : Bool)
  /-- R119. Sign-extends the low byte, halfword or word selected by q. -/
  | sext (d : BitVec 5) (a : BitVec 5) (s : BitVec 3) (m : Bool)
  /-- R119. Zero-extends the low byte, halfword or word selected by q. -/
  | zext (d : BitVec 5) (a : BitVec 5) (s : BitVec 3) (m : Bool)
  /-- R122. Extracts the bit field that ox0 describes from x[a]. -/
  | bext (d : BitVec 5) (a : BitVec 5) (m : Bool)
  /-- R122. Inserts x[a] into the bit field of x[d] that ox0 describes. -/
  | bins (d : BitVec 5) (a : BitVec 5) (m : Bool)
  /-- R119. Adds x[a] and x[b] shifted left by the scale in q. -/
  | lea (d : BitVec 5) (a : BitVec 5) (b : BitVec 5) (l : BitVec 3) (m : Bool)
  /-- R124. Adds a sign-extended 14-bit immediate. -/
  | addi (d : BitVec 5) (a : BitVec 5) (i : BitVec 14) (m : Bool)
  /-- R124. ANDs with a sign-extended immediate. -/
  | andi (d : BitVec 5) (a : BitVec 5) (i : BitVec 14) (m : Bool)
  /-- R124. ORs with a sign-extended immediate. -/
  | ori (d : BitVec 5) (a : BitVec 5) (i : BitVec 14) (m : Bool)
  /-- R124. XORs with a sign-extended immediate. -/
  | xori (d : BitVec 5) (a : BitVec 5) (i : BitVec 14) (m : Bool)
  /-- R124. Signed comparison with an immediate. -/
  | slti (d : BitVec 5) (a : BitVec 5) (i : BitVec 14) (m : Bool)
  /-- R124. Unsigned comparison with a sign-extended immediate. -/
  | sltiu (d : BitVec 5) (a : BitVec 5) (i : BitVec 14) (m : Bool)
  /-- R125. Logical left shift by an immediate 0-63. -/
  | slli (d : BitVec 5) (a : BitVec 5) (s : BitVec 6) (m : Bool)
  /-- R125. Logical right shift by an immediate 0-63. -/
  | srli (d : BitVec 5) (a : BitVec 5) (s : BitVec 6) (m : Bool)
  /-- R125. Arithmetic right shift by an immediate 0-63. -/
  | srai (d : BitVec 5) (a : BitVec 5) (s : BitVec 6) (m : Bool)
  /-- R126. Loads a sign-extended 19-bit immediate. -/
  | li (d : BitVec 5) (i : BitVec 19) (m : Bool)
  /-- R126. Shifts x[d] left 19 bits and ORs in a 19-bit immediate. -/
  | lsh (d : BitVec 5) (i : BitVec 19) (m : Bool)
  /-- R126. Writes the PC plus a halfword offset. -/
  | pcrel (d : BitVec 5) (i : BitVec 19) (m : Bool)
  /-- R127. Composes a global address from a node and hart identity and an offset. -/
  | gadr (d : BitVec 5) (a : BitVec 5) (b : BitVec 5) (m : Bool)
  /-- R128. Branches if x[a] equals x[b]. -/
  | beq (a : BitVec 5) (b : BitVec 5) (o : BitVec 14) (m : Bool)
  /-- R128. Branches if x[a] differs from x[b]. -/
  | bne (a : BitVec 5) (b : BitVec 5) (o : BitVec 14) (m : Bool)
  /-- R128. Branches if x[a] is less than x[b], signed. -/
  | blt (a : BitVec 5) (b : BitVec 5) (o : BitVec 14) (m : Bool)
  /-- R128. Branches if x[a] is at least x[b], signed. -/
  | bge (a : BitVec 5) (b : BitVec 5) (o : BitVec 14) (m : Bool)
  /-- R128. Branches if x[a] is less than x[b], unsigned. -/
  | bltu (a : BitVec 5) (b : BitVec 5) (o : BitVec 14) (m : Bool)
  /-- R128. Branches if x[a] is at least x[b], unsigned. -/
  | bgeu (a : BitVec 5) (b : BitVec 5) (o : BitVec 14) (m : Bool)
  /-- R129. Jumps PC-relative by a 24-bit halfword offset. -/
  | jmp (o : BitVec 24) (m : Bool)
  /-- R129. Writes the return address to x1 and jumps PC-relative. -/
  | call (o : BitVec 24) (m : Bool)
  /-- R131. Jumps to x[a], trapping on an odd target. -/
  | ret (a : BitVec 5) (m : Bool)
  /-- R131. Jumps through a jump-table entry, checking count, alignment and landing pad. -/
  | jt (a : BitVec 5) (b : BitVec 5) (m : Bool)
  /-- R131. As jt, and writes the return address to x1. -/
  | jtc (a : BitVec 5) (b : BitVec 5) (m : Bool)
  /-- R131. Calls the address in x[a], which must land on the lpad that ox0 names. -/
  | callr (a : BitVec 5) (m : Bool)
  /-- R130. Landing pad carrying a 16-bit label; no effect when executed. -/
  | lpad (l : BitVec 16) (m : Bool)
  /-- R133. Copies an x register into an ox register. -/
  | oxmv (a : BitVec 5) (n : BitVec 3) (m : Bool)
  /-- R133. Copies an ox register into an x register. -/
  | oxrd (d : BitVec 5) (n : BitVec 3) (m : Bool)
  /-- R133. Writes x[a] plus an immediate into an ox register. -/
  | oxli (a : BitVec 5) (n : BitVec 3) (i : BitVec 14) (m : Bool)
  /-- R134. Blocks the hart for a duration in nanoseconds and returns the completion time. -/
  | twait (d : BitVec 5) (a : BitVec 5) (m : Bool)
  /-- R134. Waits as twait in a low-power state, ended early by a wake event. -/
  | sleep (d : BitVec 5) (a : BitVec 5) (m : Bool)
  /-- R134. Reads the module timebase. -/
  | tsnow (d : BitVec 5) (m : Bool)
  /-- R134. Blocks until an absolute timebase value, bounded to 1,048,576 ns ahead. -/
  | tsat (d : BitVec 5) (a : BitVec 5) (m : Bool)
  /-- R149. Non-blocking sign-extending byte load under a strand. -/
  | ldB (d : BitVec 5) (a : BitVec 5) (s : BitVec 3) (o : BitVec 10) (m : Bool)
  /-- R149. Non-blocking zero-extending byte load under a strand. -/
  | lduB (d : BitVec 5) (a : BitVec 5) (s : BitVec 3) (o : BitVec 10) (m : Bool)
  /-- R149. Non-blocking sign-extending halfword load. -/
  | ldH (d : BitVec 5) (a : BitVec 5) (s : BitVec 3) (o : BitVec 10) (m : Bool)
  /-- R149. Non-blocking zero-extending halfword load. -/
  | lduH (d : BitVec 5) (a : BitVec 5) (s : BitVec 3) (o : BitVec 10) (m : Bool)
  /-- R149. Non-blocking sign-extending word load. -/
  | ldW (d : BitVec 5) (a : BitVec 5) (s : BitVec 3) (o : BitVec 10) (m : Bool)
  /-- R149. Non-blocking zero-extending word load. -/
  | lduW (d : BitVec 5) (a : BitVec 5) (s : BitVec 3) (o : BitVec 10) (m : Bool)
  /-- R149. Non-blocking doubleword load. -/
  | ldD (d : BitVec 5) (a : BitVec 5) (s : BitVec 3) (o : BitVec 10) (m : Bool)
  /-- R149. Byte store under a strand. -/
  | stB (d : BitVec 5) (a : BitVec 5) (s : BitVec 3) (o : BitVec 10) (m : Bool)
  /-- R149. Halfword store under a strand. -/
  | stH (d : BitVec 5) (a : BitVec 5) (s : BitVec 3) (o : BitVec 10) (m : Bool)
  /-- R149. Word store under a strand. -/
  | stW (d : BitVec 5) (a : BitVec 5) (s : BitVec 3) (o : BitVec 10) (m : Bool)
  /-- R149. Doubleword store under a strand. -/
  | stD (d : BitVec 5) (a : BitVec 5) (s : BitVec 3) (o : BitVec 10) (m : Bool)
  /-- R148. Indexed sign-extending byte load. -/
  | ldxB (d : BitVec 5) (a : BitVec 5) (b : BitVec 5) (s : BitVec 3) (m : Bool)
  /-- R148. Indexed sign-extending halfword load. -/
  | ldxH (d : BitVec 5) (a : BitVec 5) (b : BitVec 5) (s : BitVec 3) (m : Bool)
  /-- R148. Indexed sign-extending word load. -/
  | ldxW (d : BitVec 5) (a : BitVec 5) (b : BitVec 5) (s : BitVec 3) (m : Bool)
  /-- R148. Indexed doubleword load. -/
  | ldxD (d : BitVec 5) (a : BitVec 5) (b : BitVec 5) (s : BitVec 3) (m : Bool)
  /-- R148. Indexed zero-extending byte load. -/
  | ldxuB (d : BitVec 5) (a : BitVec 5) (b : BitVec 5) (s : BitVec 3) (m : Bool)
  /-- R148. Indexed zero-extending halfword load. -/
  | ldxuH (d : BitVec 5) (a : BitVec 5) (b : BitVec 5) (s : BitVec 3) (m : Bool)
  /-- R148. Indexed zero-extending word load. -/
  | ldxuW (d : BitVec 5) (a : BitVec 5) (b : BitVec 5) (s : BitVec 3) (m : Bool)
  /-- R148. Indexed byte store. -/
  | stxB (d : BitVec 5) (a : BitVec 5) (b : BitVec 5) (s : BitVec 3) (m : Bool)
  /-- R148. Indexed halfword store. -/
  | stxH (d : BitVec 5) (a : BitVec 5) (b : BitVec 5) (s : BitVec 3) (m : Bool)
  /-- R148. Indexed word store. -/
  | stxW (d : BitVec 5) (a : BitVec 5) (b : BitVec 5) (s : BitVec 3) (m : Bool)
  /-- R148. Indexed doubleword store. -/
  | stxD (d : BitVec 5) (a : BitVec 5) (b : BitVec 5) (s : BitVec 3) (m : Bool)
  /-- R161. Atomic add returning the old value; fn6 bit 4 selects the .w form. -/
  | amoAdd (d : BitVec 5) (a : BitVec 5) (b : BitVec 5) (w : Bool) (s : BitVec 3) (m : Bool)
  /-- R161. Atomic AND returning the old value. -/
  | amoAnd (d : BitVec 5) (a : BitVec 5) (b : BitVec 5) (w : Bool) (s : BitVec 3) (m : Bool)
  /-- R161. Atomic OR returning the old value. -/
  | amoOr (d : BitVec 5) (a : BitVec 5) (b : BitVec 5) (w : Bool) (s : BitVec 3) (m : Bool)
  /-- R161. Atomic XOR returning the old value. -/
  | amoXor (d : BitVec 5) (a : BitVec 5) (b : BitVec 5) (w : Bool) (s : BitVec 3) (m : Bool)
  /-- R161. Atomic signed minimum. -/
  | amoMin (d : BitVec 5) (a : BitVec 5) (b : BitVec 5) (w : Bool) (s : BitVec 3) (m : Bool)
  /-- R161. Atomic signed maximum. -/
  | amoMax (d : BitVec 5) (a : BitVec 5) (b : BitVec 5) (w : Bool) (s : BitVec 3) (m : Bool)
  /-- R161. Atomic unsigned minimum. -/
  | amoMinu (d : BitVec 5) (a : BitVec 5) (b : BitVec 5) (w : Bool) (s : BitVec 3) (m : Bool)
  /-- R161. Atomic unsigned maximum. -/
  | amoMaxu (d : BitVec 5) (a : BitVec 5) (b : BitVec 5) (w : Bool) (s : BitVec 3) (m : Bool)
  /-- R161. Atomic exchange. -/
  | amoSwap (d : BitVec 5) (a : BitVec 5) (b : BitVec 5) (w : Bool) (s : BitVec 3) (m : Bool)
  /-- R161. Atomic compare-and-swap against ox0. -/
  | amoCas (d : BitVec 5) (a : BitVec 5) (b : BitVec 5) (w : Bool) (s : BitVec 3) (m : Bool)
  /-- R161. Atomic FP32 add rounded RNE. -/
  | amoFadd (d : BitVec 5) (a : BitVec 5) (b : BitVec 5) (s : BitVec 3) (m : Bool)
  /-- R161. Atomic paired BF16 add rounded RNE. -/
  | amoFadd2 (d : BitVec 5) (a : BitVec 5) (b : BitVec 5) (s : BitVec 3) (m : Bool)
  /-- R162. Fills TLBs with translations of up to 32 consecutive 64 KiB pages without access or fault. -/
  | pref (a : BitVec 5) (n : BitVec 5) (s : BitVec 3) (m : Bool)
  /-- R163. Starts draining combining entries of a strand, of one line or of all lines. -/
  | cbflush (a : BitVec 5) (s : BitVec 3) (m : Bool)
  /-- R173. Places a fork marker giving strand sd a new ordering point behind strand sa. -/
  | sfork (d : BitVec 3) (a : BitVec 3) (m : Bool)
  /-- R174. Places a join marker making later operations of sd follow earlier ones of sa. -/
  | sjoin (d : BitVec 3) (a : BitVec 3) (m : Bool)
  /-- R175. Blocks until a strand's operations are complete at a scope, then returns and clears its STATUS. -/
  | swait (d : BitVec 5) (a : BitVec 3) (s : BitVec 3) (m : Bool)
  /-- R176. Exports a strand's ordering point as a checked 64-bit token. -/
  | sexp (d : BitVec 5) (a : BitVec 3) (m : Bool)
  /-- R178. Imports a token, blocking until the exporter's spindle reaches it, as an acquire of sd. -/
  | simp (d : BitVec 3) (a : BitVec 5) (m : Bool)
  /-- R179. Reads a spindle's status, issue or performed count without waiting. -/
  | sstat (d : BitVec 5) (a : BitVec 3) (b : BitVec 5) (m : Bool)
  /-- R180. Applies swait at a scope to every strand at once and returns the merged status. -/
  | fence (d : BitVec 5) (s : BitVec 6) (m : Bool)
  /-- R206. Loads one or three vector registers from memory, decoding a formatted bank. -/
  | vld (d : BitVec 5) (a : BitVec 5) (s : BitVec 3) (o : BitVec 10) (m : Bool)
  /-- R206. Stores one or three vector registers, encoding into a formatted bank. -/
  | vst (d : BitVec 5) (a : BitVec 5) (s : BitVec 3) (o : BitVec 10) (m : Bool)
  /-- R209. Gathers lanes from a base plus vector indices. -/
  | vldx (d : BitVec 5) (a : BitVec 5) (b : BitVec 5) (t : Bool) (k : BitVec 3) (m : Bool)
  /-- R209. Scatters lanes to a base plus vector indices. -/
  | vstx (d : BitVec 5) (a : BitVec 5) (b : BitVec 5) (t : Bool) (k : BitVec 3) (m : Bool)
  /-- R216. Floating lane addition. -/
  | vadd (d : BitVec 5) (a : BitVec 5) (b : BitVec 5) (t : Bool) (k : BitVec 3) (m : Bool)
  /-- R216. Floating lane subtraction. -/
  | vsub (d : BitVec 5) (a : BitVec 5) (b : BitVec 5) (t : Bool) (k : BitVec 3) (m : Bool)
  /-- R216. Floating lane multiplication. -/
  | vmul (d : BitVec 5) (a : BitVec 5) (b : BitVec 5) (t : Bool) (k : BitVec 3) (m : Bool)
  /-- R216. Fused multiply-add into the destination lanes. -/
  | vfma (d : BitVec 5) (a : BitVec 5) (b : BitVec 5) (t : Bool) (k : BitVec 3) (m : Bool)
  /-- R216. Fused multiply-subtract. -/
  | vfms (d : BitVec 5) (a : BitVec 5) (b : BitVec 5) (t : Bool) (k : BitVec 3) (m : Bool)
  /-- R216. Fused negated multiply-add, c minus a times b. -/
  | vfnma (d : BitVec 5) (a : BitVec 5) (b : BitVec 5) (t : Bool) (k : BitVec 3) (m : Bool)
  /-- R216. Floating lane minimum. -/
  | vmin (d : BitVec 5) (a : BitVec 5) (b : BitVec 5) (t : Bool) (k : BitVec 3) (m : Bool)
  /-- R216. Floating lane maximum. -/
  | vmax (d : BitVec 5) (a : BitVec 5) (b : BitVec 5) (t : Bool) (k : BitVec 3) (m : Bool)
  /-- R216. Clears the sign of each lane. -/
  | vabs (d : BitVec 5) (a : BitVec 5) (t : Bool) (k : BitVec 3) (m : Bool)
  /-- R216. Inverts the sign of each lane. -/
  | vneg (d : BitVec 5) (a : BitVec 5) (t : Bool) (k : BitVec 3) (m : Bool)
  /-- R216. Floating lane division. -/
  | vdiv (d : BitVec 5) (a : BitVec 5) (b : BitVec 5) (t : Bool) (k : BitVec 3) (m : Bool)
  /-- R216. Floating lane square root. -/
  | vsqrt (d : BitVec 5) (a : BitVec 5) (t : Bool) (k : BitVec 3) (m : Bool)
  /-- R216. Correctly rounded reciprocal square root. -/
  | vrsqrt (d : BitVec 5) (a : BitVec 5) (t : Bool) (k : BitVec 3) (m : Bool)
  /-- R216. Correctly rounded reciprocal. -/
  | vrcp (d : BitVec 5) (a : BitVec 5) (t : Bool) (k : BitVec 3) (m : Bool)
  /-- R216. Correctly rounded base-2 exponential. -/
  | vexp2 (d : BitVec 5) (a : BitVec 5) (t : Bool) (k : BitVec 3) (m : Bool)
  /-- R216. Correctly rounded base-2 logarithm. -/
  | vlog2 (d : BitVec 5) (a : BitVec 5) (t : Bool) (k : BitVec 3) (m : Bool)
  /-- R216. Correctly rounded logistic sigmoid. -/
  | vsig (d : BitVec 5) (a : BitVec 5) (t : Bool) (k : BitVec 3) (m : Bool)
  /-- R216. Correctly rounded hyperbolic tangent. -/
  | vtanh (d : BitVec 5) (a : BitVec 5) (t : Bool) (k : BitVec 3) (m : Bool)
  /-- R219. Integer lane addition. -/
  | viadd (d : BitVec 5) (a : BitVec 5) (b : BitVec 5) (t : Bool) (k : BitVec 3) (m : Bool)
  /-- R219. Integer lane subtraction. -/
  | visub (d : BitVec 5) (a : BitVec 5) (b : BitVec 5) (t : Bool) (k : BitVec 3) (m : Bool)
  /-- R219. Low half of the integer lane product. -/
  | vimul (d : BitVec 5) (a : BitVec 5) (b : BitVec 5) (t : Bool) (k : BitVec 3) (m : Bool)
  /-- R219. High half of the signed integer lane product. -/
  | vimulh (d : BitVec 5) (a : BitVec 5) (b : BitVec 5) (t : Bool) (k : BitVec 3) (m : Bool)
  /-- R219. Bitwise lane AND. -/
  | vand (d : BitVec 5) (a : BitVec 5) (b : BitVec 5) (t : Bool) (k : BitVec 3) (m : Bool)
  /-- R219. Bitwise lane OR. -/
  | vor (d : BitVec 5) (a : BitVec 5) (b : BitVec 5) (t : Bool) (k : BitVec 3) (m : Bool)
  /-- R219. Bitwise lane XOR. -/
  | vxor (d : BitVec 5) (a : BitVec 5) (b : BitVec 5) (t : Bool) (k : BitVec 3) (m : Bool)
  /-- R219. Lane logical left shift. -/
  | vsll (d : BitVec 5) (a : BitVec 5) (b : BitVec 5) (t : Bool) (k : BitVec 3) (m : Bool)
  /-- R219. Lane logical right shift. -/
  | vsrl (d : BitVec 5) (a : BitVec 5) (b : BitVec 5) (t : Bool) (k : BitVec 3) (m : Bool)
  /-- R219. Lane arithmetic right shift. -/
  | vsra (d : BitVec 5) (a : BitVec 5) (b : BitVec 5) (t : Bool) (k : BitVec 3) (m : Bool)
  /-- R219. Signed lane minimum. -/
  | vimin (d : BitVec 5) (a : BitVec 5) (b : BitVec 5) (t : Bool) (k : BitVec 3) (m : Bool)
  /-- R219. Signed lane maximum. -/
  | vimax (d : BitVec 5) (a : BitVec 5) (b : BitVec 5) (t : Bool) (k : BitVec 3) (m : Bool)
  /-- R219. Unsigned lane minimum. -/
  | viminu (d : BitVec 5) (a : BitVec 5) (b : BitVec 5) (t : Bool) (k : BitVec 3) (m : Bool)
  /-- R219. Unsigned lane maximum. -/
  | vimaxu (d : BitVec 5) (a : BitVec 5) (b : BitVec 5) (t : Bool) (k : BitVec 3) (m : Bool)
  /-- R220. Writes a mask of active lanes where a equals b. -/
  | vcmpEq (d : BitVec 3) (a : BitVec 5) (b : BitVec 5) (t : Bool) (k : BitVec 3) (m : Bool)
  /-- R220. Writes a mask of active lanes where a is less than b. -/
  | vcmpLt (d : BitVec 3) (a : BitVec 5) (b : BitVec 5) (t : Bool) (k : BitVec 3) (m : Bool)
  /-- R220. Writes a mask of active lanes where a is at most b. -/
  | vcmpLe (d : BitVec 3) (a : BitVec 5) (b : BitVec 5) (t : Bool) (k : BitVec 3) (m : Bool)
  /-- R221. Selects each lane from a or b by the mask. -/
  | vsel (d : BitVec 5) (a : BitVec 5) (b : BitVec 5) (t : Bool) (k : BitVec 3) (m : Bool)
  /-- R221. Permutes lanes of va by indices in vb. -/
  | vperm (d : BitVec 5) (a : BitVec 5) (b : BitVec 5) (t : Bool) (k : BitVec 3) (m : Bool)
  /-- R221. Broadcasts an x register into the active lanes. -/
  | vbcast (d : BitVec 5) (a : BitVec 5) (t : Bool) (k : BitVec 3) (m : Bool)
  /-- R221. Slides lanes by a signed count in an x register. -/
  | vslide (d : BitVec 5) (a : BitVec 5) (b : BitVec 5) (t : Bool) (k : BitVec 3) (m : Bool)
  /-- R221. Copies active lanes. -/
  | vmov (d : BitVec 5) (a : BitVec 5) (t : Bool) (k : BitVec 3) (m : Bool)
  /-- R222. Adds the lanes by a fixed pairwise tree into lane 0. -/
  | vredAdd (d : BitVec 5) (a : BitVec 5) (t : Bool) (k : BitVec 3) (m : Bool)
  /-- R222. Reduces the lanes to their maximum in lane 0. -/
  | vredMax (d : BitVec 5) (a : BitVec 5) (t : Bool) (k : BitVec 3) (m : Bool)
  /-- R222. Reduces the lanes to their minimum in lane 0. -/
  | vredMin (d : BitVec 5) (a : BitVec 5) (t : Bool) (k : BitVec 3) (m : Bool)
  /-- R223. Converts lanes between FP32, BF16, FP16, FP8 and integers by a selector. -/
  | vcvt (d : BitVec 5) (a : BitVec 5) (k : BitVec 3) (s : BitVec 5) (m : Bool)
  /-- R224. Moves one lane to an x register. -/
  | vxt (d : BitVec 5) (a : BitVec 5) (t : Bool) (i : BitVec 5) (m : Bool)
  /-- R224. Inserts an x register into one lane. -/
  | vins (d : BitVec 5) (a : BitVec 5) (t : Bool) (i : BitVec 5) (m : Bool)
  /-- R225. ANDs two mask registers. -/
  | mand (d : BitVec 3) (a : BitVec 3) (b : BitVec 3) (m : Bool)
  /-- R225. ORs two mask registers. -/
  | mor (d : BitVec 3) (a : BitVec 3) (b : BitVec 3) (m : Bool)
  /-- R225. XORs two mask registers. -/
  | mxor (d : BitVec 3) (a : BitVec 3) (b : BitVec 3) (m : Bool)
  /-- R225. Inverts a mask register. -/
  | mnot (d : BitVec 3) (a : BitVec 3) (m : Bool)
  /-- R225. Counts the one bits of a mask into an x register. -/
  | mpop (d : BitVec 5) (a : BitVec 3) (m : Bool)
  /-- R225. Writes an x register into a mask register. -/
  | mset (d : BitVec 3) (a : BitVec 5) (m : Bool)
  /-- R211. Binds a stream register to an affine read or write pattern. -/
  | strbind (d : BitVec 3) (a : BitVec 5) (b : BitVec 5) (s : BitVec 3) (m : Bool)
  /-- R213. Ends a stream binding, discarding unconsumed fetches. -/
  | strfree (d : BitVec 3) (s : BitVec 3) (m : Bool)
  /-- R214. Reads a stream register's binding state. -/
  | strst (d : BitVec 5) (a : BitVec 3) (m : Bool)
  /-- R227. Encodes 48 FP32 lanes into one block record in a register. -/
  | bscale (d : BitVec 5) (a : BitVec 5) (b : BitVec 5) (m : Bool)
  /-- R228. Loads a block record and adds it into three FP32 registers. -/
  | baddqAcc (d : BitVec 5) (a : BitVec 5) (b : BitVec 5) (s : BitVec 3) (m : Bool)
  /-- R229. Encodes three registers into a block record and stores it. -/
  | baddqOut (d : BitVec 5) (a : BitVec 5) (b : BitVec 5) (s : BitVec 3) (m : Bool)
  /-- R230. Exchanges sr.step with an x register. -/
  | vsr (d : BitVec 5) (a : BitVec 5) (m : Bool)
  /-- R256. Checks and writes the tile configuration, returning a check code. -/
  | mcfg (d : BitVec 5) (a : BitVec 5) (m : Bool)
  /-- R258. Enqueues a weight write of resident B into CIM slots. -/
  | mload (a : BitVec 5) (b : BitVec 5) (s : BitVec 3) (m : Bool)
  /-- R259. Enqueues a matrix multiply accumulating into the accumulator store. -/
  | mmul (a : BitVec 5) (b : BitVec 5) (s : BitVec 3) (m : Bool)
  /-- R259. Enqueues a matrix multiply that starts its elements from zero. -/
  | mmulz (a : BitVec 5) (b : BitVec 5) (s : BitVec 3) (m : Bool)
  /-- R260. Enqueues a multiply whose A is broadcast on a row or column bus to the region's engines. -/
  | mmulBc (a : BitVec 5) (b : BitVec 5) (s : BitVec 3) (m : Bool)
  /-- R261. Enqueues a transposed multiply on resident B. -/
  | mtmul (a : BitVec 5) (b : BitVec 5) (s : BitVec 3) (m : Bool)
  /-- R262. Enqueues a load of an accumulator tile from memory. -/
  | acld (a : BitVec 5) (b : BitVec 5) (s : BitVec 3) (m : Bool)
  /-- R262. Enqueues a store of an accumulator tile to memory. -/
  | acst (a : BitVec 5) (b : BitVec 5) (s : BitVec 3) (m : Bool)
  /-- R263. Enqueues a read of sixteen accumulator elements into a vector register. -/
  | acrd (d : BitVec 5) (a : BitVec 5) (s : BitVec 3) (m : Bool)
  /-- R263. Enqueues a write of a vector register into sixteen accumulator elements. -/
  | acwr (d : BitVec 5) (a : BitVec 5) (s : BitVec 3) (m : Bool)
  /-- R262. Enqueues zeroing of an accumulator tile. -/
  | acz (a : BitVec 5) (s : BitVec 3) (m : Bool)
  /-- R257. Sets redundant mode in the tile configuration and rechecks it. -/
  | mredund (d : BitVec 5) (a : BitVec 5) (m : Bool)
  /-- R264. Reads engine queue state or the error record by a selector. -/
  | mqst (d : BitVec 5) (a : BitVec 5) (m : Bool)
  /-- R278. Grid command that sets the engine's knot grid and clears its counters. -/
  | kset (a : BitVec 5) (b : BitVec 5) (s : BitVec 3) (m : Bool)
  /-- R279. Enqueues forward evaluation of spline cells into the accumulator. -/
  | seval (a : BitVec 5) (b : BitVec 5) (s : BitVec 3) (m : Bool)
  /-- R281. Enqueues computation of input gradients through the spline cells. -/
  | sderiv (a : BitVec 5) (b : BitVec 5) (s : BitVec 3) (m : Bool)
  /-- R282. Enqueues folding of coefficient gradients over samples into the accumulator. -/
  | sgfold (a : BitVec 5) (b : BitVec 5) (s : BitVec 3) (m : Bool)
  /-- R283. Enqueues a weight write of spline coefficients into the slots. -/
  | sload (a : BitVec 5) (b : BitVec 5) (s : BitVec 3) (m : Bool)
  /-- R284. Grid command that halves every interval by knot insertion. -/
  | srefine (s : BitVec 3) (m : Bool)
  /-- R285. Grid command that adds one interval at the low or high end. -/
  | sextend (a : BitVec 5) (s : BitVec 3) (m : Bool)
  /-- R286. Enqueues a read of the knot grid or its counters, optionally clearing the counters. -/
  | kcnt (d : BitVec 5) (a : BitVec 5) (s : BitVec 3) (m : Bool)
  /-- R280. Enqueues writing of basis records for each input. -/
  | sbrec (a : BitVec 5) (b : BitVec 5) (s : BitVec 3) (m : Bool)
  /-- R311. Opens a cycle on a stairwell from a descriptor, binding it if unbound. -/
  | cyopen (d : BitVec 5) (a : BitVec 5) (b : BitVec 5) (m : Bool)
  /-- R312. Releases all strands and arrives at a phase barrier, blocking until release. -/
  | cyphase (d : BitVec 5) (a : BitVec 5) (b : BitVec 5) (m : Bool)
  /-- R313. Gives a flight's FP64 partial residual. -/
  | cyres (d : BitVec 5) (a : BitVec 5) (b : BitVec 5) (m : Bool)
  /-- R314. Reads the latest verdict and test count. -/
  | cytest (d : BitVec 5) (a : BitVec 5) (m : Bool)
  /-- R315. Closes the cycle, evaluates the weight permit and optionally releases the stairwell. -/
  | cyclose (d : BitVec 5) (a : BitVec 5) (m : Bool)
  /-- R317. Reads sequencer state by a selector. -/
  | cystat (d : BitVec 5) (a : BitVec 5) (m : Bool)
  /-- R316. Acknowledges the outcome, setting the permit and removing weight entries. -/
  | cyack (d : BitVec 5) (a : BitVec 5) (m : Bool)
  /-- R343. Issues a copy request, waiting for room, and returns its handle. -/
  | cpq (d : BitVec 5) (a : BitVec 5) (m : Bool)
  /-- R344. Reads the state word of a copy. -/
  | cpwp (d : BitVec 5) (a : BitVec 5) (m : Bool)
  /-- R344. Waits until a copy's write pointer reaches a target or it ends. -/
  | cpwait (d : BitVec 5) (a : BitVec 5) (b : BitVec 5) (m : Bool)
  /-- R345. Inspects a copy's captured request, address, hart or sequence by a selector. -/
  | cpst (d : BitVec 5) (a : BitVec 5) (b : BitVec 5) (m : Bool)
  /-- R343. Issues a copy request, returning the busy code instead of waiting. -/
  | cpqNb (d : BitVec 5) (a : BitVec 5) (m : Bool)
  /-- R362. Sends a tag-matched message of up to 4,096 bytes under a strand. -/
  | msend (d : BitVec 5) (a : BitVec 5) (b : BitVec 5) (s : BitVec 3) (m : Bool)
  /-- R363. Posts a receive matched first against the overflow queue. -/
  | mpost (d : BitVec 5) (a : BitVec 5) (b : BitVec 5) (s : BitVec 3) (m : Bool)
  /-- R364. Reads receive status, an overflow arrival or ms.stat by a selector. -/
  | mprobe (d : BitVec 5) (a : BitVec 5) (b : BitVec 5) (m : Bool)
  /-- R365. Withdraws an unmatched posted receive. -/
  | mcancel (d : BitVec 5) (a : BitVec 5) (m : Bool)
  /-- R366. Hands the link-power controller a command to park the skeins in a mask. -/
  | lnpark (d : BitVec 5) (a : BitVec 5) (m : Bool)
  /-- R366. Hands the link-power controller a command to wake the skeins in a mask. -/
  | lnwake (d : BitVec 5) (a : BitVec 5) (m : Bool)
  /-- R367. Reads skein and lane state towards a peer by a selector. -/
  | lnst (d : BitVec 5) (a : BitVec 5) (m : Bool)
  /-- R368. Hands a gateway hart the next block of a reduction. -/
  | gwtake (d : BitVec 5) (a : BitVec 5) (m : Bool)
  /-- R386. Registers a node descriptor in the ready pool once its release point is performed. -/
  | nspawn (d : BitVec 5) (a : BitVec 5) (m : Bool)
  /-- R388. Retires the running instance after joining every strand, releasing successors. -/
  | ndone (m : Bool)
  /-- R389. Offers the hart so the dispatcher may move the instance elsewhere. -/
  | nyield (d : BitVec 5) (m : Bool)
  /-- R387. Releases one predecessor count of a registered node after the masked strands. -/
  | ndep (d : BitVec 5) (a : BitVec 5) (b : BitVec 5) (m : Bool)
  /-- R390. Creates a child region and registers its root node. -/
  | rlaunch (d : BitVec 5) (a : BitVec 5) (b : BitVec 5) (m : Bool)
  /-- R391. rswitch operation 0: schedules a gang suspension of a region at an agreed tick. -/
  | rswitchSuspend (d : BitVec 5) (a : BitVec 5) (b : BitVec 5) (m : Bool)
  /-- R405. Raises a system call (cause 0x10) or breakpoint (cause 0x11). -/
  | sys (a : BitVec 5) (k : BitVec 1) (m : Bool)
  /-- R406. Returns from the current level's trap bank, re-issuing a deferred fault record. -/
  | eret (m : Bool)
  /-- R407. Reads a system register. -/
  | srd (d : BitVec 5) (n : BitVec 12) (m : Bool)
  /-- R407. Writes a system register that has no behaviour of its own. -/
  | swr (d : BitVec 5) (n : BitVec 12) (m : Bool)
  /-- R408. Gates fetch and issue until an interrupt is pending. -/
  | wfi (m : Bool)
  /-- R410. Gang-stops a region 64 ns ahead and raises cause 0x13 on each hart. -/
  | gstop (d : BitVec 5) (a : BitVec 5) (m : Bool)
  /-- R423. Removes translations locally, sends invalidations to holders and returns a ticket. -/
  | tlbinv (d : BitVec 5) (a : BitVec 5) (b : BitVec 5) (m : Bool)
  /-- R424. Waits until every holder of a ticket has acknowledged or died. -/
  | pginvack (d : BitVec 5) (a : BitVec 5) (m : Bool)
  /-- R421. Requests an operating point and returns pw.op. -/
  | pwreq (d : BitVec 5) (a : BitVec 5) (m : Bool)
  /-- R412. Opens a new checkpoint interval at a common tick with a restart node. -/
  | ckpt (d : BitVec 5) (a : BitVec 5) (m : Bool)
  /-- R83. Compact register move. -/
  | cMov (d : BitVec 5) (a : BitVec 5)
  /-- R83. Compact load of a 6-bit signed immediate. -/
  | cLi (d : BitVec 5) (i : BitVec 6)
  /-- R83. Compact add of a 6-bit signed immediate. -/
  | cAddi (d : BitVec 5) (i : BitVec 6)
  /-- R83. Compact register add. -/
  | cAdd (d : BitVec 5) (a : BitVec 5)
  /-- R83. Compact register subtract. -/
  | cSub (d : BitVec 5) (a : BitVec 5)
  /-- R83. Compact register AND. -/
  | cAnd (d : BitVec 5) (a : BitVec 5)
  /-- R83. Compact register OR. -/
  | cOr (d : BitVec 5) (a : BitVec 5)
  /-- R83. Compact doubleword load from the stack under sn0. -/
  | cLd (d : BitVec 5) (o : BitVec 6)
  /-- R83. Compact doubleword store to the stack under sn0. -/
  | cSt (d : BitVec 5) (o : BitVec 6)
  /-- R83. Compact branch if a register is zero. -/
  | cBz (d : BitVec 5) (o : BitVec 6)
  /-- R83. Compact branch if a register is not zero. -/
  | cBnz (d : BitVec 5) (o : BitVec 6)
  /-- R83. Compact PC-relative jump. -/
  | cJmp (o : BitVec 11)
  /-- R83. Compact return to x1. -/
  | cRet
  /-- R83. Parks the hart without performing any operation. -/
  | cMark
  /-- R83. Compact no-operation. -/
  | cNop
  /-- R345. cpst selector 8: resumes a stopped copy from its write pointer. -/
  | cpstResume (d : BitVec 5) (a : BitVec 5) (b : BitVec 5) (m : Bool)
  /-- R345. cpst selector 9: abandons a stopped copy and frees its slot. -/
  | cpstAbandon (d : BitVec 5) (a : BitVec 5) (b : BitVec 5) (m : Bool)
  /-- R391. rswitch operation 1: schedules resumption of a suspended region. -/
  | rswitchResume (d : BitVec 5) (a : BitVec 5) (b : BitVec 5) (m : Bool)
  /-- R391. rswitch operation 2: schedules the end of a region at an agreed tick. -/
  | rswitchEnd (d : BitVec 5) (a : BitVec 5) (b : BitVec 5) (m : Bool)
  /-- R63. The hart fetches both halfwords of the next instruction and decodes it, trapping on a fetch fault. -/
  | instructionFetch
  /-- R68. A parked hart resumes issue once every outstanding non-blocking result has returned. -/
  | parkEnd
  /-- R116. A load, atomic or engine read result returns to its register and frees its scoreboard entry, possibly carrying a fault. -/
  | nonblockingResultReturn (id : Nat)
  /-- R399. A pending enabled interrupt is taken at an instruction boundary in priority order. -/
  | interruptTaken
  /-- R135. A twait, tsat or sleep deadline is reached and the next instruction issues. -/
  | waitDeadline
  /-- R408. wfi completes when an interrupt takeable at the current level becomes pending. -/
  | wfiWake
  /-- R136. An enabled interrupt ends a sleep early with result 1. -/
  | sleepWakeEvent
  /-- R144. A walker translates an HBM offset through up to four levels, ending in a leaf or fault. -/
  | pageWalk (off : BitVec 49) (write : Bool)
  /-- R147. A target node maps the requester's region, walks its page table and replies. -/
  | remoteTranslationRequest (node : BitVec 4) (region : BitVec 16) (off : BitVec 49) (want : WalkNeed)
  /-- R147. A remote translation reply is cached in the source's TLBs. -/
  | translationReply (node : BitVec 4) (region : BitVec 16) (off : BitVec 49) (level : BitVec 3) (leaf : BitVec 64) (cause : BitVec 8) (reason : BitVec 8)
  /-- R147. A holder node receives an invalidation and acknowledges once entries, buffers and accesses are clear. -/
  | tlbInvalidation (node : BitVec 4) (ticket : BitVec 32) (kind : BitVec 2) (page : BitVec 49) (bits : BitVec 6)
  /-- R147. An invalidation acknowledgement arrives at the target and counts against the ticket. -/
  | invalidationAck (node : BitVec 4) (ticket : BitVec 32) (dead : Bool)
  /-- R140. An access from another node arrives, is mapped through the alias table and checked at the target. -/
  | remoteAccessArrival (acc : Access)
  /-- R447. An access from a host node arrives with M-mode reach and physical HBM offsets. -/
  | hostAccessArrival (acc : Access)
  /-- R158. A combining-buffer entry drains as one masked write of its enabled bytes. -/
  | combiningDrain (k : Nat)
  /-- R158. An entry not written for 128 hart cycles starts to drain. -/
  | combiningIdleTimeout (k : Nat)
  /-- R348. A write acknowledgement returns and decrements the writer's spindle counter. -/
  | writeAcknowledgement (id : Nat) (status : BitVec 3)
  /-- R159. A read leaving a cluster opens a read-combining entry or is absorbed into one. -/
  | routerReadAbsorb (id : Nat)
  /-- R159. A read reply arrives, closes its combining entry and is forked to absorbed readers. -/
  | readReplyArrival (k : Nat) (ok : Bool) (reason : BitVec 8) (data : BitVec 512)
  /-- R160. An atomic is performed at its single point and its old value is returned. -/
  | atomicPerform (id : Nat) (ok : Bool) (reason : BitVec 8) (old : BitVec 64)
  /-- R164. 10,000 µs after pinning, hardware clears PIN and accepts migrations again. -/
  | pinExpiry (k : Nat)
  /-- R173. A fork marker is performed when the named strand reaches its point. -/
  | forkMarkerPerformed (id : Nat)
  /-- R174. A join marker is performed, merging the joined strand's status, as an acquire. -/
  | joinMarkerPerformed (id : Nat)
  /-- R178. The exporter checks a token and replies once its spindle reaches the sequence. -/
  | tokenCheckRequest (node : BitVec 4) (token : BitVec 64)
  /-- R178. The check reply completes simp as an acquire, or traps with 0x0D. -/
  | tokenCheckReply (ok : Bool)
  /-- R212. A read stream fetches its next register up to four ahead of consumption. -/
  | streamFetch (r : BitVec 3)
  /-- R243. The engine arbiter takes the next tile from a queue in weighted round-robin order. -/
  | tileBegin (frame : Nat)
  /-- R245. A strip's results are written to the accumulator, with its knot counts. -/
  | stripDrain (frame : Nat)
  /-- R260. A tile of mmul.bc arrives on a bus and is taken at the next tile boundary. -/
  | busTileArrival (frame : Nat)
  /-- R274. A grid command is performed whole once earlier tiles have finished. -/
  | gridCommandPerform (frame : Nat)
  /-- R265. An engine idle for 2 µs is clock-gated. -/
  | engineClockGate (frame : Nat)
  /-- R422. The start sequencer admits one engine, quad or skein per 64 ns slot. -/
  | startSequencerAdmit
  /-- R302. Every member of a barrier is released at tick T as an acquire. -/
  | barrierRelease (stair : BitVec 4)
  /-- R303. A barrier not complete within TIMEOUT aborts the cycle and traps waiting members. -/
  | phaseTimeout (stair : BitVec 4)
  /-- R305. At phase 3 the sequencer records a verdict from the combined residual. -/
  | cycleDecision (stair : BitVec 4)
  /-- R321. A free channel takes the oldest ready copy of the next hart. -/
  | copyBegin (group : Nat)
  /-- R328. Destination units are performed and the write pointer advances. -/
  | copyUnitDelivered (slot : BitVec 8)
  /-- R334. A copy meeting a fault or refusal stops with its code. -/
  | copyErrorStop (slot : BitVec 8) (code : BitVec 8)
  /-- R357. An arriving message is matched against posted receives or queued or refused. -/
  | messageArrival (msg : Message)
  /-- R357. A queued payload matched by a new receive is copied to its buffer and the receive performed. -/
  | overflowPayloadCopy (slot : BitVec 5)
  /-- R350. A message-class output blocked for 4 µs sends a probe along the blocked path. -/
  | deadlockProbe (node : BitVec 4)
  /-- R350. A returning probe moves every packet of the cycle one hop forward. -/
  | probeReturn (node : BitVec 4)
  /-- R351. A lane losing lock or exceeding its errors becomes FAILED and its beats are resent. -/
  | laneFailure (peer : BitVec 4) (loss : LaneLoss)
  /-- R352. A beat with a CRC error is sent again on the same lane. -/
  | crcErrorResend (peer : BitVec 4) (fibre : BitVec 6)
  /-- R353. A write reaching its link queue head while its class is suspended is refused with CS. -/
  | postedWriteRefused (id : Nat)
  /-- R352. At a packet end the stripe pointer advances and locked lanes join the active set. -/
  | packetBoundary (peer : BitVec 4) (cls : BitVec 2)
  /-- R354. A waking or retuned lane locks towards a peer. -/
  | laneLocked (peer : BitVec 4) (fibre : BitVec 6)
  /-- R354. The last lane of a parking skein leaves its set and the lasers go off. -/
  | skeinParked (skein : BitVec 3)
  /-- R354. 3,200 ns after admission unlocked lanes become FAILED and the skein is AWAKE. -/
  | skeinWakeTimeout (skein : BitVec 3)
  /-- R354. Firmware retunes a FAILED lane's ring heaters. -/
  | firmwareRetune (peer : BitVec 4) (fibre : BitVec 6)
  /-- R359. 100 µs after migration, forwarding of arrivals from the old hart ends. -/
  | migrationForwardExpiry (k : Nat)
  /-- R382. A recorded release point is reached and the registration or decrement takes effect. -/
  | releasePointPerformed (k : Nat)
  /-- R379. When a hart frees or a node becomes ready, the dispatcher places instances. -/
  | dispatch
  /-- R379. Each 64 µs of readiness raises a node's effective priority. -/
  | priorityAgeing (k : Nat)
  /-- R384. A host write of ring.wp extends the ring, setting OVR on an overrun. -/
  | ringWp (v : BitVec 64)
  /-- R383. A write of 1 sets ring.rp to ring.wp and clears ring.overrun. -/
  | ringReset (v : BitVec 64)
  /-- R384. A LAUNCH record creates a root region and registers its root node. -/
  | launch
  /-- R384. A SUSPEND record schedules suspension of a region as rswitch does. -/
  | suspend
  /-- R384. A RESUME record schedules resumption of a region. -/
  | resume
  /-- R384. An END record schedules the end of a region. -/
  | endRec
  /-- R392. At tick T every hart of the target stops and its state is saved or discarded. -/
  | gangStop (region : BitVec 16)
  /-- R394. At tick T′ every hart of the region issues again and replays proceed. -/
  | gangResume (region : BitVec 16)
  /-- R410. 64 ns after the last eret from cause 0x13 the region resumes. -/
  | gstopResume (region : BitVec 16)
  /-- R412. At T the old log is discarded and a new interval opens. -/
  | checkpointTick
  /-- R415. An uncorrectable error raises cause 0x15 at the gallery's service hart. -/
  | uncorrectableMemoryError (place : ErrPlace) (met : ErrAccess)
  /-- R415. Patrol scrub corrects or records a memory error. -/
  | patrolScrub (pa : BitVec 39) (correctable : Bool)
  /-- R416. A quad idle in sleep or wfi for 20 µs enters retention. -/
  | retentionEntry (quad : Nat)
  /-- R416. A quad leaves retention, raising cause 0x14 on a parity failure. -/
  | retentionExit (quad : Nat) (parityFails : Bool)
  /-- R417. A detected timing error is replayed in the pipeline, counting storms. -/
  | timingErrorReplay (count : Nat)
  /-- R418. Every 10 µs the budget tree recomputes caps, points and duties. -/
  | budgetRecompute (domain : Nat) (cap : BitVec 3) (duty : BitVec 5)
  /-- R418. A domain's clock restarts at its new point after relocking. -/
  | clockRelock (domain : Nat)
  /-- R449. Module reset sets the timebase, spindles and engine stores to their reset state. -/
  | moduleReset
  /-- R177. A write of tk.key sets the token key, M mode only. -/
  | tkKey (d : BitVec 5) (m : Bool)
  /-- R202. A write of a bank format register passes an ownership check and governs later vector accesses. -/
  | bkFmt (n : BitVec 5) (d : BitVec 5) (m : Bool)
  /-- R330. A write of a stride-pattern entry completes when all eight stacks hold it. -/
  | cgPat (n : BitVec 4) (d : BitVec 5) (m : Bool)
  /-- R425. A write of a compressed-page register completes when every controller holds it. -/
  | csTab (n : BitVec 2) (d : BitVec 5) (m : Bool)
  /-- R371. A write of an alias entry governs requests arriving afterwards. -/
  | rgAlias (d : BitVec 5) (m : Bool)
  /-- R238. A swr to mx.cfg traps with cause 0x02 at every level. -/
  | mxCfg (d : BitVec 5) (m : Bool)
  /-- R384. The dispatcher takes a ring record at ring.rp whose KIND is unknown or refused, or whose SEQ is not ring.rp, and either writes an event record and skips it or sets OVR. -/
  | unknownKindRingRecord
  /-- R430. A host node's attestation request reaches the module and is answered with a report carrying the two signatures, also while the module is in recovery. -/
  | attestationRequest (node : BitVec 4)
  /-- R430. A host node's firmware-update request reaches a module, which is the only kind of request besides attestation that a module in recovery answers. -/
  | firmwareUpdateRequest (node : BitVec 4)
deriving DecidableEq, Repr

end Sys2Proof
end

