-- ==== Sys2Proof/WellFormed.lean ====
section
/-! DEFINITION. Which operand values the encoding rules admit: legality depends on the bits alone (R86).
A word whose operands break one of these rules is illegal (R85). -/

namespace Sys2Proof

/-- The lanes of a vector register: 16 of 32 bits, or 32 of 16 bits (R197). -/
def laneCount (t : Bool) : Nat := if t then 32 else 16

/-- The system registers that have a number (R402). -/
def sysRegListed (n : BitVec 12) : Bool :=
  let k := n.toNat
  k ≤ 0x006 || (0x010 ≤ k && k ≤ 0x016) || (0x018 ≤ k && k ≤ 0x01E) || k == 0x020 || k == 0x021 ||
  (0x030 ≤ k && k ≤ 0x034) || (0x040 ≤ k && k ≤ 0x043) || (0x050 ≤ k && k ≤ 0x056) ||
  (0x060 ≤ k && k ≤ 0x063) || k == 0x070 || (0x080 ≤ k && k ≤ 0x09F) || (0x0A0 ≤ k && k ≤ 0x0AF) ||
  (0x0B0 ≤ k && k ≤ 0x0B2) || (0x0C0 ≤ k && k ≤ 0x0C3) || (0x0D0 ≤ k && k ≤ 0x0D3) ||
  (0x0E0 ≤ k && k ≤ 0x0E3)

/-- The operands are ones the encoding rules admit. An event of another agent has no encoding and no such rule. -/
def Instr.wf : Instr → Bool
  | .add _ _ _ _ _ => true
  | .sub _ _ _ _ _ => true
  | .and _ _ _ _ => true
  | .or _ _ _ _ => true
  | .xor _ _ _ _ => true
  | .sll _ _ _ _ _ => true
  | .srl _ _ _ _ _ => true
  | .sra _ _ _ _ _ => true
  | .slt _ _ _ _ => true
  | .sltu _ _ _ _ => true
  | .min _ _ _ _ => true
  | .max _ _ _ _ => true
  | .minu _ _ _ _ => true
  | .maxu _ _ _ _ => true
  | .rotl _ _ _ _ _ => true
  | .rotr _ _ _ _ _ => true
  | .mul _ _ _ _ _ => true
  | .mulh _ _ _ _ => true
  | .mulhu _ _ _ _ => true
  | .div _ _ _ _ _ => true
  | .divu _ _ _ _ _ => true
  | .rem _ _ _ _ _ => true
  | .remu _ _ _ _ _ => true
  | .sel _ _ _ c _ => decide (c.toNat ≤ 5)
  | .clz _ _ _ _ => true
  | .ctz _ _ _ _ => true
  | .popc _ _ _ _ => true
  | .sext _ _ s _ => decide (s.toNat ≤ 2)
  | .zext _ _ s _ => decide (s.toNat ≤ 2)
  | .bext _ _ _ => true
  | .bins _ _ _ => true
  | .lea _ _ _ _ _ => true
  | .addi _ _ _ _ => true
  | .andi _ _ _ _ => true
  | .ori _ _ _ _ => true
  | .xori _ _ _ _ => true
  | .slti _ _ _ _ => true
  | .sltiu _ _ _ _ => true
  | .slli _ _ _ _ => true
  | .srli _ _ _ _ => true
  | .srai _ _ _ _ => true
  | .li _ _ _ => true
  | .lsh _ _ _ => true
  | .pcrel _ _ _ => true
  | .gadr _ _ _ _ => true
  | .beq _ _ _ _ => true
  | .bne _ _ _ _ => true
  | .blt _ _ _ _ => true
  | .bge _ _ _ _ => true
  | .bltu _ _ _ _ => true
  | .bgeu _ _ _ _ => true
  | .jmp _ _ => true
  | .call _ _ => true
  | .ret _ _ => true
  | .jt _ _ _ => true
  | .jtc _ _ _ => true
  | .callr _ _ => true
  | .lpad _ _ => true
  | .oxmv _ _ _ => true
  | .oxrd _ _ _ => true
  | .oxli _ _ _ _ => true
  | .twait _ _ _ => true
  | .sleep _ _ _ => true
  | .tsnow _ _ => true
  | .tsat _ _ _ => true
  | .ldB _ _ _ _ _ => true
  | .lduB _ _ _ _ _ => true
  | .ldH _ _ _ _ _ => true
  | .lduH _ _ _ _ _ => true
  | .ldW _ _ _ _ _ => true
  | .lduW _ _ _ _ _ => true
  | .ldD _ _ _ _ _ => true
  | .stB _ _ _ _ _ => true
  | .stH _ _ _ _ _ => true
  | .stW _ _ _ _ _ => true
  | .stD _ _ _ _ _ => true
  | .ldxB _ _ _ _ _ => true
  | .ldxH _ _ _ _ _ => true
  | .ldxW _ _ _ _ _ => true
  | .ldxD _ _ _ _ _ => true
  | .ldxuB _ _ _ _ _ => true
  | .ldxuH _ _ _ _ _ => true
  | .ldxuW _ _ _ _ _ => true
  | .stxB _ _ _ _ _ => true
  | .stxH _ _ _ _ _ => true
  | .stxW _ _ _ _ _ => true
  | .stxD _ _ _ _ _ => true
  | .amoAdd _ _ _ _ _ _ => true
  | .amoAnd _ _ _ _ _ _ => true
  | .amoOr _ _ _ _ _ _ => true
  | .amoXor _ _ _ _ _ _ => true
  | .amoMin _ _ _ _ _ _ => true
  | .amoMax _ _ _ _ _ _ => true
  | .amoMinu _ _ _ _ _ _ => true
  | .amoMaxu _ _ _ _ _ _ => true
  | .amoSwap _ _ _ _ _ _ => true
  | .amoCas _ _ _ _ _ _ => true
  | .amoFadd _ _ _ _ _ => true
  | .amoFadd2 _ _ _ _ _ => true
  | .pref _ _ _ _ => true
  | .cbflush _ _ _ => true
  | .sfork _ _ _ => true
  | .sjoin _ _ _ => true
  | .swait _ _ s _ => decide (s.toNat ≤ 6)
  | .sexp _ _ _ => true
  | .simp _ _ _ => true
  | .sstat _ _ b _ => decide (b.toNat ≤ 2)
  | .fence _ s _ => decide (s.toNat ≤ 6)
  | .vld _ _ _ _ _ => true
  | .vst _ _ _ _ _ => true
  | .vldx _ _ _ _ _ _ => true
  | .vstx _ _ _ _ _ _ => true
  | .vadd _ _ _ _ _ _ => true
  | .vsub _ _ _ _ _ _ => true
  | .vmul _ _ _ _ _ _ => true
  | .vfma _ _ _ _ _ _ => true
  | .vfms _ _ _ _ _ _ => true
  | .vfnma _ _ _ _ _ _ => true
  | .vmin _ _ _ _ _ _ => true
  | .vmax _ _ _ _ _ _ => true
  | .vabs _ _ _ _ _ => true
  | .vneg _ _ _ _ _ => true
  | .vdiv _ _ _ _ _ _ => true
  | .vsqrt _ _ _ _ _ => true
  | .vrsqrt _ _ _ _ _ => true
  | .vrcp _ _ _ _ _ => true
  | .vexp2 _ _ _ _ _ => true
  | .vlog2 _ _ _ _ _ => true
  | .vsig _ _ _ _ _ => true
  | .vtanh _ _ _ _ _ => true
  | .viadd _ _ _ _ _ _ => true
  | .visub _ _ _ _ _ _ => true
  | .vimul _ _ _ _ _ _ => true
  | .vimulh _ _ _ _ _ _ => true
  | .vand _ _ _ _ _ _ => true
  | .vor _ _ _ _ _ _ => true
  | .vxor _ _ _ _ _ _ => true
  | .vsll _ _ _ _ _ _ => true
  | .vsrl _ _ _ _ _ _ => true
  | .vsra _ _ _ _ _ _ => true
  | .vimin _ _ _ _ _ _ => true
  | .vimax _ _ _ _ _ _ => true
  | .viminu _ _ _ _ _ _ => true
  | .vimaxu _ _ _ _ _ _ => true
  | .vcmpEq _ _ _ _ _ _ => true
  | .vcmpLt _ _ _ _ _ _ => true
  | .vcmpLe _ _ _ _ _ _ => true
  | .vsel _ _ _ _ _ _ => true
  | .vperm _ _ _ _ _ _ => true
  | .vbcast _ _ _ _ _ => true
  | .vslide _ _ _ _ _ _ => true
  | .vmov _ _ _ _ _ => true
  | .vredAdd _ _ _ _ _ => true
  | .vredMax _ _ _ _ _ => true
  | .vredMin _ _ _ _ _ => true
  | .vcvt _ _ _ s _ => decide (s.toNat ≤ 10)
  | .vxt _ _ t i _ => decide (i.toNat < laneCount t)
  | .vins _ _ t i _ => decide (i.toNat < laneCount t)
  | .mand _ _ _ _ => true
  | .mor _ _ _ _ => true
  | .mxor _ _ _ _ => true
  | .mnot _ _ _ => true
  | .mpop _ _ _ => true
  | .mset _ _ _ => true
  | .strbind _ _ _ _ _ => true
  | .strfree _ _ _ => true
  | .strst _ _ _ => true
  | .bscale _ a _ _ => decide (a.toNat ≤ 29)
  | .baddqAcc d _ _ _ _ => decide (d.toNat ≤ 29)
  | .baddqOut d _ _ _ _ => decide (d.toNat ≤ 29)
  | .vsr _ _ _ => true
  | .mcfg _ _ _ => true
  | .mload _ _ _ _ => true
  | .mmul _ _ _ _ => true
  | .mmulz _ _ _ _ => true
  | .mmulBc _ _ _ _ => true
  | .mtmul _ _ _ _ => true
  | .acld _ _ _ _ => true
  | .acst _ _ _ _ => true
  | .acrd _ _ _ _ => true
  | .acwr _ _ _ _ => true
  | .acz _ _ _ => true
  | .mredund _ _ _ => true
  | .mqst _ _ _ => true
  | .kset _ _ _ _ => true
  | .seval _ _ _ _ => true
  | .sderiv _ _ _ _ => true
  | .sgfold _ _ _ _ => true
  | .sload _ _ _ _ => true
  | .srefine _ _ => true
  | .sextend _ _ _ => true
  | .kcnt _ _ _ _ => true
  | .sbrec _ _ _ _ => true
  | .cyopen _ _ _ _ => true
  | .cyphase _ _ _ _ => true
  | .cyres _ _ _ _ => true
  | .cytest _ _ _ => true
  | .cyclose _ _ _ => true
  | .cystat _ _ _ => true
  | .cyack _ _ _ => true
  | .cpq _ a _ => decide (a.toNat ≤ 28)
  | .cpwp _ _ _ => true
  | .cpwait _ _ _ _ => true
  | .cpst _ _ _ _ => true
  | .cpqNb _ a _ => decide (a.toNat ≤ 28)
  | .msend _ _ _ _ _ => true
  | .mpost _ _ _ _ _ => true
  | .mprobe _ _ _ _ => true
  | .mcancel _ _ _ => true
  | .lnpark _ _ _ => true
  | .lnwake _ _ _ => true
  | .lnst _ _ _ => true
  | .gwtake _ _ _ => true
  | .nspawn _ _ _ => true
  | .ndone _ => true
  | .nyield _ _ => true
  | .ndep _ _ _ _ => true
  | .rlaunch _ _ _ _ => true
  | .rswitchSuspend _ _ _ _ => true
  | .sys _ _ _ => true
  | .eret _ => true
  | .srd _ n _ => sysRegListed n
  | .swr _ n _ => sysRegListed n
  | .wfi _ => true
  | .gstop _ _ _ => true
  | .tlbinv _ _ _ _ => true
  | .pginvack _ _ _ => true
  | .pwreq _ _ _ => true
  | .ckpt _ _ _ => true
  | .cMov d a => decide (d ≠ 0 ∨ a ≠ 0)
  | .cLi _ _ => true
  | .cAddi _ _ => true
  | .cAdd _ _ => true
  | .cSub _ _ => true
  | .cAnd _ _ => true
  | .cOr _ _ => true
  | .cLd _ _ => true
  | .cSt _ _ => true
  | .cBz _ _ => true
  | .cBnz _ _ => true
  | .cJmp _ => true
  | .cRet => true
  | .cMark => true
  | .cNop => true
  | .cpstResume _ _ _ _ => true
  | .cpstAbandon _ _ _ _ => true
  | .rswitchResume _ _ _ _ => true
  | .rswitchEnd _ _ _ _ => true
  | .instructionFetch => true
  | .parkEnd => true
  | .nonblockingResultReturn _ => true
  | .interruptTaken => true
  | .waitDeadline => true
  | .wfiWake => true
  | .sleepWakeEvent => true
  | .pageWalk _ _ => true
  | .remoteTranslationRequest _ _ _ _ => true
  | .translationReply _ _ _ _ _ _ _ => true
  | .tlbInvalidation _ _ _ _ _ => true
  | .invalidationAck _ _ _ => true
  | .remoteAccessArrival _ => true
  | .hostAccessArrival _ => true
  | .combiningDrain _ => true
  | .combiningIdleTimeout _ => true
  | .writeAcknowledgement _ _ => true
  | .routerReadAbsorb _ => true
  | .readReplyArrival _ _ _ _ => true
  | .atomicPerform _ _ _ _ => true
  | .pinExpiry _ => true
  | .forkMarkerPerformed _ => true
  | .joinMarkerPerformed _ => true
  | .tokenCheckRequest _ _ => true
  | .tokenCheckReply _ => true
  | .streamFetch _ => true
  | .tileBegin _ => true
  | .stripDrain _ => true
  | .busTileArrival _ => true
  | .gridCommandPerform _ => true
  | .engineClockGate _ => true
  | .startSequencerAdmit => true
  | .barrierRelease _ => true
  | .phaseTimeout _ => true
  | .cycleDecision _ => true
  | .copyBegin _ => true
  | .copyUnitDelivered _ => true
  | .copyErrorStop _ _ => true
  | .messageArrival _ => true
  | .overflowPayloadCopy _ => true
  | .deadlockProbe _ => true
  | .probeReturn _ => true
  | .laneFailure _ _ => true
  | .crcErrorResend _ _ => true
  | .postedWriteRefused _ => true
  | .packetBoundary _ _ => true
  | .laneLocked _ _ => true
  | .skeinParked _ => true
  | .skeinWakeTimeout _ => true
  | .firmwareRetune _ _ => true
  | .migrationForwardExpiry _ => true
  | .releasePointPerformed _ => true
  | .dispatch => true
  | .priorityAgeing _ => true
  | .ringWp _ => true
  | .ringReset _ => true
  | .launch => true
  | .suspend => true
  | .resume => true
  | .endRec => true
  | .gangStop _ => true
  | .gangResume _ => true
  | .gstopResume _ => true
  | .checkpointTick => true
  | .uncorrectableMemoryError _ _ => true
  | .patrolScrub _ _ => true
  | .retentionEntry _ => true
  | .retentionExit _ _ => true
  | .timingErrorReplay _ => true
  | .budgetRecompute _ _ _ => true
  | .clockRelock _ => true
  | .moduleReset => true
  | .tkKey _ _ => true
  | .bkFmt _ _ _ => true
  | .cgPat _ _ _ => true
  | .csTab _ _ _ => true
  | .rgAlias _ _ => true
  | .mxCfg _ _ => true
  | .unknownKindRingRecord => true
  | .attestationRequest _ => true
  | .firmwareUpdateRequest _ => true

/-- The rows of the opcode table that have no word: the steps of the machine's other agents. -/
def Instr.isEvent : Instr → Bool
  | .add _ _ _ _ _ => false
  | .sub _ _ _ _ _ => false
  | .and _ _ _ _ => false
  | .or _ _ _ _ => false
  | .xor _ _ _ _ => false
  | .sll _ _ _ _ _ => false
  | .srl _ _ _ _ _ => false
  | .sra _ _ _ _ _ => false
  | .slt _ _ _ _ => false
  | .sltu _ _ _ _ => false
  | .min _ _ _ _ => false
  | .max _ _ _ _ => false
  | .minu _ _ _ _ => false
  | .maxu _ _ _ _ => false
  | .rotl _ _ _ _ _ => false
  | .rotr _ _ _ _ _ => false
  | .mul _ _ _ _ _ => false
  | .mulh _ _ _ _ => false
  | .mulhu _ _ _ _ => false
  | .div _ _ _ _ _ => false
  | .divu _ _ _ _ _ => false
  | .rem _ _ _ _ _ => false
  | .remu _ _ _ _ _ => false
  | .sel _ _ _ _ _ => false
  | .clz _ _ _ _ => false
  | .ctz _ _ _ _ => false
  | .popc _ _ _ _ => false
  | .sext _ _ _ _ => false
  | .zext _ _ _ _ => false
  | .bext _ _ _ => false
  | .bins _ _ _ => false
  | .lea _ _ _ _ _ => false
  | .addi _ _ _ _ => false
  | .andi _ _ _ _ => false
  | .ori _ _ _ _ => false
  | .xori _ _ _ _ => false
  | .slti _ _ _ _ => false
  | .sltiu _ _ _ _ => false
  | .slli _ _ _ _ => false
  | .srli _ _ _ _ => false
  | .srai _ _ _ _ => false
  | .li _ _ _ => false
  | .lsh _ _ _ => false
  | .pcrel _ _ _ => false
  | .gadr _ _ _ _ => false
  | .beq _ _ _ _ => false
  | .bne _ _ _ _ => false
  | .blt _ _ _ _ => false
  | .bge _ _ _ _ => false
  | .bltu _ _ _ _ => false
  | .bgeu _ _ _ _ => false
  | .jmp _ _ => false
  | .call _ _ => false
  | .ret _ _ => false
  | .jt _ _ _ => false
  | .jtc _ _ _ => false
  | .callr _ _ => false
  | .lpad _ _ => false
  | .oxmv _ _ _ => false
  | .oxrd _ _ _ => false
  | .oxli _ _ _ _ => false
  | .twait _ _ _ => false
  | .sleep _ _ _ => false
  | .tsnow _ _ => false
  | .tsat _ _ _ => false
  | .ldB _ _ _ _ _ => false
  | .lduB _ _ _ _ _ => false
  | .ldH _ _ _ _ _ => false
  | .lduH _ _ _ _ _ => false
  | .ldW _ _ _ _ _ => false
  | .lduW _ _ _ _ _ => false
  | .ldD _ _ _ _ _ => false
  | .stB _ _ _ _ _ => false
  | .stH _ _ _ _ _ => false
  | .stW _ _ _ _ _ => false
  | .stD _ _ _ _ _ => false
  | .ldxB _ _ _ _ _ => false
  | .ldxH _ _ _ _ _ => false
  | .ldxW _ _ _ _ _ => false
  | .ldxD _ _ _ _ _ => false
  | .ldxuB _ _ _ _ _ => false
  | .ldxuH _ _ _ _ _ => false
  | .ldxuW _ _ _ _ _ => false
  | .stxB _ _ _ _ _ => false
  | .stxH _ _ _ _ _ => false
  | .stxW _ _ _ _ _ => false
  | .stxD _ _ _ _ _ => false
  | .amoAdd _ _ _ _ _ _ => false
  | .amoAnd _ _ _ _ _ _ => false
  | .amoOr _ _ _ _ _ _ => false
  | .amoXor _ _ _ _ _ _ => false
  | .amoMin _ _ _ _ _ _ => false
  | .amoMax _ _ _ _ _ _ => false
  | .amoMinu _ _ _ _ _ _ => false
  | .amoMaxu _ _ _ _ _ _ => false
  | .amoSwap _ _ _ _ _ _ => false
  | .amoCas _ _ _ _ _ _ => false
  | .amoFadd _ _ _ _ _ => false
  | .amoFadd2 _ _ _ _ _ => false
  | .pref _ _ _ _ => false
  | .cbflush _ _ _ => false
  | .sfork _ _ _ => false
  | .sjoin _ _ _ => false
  | .swait _ _ _ _ => false
  | .sexp _ _ _ => false
  | .simp _ _ _ => false
  | .sstat _ _ _ _ => false
  | .fence _ _ _ => false
  | .vld _ _ _ _ _ => false
  | .vst _ _ _ _ _ => false
  | .vldx _ _ _ _ _ _ => false
  | .vstx _ _ _ _ _ _ => false
  | .vadd _ _ _ _ _ _ => false
  | .vsub _ _ _ _ _ _ => false
  | .vmul _ _ _ _ _ _ => false
  | .vfma _ _ _ _ _ _ => false
  | .vfms _ _ _ _ _ _ => false
  | .vfnma _ _ _ _ _ _ => false
  | .vmin _ _ _ _ _ _ => false
  | .vmax _ _ _ _ _ _ => false
  | .vabs _ _ _ _ _ => false
  | .vneg _ _ _ _ _ => false
  | .vdiv _ _ _ _ _ _ => false
  | .vsqrt _ _ _ _ _ => false
  | .vrsqrt _ _ _ _ _ => false
  | .vrcp _ _ _ _ _ => false
  | .vexp2 _ _ _ _ _ => false
  | .vlog2 _ _ _ _ _ => false
  | .vsig _ _ _ _ _ => false
  | .vtanh _ _ _ _ _ => false
  | .viadd _ _ _ _ _ _ => false
  | .visub _ _ _ _ _ _ => false
  | .vimul _ _ _ _ _ _ => false
  | .vimulh _ _ _ _ _ _ => false
  | .vand _ _ _ _ _ _ => false
  | .vor _ _ _ _ _ _ => false
  | .vxor _ _ _ _ _ _ => false
  | .vsll _ _ _ _ _ _ => false
  | .vsrl _ _ _ _ _ _ => false
  | .vsra _ _ _ _ _ _ => false
  | .vimin _ _ _ _ _ _ => false
  | .vimax _ _ _ _ _ _ => false
  | .viminu _ _ _ _ _ _ => false
  | .vimaxu _ _ _ _ _ _ => false
  | .vcmpEq _ _ _ _ _ _ => false
  | .vcmpLt _ _ _ _ _ _ => false
  | .vcmpLe _ _ _ _ _ _ => false
  | .vsel _ _ _ _ _ _ => false
  | .vperm _ _ _ _ _ _ => false
  | .vbcast _ _ _ _ _ => false
  | .vslide _ _ _ _ _ _ => false
  | .vmov _ _ _ _ _ => false
  | .vredAdd _ _ _ _ _ => false
  | .vredMax _ _ _ _ _ => false
  | .vredMin _ _ _ _ _ => false
  | .vcvt _ _ _ _ _ => false
  | .vxt _ _ _ _ _ => false
  | .vins _ _ _ _ _ => false
  | .mand _ _ _ _ => false
  | .mor _ _ _ _ => false
  | .mxor _ _ _ _ => false
  | .mnot _ _ _ => false
  | .mpop _ _ _ => false
  | .mset _ _ _ => false
  | .strbind _ _ _ _ _ => false
  | .strfree _ _ _ => false
  | .strst _ _ _ => false
  | .bscale _ _ _ _ => false
  | .baddqAcc _ _ _ _ _ => false
  | .baddqOut _ _ _ _ _ => false
  | .vsr _ _ _ => false
  | .mcfg _ _ _ => false
  | .mload _ _ _ _ => false
  | .mmul _ _ _ _ => false
  | .mmulz _ _ _ _ => false
  | .mmulBc _ _ _ _ => false
  | .mtmul _ _ _ _ => false
  | .acld _ _ _ _ => false
  | .acst _ _ _ _ => false
  | .acrd _ _ _ _ => false
  | .acwr _ _ _ _ => false
  | .acz _ _ _ => false
  | .mredund _ _ _ => false
  | .mqst _ _ _ => false
  | .kset _ _ _ _ => false
  | .seval _ _ _ _ => false
  | .sderiv _ _ _ _ => false
  | .sgfold _ _ _ _ => false
  | .sload _ _ _ _ => false
  | .srefine _ _ => false
  | .sextend _ _ _ => false
  | .kcnt _ _ _ _ => false
  | .sbrec _ _ _ _ => false
  | .cyopen _ _ _ _ => false
  | .cyphase _ _ _ _ => false
  | .cyres _ _ _ _ => false
  | .cytest _ _ _ => false
  | .cyclose _ _ _ => false
  | .cystat _ _ _ => false
  | .cyack _ _ _ => false
  | .cpq _ _ _ => false
  | .cpwp _ _ _ => false
  | .cpwait _ _ _ _ => false
  | .cpst _ _ _ _ => false
  | .cpqNb _ _ _ => false
  | .msend _ _ _ _ _ => false
  | .mpost _ _ _ _ _ => false
  | .mprobe _ _ _ _ => false
  | .mcancel _ _ _ => false
  | .lnpark _ _ _ => false
  | .lnwake _ _ _ => false
  | .lnst _ _ _ => false
  | .gwtake _ _ _ => false
  | .nspawn _ _ _ => false
  | .ndone _ => false
  | .nyield _ _ => false
  | .ndep _ _ _ _ => false
  | .rlaunch _ _ _ _ => false
  | .rswitchSuspend _ _ _ _ => false
  | .sys _ _ _ => false
  | .eret _ => false
  | .srd _ _ _ => false
  | .swr _ _ _ => false
  | .wfi _ => false
  | .gstop _ _ _ => false
  | .tlbinv _ _ _ _ => false
  | .pginvack _ _ _ => false
  | .pwreq _ _ _ => false
  | .ckpt _ _ _ => false
  | .cMov _ _ => false
  | .cLi _ _ => false
  | .cAddi _ _ => false
  | .cAdd _ _ => false
  | .cSub _ _ => false
  | .cAnd _ _ => false
  | .cOr _ _ => false
  | .cLd _ _ => false
  | .cSt _ _ => false
  | .cBz _ _ => false
  | .cBnz _ _ => false
  | .cJmp _ => false
  | .cRet => false
  | .cMark => false
  | .cNop => false
  | .cpstResume _ _ _ _ => false
  | .cpstAbandon _ _ _ _ => false
  | .rswitchResume _ _ _ _ => false
  | .rswitchEnd _ _ _ _ => false
  | .instructionFetch => true
  | .parkEnd => true
  | .nonblockingResultReturn _ => true
  | .interruptTaken => true
  | .waitDeadline => true
  | .wfiWake => true
  | .sleepWakeEvent => true
  | .pageWalk _ _ => true
  | .remoteTranslationRequest _ _ _ _ => true
  | .translationReply _ _ _ _ _ _ _ => true
  | .tlbInvalidation _ _ _ _ _ => true
  | .invalidationAck _ _ _ => true
  | .remoteAccessArrival _ => true
  | .hostAccessArrival _ => true
  | .combiningDrain _ => true
  | .combiningIdleTimeout _ => true
  | .writeAcknowledgement _ _ => true
  | .routerReadAbsorb _ => true
  | .readReplyArrival _ _ _ _ => true
  | .atomicPerform _ _ _ _ => true
  | .pinExpiry _ => true
  | .forkMarkerPerformed _ => true
  | .joinMarkerPerformed _ => true
  | .tokenCheckRequest _ _ => true
  | .tokenCheckReply _ => true
  | .streamFetch _ => true
  | .tileBegin _ => true
  | .stripDrain _ => true
  | .busTileArrival _ => true
  | .gridCommandPerform _ => true
  | .engineClockGate _ => true
  | .startSequencerAdmit => true
  | .barrierRelease _ => true
  | .phaseTimeout _ => true
  | .cycleDecision _ => true
  | .copyBegin _ => true
  | .copyUnitDelivered _ => true
  | .copyErrorStop _ _ => true
  | .messageArrival _ => true
  | .overflowPayloadCopy _ => true
  | .deadlockProbe _ => true
  | .probeReturn _ => true
  | .laneFailure _ _ => true
  | .crcErrorResend _ _ => true
  | .postedWriteRefused _ => true
  | .packetBoundary _ _ => true
  | .laneLocked _ _ => true
  | .skeinParked _ => true
  | .skeinWakeTimeout _ => true
  | .firmwareRetune _ _ => true
  | .migrationForwardExpiry _ => true
  | .releasePointPerformed _ => true
  | .dispatch => true
  | .priorityAgeing _ => true
  | .ringWp _ => true
  | .ringReset _ => true
  | .launch => true
  | .suspend => true
  | .resume => true
  | .endRec => true
  | .gangStop _ => true
  | .gangResume _ => true
  | .gstopResume _ => true
  | .checkpointTick => true
  | .uncorrectableMemoryError _ _ => true
  | .patrolScrub _ _ => true
  | .retentionEntry _ => true
  | .retentionExit _ _ => true
  | .timingErrorReplay _ => true
  | .budgetRecompute _ _ _ => true
  | .clockRelock _ => true
  | .moduleReset => true
  | .tkKey _ _ => true
  | .bkFmt _ _ _ => true
  | .cgPat _ _ _ => true
  | .csTab _ _ _ => true
  | .rgAlias _ _ => true
  | .mxCfg _ _ => true
  | .unknownKindRingRecord => true
  | .attestationRequest _ => true
  | .firmwareUpdateRequest _ => true

/-- The four rows that share the word of another row and are told apart by a register's value when they execute
(R345, R391): the decoder answers the row that stands first in the table. -/
def Instr.sharesWord : Instr → Bool
  | .add _ _ _ _ _ => false
  | .sub _ _ _ _ _ => false
  | .and _ _ _ _ => false
  | .or _ _ _ _ => false
  | .xor _ _ _ _ => false
  | .sll _ _ _ _ _ => false
  | .srl _ _ _ _ _ => false
  | .sra _ _ _ _ _ => false
  | .slt _ _ _ _ => false
  | .sltu _ _ _ _ => false
  | .min _ _ _ _ => false
  | .max _ _ _ _ => false
  | .minu _ _ _ _ => false
  | .maxu _ _ _ _ => false
  | .rotl _ _ _ _ _ => false
  | .rotr _ _ _ _ _ => false
  | .mul _ _ _ _ _ => false
  | .mulh _ _ _ _ => false
  | .mulhu _ _ _ _ => false
  | .div _ _ _ _ _ => false
  | .divu _ _ _ _ _ => false
  | .rem _ _ _ _ _ => false
  | .remu _ _ _ _ _ => false
  | .sel _ _ _ _ _ => false
  | .clz _ _ _ _ => false
  | .ctz _ _ _ _ => false
  | .popc _ _ _ _ => false
  | .sext _ _ _ _ => false
  | .zext _ _ _ _ => false
  | .bext _ _ _ => false
  | .bins _ _ _ => false
  | .lea _ _ _ _ _ => false
  | .addi _ _ _ _ => false
  | .andi _ _ _ _ => false
  | .ori _ _ _ _ => false
  | .xori _ _ _ _ => false
  | .slti _ _ _ _ => false
  | .sltiu _ _ _ _ => false
  | .slli _ _ _ _ => false
  | .srli _ _ _ _ => false
  | .srai _ _ _ _ => false
  | .li _ _ _ => false
  | .lsh _ _ _ => false
  | .pcrel _ _ _ => false
  | .gadr _ _ _ _ => false
  | .beq _ _ _ _ => false
  | .bne _ _ _ _ => false
  | .blt _ _ _ _ => false
  | .bge _ _ _ _ => false
  | .bltu _ _ _ _ => false
  | .bgeu _ _ _ _ => false
  | .jmp _ _ => false
  | .call _ _ => false
  | .ret _ _ => false
  | .jt _ _ _ => false
  | .jtc _ _ _ => false
  | .callr _ _ => false
  | .lpad _ _ => false
  | .oxmv _ _ _ => false
  | .oxrd _ _ _ => false
  | .oxli _ _ _ _ => false
  | .twait _ _ _ => false
  | .sleep _ _ _ => false
  | .tsnow _ _ => false
  | .tsat _ _ _ => false
  | .ldB _ _ _ _ _ => false
  | .lduB _ _ _ _ _ => false
  | .ldH _ _ _ _ _ => false
  | .lduH _ _ _ _ _ => false
  | .ldW _ _ _ _ _ => false
  | .lduW _ _ _ _ _ => false
  | .ldD _ _ _ _ _ => false
  | .stB _ _ _ _ _ => false
  | .stH _ _ _ _ _ => false
  | .stW _ _ _ _ _ => false
  | .stD _ _ _ _ _ => false
  | .ldxB _ _ _ _ _ => false
  | .ldxH _ _ _ _ _ => false
  | .ldxW _ _ _ _ _ => false
  | .ldxD _ _ _ _ _ => false
  | .ldxuB _ _ _ _ _ => false
  | .ldxuH _ _ _ _ _ => false
  | .ldxuW _ _ _ _ _ => false
  | .stxB _ _ _ _ _ => false
  | .stxH _ _ _ _ _ => false
  | .stxW _ _ _ _ _ => false
  | .stxD _ _ _ _ _ => false
  | .amoAdd _ _ _ _ _ _ => false
  | .amoAnd _ _ _ _ _ _ => false
  | .amoOr _ _ _ _ _ _ => false
  | .amoXor _ _ _ _ _ _ => false
  | .amoMin _ _ _ _ _ _ => false
  | .amoMax _ _ _ _ _ _ => false
  | .amoMinu _ _ _ _ _ _ => false
  | .amoMaxu _ _ _ _ _ _ => false
  | .amoSwap _ _ _ _ _ _ => false
  | .amoCas _ _ _ _ _ _ => false
  | .amoFadd _ _ _ _ _ => false
  | .amoFadd2 _ _ _ _ _ => false
  | .pref _ _ _ _ => false
  | .cbflush _ _ _ => false
  | .sfork _ _ _ => false
  | .sjoin _ _ _ => false
  | .swait _ _ _ _ => false
  | .sexp _ _ _ => false
  | .simp _ _ _ => false
  | .sstat _ _ _ _ => false
  | .fence _ _ _ => false
  | .vld _ _ _ _ _ => false
  | .vst _ _ _ _ _ => false
  | .vldx _ _ _ _ _ _ => false
  | .vstx _ _ _ _ _ _ => false
  | .vadd _ _ _ _ _ _ => false
  | .vsub _ _ _ _ _ _ => false
  | .vmul _ _ _ _ _ _ => false
  | .vfma _ _ _ _ _ _ => false
  | .vfms _ _ _ _ _ _ => false
  | .vfnma _ _ _ _ _ _ => false
  | .vmin _ _ _ _ _ _ => false
  | .vmax _ _ _ _ _ _ => false
  | .vabs _ _ _ _ _ => false
  | .vneg _ _ _ _ _ => false
  | .vdiv _ _ _ _ _ _ => false
  | .vsqrt _ _ _ _ _ => false
  | .vrsqrt _ _ _ _ _ => false
  | .vrcp _ _ _ _ _ => false
  | .vexp2 _ _ _ _ _ => false
  | .vlog2 _ _ _ _ _ => false
  | .vsig _ _ _ _ _ => false
  | .vtanh _ _ _ _ _ => false
  | .viadd _ _ _ _ _ _ => false
  | .visub _ _ _ _ _ _ => false
  | .vimul _ _ _ _ _ _ => false
  | .vimulh _ _ _ _ _ _ => false
  | .vand _ _ _ _ _ _ => false
  | .vor _ _ _ _ _ _ => false
  | .vxor _ _ _ _ _ _ => false
  | .vsll _ _ _ _ _ _ => false
  | .vsrl _ _ _ _ _ _ => false
  | .vsra _ _ _ _ _ _ => false
  | .vimin _ _ _ _ _ _ => false
  | .vimax _ _ _ _ _ _ => false
  | .viminu _ _ _ _ _ _ => false
  | .vimaxu _ _ _ _ _ _ => false
  | .vcmpEq _ _ _ _ _ _ => false
  | .vcmpLt _ _ _ _ _ _ => false
  | .vcmpLe _ _ _ _ _ _ => false
  | .vsel _ _ _ _ _ _ => false
  | .vperm _ _ _ _ _ _ => false
  | .vbcast _ _ _ _ _ => false
  | .vslide _ _ _ _ _ _ => false
  | .vmov _ _ _ _ _ => false
  | .vredAdd _ _ _ _ _ => false
  | .vredMax _ _ _ _ _ => false
  | .vredMin _ _ _ _ _ => false
  | .vcvt _ _ _ _ _ => false
  | .vxt _ _ _ _ _ => false
  | .vins _ _ _ _ _ => false
  | .mand _ _ _ _ => false
  | .mor _ _ _ _ => false
  | .mxor _ _ _ _ => false
  | .mnot _ _ _ => false
  | .mpop _ _ _ => false
  | .mset _ _ _ => false
  | .strbind _ _ _ _ _ => false
  | .strfree _ _ _ => false
  | .strst _ _ _ => false
  | .bscale _ _ _ _ => false
  | .baddqAcc _ _ _ _ _ => false
  | .baddqOut _ _ _ _ _ => false
  | .vsr _ _ _ => false
  | .mcfg _ _ _ => false
  | .mload _ _ _ _ => false
  | .mmul _ _ _ _ => false
  | .mmulz _ _ _ _ => false
  | .mmulBc _ _ _ _ => false
  | .mtmul _ _ _ _ => false
  | .acld _ _ _ _ => false
  | .acst _ _ _ _ => false
  | .acrd _ _ _ _ => false
  | .acwr _ _ _ _ => false
  | .acz _ _ _ => false
  | .mredund _ _ _ => false
  | .mqst _ _ _ => false
  | .kset _ _ _ _ => false
  | .seval _ _ _ _ => false
  | .sderiv _ _ _ _ => false
  | .sgfold _ _ _ _ => false
  | .sload _ _ _ _ => false
  | .srefine _ _ => false
  | .sextend _ _ _ => false
  | .kcnt _ _ _ _ => false
  | .sbrec _ _ _ _ => false
  | .cyopen _ _ _ _ => false
  | .cyphase _ _ _ _ => false
  | .cyres _ _ _ _ => false
  | .cytest _ _ _ => false
  | .cyclose _ _ _ => false
  | .cystat _ _ _ => false
  | .cyack _ _ _ => false
  | .cpq _ _ _ => false
  | .cpwp _ _ _ => false
  | .cpwait _ _ _ _ => false
  | .cpst _ _ _ _ => false
  | .cpqNb _ _ _ => false
  | .msend _ _ _ _ _ => false
  | .mpost _ _ _ _ _ => false
  | .mprobe _ _ _ _ => false
  | .mcancel _ _ _ => false
  | .lnpark _ _ _ => false
  | .lnwake _ _ _ => false
  | .lnst _ _ _ => false
  | .gwtake _ _ _ => false
  | .nspawn _ _ _ => false
  | .ndone _ => false
  | .nyield _ _ => false
  | .ndep _ _ _ _ => false
  | .rlaunch _ _ _ _ => false
  | .rswitchSuspend _ _ _ _ => false
  | .sys _ _ _ => false
  | .eret _ => false
  | .srd _ _ _ => false
  | .swr _ _ _ => false
  | .wfi _ => false
  | .gstop _ _ _ => false
  | .tlbinv _ _ _ _ => false
  | .pginvack _ _ _ => false
  | .pwreq _ _ _ => false
  | .ckpt _ _ _ => false
  | .cMov _ _ => false
  | .cLi _ _ => false
  | .cAddi _ _ => false
  | .cAdd _ _ => false
  | .cSub _ _ => false
  | .cAnd _ _ => false
  | .cOr _ _ => false
  | .cLd _ _ => false
  | .cSt _ _ => false
  | .cBz _ _ => false
  | .cBnz _ _ => false
  | .cJmp _ => false
  | .cRet => false
  | .cMark => false
  | .cNop => false
  | .cpstResume _ _ _ _ => true
  | .cpstAbandon _ _ _ _ => true
  | .rswitchResume _ _ _ _ => true
  | .rswitchEnd _ _ _ _ => true
  | .instructionFetch => false
  | .parkEnd => false
  | .nonblockingResultReturn _ => false
  | .interruptTaken => false
  | .waitDeadline => false
  | .wfiWake => false
  | .sleepWakeEvent => false
  | .pageWalk _ _ => false
  | .remoteTranslationRequest _ _ _ _ => false
  | .translationReply _ _ _ _ _ _ _ => false
  | .tlbInvalidation _ _ _ _ _ => false
  | .invalidationAck _ _ _ => false
  | .remoteAccessArrival _ => false
  | .hostAccessArrival _ => false
  | .combiningDrain _ => false
  | .combiningIdleTimeout _ => false
  | .writeAcknowledgement _ _ => false
  | .routerReadAbsorb _ => false
  | .readReplyArrival _ _ _ _ => false
  | .atomicPerform _ _ _ _ => false
  | .pinExpiry _ => false
  | .forkMarkerPerformed _ => false
  | .joinMarkerPerformed _ => false
  | .tokenCheckRequest _ _ => false
  | .tokenCheckReply _ => false
  | .streamFetch _ => false
  | .tileBegin _ => false
  | .stripDrain _ => false
  | .busTileArrival _ => false
  | .gridCommandPerform _ => false
  | .engineClockGate _ => false
  | .startSequencerAdmit => false
  | .barrierRelease _ => false
  | .phaseTimeout _ => false
  | .cycleDecision _ => false
  | .copyBegin _ => false
  | .copyUnitDelivered _ => false
  | .copyErrorStop _ _ => false
  | .messageArrival _ => false
  | .overflowPayloadCopy _ => false
  | .deadlockProbe _ => false
  | .probeReturn _ => false
  | .laneFailure _ _ => false
  | .crcErrorResend _ _ => false
  | .postedWriteRefused _ => false
  | .packetBoundary _ _ => false
  | .laneLocked _ _ => false
  | .skeinParked _ => false
  | .skeinWakeTimeout _ => false
  | .firmwareRetune _ _ => false
  | .migrationForwardExpiry _ => false
  | .releasePointPerformed _ => false
  | .dispatch => false
  | .priorityAgeing _ => false
  | .ringWp _ => false
  | .ringReset _ => false
  | .launch => false
  | .suspend => false
  | .resume => false
  | .endRec => false
  | .gangStop _ => false
  | .gangResume _ => false
  | .gstopResume _ => false
  | .checkpointTick => false
  | .uncorrectableMemoryError _ _ => false
  | .patrolScrub _ _ => false
  | .retentionEntry _ => false
  | .retentionExit _ _ => false
  | .timingErrorReplay _ => false
  | .budgetRecompute _ _ _ => false
  | .clockRelock _ => false
  | .moduleReset => false
  | .tkKey _ _ => false
  | .bkFmt _ _ _ => false
  | .cgPat _ _ _ => false
  | .csTab _ _ _ => false
  | .rgAlias _ _ => false
  | .mxCfg _ _ => false
  | .unknownKindRingRecord => false
  | .attestationRequest _ => false
  | .firmwareUpdateRequest _ => false

end Sys2Proof
end

