-- ==== Sys2Proof/Decode.lean ====
section
/-! DEFINITION. The decoder and the encoder (03 Instruction formats and opcode map).
`decode` is total on any bytes and says why it refuses; `encode` writes the words of an instruction from the same
formats. -/

namespace Sys2Proof

/-- Why a halfword or a word is not an instruction (R85). -/
inductive Illegal where
  /-- the major opcode is reserved (R75) -/
  | reservedMajor
  /-- the function number is not listed (R77) -/
  | unlistedFunction
  /-- a field holds a value its rule forbids (R67, R76, R78 to R81, R83) -/
  | badField
  /-- the halfword 0x0000 (R84) -/
  | zeroHalfword
  /-- op4 = 15 (R83) -/
  | reservedCompact
deriving DecidableEq, Repr

/-- Why `decode` answers no instruction. -/
inductive DecodeStop where
  /-- fewer bytes than the instruction has (R62) -/
  | short
  /-- the bytes are not an instruction (R85) -/
  | illegal (why : Illegal)
deriving DecidableEq, Repr

/-- The switch marker, bit 31 (R65). -/
def fM (w : BitVec 32) : Bool := w.getLsbD 31
/-- The d field (R65). -/
def fD (w : BitVec 32) : BitVec 5 := w.extractLsb' 7 5
/-- The a field (R65). -/
def fA (w : BitVec 32) : BitVec 5 := w.extractLsb' 12 5
/-- The b field (R65). -/
def fB (w : BitVec 32) : BitVec 5 := w.extractLsb' 17 5
/-- A d field that names one of eight registers (R67). -/
def fD3 (w : BitVec 32) : BitVec 3 := w.extractLsb' 7 3
/-- An a field that names one of eight registers (R67). -/
def fA3 (w : BitVec 32) : BitVec 3 := w.extractLsb' 12 3
/-- A b field that names one of eight registers (R67). -/
def fB3 (w : BitVec 32) : BitVec 3 := w.extractLsb' 17 3
/-- The sn field of format X, the m field of format V (R65). -/
def fSn (w : BitVec 32) : BitVec 3 := w.extractLsb' 22 3
/-- The q field of format A (R65). -/
def fQ (w : BitVec 32) : BitVec 3 := w.extractLsb' 28 3
/-- The sn field of format C (R65). -/
def fSnC (w : BitVec 32) : BitVec 3 := w.extractLsb' 27 3
/-- The offset of format C (R65). -/
def fOff10 (w : BitVec 32) : BitVec 10 := w.extractLsb' 17 10
/-- The immediate of format B, the offset of format D (R65). -/
def fImm14 (w : BitVec 32) : BitVec 14 := w.extractLsb' 17 14
/-- The immediate of format E (R65). -/
def fImm19 (w : BitVec 32) : BitVec 19 := w.extractLsb' 12 19
/-- The offset of format J (R65). -/
def fOff24 (w : BitVec 32) : BitVec 24 := w.extractLsb' 7 24

/-- The major opcode (R65). -/
def major (w : BitVec 32) : Nat := (w.extractLsb' 1 6).toNat
/-- The function number of format A (R65). -/
def fnA (w : BitVec 32) : Nat := (w.extractLsb' 22 6).toNat
/-- The function number of format X (R65). -/
def fnX (w : BitVec 32) : Nat := (w.extractLsb' 25 6).toNat
/-- The function number of format V (R65). -/
def fnV (w : BitVec 32) : Nat := (w.extractLsb' 25 5).toNat

/-- The instruction when the fields that must hold a fixed value do (R67, R85). -/
def must (c : Bool) (i : Instr) : Except Illegal Instr := if c then .ok i else .error .badField

/-- The instructions of major 0x01 (R77). -/
def decodeMajor01 (w : BitVec 32) : Except Illegal Instr :=
  match fnA w with
  | 0 => must (w.extractLsb' 29 2 == 0#2) (.add (fD w) (fA w) (fB w) (w.getLsbD 28) (fM w))
  | 1 => must (w.extractLsb' 29 2 == 0#2) (.sub (fD w) (fA w) (fB w) (w.getLsbD 28) (fM w))
  | 2 => must (w.extractLsb' 28 3 == 0#3) (.and (fD w) (fA w) (fB w) (fM w))
  | 3 => must (w.extractLsb' 28 3 == 0#3) (.or (fD w) (fA w) (fB w) (fM w))
  | 4 => must (w.extractLsb' 28 3 == 0#3) (.xor (fD w) (fA w) (fB w) (fM w))
  | 5 => must (w.extractLsb' 29 2 == 0#2) (.sll (fD w) (fA w) (fB w) (w.getLsbD 28) (fM w))
  | 6 => must (w.extractLsb' 29 2 == 0#2) (.srl (fD w) (fA w) (fB w) (w.getLsbD 28) (fM w))
  | 7 => must (w.extractLsb' 29 2 == 0#2) (.sra (fD w) (fA w) (fB w) (w.getLsbD 28) (fM w))
  | 8 => must (w.extractLsb' 28 3 == 0#3) (.slt (fD w) (fA w) (fB w) (fM w))
  | 9 => must (w.extractLsb' 28 3 == 0#3) (.sltu (fD w) (fA w) (fB w) (fM w))
  | 10 => must (w.extractLsb' 28 3 == 0#3) (.min (fD w) (fA w) (fB w) (fM w))
  | 11 => must (w.extractLsb' 28 3 == 0#3) (.max (fD w) (fA w) (fB w) (fM w))
  | 12 => must (w.extractLsb' 28 3 == 0#3) (.minu (fD w) (fA w) (fB w) (fM w))
  | 13 => must (w.extractLsb' 28 3 == 0#3) (.maxu (fD w) (fA w) (fB w) (fM w))
  | 14 => must (w.extractLsb' 29 2 == 0#2) (.rotl (fD w) (fA w) (fB w) (w.getLsbD 28) (fM w))
  | 15 => must (w.extractLsb' 29 2 == 0#2) (.rotr (fD w) (fA w) (fB w) (w.getLsbD 28) (fM w))
  | 16 => must (w.extractLsb' 29 2 == 0#2) (.mul (fD w) (fA w) (fB w) (w.getLsbD 28) (fM w))
  | 17 => must (w.extractLsb' 28 3 == 0#3) (.mulh (fD w) (fA w) (fB w) (fM w))
  | 18 => must (w.extractLsb' 28 3 == 0#3) (.mulhu (fD w) (fA w) (fB w) (fM w))
  | 19 => must (w.extractLsb' 29 2 == 0#2) (.div (fD w) (fA w) (fB w) (w.getLsbD 28) (fM w))
  | 20 => must (w.extractLsb' 29 2 == 0#2) (.divu (fD w) (fA w) (fB w) (w.getLsbD 28) (fM w))
  | 21 => must (w.extractLsb' 29 2 == 0#2) (.rem (fD w) (fA w) (fB w) (w.getLsbD 28) (fM w))
  | 22 => must (w.extractLsb' 29 2 == 0#2) (.remu (fD w) (fA w) (fB w) (w.getLsbD 28) (fM w))
  | 23 => .ok (.sel (fD w) (fA w) (fB w) (fQ w) (fM w))
  | 24 => must (w.extractLsb' 29 2 == 0#2 && w.extractLsb' 17 5 == 0#5) (.clz (fD w) (fA w) (w.getLsbD 28) (fM w))
  | 25 => must (w.extractLsb' 29 2 == 0#2 && w.extractLsb' 17 5 == 0#5) (.ctz (fD w) (fA w) (w.getLsbD 28) (fM w))
  | 26 => must (w.extractLsb' 29 2 == 0#2 && w.extractLsb' 17 5 == 0#5) (.popc (fD w) (fA w) (w.getLsbD 28) (fM w))
  | 27 => must (w.extractLsb' 17 5 == 0#5) (.sext (fD w) (fA w) (fQ w) (fM w))
  | 28 => must (w.extractLsb' 17 5 == 0#5) (.zext (fD w) (fA w) (fQ w) (fM w))
  | 29 => must (w.extractLsb' 28 3 == 0#3 && w.extractLsb' 17 5 == 0#5) (.bext (fD w) (fA w) (fM w))
  | 30 => must (w.extractLsb' 28 3 == 0#3 && w.extractLsb' 17 5 == 0#5) (.bins (fD w) (fA w) (fM w))
  | 31 => .ok (.lea (fD w) (fA w) (fB w) (fQ w) (fM w))
  | _ => .error .unlistedFunction

/-- The instructions of major 0x08 (R77). -/
def decodeMajor08 (w : BitVec 32) : Except Illegal Instr :=
  match fnA w with
  | 0 => must (w.extractLsb' 29 2 == 0#2) (.slli (fD w) (fA w) (w.extractLsb' 28 1 ++ w.extractLsb' 17 5) (fM w))
  | 1 => must (w.extractLsb' 29 2 == 0#2) (.srli (fD w) (fA w) (w.extractLsb' 28 1 ++ w.extractLsb' 17 5) (fM w))
  | 2 => must (w.extractLsb' 29 2 == 0#2) (.srai (fD w) (fA w) (w.extractLsb' 28 1 ++ w.extractLsb' 17 5) (fM w))
  | _ => .error .unlistedFunction

/-- The instructions of major 0x0C (R77). -/
def decodeMajor0C (w : BitVec 32) : Except Illegal Instr :=
  match fnA w with
  | 0 => must (w.extractLsb' 28 3 == 0#3) (.gadr (fD w) (fA w) (fB w) (fM w))
  | _ => .error .unlistedFunction

/-- The instructions of major 0x18 (R77). -/
def decodeMajor18 (w : BitVec 32) : Except Illegal Instr :=
  match fnA w with
  | 0 => must (w.extractLsb' 28 3 == 0#3 && w.extractLsb' 17 5 == 0#5 && w.extractLsb' 7 5 == 0#5) (.ret (fA w) (fM w))
  | 1 => must (w.extractLsb' 28 3 == 0#3 && w.extractLsb' 7 5 == 0#5) (.jt (fA w) (fB w) (fM w))
  | 2 => must (w.extractLsb' 28 3 == 0#3 && w.extractLsb' 7 5 == 0#5) (.jtc (fA w) (fB w) (fM w))
  | 3 => must (w.extractLsb' 28 3 == 0#3 && w.extractLsb' 17 5 == 0#5 && w.extractLsb' 7 5 == 0#5) (.callr (fA w) (fM w))
  | _ => .error .unlistedFunction

/-- The instructions of major 0x1A (R77). -/
def decodeMajor1A (w : BitVec 32) : Except Illegal Instr :=
  match fnA w with
  | 0 => must (w.extractLsb' 28 3 == 0#3 && w.extractLsb' 17 5 == 0#5 && w.extractLsb' 10 2 == 0#2) (.oxmv (fA w) (fD3 w) (fM w))
  | 1 => must (w.extractLsb' 28 3 == 0#3 && w.extractLsb' 15 7 == 0#7) (.oxrd (fD w) (fA3 w) (fM w))
  | _ => .error .unlistedFunction

/-- The instructions of major 0x1C (R77). -/
def decodeMajor1C (w : BitVec 32) : Except Illegal Instr :=
  match fnA w with
  | 0 => must (w.extractLsb' 28 3 == 0#3 && w.extractLsb' 17 5 == 0#5) (.twait (fD w) (fA w) (fM w))
  | 1 => must (w.extractLsb' 28 3 == 0#3 && w.extractLsb' 17 5 == 0#5) (.sleep (fD w) (fA w) (fM w))
  | 2 => must (w.extractLsb' 28 3 == 0#3 && w.extractLsb' 12 10 == 0#10) (.tsnow (fD w) (fM w))
  | 3 => must (w.extractLsb' 28 3 == 0#3 && w.extractLsb' 17 5 == 0#5) (.tsat (fD w) (fA w) (fM w))
  | _ => .error .unlistedFunction

/-- The instructions of major 0x28 (R77). -/
def decodeMajor28 (w : BitVec 32) : Except Illegal Instr :=
  match fnA w with
  | 0 => .ok (.ldxB (fD w) (fA w) (fB w) (fQ w) (fM w))
  | 1 => .ok (.ldxH (fD w) (fA w) (fB w) (fQ w) (fM w))
  | 2 => .ok (.ldxW (fD w) (fA w) (fB w) (fQ w) (fM w))
  | 3 => .ok (.ldxD (fD w) (fA w) (fB w) (fQ w) (fM w))
  | 4 => .ok (.ldxuB (fD w) (fA w) (fB w) (fQ w) (fM w))
  | 5 => .ok (.ldxuH (fD w) (fA w) (fB w) (fQ w) (fM w))
  | 6 => .ok (.ldxuW (fD w) (fA w) (fB w) (fQ w) (fM w))
  | 7 => .ok (.stxB (fD w) (fA w) (fB w) (fQ w) (fM w))
  | 8 => .ok (.stxH (fD w) (fA w) (fB w) (fQ w) (fM w))
  | 9 => .ok (.stxW (fD w) (fA w) (fB w) (fQ w) (fM w))
  | 10 => .ok (.stxD (fD w) (fA w) (fB w) (fQ w) (fM w))
  | _ => .error .unlistedFunction

/-- The instructions of major 0x29 (R77). -/
def decodeMajor29 (w : BitVec 32) : Except Illegal Instr :=
  match fnX w with
  | 0 => .ok (.amoAdd (fD w) (fA w) (fB w) false (fSn w) (fM w))
  | 1 => .ok (.amoAnd (fD w) (fA w) (fB w) false (fSn w) (fM w))
  | 2 => .ok (.amoOr (fD w) (fA w) (fB w) false (fSn w) (fM w))
  | 3 => .ok (.amoXor (fD w) (fA w) (fB w) false (fSn w) (fM w))
  | 4 => .ok (.amoMin (fD w) (fA w) (fB w) false (fSn w) (fM w))
  | 5 => .ok (.amoMax (fD w) (fA w) (fB w) false (fSn w) (fM w))
  | 6 => .ok (.amoMinu (fD w) (fA w) (fB w) false (fSn w) (fM w))
  | 7 => .ok (.amoMaxu (fD w) (fA w) (fB w) false (fSn w) (fM w))
  | 8 => .ok (.amoSwap (fD w) (fA w) (fB w) false (fSn w) (fM w))
  | 9 => .ok (.amoCas (fD w) (fA w) (fB w) false (fSn w) (fM w))
  | 10 => .ok (.amoFadd (fD w) (fA w) (fB w) (fSn w) (fM w))
  | 11 => .ok (.amoFadd2 (fD w) (fA w) (fB w) (fSn w) (fM w))
  | 16 => .ok (.amoAdd (fD w) (fA w) (fB w) true (fSn w) (fM w))
  | 17 => .ok (.amoAnd (fD w) (fA w) (fB w) true (fSn w) (fM w))
  | 18 => .ok (.amoOr (fD w) (fA w) (fB w) true (fSn w) (fM w))
  | 19 => .ok (.amoXor (fD w) (fA w) (fB w) true (fSn w) (fM w))
  | 20 => .ok (.amoMin (fD w) (fA w) (fB w) true (fSn w) (fM w))
  | 21 => .ok (.amoMax (fD w) (fA w) (fB w) true (fSn w) (fM w))
  | 22 => .ok (.amoMinu (fD w) (fA w) (fB w) true (fSn w) (fM w))
  | 23 => .ok (.amoMaxu (fD w) (fA w) (fB w) true (fSn w) (fM w))
  | 24 => .ok (.amoSwap (fD w) (fA w) (fB w) true (fSn w) (fM w))
  | 25 => .ok (.amoCas (fD w) (fA w) (fB w) true (fSn w) (fM w))
  | _ => .error .unlistedFunction

/-- The instructions of major 0x2A (R77). -/
def decodeMajor2A (w : BitVec 32) : Except Illegal Instr :=
  match fnX w with
  | 0 => must (w.extractLsb' 17 5 == 0#5) (.pref (fA w) (fD w) (fSn w) (fM w))
  | 1 => must (w.extractLsb' 17 5 == 0#5 && w.extractLsb' 7 5 == 0#5) (.cbflush (fA w) (fSn w) (fM w))
  | _ => .error .unlistedFunction

/-- The instructions of major 0x2B (R77). -/
def decodeMajor2B (w : BitVec 32) : Except Illegal Instr :=
  match fnX w with
  | 0 => must (w.extractLsb' 15 10 == 0#10 && w.extractLsb' 10 2 == 0#2) (.sfork (fD3 w) (fA3 w) (fM w))
  | 1 => must (w.extractLsb' 15 10 == 0#10 && w.extractLsb' 10 2 == 0#2) (.sjoin (fD3 w) (fA3 w) (fM w))
  | 2 => must (w.extractLsb' 15 7 == 0#7) (.swait (fD w) (fA3 w) (fSn w) (fM w))
  | 3 => must (w.extractLsb' 15 10 == 0#10) (.sexp (fD w) (fA3 w) (fM w))
  | 4 => must (w.extractLsb' 17 8 == 0#8 && w.extractLsb' 10 2 == 0#2) (.simp (fD3 w) (fA w) (fM w))
  | 5 => must (w.extractLsb' 22 3 == 0#3 && w.extractLsb' 15 2 == 0#2) (.sstat (fD w) (fA3 w) (fB w) (fM w))
  | _ => .error .unlistedFunction

/-- The instructions of major 0x32 (R77). -/
def decodeMajor32 (w : BitVec 32) : Except Illegal Instr :=
  match fnV w with
  | 0 => .ok (.vldx (fD w) (fA w) (fB w) (w.getLsbD 30) (fSn w) (fM w))
  | 1 => .ok (.vstx (fD w) (fA w) (fB w) (w.getLsbD 30) (fSn w) (fM w))
  | _ => .error .unlistedFunction

/-- The instructions of major 0x33 (R77). -/
def decodeMajor33 (w : BitVec 32) : Except Illegal Instr :=
  match fnV w with
  | 0 => .ok (.vadd (fD w) (fA w) (fB w) (w.getLsbD 30) (fSn w) (fM w))
  | 1 => .ok (.vsub (fD w) (fA w) (fB w) (w.getLsbD 30) (fSn w) (fM w))
  | 2 => .ok (.vmul (fD w) (fA w) (fB w) (w.getLsbD 30) (fSn w) (fM w))
  | 3 => .ok (.vfma (fD w) (fA w) (fB w) (w.getLsbD 30) (fSn w) (fM w))
  | 4 => .ok (.vfms (fD w) (fA w) (fB w) (w.getLsbD 30) (fSn w) (fM w))
  | 5 => .ok (.vfnma (fD w) (fA w) (fB w) (w.getLsbD 30) (fSn w) (fM w))
  | 6 => .ok (.vmin (fD w) (fA w) (fB w) (w.getLsbD 30) (fSn w) (fM w))
  | 7 => .ok (.vmax (fD w) (fA w) (fB w) (w.getLsbD 30) (fSn w) (fM w))
  | 8 => must (w.extractLsb' 17 5 == 0#5) (.vabs (fD w) (fA w) (w.getLsbD 30) (fSn w) (fM w))
  | 9 => must (w.extractLsb' 17 5 == 0#5) (.vneg (fD w) (fA w) (w.getLsbD 30) (fSn w) (fM w))
  | 10 => .ok (.vdiv (fD w) (fA w) (fB w) (w.getLsbD 30) (fSn w) (fM w))
  | 11 => must (w.extractLsb' 17 5 == 0#5) (.vsqrt (fD w) (fA w) (w.getLsbD 30) (fSn w) (fM w))
  | 12 => must (w.extractLsb' 17 5 == 0#5) (.vrsqrt (fD w) (fA w) (w.getLsbD 30) (fSn w) (fM w))
  | 13 => must (w.extractLsb' 17 5 == 0#5) (.vrcp (fD w) (fA w) (w.getLsbD 30) (fSn w) (fM w))
  | 14 => must (w.extractLsb' 17 5 == 0#5) (.vexp2 (fD w) (fA w) (w.getLsbD 30) (fSn w) (fM w))
  | 15 => must (w.extractLsb' 17 5 == 0#5) (.vlog2 (fD w) (fA w) (w.getLsbD 30) (fSn w) (fM w))
  | 16 => must (w.extractLsb' 17 5 == 0#5) (.vsig (fD w) (fA w) (w.getLsbD 30) (fSn w) (fM w))
  | 17 => must (w.extractLsb' 17 5 == 0#5) (.vtanh (fD w) (fA w) (w.getLsbD 30) (fSn w) (fM w))
  | _ => .error .unlistedFunction

/-- The instructions of major 0x34 (R77). -/
def decodeMajor34 (w : BitVec 32) : Except Illegal Instr :=
  match fnV w with
  | 0 => .ok (.viadd (fD w) (fA w) (fB w) (w.getLsbD 30) (fSn w) (fM w))
  | 1 => .ok (.visub (fD w) (fA w) (fB w) (w.getLsbD 30) (fSn w) (fM w))
  | 2 => .ok (.vimul (fD w) (fA w) (fB w) (w.getLsbD 30) (fSn w) (fM w))
  | 3 => .ok (.vimulh (fD w) (fA w) (fB w) (w.getLsbD 30) (fSn w) (fM w))
  | 4 => .ok (.vand (fD w) (fA w) (fB w) (w.getLsbD 30) (fSn w) (fM w))
  | 5 => .ok (.vor (fD w) (fA w) (fB w) (w.getLsbD 30) (fSn w) (fM w))
  | 6 => .ok (.vxor (fD w) (fA w) (fB w) (w.getLsbD 30) (fSn w) (fM w))
  | 7 => .ok (.vsll (fD w) (fA w) (fB w) (w.getLsbD 30) (fSn w) (fM w))
  | 8 => .ok (.vsrl (fD w) (fA w) (fB w) (w.getLsbD 30) (fSn w) (fM w))
  | 9 => .ok (.vsra (fD w) (fA w) (fB w) (w.getLsbD 30) (fSn w) (fM w))
  | 10 => .ok (.vimin (fD w) (fA w) (fB w) (w.getLsbD 30) (fSn w) (fM w))
  | 11 => .ok (.vimax (fD w) (fA w) (fB w) (w.getLsbD 30) (fSn w) (fM w))
  | 12 => .ok (.viminu (fD w) (fA w) (fB w) (w.getLsbD 30) (fSn w) (fM w))
  | 13 => .ok (.vimaxu (fD w) (fA w) (fB w) (w.getLsbD 30) (fSn w) (fM w))
  | _ => .error .unlistedFunction

/-- The instructions of major 0x35 (R77). -/
def decodeMajor35 (w : BitVec 32) : Except Illegal Instr :=
  match fnV w with
  | 0 => must (w.extractLsb' 10 2 == 0#2) (.vcmpEq (fD3 w) (fA w) (fB w) (w.getLsbD 30) (fSn w) (fM w))
  | 1 => must (w.extractLsb' 10 2 == 0#2) (.vcmpLt (fD3 w) (fA w) (fB w) (w.getLsbD 30) (fSn w) (fM w))
  | 2 => must (w.extractLsb' 10 2 == 0#2) (.vcmpLe (fD3 w) (fA w) (fB w) (w.getLsbD 30) (fSn w) (fM w))
  | 3 => .ok (.vsel (fD w) (fA w) (fB w) (w.getLsbD 30) (fSn w) (fM w))
  | 4 => .ok (.vperm (fD w) (fA w) (fB w) (w.getLsbD 30) (fSn w) (fM w))
  | 5 => must (w.extractLsb' 17 5 == 0#5) (.vbcast (fD w) (fA w) (w.getLsbD 30) (fSn w) (fM w))
  | 6 => .ok (.vslide (fD w) (fA w) (fB w) (w.getLsbD 30) (fSn w) (fM w))
  | 7 => must (w.extractLsb' 17 5 == 0#5) (.vmov (fD w) (fA w) (w.getLsbD 30) (fSn w) (fM w))
  | 8 => must (w.extractLsb' 17 5 == 0#5) (.vredAdd (fD w) (fA w) (w.getLsbD 30) (fSn w) (fM w))
  | 9 => must (w.extractLsb' 17 5 == 0#5) (.vredMax (fD w) (fA w) (w.getLsbD 30) (fSn w) (fM w))
  | 10 => must (w.extractLsb' 17 5 == 0#5) (.vredMin (fD w) (fA w) (w.getLsbD 30) (fSn w) (fM w))
  | 11 => must (w.extractLsb' 30 1 == 0#1) (.vcvt (fD w) (fA w) (fSn w) (fB w) (fM w))
  | 12 => must (w.extractLsb' 22 3 == 0#3) (.vxt (fD w) (fA w) (w.getLsbD 30) (fB w) (fM w))
  | 13 => must (w.extractLsb' 22 3 == 0#3) (.vins (fD w) (fA w) (w.getLsbD 30) (fB w) (fM w))
  | _ => .error .unlistedFunction

/-- The instructions of major 0x36 (R77). -/
def decodeMajor36 (w : BitVec 32) : Except Illegal Instr :=
  match fnV w with
  | 0 => must (w.extractLsb' 30 1 == 0#1 && w.extractLsb' 20 5 == 0#5 && w.extractLsb' 15 2 == 0#2 && w.extractLsb' 10 2 == 0#2) (.mand (fD3 w) (fA3 w) (fB3 w) (fM w))
  | 1 => must (w.extractLsb' 30 1 == 0#1 && w.extractLsb' 20 5 == 0#5 && w.extractLsb' 15 2 == 0#2 && w.extractLsb' 10 2 == 0#2) (.mor (fD3 w) (fA3 w) (fB3 w) (fM w))
  | 2 => must (w.extractLsb' 30 1 == 0#1 && w.extractLsb' 20 5 == 0#5 && w.extractLsb' 15 2 == 0#2 && w.extractLsb' 10 2 == 0#2) (.mxor (fD3 w) (fA3 w) (fB3 w) (fM w))
  | 3 => must (w.extractLsb' 30 1 == 0#1 && w.extractLsb' 15 10 == 0#10 && w.extractLsb' 10 2 == 0#2) (.mnot (fD3 w) (fA3 w) (fM w))
  | 4 => must (w.extractLsb' 30 1 == 0#1 && w.extractLsb' 15 10 == 0#10) (.mpop (fD w) (fA3 w) (fM w))
  | 5 => must (w.extractLsb' 30 1 == 0#1 && w.extractLsb' 17 8 == 0#8 && w.extractLsb' 10 2 == 0#2) (.mset (fD3 w) (fA w) (fM w))
  | _ => .error .unlistedFunction

/-- The instructions of major 0x37 (R77). -/
def decodeMajor37 (w : BitVec 32) : Except Illegal Instr :=
  match fnX w with
  | 0 => must (w.extractLsb' 10 2 == 3#2) (.strbind (fD3 w) (fA w) (fB w) (fSn w) (fM w))
  | 1 => must (w.extractLsb' 10 12 == 3#12) (.strfree (fD3 w) (fSn w) (fM w))
  | 2 => must (w.extractLsb' 15 10 == 3#10) (.strst (fD w) (fA3 w) (fM w))
  | _ => .error .unlistedFunction

/-- The instructions of major 0x38 (R77). -/
def decodeMajor38 (w : BitVec 32) : Except Illegal Instr :=
  match fnX w with
  | 0 => must (w.extractLsb' 22 3 == 0#3) (.bscale (fD w) (fA w) (fB w) (fM w))
  | 1 => .ok (.baddqAcc (fD w) (fA w) (fB w) (fSn w) (fM w))
  | 2 => .ok (.baddqOut (fD w) (fA w) (fB w) (fSn w) (fM w))
  | 3 => must (w.extractLsb' 17 8 == 0#8) (.vsr (fD w) (fA w) (fM w))
  | _ => .error .unlistedFunction

/-- The instructions of major 0x3A (R77). -/
def decodeMajor3A (w : BitVec 32) : Except Illegal Instr :=
  match fnX w with
  | 0 => must (w.extractLsb' 17 8 == 0#8) (.mcfg (fD w) (fA w) (fM w))
  | 1 => must (w.extractLsb' 7 5 == 0#5) (.mload (fA w) (fB w) (fSn w) (fM w))
  | 2 => must (w.extractLsb' 7 5 == 0#5) (.mmul (fA w) (fB w) (fSn w) (fM w))
  | 3 => must (w.extractLsb' 7 5 == 0#5) (.mmulz (fA w) (fB w) (fSn w) (fM w))
  | 4 => must (w.extractLsb' 7 5 == 0#5) (.mmulBc (fA w) (fB w) (fSn w) (fM w))
  | 5 => must (w.extractLsb' 7 5 == 0#5) (.mtmul (fA w) (fB w) (fSn w) (fM w))
  | 6 => must (w.extractLsb' 7 5 == 0#5) (.acld (fA w) (fB w) (fSn w) (fM w))
  | 7 => must (w.extractLsb' 7 5 == 0#5) (.acst (fA w) (fB w) (fSn w) (fM w))
  | 8 => must (w.extractLsb' 17 5 == 0#5) (.acrd (fD w) (fA w) (fSn w) (fM w))
  | 9 => must (w.extractLsb' 17 5 == 0#5) (.acwr (fD w) (fA w) (fSn w) (fM w))
  | 10 => must (w.extractLsb' 17 5 == 0#5 && w.extractLsb' 7 5 == 0#5) (.acz (fA w) (fSn w) (fM w))
  | 11 => must (w.extractLsb' 17 8 == 0#8) (.mredund (fD w) (fA w) (fM w))
  | 12 => must (w.extractLsb' 17 8 == 0#8) (.mqst (fD w) (fA w) (fM w))
  | _ => .error .unlistedFunction

/-- The instructions of major 0x3B (R77). -/
def decodeMajor3B (w : BitVec 32) : Except Illegal Instr :=
  match fnX w with
  | 0 => must (w.extractLsb' 7 5 == 0#5) (.kset (fA w) (fB w) (fSn w) (fM w))
  | 1 => must (w.extractLsb' 7 5 == 0#5) (.seval (fA w) (fB w) (fSn w) (fM w))
  | 2 => must (w.extractLsb' 7 5 == 0#5) (.sderiv (fA w) (fB w) (fSn w) (fM w))
  | 3 => must (w.extractLsb' 7 5 == 0#5) (.sgfold (fA w) (fB w) (fSn w) (fM w))
  | 4 => must (w.extractLsb' 7 5 == 0#5) (.sload (fA w) (fB w) (fSn w) (fM w))
  | 5 => must (w.extractLsb' 7 15 == 0#15) (.srefine (fSn w) (fM w))
  | 6 => must (w.extractLsb' 17 5 == 0#5 && w.extractLsb' 7 5 == 0#5) (.sextend (fA w) (fSn w) (fM w))
  | 7 => must (w.extractLsb' 17 5 == 0#5) (.kcnt (fD w) (fA w) (fSn w) (fM w))
  | 8 => must (w.extractLsb' 7 5 == 0#5) (.sbrec (fA w) (fB w) (fSn w) (fM w))
  | _ => .error .unlistedFunction

/-- The instructions of major 0x3C (R77). -/
def decodeMajor3C (w : BitVec 32) : Except Illegal Instr :=
  match fnX w with
  | 0 => must (w.extractLsb' 22 3 == 0#3) (.cyopen (fD w) (fA w) (fB w) (fM w))
  | 1 => must (w.extractLsb' 22 3 == 0#3) (.cyphase (fD w) (fA w) (fB w) (fM w))
  | 2 => must (w.extractLsb' 22 3 == 0#3) (.cyres (fD w) (fA w) (fB w) (fM w))
  | 3 => must (w.extractLsb' 17 8 == 0#8) (.cytest (fD w) (fA w) (fM w))
  | 4 => must (w.extractLsb' 17 8 == 0#8) (.cyclose (fD w) (fA w) (fM w))
  | 5 => must (w.extractLsb' 17 8 == 0#8) (.cystat (fD w) (fA w) (fM w))
  | 6 => must (w.extractLsb' 17 8 == 0#8) (.cyack (fD w) (fA w) (fM w))
  | _ => .error .unlistedFunction

/-- The instructions of major 0x3D (R77). -/
def decodeMajor3D (w : BitVec 32) : Except Illegal Instr :=
  match fnX w with
  | 0 => must (w.extractLsb' 17 8 == 0#8) (.cpq (fD w) (fA w) (fM w))
  | 1 => must (w.extractLsb' 17 8 == 0#8) (.cpwp (fD w) (fA w) (fM w))
  | 2 => must (w.extractLsb' 22 3 == 0#3) (.cpwait (fD w) (fA w) (fB w) (fM w))
  | 3 => must (w.extractLsb' 22 3 == 0#3) (.cpst (fD w) (fA w) (fB w) (fM w))
  | 4 => must (w.extractLsb' 17 8 == 0#8) (.cpqNb (fD w) (fA w) (fM w))
  | _ => .error .unlistedFunction

/-- The instructions of major 0x3E (R77). -/
def decodeMajor3E (w : BitVec 32) : Except Illegal Instr :=
  match fnX w with
  | 0 => .ok (.msend (fD w) (fA w) (fB w) (fSn w) (fM w))
  | 1 => .ok (.mpost (fD w) (fA w) (fB w) (fSn w) (fM w))
  | 2 => must (w.extractLsb' 22 3 == 0#3) (.mprobe (fD w) (fA w) (fB w) (fM w))
  | 3 => must (w.extractLsb' 17 8 == 0#8) (.mcancel (fD w) (fA w) (fM w))
  | 4 => must (w.extractLsb' 17 8 == 0#8) (.lnpark (fD w) (fA w) (fM w))
  | 5 => must (w.extractLsb' 17 8 == 0#8) (.lnwake (fD w) (fA w) (fM w))
  | 6 => must (w.extractLsb' 17 8 == 0#8) (.lnst (fD w) (fA w) (fM w))
  | 7 => must (w.extractLsb' 17 8 == 0#8) (.gwtake (fD w) (fA w) (fM w))
  | _ => .error .unlistedFunction

/-- The instructions of major 0x3F (R77). -/
def decodeMajor3F (w : BitVec 32) : Except Illegal Instr :=
  match fnA w with
  | 0 => must (w.extractLsb' 28 3 == 0#3 && w.extractLsb' 17 5 == 0#5) (.nspawn (fD w) (fA w) (fM w))
  | 1 => must (w.extractLsb' 28 3 == 0#3 && w.extractLsb' 7 15 == 0#15) (.ndone (fM w))
  | 2 => must (w.extractLsb' 28 3 == 0#3 && w.extractLsb' 12 10 == 0#10) (.nyield (fD w) (fM w))
  | 3 => must (w.extractLsb' 28 3 == 0#3) (.ndep (fD w) (fA w) (fB w) (fM w))
  | 4 => must (w.extractLsb' 28 3 == 0#3) (.rlaunch (fD w) (fA w) (fB w) (fM w))
  | 5 => must (w.extractLsb' 28 3 == 0#3) (.rswitchSuspend (fD w) (fA w) (fB w) (fM w))
  | 6 => must (w.extractLsb' 28 3 == 0#3 && w.extractLsb' 18 4 == 0#4 && w.extractLsb' 7 5 == 0#5) (.sys (fA w) (w.extractLsb' 17 1) (fM w))
  | 7 => must (w.extractLsb' 28 3 == 0#3 && w.extractLsb' 7 15 == 0#15) (.eret (fM w))
  | 8 => must (w.extractLsb' 30 1 == 0#1) (.srd (fD w) (w.extractLsb' 28 2 ++ w.extractLsb' 12 10) (fM w))
  | 9 => must (w.extractLsb' 30 1 == 0#1) (.swr (fD w) (w.extractLsb' 28 2 ++ w.extractLsb' 12 10) (fM w))
  | 10 => must (w.extractLsb' 28 3 == 0#3 && w.extractLsb' 7 15 == 0#15) (.wfi (fM w))
  | 11 => must (w.extractLsb' 28 3 == 0#3 && w.extractLsb' 17 5 == 0#5) (.gstop (fD w) (fA w) (fM w))
  | 12 => must (w.extractLsb' 28 3 == 0#3) (.tlbinv (fD w) (fA w) (fB w) (fM w))
  | 13 => must (w.extractLsb' 28 3 == 0#3 && w.extractLsb' 17 5 == 0#5) (.pginvack (fD w) (fA w) (fM w))
  | 14 => must (w.extractLsb' 28 3 == 0#3 && w.extractLsb' 17 5 == 0#5) (.pwreq (fD w) (fA w) (fM w))
  | 15 => must (w.extractLsb' 28 3 == 0#3 && w.extractLsb' 17 5 == 0#5) (.ckpt (fD w) (fA w) (fM w))
  | _ => .error .unlistedFunction

/-- The instruction of a 32-bit word, by its major opcode (R75, R76), before the operand ranges are checked. -/
def decodeMajor (w : BitVec 32) : Except Illegal Instr :=
  match major w with
  | 0x01 => decodeMajor01 w
  | 0x02 => .ok (.addi (fD w) (fA w) (fImm14 w) (fM w))
  | 0x03 => .ok (.andi (fD w) (fA w) (fImm14 w) (fM w))
  | 0x04 => .ok (.ori (fD w) (fA w) (fImm14 w) (fM w))
  | 0x05 => .ok (.xori (fD w) (fA w) (fImm14 w) (fM w))
  | 0x06 => .ok (.slti (fD w) (fA w) (fImm14 w) (fM w))
  | 0x07 => .ok (.sltiu (fD w) (fA w) (fImm14 w) (fM w))
  | 0x08 => decodeMajor08 w
  | 0x09 => .ok (.li (fD w) (fImm19 w) (fM w))
  | 0x0A => .ok (.lsh (fD w) (fImm19 w) (fM w))
  | 0x0B => .ok (.pcrel (fD w) (fImm19 w) (fM w))
  | 0x0C => decodeMajor0C w
  | 0x10 => .ok (.beq (fD w) (fA w) (fImm14 w) (fM w))
  | 0x11 => .ok (.bne (fD w) (fA w) (fImm14 w) (fM w))
  | 0x12 => .ok (.blt (fD w) (fA w) (fImm14 w) (fM w))
  | 0x13 => .ok (.bge (fD w) (fA w) (fImm14 w) (fM w))
  | 0x14 => .ok (.bltu (fD w) (fA w) (fImm14 w) (fM w))
  | 0x15 => .ok (.bgeu (fD w) (fA w) (fImm14 w) (fM w))
  | 0x16 => .ok (.jmp (fOff24 w) (fM w))
  | 0x17 => .ok (.call (fOff24 w) (fM w))
  | 0x18 => decodeMajor18 w
  | 0x19 => must (w.extractLsb' 28 3 == 0#3 && w.extractLsb' 7 5 == 0#5) (.lpad (w.extractLsb' 12 16) (fM w))
  | 0x1A => decodeMajor1A w
  | 0x1B => must (w.extractLsb' 10 2 == 0#2) (.oxli (fA w) (fD3 w) (fImm14 w) (fM w))
  | 0x1C => decodeMajor1C w
  | 0x20 => if w.getLsbD 30 then .ok (.lduB (fD w) (fA w) (fSnC w) (fOff10 w) (fM w)) else .ok (.ldB (fD w) (fA w) (fSnC w) (fOff10 w) (fM w))
  | 0x21 => if w.getLsbD 30 then .ok (.lduH (fD w) (fA w) (fSnC w) (fOff10 w) (fM w)) else .ok (.ldH (fD w) (fA w) (fSnC w) (fOff10 w) (fM w))
  | 0x22 => if w.getLsbD 30 then .ok (.lduW (fD w) (fA w) (fSnC w) (fOff10 w) (fM w)) else .ok (.ldW (fD w) (fA w) (fSnC w) (fOff10 w) (fM w))
  | 0x23 => must (w.extractLsb' 30 1 == 0#1) (.ldD (fD w) (fA w) (fSnC w) (fOff10 w) (fM w))
  | 0x24 => must (w.extractLsb' 30 1 == 0#1) (.stB (fD w) (fA w) (fSnC w) (fOff10 w) (fM w))
  | 0x25 => must (w.extractLsb' 30 1 == 0#1) (.stH (fD w) (fA w) (fSnC w) (fOff10 w) (fM w))
  | 0x26 => must (w.extractLsb' 30 1 == 0#1) (.stW (fD w) (fA w) (fSnC w) (fOff10 w) (fM w))
  | 0x27 => must (w.extractLsb' 30 1 == 0#1) (.stD (fD w) (fA w) (fSnC w) (fOff10 w) (fM w))
  | 0x28 => decodeMajor28 w
  | 0x29 => decodeMajor29 w
  | 0x2A => decodeMajor2A w
  | 0x2B => decodeMajor2B w
  | 0x2C => must (w.extractLsb' 12 13 == 0#13) (.fence (fD w) (w.extractLsb' 25 6) (fM w))
  | 0x30 => must (w.extractLsb' 30 1 == 0#1) (.vld (fD w) (fA w) (fSnC w) (fOff10 w) (fM w))
  | 0x31 => must (w.extractLsb' 30 1 == 0#1) (.vst (fD w) (fA w) (fSnC w) (fOff10 w) (fM w))
  | 0x32 => decodeMajor32 w
  | 0x33 => decodeMajor33 w
  | 0x34 => decodeMajor34 w
  | 0x35 => decodeMajor35 w
  | 0x36 => decodeMajor36 w
  | 0x37 => decodeMajor37 w
  | 0x38 => decodeMajor38 w
  | 0x3A => decodeMajor3A w
  | 0x3B => decodeMajor3B w
  | 0x3C => decodeMajor3C w
  | 0x3D => decodeMajor3D w
  | 0x3E => decodeMajor3E w
  | 0x3F => decodeMajor3F w
  | _ => .error .reservedMajor

/-- The operand ranges that the bits alone decide (R67, R78 to R81, R402). -/
def checked (r : Except Illegal Instr) : Except Illegal Instr :=
  match r with
  | .ok i => if i.wf then .ok i else .error .badField
  | .error e => .error e

/-- The instruction of a 32-bit word (R85). -/
def decodeWord (w : BitVec 32) : Except Illegal Instr := checked (decodeMajor w)

/-- The instruction of a 16-bit halfword by op4 (R83), before the operand ranges are checked. -/
def decodeCompact (w : BitVec 16) : Except Illegal Instr :=
  match (w.extractLsb' 1 4).toNat with
  | 0 => must (w.extractLsb' 15 1 == 0#1) (.cMov (w.extractLsb' 5 5) (w.extractLsb' 10 5))
  | 1 => .ok (.cLi (w.extractLsb' 5 5) (w.extractLsb' 10 6))
  | 2 => .ok (.cAddi (w.extractLsb' 5 5) (w.extractLsb' 10 6))
  | 3 => must (w.extractLsb' 15 1 == 0#1) (.cAdd (w.extractLsb' 5 5) (w.extractLsb' 10 5))
  | 4 => must (w.extractLsb' 15 1 == 0#1) (.cSub (w.extractLsb' 5 5) (w.extractLsb' 10 5))
  | 5 => must (w.extractLsb' 15 1 == 0#1) (.cAnd (w.extractLsb' 5 5) (w.extractLsb' 10 5))
  | 6 => must (w.extractLsb' 15 1 == 0#1) (.cOr (w.extractLsb' 5 5) (w.extractLsb' 10 5))
  | 7 => .ok (.cLd (w.extractLsb' 5 5) (w.extractLsb' 10 6))
  | 8 => .ok (.cSt (w.extractLsb' 5 5) (w.extractLsb' 10 6))
  | 9 => .ok (.cBz (w.extractLsb' 5 5) (w.extractLsb' 10 6))
  | 10 => .ok (.cBnz (w.extractLsb' 5 5) (w.extractLsb' 10 6))
  | 11 => .ok (.cJmp (w.extractLsb' 5 11))
  | 12 => must (w.extractLsb' 5 11 == 0#11) (.cRet)
  | 13 => must (w.extractLsb' 5 11 == 0#11) (.cMark)
  | 14 => must (w.extractLsb' 5 11 == 0#11) (.cNop)
  | _ => .error .reservedCompact

/-- The instruction of a 16-bit halfword (R83, R84). -/
def decodeHalf (w : BitVec 16) : Except Illegal Instr :=
  if w = 0 then .error .zeroHalfword else checked (decodeCompact w)

/-- Bit 0 of the first halfword says the length (R62). -/
def isLong (h : BitVec 16) : Bool := h.getLsbD 0

/-- The instruction at the head of a byte list, little-endian, and the bytes after it. -/
def decode : List Byte → Except DecodeStop (Instr × List Byte)
  | b0 :: b1 :: rest =>
    let h : BitVec 16 := b1 ++ b0
    if isLong h then
      match rest with
      | b2 :: b3 :: rest' =>
        match decodeWord (b3 ++ b2 ++ h) with
        | .ok i => .ok (i, rest')
        | .error e => .error (.illegal e)
      | _ => .error .short
    else
      match decodeHalf h with
      | .ok i => .ok (i, rest)
      | .error e => .error (.illegal e)
  | _ => .error .short

/-- The little-endian bytes of the low 32 bits of a number. -/
def tableBytes (nbits w : Nat) : List Byte :=
  let v := BitVec.ofNat 32 (w % 2 ^ nbits)
  [v.extractLsb' 0 8, v.extractLsb' 8 8, v.extractLsb' 16 8, v.extractLsb' 24 8]

/-- The instruction this decoder reads from a word numbered as the opcode table numbers it. -/
def decodeTableWord (nbits w : Nat) : Option Instr :=
  match decode (tableBytes nbits w) with
  | .ok (i, _) => some i
  | .error _ => none

/-- The bits of one instruction. -/
inductive Encoded where
  | half (h : BitVec 16)
  | word (w : BitVec 32)
deriving DecidableEq, Repr

/-- The bytes of one instruction, little-endian (R62). -/
def Encoded.bytes : Encoded → List Byte
  | .half h => [h.extractLsb' 0 8, h.extractLsb' 8 8]
  | .word w => [w.extractLsb' 0 8, w.extractLsb' 8 8, w.extractLsb' 16 8, w.extractLsb' 24 8]

/-- The length of an encoded instruction in bytes (R62). -/
def Encoded.size : Encoded → Nat
  | .half _ => 2
  | .word _ => 4

/-- Format A (R65). -/
def encA (m : Bool) (q : BitVec 3) (fn : BitVec 6) (b a d : BitVec 5) (major : BitVec 6) : BitVec 32 :=
  BitVec.ofBool m ++ q ++ fn ++ b ++ a ++ d ++ major ++ 1#1
/-- Format B (R65). -/
def encB (m : Bool) (imm : BitVec 14) (a d : BitVec 5) (major : BitVec 6) : BitVec 32 :=
  BitVec.ofBool m ++ imm ++ a ++ d ++ major ++ 1#1
/-- Format C (R65). -/
def encCFmt (m : Bool) (u : BitVec 1) (sn : BitVec 3) (off : BitVec 10) (a d : BitVec 5) (major : BitVec 6) :
    BitVec 32 :=
  BitVec.ofBool m ++ u ++ sn ++ off ++ a ++ d ++ major ++ 1#1
/-- Format D (R65). -/
def encD (m : Bool) (off : BitVec 14) (b a : BitVec 5) (major : BitVec 6) : BitVec 32 :=
  BitVec.ofBool m ++ off ++ b ++ a ++ major ++ 1#1
/-- Format E (R65). -/
def encE (m : Bool) (imm : BitVec 19) (d : BitVec 5) (major : BitVec 6) : BitVec 32 :=
  BitVec.ofBool m ++ imm ++ d ++ major ++ 1#1
/-- Format J (R65). -/
def encJ (m : Bool) (off : BitVec 24) (major : BitVec 6) : BitVec 32 :=
  BitVec.ofBool m ++ off ++ major ++ 1#1
/-- Format V (R65). -/
def encV (m : Bool) (t : BitVec 1) (fn : BitVec 5) (k : BitVec 3) (vb va vd : BitVec 5) (major : BitVec 6) :
    BitVec 32 :=
  BitVec.ofBool m ++ t ++ fn ++ k ++ vb ++ va ++ vd ++ major ++ 1#1
/-- Format X (R65). -/
def encX (m : Bool) (fn : BitVec 6) (sn : BitVec 3) (b a d : BitVec 5) (major : BitVec 6) : BitVec 32 :=
  BitVec.ofBool m ++ fn ++ sn ++ b ++ a ++ d ++ major ++ 1#1
/-- The compact format (R83). -/
def encC (x : BitVec 1) (a d : BitVec 5) (op4 : BitVec 4) : BitVec 16 :=
  x ++ a ++ d ++ op4 ++ 0#1

/-- The bits of an instruction, from the formats of R65 and R83; an event has none. -/
def encode : Instr → Option Encoded
  | .add d a b w m => some (.word (encA m (0#2 ++ BitVec.ofBool w) 0#6 b a d 0x01))
  | .sub d a b w m => some (.word (encA m (0#2 ++ BitVec.ofBool w) 1#6 b a d 0x01))
  | .and d a b m => some (.word (encA m 0#3 2#6 b a d 0x01))
  | .or d a b m => some (.word (encA m 0#3 3#6 b a d 0x01))
  | .xor d a b m => some (.word (encA m 0#3 4#6 b a d 0x01))
  | .sll d a b w m => some (.word (encA m (0#2 ++ BitVec.ofBool w) 5#6 b a d 0x01))
  | .srl d a b w m => some (.word (encA m (0#2 ++ BitVec.ofBool w) 6#6 b a d 0x01))
  | .sra d a b w m => some (.word (encA m (0#2 ++ BitVec.ofBool w) 7#6 b a d 0x01))
  | .slt d a b m => some (.word (encA m 0#3 8#6 b a d 0x01))
  | .sltu d a b m => some (.word (encA m 0#3 9#6 b a d 0x01))
  | .min d a b m => some (.word (encA m 0#3 10#6 b a d 0x01))
  | .max d a b m => some (.word (encA m 0#3 11#6 b a d 0x01))
  | .minu d a b m => some (.word (encA m 0#3 12#6 b a d 0x01))
  | .maxu d a b m => some (.word (encA m 0#3 13#6 b a d 0x01))
  | .rotl d a b w m => some (.word (encA m (0#2 ++ BitVec.ofBool w) 14#6 b a d 0x01))
  | .rotr d a b w m => some (.word (encA m (0#2 ++ BitVec.ofBool w) 15#6 b a d 0x01))
  | .mul d a b w m => some (.word (encA m (0#2 ++ BitVec.ofBool w) 16#6 b a d 0x01))
  | .mulh d a b m => some (.word (encA m 0#3 17#6 b a d 0x01))
  | .mulhu d a b m => some (.word (encA m 0#3 18#6 b a d 0x01))
  | .div d a b w m => some (.word (encA m (0#2 ++ BitVec.ofBool w) 19#6 b a d 0x01))
  | .divu d a b w m => some (.word (encA m (0#2 ++ BitVec.ofBool w) 20#6 b a d 0x01))
  | .rem d a b w m => some (.word (encA m (0#2 ++ BitVec.ofBool w) 21#6 b a d 0x01))
  | .remu d a b w m => some (.word (encA m (0#2 ++ BitVec.ofBool w) 22#6 b a d 0x01))
  | .sel d a b c m => some (.word (encA m c 23#6 b a d 0x01))
  | .clz d a w m => some (.word (encA m (0#2 ++ BitVec.ofBool w) 24#6 0#5 a d 0x01))
  | .ctz d a w m => some (.word (encA m (0#2 ++ BitVec.ofBool w) 25#6 0#5 a d 0x01))
  | .popc d a w m => some (.word (encA m (0#2 ++ BitVec.ofBool w) 26#6 0#5 a d 0x01))
  | .sext d a s m => some (.word (encA m s 27#6 0#5 a d 0x01))
  | .zext d a s m => some (.word (encA m s 28#6 0#5 a d 0x01))
  | .bext d a m => some (.word (encA m 0#3 29#6 0#5 a d 0x01))
  | .bins d a m => some (.word (encA m 0#3 30#6 0#5 a d 0x01))
  | .lea d a b l m => some (.word (encA m l 31#6 b a d 0x01))
  | .addi d a i m => some (.word (encB m i a d 0x02))
  | .andi d a i m => some (.word (encB m i a d 0x03))
  | .ori d a i m => some (.word (encB m i a d 0x04))
  | .xori d a i m => some (.word (encB m i a d 0x05))
  | .slti d a i m => some (.word (encB m i a d 0x06))
  | .sltiu d a i m => some (.word (encB m i a d 0x07))
  | .slli d a s m => some (.word (encA m (0#2 ++ s.extractLsb' 5 1) 0#6 (s.extractLsb' 0 5) a d 0x08))
  | .srli d a s m => some (.word (encA m (0#2 ++ s.extractLsb' 5 1) 1#6 (s.extractLsb' 0 5) a d 0x08))
  | .srai d a s m => some (.word (encA m (0#2 ++ s.extractLsb' 5 1) 2#6 (s.extractLsb' 0 5) a d 0x08))
  | .li d i m => some (.word (encE m i d 0x09))
  | .lsh d i m => some (.word (encE m i d 0x0A))
  | .pcrel d i m => some (.word (encE m i d 0x0B))
  | .gadr d a b m => some (.word (encA m 0#3 0#6 b a d 0x0C))
  | .beq a b o m => some (.word (encD m o b a 0x10))
  | .bne a b o m => some (.word (encD m o b a 0x11))
  | .blt a b o m => some (.word (encD m o b a 0x12))
  | .bge a b o m => some (.word (encD m o b a 0x13))
  | .bltu a b o m => some (.word (encD m o b a 0x14))
  | .bgeu a b o m => some (.word (encD m o b a 0x15))
  | .jmp o m => some (.word (encJ m o 0x16))
  | .call o m => some (.word (encJ m o 0x17))
  | .ret a m => some (.word (encA m 0#3 0#6 0#5 a 0#5 0x18))
  | .jt a b m => some (.word (encA m 0#3 1#6 b a 0#5 0x18))
  | .jtc a b m => some (.word (encA m 0#3 2#6 b a 0#5 0x18))
  | .callr a m => some (.word (encA m 0#3 3#6 0#5 a 0#5 0x18))
  | .lpad l m => some (.word (encE m (0#3 ++ l) 0#5 0x19))
  | .oxmv a n m => some (.word (encA m 0#3 0#6 0#5 a (0#2 ++ n) 0x1A))
  | .oxrd d n m => some (.word (encA m 0#3 1#6 0#5 (0#2 ++ n) d 0x1A))
  | .oxli a n i m => some (.word (encB m i a (0#2 ++ n) 0x1B))
  | .twait d a m => some (.word (encA m 0#3 0#6 0#5 a d 0x1C))
  | .sleep d a m => some (.word (encA m 0#3 1#6 0#5 a d 0x1C))
  | .tsnow d m => some (.word (encA m 0#3 2#6 0#5 0#5 d 0x1C))
  | .tsat d a m => some (.word (encA m 0#3 3#6 0#5 a d 0x1C))
  | .ldB d a s o m => some (.word (encCFmt m 0#1 s o a d 0x20))
  | .lduB d a s o m => some (.word (encCFmt m 1#1 s o a d 0x20))
  | .ldH d a s o m => some (.word (encCFmt m 0#1 s o a d 0x21))
  | .lduH d a s o m => some (.word (encCFmt m 1#1 s o a d 0x21))
  | .ldW d a s o m => some (.word (encCFmt m 0#1 s o a d 0x22))
  | .lduW d a s o m => some (.word (encCFmt m 1#1 s o a d 0x22))
  | .ldD d a s o m => some (.word (encCFmt m 0#1 s o a d 0x23))
  | .stB d a s o m => some (.word (encCFmt m 0#1 s o a d 0x24))
  | .stH d a s o m => some (.word (encCFmt m 0#1 s o a d 0x25))
  | .stW d a s o m => some (.word (encCFmt m 0#1 s o a d 0x26))
  | .stD d a s o m => some (.word (encCFmt m 0#1 s o a d 0x27))
  | .ldxB d a b s m => some (.word (encA m s 0#6 b a d 0x28))
  | .ldxH d a b s m => some (.word (encA m s 1#6 b a d 0x28))
  | .ldxW d a b s m => some (.word (encA m s 2#6 b a d 0x28))
  | .ldxD d a b s m => some (.word (encA m s 3#6 b a d 0x28))
  | .ldxuB d a b s m => some (.word (encA m s 4#6 b a d 0x28))
  | .ldxuH d a b s m => some (.word (encA m s 5#6 b a d 0x28))
  | .ldxuW d a b s m => some (.word (encA m s 6#6 b a d 0x28))
  | .stxB d a b s m => some (.word (encA m s 7#6 b a d 0x28))
  | .stxH d a b s m => some (.word (encA m s 8#6 b a d 0x28))
  | .stxW d a b s m => some (.word (encA m s 9#6 b a d 0x28))
  | .stxD d a b s m => some (.word (encA m s 10#6 b a d 0x28))
  | .amoAdd d a b w s m => some (.word (encX m (0#1 ++ BitVec.ofBool w ++ 0#4) s b a d 0x29))
  | .amoAnd d a b w s m => some (.word (encX m (0#1 ++ BitVec.ofBool w ++ 1#4) s b a d 0x29))
  | .amoOr d a b w s m => some (.word (encX m (0#1 ++ BitVec.ofBool w ++ 2#4) s b a d 0x29))
  | .amoXor d a b w s m => some (.word (encX m (0#1 ++ BitVec.ofBool w ++ 3#4) s b a d 0x29))
  | .amoMin d a b w s m => some (.word (encX m (0#1 ++ BitVec.ofBool w ++ 4#4) s b a d 0x29))
  | .amoMax d a b w s m => some (.word (encX m (0#1 ++ BitVec.ofBool w ++ 5#4) s b a d 0x29))
  | .amoMinu d a b w s m => some (.word (encX m (0#1 ++ BitVec.ofBool w ++ 6#4) s b a d 0x29))
  | .amoMaxu d a b w s m => some (.word (encX m (0#1 ++ BitVec.ofBool w ++ 7#4) s b a d 0x29))
  | .amoSwap d a b w s m => some (.word (encX m (0#1 ++ BitVec.ofBool w ++ 8#4) s b a d 0x29))
  | .amoCas d a b w s m => some (.word (encX m (0#1 ++ BitVec.ofBool w ++ 9#4) s b a d 0x29))
  | .amoFadd d a b s m => some (.word (encX m 10#6 s b a d 0x29))
  | .amoFadd2 d a b s m => some (.word (encX m 11#6 s b a d 0x29))
  | .pref a n s m => some (.word (encX m 0#6 s 0#5 a n 0x2A))
  | .cbflush a s m => some (.word (encX m 1#6 s 0#5 a 0#5 0x2A))
  | .sfork d a m => some (.word (encX m 0#6 0#3 0#5 (0#2 ++ a) (0#2 ++ d) 0x2B))
  | .sjoin d a m => some (.word (encX m 1#6 0#3 0#5 (0#2 ++ a) (0#2 ++ d) 0x2B))
  | .swait d a s m => some (.word (encX m 2#6 s 0#5 (0#2 ++ a) d 0x2B))
  | .sexp d a m => some (.word (encX m 3#6 0#3 0#5 (0#2 ++ a) d 0x2B))
  | .simp d a m => some (.word (encX m 4#6 0#3 0#5 a (0#2 ++ d) 0x2B))
  | .sstat d a b m => some (.word (encX m 5#6 0#3 b (0#2 ++ a) d 0x2B))
  | .fence d s m => some (.word (encX m s 0#3 0#5 0#5 d 0x2C))
  | .vld d a s o m => some (.word (encCFmt m 0#1 s o a d 0x30))
  | .vst d a s o m => some (.word (encCFmt m 0#1 s o a d 0x31))
  | .vldx d a b t k m => some (.word (encV m (BitVec.ofBool t) 0#5 k b a d 0x32))
  | .vstx d a b t k m => some (.word (encV m (BitVec.ofBool t) 1#5 k b a d 0x32))
  | .vadd d a b t k m => some (.word (encV m (BitVec.ofBool t) 0#5 k b a d 0x33))
  | .vsub d a b t k m => some (.word (encV m (BitVec.ofBool t) 1#5 k b a d 0x33))
  | .vmul d a b t k m => some (.word (encV m (BitVec.ofBool t) 2#5 k b a d 0x33))
  | .vfma d a b t k m => some (.word (encV m (BitVec.ofBool t) 3#5 k b a d 0x33))
  | .vfms d a b t k m => some (.word (encV m (BitVec.ofBool t) 4#5 k b a d 0x33))
  | .vfnma d a b t k m => some (.word (encV m (BitVec.ofBool t) 5#5 k b a d 0x33))
  | .vmin d a b t k m => some (.word (encV m (BitVec.ofBool t) 6#5 k b a d 0x33))
  | .vmax d a b t k m => some (.word (encV m (BitVec.ofBool t) 7#5 k b a d 0x33))
  | .vabs d a t k m => some (.word (encV m (BitVec.ofBool t) 8#5 k 0#5 a d 0x33))
  | .vneg d a t k m => some (.word (encV m (BitVec.ofBool t) 9#5 k 0#5 a d 0x33))
  | .vdiv d a b t k m => some (.word (encV m (BitVec.ofBool t) 10#5 k b a d 0x33))
  | .vsqrt d a t k m => some (.word (encV m (BitVec.ofBool t) 11#5 k 0#5 a d 0x33))
  | .vrsqrt d a t k m => some (.word (encV m (BitVec.ofBool t) 12#5 k 0#5 a d 0x33))
  | .vrcp d a t k m => some (.word (encV m (BitVec.ofBool t) 13#5 k 0#5 a d 0x33))
  | .vexp2 d a t k m => some (.word (encV m (BitVec.ofBool t) 14#5 k 0#5 a d 0x33))
  | .vlog2 d a t k m => some (.word (encV m (BitVec.ofBool t) 15#5 k 0#5 a d 0x33))
  | .vsig d a t k m => some (.word (encV m (BitVec.ofBool t) 16#5 k 0#5 a d 0x33))
  | .vtanh d a t k m => some (.word (encV m (BitVec.ofBool t) 17#5 k 0#5 a d 0x33))
  | .viadd d a b t k m => some (.word (encV m (BitVec.ofBool t) 0#5 k b a d 0x34))
  | .visub d a b t k m => some (.word (encV m (BitVec.ofBool t) 1#5 k b a d 0x34))
  | .vimul d a b t k m => some (.word (encV m (BitVec.ofBool t) 2#5 k b a d 0x34))
  | .vimulh d a b t k m => some (.word (encV m (BitVec.ofBool t) 3#5 k b a d 0x34))
  | .vand d a b t k m => some (.word (encV m (BitVec.ofBool t) 4#5 k b a d 0x34))
  | .vor d a b t k m => some (.word (encV m (BitVec.ofBool t) 5#5 k b a d 0x34))
  | .vxor d a b t k m => some (.word (encV m (BitVec.ofBool t) 6#5 k b a d 0x34))
  | .vsll d a b t k m => some (.word (encV m (BitVec.ofBool t) 7#5 k b a d 0x34))
  | .vsrl d a b t k m => some (.word (encV m (BitVec.ofBool t) 8#5 k b a d 0x34))
  | .vsra d a b t k m => some (.word (encV m (BitVec.ofBool t) 9#5 k b a d 0x34))
  | .vimin d a b t k m => some (.word (encV m (BitVec.ofBool t) 10#5 k b a d 0x34))
  | .vimax d a b t k m => some (.word (encV m (BitVec.ofBool t) 11#5 k b a d 0x34))
  | .viminu d a b t k m => some (.word (encV m (BitVec.ofBool t) 12#5 k b a d 0x34))
  | .vimaxu d a b t k m => some (.word (encV m (BitVec.ofBool t) 13#5 k b a d 0x34))
  | .vcmpEq d a b t k m => some (.word (encV m (BitVec.ofBool t) 0#5 k b a (0#2 ++ d) 0x35))
  | .vcmpLt d a b t k m => some (.word (encV m (BitVec.ofBool t) 1#5 k b a (0#2 ++ d) 0x35))
  | .vcmpLe d a b t k m => some (.word (encV m (BitVec.ofBool t) 2#5 k b a (0#2 ++ d) 0x35))
  | .vsel d a b t k m => some (.word (encV m (BitVec.ofBool t) 3#5 k b a d 0x35))
  | .vperm d a b t k m => some (.word (encV m (BitVec.ofBool t) 4#5 k b a d 0x35))
  | .vbcast d a t k m => some (.word (encV m (BitVec.ofBool t) 5#5 k 0#5 a d 0x35))
  | .vslide d a b t k m => some (.word (encV m (BitVec.ofBool t) 6#5 k b a d 0x35))
  | .vmov d a t k m => some (.word (encV m (BitVec.ofBool t) 7#5 k 0#5 a d 0x35))
  | .vredAdd d a t k m => some (.word (encV m (BitVec.ofBool t) 8#5 k 0#5 a d 0x35))
  | .vredMax d a t k m => some (.word (encV m (BitVec.ofBool t) 9#5 k 0#5 a d 0x35))
  | .vredMin d a t k m => some (.word (encV m (BitVec.ofBool t) 10#5 k 0#5 a d 0x35))
  | .vcvt d a k s m => some (.word (encV m 0#1 11#5 k s a d 0x35))
  | .vxt d a t i m => some (.word (encV m (BitVec.ofBool t) 12#5 0#3 i a d 0x35))
  | .vins d a t i m => some (.word (encV m (BitVec.ofBool t) 13#5 0#3 i a d 0x35))
  | .mand d a b m => some (.word (encV m 0#1 0#5 0#3 (0#2 ++ b) (0#2 ++ a) (0#2 ++ d) 0x36))
  | .mor d a b m => some (.word (encV m 0#1 1#5 0#3 (0#2 ++ b) (0#2 ++ a) (0#2 ++ d) 0x36))
  | .mxor d a b m => some (.word (encV m 0#1 2#5 0#3 (0#2 ++ b) (0#2 ++ a) (0#2 ++ d) 0x36))
  | .mnot d a m => some (.word (encV m 0#1 3#5 0#3 0#5 (0#2 ++ a) (0#2 ++ d) 0x36))
  | .mpop d a m => some (.word (encV m 0#1 4#5 0#3 0#5 (0#2 ++ a) d 0x36))
  | .mset d a m => some (.word (encV m 0#1 5#5 0#3 0#5 a (0#2 ++ d) 0x36))
  | .strbind d a b s m => some (.word (encX m 0#6 s b a (3#2 ++ d) 0x37))
  | .strfree d s m => some (.word (encX m 1#6 s 0#5 0#5 (3#2 ++ d) 0x37))
  | .strst d a m => some (.word (encX m 2#6 0#3 0#5 (3#2 ++ a) d 0x37))
  | .bscale d a b m => some (.word (encX m 0#6 0#3 b a d 0x38))
  | .baddqAcc d a b s m => some (.word (encX m 1#6 s b a d 0x38))
  | .baddqOut d a b s m => some (.word (encX m 2#6 s b a d 0x38))
  | .vsr d a m => some (.word (encX m 3#6 0#3 0#5 a d 0x38))
  | .mcfg d a m => some (.word (encX m 0#6 0#3 0#5 a d 0x3A))
  | .mload a b s m => some (.word (encX m 1#6 s b a 0#5 0x3A))
  | .mmul a b s m => some (.word (encX m 2#6 s b a 0#5 0x3A))
  | .mmulz a b s m => some (.word (encX m 3#6 s b a 0#5 0x3A))
  | .mmulBc a b s m => some (.word (encX m 4#6 s b a 0#5 0x3A))
  | .mtmul a b s m => some (.word (encX m 5#6 s b a 0#5 0x3A))
  | .acld a b s m => some (.word (encX m 6#6 s b a 0#5 0x3A))
  | .acst a b s m => some (.word (encX m 7#6 s b a 0#5 0x3A))
  | .acrd d a s m => some (.word (encX m 8#6 s 0#5 a d 0x3A))
  | .acwr d a s m => some (.word (encX m 9#6 s 0#5 a d 0x3A))
  | .acz a s m => some (.word (encX m 10#6 s 0#5 a 0#5 0x3A))
  | .mredund d a m => some (.word (encX m 11#6 0#3 0#5 a d 0x3A))
  | .mqst d a m => some (.word (encX m 12#6 0#3 0#5 a d 0x3A))
  | .kset a b s m => some (.word (encX m 0#6 s b a 0#5 0x3B))
  | .seval a b s m => some (.word (encX m 1#6 s b a 0#5 0x3B))
  | .sderiv a b s m => some (.word (encX m 2#6 s b a 0#5 0x3B))
  | .sgfold a b s m => some (.word (encX m 3#6 s b a 0#5 0x3B))
  | .sload a b s m => some (.word (encX m 4#6 s b a 0#5 0x3B))
  | .srefine s m => some (.word (encX m 5#6 s 0#5 0#5 0#5 0x3B))
  | .sextend a s m => some (.word (encX m 6#6 s 0#5 a 0#5 0x3B))
  | .kcnt d a s m => some (.word (encX m 7#6 s 0#5 a d 0x3B))
  | .sbrec a b s m => some (.word (encX m 8#6 s b a 0#5 0x3B))
  | .cyopen d a b m => some (.word (encX m 0#6 0#3 b a d 0x3C))
  | .cyphase d a b m => some (.word (encX m 1#6 0#3 b a d 0x3C))
  | .cyres d a b m => some (.word (encX m 2#6 0#3 b a d 0x3C))
  | .cytest d a m => some (.word (encX m 3#6 0#3 0#5 a d 0x3C))
  | .cyclose d a m => some (.word (encX m 4#6 0#3 0#5 a d 0x3C))
  | .cystat d a m => some (.word (encX m 5#6 0#3 0#5 a d 0x3C))
  | .cyack d a m => some (.word (encX m 6#6 0#3 0#5 a d 0x3C))
  | .cpq d a m => some (.word (encX m 0#6 0#3 0#5 a d 0x3D))
  | .cpwp d a m => some (.word (encX m 1#6 0#3 0#5 a d 0x3D))
  | .cpwait d a b m => some (.word (encX m 2#6 0#3 b a d 0x3D))
  | .cpst d a b m => some (.word (encX m 3#6 0#3 b a d 0x3D))
  | .cpqNb d a m => some (.word (encX m 4#6 0#3 0#5 a d 0x3D))
  | .msend d a b s m => some (.word (encX m 0#6 s b a d 0x3E))
  | .mpost d a b s m => some (.word (encX m 1#6 s b a d 0x3E))
  | .mprobe d a b m => some (.word (encX m 2#6 0#3 b a d 0x3E))
  | .mcancel d a m => some (.word (encX m 3#6 0#3 0#5 a d 0x3E))
  | .lnpark d a m => some (.word (encX m 4#6 0#3 0#5 a d 0x3E))
  | .lnwake d a m => some (.word (encX m 5#6 0#3 0#5 a d 0x3E))
  | .lnst d a m => some (.word (encX m 6#6 0#3 0#5 a d 0x3E))
  | .gwtake d a m => some (.word (encX m 7#6 0#3 0#5 a d 0x3E))
  | .nspawn d a m => some (.word (encA m 0#3 0#6 0#5 a d 0x3F))
  | .ndone m => some (.word (encA m 0#3 1#6 0#5 0#5 0#5 0x3F))
  | .nyield d m => some (.word (encA m 0#3 2#6 0#5 0#5 d 0x3F))
  | .ndep d a b m => some (.word (encA m 0#3 3#6 b a d 0x3F))
  | .rlaunch d a b m => some (.word (encA m 0#3 4#6 b a d 0x3F))
  | .rswitchSuspend d a b m => some (.word (encA m 0#3 5#6 b a d 0x3F))
  | .sys a k m => some (.word (encA m 0#3 6#6 (0#4 ++ k) a 0#5 0x3F))
  | .eret m => some (.word (encA m 0#3 7#6 0#5 0#5 0#5 0x3F))
  | .srd d n m => some (.word (encA m (0#1 ++ n.extractLsb' 10 2) 8#6 (n.extractLsb' 5 5) (n.extractLsb' 0 5) d 0x3F))
  | .swr d n m => some (.word (encA m (0#1 ++ n.extractLsb' 10 2) 9#6 (n.extractLsb' 5 5) (n.extractLsb' 0 5) d 0x3F))
  | .wfi m => some (.word (encA m 0#3 10#6 0#5 0#5 0#5 0x3F))
  | .gstop d a m => some (.word (encA m 0#3 11#6 0#5 a d 0x3F))
  | .tlbinv d a b m => some (.word (encA m 0#3 12#6 b a d 0x3F))
  | .pginvack d a m => some (.word (encA m 0#3 13#6 0#5 a d 0x3F))
  | .pwreq d a m => some (.word (encA m 0#3 14#6 0#5 a d 0x3F))
  | .ckpt d a m => some (.word (encA m 0#3 15#6 0#5 a d 0x3F))
  | .cMov d a => some (.half (encC 0#1 a d 0))
  | .cLi d i => some (.half (encC (i.extractLsb' 5 1) (i.extractLsb' 0 5) d 1))
  | .cAddi d i => some (.half (encC (i.extractLsb' 5 1) (i.extractLsb' 0 5) d 2))
  | .cAdd d a => some (.half (encC 0#1 a d 3))
  | .cSub d a => some (.half (encC 0#1 a d 4))
  | .cAnd d a => some (.half (encC 0#1 a d 5))
  | .cOr d a => some (.half (encC 0#1 a d 6))
  | .cLd d o => some (.half (encC (o.extractLsb' 5 1) (o.extractLsb' 0 5) d 7))
  | .cSt d o => some (.half (encC (o.extractLsb' 5 1) (o.extractLsb' 0 5) d 8))
  | .cBz d o => some (.half (encC (o.extractLsb' 5 1) (o.extractLsb' 0 5) d 9))
  | .cBnz d o => some (.half (encC (o.extractLsb' 5 1) (o.extractLsb' 0 5) d 10))
  | .cJmp o => some (.half (encC (o.extractLsb' 10 1) (o.extractLsb' 5 5) (o.extractLsb' 0 5) 11))
  | .cRet => some (.half (encC 0#1 0#5 0#5 12))
  | .cMark => some (.half (encC 0#1 0#5 0#5 13))
  | .cNop => some (.half (encC 0#1 0#5 0#5 14))
  | .cpstResume d a b m => some (.word (encX m 3#6 0#3 b a d 0x3D))
  | .cpstAbandon d a b m => some (.word (encX m 3#6 0#3 b a d 0x3D))
  | .rswitchResume d a b m => some (.word (encA m 0#3 5#6 b a d 0x3F))
  | .rswitchEnd d a b m => some (.word (encA m 0#3 5#6 b a d 0x3F))
  | .instructionFetch => none
  | .parkEnd => none
  | .nonblockingResultReturn _ => none
  | .interruptTaken => none
  | .waitDeadline => none
  | .wfiWake => none
  | .sleepWakeEvent => none
  | .pageWalk _ _ => none
  | .remoteTranslationRequest _ _ _ _ => none
  | .translationReply _ _ _ _ _ _ _ => none
  | .tlbInvalidation _ _ _ _ _ => none
  | .invalidationAck _ _ _ => none
  | .remoteAccessArrival _ => none
  | .hostAccessArrival _ => none
  | .combiningDrain _ => none
  | .combiningIdleTimeout _ => none
  | .writeAcknowledgement _ _ => none
  | .routerReadAbsorb _ => none
  | .readReplyArrival _ _ _ _ => none
  | .atomicPerform _ _ _ _ => none
  | .pinExpiry _ => none
  | .forkMarkerPerformed _ => none
  | .joinMarkerPerformed _ => none
  | .tokenCheckRequest _ _ => none
  | .tokenCheckReply _ => none
  | .streamFetch _ => none
  | .tileBegin _ => none
  | .stripDrain _ => none
  | .busTileArrival _ => none
  | .gridCommandPerform _ => none
  | .engineClockGate _ => none
  | .startSequencerAdmit => none
  | .barrierRelease _ => none
  | .phaseTimeout _ => none
  | .cycleDecision _ => none
  | .copyBegin _ => none
  | .copyUnitDelivered _ => none
  | .copyErrorStop _ _ => none
  | .messageArrival _ => none
  | .overflowPayloadCopy _ => none
  | .deadlockProbe _ => none
  | .probeReturn _ => none
  | .laneFailure _ _ => none
  | .crcErrorResend _ _ => none
  | .postedWriteRefused _ => none
  | .packetBoundary _ _ => none
  | .laneLocked _ _ => none
  | .skeinParked _ => none
  | .skeinWakeTimeout _ => none
  | .firmwareRetune _ _ => none
  | .migrationForwardExpiry _ => none
  | .releasePointPerformed _ => none
  | .dispatch => none
  | .priorityAgeing _ => none
  | .ringWp _ => none
  | .ringReset _ => none
  | .launch => none
  | .suspend => none
  | .resume => none
  | .endRec => none
  | .gangStop _ => none
  | .gangResume _ => none
  | .gstopResume _ => none
  | .checkpointTick => none
  | .uncorrectableMemoryError _ _ => none
  | .patrolScrub _ _ => none
  | .retentionEntry _ => none
  | .retentionExit _ _ => none
  | .timingErrorReplay _ => none
  | .budgetRecompute _ _ _ => none
  | .clockRelock _ => none
  | .moduleReset => none
  | .tkKey _ _ => none
  | .bkFmt _ _ _ => none
  | .cgPat _ _ _ => none
  | .csTab _ _ _ => none
  | .rgAlias _ _ => none
  | .mxCfg _ _ => none
  | .unknownKindRingRecord => none
  | .attestationRequest _ => none
  | .firmwareUpdateRequest _ => none

end Sys2Proof
end

