-- ==== Sys2Proof/Machine/Flags.lean ====
section
/-! DEFINITION. The exception flags of fx.flags (R104): the operations of Numbers.lean compute them beside their result, and
an instruction ORs in those of its lanes. -/

namespace Sys2Proof.Machine

/-- Exception flags, in the places of fx.flags (R104): NX 0, UF 1, OF 2, DZ 3, NV 4. -/
abbrev Flags := BitVec 5
def flagNX : Flags := 1
def flagUF : Flags := 2
def flagOF : Flags := 4
def flagDZ : Flags := 8
def flagNV : Flags := 16

/-- A result with the flags it raised. -/
structure Rounded where
  bits : Nat
  flags : Flags
deriving DecidableEq, Repr

/-- The flags of a list of results. -/
def orFlags (l : List Rounded) : Flags := l.foldl (fun acc r => acc ||| r.flags) 0

end Sys2Proof.Machine
end

