-- ==== Sys2Proof/Machine/Numbers.lean ====
section
/-! DEFINITION. Number formats, exact arithmetic and the one rounding after it (04 Number formats and rounding).
A value is decoded exactly, the operation is done on exact rationals, and the result is rounded once. -/

namespace Sys2Proof.Machine

/-- The scalar formats (R88, R89). -/
inductive Fp where
  | fp64 | fp32 | bf16 | fp16 | e5m2 | e4m3
deriving DecidableEq, Repr

/-- Mantissa bits (R89). -/
def fpMant : Fp → Nat
  | .fp64 => 52 | .fp32 => 23 | .bf16 => 7 | .fp16 => 10 | .e5m2 => 2 | .e4m3 => 3
/-- Exponent bits (R89). -/
def fpExp : Fp → Nat
  | .fp64 => 11 | .fp32 => 8 | .bf16 => 8 | .fp16 => 5 | .e5m2 => 5 | .e4m3 => 4
/-- Exponent bias (R89). -/
def fpBias : Fp → Int
  | .fp64 => 1023 | .fp32 => 127 | .bf16 => 127 | .fp16 => 15 | .e5m2 => 15 | .e4m3 => 7
/-- The magnitude bits of the largest finite value (R89). -/
def fpMax : Fp → Nat
  | .e4m3 => 0x7E
  | f => (2 ^ fpExp f - 1) * 2 ^ fpMant f - 1
/-- Whether the format has infinities (R89). -/
def fpInf : Fp → Bool
  | .e4m3 => false
  | _ => true
/-- Width in bits without the sign. -/
def fpMag (f : Fp) : Nat := fpExp f + fpMant f
/-- Width in bits. -/
def fpWidth (f : Fp) : Nat := fpMag f + 1
/-- The canonical NaN (R91). -/
def fpNaN : Fp → Nat
  | .fp64 => 0x7FF8000000000000 | .fp32 => 0x7FC00000 | .bf16 => 0x7FC0 | .fp16 => 0x7E00 | .e5m2 => 0x7E
  | .e4m3 => 0x7F
/-- The magnitude bits of an infinity. -/
def fpInfBits (f : Fp) : Nat := (2 ^ fpExp f - 1) * 2 ^ fpMant f

/-- A decoded value: NaN, an infinity, or a finite value `mant * 2 ^ exp` with a sign (a zero has mant 0). -/
inductive FVal where
  | nan
  | inf (neg : Bool)
  | fin (neg : Bool) (mant : Nat) (exp : Int)
deriving DecidableEq, Repr

/-- The value of a bit pattern (R89, R90). -/
def fpDecode (f : Fp) (bits : Nat) : FVal :=
  let neg := bits / 2 ^ fpMag f % 2 == 1
  let mag := bits % 2 ^ fpMag f
  let e := mag / 2 ^ fpMant f
  let m := mag % 2 ^ fpMant f
  if e == 2 ^ fpExp f - 1 && fpInf f then
    if m == 0 then .inf neg else .nan
  else if f == .e4m3 && mag == 0x7F then .nan
  else if e == 0 then .fin neg m (1 - fpBias f - fpMant f)
  else .fin neg (m + 2 ^ fpMant f) (e - fpBias f - fpMant f)

/-- Rounding modes (R103). -/
inductive Rm where
  | rne | rz | rup | rdn
  /-- stochastic, with its random value (R106) -/
  | sr (rnd : BitVec 16)
deriving DecidableEq, Repr

/-- The mode of a rounding code for arithmetic: code 4 acts as RNE (R103, R105). -/
def rmArith (code : BitVec 3) : Rm :=
  match code.toNat with
  | 1 => .rz
  | 2 => .rup
  | 3 => .rdn
  | _ => .rne

/-- The mode of a rounding code for a conversion, with the random value of code 4 (R106). -/
def rmConv (code : BitVec 3) (rnd : BitVec 16) : Rm :=
  if code = 4 then .sr rnd else rmArith code

/-- floor(log2 (num / den)) of a positive rational. -/
def ratLog2 (num den : Nat) : Int :=
  let e : Int := (Nat.log2 num : Int) - (Nat.log2 den : Int)
  -- 2^e <= num/den, or one less
  if e ≥ 0 then (if den * 2 ^ e.toNat ≤ num then e else e - 1)
  else (if den ≤ num * 2 ^ (-e).toNat then e else e - 1)

/-- Whether a remainder `rem / den` above the lower neighbour `lo` rounds up (R103, R106). -/
def roundsUp (rm : Rm) (neg : Bool) (lo rem den : Nat) : Bool :=
  match rm with
  | .rne => 2 * rem > den || (2 * rem == den && lo % 2 == 1)
  | .rz => false
  | .rup => !neg && rem != 0
  | .rdn => neg && rem != 0
  | .sr rnd => rem != 0 && rem * 2 ^ 16 / den + rnd.toNat ≥ 2 ^ 16

/-- A rational divided by a power of two, as numerator and denominator. -/
def ratScale (num den : Nat) (e : Int) : Nat × Nat :=
  if e ≥ 0 then (num, den * 2 ^ e.toNat) else (num * 2 ^ (-e).toNat, den)

/-- What an overflow gives (R101). -/
def overflowMag (f : Fp) (rm : Rm) (neg : Bool) : Nat :=
  if !fpInf f then fpMax f
  else match rm with
    | .rne => fpInfBits f
    | .rz => fpMax f
    | .rup => if neg then fpMax f else fpInfBits f
    | .rdn => if neg then fpInfBits f else fpMax f
    | .sr _ => fpInfBits f

/-- The sign bit placed above a magnitude. -/
def withSign (f : Fp) (neg : Bool) (mag : Nat) : Nat := if neg then 2 ^ fpMag f + mag else mag

/-- The exact value `num / den` with a sign, rounded once to a format (R90, R100 to R102, R106). -/
def fpRound (f : Fp) (rm : Rm) (neg : Bool) (num den : Nat) : Rounded :=
  if num == 0 then ⟨withSign f neg 0, 0⟩
  else
    let emin : Int := 1 - fpBias f
    let q : Int := max (ratLog2 num den) emin - fpMant f
    let (n, d) := ratScale num den q
    let lo := n / d
    let rem := n % d
    let r := if roundsUp rm neg lo rem d then lo + 1 else lo
    let mag : Nat := ((q + fpMant f - emin) * 2 ^ fpMant f).toNat + r
    if mag > fpMax f then ⟨withSign f neg (overflowMag f rm neg), flagOF ||| flagNX⟩
    else
      let nx := if rem == 0 then 0 else flagNX
      let uf := if rem != 0 && mag < 2 ^ fpMant f then flagUF else 0
      ⟨withSign f neg mag, nx ||| uf⟩

/-- A finite value as a rational. -/
def finRat (mant : Nat) (exp : Int) : Nat × Nat :=
  if exp ≥ 0 then (mant * 2 ^ exp.toNat, 1) else (mant, 2 ^ (-exp).toNat)

/-- The exact dyadic `mant * 2 ^ exp` rounded once. -/
def fpRoundDyadic (f : Fp) (rm : Rm) (neg : Bool) (mant : Nat) (exp : Int) : Rounded :=
  let (n, d) := finRat mant exp
  fpRound f rm neg n d

/-- The canonical NaN with flags. -/
def fpNaNWith (f : Fp) (fl : Flags) : Rounded := ⟨fpNaN f, fl⟩
/-- An infinity, or the largest value where the format has none. -/
def fpInfWith (f : Fp) (neg : Bool) (fl : Flags) : Rounded :=
  ⟨withSign f neg (if fpInf f then fpInfBits f else fpMax f), fl⟩

/-- A decoded value converted to a format (R100, R101, R102). -/
def fpConvert (f : Fp) (rm : Rm) : FVal → Rounded
  | .nan => fpNaNWith f (if fpInf f then 0 else flagNV)
  | .inf neg => fpInfWith f neg (if fpInf f then 0 else flagNV)
  | .fin neg m e => fpRoundDyadic f rm neg m e

/-- A signed dyadic as an integer at a common exponent. -/
def atExp (neg : Bool) (m : Nat) (e base : Int) : Int :=
  let v : Int := (m * 2 ^ (e - base).toNat : Nat)
  if neg then -v else v

/-- The sign of an exact zero sum (R216): + but for RDN; equal signs keep theirs. -/
def zeroSumNeg (rm : Rm) (n1 n2 : Bool) : Bool := if n1 == n2 then n1 else rm == .rdn

/-- An exact sum of two finite values, rounded once. -/
def sumFin (f : Fp) (rm : Rm) (n1 : Bool) (m1 : Nat) (e1 : Int) (n2 : Bool) (m2 : Nat) (e2 : Int) : Rounded :=
  let base := min e1 e2
  let t := atExp n1 m1 e1 base + atExp n2 m2 e2 base
  if t == 0 then ⟨withSign f (if m1 == 0 && m2 == 0 then zeroSumNeg rm n1 n2 else rm == .rdn) 0, 0⟩
  else fpRoundDyadic f rm (t < 0) t.natAbs base

/-- a + b (R216). -/
def fpAddV (f : Fp) (rm : Rm) : FVal → FVal → Rounded
  | .nan, _ | _, .nan => fpNaNWith f 0
  | .inf a, .inf b => if a == b then fpInfWith f a 0 else fpNaNWith f flagNV
  | .inf a, .fin .. => fpInfWith f a 0
  | .fin .., .inf b => fpInfWith f b 0
  | .fin n1 m1 e1, .fin n2 m2 e2 => sumFin f rm n1 m1 e1 n2 m2 e2

/-- -a. -/
def fvNeg : FVal → FVal
  | .nan => .nan
  | .inf a => .inf (!a)
  | .fin n m e => .fin (!n) m e

/-- The exact product of two values and whether it is invalid (0 × ∞, R102). -/
def fvMul : FVal → FVal → FVal × Bool
  | .nan, .nan | .nan, .fin .. | .fin .., .nan | .nan, .inf _ | .inf _, .nan => (.nan, false)
  | .inf a, .inf b => (.inf (a != b), false)
  | .inf a, .fin n m _ => if m == 0 then (.nan, true) else (.inf (a != n), false)
  | .fin n m _, .inf b => if m == 0 then (.nan, true) else (.inf (n != b), false)
  | .fin n1 m1 e1, .fin n2 m2 e2 => (.fin (n1 != n2) (m1 * m2) (e1 + e2), false)

/-- a × b (R216). -/
def fpMulV (f : Fp) (rm : Rm) (a b : FVal) : Rounded :=
  match fvMul a b with
  | (_, true) => fpNaNWith f flagNV
  | (.nan, _) => fpNaNWith f 0
  | (.inf n, _) => fpInfWith f n 0
  | (.fin n m e, _) => fpRoundDyadic f rm n m e

/-- a × b + c with one rounding; 0 × ∞ sets NV whatever the addend (R91, R216, R217). -/
def fpFmaV (f : Fp) (rm : Rm) (a b c : FVal) : Rounded :=
  match fvMul a b with
  | (_, true) => fpNaNWith f flagNV
  | (p, false) => fpAddV f rm p c

/-- a / b (R216, R217). -/
def fpDivV (f : Fp) (rm : Rm) : FVal → FVal → Rounded
  | .nan, _ | _, .nan => fpNaNWith f 0
  | .inf _, .inf _ => fpNaNWith f flagNV
  | .inf a, .fin n _ _ => fpInfWith f (a != n) 0
  | .fin n _ _, .inf b => ⟨withSign f (n != b) 0, 0⟩
  | .fin n1 m1 e1, .fin n2 m2 e2 =>
    if m2 == 0 then (if m1 == 0 then fpNaNWith f flagNV else fpInfWith f (n1 != n2) flagDZ)
    else
      let (a, b) := finRat m1 e1
      let (c, d) := finRat m2 e2
      fpRound f rm (n1 != n2) (a * d) (b * c)

/-- A positive real between `n` and `n + 1` parts of `2 ^ k`, as a rational that rounds as it does; exact when
`exact`. -/
def proxy (exact : Bool) (n k : Nat) : Nat × Nat :=
  if exact then (n, 2 ^ k) else (2 * n + 1, 2 ^ (k + 1))

/-- √a (R216, R217). -/
def fpSqrtV (f : Fp) (rm : Rm) : FVal → Rounded
  | .nan => fpNaNWith f 0
  | .inf false => fpInfWith f false 0
  | .inf true => fpNaNWith f flagNV
  | .fin n m e =>
    if m == 0 then ⟨withSign f n 0, 0⟩
    else if n then fpNaNWith f flagNV
    else
      let (a, b) := finRat m e
      let k := 400
      let sq := a * 2 ^ (2 * k) / b
      let r := Nat.sqrt sq
      let (p, q) := proxy (r * r * b == a * 2 ^ (2 * k)) r k
      fpRound f rm false p q

/-- 1 / √a, to nearest (R216, R217). -/
def fpRsqrtV (f : Fp) : FVal → Rounded
  | .nan => fpNaNWith f 0
  | .inf false => ⟨0, 0⟩
  | .inf true => fpNaNWith f flagNV
  | .fin n m e =>
    if m == 0 then fpInfWith f n flagDZ
    else if n then fpNaNWith f flagNV
    else
      let (a, b) := finRat m e
      let k := 400
      let sq := b * 2 ^ (2 * k) / a
      let r := Nat.sqrt sq
      let (p, q) := proxy (r * r * a == b * 2 ^ (2 * k)) r k
      fpRound f .rne false p q

/-- 1 / a, to nearest (R216, R217). -/
def fpRcpV (f : Fp) : FVal → Rounded
  | .nan => fpNaNWith f 0
  | .inf n => ⟨withSign f n 0, 0⟩
  | .fin n m e =>
    if m == 0 then fpInfWith f n flagDZ
    else let (a, b) := finRat m e; fpRound f .rne n b a

/-- Order of two non-NaN values with -0 below +0 (R216): a before b. -/
def fvLess (a b : FVal) : Bool :=
  match a, b with
  | .nan, _ | _, .nan => false
  | .inf na, .inf nb => na && !nb
  | .inf na, .fin .. => na
  | .fin .., .inf nb => !nb
  | .fin n1 m1 e1, .fin n2 m2 e2 =>
    let base := min e1 e2
    let x := atExp n1 m1 e1 base
    let y := atExp n2 m2 e2 base
    x < y || (x == y && n1 && !n2)

/-- Numeric comparisons where -0 equals +0 and a NaN compares false (R220). -/
def fvLt (a b : FVal) : Bool :=
  match a, b with
  | .fin n1 m1 e1, .fin n2 m2 e2 =>
    let base := min e1 e2
    atExp n1 m1 e1 base < atExp n2 m2 e2 base
  | _, _ => fvLess a b
def fvEq (a b : FVal) : Bool :=
  match a, b with
  | .nan, _ | _, .nan => false
  | _, _ => !fvLt a b && !fvLt b a
def fvLe (a b : FVal) : Bool := fvLt a b || fvEq a b

/-- The bits of a value that the format holds exactly. -/
def fvExact (f : Fp) : FVal → Nat
  | .nan => fpNaN f
  | .inf n => (fpInfWith f n 0).bits
  | .fin n m e => (fpRoundDyadic f .rne n m e).bits

/-- The lesser value, -0 below +0 (R216). -/
def fpMinV (f : Fp) (a b : FVal) : Nat :=
  match a, b with
  | .nan, _ | _, .nan => fpNaN f
  | _, _ => if fvLess b a then fvExact f b else fvExact f a
/-- The greater value. -/
def fpMaxV (f : Fp) (a b : FVal) : Nat :=
  match a, b with
  | .nan, _ | _, .nan => fpNaN f
  | _, _ => if fvLess a b then fvExact f b else fvExact f a

/-- A signed integer rounded from `num / den` (R98, R99, R110, R223). -/
def ratRoundInt (rm : Rm) (neg : Bool) (num den : Nat) : Int × Bool :=
  let lo := num / den
  let rem := num % den
  let r := if roundsUp rm neg lo rem den then lo + 1 else lo
  (if neg then -(r : Int) else r, rem != 0)

/-- The rounded integer of `mant * 2 ^ exp` and whether it is inexact. -/
def dyRoundInt (rm : Rm) (neg : Bool) (mant : Nat) (exp : Int) : Int × Bool :=
  let (n, d) := finRat mant exp
  ratRoundInt rm neg n d

/-- D of R106, the discarded bits of a conversion; 0 for a zero, NaN, infinite or exact value (R107). Past the
magnitude that follows the largest finite value the formula gives more than sixteen bits; its low 32 enter the
mixer (log 16). -/
def discarded (f : Fp) : FVal → BitVec 32
  | .fin _ m e =>
    if m == 0 then 0
    else
      let (num, den) := finRat m e
      let q : Int := max (ratLog2 num den) (1 - fpBias f) - fpMant f
      let (n, d) := ratScale num den q
      -- above the largest finite value the neighbour below is the largest value (R106)
      let q' : Int := (2 ^ fpExp f - (if fpInf f then 2 else 1) : Int) - fpBias f - fpMant f
      let top := fpMax f % 2 ^ fpMant f + 2 ^ fpMant f
      if q' < q || (q' == q && decide (top < n / d)) then
        let (n', d') := ratScale num den q'
        BitVec.ofNat 32 ((n' - top * d') * 2 ^ 16 / d')
      else BitVec.ofNat 32 (n % d * 2 ^ 16 / d)
  | _ => 0

/-- The mixer of the hash dither and of a token's check field (R107, R177). -/
def mix32 (x0 : BitVec 32) : BitVec 32 :=
  let x := x0 ^^^ (x0 >>> 16)
  let x := x * 0x7FEB352D#32
  let x := x ^^^ (x >>> 15)
  let x := x * 0x846CA68B#32
  x ^^^ (x >>> 16)

/-- Dither16 (R107). -/
def dither16 (dn : BitVec 32) (step : Word) : BitVec 16 :=
  (mix32 (dn ^^^ (step * 0x2545F491#64).setWidth 32)).setWidth 16

/-- Sign extension from a width to 64 bits. -/
def sext64 {w : Nat} (v : BitVec w) : Word := v.signExtend 64
/-- Zero extension to 64 bits. -/
def zext64 {w : Nat} (v : BitVec w) : Word := v.setWidth 64

end Sys2Proof.Machine
end

