-- ==== Sys2Proof/Machine/Block.lean ====
section
/-! DEFINITION. Block formats: 48 elements under one scale (R92 to R99). `k8` tells K8x48 from E2M1x48. -/

namespace Sys2Proof.Machine

/-- An element of a list of naturals, 0 past its end. -/
def natAt (l : List Nat) (i : Nat) : Nat := (l[i]?).getD 0

/-- The engine magnitudes of the E2M1 codes 0 to 7, in units of 2^(b - 128) (R93). -/
def e2m1Grid : List Nat := [0, 1, 2, 3, 4, 6, 8, 12]

/-- The engine integer of an E2M1 code under a special byte (R93). -/
def e2m1Int (code : Nat) (special : Int) : Int :=
  if code == 8 then special
  else
    let g : Int := natAt e2m1Grid (code % 8)
    if code ≥ 8 then -g else g

/-- A byte read as a signed integer. -/
def byteInt (b : Byte) : Int := b.toInt

/-- Bytes of a block record (R94, R95). -/
def recordBytes (k8 : Bool) : Nat := if k8 then 64 else 32

/-- A byte of a list, 0 past its end. -/
def byteAt (l : List Byte) (i : Nat) : Byte := (l[i]?).getD 0

/-- The scale byte of a record (R94, R95). -/
def recordScale (k8 : Bool) (rec : List Byte) : Nat := (byteAt rec (if k8 then 48 else 24)).toNat

/-- The integer of element i of a record, in units of 2^(b - 127) for K8x48 and 2^(b - 128) for E2M1x48. -/
def recordInt (k8 : Bool) (rec : List Byte) (i : Nat) : Int :=
  if k8 then byteInt (byteAt rec i)
  else
    let c := (byteAt rec (i / 2)).toNat
    e2m1Int (if i % 2 == 0 then c % 16 else c / 16) (byteInt (byteAt rec 25))

/-- The exponent of the unit of a record's integers. -/
def recordUnit (k8 : Bool) (rec : List Byte) : Int := (recordScale k8 rec : Int) - (if k8 then 127 else 128)

/-- An integer times a power of two as a value; zero is +0. -/
def fvOfInt (n : Int) (e : Int) : FVal := .fin (n < 0) n.natAbs e

/-- The exact value of element i of a record (R92, R93, R95). -/
def recordValue (k8 : Bool) (rec : List Byte) (i : Nat) : FVal :=
  if recordScale k8 rec == 255 then .nan
  else fvOfInt (recordInt k8 rec i) (recordUnit k8 rec)

/-- A block being encoded: scale byte, integers or codes, special byte, flags. -/
structure BlockEnc where
  scale : Nat
  elems : List Nat
  special : Int
  flags : Flags
deriving DecidableEq, Repr

/-- Whether a value is a NaN or an infinity. -/
def fvNonFinite : FVal → Bool
  | .fin .. => false
  | _ => true
/-- Whether a value is a zero. -/
def fvZero : FVal → Bool
  | .fin _ m _ => m == 0
  | _ => false

/-- |a| > |b| for finite values. -/
def magGt (a b : FVal) : Bool :=
  match a, b with
  | .fin _ m1 e1, .fin _ m2 e2 =>
    let base := min e1 e2
    m1 * 2 ^ (e1 - base).toNat > m2 * 2 ^ (e2 - base).toNat
  | _, _ => false

/-- The value of largest magnitude, the lowest index on ties (R97, R99). -/
def maxMag : List FVal → FVal → FVal
  | [], best => best
  | v :: t, best => maxMag t (if magGt v best then v else best)

/-- The scale byte of a block whose largest value is finite and not zero (R97). -/
def blockScale (k8 : Bool) (amax : FVal) : Nat :=
  match amax with
  | .fin _ m e =>
    let (n, d) := finRat m e
    ((ratLog2 n d - (if k8 then 6 else 2)) + 127).toNat
  | _ => 255

/-- A value as a magnitude in the units of the block's integers. -/
def blockUnits (k8 : Bool) (scale : Nat) : FVal → Bool × Nat × Nat
  | .fin n m e =>
    let (a, b) := finRat m e
    let (p, q) := ratScale a b ((scale : Int) - (if k8 then 127 else 128))
    (n, p, q)
  | _ => (false, 0, 1)

/-- The grid index at or below a magnitude `n / d`, and the largest index. -/
def gridIndex (k8 : Bool) (n d : Nat) : Nat :=
  if k8 then min 127 (n / d)
  else (e2m1Grid.filter (fun g => g * d ≤ n)).length - 1
/-- The magnitude of a grid index; the one past the largest lies one top spacing above it (R106). -/
def gridMag (k8 : Bool) (i : Nat) : Nat := if k8 then i else if i ≥ 8 then 16 else natAt e2m1Grid i
/-- The largest grid index. -/
def gridTop (k8 : Bool) : Nat := if k8 then 127 else 7

/-- D of R106 against the block's grid (R107). -/
def gridDiscarded (k8 : Bool) (scale : Nat) (v : FVal) : BitVec 32 :=
  if fvNonFinite v || fvZero v then 0
  else
    let (_, n, d) := blockUnits k8 scale v
    let i := gridIndex k8 n d
    let lo := gridMag k8 i
    let hi := gridMag k8 (i + 1)
    BitVec.ofNat 32 ((n - lo * d) * 2 ^ 16 / ((hi - lo) * d))

/-- One element rounded to the grid (R98): index and whether it is inexact. -/
def gridRound (k8 : Bool) (rm : Rm) (neg : Bool) (n d : Nat) : Nat × Bool :=
  let i := gridIndex k8 n d
  let lo := gridMag k8 i
  let hi := gridMag k8 (i + 1)
  let rem := n - lo * d
  let up := roundsUp rm neg i rem ((hi - lo) * d)
  let r := if up then i + 1 else i
  (min r (gridTop k8), rem != 0)

/-- |n/d with sign - v| for an integer v, as a numerator over d. -/
def distTo (neg : Bool) (n d : Nat) (v : Int) : Nat :=
  let x : Int := if neg then -(n : Int) else n
  (x - v * d).natAbs

/-- One element encoded under a scale and a special byte (R98, R99): its code or byte and its flags. -/
def encodeElem (k8 : Bool) (rm : Rm) (scale : Nat) (special : Int) (v : FVal) : Nat × Flags :=
  let (neg, n, d) := blockUnits k8 scale v
  let (i, inexact) := gridRound k8 rm neg n d
  let g : Int := if neg then -(gridMag k8 i : Int) else gridMag k8 i
  let gridFlags : Flags :=
    (if inexact then flagNX else 0) ||| (if inexact && (i == 0 || (!k8 && i == 1)) then flagUF else 0)
  if k8 then ((g % 256).toNat, gridFlags)
  else if distTo neg n d special < distTo neg n d g then
    let off := distTo neg n d special != 0
    (8, (if off then flagNX else 0) ||| (if off && special == 0 then flagUF else 0))
  else (if i == 0 then 0 else if neg then i + 8 else i, gridFlags)

/-- The mode of element i: under code 4 its own random value (R106). -/
def modeAt (code : BitVec 3) (rnds : List (BitVec 16)) (i : Nat) : Rm := rmConv code ((rnds[i]?).getD 0)

/-- The scale byte of a list of values (R97). -/
def scaleOf (k8 : Bool) (vals : List FVal) : Nat :=
  if vals.any fvNonFinite then 255
  else if vals.all fvZero then 127
  else blockScale k8 (maxMag vals (.fin false 0 0))

/-- The special byte of an E2M1x48 block (R99). -/
def specialOf (scale : Nat) (vals : List FVal) : Int :=
  let (neg, n, d) := blockUnits false scale (maxMag vals (.fin false 0 0))
  max (-127) (min 127 (ratRoundInt .rne neg n d).1)

/-- A list of values encoded as one block (R97 to R99). -/
def encodeBlock (k8 : Bool) (code : BitVec 3) (rnds : List (BitVec 16)) (vals : List FVal) : BlockEnc :=
  if vals.any fvNonFinite then ⟨255, vals.map (fun _ => 0), 0, flagNV⟩
  else if vals.all fvZero then ⟨127, vals.map (fun _ => 0), 0, 0⟩
  else
    let scale := scaleOf k8 vals
    let special := if k8 then 0 else specialOf scale vals
    let rs := vals.zipIdx.map (fun p => encodeElem k8 (modeAt code rnds p.2) scale special p.1)
    ⟨scale, rs.map (·.1), special, rs.foldl (fun acc p => acc ||| p.2) 0⟩

/-- The D values of a block, for its hash dither (R107). -/
def blockDs (k8 : Bool) (vals : List FVal) : List (BitVec 32) :=
  if vals.any fvNonFinite || vals.all fvZero then vals.map (fun _ => 0)
  else vals.map (gridDiscarded k8 (scaleOf k8 vals))

/-- A natural as a byte. -/
def natByte (n : Nat) : Byte := BitVec.ofNat 8 n

/-- The record bytes of an encoded block of 48 elements (R94, R95). -/
def blockBytes (k8 : Bool) (e : BlockEnc) : List Byte :=
  if k8 then (e.elems.take 48).map natByte ++ [natByte e.scale] ++ List.replicate 15 0
  else
    (List.range 24).map (fun i => natByte (natAt e.elems (2 * i) + 16 * natAt e.elems (2 * i + 1)))
      ++ [natByte e.scale, natByte (e.special % 256).toNat] ++ List.replicate 6 0

/-- A block element decoded to FP32, rounded once to nearest (R96). -/
def recordFp32 (k8 : Bool) (rec : List Byte) (i : Nat) : Rounded :=
  fpConvert .fp32 .rne (recordValue k8 rec i)

end Sys2Proof.Machine
end

