-- ==== Sys2Proof/Config.lean ====
section
/-! DEFINITION. What one part fixes and the spec leaves open: constants without a body, so that no proof can see
their value, and the counts the spec gives. -/

namespace Sys2Proof

/-- Nanoseconds that pass before a step, given the count of steps so far (log 1). FREE. -/
opaque Config.stepTime : Nat → Nat

/-- A value the spec leaves undefined (R11), given the count of such values so far (log 10). FREE. -/
opaque Config.free64 : Nat → BitVec 64

/-- The noise source of stochastic rounding (R108), given the count of draws so far (log 11). FREE. -/
opaque Config.noise : Nat → BitVec 16

/-- The overflow bytes that a compressed line with these contents needs beyond its slot, 0 when it fits (R166, R425,
log 20). FREE. -/
opaque Config.csNeed : BitVec 512 → Nat

/-- The draw of a power domain in milliwatts at an operating point and a fetch duty (R32, R418 to R420, log 49). FREE. -/
opaque Config.draw : Nat → Nat → Nat → Nat

/-- Compute, gateway and service harts of the module (R16). -/
def Config.harts : Nat := 1092
/-- Entries of a hart's scoreboard (R116). -/
def Config.scoreboard : Nat := 64
/-- Entries of a hart's data or instruction TLB, and of a second-level TLB (R15, R17, R146). -/
def Config.hartTlb : Nat := 64
def Config.tableTlb : Nat := 4096
/-- Entries of a hart's combining buffer (R156). -/
def Config.combining : Nat := 32
/-- Entries of a command queue (R242). -/
def Config.queue : Nat := 16
/-- Entries of a range-lock table (R188). -/
def Config.locks : Nat := 256
/-- Copies waiting in a hart's FIFO, and slots of its journal (R320). -/
def Config.copyFifo : Nat := 16
def Config.copySlots : Nat := 256
/-- Outstanding msends of a hart (R362). -/
def Config.msends : Nat := 16
/-- Longest relative wait in nanoseconds (R134, R302, R391). -/
def Config.maxWait : Nat := 1048576

end Sys2Proof
end

