-- ==== Sys2Proof/Machine/State.lean ====
section
/-! DEFINITION. The state of one Dzirov module: plain data, every piece of it named by the spec or marked as the
model's own. -/

namespace Sys2Proof.Machine

/-- Sparse storage: keys strictly rising, no entry that holds zero; an absent key reads zero. -/
abbrev Cells (w : Nat) := List (Nat × BitVec w)

/-- Bytes by global physical address (R138, R143): NODE, CORE and offset; unlisted bytes read 0 (log 6). -/
abbrev Memory := Cells 8

/-- The three levels (R396). -/
inductive Level where
  | U | S | M
deriving DecidableEq, Repr

/-- One trap bank (R396). -/
structure TrapBank where
  cause : BitVec 8
  async : Bool
  pc : Word
  epc : Word
  val : Word
  ie : Bool
  pie : Bool
  ppl : Level
  tip : Bool
  vec : Word
  scr : Word
deriving DecidableEq, Repr

/-- One spindle (R169, R192). `gen` is the model's own count of the fork markers issued under the strand (R173). -/
structure Spindle where
  issue : BitVec 32
  perf : BitVec 32
  status : BitVec 17
  xseq : BitVec 32
  mark : Bool
  span : Option (BitVec 32 × BitVec 32)
  gen : Nat
deriving DecidableEq, Repr

/-- A faulted result as the scoreboard holds it and the fault record lists it (R151, R153, R208), with the pages it
lists. -/
structure FaultEntry where
  id : Nat
  pc : Word
  addr : Word
  cause : BitVec 8
  reason : BitVec 8
  dest : BitVec 5
  size : BitVec 2
  uns : Bool
  sn : BitVec 3
  kind : BitVec 2
  fn : BitVec 6
  operand : Word
  compare : Word
  pages : List Word
deriving DecidableEq, Repr

/-- Bytes a load takes from the hart's own combining buffer: address and value (R157). -/
abbrev Fwd := List (Nat × Byte)

/-- What an issued operation does when it is performed (R167, R168). -/
inductive OpKind where
  /-- a scalar load -/
  | load (ea : Word) (size : Nat) (uns : Bool) (dest : BitVec 5)
  /-- a vld: the format captured at issue -/
  | vload (ea : Word) (fmt : BitVec 4) (vd : BitVec 5)
  /-- a vldx: the lanes still to be written and each lane's address -/
  | vloadx (fmt : BitVec 4) (t : Bool) (vd : BitVec 5) (idx : BitVec 5) (base : Word)
      (lanes : List (Nat × Word))
  /-- a baddq.acc: one block record -/
  | blockAcc (ea : Word) (xb : Word) (vd : BitVec 5)
  /-- a read stream's fetch of its register j -/
  | streamLoad (r : BitVec 5) (j : Nat) (ea : Word) (fmt : BitVec 4)
  /-- a store: the bytes at each address, already checked, and their physical place; `vec` for a vector access -/
  | store (writes : List (Word × Nat × List Byte)) (vec : Bool) (buffered : Bool)
  /-- an atomic -/
  | atomic (ea : Word) (fn : BitVec 6) (b : Word) (cmp : Word) (dest : BitVec 5)
  /-- the marker of sfork (R173) -/
  | fork (sa : BitVec 3) (n : BitVec 32)
  /-- the marker of sjoin (R174) -/
  | join (sa : BitVec 3) (n : BitVec 32)
  /-- an entry of the hart's command queue (R242) -/
  | engine
  /-- a copy of the hart's journal (R320) -/
  | copy (slot : BitVec 8)
  /-- an msend (R362) -/
  | msend (src : Word) (len : Nat) (dst : Word)
  /-- an mpost (R363) -/
  | mpost (slot : BitVec 5)
deriving DecidableEq, Repr

/-- An issued operation that is not yet performed. `id` counts a hart's operations in issue order. `sent`: it has
left the hart towards another node (R347, R348): the read-combining entry it waits on, or the acknowledgements still
to come. `fwd`: what the combining buffer supplied to a load when it left (R157). -/
structure Op where
  id : Nat
  pc : Word
  strand : BitVec 3
  seq : BitVec 32
  gen : Nat
  level : Level
  region : Option (BitVec 16)
  kind : OpKind
  sent : Option Nat
  fwd : Fwd
deriving DecidableEq, Repr

/-- The value of a performed operation on its way to its register (R68, R116). -/
inductive Result where
  | xval (d : BitVec 5) (v : Word)
  | vval (vals : List (BitVec 5 × VReg)) (flags : BitVec 5)
  | lanes (vd : BitVec 5) (t : Bool) (vals : List (Nat × BitVec 32)) (idx : BitVec 5) (flags : BitVec 5)
  | acc (vd : BitVec 5) (vals : List (BitVec 5 × VReg)) (flags : BitVec 5)
  | nothing (dx : List (BitVec 5)) (dv : List (BitVec 5))
  | stream (r : BitVec 5) (j : Nat) (v : VReg) (flags : BitVec 5) (cause : BitVec 8)
deriving DecidableEq, Repr

/-- A result that has not yet returned: the strand of its operation, what it writes, the fault it carries if any (R151), and the read-combining
entries whose replies it waits for (R159). -/
structure Ret where
  id : Nat
  strand : BitVec 3
  res : Result
  fault : Option FaultEntry
  entries : List Nat
deriving DecidableEq, Repr

/-- One entry of the combining buffer (R156). `last` is the hart cycle of its latest write. -/
structure CombEntry where
  line : Nat
  strand : BitVec 3
  ops : List Nat
  mask : BitVec 64
  closed : Bool
  draining : Bool
  last : Nat
deriving DecidableEq, Repr

/-- A write on its way to another node (R158, R348): its number, the node, the operations whose bytes it carries, and the
bytes' addresses. -/
structure SentWrite where
  num : Nat
  node : BitVec 4
  ops : List Nat
  spans : List (Nat × Nat)
deriving DecidableEq, Repr

/-- One stream register's binding (R211, R212, R214). -/
structure Binding where
  base : Word
  n0 : BitVec 16
  n1 : BitVec 16
  write : Bool
  stride0 : Word
  stride1 : Word
  strand : BitVec 3
  fmt : BitVec 4
  rnd : BitVec 3
  srs : Bool
  pos : Nat
  fetched : Nat
  ready : List (Nat × VReg × BitVec 5 × BitVec 8)
deriving DecidableEq, Repr

/-- Where a hart stands (R68, R134, R274, R302, R392, R401, R408, R412, R416). -/
inductive Run where
  /-- free: no node, executes nothing (R418) -/
  | free
  /-- issues instructions -/
  | running
  /-- waits at issue; the instruction at the pc is tried again -/
  | blocked
  /-- parked at a marker (R68) -/
  | parked
  /-- parked at the entry of a synchronous trap (R71); cause 7 stands for the deferred fault itself (R151) -/
  | parkTrap (cause : BitVec 8) (pc epc val : Word)
  /-- in twait (0), sleep (1) or tsat (2) until the deadline (R134) -/
  | timed (kind : BitVec 2) (deadline : Word) (d : BitVec 5) (m : Bool)
  /-- in wfi (R408) -/
  | wfi (m : Bool)
  /-- arrived at a phase of a stairwell (R312); `release` when the tick is set, `ended` when the decision ended the cycle,
  so that no later abort reaches the hart (R296) -/
  | barrier (stair : BitVec 4) (phase : BitVec 2) (d : BitVec 5) (m : Bool) (release : Option Word) (ended : Bool)
  /-- in a grid command (R274) -/
  | grid (m : Bool)
  /-- waits for the tick of ckpt (R412) -/
  | ckpt (tick : Word) (d : BitVec 5) (m : Bool)
  /-- waits for the reply to a token check at another node (R178) -/
  | token (sd : BitVec 3) (tok : Word) (m : Bool)
  /-- stopped with its region (R392) or by gstop (R410): where it goes on; a relative wait holds the time left -/
  | stopped (was : Run)
  /-- its quad is in retention (R416) -/
  | retention (kind : Option (BitVec 2 × Word × BitVec 5)) (m : Bool)
  /-- stopped by a double trap (R401) -/
  | halted
deriving DecidableEq, Repr

/-- The node a hart runs (R376 to R381). -/
structure NodeRun where
  region : BitVec 16
  desc : Word
  index : Nat
  count : Nat
  engine : Bool
  gang : Bool
deriving DecidableEq, Repr

/-- A waiting interrupt (R397 to R399): for cause 0x12 the copy slot and its handler (R339). -/
structure Irq where
  cause : BitVec 8
  val : Word
  slot : BitVec 8
  handler : Word
deriving DecidableEq, Repr

/-- States of a journal slot (R322). -/
inductive CopyState where
  | done | queued | running | stopped | held
deriving DecidableEq, Repr

/-- One journal slot (R320, R322, R342). `taken`: the slot is not free; `lost`: the copy has met a memory error, and no more
of it is delivered (R333, R415). -/
structure CopySlot where
  gen : BitVec 23
  st : CopyState
  taken : Bool
  wp : BitVec 40
  ecode : BitVec 8
  w0 : Word
  w1 : Word
  w2 : Word
  w3 : Word
  step : Word
  handler : Word
  begun : Bool
  sfmt : BitVec 4
  dfmt : BitVec 4
  rnd : BitVec 3
  esz : BitVec 2
  nonReplay : Bool
  kept : Word
  seq : BitVec 32
  op : Nat
  chan : Nat
  lost : Bool
deriving DecidableEq, Repr

/-- One posted receive (R357, R363, R364). `queued`: the overflow entry that matched it; `held`: the payload of an arrival that
matched it, until the order of its strand lets the receive be performed (R195). -/
structure Post where
  gen : BitVec 24
  used : Bool
  order : Nat
  buf : Word
  cap : Nat
  spec : Word
  strand : BitVec 3
  level : Level
  op : Nat
  matched : Bool
  done : Bool
  cancelled : Bool
  trunc : Bool
  len : Nat
  srcHart : BitVec 11
  srcNode : BitVec 4
  tag : BitVec 16
  queued : Option Nat
  held : Option (List Byte)
deriving DecidableEq, Repr

/-- One arrival in the overflow queue (R358): its entry number, its source, tag and length. -/
structure Queued where
  entry : Nat
  srcHart : BitVec 11
  srcNode : BitVec 4
  tag : BitVec 16
  len : Nat
  claimed : Bool
deriving DecidableEq, Repr

/-- One entry of a hart's command queue with what it captured (R240, R242, R250). `holds`: an mmul.bc has its bus (R260).
`lost`: it has met a memory error and is not completed (R234). -/
structure Cmd where
  op : Nat
  pc : Word
  word : BitVec 32
  major : BitVec 6
  fn : BitVec 6
  strand : BitVec 3
  xa : Word
  xb : Word
  ox0 : Word
  ox1 : Word
  ox2 : Word
  cfg : Word
  dest : BitVec 5
  data : VReg
  drained : Nat
  begun : Bool
  kn : Option (BitVec 32 × BitVec 32 × BitVec 32 × BitVec 4 × BitVec 2 × BitVec 2)
  peers : List Nat
  holds : Bool
  lost : Bool
deriving DecidableEq, Repr

/-- The error record (R248). -/
structure EngErr where
  pc : Word
  word : BitVec 32
  xa : Word
  xb : Word
  ox0 : Word
  cfg : Word
  ecode : BitVec 8
  strip : BitVec 12
  col0 : BitVec 9
  col1 : BitVec 9
deriving DecidableEq, Repr

/-- A cached translation (R146): region, node, page base, log2 of the page size, and the leaf. -/
structure TlbEntry where
  node : BitVec 4
  region : BitVec 16
  base : Nat
  bits : Nat
  leaf : Word
deriving DecidableEq, Repr

/-- One hart (R17) with everything that belongs to it. `dtlb` and `itlb` are its two TLBs (R146); `writes` what it has sent
to other nodes; the model's own are `recInfo`, the INFO words of the latest fault record (R154), `holdTo`, below which a gang
stop has its operations wait for the resume, and `recalled`, the faulted loads it has recorded (R72, R392). -/
structure Hart where
  num : Nat
  level : Level
  pc : Word
  x : Vector Word 32
  v : Vector VReg 32
  k : Vector Word 8
  ox : Vector Word 8
  sp : Vector Spindle 8
  bankU : TrapBank
  bankS : TrapBank
  bankM : TrapBank
  deleg : BitVec 32
  irqs : List Irq
  fxRound : BitVec 3
  fxFlags : BitVec 5
  srSrc : BitVec 2
  srLost : Bool
  srStep : Word
  logb : BitVec 17
  logn : BitVec 17
  logp : BitVec 17
  scout : Bool
  fcnt : BitVec 32
  scnt : BitVec 32
  cfg : Word
  engErr : Option EngErr
  cmds : List Cmd
  msOvf : BitVec 31
  msPend : Bool
  msLost : BitVec 32
  posts : Vector Post 32
  ovfq : List Queued
  gwRid : BitVec 16
  gwNext : BitVec 32
  duty : BitVec 5
  req : BitVec 3
  rcnt : BitVec 32
  icnt : Word
  msent : BitVec 32
  mrecv : BitVec 32
  ops : List Op
  rets : List Ret
  faults : List FaultEntry
  nextOp : Nat
  comb : List CombEntry
  writes : List SentWrite
  dtlb : List TlbEntry
  itlb : List TlbEntry
  binds : Vector (Option Binding) 8
  copies : List (Nat × CopySlot)
  run : Run
  node : Option NodeRun
  acq : Vector Word 8
  perfAt : Vector Word 8
  cycle : Nat
  idleSince : Word
  gstopEret : Bool
  back : Option Run
  recInfo : List Word
  holdTo : Nat
  recalled : List FaultEntry
deriving DecidableEq, Repr

/-- The state of a live region's switch (R391, R394, R410). -/
inductive Switch where
  | running
  | suspending (t : Word)
  | ending (t : Word) (stopped : Bool)
  | suspended
  | resuming (t : Word) (endAt : Option Word)
  | gstopping (t : Word)
  | gstopped (endAt : Option Word)
  | gresuming (t : Word) (endAt : Option Word)
deriving DecidableEq, Repr

/-- A live region: its effective RCB (R372 to R375) and what the dispatcher keeps of it (R379). `vnum / vden` is its
virtual time; `enter` the level its nodes enter at (R381); `saves` the free values its saved harts' records begin
with (R392). -/
structure Region where
  num : BitVec 16
  parent : Option (BitVec 16)
  frames : Nat
  gw : Nat
  svc : Bool
  hbm : Nat
  ew : Nat
  prio : Nat
  pool : Nat
  fdom : BitVec 16
  ptroot : Word
  ckpt : Word
  evq : Word
  ovf : Word
  saveA : Word
  saveSz : Word
  fpol : Word
  enter : Level
  switch : Switch
  vnum : Nat
  vden : Nat
  hadPrio : List Nat
  saves : List (Nat × Nat)
deriving DecidableEq, Repr

/-- An instance that nyield put back in the pool (R389): its index, the hart it left, and the register its return writes. -/
structure Moved where
  index : Nat
  dest : BitVec 5
  hart : Hart
  bytes : List (Nat × Byte)
deriving DecidableEq, Repr

/-- A registered node (R376, R378). -/
structure NodeRec where
  region : BitVec 16
  desc : Word
  entry : Word
  args : Word
  kind : BitVec 2
  engine : Bool
  gang : Bool
  hold : Bool
  count : Nat
  foot : Nat
  pred : Nat
  succ : List Word
  ops : List Word
  readyAt : Option Word
  order : Nat
  placed : Nat
  retired : Nat
  bad : Bool
  held : Bool
  moved : List Moved
deriving DecidableEq, Repr

/-- A strip of an mmul.bc on its way to an engine of its bus (R260): the issuing hart, its operation, the strip and the
A blocks of its rows as fetched. -/
structure BusTile where
  hart : Nat
  op : Nat
  strip : Nat
  rows : List (List (Option (List Int × Int)))
deriving DecidableEq, Repr

/-- One matrix engine (R19, R232, R268, R449): its stores, knot registers, arbiter and clock. -/
structure Engine where
  frame : Nat
  acc : Cells 32
  cim : Cells 8
  scale : Cells 8
  lo : BitVec 32
  h : BitVec 32
  hinv : BitVec 32
  g : BitVec 4
  p : BitVec 2
  mode : BitVec 2
  cntLo : BitVec 32
  cntHi : BitVec 32
  place : Nat
  served : Nat
  tile : Option (Nat × Nat)
  gated : Bool
  lastTile : Word
  busIn : List BusTile
deriving DecidableEq, Repr

/-- A frame of a suspended region that the dispatcher has lent (R393): the harts, the engine, the scratchpad bytes and
the bank format registers its record holds, the record's HBM offset, and the free value it begins with (log 28). -/
structure Lent where
  frame : Nat
  region : BitVec 16
  harts : List Hart
  engine : Engine
  bytes : List (Nat × Byte)
  fmts : List (Nat × Word)
  at_ : Nat
  ctr : Nat
deriving DecidableEq, Repr

/-- What takes effect at a release point (R382). -/
inductive ReleaseWhat where
  | register (n : NodeRec)
  | decrement (region : BitVec 16) (desc : Word)
deriving DecidableEq, Repr

/-- A recorded release point (R382). -/
structure Release where
  hart : Nat
  points : List (BitVec 3 × BitVec 32)
  what : ReleaseWhat
deriving DecidableEq, Repr

/-- Kinds of range-lock entries (R188, R189). -/
inductive LockKind where
  | source | dest | copySource | copyDest | weight
deriving DecidableEq, Repr

/-- One range-lock entry (R188); `table` is the cluster, or 32 plus the gallery for its gateway block. -/
structure Lock where
  table : Nat
  lo : Nat
  hi : Nat
  kind : LockKind
  hart : Option Nat
  strand : BitVec 3
  region : Option (BitVec 16)
  op : Nat
  stair : Option (BitVec 4)
deriving DecidableEq, Repr

/-- A translation request that waits for its reply (R147): the hart whose access missed, the target node, the region, the
64 KiB page, what the access needs (0 load, 1 store, 2 atomic, 3 fetch, 4 pref), and whether the hart is in U mode. -/
structure Ask where
  hart : Nat
  node : BitVec 4
  region : BitVec 16
  page : Nat
  need : BitVec 3
  user : Bool
deriving DecidableEq, Repr

/-- A reply that refused a remote translation (R147), until the access it answers takes it. -/
structure TlbFault where
  ask : Ask
  cause : BitVec 8
  reason : BitVec 8
deriving DecidableEq, Repr

/-- The nodes that hold a translation of a page of this module, whatever its size (R147). -/
structure Holder where
  region : BitVec 16
  base : Nat
  bits : Nat
  nodes : BitVec 16
deriving DecidableEq, Repr

/-- A ticket of tlbinv (R423, R424): nodes still to acknowledge and those counted by a dead link. -/
structure Ticket where
  num : BitVec 32
  waiting : BitVec 16
  dead : BitVec 16
deriving DecidableEq, Repr

/-- One entry of the thrash detector (R164), the latest use first. -/
structure Thrash where
  region : BitVec 16
  node : BitVec 4
  page : Nat
  uses : List Word
deriving DecidableEq, Repr

/-- A page that the thrash detector has pinned, and when (R164). -/
structure Pin where
  region : BitVec 16
  node : BitVec 4
  page : Nat
  at_ : Word
deriving DecidableEq, Repr

/-- One entry of a cluster's read-combining table (R159): its line, when it opened, what the read found, and the
reads in it. `remote`: the line lies on another node, whose reply brings the data. `barred`: bytes of the line that a hart has
read later than this entry opened, by hart and place: no read of that hart that meets them joins the entry any more (R182). -/
structure ReadEntry where
  id : Nat
  cluster : Nat
  line : Nat
  key : Nat
  opened : Word
  data : BitVec 512
  written : Bool
  remote : Bool
  readers : List (Nat × BitVec 3)
  barred : List (Nat × Nat × Nat)
deriving DecidableEq, Repr

/-- What an access to another node is made for, when it is no access of an operation that a hart itself performs: an engine
command, a copy or a vldx, by the number of its operation; a blocking access of the instruction at issue; its text; or the reads
of a launch record, which stand under hart 1088. -/
inductive FarUse where
  | op (id : Nat)
  | block
  | text
  | ring
deriving DecidableEq, Repr

/-- What another node has answered: a refusal (cause 0 for none), a write class that is suspended (R353), the data of a read. -/
structure FarAns where
  cause : BitVec 8
  reason : BitVec 8
  suspended : Bool
  data : BitVec 512
deriving DecidableEq, Repr

/-- One line accessed on another node: the hart it is for, its use, its global address in lines, whether it is a write, the number
of its read-combining entry or of its write, the answer once it has come (R159, R348), and whether the attempt under way has met this
write already (the model's own: a write is made once). -/
structure Far where
  hart : Nat
  use : FarUse
  line : Nat
  write : Bool
  num : Nat
  ans : Option FarAns
  met : Bool
deriving DecidableEq, Repr

/-- States of a sequencer (R294). -/
inductive SeqState where
  | closed | open_ | relax | coarse | test | done
deriving DecidableEq, Repr

/-- Outcomes of a cycle (R294). -/
inductive CycleStat where
  | none | converged | inexact | diverged | aborted
deriving DecidableEq, Repr

/-- One arrival at a barrier (R301, R302). -/
structure Arrival where
  hart : Nat
  time : Word
  want : Word
deriving DecidableEq, Repr

/-- One cycle sequencer (R289 to R296). -/
structure Sequencer where
  state : SeqState
  stat : CycleStat
  lastF : CycleStat
  lastB : CycleStat
  dir : Bool
  norm : Bool
  lax : Bool
  ack : Bool
  permit : Bool
  miss : Bool
  device : Bool
  bound : Bool
  count : BitVec 8
  nflight : BitVec 9
  limit : BitVec 8
  region : BitVec 16
  res : Word
  prev : Word
  partials : List (Nat × Word)
  release : Word
  tol : Word
  divf : Word
  timeout : BitVec 32
  ldelay : BitVec 32
  flights : List Word
  landings : List Word
  ranges : List (Word × Word)
  arrivals : List Arrival
  verdict : BitVec 3
deriving DecidableEq, Repr

/-- Lane states (R351). -/
inductive LaneState where
  | failed | idle | locked | active
deriving DecidableEq, Repr

/-- One lane whose state is not ACTIVE (R351, log 7). -/
structure Lane where
  peer : BitVec 4
  fibre : BitVec 6
  st : LaneState
deriving DecidableEq, Repr

/-- Skein states (R354). -/
inductive SkeinState where
  | awake | parking | parked | waking
deriving DecidableEq, Repr

/-- One skein (R354): its state, a pending wake, and when the start sequencer admitted it. -/
structure Skein where
  st : SkeinState
  pending : Bool
  admitted : Option Word
deriving DecidableEq, Repr

/-- What waits for the start sequencer (R422). -/
inductive StartReq where
  | engine (frame : Nat)
  | quad (quad : Nat)
  | skein (k : BitVec 3)
deriving DecidableEq, Repr

/-- A checkpoint interval of a fault domain (R412): who opened it, where its log lies, its pre-images, newest first, and
its restart node. -/
structure Interval where
  dom : BitVec 16
  region : BitVec 16
  base : Nat
  limit : Nat
  log : List (Nat × List Byte)
  exhausted : Bool
  restart : NodeRec
deriving DecidableEq, Repr

/-- A power domain that differs from reset (R418, R419). `next` is the point a relock brings; `given` says when the
budget tree last gave it its cap. -/
structure Domain where
  num : Nat
  point : BitVec 3
  cap : BitVec 3
  next : Option (BitVec 3)
  given : Option Word
deriving DecidableEq, Repr

/-- Something this module sent to another node, in order (R147, R347, R430). -/
inductive Packet where
  | transRequest (node : BitVec 4) (region : Option (BitVec 16)) (off : BitVec 49) (need : BitVec 3) (user : Bool)
  | transReply (node : BitVec 4) (region : BitVec 16) (off : BitVec 49) (level : BitVec 3) (leaf : Word)
      (cause reason : BitVec 8)
  | invalidate (node : BitVec 4) (ticket : BitVec 32) (kind : BitVec 2) (region : BitVec 16) (page : BitVec 49)
      (bits : BitVec 6)
  | invalidateAck (node : BitVec 4) (ticket : BitVec 32)
  | tokenRequest (node : BitVec 4) (tok : Word)
  | tokenReply (node : BitVec 4) (ok : Bool)
  | accessReply (node : BitVec 4) (ok : Bool) (reason : BitVec 8) (data : BitVec 512)
  | write (node : BitVec 4) (hart : Nat) (num : Nat) (acc : Access)
  | message (node : BitVec 4) (m : Message)
  | beats (peer : BitVec 4) (mask : Word) (fibres : List (BitVec 6))
  | report (node : BitVec 4) (firmware : Bool)
  | probe (node : BitVec 4)
  | messageReply (node : BitVec 4) (hart : BitVec 11) (ok : Bool)
  | request (node : BitVec 4) (hart : Nat) (id : Nat) (acc : Access)
deriving DecidableEq, Repr

/-- A packet that waits in a peer's send queue (R347, R353): its class is 0 response, 1 message or 2 posted write. -/
structure SendItem where
  peer : BitVec 4
  cls : BitVec 2
  pkt : Packet
deriving DecidableEq, Repr

/-- A packet on its way over a peer's lanes (R352): the active set it started on, its beats with their lanes in the order in
which each lane sends them, and whether a lane has failed meanwhile. -/
structure Flight where
  item : SendItem
  mask : Word
  plan : List (Nat × BitVec 6)
  broken : Bool
deriving DecidableEq, Repr

/-- A hart that left its place by nyield: arrivals for its region are forwarded until the time, and refused once that is over,
until a node comes to the old hart (R359, R389). -/
structure Forward where
  old : Nat
  new : Nat
  region : BitVec 16
  until_ : Word
  past : Bool
deriving DecidableEq, Repr

/-- A token check that waits at the exporter for its sequence number (R178). -/
structure TokenWait where
  node : BitVec 4
  tok : Word
deriving DecidableEq, Repr

/-- What moves next (the model's own; log 2). -/
inductive Move where
  /-- give the turn to a hart -/
  | turn (h : Nat)
  /-- the hart in focus issues its next instruction -/
  | issue
  /-- an event of the opcode table happens -/
  | event (i : Instr)
deriving DecidableEq, Repr

/-- What firmware and the part bring to a start of the module (R2, R23, R428, R430, R447): whether both signatures
verify, the fabric node, the host nodes, what is deconfigured, the part's revision, the firmware's version, and the power cap
it sets, in watts (R32, R418). -/
structure Boot where
  verified : Bool
  node : BitVec 4
  hosts : BitVec 16
  quads : List Nat
  frames : List Nat
  partRev : BitVec 8
  fwVer : BitVec 32
  cap : Nat
deriving DecidableEq, Repr

/-- The module. -/
structure State where
  /-- the hart in focus, and every other hart that differs from a hart at reset -/
  hart : Hart
  others : List Hart
  now : Word
  mem : Memory
  nodeId : BitVec 4
  owner : List (Nat × BitVec 16)
  lastOwner : List (Nat × BitVec 16)
  bankFmt : List (Nat × Word)
  cgPat : Vector Word 16
  csTab : Word
  csOvf : Word
  csOvfsz : Word
  csOvfuse : Word
  tkKey : Word
  rgAsel : BitVec 6
  rgAlias : Vector Word 64
  evFw : Word
  ringWp : BitVec 16
  ringRp : BitVec 16
  ringOverrun : Word
  ringBase : Word
  engines : List Engine
  lastFrame : List (Nat × BitVec 16)
  seqs : Vector Sequencer 16
  locks : List Lock
  regions : List Region
  nodes : List NodeRec
  releases : List Release
  lent : List Lent
  nextOrder : Nat
  tlb : List (Nat × TlbEntry)
  asks : List Ask
  tlbFaults : List TlbFault
  holders : List Holder
  tickets : List Ticket
  nextTicket : BitVec 32
  thrash : List Thrash
  pins : List Pin
  csPages : List Nat
  reads : List ReadEntry
  nextRead : Nat
  far : List Far
  lanes : List Lane
  skeins : Vector Skein 8
  leaving : List (BitVec 4 × BitVec 6)
  degraded : BitVec 16
  stripe : List (Nat × Nat)
  sendq : List SendItem
  flights : List Flight
  msgMoved : List (Nat × Word)
  probes : BitVec 16
  startq : List StartReq
  lastAdmit : Option Word
  lastSkein : Option Word
  tokenWaits : List TokenWait
  forwards : List Forward
  intervals : List Interval
  domains : List Domain
  /-- the module's power cap in watts (R32), and the replays of the last microsecond: domain, time, number (R417) -/
  capW : Nat
  replays : List (Nat × Word × Nat)
  removedQuads : List Nat
  removedFrames : List Nat
  partRev : BitVec 8
  fwVer : BitVec 32
  wear : List (Nat × Word)
  hosts : BitVec 16
  recovery : Bool
  /-- what firmware and the part will bring to the next start of the module (the model's own; log 3) -/
  boot : Boot
  outbox : List Packet
  channels : List (Nat × Nat)
  rollbacks : List (BitVec 16 × BitVec 8)
  restarts : List (Nat × NodeRec)
  poison : List Nat
  sched : List Move
  tick : Nat
  freeCtr : Nat
  noiseCtr : Nat
deriving DecidableEq, Repr

/-- Why the machine stops for good. -/
inductive Fault where
  /-- raised by `step` when every hart is stopped by a double trap (R401) and nothing is scheduled: the spec gives no
  further behaviour before a module reset; safe: the model stops where the module stays stopped. -/
  | allHartsHalted
deriving DecidableEq, Repr

/-- Why an instruction has no meaning. -/
inductive Refusal where
  /-- raised by a dispatch arm of an instruction that is not modelled; safe: nothing is claimed of it. -/
  | notModelled (mnemonic : String)
deriving DecidableEq, Repr

/-- A trap bank at reset (R396; the fields without a reset value: log 5). -/
def TrapBank.reset : TrapBank :=
  ⟨0, false, 0, 0, 0, false, false, .U, false, 0, 0⟩

/-- A spindle at module reset (R169; XSEQ: log 4). -/
def Spindle.reset : Spindle := ⟨0, 0, 0, 0, false, none, 0⟩

/-- A free slot of the posted-receive table (R359; GEN: log 4). -/
def Post.reset : Post :=
  ⟨0, false, 0, 0, 0, 0, 0, .U, 0, false, false, false, false, 0, 0, 0, 0, none, none⟩

/-- A journal slot never taken (R322; GEN: log 4). -/
def CopySlot.reset : CopySlot :=
  ⟨0, .done, false, 0, 0, 0, 0, 0, 0, 0, 0, false, 0, 0, 0, 0, false, 0, 0, 0, 0, false⟩

/-- A hart at module reset, free (R17 and the reset columns of its registers; log 3, 4). -/
def Hart.reset (n : Nat) : Hart where
  num := n
  level := .M
  pc := 0
  x := Vector.replicate 32 0
  v := Vector.replicate 32 0
  k := Vector.replicate 8 0
  ox := Vector.replicate 8 0
  sp := Vector.replicate 8 Spindle.reset
  bankU := TrapBank.reset
  bankS := TrapBank.reset
  bankM := TrapBank.reset
  deleg := 0x1000#32
  irqs := []
  fxRound := 0
  fxFlags := 0
  srSrc := 0
  srLost := false
  srStep := 0
  logb := 0
  logn := 0
  logp := 0
  scout := true
  fcnt := 0
  scnt := 0
  cfg := 0
  engErr := none
  cmds := []
  msOvf := 0
  msPend := false
  msLost := 0
  posts := Vector.replicate 32 Post.reset
  ovfq := []
  gwRid := 0xFFFF#16
  gwNext := 0
  duty := 16
  req := 5
  rcnt := 0
  icnt := 0
  msent := 0
  mrecv := 0
  ops := []
  rets := []
  faults := []
  nextOp := 0
  comb := []
  writes := []
  dtlb := []
  itlb := []
  binds := Vector.replicate 8 none
  copies := []
  run := .free
  node := none
  acq := Vector.replicate 8 0
  perfAt := Vector.replicate 8 0
  cycle := 0
  idleSince := 0
  gstopEret := false
  back := none
  recInfo := []
  holdTo := 0
  recalled := []

/-- An engine at module reset (R449, R268). -/
def Engine.reset (f : Nat) : Engine :=
  ⟨f, [], [], [], 0, 0, 0, 0, 0, 0, 0, 0, 0, 0, none, false, 0, []⟩

/-- A sequencer at module reset (R294). -/
def Sequencer.reset : Sequencer where
  state := .closed
  stat := .none
  lastF := .none
  lastB := .none
  dir := false
  norm := false
  lax := false
  ack := false
  permit := false
  miss := false
  device := false
  bound := false
  count := 0
  nflight := 0
  limit := 0
  region := 0
  res := 0
  prev := 0
  partials := []
  release := 0
  tol := 0
  divf := 0
  timeout := 0
  ldelay := 0
  flights := []
  landings := []
  ranges := []
  arrivals := []
  verdict := 5

/-- The module right after reset: every field at the value the spec states, or the one its log entry names. Hart 0
is in focus and runs in M mode from offset 0 of its own slice (log 3). -/
def State.reset : State where
  hart := { Hart.reset 0 with run := .running }
  others := []
  now := 0
  mem := []
  nodeId := 0
  owner := []
  lastOwner := []
  bankFmt := []
  cgPat := Vector.replicate 16 0
  csTab := 0
  csOvf := 0
  csOvfsz := 0
  csOvfuse := 0
  tkKey := 0
  rgAsel := 0
  rgAlias := Vector.replicate 64 0
  evFw := 0
  ringWp := 0
  ringRp := 0
  ringOverrun := 0
  ringBase := 0
  engines := []
  lastFrame := []
  seqs := Vector.replicate 16 Sequencer.reset
  locks := []
  regions := []
  nodes := []
  releases := []
  lent := []
  nextOrder := 0
  tlb := []
  asks := []
  tlbFaults := []
  holders := []
  tickets := []
  nextTicket := 1
  thrash := []
  pins := []
  csPages := []
  reads := []
  nextRead := 0
  far := []
  lanes := []
  skeins := Vector.replicate 8 ⟨.awake, false, none⟩
  leaving := []
  degraded := 0
  stripe := []
  sendq := []
  flights := []
  msgMoved := []
  probes := 0
  startq := []
  lastAdmit := none
  lastSkein := none
  tokenWaits := []
  forwards := []
  intervals := []
  domains := []
  capW := 2400
  replays := []
  removedQuads := []
  removedFrames := []
  partRev := 0
  fwVer := 0
  wear := []
  hosts := 0
  recovery := false
  boot := ⟨true, 0, 0, [], [], 0, 0, 2400⟩
  outbox := []
  channels := []
  rollbacks := []
  restarts := []
  poison := []
  sched := []
  tick := 0
  freeCtr := 0
  noiseCtr := 0

end Sys2Proof.Machine
end

