-- ==== Sys2Proof/Machine/Memory.lean ====
section
/-! DEFINITION. Sparse storage, bytes and addresses: the one place that decides byte order. -/

namespace Sys2Proof.Machine

/-- The value at a key; an absent key reads zero. -/
def Cells.get {w : Nat} : Cells w → Nat → BitVec w
  | [], _ => 0
  | (a, v) :: t, k => if a = k then v else Cells.get t k

/-- The storage with a key set; writing zero removes the entry, so that equal contents are equal data. -/
def Cells.set {w : Nat} : Cells w → Nat → BitVec w → Cells w
  | [], k, v => if v = 0 then [] else [(k, v)]
  | (a, u) :: t, k, v =>
    if a = k then (if v = 0 then t else (k, v) :: t)
    else if k < a then (if v = 0 then (a, u) :: t else (k, v) :: (a, u) :: t)
    else (a, u) :: Cells.set t k v

/-- Every key from `lo` up to but not including `hi` set to zero. -/
def Cells.clear {w : Nat} (c : Cells w) (lo hi : Nat) : Cells w := c.filter (fun p => p.1 < lo || hi ≤ p.1)

/-- The canonical form: keys strictly rising and no zero entry. -/
def Cells.wf {w : Nat} : Cells w → Bool
  | [] => true
  | [(_, v)] => v != 0
  | (a, v) :: (b, u) :: t => v != 0 && decide (a < b) && Cells.wf ((b, u) :: t)

/-- The canonical form of memory. -/
def Memory.wf (m : Memory) : Bool := Cells.wf m

/-- Consecutive bytes. -/
def Memory.bytes (m : Memory) (k : Nat) : Nat → List Byte
  | 0 => []
  | n + 1 => Cells.get m k :: Memory.bytes m (k + 1) n

/-- Consecutive bytes written. -/
def Memory.store (m : Memory) (k : Nat) : List Byte → Memory
  | [] => m
  | b :: t => Memory.store (Cells.set m k b) (k + 1) t

/-- The number that little-endian bytes hold (R6). -/
def leNat : List Byte → Nat
  | [] => 0
  | b :: t => b.toNat + 256 * leNat t

/-- The n little-endian bytes of a number (R6). -/
def leBytes (v : Nat) : Nat → List Byte
  | 0 => []
  | n + 1 => BitVec.ofNat 8 v :: leBytes (v / 256) n

/-- A dword from bytes. -/
def leWord (l : List Byte) : Word := BitVec.ofNat 64 (leNat l)

/-- The NODE field of a global address (R138). -/
def gaNode (a : Word) : BitVec 4 := a.extractLsb' 60 4
/-- The CORE field (R138). -/
def gaCore (a : Word) : Nat := (a.extractLsb' 49 11).toNat
/-- The OFFSET field (R138). -/
def gaOff (a : Word) : Nat := (a.extractLsb' 0 49).toNat
/-- The core number of HBM (R138). -/
def hbmCore : Nat := 0x7FF
/-- The bytes of a slice or a local store (R18, R22). -/
def sliceSize : Nat := 0x40000

/-- A memory key: where a byte lies, by node, core and physical offset. -/
def memKey (node : BitVec 4) (core off : Nat) : Nat := node.toNat * 2 ^ 60 + core * 2 ^ 49 + off
/-- A physical HBM address as a memory key. -/
def hbmKey (node : BitVec 4) (pa : Nat) : Nat := memKey node hbmCore (pa % 2 ^ 39)
/-- A global address from its fields (R138). -/
def mkGa (node : BitVec 4) (core off : Nat) : Word := BitVec.ofNat 64 (memKey node core off)

/-- The value of a key in an association list. -/
def assocGet {α : Type} (l : List (Nat × α)) (k : Nat) (dflt : α) : α :=
  match l with
  | [] => dflt
  | (a, v) :: t => if a = k then v else assocGet t k dflt

/-- An association list with a key set, keys rising. -/
def assocSet {α : Type} (l : List (Nat × α)) (k : Nat) (v : α) : List (Nat × α) :=
  match l with
  | [] => [(k, v)]
  | (a, u) :: t => if a = k then (k, v) :: t else if k < a then (k, v) :: (a, u) :: t else (a, u) :: assocSet t k v

/-- The field of a word from bit `lo`, `n` bits wide, as a number. -/
def bitsOf (v : Word) (lo n : Nat) : Nat := (v.extractLsb' lo n).toNat

end Sys2Proof.Machine
end

