-- ==== Sys2Proof/Machine/Harts.lean ====
section
/-! DEFINITION. Harts and their registers: where each hart sits (R16), and the one way each register is read and
written. -/

namespace Sys2Proof.Machine

/-- The kind of a hart by its number (R16): 0 compute, 1 gateway, 2 service. -/
def hartKind (h : Nat) : Nat := if h < 1024 then 0 else if h < 1088 then 1 else 2
/-- The gallery of a hart (R16). -/
def hartGallery (h : Nat) : Nat := if h < 1024 then h / 256 else if h < 1088 then (h - 1024) / 16 else (h - 1088) % 4
/-- The table, walkers and channels that serve a hart: its cluster, or 32 plus the gallery of its gateway block
(R20, R448). -/
def hartTable (h : Nat) : Nat := if h < 1024 then h / 32 else 32 + hartGallery h
/-- The global frame of a compute hart (R16). -/
def hartFrame (h : Nat) : Nat := h / 8
/-- The global quad of a compute hart (R16). -/
def hartQuad (h : Nat) : Nat := h / 4
/-- A hart's power domain: its quad, or 384 plus its number beyond the compute harts (R31). -/
def hartDomain (h : Nat) : Nat := if h < 1024 then h / 4 else 384 + (h - 1024)
/-- An engine's power domain. -/
def engineDomain (f : Nat) : Nat := 256 + f

/-- The number names a hart that is not deconfigured (R2, R139). -/
def State.present (s : State) (h : Nat) : Bool :=
  decide (h < Config.harts) && !(decide (h < 1024) && (s.removedQuads.contains (h / 4) || s.removedFrames.contains (h / 8)))

/-- The hart with a number. -/
def State.getHart (s : State) (n : Nat) : Hart :=
  if s.hart.num = n then s.hart else (s.others.find? (fun h => h.num == n)).getD (Hart.reset n)

/-- A hart list with a hart put in its place, numbers rising. -/
def putHart (h : Hart) : List Hart → List Hart
  | [] => [h]
  | g :: t => if g.num = h.num then h :: t else if h.num < g.num then h :: g :: t else g :: putHart h t

/-- The state with a hart replaced. -/
def State.setHart (s : State) (h : Hart) : State :=
  if s.hart.num = h.num then { s with hart := h } else { s with others := putHart h s.others }

/-- The state with the hart in focus changed. -/
def State.onHart (s : State) (f : Hart → Hart) : State := { s with hart := f s.hart }

/-- The state with one hart changed, wherever it stands. -/
def State.modHart (s : State) (n : Nat) (f : Hart → Hart) : State := s.setHart (f (s.getHart n))

/-- Every hart changed. -/
def State.eachHart (s : State) (f : Hart → Hart) : State := { s with hart := f s.hart, others := s.others.map f }

/-- The harts of the state. -/
def State.harts (s : State) : List Hart := s.hart :: s.others

/-- The turn given to a hart (log 2). -/
def State.focus (s : State) (n : Nat) : State :=
  if s.hart.num = n then s
  else { s with hart := s.getHart n, others := putHart s.hart (s.others.filter (fun h => h.num != n)) }

/-- A general register; x0 reads zero (R67). -/
def Hart.rx (h : Hart) (r : BitVec 5) : Word := if r = 0 then 0 else h.x[r.toNat]
/-- A general register written; a write of x0 is discarded (R67). -/
def Hart.wx (h : Hart) (r : BitVec 5) (v : Word) : Hart := if r = 0 then h else { h with x := h.x.set r.toNat v }
/-- A vector register. -/
def Hart.rv (h : Hart) (r : BitVec 5) : VReg := h.v[r.toNat]
/-- A vector register written. -/
def Hart.wv (h : Hart) (r : BitVec 5) (v : VReg) : Hart := { h with v := h.v.set r.toNat v }
/-- A mask register; m0 reads all ones (R17). -/
def Hart.rm (h : Hart) (r : BitVec 3) : Word := if r = 0 then BitVec.allOnes 64 else h.k[r.toNat]
/-- A mask register written; a write of m0 is discarded (R17). -/
def Hart.wm (h : Hart) (r : BitVec 3) (v : Word) : Hart := if r = 0 then h else { h with k := h.k.set r.toNat v }
/-- An operand-extension register (R73). -/
def Hart.rox (h : Hart) (r : BitVec 3) : Word := h.ox[r.toNat]
/-- An operand-extension register written (R73). -/
def Hart.wox (h : Hart) (r : BitVec 3) (v : Word) : Hart := { h with ox := h.ox.set r.toNat v }
/-- A spindle (R169). -/
def Hart.spin (h : Hart) (r : BitVec 3) : Spindle := h.sp[r.toNat]
/-- A spindle replaced. -/
def Hart.setSpin (h : Hart) (r : BitVec 3) (v : Spindle) : Hart := { h with sp := h.sp.set r.toNat v }
/-- A stream register's binding; the register is 24 plus the index (R210). -/
def Hart.bind (h : Hart) (r : BitVec 3) : Option Binding := h.binds[r.toNat]
/-- A binding replaced. -/
def Hart.setBind (h : Hart) (r : BitVec 3) (b : Option Binding) : Hart := { h with binds := h.binds.set r.toNat b }
/-- The bank of a level (R396). -/
def Hart.bank (h : Hart) : Level → TrapBank
  | .U => h.bankU | .S => h.bankS | .M => h.bankM
/-- The bank of a level replaced. -/
def Hart.setBank (h : Hart) (l : Level) (b : TrapBank) : Hart :=
  match l with
  | .U => { h with bankU := b }
  | .S => { h with bankS := b }
  | .M => { h with bankM := b }
/-- The region number the hart's accesses carry (R140). -/
def Hart.region (h : Hart) : Option (BitVec 16) := h.node.map (·.region)

/-- A general register of the hart in focus. -/
def State.x (s : State) (r : BitVec 5) : Word := s.hart.rx r
/-- A general register of the hart in focus written. -/
def State.setX (s : State) (r : BitVec 5) (v : Word) : State := s.onHart (fun h => h.wx r v)
/-- A vector register of the hart in focus. -/
def State.vr (s : State) (r : BitVec 5) : VReg := s.hart.rv r
/-- A vector register of the hart in focus written. -/
def State.setV (s : State) (r : BitVec 5) (v : VReg) : State := s.onHart (fun h => h.wv r v)
/-- A mask register of the hart in focus. -/
def State.mr (s : State) (r : BitVec 3) : Word := s.hart.rm r
/-- A mask register of the hart in focus written. -/
def State.setM (s : State) (r : BitVec 3) (v : Word) : State := s.onHart (fun h => h.wm r v)
/-- An ox register of the hart in focus. -/
def State.oxr (s : State) (r : BitVec 3) : Word := s.hart.rox r
/-- An ox register of the hart in focus written. -/
def State.setOx (s : State) (r : BitVec 3) (v : Word) : State := s.onHart (fun h => h.wox r v)
/-- Sticky exception flags raised by an instruction (R104, R200). -/
def State.raise (s : State) (fl : BitVec 5) : State := s.onHart (fun h => { h with fxFlags := h.fxFlags ||| fl })

/-- id.hart (R23). -/
def idHart (node : BitVec 4) (h : Nat) : Word :=
  let compute := decide (h < 1024)
  BitVec.ofNat 64 (h + hartKind h * 2 ^ 11 + node.toNat * 2 ^ 16 + hartGallery h * 2 ^ 20 +
    (if compute then h / 32 else 0x1F) * 2 ^ 24 + (if compute then h / 8 else 0x7F) * 2 ^ 32 +
    (if compute then h / 4 else 0xFF) * 2 ^ 40)

/-- Results the hart waits for: a scoreboard entry of an unperformed operation (R116). -/
def OpKind.takesEntry : OpKind → Bool
  | .load .. | .vload .. | .vloadx .. | .blockAcc .. | .atomic .. => true
  | _ => false

/-- The x register a pending operation writes. -/
def OpKind.destX : OpKind → Option (BitVec 5)
  | .load _ _ _ d => some d
  | .atomic _ _ _ _ d => some d
  | _ => none
/-- The vector registers a pending operation writes, and the index register a vldx holds (R199). -/
def OpKind.destV : OpKind → List (BitVec 5)
  | .vload _ fmt vd => if fmt = 6 || fmt = 7 then [vd, vd + 1, vd + 2] else [vd]
  | .vloadx _ _ vd _ _ _ => [vd]
  | .blockAcc _ _ vd => [vd, vd + 1, vd + 2]
  | _ => []
/-- The register whose overwriting a pending vldx forbids (R199). -/
def OpKind.holdV : OpKind → List (BitVec 5)
  | .vloadx _ _ _ idx _ _ => [idx]
  | _ => []

/-- Whether a queued command answers with a register: acrd and kcnt (R263, R286). -/
def Cmd.isAcrd (c : Cmd) : Bool := c.major == 0x3A && c.fn == 8
def Cmd.isKcnt (c : Cmd) : Bool := c.major == 0x3B && c.fn == 7

/-- The registers a result writes. -/
def Result.destX : Result → List (BitVec 5)
  | .xval d _ => [d]
  | .nothing dx _ => dx
  | _ => []
def Result.destV : Result → List (BitVec 5)
  | .vval vals _ => vals.map (·.1)
  | .lanes vd _ _ _ _ => [vd]
  | .acc _ vals _ => vals.map (·.1)
  | .nothing _ dv => dv
  | _ => []
def Result.isStream : Result → Bool
  | .stream .. => true
  | _ => false
/-- What a faulted entry would have written. -/
def FaultEntry.destX (f : FaultEntry) : List (BitVec 5) := if f.kind = 2 then [] else [f.dest]
def FaultEntry.destV (f : FaultEntry) : List (BitVec 5) :=
  if f.kind ≠ 2 then []
  else
    let op := bitsOf f.operand 42 2
    let fmt := bitsOf f.operand 32 4
    if op == 3 || (op == 0 && (fmt == 6 || fmt == 7)) then [f.dest, f.dest + 1, f.dest + 2] else [f.dest]

/-- The operations that hold scoreboard entries: what a gang stop has recorded waits outside the scoreboard (R72, log 29). -/
def Hart.liveOps (h : Hart) : List Op := h.ops.filter (fun o => decide (h.holdTo ≤ o.id))
/-- The queued commands of that kind. -/
def Hart.liveCmds (h : Hart) : List Cmd := h.cmds.filter (fun c => decide (h.holdTo ≤ c.op))

/-- Scoreboard entries whose result has not returned (R116). -/
def Hart.outstanding (h : Hart) : Nat :=
  (h.liveOps.filter (fun o => o.kind.takesEntry)).length
    + (h.liveCmds.filter (fun c => c.isAcrd || c.isKcnt)).length
    + (h.rets.filter (fun r => !r.res.isStream)).length

/-- Scoreboard entries in use, the returned faults among them (R116). -/
def Hart.entries (h : Hart) : Nat := h.outstanding + h.faults.length

/-- x registers with a result still pending (R115). -/
def Hart.pendingX (h : Hart) : List (BitVec 5) :=
  h.liveOps.filterMap (fun o => o.kind.destX) ++ (h.liveCmds.filter (·.isKcnt)).map (·.dest)
    ++ h.rets.flatMap (fun r => r.res.destX ++ (r.fault.map (·.destX)).getD [])
/-- Vector registers with a result still pending (R115, R199). -/
def Hart.pendingV (h : Hart) : List (BitVec 5) :=
  h.liveOps.flatMap (fun o => o.kind.destV) ++ (h.liveCmds.filter (·.isAcrd)).map (·.dest)
    ++ h.rets.flatMap (fun r => r.res.destV ++ (r.fault.map (·.destV)).getD [])
/-- Vector registers a pending vldx reads its indices from (R199). -/
def Hart.heldV (h : Hart) : List (BitVec 5) :=
  h.liveOps.flatMap (fun o => o.kind.holdV)
    ++ h.rets.flatMap (fun r => match r.res with | .lanes _ _ _ idx _ => [idx] | _ => [])

/-- The hart is parked when a result is still to return: a marked instruction's next state (R68). -/
def Hart.parkIf (h : Hart) (m : Bool) : Hart :=
  if m && (decide (h.outstanding > 0) || !h.faults.isEmpty) then { h with run := .parked } else h

/-- The end of an instruction: the next pc, the completed-instruction count outside M mode (R409), and the park of a
marked instruction (R68). -/
def Hart.retire (h : Hart) (pc : Word) (m : Bool) : Hart :=
  let n := if h.level = Level.M then h.icnt else h.icnt + 1
  Hart.parkIf { h with pc := pc, run := .running, cycle := h.cycle + 1, icnt := n } m

/-- An instruction of `len` bytes ends and the next one follows it. -/
def State.done (s : State) (len : Nat) (m : Bool) : State :=
  s.onHart (fun h => h.retire (h.pc + BitVec.ofNat 64 len) m)

/-- An instruction ends with a jump. -/
def State.jump (s : State) (pc : Word) (m : Bool) : State := s.onHart (fun h => h.retire pc m)

/-- The instruction waits at issue: it is tried again. -/
def State.block (s : State) : State := s.onHart (fun h => { h with run := .blocked })

end Sys2Proof.Machine
end

