-- ==== Sys2Proof/Machine/Translate.lean ====
section
/-! DEFINITION. Where an access goes: the page walk (R143 to R145), the cached translations (R146, R147), the
ownership check (R140) and the refusals of R139. -/

namespace Sys2Proof.Machine

/-- A free value: what the spec leaves undefined (R11, log 10). -/
def State.takeFree (s : State) : Word × State := (Config.free64 s.freeCtr, { s with freeCtr := s.freeCtr + 1 })

/-- Free bytes (R11, log 10). -/
def freeBytes : Nat → State → List Byte × State
  | 0, s => ([], s)
  | n + 1, s =>
    let (v, s1) := s.takeFree
    let (l, s2) := freeBytes n s1
    (v.setWidth 8 :: l, s2)

/-- What an access needs of a leaf (R143). -/
inductive Need where
  | load | store | atomic | fetch
deriving DecidableEq, Repr

/-- The coding of a need in a translation request (R147); 4 stands for a pref. -/
def Need.code : Need → BitVec 3
  | .load => 0 | .store => 1 | .atomic => 2 | .fetch => 3
/-- The need a request codes; a pref needs what a load needs (R162). -/
def needOf (c : BitVec 3) : Need :=
  match c.toNat with | 1 => .store | 2 => .atomic | 3 => .fetch | _ => .load

/-- Whether an access writes. -/
def Need.writes : Need → Bool
  | .store | .atomic => true
  | _ => false
/-- Whether an access reads. -/
def Need.reads : Need → Bool
  | .store => false
  | _ => true

/-- How a walk ends (R144): at a leaf, in a fault, or at an entry whose line holds a memory error (R415). -/
inductive WalkEnd where
  | leaf (leaf : Word) (bits : Nat) (entry : Nat)
  | fault (cause reason : BitVec 8)
  | poison (entry : Nat)
deriving DecidableEq, Repr

/-- A line in which the patrol scrub found an error (R415). -/
def State.poisoned (s : State) (key : Nat) : Bool := !s.poison.isEmpty && s.poison.contains (key / 64)

/-- The permission check of a leaf (R144, REASON 7): R, W and, in U mode, U. -/
def leafPermits (leaf : Word) (need : Need) (level : Level) : Bool :=
  (!need.reads || leaf.getLsbD 2) && (!need.writes || leaf.getLsbD 3) && (level != Level.U || leaf.getLsbD 4)

/-- The index of a walk level in an offset (R143). -/
def walkIndex (lv : Nat) (off : Nat) : Nat :=
  match lv with
  | 1 => off / 2 ^ 39 % 1024
  | 2 => off / 2 ^ 30 % 512
  | 3 => off / 2 ^ 21 % 512
  | _ => off / 2 ^ 16 % 32
/-- log2 of the page a leaf at a level maps (R143). -/
def walkBits (lv : Nat) : Nat := match lv with | 1 => 39 | 2 => 30 | 3 => 21 | _ => 16

/-- A reserved bit set, a pointer misaligned for its level, or frame bits below the page size (R143, R144). -/
def entryReserved (lv : Nat) (e : Word) : Bool :=
  if e.getLsbD 1 then
    bitsOf e 39 25 != 0 || bitsOf e 10 6 != 0 || (lv != 1 && bitsOf e 16 23 % 2 ^ (walkBits lv - 16) != 0)
  else
    bitsOf e 39 25 != 0 || bitsOf e 2 6 != 0 || ((lv == 1 || lv == 2) && bitsOf e 8 4 != 0)

/-- The walk from a table at a physical address (R143, R144); `fuel` levels remain. -/
def walkFrom (s : State) (off : Nat) (need : Need) (level : Level) : Nat → Nat → Nat → WalkEnd
  | 0, _, _ => .fault 4 3
  | fuel + 1, lv, table =>
    let entry := hbmKey s.nodeId (table + 8 * walkIndex lv off)
    let e := leWord (s.mem.bytes entry 8)
    if s.poisoned entry then .poison entry
    else if !e.getLsbD 0 then .fault 4 1
    else if entryReserved lv e then .fault 4 2
    else if (lv == 1 && e.getLsbD 1) || (lv == 4 && !e.getLsbD 1) || (e.getLsbD 1 && lv != 4 && e.getLsbD 7) then
      .fault 4 3
    else if e.getLsbD 1 then
      if leafPermits e need level then .leaf e (walkBits lv) entry else .fault 5 7
    else walkFrom s off need level fuel (lv + 1) (bitsOf e 8 31 * 256)

/-- The walk of an offset under a root (R143). -/
def walk (s : State) (root : Word) (off : Nat) (need : Need) (level : Level) : WalkEnd :=
  walkFrom s off need level 4 1 (bitsOf root 0 39)

/-- A cause that stands for a translation that has not come: from another node its reply is still on its way (R147); of this node
the walk has met a memory error at the place `key` (R415). No trap has this number. -/
def awaitRemote : BitVec 8 := 0xFF

/-- A translated or refused access. `cause` 0 means translated; `key` is the physical place. -/
structure Trans where
  st : State
  cause : BitVec 8
  reason : BitVec 8
  key : Nat
deriving DecidableEq, Repr

/-- The live region with a number (R370). -/
def State.region? (s : State) (r : BitVec 16) : Option Region := s.regions.find? (fun g => g.num == r)

/-- The physical address a leaf gives an offset. -/
def leafAddr (leaf : Word) (bits off : Nat) : Nat := bitsOf leaf 16 23 * 65536 / 2 ^ bits * 2 ^ bits + off % 2 ^ bits

/-! ### The TLBs (R15, R17, R20, R146, R448) -/

/-- The TLBs an access goes through: a hart's data or instruction TLB and the second level behind it, a second-level TLB
alone (engine operand fetches and copies, R20), or none (the device's own accesses). -/
inductive Via where
  | data (h : Nat)
  | text (h : Nat)
  | table (t : Nat)
  | walker
deriving DecidableEq, Repr

/-- The hart's own entries an access looks at first. -/
def Via.own (v : Via) (s : State) : List TlbEntry :=
  match v with
  | .data h => (s.getHart h).dtlb
  | .text h => (s.getHart h).itlb
  | _ => []
/-- The second-level TLB behind them, by table number. -/
def Via.second : Via → Option Nat
  | .data h | .text h => some (hartTable h)
  | .table t => some t
  | .walker => none

/-- An entry translates an offset (R146). -/
def TlbEntry.covers (e : TlbEntry) (node : BitVec 4) (region : BitVec 16) (off : Nat) : Bool :=
  e.node == node && e.region == region && decide (e.base ≤ off) && decide (off < e.base + 2 ^ e.bits)

/-- The entries of a second-level TLB. -/
def State.secondTlb (s : State) (t : Nat) : List TlbEntry := (s.tlb.filter (fun p => p.1 == t)).map (·.2)

/-- A list of entries with one put in: an older entry of the same page is replaced; a full TLB loses one, and the spec does
not say which (R146, log 52). -/
def fillTlb (cap : Nat) (e : TlbEntry) (l : List TlbEntry) (s : State) : List TlbEntry × State :=
  let rest := l.filter (fun f => !(f.node == e.node && f.region == e.region && f.base == e.base))
  if rest.length < cap then (e :: rest, s)
  else
    let (v, s1) := s.takeFree
    (e :: rest.eraseIdx (v.toNat % rest.length), s1)

/-- A translation put into the hart's own TLB. -/
def Via.putOwn (v : Via) (e : TlbEntry) (s : State) : State :=
  match v with
  | .data h => let (l, s1) := fillTlb Config.hartTlb e (s.getHart h).dtlb s; s1.modHart h (fun k => { k with dtlb := l })
  | .text h => let (l, s1) := fillTlb Config.hartTlb e (s.getHart h).itlb s; s1.modHart h (fun k => { k with itlb := l })
  | _ => s

/-- A translation put into a second-level TLB. -/
def State.putSecond (s : State) (t : Nat) (e : TlbEntry) : State :=
  let (l, s1) := fillTlb Config.tableTlb e (s.secondTlb t) s
  { s1 with tlb := s1.tlb.filter (fun p => p.1 != t) ++ l.map (fun x => (t, x)) }

/-- A translation cached: in the hart's TLB and in the one behind it (R146). -/
def State.tlbPut (s : State) (v : Via) (e : TlbEntry) : State :=
  v.putOwn e (match v.second with | some t => s.putSecond t e | none => s)

/-- A cached translation of an offset, and the state with what a hit in the second level puts into the hart's own TLB
(R146). `write`: an entry with D = 0 does not do (R145). -/
def State.tlbFind (s : State) (v : Via) (node : BitVec 4) (region : BitVec 16) (off : Nat) (write : Bool) :
    Option (TlbEntry × State) :=
  let fits (e : TlbEntry) : Bool := e.covers node region off && (!write || e.leaf.getLsbD 6)
  match (v.own s).find? fits with
  | some e => some (e, s)
  | none => match v.second.bind (fun t => (s.secondTlb t).find? fits) with
    | some e => some (e, v.putOwn e s)
    | none => none

/-- The entries that a test names leave every TLB (R147, R423). -/
def State.tlbDrop (s : State) (gone : TlbEntry → Bool) : State :=
  { s with tlb := s.tlb.filter (fun p => !gone p.2) }.eachHart (fun h =>
    { h with dtlb := h.dtlb.filter (fun e => !gone e), itlb := h.itlb.filter (fun e => !gone e) })

/-- Every cached translation. -/
def State.tlbAll (s : State) : List TlbEntry :=
  s.tlb.map (·.2) ++ s.harts.flatMap (fun h => h.dtlb ++ h.itlb)

/-! ### Translation -/

/-- The leaf with A, and D for a write, set (R145). -/
def leafAccessed (leaf : Word) (write : Bool) : Word := leaf ||| 0x20#64 ||| (if write then 0x40#64 else 0)

/-- A walk loads a leaf: the 64 KiB frames it maps are compressed, or not, as it says (R143, R165, log 53). -/
def noteCs (leaf : Word) (bits : Nat) (s : State) : State :=
  let lo := leafAddr leaf bits 0 / 65536
  if bits = 16 && leaf.getLsbD 7 then
    if s.csPages.contains lo then s else { s with csPages := s.csPages ++ [lo] }
  else { s with csPages := s.csPages.filter (fun p => decide (p < lo) || decide (lo + 2 ^ (bits - 16) ≤ p)) }

/-- An HBM offset of this module under a region (R143 to R146). `mark`: the walker sets A and D and the entry is
cached; `fill`: the entry is cached without them (R145). -/
def translateLocal (s : State) (v : Via) (region : Option (BitVec 16)) (level : Level) (need : Need) (mark fill : Bool)
    (off : Nat) : Trans :=
  match region.bind s.region? with
  | none => ⟨s, 5, 9, 0⟩
  | some r =>
    match s.tlbFind v s.nodeId r.num off (need.writes && mark) with
    | some (e, s1) =>
      if leafPermits e.leaf need level then
        ⟨if mark || fill then s1 else s, 0, 0, hbmKey s.nodeId (leafAddr e.leaf e.bits off)⟩
      else ⟨s, 5, 7, 0⟩
    | none =>
      match walk s r.ptroot off need level with
      | .fault c w => ⟨s, c, w, 0⟩
      | .poison entry => ⟨s, awaitRemote, 0, entry⟩
      | .leaf leaf bits entry =>
        let leaf' := if mark then leafAccessed leaf need.writes else leaf
        let s1 := if mark then { s with mem := s.mem.store entry (leBytes leaf'.toNat 8) } else s
        let s2 := if mark || fill then noteCs leaf' bits (s1.tlbPut v ⟨s.nodeId, r.num, off / 2 ^ bits * 2 ^ bits, bits, leaf'⟩)
          else s1
        ⟨s2, 0, 0, hbmKey s.nodeId (leafAddr leaf bits off)⟩

/-- Lanes of a peer in a state; the lanes that the list does not name are ACTIVE (R351, log 7). -/
def State.laneState (s : State) (peer : BitVec 4) (f : BitVec 6) : LaneState :=
  ((s.lanes.find? (fun l => l.peer == peer && l.fibre == f)).map (·.st)).getD .active
/-- The lanes of a peer that are not FAILED. -/
def State.liveLanes (s : State) (peer : BitVec 4) : Nat :=
  64 - (s.lanes.filter (fun l => l.peer == peer && l.st == .failed)).length
/-- A live lane reaches the peer (R139, REASON 8). -/
def State.reaches (s : State) (peer : BitVec 4) : Bool := decide (s.liveLanes peer > 0)
/-- The posted-write class to the peer is suspended: CS; full service resumes at a packet boundary (R353). -/
def State.suspended (s : State) (peer : BitVec 4) : Bool := s.degraded.getLsbD peer.toNat

/-- The owner register of a slice or a local store; 0xFFFF when no node is placed (R140). -/
def State.ownerOf (s : State) (core : Nat) : BitVec 16 := assocGet s.owner core 0xFFFF#16

/-- The ring control block of service hart 1088 (R383). -/
def inRingBlock (core off : Nat) : Bool := core == 1088 && decide (0x3E000 ≤ off) && decide (off < 0x3F000)

/-- The ownership check (R140, R383). -/
def State.owns (s : State) (region : Option (BitVec 16)) (mmode : Bool) (core off : Nat) : Bool :=
  if inRingBlock core off then mmode
  else mmode || (region.isSome && region == some (s.ownerOf core) && region != some 0xFFFF#16)

/-- A slice or local-store access of this module (R139, R140). -/
def checkSlice (s : State) (region : Option (BitVec 16)) (mmode : Bool) (core off : Nat) : Trans :=
  if !s.present core then ⟨s, 5, 4, 0⟩
  else if off ≥ sliceSize then ⟨s, 5, 5, 0⟩
  else if !s.owns region mmode core off then ⟨s, 5, 6, 0⟩
  else ⟨s, 0, 0, memKey s.nodeId core off⟩

/-- What an access of a hart asks of another node (R147). -/
def askOf (h : Nat) (node : BitVec 4) (region : BitVec 16) (level : Level) (need : BitVec 3) (off : Nat) : Ask :=
  ⟨h, node, region, off / 65536, need, level == Level.U⟩

/-- An HBM access of this module to another node: the translation cached at the source, or the reply that refused it, which
the access takes; otherwise it waits for the target's reply (R147). -/
def remoteHbm (s : State) (v : Via) (h : Nat) (region : Option (BitVec 16)) (level : Level) (need : Need) (a : Word) :
    Trans :=
  match region with
  | none => ⟨s, 5, 9, 0⟩
  | some r =>
    match s.tlbFind v (gaNode a) r (gaOff a) need.writes with
    | some (e, s1) =>
      if leafPermits e.leaf need level then ⟨s1, 0, 0, memKey (gaNode a) hbmCore (leafAddr e.leaf e.bits (gaOff a))⟩
      else ⟨s, 5, 7, 0⟩
    | none =>
      match s.tlbFaults.find? (fun f => f.ask == askOf h (gaNode a) r level need.code (gaOff a)) with
      | some f => ⟨{ s with tlbFaults := s.tlbFaults.erase f }, f.cause, f.reason, 0⟩
      | none => ⟨s, awaitRemote, 0, 0⟩

/-- An access of this module to another node: its HBM through the translation of that node, or a place in its slices, whose
own checks the target makes (R139, R147). -/
def checkRemote (s : State) (v : Via) (h : Nat) (region : Option (BitVec 16)) (level : Level) (need : Need) (a : Word) :
    Trans :=
  if !s.reaches (gaNode a) then ⟨s, 5, 8, 0⟩
  else if gaCore a == hbmCore then remoteHbm s v h region level need a
  else if gaCore a ≥ Config.harts then ⟨s, 5, 4, 0⟩
  else if gaOff a ≥ sliceSize then ⟨s, 5, 5, 0⟩
  else ⟨s, 0, 0, memKey (gaNode a) (gaCore a) (gaOff a)⟩

/-- Where an access for a hart goes through the TLBs given (R138 to R147). -/
def translateBy (s : State) (v : Via) (h : Nat) (region : Option (BitVec 16)) (level : Level) (need : Need) (a : Word) :
    Trans :=
  if gaNode a ≠ s.nodeId then checkRemote s v h region level need a
  else if gaCore a == hbmCore then translateLocal s v region level need true true (gaOff a)
  else checkSlice s region (level == Level.M) (gaCore a) (gaOff a)

/-- Where an access of the hart in focus goes: text through its instruction TLB, all else through its data TLB. -/
def translate (s : State) (region : Option (BitVec 16)) (level : Level) (need : Need) (a : Word) : Trans :=
  translateBy s (if need = .fetch then .text s.hart.num else .data s.hart.num) s.hart.num region level need a

/-- A scout translation: no A or D, nothing cached, and a page of another node that is not cached is not asked for: what
its translation would answer is free (R155, log 54). -/
def scoutTranslate (s : State) (region : Option (BitVec 16)) (level : Level) (need : Need) (a : Word) : Trans :=
  let v : Via := if need = .fetch then .text s.hart.num else .data s.hart.num
  if gaNode a ≠ s.nodeId then
    let t := checkRemote s v s.hart.num region level need a
    if t.cause = awaitRemote then
      let (w, s1) := s.takeFree
      if w.getLsbD 0 then ⟨s1, 4, 1, 0⟩ else if w.getLsbD 1 then ⟨s1, 5, 7, 0⟩ else ⟨s1, 0, 0, memKey (gaNode a) hbmCore 0⟩
    else ⟨s, t.cause, t.reason, t.key⟩
  else if gaCore a == hbmCore then translateLocal s v region level need false false (gaOff a)
  else checkSlice s region (level == Level.M) (gaCore a) (gaOff a)

/-- The control words of the ring block, as bytes (R383). -/
def ringByte (s : State) (off : Nat) : Byte :=
  let o := off - 0x3E000
  let v : Word := match o / 8 with
    | 0 => s.ringWp.setWidth 64
    | 1 => s.ringRp.setWidth 64
    | 2 => s.ringOverrun
    | 4 => s.ringBase
    | _ => 0
  v.extractLsb' (8 * (o % 8)) 8

/-- Whether a memory key lies in this module's ring block. -/
def keyInRing (s : State) (k : Nat) : Bool :=
  decide (memKey s.nodeId 1088 0x3E000 ≤ k) && decide (k < memKey s.nodeId 1088 0x3F000)

/-- Bytes as an access reads them at home. -/
def State.readKey (s : State) (k n : Nat) : List Byte :=
  if keyInRing s k then (List.range n).map (fun i => ringByte s (k - memKey s.nodeId 1088 0 + i))
  else s.mem.bytes k n

end Sys2Proof.Machine
end

