-- ==== Sys2Proof/Machine/Link.lean ====
section
/-! DEFINITION. Packets to other nodes: their peer, class and length, and the send queues they wait in (R347, R352, R367;
log 55). -/

namespace Sys2Proof.Machine

/-- The node a packet goes to. -/
def Packet.peer : Packet → BitVec 4
  | .transRequest n .. | .transReply n .. | .invalidate n .. | .invalidateAck n .. | .tokenRequest n .. => n
  | .tokenReply n .. | .accessReply n .. | .write n .. | .message n .. | .beats n .. | .report n .. => n
  | .probe n | .messageReply n .. | .request n .. => n

/-- The class of a packet (R347): 0 response, 1 message, 2 posted write. -/
def Packet.cls : Packet → BitVec 2
  | .write .. => 2
  | .message .. | .probe .. => 1
  | _ => 0

/-- The data bytes a packet carries behind its header (log 55). -/
def Packet.payload : Packet → Nat
  | .write _ _ _ acc => acc.size
  | .message _ m => m.payload.length
  | .accessReply _ ok _ _ => if ok then 64 else 0
  | .request _ _ _ acc => match acc.kind with | .atomic _ => 16 | _ => 0
  | .transReply .. => 8
  | _ => 0

/-- The beats of a packet: its header flit and its data flits of 32 bytes (R351). -/
def Packet.flits (p : Packet) : Nat := 1 + (p.payload + 31) / 32

/-- A message begins to wait for its output when none waited there before (R350). -/
def State.noteWait (s : State) (p : Packet) : State :=
  if p.cls = 1 && !s.sendq.any (fun i => i.peer == p.peer && i.cls == 1) then
    { s with msgMoved := assocSet s.msgMoved p.peer.toNat s.now }
  else s

/-- A packet put at the end of its peer's send queue; to a peer that no live lane reaches nothing is sent (R139). -/
def send (p : Packet) (s : State) : State :=
  if s.reaches p.peer then { s.noteWait p with sendq := s.sendq ++ [⟨p.peer, p.cls, p⟩] } else s

/-- Several packets, in order. -/
def sends : List Packet → State → State
  | [], s => s
  | p :: t, s => sends t (send p s)

/-- A packet still waits in its send queue, or is on its way over the lanes (R352). -/
def State.unsent (s : State) (p : Packet → Bool) : Bool :=
  s.sendq.any (fun i => p i.pkt) || s.flights.any (fun f => p f.item.pkt)

/-- The bytes that wait in a peer's send queue (R367). -/
def State.queued (s : State) (peer : BitVec 4) : Nat :=
  ((s.sendq.filter (fun i => i.peer == peer)).map (fun i => 32 * i.pkt.flits)).sum

/-- The translation request of an access that misses (R147), once while its reply is on its way. -/
def State.askFor (s : State) (a : Ask) (off : BitVec 49) : State :=
  if s.asks.contains a then s
  else send (.transRequest a.node (some a.region) off a.need a.user) { s with asks := s.asks ++ [a] }

/-- The translation request of an access of a hart (R147). -/
def State.askAs (s : State) (h : Nat) (region : Option (BitVec 16)) (level : Level) (need : Need) (a : Word) : State :=
  match region with
  | none => s
  | some r => s.askFor (askOf h (gaNode a) r level need.code (gaOff a)) (a.extractLsb' 0 49)

end Sys2Proof.Machine
end

