-- ==== Sys2Proof/Machine/Ops.lean ====
section
/-! DEFINITION. The named operations that the meanings share: writes at home with their checkpoint log, event
records, strands and their operations, and taking a trap and returning from it. -/

namespace Sys2Proof.Machine

/-! ### Compressed pages (R165, R166) -/

/-- The page of a physical HBM key is a compressed page, as the last walk that loaded its leaf found (R165, log 53). -/
def csPage (s : State) (key : Nat) : Bool :=
  decide (key / 2 ^ 39 = hbmKey s.nodeId 0 / 2 ^ 39) && s.csPages.contains (key % 2 ^ 39 / 65536)

/-- The overflow bytes that the line of a key needs beyond its slot. -/
def csNeeds (key : Nat) (s : State) : Nat := Config.csNeed (BitVec.ofNat 512 (leNat (s.mem.bytes (key / 64 * 64) 64)))

/-- The overflow bytes in use after a line of a compressed page has changed. -/
def csUsed (key : Nat) (before after : State) : Nat := before.csOvfuse.toNat + csNeeds key after - csNeeds key before

/-- The overflow bytes in use after a line of a compressed page has been written, or none when the overflow region has no
room for it and the write is refused (R166, R425). What the controllers put into the size table and the overflow region the spec does
not say (R165): the model counts the overflow bytes and writes neither (log 73). -/
def csRoom (key : Nat) (before after : State) : Option Word :=
  if csNeeds key after > csNeeds key before && csUsed key before after > bitsOf before.csOvfsz 0 24 * 65536 then none
  else some (BitVec.ofNat 64 (csUsed key before after % 2 ^ 40))

/-- A write within one line with the compressed-page check (R166): none when it is refused. -/
def lineWrite (key : Nat) (f : State → State) (s : State) : Option State :=
  let s1 := f s
  if csPage s key then (csRoom key s s1).map (fun u => { s1 with csOvfuse := u }) else some s1

/-! ### Event records (R426, R427) -/

/-- A device write of one dword through a region's event queue or to a physical address: the page must be mapped with R
and W, and U where the nodes enter at U (R375); a refusal answers with the address. -/
def deviceWord (region : Option (BitVec 16)) (addr : Word) (v : Nat) (s : State) : Except Word State :=
  let put (key : Nat) (st : State) : Except Word State :=
    match lineWrite key (fun u => { u with mem := u.mem.store key (leBytes v 8) }) st with
    | some st1 => .ok st1
    | none => .error addr
  match region with
  | none => put (hbmKey s.nodeId (bitsOf addr 0 39)) s
  | some r =>
    match s.region? r with
    | none => .error addr
    | some g =>
      let t := translateLocal s .walker (some r) g.enter .atomic true true (gaOff addr)
      if t.cause = 0 then put t.key t.st else .error addr

/-- A device read of one dword in the same address space. -/
def deviceRead (region : Option (BitVec 16)) (addr : Word) (s : State) : Except Word Nat :=
  match region with
  | none => .ok (leNat (s.mem.bytes (hbmKey s.nodeId (bitsOf addr 0 39)) 8))
  | some r =>
    match s.region? r with
    | none => .error addr
    | some g =>
      let t := translateLocal s .walker (some r) g.enter .load false false (gaOff addr)
      if t.cause = 0 then .ok (leNat (s.mem.bytes t.key 8)) else .error addr

/-- Dwords written one after another; the first refusal ends it. -/
def deviceWords (region : Option (BitVec 16)) (addr : Word) : List Nat → State → Except Word State
  | [], s => .ok s
  | v :: t, s => (deviceWord region addr v s).bind (deviceWords region (addr + 8) t)

/-- A power of two from 16 to 2^24 (R426). -/
def capValid (c : Nat) : Bool := (List.range 21).any (fun i => c == 2 ^ (i + 4))

/-- The four dwords of a record (R427). -/
def recordWords (now typ hart region seq arg0 arg1 : Nat) : List Nat :=
  [now, typ + hart * 2 ^ 16 + region * 2 ^ 32 + seq % 65536 * 2 ^ 48, arg0 % 2 ^ 64, arg1 % 2 ^ 64]

/-- A record put into the queue at `base` (R426): dropped and counted in LOST when full, dropped without counting when CAP
is invalid; a refused access answers with its address. -/
def queueRecord (region : Option (BitVec 16)) (base : Word) (typ hart reg arg0 arg1 : Nat) (s : State) :
    Except Word State := do
  let head ← deviceRead region base s
  let tail ← deviceRead region (base + 8) s
  let cap ← deviceRead region (base + 16) s
  if !capValid cap then pure s
  else if (head + 2 ^ 64 - tail) % 2 ^ 64 == cap then
    deviceWord region (base + 24) (((← deviceRead region (base + 24) s) + 1) % 2 ^ 64) s
  else
    deviceWord region base ((head + 1) % 2 ^ 64)
      (← deviceWords region (base + 64 + BitVec.ofNat 64 (32 * (head % cap))) (recordWords s.now.toNat typ hart reg head arg0 arg1) s)

/-- The key of the line with HEAD, TAIL, CAP and LOST of a queue, or of a walk's entry on the way to it, when it holds a memory
error (R415, R426). -/
def queuePoison (region : Option (BitVec 16)) (base : Word) (s : State) : Option Nat :=
  let key := match region.bind s.region? with
    | none => hbmKey s.nodeId (bitsOf base 0 39)
    | some g => (translateLocal s .walker region g.enter .load false false (gaOff base)).key
  if s.poisoned key then some key else none

/-- A record put into the firmware queue whose control words are sound (R426). -/
def firmwarePut (typ hart reg arg0 arg1 : Nat) (s : State) : State :=
  if s.evFw = 0 then s
  else match queueRecord none s.evFw typ hart reg arg0 arg1 s with
    | .ok s1 => s1
    | .error _ => s

/-! ### Memory errors (R415) -/

/-- The gallery whose stacks hold a physical address (R16, R26). -/
def stackGallery (pa : Nat) : Nat := pa / 512 % 8 / 2

/-- An interrupt waits at a hart. -/
def raiseIrq (n : Nat) (cause : BitVec 8) (val : Word) (s : State) : State :=
  s.modHart n (fun h => { h with irqs := h.irqs ++ [(⟨cause, val, 0, 0⟩ : Irq)] })

/-- A region's fault domain is to be rolled back (R414). -/
def askRollback (region : Option (BitVec 16)) (cause : BitVec 8) (s : State) : State :=
  match region.bind s.region? with
  | some g => if s.rollbacks.contains (g.fdom, cause) then s else { s with rollbacks := s.rollbacks ++ [(g.fdom, cause)] }
  | none => s

/-- An uncorrectable memory error (R415): cause 0x15 at the service hart of the gallery that holds the memory, a record, and
the rollback of the fault domain of the access's region. -/
def memoryError (gallery : Nat) (pa : Word) (region : Option (BitVec 16)) (s : State) : State :=
  askRollback region 0x15 (firmwarePut 0x0F 0xFFFF 0xFFFF pa.toNat 0 (raiseIrq (1088 + gallery) 0x15 pa s))

/-- The gallery that holds a byte of this module by its key (R15, R16, R24). -/
def keyGallery (key : Nat) : Nat :=
  let core := key / 2 ^ 49 % 2 ^ 11
  if core = hbmCore then stackGallery (key % 2 ^ 39) else hartGallery core

/-- The address tr.val holds for a byte: the physical address in HBM, the global address elsewhere (R415, log 56). -/
def keyAddress (key : Nat) : Word :=
  if key / 2 ^ 49 % 2 ^ 11 = hbmCore then BitVec.ofNat 64 (key % 2 ^ 39) else BitVec.ofNat 64 key

/-- The first line of some bytes that holds a memory error. -/
def State.poisonIn (s : State) (key n : Nat) : Option Nat :=
  ((List.range (n / 64 + 1)).map (fun i => key / 64 * 64 + 64 * i)).find? (fun k => s.poisoned k && decide (k < key + n))

/-- The error is reported to the first region that reads the line. -/
def reportPoison (region : Option (BitVec 16)) (key : Nat) (s : State) : State :=
  memoryError (keyGallery key) (keyAddress (key / 64 * 64)) region { s with poison := s.poison.filter (fun l => l != key / 64) }

/-- A record for the firmware queue (R426); none is written when the queue's control words meet a memory error, which is
reported (R415). -/
def firmwareRecord (typ hart reg arg0 arg1 : Nat) (s : State) : State :=
  if s.evFw = 0 then s
  else match queuePoison none s.evFw s with
    | some k => reportPoison none k s
    | none => firmwarePut typ hart reg arg0 arg1 s

/-- A record for a region's queue about a region (R426): a refused write is reported to the firmware queue with the address
refused (R375, type 0x12), a memory error as any (R415). -/
def reportTo (r : BitVec 16) (typ hart reg arg0 arg1 : Nat) (s : State) : State :=
  match s.region? r with
  | none => s
  | some g =>
    if g.evq = 0 then s
    else match queuePoison (some r) g.evq s with
      | some k => reportPoison (some r) k s
      | none => match queueRecord (some r) g.evq typ hart reg arg0 arg1 s with
        | .ok s1 => s1
        | .error a => firmwareRecord 0x12 0xFFFF r.toNat r.toNat a.toNat s

/-- A record for a region's own queue. -/
def regionRecord (r : BitVec 16) (typ hart arg0 arg1 : Nat) (s : State) : State := reportTo r typ hart r.toNat arg0 arg1 s

/-! ### Writes at home -/

/-- A store of the ring control words (R383, R384): the write of ring.wp that laps the ring sets OVR. -/
def ringSetWp (v : BitVec 16) (s : State) : State :=
  let s1 := { s with ringWp := v }
  if (v - s.ringRp).toNat > 4096 && !s.ringOverrun.getLsbD 0 then
    let ov : Word := 1 ||| (s.ringRp.setWidth 64 <<< 16) ||| (v.setWidth 64 <<< 32)
    firmwareRecord 0x06 0xFFFF 0xFFFF ov.toNat v.toNat { s1 with ringOverrun := ov }
  else s1

/-- A write of ring.reset (R383). -/
def ringDoReset (v : Word) (s : State) : State :=
  if v = 1 then { s with ringRp := s.ringWp, ringOverrun := 0 } else s

/-- The value of a control dword with bytes of it replaced. -/
def mergeBytes (old : Word) (at_ : Nat) (b : List Byte) : Word :=
  leWord ((List.range 8).map (fun i =>
    if at_ ≤ i && i < at_ + b.length then byteAt' b (i - at_) else old.extractLsb' (8 * i) 8))
where byteAt' (l : List Byte) (i : Nat) : Byte := (l[i]?).getD 0

/-- A write into the ring block (R383): ring.rp and ring.overrun are the device's, other offsets ignore writes. -/
def ringWrite (off : Nat) (b : List Byte) (s : State) : State :=
  let o := off - 0x3E000
  match o / 8 with
  | 0 => ringSetWp ((mergeBytes (s.ringWp.setWidth 64) (o % 8) b).setWidth 16) s
  | 3 => ringDoReset (mergeBytes 0 (o % 8) b) s
  | 4 => { s with ringBase := mergeBytes s.ringBase (o % 8) b }
  | _ => s

/-- The open checkpoint interval of a region's fault domain (R411, R412). -/
def State.intervalOf (s : State) (region : Option (BitVec 16)) : Option Interval :=
  match region.bind s.region? with
  | none => none
  | some g => s.intervals.find? (fun i => i.dom == g.fdom)

/-- The pre-image of one line logged on the first write of the interval (R412). What the log
holds in memory is not architectural: free bytes. -/
def logLine (region : Option (BitVec 16)) (line : Nat) (s : State) : State :=
  match s.intervalOf region with
  | none => s
  | some i =>
    if i.exhausted || i.log.any (fun p => p.1 == line) then s
    else if 4096 + 128 * (i.log.length + 1) > i.limit then
      let s1 := { s with intervals := s.intervals.map (fun j => if j.dom == i.dom then { j with exhausted := true } else j) }
      regionRecord i.region 0x0C 0xFFFF (4096 + 128 * i.log.length) 1 s1
    else
      let pre := s.mem.bytes (64 * line) 64
      let (b, s1) := freeBytes 128 s
      { s1 with
        mem := s1.mem.store (hbmKey s.nodeId (i.base + 4096 + 128 * i.log.length)) b
        intervals := s.intervals.map (fun j => if j.dom == i.dom then { j with log := (line, pre) :: j.log } else j) }

/-- Bytes written at home for a region (R168, R412): the pre-images of their lines are logged first. -/
def commit (region : Option (BitVec 16)) (key : Nat) (b : List Byte) (s : State) : State :=
  if b.isEmpty then s
  else if keyInRing s key then ringWrite (key - memKey s.nodeId 1088 0) b s
  else
    let s1 := if s.intervals.isEmpty then s else
      (List.range ((key + b.length - 1) / 64 - key / 64 + 1)).foldl (fun t i => logLine region (key / 64 + i) t) s
    { s1 with mem := s1.mem.store key b }

/-- Pieces of one line written at home as one masked write (R158, R166): false when a compressed page refuses it, which a
record reports. -/
def commitPieces (region : Option (BitVec 16)) (key : Nat) (ps : List (Nat × List Byte)) (s : State) : Bool × State :=
  match lineWrite key (fun st => ps.foldl (fun st p => commit region p.1 p.2 st) st) s with
  | some s1 => (true, s1)
  | none => (false, match region with
    | some r => regionRecord r 0x0A 0xFFFF (key % 2 ^ 39) 0 s
    | none => s)

/-- A write within one line at home. -/
def commitLine (region : Option (BitVec 16)) (key : Nat) (b : List Byte) (s : State) : Bool × State :=
  commitPieces region key [(key, b)] s

/-- A write of any length, line by line; the first refused line ends it. -/
def commitLines (region : Option (BitVec 16)) : Nat → Nat → List Byte → State → Bool × State
  | 0, _, _, s => (true, s)
  | fuel + 1, key, b, s =>
    if b.isEmpty then (true, s)
    else
      let n := 64 - key % 64
      let (ok, s1) := commitLine region key (b.take n) s
      if ok then commitLines region fuel (key + n) (b.drop n) s1 else (false, s1)

/-- A write at home, with the compressed-page check (R166). -/
def writeHome (region : Option (BitVec 16)) (key : Nat) (b : List Byte) (s : State) : Bool × State :=
  commitLines region (b.length + 1) key b s

/-- Reads in flight that a write from the same cluster overtakes (R159). -/
def markReads (table line : Nat) (s : State) : State :=
  { s with reads := s.reads.map (fun e => if e.cluster == table && e.line == line then { e with written := true } else e) }

/-! ### Strands (R167 to R171) -/

/-- n is reached (R169). -/
def reached (perf n : BitVec 32) : Bool := decide ((perf - n).toNat < 2 ^ 31)

/-- A status word merged into another: flags ORed, the own ECODE kept if not 0 (R171). -/
def mergeStatus (own other : BitVec 17) : BitVec 17 :=
  let flags := (own ||| other) &&& 0x1000F#17
  let ec := if own.extractLsb' 8 8 = 0 then other.extractLsb' 8 8 else own.extractLsb' 8 8
  flags ||| (ec.setWidth 17 <<< 8)

/-- STATUS bits (R171). -/
def stDL : BitVec 17 := 1
def stRA : BitVec 17 := 2
def stCS : BitVec 17 := 4
/-- EF with an ECODE. -/
def stEF (ecode : BitVec 8) : BitVec 17 := 8 ||| (ecode.setWidth 17 <<< 8)
def stTF : BitVec 17 := 0x10000

/-- A strand's STATUS with an error merged in. -/
def Hart.report (h : Hart) (strand : BitVec 3) (st : BitVec 17) : Hart :=
  h.setSpin strand { h.spin strand with status := mergeStatus (h.spin strand).status st }

/-- PERF of a spindle: the largest n such that every operation up to n is performed; XSEQ's mark is cleared when
PERF reaches it (R169). -/
def settleSpin (ops : List Op) (strand : BitVec 3) (p : Spindle) : Spindle :=
  let perf := match ops.find? (fun o => o.strand == strand) with
    | some o => o.seq - 1
    | none => p.issue
  { p with perf := perf, mark := p.mark && !reached perf p.xseq }

/-- Every spindle settled after an operation is performed. -/
def Hart.settle (h : Hart) : Hart :=
  { h with sp := Vector.ofFn (fun i => settleSpin h.ops (BitVec.ofNat 3 i.val) h.sp[i]) }

/-- An acquire of a strand at a time (R159, R194). -/
def Hart.acquire (h : Hart) (strand : BitVec 3) (now : Word) : Hart := { h with acq := h.acq.set strand.toNat now }
/-- An acquire of every strand. -/
def Hart.acquireAll (h : Hart) (now : Word) : Hart := { h with acq := Vector.replicate 8 now }

/-- The span is cleared when ISSUE has moved 2^31 past it (R192). -/
def Spindle.ageSpan (p : Spindle) : Spindle :=
  match p.span with
  | some (_, hi) => if (p.issue - hi).toNat ≥ 2 ^ 31 then { p with span := none } else p
  | none => p

/-- An operation issued under a strand: it takes the next sequence number (R169). -/
def Hart.issueRaw (h : Hart) (strand : BitVec 3) (kind : OpKind) : Hart :=
  let p := h.spin strand
  let isFork := match kind with | .fork .. => true | _ => false
  let p' := Spindle.ageSpan { p with issue := p.issue + 1, gen := if isFork then p.gen + 1 else p.gen }
  let op : Op := ⟨h.nextOp, h.pc, strand, p'.issue, p'.gen, h.level, h.region, kind, none, []⟩
  { h.setSpin strand p' with ops := h.ops ++ [op], nextOp := h.nextOp + 1 }

/-- The open combining entries of a strand close to merging (R184). -/
def Hart.closeStrand (h : Hart) (strand : BitVec 3) : Hart :=
  { h with comb := h.comb.map (fun e => if e.strand == strand then { e with closed := true } else e) }

/-- An operation other than a buffered store issued under a strand; the strand's open entries close, so that no later
store joins an entry that must be performed before this operation (R184). -/
def Hart.issueOp (h : Hart) (strand : BitVec 3) (kind : OpKind) : Hart := (h.issueRaw strand kind).closeStrand strand

/-- The combining entries of a strand start to drain (R158). -/
def Hart.drainStrand (h : Hart) (strand : BitVec 3) : Hart :=
  { h with comb := h.comb.map (fun e => if e.strand == strand then { e with closed := true, draining := true } else e) }
/-- Every combining entry starts to drain (R158). -/
def Hart.drainAll (h : Hart) : Hart :=
  { h with comb := h.comb.map (fun e => { e with closed := true, draining := true }) }
/-- The combining entries of a line start to drain (R158). -/
def Hart.drainLine (h : Hart) (line : Nat) : Hart :=
  { h with comb := h.comb.map (fun e => if e.line == line then { e with closed := true, draining := true } else e) }

/-- An operation is performed: it leaves the list and the spindles settle. -/
def Hart.perform (h : Hart) (id : Nat) (now : Word) : Hart :=
  match h.ops.find? (fun o => o.id == id) with
  | none => h
  | some o =>
    Hart.settle { h with ops := h.ops.filter (fun q => q.id != id), perfAt := h.perfAt.set o.strand.toNat now }

/-- Every operation of the strand numbered up to n is performed (R169). -/
def Hart.reachedAt (h : Hart) (strand : BitVec 3) (n : BitVec 32) : Bool := reached (h.spin strand).perf n

/-- Nothing of the hart is unperformed. -/
def Hart.allPerformed (h : Hart) : Bool := h.ops.isEmpty

/-- An operation is over: its range-lock entries are removed (R188), and what it had asked of other nodes is forgotten. -/
def State.unlock (s : State) (hart op : Nat) : State :=
  { s with
    locks := s.locks.filter (fun l => !(l.hart == some hart && l.op == op))
    far := s.far.filter (fun f => !(f.hart == hart && f.use == .op op)) }

/-! ### Own stores not yet performed (R157, R182) -/

/-- The byte a list of writes puts at an address, the last write first. -/
def writesByte (ws : List (Word × Nat × List Byte)) (a : Nat) : Option Byte :=
  ws.reverse.findSome? (fun w => if w.1.toNat ≤ a then w.2.2[a - w.1.toNat]? else none)

/-- What an unperformed operation leaves at an address: `some b` for the byte a store writes there, `none` where its value
is not at hand (an atomic; a store outside the buffer unless `any` is set). -/
def Op.leaves (any : Bool) (a : Nat) (o : Op) : Option (Option Byte) :=
  match o.kind with
  | .store ws _ buf => (writesByte ws a).map (fun b => if buf || any then some b else none)
  | .atomic ea fn _ _ _ =>
    if ea.toNat ≤ a && a < ea.toNat + (if fn.toNat ≥ 10 then 4 else 8) then some none else none
  | _ => none

/-- The newest of some operations that writes an address decides what it holds for the hart itself. -/
def ownByte (any : Bool) (ops : List Op) (a : Nat) : Option (Option Byte) := ops.reverse.findSome? (Op.leaves any a)

/-- The newest byte the combining buffer holds for an address (R157); a later own atomic hides it (R182). -/
def forwardByte (ops : List Op) (a : Nat) : Option Byte := (ownByte false ops a).join

/-! ### Traps (R396 to R401) -/

/-- The level at which a trap is taken (R397, R398). -/
def trapTarget (h : Hart) (cause : BitVec 8) : Level :=
  match cause.toNat with
  | 0x0C => .S
  | 0x12 => .U
  | 0x13 | 0x14 | 0x15 => .M
  | c => if h.level = .M then .M else if c < 32 && h.deleg.getLsbD c then .S else .M

/-- A double trap in M mode stops the hart (R401): a node's fault domain is rolled back; otherwise a record goes to
the firmware queue. -/
def doubleTrap (cause : BitVec 8) (s : State) : State :=
  let s1 := s.onHart (fun h => { h with run := .halted })
  if (s.hart.region.bind s.region?).isSome then askRollback s.hart.region cause s1
  else firmwareRecord 0x0D s.hart.num 0xFFFF cause.toNat 0 s1

/-- The bank after an entry (R400). -/
def TrapBank.entered (b : TrapBank) (cause : BitVec 8) (async : Bool) (level : Level) (pc epc val : Word) : TrapBank :=
  { b with cause := cause, async := async, pc := pc &&& ~~~1#64, epc := epc &&& ~~~1#64, val := val,
           pie := b.ie, ie := false, ppl := level, tip := true }

/-- TAKING A TRAP (R400), after any park of R71: the target bank takes the level, IE, the cause, the pc, the resume
point and the value; the level becomes the target and the pc its vector, or the copy's handler. -/
def enterTrap (cause : BitVec 8) (async : Bool) (pc epc val : Word) (handler : Option Word) (s : State) : State :=
  let h := s.hart
  let l0 := trapTarget h cause
  let busy := !async && (h.bank l0).tip
  if busy && l0 ≠ Level.S then doubleTrap cause s
  else
    let l := if busy then Level.M else l0
    let b := (h.bank l).entered cause async h.level pc epc val
    s.onHart (fun h => { h.setBank l b with level := l, pc := handler.getD b.vec, run := .running })

/-- A synchronous trap of the instruction at the pc: taken at once when no result is outstanding, otherwise after the
park of R71, which `PARK_END` ends. -/
def trapAt (cause : BitVec 8) (epc val : Word) (s : State) : State :=
  if s.hart.outstanding = 0 && s.hart.faults.isEmpty then enterTrap cause false s.hart.pc epc val none s
  else s.onHart (fun h => { h with run := .parkTrap cause h.pc epc val })

/-- A precise trap: the resume point is the instruction itself (R13, R398). -/
def trap (cause : BitVec 8) (val : Word) (s : State) : State := trapAt cause s.hart.pc val s

/-- RETURNING FROM A TRAP (R406) but for the fault record: IE, the level and the pc of the bank of the current level;
the U bank returns to U. -/
def returnTrap (s : State) : State :=
  let h := s.hart
  let b := h.bank h.level
  let lv := if h.level = Level.U then Level.U else b.ppl
  let n := if h.level = Level.M then h.icnt else h.icnt + 1
  s.onHart (fun h => { h.setBank h.level { b with ie := b.pie, tip := false } with
    level := lv, pc := b.epc, run := .running, cycle := h.cycle + 1, icnt := n })

end Sys2Proof.Machine
end

