-- ==== Sys2Proof/Machine/Format.lean ====
section
/-! DEFINITION. Lanes, bank formats and the conversions between memory and vector registers (08, R197 to R207), and
the random values of stochastic rounding (R106 to R109). -/

namespace Sys2Proof.Machine

/-- Lane width in bits (R197). -/
def laneWidth (t : Bool) : Nat := if t then 16 else 32
/-- Lane i of a register as a number (R197). -/
def lane (t : Bool) (v : VReg) (i : Nat) : Nat := (v.extractLsb' (laneWidth t * i) (laneWidth t)).toNat
/-- A register from its lanes, lane 0 first (R197). -/
def ofLanes (t : Bool) (l : List Nat) : VReg :=
  BitVec.ofNat 512 (l.foldr (fun v acc => v % 2 ^ laneWidth t + 2 ^ laneWidth t * acc) 0)
/-- Every lane of a register, lane 0 first. -/
def lanesOf (t : Bool) (v : VReg) : List Nat :=
  (List.range (if t then 32 else 16)).map (lane t v)
/-- The 64 bytes of a register, lowest first. -/
def vregBytes (v : VReg) : List Byte := leBytes v.toNat 64
/-- A register from bytes, lowest first. -/
def bytesVreg (b : List Byte) : VReg := BitVec.ofNat 512 (leNat b)

/-- The scalar format of a format code (R88). -/
def fpOfCode (c : BitVec 4) : Option Fp :=
  match c.toNat with
  | 1 => some .fp32 | 2 => some .bf16 | 3 => some .fp16 | 4 => some .e4m3 | 5 => some .e5m2 | 8 => some .fp64
  | _ => none
/-- Whether a format code is a block format (R88). -/
def isBlockCode (c : BitVec 4) : Bool := c == 6 || c == 7
/-- Bytes of one element of a scalar format; RAW counts bytes (R88, R325). -/
def codeSize (c : BitVec 4) : Nat :=
  match c.toNat with
  | 1 => 4 | 2 => 2 | 3 => 2 | 4 => 1 | 5 => 1 | 8 => 8
  | _ => 1
/-- Elements one vld or vst moves (R205); a RAW access counts its 64 bytes. -/
def codeElems (c : BitVec 4) : Nat :=
  match c.toNat with
  | 1 => 16 | 2 => 32 | 3 => 16 | 4 => 16 | 5 => 16 | 6 => 48 | 7 => 48 | 8 => 8
  | _ => 64
/-- Capacity of a bank in elements (R205). -/
def codeCapacity (c : BitVec 4) : Nat :=
  match c.toNat with
  | 1 => 8192 | 2 => 16384 | 3 => 16384 | 4 => 32768 | 5 => 32768 | 6 => 32736 | 7 => 24576 | 8 => 4096
  | _ => 32768
/-- Bytes one vld or vst moves (R205). -/
def codeBytes (c : BitVec 4) : Nat :=
  match c.toNat with
  | 3 => 32 | 4 => 16 | 5 => 16 | 6 => 32
  | _ => 64
/-- Registers one vld or vst moves (R205). -/
def codeRegs (c : BitVec 4) : Nat := if isBlockCode c then 3 else 1

/-- The address of an element of a formatted bank, in bytes from the bank's start (R205). -/
def elemByte (c : BitVec 4) (k : Nat) : Nat :=
  if isBlockCode c then k / 48 * recordBytes (c == 7) else k * codeSize c

/-- The address of the first byte of a formatted access: the bank's start plus the element's place (R205). -/
def fmtAddr (c : BitVec 4) (ea : Word) (k : Nat) : Word :=
  if c = 0 then ea else (ea &&& ~~~0x7FFF#64) + BitVec.ofNat 64 (elemByte c k)

/-- The first byte of a vld, a vst or a stream register's access (R205). -/
def vecPlace (fmt : BitVec 4) (ea : Word) : Word := fmtAddr fmt ea (bitsOf ea 0 15)

/-- The format register of a bank, by quad, slice within the quad and bank (R201). -/
def State.bankReg (s : State) (core bank : Nat) : Word := assocGet s.bankFmt (core / 4 * 32 + core % 4 * 8 + bank) 0

/-- The format register of the bank an address of the hart's own quad reaches; 0 elsewhere (R205). -/
def State.fmtReg (s : State) (h : Nat) (ea : Word) : Word :=
  if gaNode ea = s.nodeId && decide (h < 1024) && decide (gaCore ea < 1024) && decide (gaCore ea / 4 = h / 4)
      && decide (gaOff ea < sliceSize) then s.bankReg (gaCore ea) (bitsOf ea 15 3)
  else 0

/-- FMT, RND and SRS of a format register (R201). -/
def fmtCode (r : Word) : BitVec 4 := r.extractLsb' 0 4
def fmtRnd (r : Word) : BitVec 3 := r.extractLsb' 4 3
def fmtSrs (r : Word) : Bool := r.getLsbD 8

/-- A vector access to a bank of another quad meets a format there (R204). -/
def State.foreignFormatted (s : State) (h : Nat) (ea : Word) : Bool :=
  gaNode ea == s.nodeId && decide (gaCore ea < 1024) && decide (gaOff ea < sliceSize)
    && !(decide (h < 1024) && decide (gaCore ea / 4 = h / 4))
    && fmtCode (s.bankReg (gaCore ea) (bitsOf ea 15 3)) != 0

/-- Groups of n bytes as numbers. -/
def groupBytes (n : Nat) : Nat → List Byte → List Nat
  | 0, _ => []
  | k + 1, b => leNat (b.take n) :: groupBytes n k (b.drop n)

/-- The FP32 patterns of the elements `from_` to `from_ + n - 1` of a block record (R96). -/
def recordLanes (k8 : Bool) (rec : List Byte) (from_ n : Nat) : List Rounded :=
  (List.range n).map (fun i => recordFp32 k8 rec (from_ + i))

/-- The registers a vld delivers from the bytes of its access (R205, R206). -/
def fmtDecode (c : BitVec 4) (b : List Byte) : List VReg × Flags :=
  match c.toNat with
  | 3 => ([ofLanes false ((groupBytes 2 16 b).map (fun v => (fpConvert .fp32 .rne (fpDecode .fp16 v)).bits))], 0)
  | 4 => ([ofLanes false ((groupBytes 1 16 b).map (fun v => (fpConvert .fp32 .rne (fpDecode .e4m3 v)).bits))], 0)
  | 5 => ([ofLanes false ((groupBytes 1 16 b).map (fun v => (fpConvert .fp32 .rne (fpDecode .e5m2 v)).bits))], 0)
  | 6 | 7 =>
    let l := recordLanes (c == 7) b 0 48
    ((List.range 3).map (fun j => ofLanes false (((l.drop (16 * j)).take 16).map (·.bits))), orFlags l)
  | _ => ([bytesVreg b], 0)

/-- Where the log's next entry lies: its offset in the hart's own slice or local store, or none when it falls outside the log
(R108, R109). -/
def Hart.logEntry (h : Hart) : Option Nat :=
  let off := 2 * h.logb.toNat + 2 * h.logp.toNat
  if h.logp = h.logn || off ≥ sliceSize then none else some off

/-- A log entry that falls outside the log sets LOST (R109). -/
def Hart.logLost (h : Hart) : Hart := { h with srLost := true }

/-- A log entry written: a store of the hart under sn0 (R109). -/
def writeLog (off : Nat) (v : BitVec 16) (s : State) : State :=
  s.onHart (fun h => { h.issueOp 0 (.store [(mkGa s.nodeId h.num off, memKey s.nodeId h.num off, leBytes v.toNat 2)] false false)
    with logp := h.logp + 1 })

/-- A log entry read: a load of the hart under sn0, performed with the instruction's other effects (R109, log 57), when what must
come before it is performed (`State.logGate`). -/
def readLog (off : Nat) (s : State) : BitVec 16 × State :=
  (BitVec.ofNat 16 (leNat (s.readKey (memKey s.nodeId s.hart.num off) 2)), s.onHart (fun h =>
    let h1 := h.issueOp 0 (.load 0 2 false 0)
    { h1.perform (h1.nextOp - 1) s.now with logp := h.logp + 1 }))

/-- One draw of the hart's own random source (R108, R109): the hash dither, the noise source, the noise source with its log,
or the replay of a log. -/
def drawOne (dn : BitVec 32) (s : State) : BitVec 16 × State :=
  let noise := Config.noise s.noiseCtr
  let drawn := { s with noiseCtr := s.noiseCtr + 1 }
  match s.hart.srSrc.toNat, s.hart.logEntry with
  | 0, _ => (dither16 dn s.hart.srStep, s)
  | 1, _ => (noise, drawn)
  | 2, some off => (noise, writeLog off noise drawn)
  | 2, none => (noise, drawn.onHart Hart.logLost)
  | _, some off => readLog off s
  | _, none => (0, s.onHart Hart.logLost)

/-- The value of the next lane's D in a group (R107). -/
def nextD (ds : List (BitVec 32)) (i : Nat) : BitVec 32 := (ds[(i + 1) % ds.length]?).getD 0

/-- The random values of a group in ascending lane order: active lanes draw, the others take 0 (R106, R107). -/
def drawFrom (ds : List (BitVec 32)) : List (Nat × Bool) → State → List (BitVec 16) × State
  | [], s => ([], s)
  | (i, active) :: t, s =>
    if active then
      let (r, s1) := drawOne (nextD ds i) s
      let (rs, s2) := drawFrom ds t s1
      (r :: rs, s2)
    else
      let (rs, s2) := drawFrom ds t s
      (0 :: rs, s2)

/-- The hash dither of a group with a given step (R107): copies, engine drains, banks whose SRS is 0. -/
def hashRnds (ds : List (BitVec 32)) (step : Word) : List (BitVec 16) :=
  (List.range ds.length).map (fun i => dither16 (nextD ds i) step)

/-- The random values of a conversion under a rounding code: none but for code 4. `own`: from the hart's sr.src. -/
def rndsFor (code : BitVec 3) (own : Bool) (ds : List (BitVec 32)) (active : List Bool) (s : State) :
    List (BitVec 16) × State :=
  if code ≠ 4 then ([], s)
  else if own then drawFrom ds (active.zipIdx.map (fun p => (p.2, p.1))) s
  else (hashRnds ds s.hart.srStep, s)

/-- The values that a conversion draws from the hart's own source (R106, R108). -/
def drawsOf (code : BitVec 3) (own : Bool) (active : List Bool) : Nat :=
  if code = 4 && own then (active.filter id).length else 0

/-- The values that a store to a bank of a format draws from the hart's own source (R198, R206). -/
def fmtDraws (c : BitVec 4) (code : BitVec 3) (own : Bool) (active : List Bool) : Nat :=
  match c.toNat with
  | 3 | 4 | 5 => drawsOf code own active
  | 6 | 7 => drawsOf code own (List.replicate 48 true)
  | _ => 0

/-- FP32 values of the lanes of registers, in element order. -/
def fp32Vals (regs : List VReg) : List FVal := regs.flatMap (fun v => (lanesOf false v).map (fpDecode .fp32))

/-- The bytes of a block record that registers encode (R97 to R99, R227), with flags; the random values come from the
hart's source when `own`. -/
def blockOf (k8 : Bool) (code : BitVec 3) (own : Bool) (regs : List VReg) (s : State) :
    (List Byte × Flags) × State :=
  let vals := fp32Vals regs
  let (rnds, s1) := rndsFor code own (blockDs k8 vals) (vals.map (fun _ => true)) s
  let e := encodeBlock k8 code rnds vals
  ((blockBytes k8 e, e.flags), s1)

/-- FP32 lanes converted to a scalar format, as element numbers with flags; a group of the lanes (R106, R107). -/
def convertLanes (f : Fp) (code : BitVec 3) (own : Bool) (active : List Bool) (vals : List FVal) (s : State) :
    List Rounded × State :=
  let (rnds, s1) := rndsFor code own (vals.map (discarded f)) active s
  (vals.zipIdx.map (fun p => fpConvert f (modeAt code rnds p.2) p.1), s1)

/-- The flags of the active ones among converted lanes: an inactive lane raises none (R102, R198). -/
def activeFlags (active : List Bool) (l : List Rounded) : Flags :=
  orFlags ((l.zip active).filterMap (fun p => if p.2 then some p.1 else none))

/-- The bytes a vst or a masked stream write writes (R198, R206): inactive lanes of a scalar format draw no random value and
raise no flag. -/
def fmtEncode (c : BitVec 4) (code : BitVec 3) (own : Bool) (active : List Bool) (regs : List VReg) (s : State) :
    (List Byte × Flags) × State :=
  let v := (regs[0]?).getD 0
  let narrow (f : Fp) : (List Byte × Flags) × State :=
    let (l, s1) := convertLanes f code own active (fp32Vals [v]) s
    ((l.flatMap (fun r => leBytes r.bits (codeSize c)), activeFlags active l), s1)
  match c.toNat with
  | 3 => narrow .fp16
  | 4 => narrow .e4m3
  | 5 => narrow .e5m2
  | 6 | 7 => blockOf (c == 7) code own regs s
  | _ => ((vregBytes v, 0), s)

/-- A rounding code written: 5 to 7 store 0 (R103). -/
def roundStored (v : BitVec 3) : BitVec 3 := if v.toNat > 4 then 0 else v

/-- A bank format register as a write leaves it (R201). -/
def fmtStored (v : Word) : Word :=
  let f : BitVec 4 := v.setWidth 4
  zext64 (if f.toNat > 8 then 0 else f) ||| (zext64 (roundStored (v.extractLsb' 4 3)) <<< 4) ||| (v &&& 0x100#64)

/-- Consecutive vector registers. -/
def Hart.rvs (h : Hart) (r : BitVec 5) (n : Nat) : List VReg := (List.range n).map (fun i => h.rv (r + BitVec.ofNat 5 i))

/-- Registers numbered from one on, with their values. -/
def numbered (r : BitVec 5) (vs : List VReg) : List (BitVec 5 × VReg) :=
  vs.zipIdx.map (fun p => (r + BitVec.ofNat 5 p.2, p.1))

/-- Several vector registers written. -/
def Hart.wvs (h : Hart) (l : List (BitVec 5 × VReg)) : Hart := l.foldl (fun h p => h.wv p.1 p.2) h

end Sys2Proof.Machine
end

