-- ==== Sys2Proof/Machine/Order.lean ====
section
/-! DEFINITION. The order in which a hart's own operations are performed (R173, R182, R184), what the combining buffer
supplies to a load (R157), and the result of a load from its bytes. -/

namespace Sys2Proof.Machine

/-- The intervals meet. -/
def meets (lo1 hi1 lo2 hi2 : Nat) : Bool := decide (lo1 < hi2) && decide (lo2 < hi1)

/-- Two lists of intervals meet. -/
def anyMeet (l1 l2 : List (Nat × Nat)) : Bool := l1.any (fun p => l2.any (fun q => meets p.1 p.2 q.1 q.2))

/-- The format and the rounding code that x[b] of a block instruction selects (R226). -/
def blockSel (v : Word) : Bool × BitVec 3 :=
  (v.getLsbD 0, let r : BitVec 3 := v.extractLsb' 4 3; if r.toNat ≥ 5 then 0 else r)

/-- The size of an atomic by its function number (R161). -/
def amoSize (fn : BitVec 6) : Nat := if fn.toNat ≥ 10 then 4 else 8

/-- Where a lane of a vldx lies (R209): its address is raw, or a bank address whose offset is an element index. -/
def gatherPlace (fmt : BitVec 4) (t : Bool) (a : Word) : Word × Nat :=
  if fmt = 0 then (a, laneWidth t / 8)
  else
    let k := bitsOf a 0 15
    (fmtAddr fmt a k, if isBlockCode fmt then recordBytes (fmt == 7) else codeSize fmt)

/-- The place and length of a load's one access; none for a vldx. -/
def OpKind.loadPlace : OpKind → Option (Word × Nat)
  | .load ea n _ _ => some (ea, n)
  | .vload ea fmt _ => some (vecPlace fmt ea, codeBytes fmt)
  | .blockAcc ea xb _ => some (ea, recordBytes (blockSel xb).1)
  | .streamLoad _ _ ea fmt => some (vecPlace fmt ea, codeBytes fmt)
  | _ => none

/-- A span of bytes from an address on. -/
def spanOf (p : Word × Nat) : Nat × Nat := (p.1.toNat, p.1.toNat + p.2)

/-- The byte intervals an operation of the hart itself reads (R182). -/
def Op.reads (o : Op) : List (Nat × Nat) :=
  match o.kind with
  | .vloadx fmt t _ _ _ lanes => lanes.map (fun l => spanOf (gatherPlace fmt t l.2))
  | .atomic ea fn _ _ _ => [spanOf (ea, amoSize fn)]
  | k => k.loadPlace.toList.map spanOf

/-- The byte intervals an operation of the hart itself has still to write (R182). -/
def Op.writes (o : Op) : List (Nat × Nat) :=
  match o.kind with
  | .store ws _ _ => ws.map (fun w => spanOf (w.1, w.2.2.length))
  | .atomic ea fn _ _ _ => [spanOf (ea, amoSize fn)]
  | _ => []

/-- Whether an operation is a load, of whatever kind. -/
def OpKind.isRead : OpKind → Bool
  | .load .. | .vload .. | .vloadx .. | .blockAcc .. | .streamLoad .. => true
  | _ => false

/-- The operations issued before a number. -/
def Hart.olderOps (h : Hart) (id : Nat) : List Op := h.ops.filter (fun p => decide (p.id < id))

/-- The bytes of an interval that the buffer supplies to an operation (R157), by address. -/
def Hart.forward (h : Hart) (id lo hi : Nat) : Fwd :=
  if h.comb.isEmpty then []
  else (List.range (hi - lo)).filterMap (fun i => (forwardByte (h.olderOps id) (lo + i)).map (fun b => (lo + i, b)))

/-- What the buffer supplies to a load: what it took along when it left the hart, or what the buffer holds now. -/
def Hart.fwdOf (h : Hart) (o : Op) : Fwd :=
  if o.sent.isSome then o.fwd
  else if o.kind.isRead then o.reads.flatMap (fun r => h.forward o.id r.1 r.2) else []

/-- The parts of intervals that forwarded bytes leave to memory. -/
def gaps (spans : List (Nat × Nat)) (f : Fwd) : List (Nat × Nat) :=
  if f.isEmpty then spans
  else spans.flatMap (fun r => (List.range (r.2 - r.1)).filterMap (fun i =>
    if f.any (fun p => p.1 == r.1 + i) then none else some (r.1 + i, r.1 + i + 1)))

/-- The buffer supplies every byte of the intervals (R168). -/
def covered (spans : List (Nat × Nat)) (f : Fwd) : Bool := !f.isEmpty && (gaps spans f).isEmpty

/-- An earlier operation of the hart touches bytes of a later one: a store or an atomic and anything, but for the bytes that
the buffer supplies; two loads keep the order of their reads too (R182, R183, R196). -/
def Op.conflicts (f : Fwd) (p o : Op) : Bool :=
  anyMeet p.writes (gaps o.reads f) || anyMeet p.writes o.writes || anyMeet p.reads o.writes || anyMeet p.reads o.reads

/-- An earlier operation of the same strand since the same fork marker (R173, R184). -/
def Op.strandBefore (p o : Op) : Bool := p.strand == o.strand && p.gen == o.gen

/-- An earlier operation that must be performed first (R182, R184). -/
def Op.before (f : Fwd) (p o : Op) : Bool := decide (p.id < o.id) && (p.strandBefore o || p.conflicts f o)

/-- A write of the hart to another node, not yet acknowledged, covers bytes of an operation (R182). -/
def Hart.underWrite (h : Hart) (f : Fwd) (o : Op) : Bool :=
  h.writes.any (fun w => !w.ops.contains o.id && (anyMeet w.spans (gaps o.reads f) || anyMeet w.spans o.writes))

/-- An atomic follows every combining entry of its line that holds an earlier operation (R158). -/
def Hart.lineWaits (h : Hart) (o : Op) : Bool :=
  match o.kind with
  | .atomic ea .. => h.comb.any (fun e => e.line == ea.toNat / 64 && e.ops.any (fun i => decide (i < o.id)))
  | _ => false

/-- An earlier operation goes first; one that a gang stop holds back, only when it has still to write bytes of the later one
(R72, log 29). -/
def Hart.goesFirst (h : Hart) (f : Fwd) (p o : Op) : Bool :=
  if decide (p.id < h.holdTo) && decide (h.holdTo ≤ o.id) then anyMeet p.writes (gaps o.reads f) || anyMeet p.writes o.writes
  else p.before f o

/-- Nothing that must come first is unperformed, and no gang stop holds the operation back (R72). -/
def Hart.ready (h : Hart) (o : Op) : Bool :=
  let f := h.fwdOf o
  decide (h.holdTo ≤ o.id) && !h.ops.any (fun p => h.goesFirst f p o) && !h.underWrite f o && !h.lineWaits o

/-- The operation with a number. -/
def Hart.op? (h : Hart) (id : Nat) : Option Op := h.ops.find? (fun o => o.id == id)

/-- An operation is performed with a result on its way, behind the read-combining entries it waits for. -/
def Hart.finish (h : Hart) (o : Op) (now : Word) (res : Result) (fault : Option FaultEntry) (entries : List Nat) : Hart :=
  { h.perform o.id now with rets := (h.perform o.id now).rets ++ [⟨o.id, o.strand, res, fault, entries⟩] }

/-- An operation put in its place again, changed. -/
def Hart.putOp (h : Hart) (o : Op) : Hart := { h with ops := h.ops.map (fun p => if p.id = o.id then o else p) }
/-- Every operation changed. -/
def Hart.putOps (h : Hart) (f : Op → Op) : Hart := { h with ops := h.ops.map f }

/-! ### Results -/

/-- Bytes read from an address on, with those the combining buffer supplies put in (R157). -/
def fillFwd (lo : Nat) (b : List Byte) (f : Fwd) : List Byte :=
  if f.isEmpty then b
  else b.zipIdx.map (fun p => ((f.find? (fun q => q.1 == lo + p.2)).map (·.2)).getD p.1)

/-- A loaded value extended to a register (R149). -/
def extend (size : Nat) (uns : Bool) (v : Nat) : Word :=
  let b := BitVec.ofNat 64 v
  match size with
  | 1 => if uns then (b.setWidth 8).setWidth 64 else (b.setWidth 8).signExtend 64
  | 2 => if uns then (b.setWidth 16).setWidth 64 else (b.setWidth 16).signExtend 64
  | 4 => if uns then (b.setWidth 32).setWidth 64 else (b.setWidth 32).signExtend 64
  | _ => b

/-- Element k of a formatted bank, from the bytes of its element or record, as a vldx lane (R209). -/
def gatherValue (fmt : BitVec 4) (k : Nat) (b : List Byte) : Rounded :=
  if isBlockCode fmt then recordFp32 (fmt == 7) b (k % 48)
  else match (if fmt = 0 || fmt = 1 || fmt = 2 then none else fpOfCode fmt) with
    | some f => ⟨(fpConvert .fp32 .rne (fpDecode f (leNat b))).bits, 0⟩
    | none => ⟨leNat b, 0⟩

/-- The registers a baddq.acc writes (R228): each lane's RNE sum with the record's element. -/
def blockAccLanes (k8 : Bool) (rec : List Byte) (regs : List VReg) : List VReg × Flags :=
  let sums := (List.range 48).map (fun k =>
    fpAddV .fp32 .rne (fpDecode .fp32 (lane false ((regs[k / 16]?).getD 0) (k % 16))) (recordValue k8 rec k))
  ((List.range 3).map (fun j => ofLanes false (((sums.drop (16 * j)).take 16).map (·.bits))), orFlags sums)

/-- The register a read stream's fetch delivers from the bytes of its access (R96, R206, R211). -/
def streamDecode (fmt : BitVec 4) (ea : Word) (b : List Byte) : VReg × Flags :=
  if isBlockCode fmt then
    let l := recordLanes (fmt == 7) b (bitsOf ea 0 15 % 48) 16
    (ofLanes false (l.map (·.bits)), orFlags l)
  else let (vs, fl) := fmtDecode fmt b; ((vs[0]?).getD 0, fl)

/-- The result of a load from the bytes of its one access (R149, R206, R212, R228). -/
def OpKind.result (k : OpKind) (h : Hart) (b : List Byte) : Result :=
  match k with
  | .load _ n uns d => .xval d (extend n uns (leNat b))
  | .vload _ fmt vd => let (vs, fl) := fmtDecode fmt b; .vval (numbered vd vs) fl
  | .blockAcc _ xb vd => let (vs, fl) := blockAccLanes (blockSel xb).1 b (h.rvs vd 3); .acc vd (numbered vd vs) fl
  | .streamLoad r j ea fmt => let (v, fl) := streamDecode fmt ea b; .stream r j v fl 0
  | _ => .nothing [] []

/-- The bytes of a wholly forwarded access. -/
def fwdBytes (p : Word × Nat) (f : Fwd) : List Byte := fillFwd p.1.toNat (List.replicate p.2 0) f

/-- The value of a wholly forwarded load (R168). -/
def OpKind.fwdResult (k : OpKind) (h : Hart) (f : Fwd) : Result :=
  match k with
  | .vloadx fmt t vd idx _ lanes =>
    let vals := lanes.map (fun l => (l.1, gatherValue fmt (bitsOf l.2 0 15) (fwdBytes (gatherPlace fmt t l.2) f)))
    .lanes vd t (vals.map (fun p => (p.1, BitVec.ofNat 32 p.2.bits))) idx (orFlags (vals.map (·.2)))
  | _ => match k.loadPlace with
    | some p => k.result h (fwdBytes p f)
    | none => .nothing [] []

/-- A load of any kind issued under a strand (R149, R157, R168): wholly forwarded it is performed at once, unless an own load
of the same bytes is still to be performed (R182); otherwise it waits, and the strand's entries start to drain (R184). -/
def Hart.issueRead (h : Hart) (sn : BitVec 3) (k : OpKind) (now : Word) : Hart :=
  let h1 := h.issueRaw sn k
  match h1.ops.getLast? with
  | none => h1
  | some o =>
    let f := h1.fwdOf o
    if covered o.reads f && !h.ops.any (fun p => anyMeet p.reads o.reads) then
      h1.finish o now (k.fwdResult h f) none []
    else (h1.closeStrand sn).drainStrand sn

/-- The hart in focus issues a load. -/
def issueLoad (sn : BitVec 3) (k : OpKind) (s : State) : State := s.onHart (fun h => h.issueRead sn k s.now)

end Sys2Proof.Machine
end

