-- ==== Sys2Proof/Machine/Reads.lean ====
section
/-! DEFINITION. Reads of HBM and of other nodes: the clusters' read-combining tables (R159, R194), and the lines that
engines, copies, blocking accesses and text take from other nodes or write there (R347, R348; log 25). -/

namespace Sys2Proof.Machine

/-! ### The read-combining tables (R159) -/

/-- Who reads: a hart under a strand; `own`: an access of the hart itself, which R182 orders, and not of its engine or copy;
`alone`: a read that uses no table, as that of text, which no strand orders. -/
structure Reader where
  hart : Nat
  strand : BitVec 3
  own : Bool
  alone : Bool
deriving DecidableEq, Repr

/-- The entries of a hart's read-combining table (R159). -/
def State.tableReads (s : State) (t : Nat) : List ReadEntry := s.reads.filter (fun e => e.cluster == t)

/-- A table number no cluster has: a read that travels alone. -/
def aloneTable : Nat := 64

/-- The hart has read one of these bytes later than the entry opened, and reads them once more: it joins the entry no more
(R182, R196). -/
def ReadEntry.bars (e : ReadEntry) (r : Reader) (key n : Nat) : Bool :=
  r.own && e.barred.any (fun b => b.1 == r.hart && meets b.2.1 b.2.2 key (key + n))

/-- An entry that may absorb a read of n bytes of its line (R159, R182, R194). -/
def absorbs (h : Hart) (r : Reader) (key n : Nat) (e : ReadEntry) : Bool :=
  !r.alone && e.cluster == hartTable h.num && e.line == key / 64 && !e.written && !e.readers.contains (h.num, r.strand)
    && decide ((h.acq[r.strand.toNat]).toNat + 2 < e.opened.toNat)
    && decide ((h.perfAt[r.strand.toNat]).toNat < e.opened.toNat)
    && !e.bars r key n

/-- An entry opened for a line; when the table is full or the hart has no cluster, the read travels alone (R159). -/
def openRead (r : Reader) (key : Nat) (remote : Bool) (s : State) : State :=
  let t := hartTable r.hart
  let tab := if t < 32 && !r.alone && (s.tableReads t).length < 16 then t else aloneTable
  let data := if remote then 0 else BitVec.ofNat 512 (leNat (s.mem.bytes (key / 64 * 64) 64))
  { s with
    reads := s.reads ++ [⟨s.nextRead, tab, key / 64, key / 64 * 64, s.now, data, false, remote, [(r.hart, r.strand)], []⟩]
    nextRead := s.nextRead + 1 }

/-- The older entries of the line are barred to the hart for the bytes it now reads from a later one (R182). -/
def barOlder (r : Reader) (key n k : Nat) (s : State) : State :=
  if r.own then
    { s with reads := s.reads.map (fun e =>
        if decide (e.id < k) && e.cluster == hartTable r.hart && e.line == key / 64 then
          { e with barred := (r.hart, key, key + n) :: e.barred }
        else e) }
  else s

/-- The entry a read of n bytes joins: an open one, or a new one. -/
def joinRead (r : Reader) (key n : Nat) (remote : Bool) (s : State) : Nat × State :=
  match s.reads.find? (absorbs (s.getHart r.hart) r key n) with
  | some e => (e.id, barOlder r key n e.id { s with reads := s.reads.map (fun f =>
      if f.id = e.id then { f with readers := f.readers ++ [(r.hart, r.strand)] } else f) })
  | none => (s.nextRead, barOlder r key n s.nextRead (openRead r key remote s))

/-- Bytes of a line. -/
def bytesOfLine (data : BitVec 512) (key n : Nat) : List Byte := ((leBytes data.toNat 64).drop (key % 64)).take n

/-- A read of HBM of this module joins the table (R159): its entry, and the bytes the entry's line gives it. -/
def readLine (r : Reader) (key n : Nat) (s : State) : Nat × List Byte × State :=
  let (k, s1) := joinRead r key n false s
  (k, bytesOfLine (((s1.reads.find? (fun e => e.id == k)).map (·.data)).getD 0) key n, s1)

/-! ### Lines of other nodes (log 25) -/

/-- How an access to a line of another node stands: answered with data, refused, refused because the class is suspended (R353), or
on its way. -/
inductive FarGot where
  | data (d : BitVec 512)
  | fault (cause reason : BitVec 8)
  | suspended
  | pending
deriving DecidableEq, Repr

/-- The access as its answer leaves it. -/
def Far.got (f : Far) : FarGot :=
  match f.ans with
  | none => .pending
  | some a => if a.suspended then .suspended else if a.cause ≠ 0 then .fault a.cause a.reason else .data a.data

/-- What is known of a line read from another node. -/
def State.farOf (s : State) (h : Nat) (u : FarUse) (ea : Word) : Option Far :=
  s.far.find? (fun f => f.hart == h && f.use == u && f.line == ea.toNat / 64 && !f.write)

/-- The number of a write that no operation of a hart has made. -/
def deviceWrite : Nat := 2 ^ 64

/-- A read of a line of another node: it joins the table of its cluster, and a new entry sends its request (R159, R347); the answer
is there when the read is tried again. -/
def farRead (r : Reader) (u : FarUse) (ea : Word) (key n : Nat) (acc : Access) (s : State) : FarGot × State :=
  match s.farOf r.hart u ea with
  | some f => (f.got, s)
  | none =>
    let (k, s1) := joinRead r key n true s
    let s2 := { s1 with far := s1.far ++ [⟨r.hart, u, ea.toNat / 64, false, k, none, false⟩] }
    (.pending, if k = s.nextRead then send (.request (gaNode ea) r.hart k acc) s2 else s2)

/-- The next write of an attempt, when an earlier attempt has sent it already. -/
def State.farNext (s : State) (h : Nat) (u : FarUse) : Option Far :=
  s.far.find? (fun f => f.hart == h && f.use == u && f.write && !f.met)

/-- A write of a line of another node, sent once (R347, R348): refused at once while the class is suspended (R353). An attempt makes
its writes in one order, so that the next one sent before is this one. -/
def farWrite (h : Nat) (u : FarUse) (ea : Word) (acc : Access) (s : State) : FarGot × State :=
  match s.farNext h u with
  | some f => (f.got, { s with far := s.far.map (fun g => if g = f then { g with met := true } else g) })
  | none =>
    if s.suspended (gaNode ea) then (.suspended, s)
    else
      let k := deviceWrite + s.nextRead
      (.pending, send (.write (gaNode ea) h k acc)
        { s with far := s.far ++ [⟨h, u, ea.toNat / 64, true, k, none, true⟩], nextRead := s.nextRead + 1 })

/-- What a hart, or an operation of it, has asked of other nodes is forgotten. -/
def State.farOver (s : State) (h : Nat) (gone : FarUse → Bool) : State :=
  { s with far := s.far.filter (fun f => !(f.hart == h && gone f.use)) }

/-- The instruction at issue of the hart in focus is over: what it, or its fetch, has asked of other nodes is forgotten, unless it waits
and is tried again. -/
def State.farDone (s : State) : State :=
  if s.hart.run = .blocked || s.far.isEmpty then s else s.farOver s.hart.num (fun u => u == .block || u == .text)

/-- Of an attempt that has to wait, what it sent to other nodes stays, with the entries it opened for them; all else is as before. -/
def State.keepSent (s st : State) : State :=
  { s with
    sendq := st.sendq
    asks := st.asks
    msgMoved := st.msgMoved
    far := st.far.map (fun f => { f with met := false })
    nextRead := st.nextRead
    reads := st.reads.filterMap (fun e => if e.remote then some e else s.reads.find? (fun f => f.id == e.id)) }

/-- The report of a memory error that an access met, and nothing else it did (R415). -/
def State.errorFrom (s s1 : State) : State :=
  { s with poison := s1.poison, hart := { s.hart with irqs := s1.hart.irqs }, others := s1.others, mem := s1.mem,
           rollbacks := s1.rollbacks }

/-- An attempt that has to wait is as if not made, but for what it sent and the memory errors it reported. -/
def State.waited (s st : State) : State := (if st.poison = s.poison then s else s.errorFrom st).keepSent st

/-- An access waits for its translation: another node's is asked for; a walk of this node that met a memory error reports it
(R147, R415). -/
def State.awaits (s : State) (t : Trans) (h : Nat) (region : Option (BitVec 16)) (level : Level) (need : Need) (a : Word) : State :=
  if gaNode a = s.nodeId then reportPoison region t.key t.st else t.st.askAs h region level need a

/-- The same for an access of the hart in focus. -/
def State.awaitsOwn (s : State) (t : Trans) (need : Need) (a : Word) : State :=
  s.awaits t s.hart.num s.hart.region s.hart.level need a

end Sys2Proof.Machine
end

