-- ==== Sys2Proof/Machine/Access.lean ====
section
/-! DEFINITION. Issuing loads, stores and atomics: range locks (R188, R189), the scoreboard (R116), forwarding (R157)
and the combining buffer (R156). What an issued operation does later stands in Perform.lean. -/

namespace Sys2Proof.Machine

/-- An attempt to issue: `ok` when the instruction goes on, otherwise the state it stops in (a trap or a wait). -/
structure Attempt where
  ok : Bool
  st : State
deriving DecidableEq, Repr

/-- The cause with which a range-lock entry of the hart's region in its own table stops an access, 0 for none; the
hart's own strand is exempt but for weight entries, and 0x06 comes before 0x0A (R189). -/
def lockHit (s : State) (lo hi : Nat) (write : Bool) (strand : BitVec 3) : BitVec 8 :=
  let h := s.hart
  let es := s.locks.filter (fun l => l.table == hartTable h.num && l.region == h.region && meets lo hi l.lo l.hi &&
    (l.kind == .weight || !(l.hart == some h.num && l.strand == strand)))
  if es.any (fun l => l.kind == .dest || (write && l.kind != .weight)) then 0x06
  else if es.any (fun l => write && l.kind == .weight) then 0x0A
  else 0

/-- An interval rounded outwards to 64-byte lines (R188). -/
def lineLo (a : Nat) : Nat := a / 64 * 64
def lineHi (a : Nat) : Nat := (a + 63) / 64 * 64

/-- The range-lock tables have room for n more entries of the hart's own table (R188). -/
def State.lockRoom (s : State) (n : Nat) : Bool :=
  decide ((s.locks.filter (fun l => l.table == hartTable s.hart.num)).length + n ≤ Config.locks)

/-- A range-lock entry of the latest operation of the hart in focus (R188). -/
def State.lock (s : State) (lo hi : Nat) (kind : LockKind) (strand : BitVec 3) : State :=
  if lo ≥ hi then s
  else { s with locks := s.locks ++ [⟨hartTable s.hart.num, lineLo lo, lineHi hi, kind, some s.hart.num, strand,
    s.hart.region, s.hart.nextOp - 1, none⟩] }

/-- The deferred load fault is taken before this instruction, once every other result has returned (R151, R153). -/
def State.deferred (s : State) : State := s.onHart (fun h => { h with run := .parkTrap 7 h.pc h.pc 0 })

/-- Without a free scoreboard entry an instruction waits; when every entry holds a returned fault, that fault is
taken (R116). -/
def State.noEntry (s : State) : State := if s.hart.outstanding = 0 then s.deferred else s.block

/-- The reply slots a hart holds (R348): its outstanding results, a stream's fetches, and a token check. -/
def Hart.replySlots (h : Hart) : Nat :=
  h.outstanding + (h.ops.filter (fun o => match o.kind with | .streamLoad .. => true | _ => false)).length
    + (match h.run with | .token .. => 1 | _ => 0)

/-- An access leaves the hart's own slice, and so takes a reply slot (R348, log 58). -/
def State.leaves (s : State) (ea : Word) : Bool := !(gaNode ea == s.nodeId && gaCore ea == s.hart.num)

/-- Such an access waits at issue while all 64 reply slots are taken (R348). -/
def State.noSlot (s : State) (ea : Word) : Bool := s.leaves ea && decide (s.hart.replySlots ≥ 64)

/-- A scalar load at an address (R149): alignment, range locks, a scoreboard entry, then the next instruction. -/
def loadAt (ea : Word) (size : Nat) (uns : Bool) (d : BitVec 5) (sn : BitVec 3) (len : Nat) (m : Bool) (s : State) :
    State :=
  if ea.toNat % size ≠ 0 then trap 0x03 ea s
  else if lockHit s ea.toNat (ea.toNat + size) false sn ≠ 0 then
    trap (lockHit s ea.toNat (ea.toNat + size) false sn) ea s
  else if s.noSlot ea then s.block
  else if s.hart.entries ≥ Config.scoreboard then s.noEntry
  else (issueLoad sn (.load ea size uns d) s).done len m

/-- The address is one whose stores enter the combining buffer: HBM, or another node (R156). -/
def State.buffers (s : State) (ea : Word) : Bool := gaNode ea != s.nodeId || gaCore ea == hbmCore

/-- A store's target checked at issue (R149): own-node refusals and translations are precise; what a remote target
decides is left to it; a translation on its way makes the hart wait. -/
structure Checked where
  ok : Bool
  st : State
  key : Nat
deriving DecidableEq, Repr

/-- The check of one target; tr.val of a trap is the access's address, `tv`. A store to another node whose CORE names no hart
or whose OFFSET lies beyond a slice is refused there, and reported on its strand (log 59). -/
def checkStore (tv ea : Word) (s : State) : Checked :=
  let t := translate s s.hart.region s.hart.level .store ea
  let remote := gaNode ea != s.nodeId
  if t.cause = 0 then ⟨true, t.st, t.key⟩
  else if t.cause = awaitRemote then ⟨false, (s.awaitsOwn t .store ea).block, 0⟩
  else if remote && (t.reason == 8 || gaCore ea != hbmCore) then ⟨true, t.st, 0⟩
  else ⟨false, trap t.cause tv t.st, 0⟩

/-- Several targets checked in order: the first that stops decides. `tv` gives the address a trap reports, when it is not
the target's own. -/
def checkStores (tv : Option Word) : List (Word × List Byte) → State → Bool × State × List (Word × Nat × List Byte)
  | [], s => (true, s, [])
  | (ea, b) :: t, s =>
    let c := checkStore (tv.getD ea) ea s
    if c.ok then
      let (ok, s1, l) := checkStores tv t c.st
      (ok, s1, (ea, c.key, b) :: l)
    else (false, c.st, [])

/-- The byte-enable mask of a write within its line (R156). -/
def lineMask (ea : Word) (n : Nat) : BitVec 64 :=
  (List.range n).foldl (fun m i => m ||| (1#64 <<< ((ea.toNat + i) % 64))) 0

/-- A write merges into the open entry of its line and strand, or takes a new entry: an open entry of the line under
another strand closes and drains, and the strand's other entries close (R156, R158, R184). -/
def combine (id : Nat) (strand : BitVec 3) (w : Word × Nat × List Byte) (h : Hart) : Hart :=
  let line := w.1.toNat / 64
  let mask := lineMask w.1 w.2.2.length
  let open_ (e : CombEntry) : Bool := e.line == line && e.strand == strand && !e.closed
  if h.comb.any open_ then
    { h with comb := h.comb.map (fun e =>
        if open_ e then
          let mk := e.mask ||| mask
          { e with mask := mk, ops := if e.ops.contains id then e.ops else e.ops ++ [id], last := h.cycle,
                   closed := mk = BitVec.allOnes 64, draining := mk = BitVec.allOnes 64 }
        else e) }
  else
    let full := decide (mask = BitVec.allOnes 64)
    { h with comb := h.comb.map (fun e =>
        if e.line == line && e.strand != strand then { e with closed := true, draining := true }
        else if e.strand == strand then { e with closed := true } else e)
        ++ [⟨line, strand, [id], mask, full, full, h.cycle⟩] }

/-- Entries a set of writes needs beyond those it merges into. -/
def newLines (strand : BitVec 3) (ws : List (Word × Nat × List Byte)) (h : Hart) : Nat :=
  ((ws.map (fun w => w.1.toNat / 64)).eraseDups.filter
    (fun l => !h.comb.any (fun e => e.line == l && e.strand == strand && !e.closed))).length

/-- The oldest entry made to drain when the buffer is full (R156). -/
def Hart.drainOldest (h : Hart) : Hart :=
  match h.comb with
  | [] => h
  | e :: t => { h with comb := { e with closed := true, draining := true } :: t }

/-- A store issued with its checked writes: straight to its bank, or through the combining buffer, where it waits for
a free entry (R156). -/
def issueStore (ws : List (Word × Nat × List Byte)) (sn : BitVec 3) (vec : Bool) (s : State) : Attempt :=
  if !ws.isEmpty && ws.all (fun w => s.buffers w.1) then
    if newLines sn ws s.hart + s.hart.comb.length > Config.combining then
      ⟨false, (s.onHart Hart.drainOldest).block⟩
    else
      let s1 := s.onHart (fun h => h.issueRaw sn (.store ws vec true))
      ⟨true, s1.onHart (fun h => ws.foldl (fun h w => combine (h.nextOp - 1) sn w h) h)⟩
  else ⟨true, s.onHart (fun h => h.issueOp sn (.store ws vec false))⟩

/-- Bytes stored at addresses under a strand: range locks were checked; the targets are checked, then the store
issues. -/
def storeBytes (tv : Option Word) (ws : List (Word × List Byte)) (sn : BitVec 3) (vec : Bool) (s : State) : Attempt :=
  match checkStores tv ws s with
  | (true, s1, l) => issueStore l sn vec s1
  | (false, s1, _) => ⟨false, s1⟩

/-- The next instruction after an attempt that went on. -/
def Attempt.then (a : Attempt) (f : State → State) : State := if a.ok then f a.st else a.st

/-- A scalar store at an address (R149). -/
def storeAt (ea : Word) (size : Nat) (v : Word) (sn : BitVec 3) (len : Nat) (m : Bool) (s : State) : State :=
  if ea.toNat % size ≠ 0 then trap 0x03 ea s
  else if lockHit s ea.toNat (ea.toNat + size) true sn ≠ 0 then
    trap (lockHit s ea.toNat (ea.toNat + size) true sn) ea s
  else (storeBytes none [(ea, leBytes v.toNat size)] sn false s).then (fun s => s.done len m)

/-- The bytes of a blocking read under sn0 (R132, R310, R385): the hart's own earlier stores are seen, a fault traps
with its own cause, and the read is never deferred. It waits for what a load of sn0 would wait for. -/
inductive BlockRead where
  | got (b : List Byte) (st : State)
  | wait (st : State)
  | fault (cause : BitVec 8) (addr : Word) (st : State)
deriving DecidableEq, Repr

/-- A load of n bytes under sn0 that the instruction at the pc would issue now (R132, R109). -/
def Hart.loadNow (h : Hart) (ea : Word) (n : Nat) : Op :=
  let p := h.spin 0
  ⟨h.nextOp, h.pc, 0, p.issue + 1, p.gen, h.level, h.region, .load ea n true 0, none, []⟩

/-- The access record of a read by the hart in focus. -/
def State.readAccess (s : State) (key n : Nat) : Access :=
  ⟨s.nodeId, s.hart.region, s.hart.level == .M, .read, BitVec.ofNat 64 key, n, 0, 0, 0, false⟩

/-- A blocking read of bytes that lie within one line (R132): it goes its way as a load of sn0 does, with the buffer's bytes on top
(R157, R182, R184), and waits for a reply slot as it does (R348); another node's reply comes later, and the read is tried again with it. -/
def blockRead (ea : Word) (n : Nat) (s : State) : BlockRead :=
  let o := s.hart.loadNow ea n
  let f := s.hart.fwdOf o
  let fill (b : List Byte) : List Byte := fillFwd ea.toNat b f
  if !s.hart.ready o then .wait (s.onHart Hart.drainAll).block
  else if lockHit s ea.toNat (ea.toNat + n) false 0 ≠ 0 then .fault (lockHit s ea.toNat (ea.toNat + n) false 0) ea s
  else if covered o.reads f then .got (fill (List.replicate n 0)) s
  else if s.noSlot ea && (s.farOf s.hart.num .block ea).isNone then .wait s.block
  else
    let t := translate s s.hart.region s.hart.level .load ea
    let r : Reader := ⟨s.hart.num, 0, true, false⟩
    if t.cause = awaitRemote then .wait (s.awaitsOwn t .load ea).block
    else if t.cause ≠ 0 then .fault t.cause ea t.st
    else if gaNode ea = s.nodeId then
      if t.st.poisoned t.key then .wait (reportPoison s.hart.region t.key t.st).block
      else if gaCore ea = hbmCore then
        let (_, b, s1) := readLine r t.key n t.st
        .got (fill b) s1
      else .got (fill (t.st.readKey t.key n)) t.st
    else match farRead r .block ea t.key n (s.readAccess t.key n) t.st with
      | (.data d, s1) => .got (fill (bytesOfLine d t.key n)) s1
      | (.fault c _, s1) => .fault c ea s1
      | (_, s1) => .wait s1.block

/-- Consecutive dwords by blocking reads. -/
def blockReads (ea : Word) : Nat → State → BlockRead
  | 0, s => .got [] s
  | n + 1, s =>
    match blockRead ea 8 s with
    | .got b s1 =>
      match blockReads (ea + 8) n s1 with
      | .got bs s2 => .got (b ++ bs) s2
      | r => r
    | r => r

/-- A blocking read counts as one operation of sn0, performed at once (R132, R167; log 27). -/
def State.readDone (s : State) : State :=
  s.onHart (fun h =>
    let h1 := h.issueRaw 0 (.load 0 8 false 0)
    h1.perform (h1.nextOp - 1) s.now)

/-- The hart waits where it stood before its blocking reads; what it asks of other nodes, and the drains it starts, stay. -/
def State.waitAs (s st : State) : State :=
  (s.waited st).onHart (fun h => { h with run := .blocked, comb := st.hart.comb })

/-- A range of dwords by one blocking read. -/
def blockRange (ea : Word) (n : Nat) (s : State) : BlockRead :=
  match blockReads ea n s with
  | .got b st => .got b (if n = 0 then st else st.readDone)
  | .wait st => .wait (s.waitAs st)
  | .fault c a st => .fault c a st

/-- The blocking reads of an instruction that traps after them count no more (R13): sn0, but for what its STATUS reports, the operation
numbers and the time of the latest performance are as before. -/
def State.undoReads (s st : State) : State :=
  st.onHart (fun h => { h.setSpin 0 { s.hart.spin 0 with status := (h.spin 0).status } with nextOp := s.hart.nextOp, perfAt := s.hart.perfAt })

/-! ### The log of random values (R109) -/

/-- The addresses of the log entries that the next n draws take. -/
def State.logPlaces (s : State) (n : Nat) : List Word :=
  (((List.range n).map (fun i => Hart.logEntry { s.hart with logp := s.hart.logp + BitVec.ofNat 17 i })).takeWhile (·.isSome)).filterMap
    (fun e => e.map (mkGa s.nodeId s.hart.num))

/-- An instruction that draws n values stores to the log under SRC 2, and loads from it under SRC 3, as the hart does under sn0: each
entry is compared with the range locks (R189), and a load waits for what it would wait for (R182, R184). The spec does not say which
comes first where an instruction meets several causes: a locked entry traps before the conversion and before its own store
(log 57). -/
def State.logGate (n : Nat) (s : State) : Attempt :=
  let src := s.hart.srSrc.toNat
  if n = 0 || src < 2 then ⟨true, s⟩
  else
    let cause (a : Word) : BitVec 8 := lockHit s a.toNat (a.toNat + 2) (src == 2) 0
    match (s.logPlaces n).find? (fun a => cause a != 0) with
    | some a => ⟨false, trap (cause a) a s⟩
    | none =>
      if src = 3 && (s.logPlaces n).any (fun a => !s.hart.ready (s.hart.loadNow a 2)) then
        ⟨false, (s.onHart (fun h => h.drainStrand 0)).block⟩
      else ⟨true, s⟩

/-- Dword i of bytes. -/
def dwordAt (b : List Byte) (i : Nat) : Word := leWord ((b.drop (8 * i)).take 8)

end Sys2Proof.Machine
end

