-- ==== Sys2Proof/Machine/LoadStore.lean ====
section
/-! DEFINITION. Scalar loads, stores, atomics, prefetch and flush (06 Loads, stores and atomics; majors 0x20 to 0x2A),
with the compact forms of R83. Each meaning names its size and extension and calls the shared operation. -/

namespace Sys2Proof.Machine

/-- What a meaning answers. -/
abbrev Out := Host.Outcome State Fault Refusal

/-- The effective address of format C: the offset counts units of the access size (R148, R149). -/
def eaImm (s : State) (a : BitVec 5) (o : BitVec 10) (size : Nat) : Word := s.x a + sext64 o * BitVec.ofNat 64 size
/-- The effective address of the indexed forms (R148). -/
def eaIdx (s : State) (a b : BitVec 5) : Word := s.x a + s.x b

/-- ld.b (R148, R149): sign-extended. -/
def execLdB (d a : BitVec 5) (s : BitVec 3) (o : BitVec 10) (m : Bool) (st : State) : Out :=
  .next (loadAt (eaImm st a o 1) 1 false d s 4 m st)
/-- ldu.b (R148, R149): zero-extended. -/
def execLduB (d a : BitVec 5) (s : BitVec 3) (o : BitVec 10) (m : Bool) (st : State) : Out :=
  .next (loadAt (eaImm st a o 1) 1 true d s 4 m st)
/-- ld.h (R148, R149): sign-extended. -/
def execLdH (d a : BitVec 5) (s : BitVec 3) (o : BitVec 10) (m : Bool) (st : State) : Out :=
  .next (loadAt (eaImm st a o 2) 2 false d s 4 m st)
/-- ldu.h (R148, R149): zero-extended. -/
def execLduH (d a : BitVec 5) (s : BitVec 3) (o : BitVec 10) (m : Bool) (st : State) : Out :=
  .next (loadAt (eaImm st a o 2) 2 true d s 4 m st)
/-- ld.w (R148, R149): sign-extended. -/
def execLdW (d a : BitVec 5) (s : BitVec 3) (o : BitVec 10) (m : Bool) (st : State) : Out :=
  .next (loadAt (eaImm st a o 4) 4 false d s 4 m st)
/-- ldu.w (R148, R149): zero-extended. -/
def execLduW (d a : BitVec 5) (s : BitVec 3) (o : BitVec 10) (m : Bool) (st : State) : Out :=
  .next (loadAt (eaImm st a o 4) 4 true d s 4 m st)
/-- ld.d (R148, R149): sign-extended. -/
def execLdD (d a : BitVec 5) (s : BitVec 3) (o : BitVec 10) (m : Bool) (st : State) : Out :=
  .next (loadAt (eaImm st a o 8) 8 false d s 4 m st)
/-- st.b (R148, R149): d names the source. -/
def execStB (d a : BitVec 5) (s : BitVec 3) (o : BitVec 10) (m : Bool) (st : State) : Out :=
  .next (storeAt (eaImm st a o 1) 1 (st.x d) s 4 m st)
/-- st.h (R148, R149): d names the source. -/
def execStH (d a : BitVec 5) (s : BitVec 3) (o : BitVec 10) (m : Bool) (st : State) : Out :=
  .next (storeAt (eaImm st a o 2) 2 (st.x d) s 4 m st)
/-- st.w (R148, R149): d names the source. -/
def execStW (d a : BitVec 5) (s : BitVec 3) (o : BitVec 10) (m : Bool) (st : State) : Out :=
  .next (storeAt (eaImm st a o 4) 4 (st.x d) s 4 m st)
/-- st.d (R148, R149): d names the source. -/
def execStD (d a : BitVec 5) (s : BitVec 3) (o : BitVec 10) (m : Bool) (st : State) : Out :=
  .next (storeAt (eaImm st a o 8) 8 (st.x d) s 4 m st)
/-- ldx.b (R148, R149). -/
def execLdxB (d a b : BitVec 5) (s : BitVec 3) (m : Bool) (st : State) : Out :=
  .next (loadAt (eaIdx st a b) 1 false d s 4 m st)
/-- ldxu.b (R148, R149). -/
def execLdxuB (d a b : BitVec 5) (s : BitVec 3) (m : Bool) (st : State) : Out :=
  .next (loadAt (eaIdx st a b) 1 true d s 4 m st)
/-- stx.b (R148, R149): d names the source. -/
def execStxB (d a b : BitVec 5) (s : BitVec 3) (m : Bool) (st : State) : Out :=
  .next (storeAt (eaIdx st a b) 1 (st.x d) s 4 m st)
/-- ldx.h (R148, R149). -/
def execLdxH (d a b : BitVec 5) (s : BitVec 3) (m : Bool) (st : State) : Out :=
  .next (loadAt (eaIdx st a b) 2 false d s 4 m st)
/-- ldxu.h (R148, R149). -/
def execLdxuH (d a b : BitVec 5) (s : BitVec 3) (m : Bool) (st : State) : Out :=
  .next (loadAt (eaIdx st a b) 2 true d s 4 m st)
/-- stx.h (R148, R149): d names the source. -/
def execStxH (d a b : BitVec 5) (s : BitVec 3) (m : Bool) (st : State) : Out :=
  .next (storeAt (eaIdx st a b) 2 (st.x d) s 4 m st)
/-- ldx.w (R148, R149). -/
def execLdxW (d a b : BitVec 5) (s : BitVec 3) (m : Bool) (st : State) : Out :=
  .next (loadAt (eaIdx st a b) 4 false d s 4 m st)
/-- ldxu.w (R148, R149). -/
def execLdxuW (d a b : BitVec 5) (s : BitVec 3) (m : Bool) (st : State) : Out :=
  .next (loadAt (eaIdx st a b) 4 true d s 4 m st)
/-- stx.w (R148, R149): d names the source. -/
def execStxW (d a b : BitVec 5) (s : BitVec 3) (m : Bool) (st : State) : Out :=
  .next (storeAt (eaIdx st a b) 4 (st.x d) s 4 m st)
/-- ldx.d (R148, R149). -/
def execLdxD (d a b : BitVec 5) (s : BitVec 3) (m : Bool) (st : State) : Out :=
  .next (loadAt (eaIdx st a b) 8 false d s 4 m st)
/-- stx.d (R148, R149): d names the source. -/
def execStxD (d a b : BitVec 5) (s : BitVec 3) (m : Bool) (st : State) : Out :=
  .next (storeAt (eaIdx st a b) 8 (st.x d) s 4 m st)
/-- c.ld (R83): ld.d from x2 plus eight times the unsigned offset, under sn0. -/
def execCLd (d : BitVec 5) (o : BitVec 6) (st : State) : Out :=
  .next (loadAt (st.x 2 + zext64 o * 8) 8 false d 0 2 false st)
/-- c.st (R83): st.d to x2 plus eight times the unsigned offset, under sn0. -/
def execCSt (d : BitVec 5) (o : BitVec 6) (st : State) : Out :=
  .next (storeAt (st.x 2 + zext64 o * 8) 8 (st.x d) 0 2 false st)

/-- An atomic issued (R161): alignment, range locks as a store, the drain of the line's entries, a scoreboard entry;
x[b] and ox0 are read at issue. -/
def amoAt (fn : BitVec 6) (d a b : BitVec 5) (sn : BitVec 3) (m : Bool) (s : State) : State :=
  let ea := s.x a
  let size := amoSize fn
  if ea.toNat % size ≠ 0 then trap 0x03 ea s
  else if lockHit s ea.toNat (ea.toNat + size) true sn ≠ 0 then
    trap (lockHit s ea.toNat (ea.toNat + size) true sn) ea s
  else if s.noSlot ea then s.block
  else if s.hart.entries ≥ Config.scoreboard then s.noEntry
  else
    let s1 := s.onHart (fun h => (h.drainLine (ea.toNat / 64)).drainStrand sn)
    (s1.onHart (fun h => h.issueOp sn (.atomic ea fn (s.x b) (s.oxr 0) d))).done 4 m

/-- The function number of an integer atomic and of its .w form (R77). -/
def amoFn (n : BitVec 6) (w : Bool) : BitVec 6 := if w then n + 16 else n

/-- amo.add and its .w form (R161). -/
def execAmoAdd (d a b : BitVec 5) (w : Bool) (s : BitVec 3) (m : Bool) (st : State) : Out :=
  .next (amoAt (amoFn 0 w) d a b s m st)
/-- amo.and and its .w form (R161). -/
def execAmoAnd (d a b : BitVec 5) (w : Bool) (s : BitVec 3) (m : Bool) (st : State) : Out :=
  .next (amoAt (amoFn 1 w) d a b s m st)
/-- amo.or and its .w form (R161). -/
def execAmoOr (d a b : BitVec 5) (w : Bool) (s : BitVec 3) (m : Bool) (st : State) : Out :=
  .next (amoAt (amoFn 2 w) d a b s m st)
/-- amo.xor and its .w form (R161). -/
def execAmoXor (d a b : BitVec 5) (w : Bool) (s : BitVec 3) (m : Bool) (st : State) : Out :=
  .next (amoAt (amoFn 3 w) d a b s m st)
/-- amo.min and its .w form (R161). -/
def execAmoMin (d a b : BitVec 5) (w : Bool) (s : BitVec 3) (m : Bool) (st : State) : Out :=
  .next (amoAt (amoFn 4 w) d a b s m st)
/-- amo.max and its .w form (R161). -/
def execAmoMax (d a b : BitVec 5) (w : Bool) (s : BitVec 3) (m : Bool) (st : State) : Out :=
  .next (amoAt (amoFn 5 w) d a b s m st)
/-- amo.minu and its .w form (R161). -/
def execAmoMinu (d a b : BitVec 5) (w : Bool) (s : BitVec 3) (m : Bool) (st : State) : Out :=
  .next (amoAt (amoFn 6 w) d a b s m st)
/-- amo.maxu and its .w form (R161). -/
def execAmoMaxu (d a b : BitVec 5) (w : Bool) (s : BitVec 3) (m : Bool) (st : State) : Out :=
  .next (amoAt (amoFn 7 w) d a b s m st)
/-- amo.swap and its .w form (R161). -/
def execAmoSwap (d a b : BitVec 5) (w : Bool) (s : BitVec 3) (m : Bool) (st : State) : Out :=
  .next (amoAt (amoFn 8 w) d a b s m st)
/-- amo.cas and its .w form (R161). -/
def execAmoCas (d a b : BitVec 5) (w : Bool) (s : BitVec 3) (m : Bool) (st : State) : Out :=
  .next (amoAt (amoFn 9 w) d a b s m st)
/-- amo.fadd (R161). -/
def execAmoFadd (d a b : BitVec 5) (s : BitVec 3) (m : Bool) (st : State) : Out := .next (amoAt 10 d a b s m st)
/-- amo.fadd2 (R161). -/
def execAmoFadd2 (d a b : BitVec 5) (s : BitVec 3) (m : Bool) (st : State) : Out := .next (amoAt 11 d a b s m st)

/-- One page translated into the TLBs (R162): no A bit, a fault is dropped; nothing on scratchpad addresses. -/
def prefPage (a : Word) (s : State) : State :=
  let v : Via := .data s.hart.num
  if gaCore a ≠ hbmCore then s
  else if gaNode a = s.nodeId then
    let t := translateLocal s v s.hart.region s.hart.level .load false true (gaOff a)
    if t.cause = awaitRemote then reportPoison s.hart.region t.key t.st else t.st
  else match s.hart.region with
    | some r =>
      if s.reaches (gaNode a) then
        match s.tlbFind v (gaNode a) r (gaOff a) false with
        | some (_, s1) => s1
        | none => s.askFor (askOf s.hart.num (gaNode a) r s.hart.level 4 (gaOff a)) (a.extractLsb' 0 49)
      else s
    | none => s

/-- n pages of 64 KiB from an address on (R162). -/
def prefPages (a : Word) : Nat → State → State
  | 0, s => s
  | n + 1, s => prefPages (a + 0x10000) n (prefPage a s)

/-- pref (R162): n - 1 stands in the word. -/
def execPref (a n : BitVec 5) (s : BitVec 3) (m : Bool) (st : State) : Out :=
  let _ := s
  .next ((prefPages (st.x a) (n.toNat + 1) st).done 4 m)

/-- cbflush (R163): the entries of the strand, all of them when the a field is 0, otherwise those of the line. -/
def execCbflush (a : BitVec 5) (s : BitVec 3) (m : Bool) (st : State) : Out :=
  .next ((st.onHart (fun h =>
    if a = 0 then h.drainStrand s
    else { h with comb := h.comb.map (fun e =>
      if e.strand == s && e.line == (st.x a).toNat / 64 then { e with closed := true, draining := true } else e) })).done 4 m)

end Sys2Proof.Machine
end

