-- ==== Sys2Proof/Machine/Scalar.lean ====
section
/-! DEFINITION. Integer instructions, immediates, constants and addresses (05, R119 to R127), with the compact
arithmetic of R83. None of them traps, none touches memory or a strand. -/

namespace Sys2Proof.Machine

/-- Sign extension of the low 32 bits (R119, W). -/
def w32 (v : Word) : Word := (v.setWidth 32).signExtend 64
/-- The .w form of a result when it is selected (R78). -/
def wForm (w : Bool) (full low : Word) : Word := if w then w32 low else full
/-- 1 for a condition that holds, else 0. -/
def flag (c : Bool) : Word := if c then 1 else 0

/-- A register-to-register instruction: x[d] from x[a] and x[b], then the next instruction. -/
def binop (f : Word → Word → Word) (d a b : BitVec 5) (m : Bool) (s : State) : State :=
  (s.setX d (f (s.x a) (s.x b))).done 4 m
/-- An instruction with one source. -/
def unop (f : Word → Word) (d a : BitVec 5) (m : Bool) (s : State) : State := (s.setX d (f (s.x a))).done 4 m

/-- Shift amounts: the low 6 bits, or the low 5 in the .w form (R119). -/
def shAmt (w : Bool) (b : Word) : Nat := if w then b.toNat % 32 else b.toNat % 64

def aluAdd (w : Bool) (a b : Word) : Word := wForm w (a + b) (a + b)
def aluSub (w : Bool) (a b : Word) : Word := wForm w (a - b) (a - b)
def aluSll (w : Bool) (a b : Word) : Word := wForm w (a <<< shAmt false b) (a <<< shAmt true b)
def aluSrl (w : Bool) (a b : Word) : Word :=
  wForm w (a >>> shAmt false b) ((a &&& 0xFFFFFFFF#64) >>> shAmt true b)
def aluSra (w : Bool) (a b : Word) : Word := wForm w (a.sshiftRight (shAmt false b)) ((w32 a).sshiftRight (shAmt true b))
def aluRotl (w : Bool) (a b : Word) : Word :=
  wForm w (a.rotateLeft (shAmt false b)) (((a.setWidth 32).rotateLeft (shAmt true b)).setWidth 64)
def aluRotr (w : Bool) (a b : Word) : Word :=
  wForm w (a.rotateLeft ((64 - shAmt false b) % 64)) (((a.setWidth 32).rotateLeft ((32 - shAmt true b) % 32)).setWidth 64)
def aluMul (w : Bool) (a b : Word) : Word := wForm w (a * b) (a * b)
/-- floor(S(a) × S(b) / 2^64) (R119). -/
def aluMulh (a b : Word) : Word := BitVec.ofInt 64 (Int.fdiv (a.toInt * b.toInt) (2 ^ 64))
/-- floor(a × b / 2^64), unsigned (R119). -/
def aluMulhu (a b : Word) : Word := BitVec.ofNat 64 (a.toNat * b.toNat / 2 ^ 64)

/-- Division truncates towards zero; divisor 0 gives all ones; the quotient of the least value by -1 is the least
value (R120). -/
def divS {n : Nat} (a b : BitVec n) : BitVec n := if b = 0 then BitVec.allOnes n else BitVec.ofInt n (a.toInt.tdiv b.toInt)
def divU {n : Nat} (a b : BitVec n) : BitVec n := if b = 0 then BitVec.allOnes n else BitVec.ofNat n (a.toNat / b.toNat)
/-- The remainder has the sign of the dividend; divisor 0 gives the dividend (R120). -/
def remS {n : Nat} (a b : BitVec n) : BitVec n := if b = 0 then a else BitVec.ofInt n (a.toInt.tmod b.toInt)
def remU {n : Nat} (a b : BitVec n) : BitVec n := if b = 0 then a else BitVec.ofNat n (a.toNat % b.toNat)
/-- A division and its .w form on the low 32 bits (R120). -/
def aluDiv (f : {n : Nat} → BitVec n → BitVec n → BitVec n) (w : Bool) (a b : Word) : Word :=
  if w then (f (a.setWidth 32) (b.setWidth 32)).signExtend 64 else f a b

/-- Leading zero bits of an n-bit value. -/
def clzBits (v : Nat) (n : Nat) : Nat := if v = 0 then n else n - 1 - Nat.log2 v
/-- Trailing zero bits, n for zero. -/
def ctzBits (v : Nat) : Nat → Nat
  | 0 => 0
  | n + 1 => if v % 2 = 1 then 0 else 1 + ctzBits (v / 2) n
/-- One bits among the low n. -/
def popBits (v : Nat) : Nat → Nat
  | 0 => 0
  | n + 1 => v % 2 + popBits (v / 2) n
def aluClz (w : Bool) (a : Word) : Word :=
  BitVec.ofNat 64 (if w then clzBits (a.toNat % 2 ^ 32) 32 else clzBits a.toNat 64)
def aluCtz (w : Bool) (a : Word) : Word :=
  BitVec.ofNat 64 (if w then ctzBits (a.toNat % 2 ^ 32) 32 else ctzBits a.toNat 64)
def aluPopc (w : Bool) (a : Word) : Word :=
  BitVec.ofNat 64 (if w then popBits (a.toNat % 2 ^ 32) 32 else popBits a.toNat 64)

/-- sext: the source size by its code (R78, R119). -/
def aluSext (c : BitVec 3) (a : Word) : Word :=
  match c.toNat with
  | 0 => (a.setWidth 8).signExtend 64
  | 1 => (a.setWidth 16).signExtend 64
  | _ => (a.setWidth 32).signExtend 64
/-- zext: the source size by its code (R78, R119). -/
def aluZext (c : BitVec 3) (a : Word) : Word :=
  match c.toNat with
  | 0 => (a.setWidth 8).setWidth 64
  | 1 => (a.setWidth 16).setWidth 64
  | _ => (a.setWidth 32).setWidth 64

/-- The condition of sel on the old x[d], against zero, signed (R78, R121). -/
def selCond (c : BitVec 3) (v : Word) : Bool :=
  match c.toNat with
  | 0 => v == 0
  | 1 => v != 0
  | 2 => decide (v.toInt < 0)
  | 3 => decide (v.toInt ≥ 0)
  | 4 => decide (v.toInt > 0)
  | _ => decide (v.toInt ≤ 0)

/-- POS and WIDTH of ox0 (R122). -/
def fieldPos (ox : Word) : Nat := ox.toNat % 64
def fieldWidth (ox : Word) : Nat := min (bitsOf ox 8 7) 64
/-- The low n bits set. -/
def lowMask (n : Nat) : Word := BitVec.ofNat 64 (2 ^ n - 1)
/-- bext (R122). -/
def aluBext (ox a : Word) : Word := (a >>> fieldPos ox) &&& lowMask (fieldWidth ox)
/-- bins (R122). -/
def aluBins (ox old a : Word) : Word :=
  let k := lowMask (fieldWidth ox) <<< fieldPos ox
  (old &&& ~~~k) ||| ((a <<< fieldPos ox) &&& k)

/-- add, add.w (R119). -/
def execAdd (d a b : BitVec 5) (w m : Bool) (s : State) : Out :=
  .next (binop (aluAdd w) d a b m s)
/-- sub, sub.w (R119). -/
def execSub (d a b : BitVec 5) (w m : Bool) (s : State) : Out :=
  .next (binop (aluSub w) d a b m s)
/-- and (R119). -/
def execAnd (d a b : BitVec 5) (m : Bool) (s : State) : Out :=
  .next (binop (fun a b => a &&& b) d a b m s)
/-- or (R119). -/
def execOr (d a b : BitVec 5) (m : Bool) (s : State) : Out :=
  .next (binop (fun a b => a ||| b) d a b m s)
/-- xor (R119). -/
def execXor (d a b : BitVec 5) (m : Bool) (s : State) : Out :=
  .next (binop (fun a b => a ^^^ b) d a b m s)
/-- sll, sll.w (R119). -/
def execSll (d a b : BitVec 5) (w m : Bool) (s : State) : Out :=
  .next (binop (aluSll w) d a b m s)
/-- srl, srl.w (R119). -/
def execSrl (d a b : BitVec 5) (w m : Bool) (s : State) : Out :=
  .next (binop (aluSrl w) d a b m s)
/-- sra, sra.w (R119). -/
def execSra (d a b : BitVec 5) (w m : Bool) (s : State) : Out :=
  .next (binop (aluSra w) d a b m s)
/-- slt (R119). -/
def execSlt (d a b : BitVec 5) (m : Bool) (s : State) : Out :=
  .next (binop (fun a b => flag (a.slt b)) d a b m s)
/-- sltu (R119). -/
def execSltu (d a b : BitVec 5) (m : Bool) (s : State) : Out :=
  .next (binop (fun a b => flag (a.ult b)) d a b m s)
/-- min, signed (R119). -/
def execMin (d a b : BitVec 5) (m : Bool) (s : State) : Out :=
  .next (binop (fun a b => if b.slt a then b else a) d a b m s)
/-- max, signed (R119). -/
def execMax (d a b : BitVec 5) (m : Bool) (s : State) : Out :=
  .next (binop (fun a b => if a.slt b then b else a) d a b m s)
/-- minu (R119). -/
def execMinu (d a b : BitVec 5) (m : Bool) (s : State) : Out :=
  .next (binop (fun a b => if b.ult a then b else a) d a b m s)
/-- maxu (R119). -/
def execMaxu (d a b : BitVec 5) (m : Bool) (s : State) : Out :=
  .next (binop (fun a b => if a.ult b then b else a) d a b m s)
/-- rotl, rotl.w (R119). -/
def execRotl (d a b : BitVec 5) (w m : Bool) (s : State) : Out :=
  .next (binop (aluRotl w) d a b m s)
/-- rotr, rotr.w (R119). -/
def execRotr (d a b : BitVec 5) (w m : Bool) (s : State) : Out :=
  .next (binop (aluRotr w) d a b m s)
/-- mul, mul.w (R119). -/
def execMul (d a b : BitVec 5) (w m : Bool) (s : State) : Out :=
  .next (binop (aluMul w) d a b m s)
/-- mulh (R119). -/
def execMulh (d a b : BitVec 5) (m : Bool) (s : State) : Out :=
  .next (binop (aluMulh) d a b m s)
/-- mulhu (R119). -/
def execMulhu (d a b : BitVec 5) (m : Bool) (s : State) : Out :=
  .next (binop (aluMulhu) d a b m s)
/-- div, div.w (R120). -/
def execDiv (d a b : BitVec 5) (w m : Bool) (s : State) : Out :=
  .next (binop (aluDiv divS w) d a b m s)
/-- divu, divu.w (R120). -/
def execDivu (d a b : BitVec 5) (w m : Bool) (s : State) : Out :=
  .next (binop (aluDiv divU w) d a b m s)
/-- rem, rem.w (R120). -/
def execRem (d a b : BitVec 5) (w m : Bool) (s : State) : Out :=
  .next (binop (aluDiv remS w) d a b m s)
/-- remu, remu.w (R120). -/
def execRemu (d a b : BitVec 5) (w m : Bool) (s : State) : Out :=
  .next (binop (aluDiv remU w) d a b m s)
/-- sel: the old x[d] is tested (R121). -/
def execSel (d a b : BitVec 5) (c : BitVec 3) (m : Bool) (s : State) : Out :=
  .next ((s.setX d (if selCond c (s.x d) then s.x a else s.x b)).done 4 m)
/-- clz and its .w form (R119). -/
def execClz (d a : BitVec 5) (w m : Bool) (s : State) : Out :=
  .next (unop (aluClz w) d a m s)
/-- ctz and its .w form (R119). -/
def execCtz (d a : BitVec 5) (w m : Bool) (s : State) : Out :=
  .next (unop (aluCtz w) d a m s)
/-- popc and its .w form (R119). -/
def execPopc (d a : BitVec 5) (w m : Bool) (s : State) : Out :=
  .next (unop (aluPopc w) d a m s)
/-- sext (R119). -/
def execSext (d a : BitVec 5) (c : BitVec 3) (m : Bool) (s : State) : Out :=
  .next (unop (aluSext c) d a m s)
/-- zext (R119). -/
def execZext (d a : BitVec 5) (c : BitVec 3) (m : Bool) (s : State) : Out :=
  .next (unop (aluZext c) d a m s)
/-- bext: a field of x[a], placed by ox0 (R122). -/
def execBext (d a : BitVec 5) (m : Bool) (s : State) : Out :=
  .next (unop (aluBext (s.oxr 0)) d a m s)
/-- bins: a field of x[d] replaced, placed by ox0 (R122). -/
def execBins (d a : BitVec 5) (m : Bool) (s : State) : Out :=
  .next ((s.setX d (aluBins (s.oxr 0) (s.x d) (s.x a))).done 4 m)
/-- lea (R119). -/
def execLea (d a b : BitVec 5) (l : BitVec 3) (m : Bool) (s : State) : Out :=
  .next (binop (fun a b => a + (b <<< l.toNat)) d a b m s)
/-- addi (R124): the immediate is sign-extended. -/
def execAddi (d a : BitVec 5) (i : BitVec 14) (m : Bool) (s : State) : Out :=
  .next (unop (fun a => a + sext64 i) d a m s)
/-- andi (R124): the immediate is sign-extended. -/
def execAndi (d a : BitVec 5) (i : BitVec 14) (m : Bool) (s : State) : Out :=
  .next (unop (fun a => a &&& sext64 i) d a m s)
/-- ori (R124): the immediate is sign-extended. -/
def execOri (d a : BitVec 5) (i : BitVec 14) (m : Bool) (s : State) : Out :=
  .next (unop (fun a => a ||| sext64 i) d a m s)
/-- xori (R124): the immediate is sign-extended. -/
def execXori (d a : BitVec 5) (i : BitVec 14) (m : Bool) (s : State) : Out :=
  .next (unop (fun a => a ^^^ sext64 i) d a m s)
/-- slti (R124): the immediate is sign-extended. -/
def execSlti (d a : BitVec 5) (i : BitVec 14) (m : Bool) (s : State) : Out :=
  .next (unop (fun a => flag (a.slt (sext64 i))) d a m s)
/-- sltiu (R124): the immediate is sign-extended. -/
def execSltiu (d a : BitVec 5) (i : BitVec 14) (m : Bool) (s : State) : Out :=
  .next (unop (fun a => flag (a.ult (sext64 i))) d a m s)
/-- slli (R125). -/
def execSlli (d a : BitVec 5) (h : BitVec 6) (m : Bool) (s : State) : Out :=
  .next (unop (fun a => a <<< h.toNat) d a m s)
/-- srli (R125). -/
def execSrli (d a : BitVec 5) (h : BitVec 6) (m : Bool) (s : State) : Out :=
  .next (unop (fun a => a >>> h.toNat) d a m s)
/-- srai (R125). -/
def execSrai (d a : BitVec 5) (h : BitVec 6) (m : Bool) (s : State) : Out :=
  .next (unop (fun a => a.sshiftRight h.toNat) d a m s)
/-- li (R126). -/
def execLi (d : BitVec 5) (i : BitVec 19) (m : Bool) (s : State) : Out :=
  .next ((s.setX d (sext64 i)).done 4 m)
/-- lsh: the immediate enters below the old value (R126). -/
def execLsh (d : BitVec 5) (i : BitVec 19) (m : Bool) (s : State) : Out :=
  .next ((s.setX d ((s.x d <<< 19) ||| zext64 i)).done 4 m)
/-- pcrel: relative to this instruction (R126). -/
def execPcrel (d : BitVec 5) (i : BitVec 19) (m : Bool) (s : State) : Out :=
  .next ((s.setX d (s.hart.pc + (sext64 i <<< 1))).done 4 m)
/-- A global address composed from an id.hart value and an offset (R127). -/
def composeGa (a b : Word) : Word :=
  (((a >>> 16) &&& 0xF#64) <<< 60) ||| ((a &&& 0x7FF#64) <<< 49) ||| (b &&& 0x1FFFFFFFFFFFF#64)
/-- gadr (R127). -/
def execGadr (d a b : BitVec 5) (m : Bool) (s : State) : Out :=
  .next (binop composeGa d a b m s)

/-- A compact instruction writes x[d] and the next halfword follows (R83, R137). -/
def compactX (d : BitVec 5) (v : Word) (s : State) : State := (s.setX d v).done 2 false
/-- c.mov (R83). -/
def execCMov (d a : BitVec 5) (s : State) : Out :=
  .next (compactX d (s.x a) s)
/-- c.li (R83). -/
def execCLi (d : BitVec 5) (i : BitVec 6) (s : State) : Out :=
  .next (compactX d (sext64 i) s)
/-- c.addi (R83). -/
def execCAddi (d : BitVec 5) (i : BitVec 6) (s : State) : Out :=
  .next (compactX d (s.x d + sext64 i) s)
/-- c.add (R83). -/
def execCAdd (d a : BitVec 5) (s : State) : Out :=
  .next (compactX d (s.x d + s.x a) s)
/-- c.sub (R83). -/
def execCSub (d a : BitVec 5) (s : State) : Out :=
  .next (compactX d (s.x d - s.x a) s)
/-- c.and (R83). -/
def execCAnd (d a : BitVec 5) (s : State) : Out :=
  .next (compactX d (s.x d &&& s.x a) s)
/-- c.or (R83). -/
def execCOr (d a : BitVec 5) (s : State) : Out :=
  .next (compactX d (s.x d ||| s.x a) s)
/-- c.nop (R83). -/
def execCNop (s : State) : Out := .next (s.done 2 false)
/-- c.mark: parks, and performs nothing else (R68, R83). -/
def execCMark (s : State) : Out := .next (s.done 2 true)

end Sys2Proof.Machine
end

