-- ==== Sys2Proof/Machine/Control.lean ====
section
/-! DEFINITION. Branches, jumps, landing pads, operand-extension moves and the time instructions (05, R128 to R137);
fetching an instruction (R62, R63). -/

namespace Sys2Proof.Machine

/-! ### Fetching -/

/-- How a fetch ends: an instruction with its length and bits, a word that is none, or a fault at a halfword. -/
inductive Fetched where
  | got (i : Instr) (len : Nat) (bits : Word) (st : State)
  | illegal (bits : Word) (st : State)
  | fault (cause : BitVec 8) (addr : Word) (st : State)
  | wait (st : State)
deriving DecidableEq, Repr

/-- One halfword of text (R63): translated as a fetch, each halfword by itself, since an instruction may straddle a
page. -/
def fetchHalf (a : Word) (s : State) : Trans := translate s s.hart.region s.hart.level .fetch a

/-- What the bits of an instruction, its first halfword lowest, stand for (R62). -/
def decoded (w : Nat) (s : State) : Fetched :=
  if isLong (BitVec.ofNat 16 w) then
    match decodeWord (BitVec.ofNat 32 w) with
    | .ok i => .got i 4 (BitVec.ofNat 64 w) s
    | .error _ => .illegal (BitVec.ofNat 64 w) s
  else
    match decodeHalf (BitVec.ofNat 16 w) with
    | .ok i => .got i 2 (BitVec.ofNat 64 (w % 65536)) s
    | .error _ => .illegal (BitVec.ofNat 64 (w % 65536)) s

/-- How the bits of one halfword come: in hand, refused, or on their way. -/
inductive HalfText where
  | bits (h : Nat) (st : State)
  | fault (cause : BitVec 8) (st : State)
  | wait (st : State)
deriving DecidableEq, Repr

/-- A way to read the text of another node, whose place is found: at this module's own fetches by a read of its line. -/
abbrev FarText := Word → Nat → State → FarGot × State

/-- The text of another node, read line by line (R146, R147, log 25). -/
def farText (a : Word) (key : Nat) (s : State) : FarGot × State :=
  farRead ⟨s.hart.num, 0, false, true⟩ .text a key 2 (s.readAccess key 2) s

/-- One halfword of text under a way to translate and a way to read other nodes (R62, R63). -/
def halfVia (tr : Word → State → Trans) (far : FarText) (a : Word) (s : State) : HalfText :=
  let t := tr a s
  if t.cause = awaitRemote then .wait (s.awaitsOwn t .fetch a)
  else if t.cause ≠ 0 then .fault t.cause t.st
  else if gaNode a ≠ s.nodeId then
    match far a t.key t.st with
    | (.data d, s1) => .bits (leNat (bytesOfLine d t.key 2)) s1
    | (.fault c _, s1) => .fault c s1
    | (_, s1) => .wait s1
  else if t.st.poisoned t.key then .wait (reportPoison s.hart.region t.key t.st)
  else .bits (leNat (t.st.readKey t.key 2)) t.st

/-- The instruction at an address (R62, R63): both halfwords are in hand before anything is decoded; a fault names its
halfword. -/
def fetchVia (tr : Word → State → Trans) (far : FarText) (a : Word) (s : State) : Fetched :=
  match halfVia tr far a s with
  | .wait st => .wait st
  | .fault c st => .fault c a st
  | .bits h0 st =>
    if isLong (BitVec.ofNat 16 h0) then
      match halfVia tr far (a + 2) st with
      | .wait u => .wait u
      | .fault c u => .fault c (a + 2) u
      | .bits h1 u => decoded (h0 + 65536 * h1) u
    else decoded h0 st

/-- The instruction at an address. -/
def fetchAt (a : Word) (s : State) : Fetched := fetchVia fetchHalf farText a s

/-! ### Branches and direct jumps -/

/-- A conditional branch (R128): the offset counts halfwords from the branch. -/
def branch (c : Word → Word → Bool) (a b : BitVec 5) (o : BitVec 14) (m : Bool) (s : State) : State :=
  if c (s.x a) (s.x b) then s.jump (s.hart.pc + (sext64 o <<< 1)) m else s.done 4 m

/-- beq (R128). -/
def execBeq (a b : BitVec 5) (o : BitVec 14) (m : Bool) (s : State) : Out := .next (branch (fun x y => x == y) a b o m s)
/-- bne (R128). -/
def execBne (a b : BitVec 5) (o : BitVec 14) (m : Bool) (s : State) : Out := .next (branch (fun x y => x != y) a b o m s)
/-- blt, signed (R128). -/
def execBlt (a b : BitVec 5) (o : BitVec 14) (m : Bool) (s : State) : Out := .next (branch (fun x y => x.slt y) a b o m s)
/-- bge, signed (R128). -/
def execBge (a b : BitVec 5) (o : BitVec 14) (m : Bool) (s : State) : Out := .next (branch (fun x y => !x.slt y) a b o m s)
/-- bltu (R128). -/
def execBltu (a b : BitVec 5) (o : BitVec 14) (m : Bool) (s : State) : Out := .next (branch (fun x y => x.ult y) a b o m s)
/-- bgeu (R128). -/
def execBgeu (a b : BitVec 5) (o : BitVec 14) (m : Bool) (s : State) : Out := .next (branch (fun x y => !x.ult y) a b o m s)
/-- jmp (R129). -/
def execJmp (o : BitVec 24) (m : Bool) (s : State) : Out := .next (s.jump (s.hart.pc + (sext64 o <<< 1)) m)
/-- call: the link goes to x1 (R129). -/
def execCall (o : BitVec 24) (m : Bool) (s : State) : Out :=
  .next ((s.setX 1 (s.hart.pc + 4)).jump (s.hart.pc + (sext64 o <<< 1)) m)

/-! ### Indirect jumps (R130, R131) -/

/-- How Land ends (R131): the target holds the pad, it stops with a cause, or its text is on its way. -/
inductive Landed where
  | pad (st : State)
  | stop (cause : BitVec 8) (st : State)
  | wait (st : State)
deriving DecidableEq, Repr

/-- Land (R131): the target must be even and hold an lpad with the label. -/
def landing (t : Word) (label : BitVec 16) (s : State) : Landed :=
  if t.getLsbD 0 then .stop 0x03 s
  else match fetchAt t s with
    | .wait st => .wait st
    | .fault c _ st => .stop c st
    | .got (.lpad l _) _ _ st => if l = label then .pad st else .stop 0x09 st
    | .got _ _ _ st | .illegal _ st => .stop 0x09 st

/-- An indirect jump to its pad: only then is the link written and the pc set; `before` is what the instruction did on the
way, undone by a trap (R13, R131) and by a wait. -/
def land (t : Word) (label : BitVec 16) (link m : Bool) (before : State → State) (s0 s : State) : State :=
  match landing t label s with
  | .pad st => let s1 := before st; (if link then s1.setX 1 (s1.hart.pc + 4) else s1).jump t m
  | .stop c st => trap c t st
  | .wait st => s0.waitAs st

/-- A return goes to the register's value; an odd value traps (R64, R131). -/
def returnTo (t : Word) (m : Bool) (s : State) : State := if t.getLsbD 0 then trap 0x03 t s else s.jump t m

/-- ret (R131). -/
def execRet (a : BitVec 5) (m : Bool) (s : State) : Out := .next (returnTo (s.x a) m s)

/-- jt and jtc: label and count from ox0, a blocking load of the table entry, then Land (R131, R132). The read takes its
number on sn0 when the jump completes; a trap in Land undoes it (R13, log 27). -/
def jumpTable (a b : BitVec 5) (link m : Bool) (s : State) : State :=
  let ox := s.oxr 0
  if (s.x b).toNat ≥ bitsOf ox 32 16 then trap 0x08 (s.x b) s
  else if (s.x a).toNat % 4 ≠ 0 then trap 0x03 (s.x a) s
  else match blockRead (s.x a + 4 * s.x b) 4 s with
    | .wait st => st
    | .fault c addr st => trap c addr st
    | .got e st => land (s.x a + sext64 (BitVec.ofNat 32 (leNat e))) (ox.extractLsb' 0 16) link m State.readDone s st

/-- jt (R131). -/
def execJt (a b : BitVec 5) (m : Bool) (s : State) : Out := .next (jumpTable a b false m s)
/-- jtc: with link (R131). -/
def execJtc (a b : BitVec 5) (m : Bool) (s : State) : Out := .next (jumpTable a b true m s)
/-- callr (R131). -/
def execCallr (a : BitVec 5) (m : Bool) (s : State) : Out :=
  .next (land (s.x a) ((s.oxr 0).extractLsb' 0 16) true m id s s)
/-- lpad has no effect when executed (R130). -/
def execLpad (l : BitVec 16) (m : Bool) (s : State) : Out :=
  let _ := l
  .next (s.done 4 m)

/-- c.bz and c.bnz (R83). -/
def compactBranch (c : Bool) (o : BitVec 6) (s : State) : State :=
  if c then s.jump (s.hart.pc + (sext64 o <<< 1)) false else s.done 2 false
/-- c.bz (R83). -/
def execCBz (d : BitVec 5) (o : BitVec 6) (s : State) : Out := .next (compactBranch (s.x d == 0) o s)
/-- c.bnz (R83). -/
def execCBnz (d : BitVec 5) (o : BitVec 6) (s : State) : Out := .next (compactBranch (s.x d != 0) o s)
/-- c.jmp (R83). -/
def execCJmp (o : BitVec 11) (s : State) : Out := .next (s.jump (s.hart.pc + (sext64 o <<< 1)) false)
/-- c.ret (R83, R137). -/
def execCRet (s : State) : Out := .next (returnTo (s.x 1) false s)

/-! ### Operand-extension moves (R133) -/

/-- oxmv (R133). -/
def execOxmv (a : BitVec 5) (n : BitVec 3) (m : Bool) (s : State) : Out := .next ((s.setOx n (s.x a)).done 4 m)
/-- oxrd (R133). -/
def execOxrd (d : BitVec 5) (n : BitVec 3) (m : Bool) (s : State) : Out := .next ((s.setX d (s.oxr n)).done 4 m)
/-- oxli (R133). -/
def execOxli (a : BitVec 5) (n : BitVec 3) (i : BitVec 14) (m : Bool) (s : State) : Out :=
  .next ((s.setOx n (s.x a + sext64 i)).done 4 m)

/-! ### Time (R134 to R136) -/

/-- A wait until a deadline: past deadlines complete at once with `v`, others leave the hart waiting, its pc at the
wait (R134). -/
def waitUntil (kind : BitVec 2) (deadline : Word) (d : BitVec 5) (v : Word) (m : Bool) (s : State) : State :=
  if deadline.toNat ≤ s.now.toNat then (s.setX d v).done 4 m
  else s.onHart (fun h => { h with run := .timed kind deadline d m, idleSince := s.now })

/-- The deadline of a relative wait (R134). -/
def relDeadline (s : State) (v : Word) : Word := s.now + BitVec.ofNat 64 (min v.toNat Config.maxWait)

/-- twait (R134). -/
def execTwait (d a : BitVec 5) (m : Bool) (s : State) : Out := .next (waitUntil 0 (relDeadline s (s.x a)) d s.now m s)
/-- sleep: x[d] := 0 when the deadline was reached (R134, R136). -/
def execSleep (d a : BitVec 5) (m : Bool) (s : State) : Out := .next (waitUntil 1 (relDeadline s (s.x a)) d 0 m s)
/-- tsnow (R134). -/
def execTsnow (d : BitVec 5) (m : Bool) (s : State) : Out := .next ((s.setX d s.now).done 4 m)
/-- tsat: an absolute target, cut to 1,048,576 ns ahead (R134). -/
def execTsat (d a : BitVec 5) (m : Bool) (s : State) : Out :=
  .next (waitUntil 2 (BitVec.ofNat 64 (min (s.x a).toNat (s.now.toNat + Config.maxWait))) d s.now m s)

end Sys2Proof.Machine
end

