-- ==== Sys2Proof/Machine/VectorMem.lean ====
section
/-! DEFINITION. Vector loads and stores (R205 to R209), streams (R210 to R215) and the block instructions
(R226 to R230). -/

namespace Sys2Proof.Machine

/-! ### Streams: what a vector instruction consumes and produces -/

/-- The binding of a vector register, none below v24 (R210). -/
def Hart.bound (h : Hart) (r : BitVec 5) : Option Binding := if r.toNat < 24 then none else h.bind (r.setWidth 3)
/-- The binding of a register replaced. -/
def Hart.setBound (h : Hart) (r : BitVec 5) (b : Option Binding) : Hart := h.setBind (r.setWidth 3) b

/-- Registers of a stream (R211). -/
def Binding.count (b : Binding) : Nat := b.n0.toNat * b.n1.toNat
/-- The address of register j (R211). -/
def Binding.addr (b : Binding) (j : Nat) : Word :=
  b.base + BitVec.ofNat 64 (j % b.n0.toNat) * b.stride0 + BitVec.ofNat 64 (j / b.n0.toNat) * b.stride1

/-- What reading a register does to its stream (R212): nothing to consume, the fetched register with its flags, a fetch that
is still on its way, a misuse, or the cause the fetch met. -/
inductive StreamRead where
  | plain
  | data (v : VReg) (flags : BitVec 5)
  | absent
  | misuse
  | fault (cause : BitVec 8) (addr : Word)
deriving DecidableEq, Repr

/-- The next register of a read stream. -/
def Binding.next (b : Binding) : StreamRead :=
  if b.write || b.pos ≥ b.count then .misuse
  else match b.ready.find? (fun p => p.1 == b.pos) with
    | none => .absent
    | some (_, v, fl, c) => if c = 0 then .data v fl else .fault c (b.addr b.pos)

/-- What a register's stream has for the instruction that reads it. -/
def Hart.streamNext (h : Hart) (r : BitVec 5) : StreamRead :=
  match h.bound r with
  | none => .plain
  | some b => b.next

/-- The faulted register is fetched again when the instruction executes again (R212); the later ones that have arrived or are on
their way stay. -/
def Binding.again (b : Binding) : Binding :=
  { b with fetched := b.pos, ready := b.ready.filter (fun p => p.1 != b.pos) }
/-- The next register is taken. -/
def Binding.advance (b : Binding) : Binding :=
  { b with pos := b.pos + 1, ready := b.ready.filter (fun p => p.1 != b.pos) }

/-- A register's binding changed. -/
def Hart.onBound (h : Hart) (r : BitVec 5) (f : Binding → Binding) : Hart :=
  match h.bound r with
  | some b => h.setBound r (some (f b))
  | none => h

/-- The registers read, tested in order: the first that stops the instruction leaves every stream where it was (R13,
R212). -/
def streamsReady : List (BitVec 5) → State → Attempt
  | [], s => ⟨true, s⟩
  | r :: t, s =>
    match s.hart.streamNext r with
    | .plain | .data .. => streamsReady t s
    | .absent => ⟨false, s.block⟩
    | .misuse => ⟨false, trap 0x0E (zext64 r) s⟩
    | .fault c a => ⟨false, trap c a (s.onHart (fun h => h.onBound r Binding.again))⟩

/-- One register consumed: its data becomes the register's value, with the flags of its decoding (R96, R102, R212). -/
def takeStream (h : Hart) (r : BitVec 5) : Hart :=
  match h.streamNext r with
  | .data v fl => { (h.wv r v).onBound r Binding.advance with fxFlags := h.fxFlags ||| fl }
  | _ => h

/-- Several registers read: one register of each stream is consumed, however often it is named; none when one of them stops
the instruction (R212). -/
def consumeAll (rs : List (BitVec 5)) (s : State) : Attempt :=
  let a := streamsReady rs s
  if a.ok then ⟨true, s.onHart (fun h => rs.eraseDups.foldl takeStream h)⟩ else a

/-- A register that an instruction may not write: read-bound, or past its write stream's end (R212). -/
def Hart.writeMisuse (h : Hart) (r : BitVec 5) : Bool :=
  match h.bound r with
  | some b => !b.write || decide (b.pos ≥ b.count)
  | none => false

/-- The last element of a stream register's access lies at or beyond its bank's capacity (R205, R211). -/
def Binding.beyond (b : Binding) : Bool :=
  b.fmt != 0 && decide (bitsOf (b.addr b.pos) 0 15 + (if isBlockCode b.fmt then 16 else codeElems b.fmt) > codeCapacity b.fmt)

/-- The elements of a stream register that a masked write stores, among `n` of them (R198, R212): an element is active when a
lane of its bits is (log 17). -/
def activeElems (active : List Bool) (n : Nat) : List Bool :=
  let per := max 1 (active.length / n)
  let wide := max 1 (n / active.length)
  (List.range n).map (fun i => ((active.drop (i / wide * per)).take per).any id)

/-- The pieces a write stream's store has: whole, or the active parts of its register (R212). -/
def streamPieces (fmt : BitVec 4) (place : Word) (active : List Bool) (bytes : List Byte) : List (Word × List Byte) :=
  if active.all id then [(place, bytes)]
  else
    let narrow := fmt == 3 || fmt == 4 || fmt == 5
    let n := if narrow then 16 else active.length
    let per := bytes.length / n
    (activeElems active n).zipIdx.filterMap (fun p =>
      if p.1 then some (place + BitVec.ofNat 64 (per * p.2), (bytes.drop (per * p.2)).take per) else none)

/-- What a write stream's next store must pass at the instruction that writes its register (R149, R189, R205, R212): the capacity,
the range locks, the target of each piece. -/
def produceCheck (r : BitVec 5) (active : List Bool) (s : State) : Attempt :=
  match s.hart.bound r with
  | none => ⟨true, s⟩
  | some b =>
    if s.hart.writeMisuse r then ⟨false, trap 0x0E (zext64 r) s⟩
    else
      let ea := b.addr b.pos
      let place := vecPlace b.fmt ea
      let lock := lockHit s place.toNat (place.toNat + codeBytes b.fmt) true b.strand
      if b.beyond then ⟨false, trap 0x05 ea s⟩
      else if lock ≠ 0 then ⟨false, trap lock ea s⟩
      else
        let (ok, s1, _) := checkStores (some ea) (streamPieces b.fmt place active (List.replicate (codeBytes b.fmt) 0)) s
        ⟨ok, s1⟩

/-- Several registers' stores checked in order: those that the results of a load into them will issue (R212, log 17). -/
def produceChecks (active : List Bool) : List (BitVec 5) → State → Attempt
  | [], s => ⟨true, s⟩
  | r :: t, s => if (produceCheck r active s).ok then produceChecks active t (produceCheck r active s).st else produceCheck r active s

/-- One register put out by a write stream (R212): a vst-shaped store of the active elements. -/
def produce (r : BitVec 5) (active : List Bool) (s : State) : Attempt :=
  match s.hart.bound r with
  | none => ⟨true, s⟩
  | some b =>
    if s.hart.writeMisuse r then ⟨false, trap 0x0E (zext64 r) s⟩
    else
      let ea := b.addr b.pos
      let place := vecPlace b.fmt ea
      let lock := lockHit s place.toNat (place.toNat + codeBytes b.fmt) true b.strand
      let log := s.logGate (fmtDraws b.fmt b.rnd b.srs (activeElems active 16))
      if b.beyond then ⟨false, trap 0x05 ea s⟩
      else if lock ≠ 0 then ⟨false, trap lock ea s⟩
      else if !log.ok then log
      else
        let ((bytes, fl), s1) := fmtEncode b.fmt b.rnd b.srs (activeElems active 16) [s.hart.rv r] s
        let a := storeBytes (some ea) (streamPieces b.fmt place active bytes) b.strand true (s1.raise fl)
        if a.ok then ⟨true, a.st.onHart (fun h => h.onBound r (fun b => { b with pos := b.pos + 1 }))⟩ else a

/-- An instruction that stopped half-way has had no effect: the stop, a trap or a wait, is taken from the state before it
(R13, R212). -/
def State.stopAs (s st : State) : State :=
  match st.hart.run with
  | .blocked => s.waitAs st
  | .parkTrap c _ _ v => trap c v s
  | _ => let b := st.hart.bank st.hart.level; trap b.cause b.val s

/-- A state in which a trap is entered at its own target and no hart stops: what an attempt's trap reports is read there. -/
def State.calm (s : State) : State :=
  s.onHart (fun h => { h with bankS := { h.bankS with tip := false }, bankM := { h.bankM with tip := false } })

/-- The attempt that ends an instruction: the next instruction follows, or the instruction has had no effect. -/
def State.endsWith (s : State) (f : State → Attempt) (m : Bool) (t : State) : State :=
  if (f t).ok then (f t).st.done 4 m else s.stopAs (f t.calm).st

/-- A vector instruction with its streams: what it reads is consumed, it has its effect, what it writes is put out.
When a stream stops it, it has no effect but the trap or the wait. -/
def withStreams (reads : List (BitVec 5)) (write : Option (BitVec 5)) (active : List Bool)
    (f : State → State) (m : Bool) (s : State) : State :=
  match write.filter s.hart.writeMisuse with
  | some r => trap 0x0E (zext64 r) s
  | none =>
    let a := consumeAll reads s
    if !a.ok then a.st
    else
      match write with
      | none => (f a.st).done 4 m
      | some r => s.endsWith (produce r active) m (f a.st)

/-- An instruction whose conversion draws n values of the hart's own source: the log comes first (R109, log 57). -/
def drawing (n : Nat) (f : State → State) (s : State) : State := if (s.logGate n).ok then f s else (s.logGate n).st

/-- Every lane active. -/
def fullLanes : List Bool := List.replicate 16 true

/-! ### vld and vst (R206) -/

/-- ea of vld and vst: the offset counts 64 bytes or elements (R206). -/
def eaVec (s : State) (a : BitVec 5) (o : BitVec 10) : Word := s.x a + sext64 o * 64

/-- The checks of R206 at issue: a cause, or 0. -/
def vecCheck (fmt : BitVec 4) (ea : Word) (vd : BitVec 5) : BitVec 8 :=
  if fmt = 0 then (if ea.toNat % 64 ≠ 0 then 0x03 else 0)
  else
    let k := bitsOf ea 0 15
    if k % codeElems fmt ≠ 0 then 0x03
    else if k + codeElems fmt > codeCapacity fmt then 0x05
    else if isBlockCode fmt && vd.toNat > 29 then 0x03
    else 0

/-- The registers of a vld or vst. -/
def vecRegsOf (fmt : BitVec 4) (d : BitVec 5) : List (BitVec 5) :=
  (List.range (codeRegs fmt)).map (fun i => d + BitVec.ofNat 5 i)

/-- A load into vector registers at an address: range locks, its destinations' streams, whose stores are checked at this
instruction (R212), a scoreboard entry, then the next instruction. The spec does not say whether a locked source or a misused
destination traps first: the lock does (log 74). -/
def vecLoad (k : OpKind) (dests : List (BitVec 5)) (ea place : Word) (n : Nat) (sn : BitVec 3) (m : Bool) (s : State) :
    State :=
  let lk := lockHit s place.toNat (place.toNat + n) false sn
  if lk ≠ 0 then trap lk ea s
  else match dests.find? s.hart.writeMisuse with
    | some r => trap 0x0E (zext64 r) s
    | none =>
      if !(produceChecks fullLanes dests s).ok then s.stopAs (produceChecks fullLanes dests s.calm).st
      else if s.noSlot ea then s.block
      else if s.hart.entries ≥ Config.scoreboard then s.noEntry
      else (issueLoad sn k s).done 4 m

/-- vld (R206): the format is captured at issue (R203). -/
def vldAt (d a : BitVec 5) (sn : BitVec 3) (o : BitVec 10) (m : Bool) (s : State) : State :=
  let ea := eaVec s a o
  let fmt := fmtCode (s.fmtReg s.hart.num ea)
  let c := vecCheck fmt ea d
  if c ≠ 0 then trap c ea s
  else vecLoad (.vload ea fmt d) (vecRegsOf fmt d) ea (vecPlace fmt ea) (codeBytes fmt) sn m s

/-- A store of vector registers at an address (R206, R229): range locks, the source streams, the target's check, the log of the
values the conversion draws, the conversion, then one store under the strand. -/
def vecStore (regs : List (BitVec 5)) (draws : Nat) (conv : List VReg → State → (List Byte × Flags) × State) (ea place : Word) (n : Nat)
    (sn : BitVec 3) (vec m : Bool) (s : State) : State :=
  let lk := lockHit s place.toNat (place.toNat + n) true sn
  if lk ≠ 0 then trap lk ea s
  else
    let con := consumeAll regs s
    if !con.ok then con.st
    else
      let chk := checkStore ea place s
      if !chk.ok then chk.st
      else if !(s.logGate draws).ok then (s.logGate draws).st
      else
        let ((bytes, fl), s1) := conv (regs.map con.st.hart.rv) con.st
        s.endsWith (storeBytes (some ea) [(place, bytes)] sn vec) m (s1.raise fl)

/-- vst (R206): conversion, then one store under the strand. -/
def vstAt (d a : BitVec 5) (sn : BitVec 3) (o : BitVec 10) (m : Bool) (s : State) : State :=
  let ea := eaVec s a o
  let reg := s.fmtReg s.hart.num ea
  let fmt := fmtCode reg
  let c := vecCheck fmt ea d
  if c ≠ 0 then trap c ea s
  else vecStore (vecRegsOf fmt d) (fmtDraws fmt (fmtRnd reg) (fmtSrs reg) fullLanes) (fmtEncode fmt (fmtRnd reg) (fmtSrs reg) fullLanes) ea (vecPlace fmt ea) (codeBytes fmt)
    sn true m s

/-- vld (R206). -/
def execVld (d a : BitVec 5) (sn : BitVec 3) (o : BitVec 10) (m : Bool) (s : State) : Out := .next (vldAt d a sn o m s)
/-- vst (R206). -/
def execVst (d a : BitVec 5) (sn : BitVec 3) (o : BitVec 10) (m : Bool) (s : State) : Out := .next (vstAt d a sn o m s)

/-! ### vldx and vstx (R209) -/

/-- The lanes a mask enables (R198). -/
def activeLanes (t : Bool) (k : Word) : List Bool := (List.range (if t then 32 else 16)).map (fun i => k.getLsbD i)

/-- The address or element index of a lane (R209): in a formatted bank the index counts elements of the base's bank. For a
lane beyond the capacity, the address tr.val is to hold is not stated: the bank's start plus the index, not wrapped
(log 60). -/
def laneAddr (t : Bool) (fmt : BitVec 4) (base : Word) (idx : Nat) : Word :=
  if fmt = 0 then base + BitVec.ofNat 64 (idx * (laneWidth t / 8))
  else (base &&& ~~~0x7FFF#64) + BitVec.ofNat 64 (bitsOf base 0 15 + idx)

/-- The active lanes with their addresses, ascending. -/
def laneList (t : Bool) (fmt : BitVec 4) (base : Word) (idx : VReg) (k : Word) : List (Nat × Word) :=
  (List.range (if t then 32 else 16)).filterMap (fun i =>
    if k.getLsbD i then some (i, laneAddr t fmt base (lane t idx i)) else none)

/-- Element index of a lane in a formatted bank: base index plus lane index, not wrapped (R209). -/
def laneElem (t : Bool) (base : Word) (idx : VReg) (i : Nat) : Nat := bitsOf base 0 15 + lane t idx i

/-- The checks of R209 that do not depend on locks: the cause and the first offending lane's address. A lane shape that does
not fit the format has no offending lane when no lane is active, and then does not trap (log 61). -/
def gatherCheck (s : State) (t : Bool) (fmt : BitVec 4) (base : Word) (idx : VReg) (lanes : List (Nat × Word))
    (store : Bool) : Option (BitVec 8 × Word) :=
  let first := ((lanes.head?).map (·.2)).getD base
  if fmt = 0 then
    match lanes.find? (fun p => p.2.toNat % (laneWidth t / 8) != 0) with
    | some p => some (0x03, p.2)
    | none =>
      (lanes.find? (fun p => fmtCode (s.fmtReg s.hart.num p.2) != 0)).map (fun p => (0x05, p.2))
  else
    match lanes.find? (fun p => decide (laneElem t base idx p.1 ≥ codeCapacity fmt)) with
    | some p => some (0x05, p.2)
    | none =>
      if lanes.isEmpty then none
      else if (t && fmt != 2) || (!t && (fmt == 2 || fmt == 8)) || (store && isBlockCode fmt) then some (0x03, first)
      else none

/-- The bytes a lane's access covers in memory: its place and length (R205, R209). -/
def lanePlace (t : Bool) (fmt : BitVec 4) (base : Word) (idx : VReg) (p : Nat × Word) : Word × Nat :=
  if fmt = 0 then (p.2, laneWidth t / 8)
  else
    let k := laneElem t base idx p.1
    if isBlockCode fmt then (fmtAddr fmt base k, recordBytes (fmt == 7)) else (fmtAddr fmt base k, codeSize fmt)

/-- The first lane that a range lock stops (R209). -/
def gatherLock (s : State) (places : List ((Nat × Word) × (Word × Nat))) (write : Bool) (sn : BitVec 3) :
    Option (BitVec 8 × Word) :=
  (places.filterMap (fun p =>
    let c := lockHit s p.2.1.toNat (p.2.1.toNat + p.2.2) write sn
    if c = 0 then none else some (c, p.1.2))).head?

/-- vldx (R209): format V names no strand, so the access orders under sn0 (log 18). -/
def vldxAt (d a b : BitVec 5) (t : Bool) (k : BitVec 3) (m : Bool) (s0 : State) : State :=
  let con := consumeAll [b] s0
  if !con.ok then con.st
  else
    let s := con.st
    let base := s.x a
    let fmt := fmtCode (s.fmtReg s.hart.num base)
    let idx := s.vr b
    let lanes := laneList t fmt base idx (s.mr k)
    match gatherCheck s t fmt base idx lanes false with
    | some (c, v) => trap c v s0
    | none =>
      match gatherLock s (lanes.map (fun p => (p, lanePlace t fmt base idx p))) false 0 with
      | some (c, v) => trap c v s0
      | none =>
        let act := activeLanes t (s.mr k)
        if s.hart.writeMisuse d then trap 0x0E (zext64 d) s0
        else if !(produceChecks act [d] s).ok then s0.stopAs (produceChecks act [d] s.calm).st
        else if lanes.any (fun p => s.noSlot p.2) then s0.block
        else if s.hart.entries ≥ Config.scoreboard then s0.noEntry
        else (issueLoad 0 (.vloadx fmt t d b base lanes) s).done 4 m

/-- The element number a lane stores into a formatted bank or raw memory (R209). -/
def scatterValues (t : Bool) (fmt : BitVec 4) (code : BitVec 3) (own : Bool) (k : Word) (v : VReg) (s : State) :
    (List Nat × Flags) × State :=
  match if fmt = 0 || fmt = 1 || fmt = 2 then none else fpOfCode fmt with
  | none => ((lanesOf t v, 0), s)
  | some f =>
    let act := activeLanes t k
    let (l, s1) := convertLanes f code own act (fp32Vals [v]) s
    ((l.map (·.bits), activeFlags act l), s1)

/-- The targets of a vstx's lanes checked in ascending order; a trap gives the lane's own address (R149, R209). -/
def checkLanes : List ((Nat × Word) × (Word × Nat)) → State → Bool × State
  | [], s => (true, s)
  | p :: t, s =>
    let c := checkStore p.1.2 p.2.1 s
    if c.ok then checkLanes t c.st else (false, c.st)

/-- The values that a vstx draws: those of its active lanes, when the bank's format rounds them. -/
def scatterDraws (t : Bool) (reg : Word) (k : Word) : Nat :=
  if isBlockCode (fmtCode reg) then 0 else fmtDraws (fmtCode reg) (fmtRnd reg) (fmtSrs reg) (activeLanes t k)

/-- vstx (R209): lanes in ascending order, one store under sn0 (log 18). -/
def vstxAt (d a b : BitVec 5) (t : Bool) (k : BitVec 3) (m : Bool) (s0 : State) : State :=
  let con := consumeAll [b, d] s0
  if !con.ok then con.st
  else
    let s := con.st
    let base := s.x a
    let reg := s.fmtReg s.hart.num base
    let fmt := fmtCode reg
    let idx := s.vr b
    let lanes := laneList t fmt base idx (s.mr k)
    match gatherCheck s t fmt base idx lanes true with
    | some (c, v) => trap c v s0
    | none =>
      let places := lanes.map (fun p => (p, lanePlace t fmt base idx p))
      match gatherLock s places true 0 with
      | some (c, v) => trap c v s0
      | none =>
        let log (st : State) : Attempt := st.logGate (scatterDraws t reg (s.mr k))
        if !(checkLanes places s).1 then s0.stopAs (checkLanes places s.calm).2
        else if !(log s).ok then s0.stopAs (log s.calm).st
        else
          let ((vals, fl), s1) := scatterValues t fmt (fmtRnd reg) (fmtSrs reg) (s.mr k) (s.vr d) s
          let ws := places.map (fun p => (p.2.1, leBytes (natAt vals p.1.1) p.2.2))
          s0.endsWith (storeBytes none ws 0 true) m (s1.raise fl)

/-- vldx (R209). -/
def execVldx (d a b : BitVec 5) (t : Bool) (k : BitVec 3) (m : Bool) (s : State) : Out := .next (vldxAt d a b t k m s)
/-- vstx (R209). -/
def execVstx (d a b : BitVec 5) (t : Bool) (k : BitVec 3) (m : Bool) (s : State) : Out := .next (vstxAt d a b t k m s)

/-! ### strbind, strfree, strst (R211, R213, R214) -/

/-- The alignment that a stream's base and strides must keep (R205, R206, R211). -/
def streamAligned (fmt : BitVec 4) (v : Word) : Bool :=
  if fmt = 0 then v.toNat % 64 == 0
  else v.toNat % 32768 % (if isBlockCode fmt then 16 else codeElems fmt) == 0

/-- strbind (R211). When a stride breaks the alignment, the address tr.val is to hold is not stated: the base (log 62). -/
def execStrbind (d : BitVec 3) (a b : BitVec 5) (sn : BitVec 3) (m : Bool) (s : State) : Out :=
  let base := s.x a
  let w := s.x b
  let reg := s.fmtReg s.hart.num base
  let fmt := fmtCode reg
  let n0 := w.extractLsb' 0 16
  let n1 := w.extractLsb' 16 16
  let r : BitVec 5 := 24 + d.setWidth 5
  if (s.hart.bind d).isSome || n0 = 0 || n1 = 0 || (w.getLsbD 32 && isBlockCode fmt) then
    .next (trap 0x0E (zext64 r) s)
  else if !streamAligned fmt base || !streamAligned fmt (s.oxr 0) || !streamAligned fmt (s.oxr 1) then
    .next (trap 0x03 base s)
  else
    .next ((s.onHart (fun h => h.setBind d (some ⟨base, n0, n1, w.getLsbD 32, s.oxr 0, s.oxr 1, sn, fmt, fmtRnd reg,
      fmtSrs reg, 0, 0, []⟩))).done 4 m)

/-- A stream register's fetches on their way no longer belong to it (R213): what they bring goes nowhere. -/
def Hart.orphan (h : Hart) (r : BitVec 5) : Hart :=
  { h with
    ops := h.ops.map (fun o => match o.kind with
      | .streamLoad q j ea fmt => if q = r then { o with kind := .streamLoad 0 j ea fmt } else o
      | _ => o),
    rets := h.rets.map (fun q => match q.res with
      | .stream p j v fl c => if p = r then { q with res := .stream 0 j v fl c } else q
      | _ => q) }

/-- A binding ends: what was fetched and not consumed is discarded (R213, R215). -/
def Hart.unbind (h : Hart) (d : BitVec 3) : Hart := (h.setBind d none).orphan (24 + d.setWidth 5)

/-- strfree (R213). -/
def execStrfree (d sn : BitVec 3) (m : Bool) (s : State) : Out :=
  match s.hart.bind d with
  | some b =>
    if b.strand = sn then .next ((s.onHart (fun h => h.unbind d)).done 4 m)
    else .next (trap 0x0E (zext64 (24 + d.setWidth 5 : BitVec 5)) s)
  | none => .next (trap 0x0E (zext64 (24 + d.setWidth 5 : BitVec 5)) s)

/-- The word strst reads (R214). -/
def streamWord (b : Option Binding) : Word :=
  match b with
  | none => 0
  | some b => BitVec.ofNat 64 ((b.count - b.pos) % 2 ^ 32 + 2 ^ 32 + (if b.write then 2 ^ 33 else 0) +
      (if b.ready.any (fun p => p.2.2.2 != 0) then 2 ^ 34 else 0) + b.strand.toNat * 2 ^ 35)

/-- strst (R214). -/
def execStrst (d : BitVec 5) (a : BitVec 3) (m : Bool) (s : State) : Out :=
  .next ((s.setX d (streamWord (s.hart.bind a))).done 4 m)

/-! ### Block instructions (R226 to R230) -/

/-- bscale (R227). -/
def execBscale (d a b : BitVec 5) (m : Bool) (s : State) : Out :=
  .next (drawing (drawsOf (blockSel (s.x b)).2 true (List.replicate 48 true)) (withStreams [a, a + 1, a + 2] (some d) fullLanes (fun s =>
    let (k8, code) := blockSel (s.x b)
    let ((bytes, fl), s1) := blockOf k8 code true (s.hart.rvs a 3) s
    (s1.setV d (bytesVreg bytes)).raise fl) m) s)

/-- baddq.acc (R228): it reads and writes its registers, so a bound one is misused whichever way its stream goes (R212). The spec
does not say whether that or a locked source traps first: the misuse does (log 74). -/
def execBaddqAcc (d a b : BitVec 5) (sn : BitVec 3) (m : Bool) (s : State) : Out :=
  let ea := s.x a
  let size := recordBytes (blockSel (s.x b)).1
  if ea.toNat % size ≠ 0 then .next (trap 0x03 ea s)
  else match [d, d + 1, d + 2].find? (fun r => (s.hart.bound r).isSome) with
    | some r => .next (trap 0x0E (zext64 r) s)
    | none => .next (vecLoad (.blockAcc ea (s.x b) d) [] ea ea size sn m s)

/-- baddq.out (R229). -/
def execBaddqOut (d a b : BitVec 5) (sn : BitVec 3) (m : Bool) (s : State) : Out :=
  let ea := s.x a
  let (k8, code) := blockSel (s.x b)
  let size := recordBytes k8
  if ea.toNat % size ≠ 0 then .next (trap 0x03 ea s)
  else .next (vecStore [d, d + 1, d + 2] (drawsOf code true (List.replicate 48 true)) (blockOf k8 code true) ea ea size sn false m s)

/-- vsr: sr.step exchanged with x[a] (R230). -/
def execVsr (d a : BitVec 5) (m : Bool) (s : State) : Out :=
  .next (((s.onHart (fun h => { h with srStep := s.x a })).setX d s.hart.srStep).done 4 m)

end Sys2Proof.Machine
end

