-- ==== Sys2Proof/Machine/Strands.lean ====
section
/-! DEFINITION. The strand instructions (07, R172 to R180). The markers of sfork and sjoin are performed by
`FORK_MARKER_PERFORMED` and `JOIN_MARKER_PERFORMED`. -/

namespace Sys2Proof.Machine

/-- sfork (R173): the marker of sfork sd, sd is performed at issue. -/
def sforkAt (d a : BitVec 3) (s : State) : State :=
  let n := (s.hart.spin a).issue
  let s1 := s.onHart (fun h => h.issueOp d (.fork a n))
  if a = d then s1.onHart (fun h => (h.perform (h.nextOp - 1) s.now).acquire d s.now) else s1

/-- sfork (R173). -/
def execSfork (d a : BitVec 3) (m : Bool) (s : State) : Out := .next ((sforkAt d a s).done 4 m)

/-- sjoin (R174): the entries of sa start to drain. -/
def execSjoin (d a : BitVec 3) (m : Bool) (s : State) : Out :=
  let n := (s.hart.spin a).issue
  .next ((s.onHart (fun h => (h.issueOp d (.join a n)).drainStrand a)).done 4 m)

/-- An operation that a wait at a scope still waits for (R170). -/
def Op.holdsWait (scope : BitVec 3) (o : Op) : Bool :=
  scope != 0 || (match o.kind with
    | .load .. | .vload .. | .vloadx .. | .blockAcc .. | .atomic .. | .fork .. | .join .. => true
    | _ => false)

/-- A wait at a scope on a strand would not yet end (R170, R175). -/
def Hart.waitsOn (h : Hart) (a scope : BitVec 3) : Bool :=
  h.ops.any (fun o => o.strand == a && o.holdsWait scope)
    || (scope == 0 && h.rets.any (fun r => r.strand == a && !r.res.isStream))

/-- swait (R175): STATUS is handed over and cleared when the wait ends, an acquire of the strand. -/
def execSwait (d : BitVec 5) (a scope : BitVec 3) (m : Bool) (s : State) : Out :=
  let s1 := s.onHart (fun h => h.drainStrand a)
  if s1.hart.waitsOn a scope then .next s1.block
  else
    let st := (s1.hart.spin a).status
    .next (((s1.onHart (fun h =>
      (h.setSpin a { h.spin a with status := 0 }).acquire a s.now)).setX d (zext64 st)).done 4 m)

/-- CHECK of a token's other bits under a key (R177). -/
def tokenCheck (key : Word) (t : Word) : BitVec 14 :=
  let mid : BitVec 32 := (t.extractLsb' 32 18).setWidth 32
  (mix32 (t.setWidth 32 ^^^ (mid <<< 14) ^^^ key.setWidth 32 ^^^ (key.extractLsb' 32 32))).setWidth 14

/-- The token of a spindle's latest operation (R177). -/
def tokenOf (node : BitVec 4) (key : Word) (hart : Nat) (strand : BitVec 3) (seq : BitVec 32) : Word :=
  let t := BitVec.ofNat 64 (seq.toNat + strand.toNat * 2 ^ 32 + hart % 2 ^ 11 * 2 ^ 35 + node.toNat * 2 ^ 46)
  t ||| (zext64 (tokenCheck key t) <<< 50)

/-- sexp (R176). -/
def execSexp (d : BitVec 5) (a : BitVec 3) (m : Bool) (s : State) : Out :=
  let p := s.hart.spin a
  let tok := tokenOf s.nodeId s.tkKey s.hart.num a p.issue
  .next (((s.onHart (fun h => (h.drainStrand a).setSpin a
    { p with xseq := p.issue, mark := !reached p.perf p.issue })).setX d tok).done 4 m)

/-- The sequence number lies in the discarded span (R192). -/
def Spindle.inSpan (p : Spindle) (seq : BitVec 32) : Bool :=
  match p.span with
  | none => false
  | some (lo, hi) => decide (1 ≤ (seq - lo).toNat) && decide ((seq - lo).toNat ≤ (hi - lo).toNat)

/-- What a spindle says of a sequence number (R169, R178, R192): refused, reached, or not yet. -/
def Spindle.verdict (p : Spindle) (seq : BitVec 32) : Option Bool :=
  if (p.issue - seq).toNat ≥ 2 ^ 31 || p.inSpan seq then some false
  else if reached p.perf seq then some true
  else none

/-- Operations of a frame that was lent wait for their resume in its record, and a token of theirs with them (R178, R191,
R393). -/
def State.lentWaits (s : State) (h : Nat) (sn : BitVec 3) (seq : BitVec 32) : Bool :=
  s.lent.any (fun l => l.harts.any (fun k => k.num == h && (k.spin sn).verdict seq == none))

/-- What the exporter says of a token (R178): `none` while its sequence number is not reached. -/
def tokenVerdict (s : State) (tok : Word) : Option Bool :=
  let h := bitsOf tok 35 11
  let sn : BitVec 3 := tok.extractLsb' 32 3
  if !s.present h || tok.extractLsb' 50 14 != tokenCheck s.tkKey tok then some false
  else match ((s.getHart h).spin sn).verdict (tok.setWidth 32) with
    | some true => if s.lentWaits h sn (tok.setWidth 32) then none else some true
    | v => v

/-- simp (R178): a token of this module is checked here, another is sent to its exporter. -/
def execSimp (d : BitVec 3) (a : BitVec 5) (m : Bool) (s : State) : Out :=
  let tok := s.x a
  let node : BitVec 4 := tok.extractLsb' 46 4
  if node = s.nodeId then
    match tokenVerdict s tok with
    | some true => .next ((s.onHart (fun h => h.acquire d s.now)).done 4 m)
    | some false => .next (trap 0x0D tok s)
    | none => .next s.block
  else if !s.reaches node then .next (trap 0x0D tok s)
  else if s.hart.replySlots ≥ 64 then .next s.block
  else .next ((send (.tokenRequest node tok) s).onHart (fun h => { h with run := .token d tok m }))

/-- The word sstat reads (R179). -/
def spindleWord (p : Spindle) (sel : Nat) : Word :=
  match sel with
  | 0 => zext64 p.status ||| (zext64 (p.issue - p.perf) <<< 32)
  | 1 => zext64 p.issue
  | _ => zext64 p.perf

/-- sstat (R179). -/
def execSstat (d : BitVec 5) (a : BitVec 3) (b : BitVec 5) (m : Bool) (s : State) : Out :=
  .next ((s.setX d (spindleWord (s.hart.spin a) b.toNat)).done 4 m)

/-- The eight STATUS words merged in ascending order (R180). -/
def Hart.mergedStatus (h : Hart) : BitVec 17 :=
  (List.range 8).foldl (fun acc i => mergeStatus acc (h.spin (BitVec.ofNat 3 i)).status) 0

/-- Every STATUS cleared. -/
def Hart.clearStatus (h : Hart) : Hart := { h with sp := h.sp.map (fun p => { p with status := 0 }) }

/-- fence (R180). -/
def execFence (d : BitVec 5) (scope : BitVec 6) (m : Bool) (s : State) : Out :=
  let s1 := s.onHart Hart.drainAll
  if (List.range 8).any (fun i => s1.hart.waitsOn (BitVec.ofNat 3 i) (scope.setWidth 3)) then .next s1.block
  else
    let st := s1.hart.mergedStatus
    .next (((s1.onHart (fun h => (h.clearStatus).acquireAll s.now)).setX d (zext64 st)).done 4 m)

end Sys2Proof.Machine
end

