-- ==== Sys2Proof/Machine/Perform.lean ====
section
/-! DEFINITION. Performing issued operations and returning their results (R116, R149, R156 to R161, R168, R182, R184,
R187, R204, R207): each is one event of the hart in focus. -/

namespace Sys2Proof.Machine

/-! ### Writes -/

/-- The status word a refused packet reports (R149, R171, R353). -/
def statusOf (st : BitVec 3) : BitVec 17 := st.setWidth 17

/-- A write leaves for another node under a number of its own; the operations whose bytes it carries wait for the
acknowledgement (R158, R348). -/
def sendWrite (node : BitVec 4) (ops : List Nat) (spans : List (Nat × Nat)) (acc : Access) (s : State) : State :=
  let n := s.hart.nextOp
  send (.write node s.hart.num n acc)
    (s.onHart (fun h => { h with nextOp := n + 1, writes := h.writes ++ [⟨n, node, ops, spans⟩] }))

/-- The data and the byte mask of pieces of one line, the later piece on top (R158). -/
def maskedLine (line : Nat) (ps : List (Word × Nat × List Byte)) : BitVec 512 × BitVec 64 :=
  let at_ := (List.range 64).map (fun i => writesByte ps (64 * line + i))
  (BitVec.ofNat 512 (leNat (at_.map (fun b => b.getD 0))),
    at_.zipIdx.foldl (fun m p => if p.1.isSome then m ||| (1#64 <<< p.2) else m) 0)

/-- Where a write to another node goes, or the status its strand reports (R139, R149): the place found at issue; a write
whose target had no live lane then, or has none now, meets a dead link. -/
def writeTarget (o : Op) (w : Word × Nat × List Byte) (s : State) : Nat × BitVec 17 :=
  if !s.reaches (gaNode w.1) then (0, stDL)
  else if w.2.1 ≠ 0 then (w.2.1, 0)
  else
    let t := checkRemote s (.data s.hart.num) s.hart.num o.region o.level .store w.1
    if gaCore w.1 == hbmCore || t.reason == 8 then (0, stDL) else if t.cause ≠ 0 then (0, stRA) else (t.key, 0)

/-- Pieces of one line written as one masked write (R158): at home, or sent to another node; the status of a refusal, and
whether a write has been sent. -/
def writePieces (o : Op) (ops : List Nat) (vec : Bool) (line : Nat) (ps : List (Word × Nat × List Byte)) (s : State) :
    BitVec 17 × Bool × State :=
  match ps.head? with
  | none => (0, false, s)
  | some w =>
    if gaNode w.1 = s.nodeId then
      if vec && s.foreignFormatted s.hart.num w.1 then (stRA, false, s)
      else
        let (ok, s1) := commitPieces o.region (w.2.1) (ps.map (fun p => (p.2.1, p.2.2)))
          (markReads (hartTable s.hart.num) (w.2.1 / 64) s)
        (if ok then 0 else stRA, false, s1)
    else match writeTarget o w s with
      | (key, 0) =>
        let (data, mask) := maskedLine line ps
        (0, true, sendWrite (gaNode w.1) ops (ps.map (fun p => spanOf (p.1, p.2.2.length)))
          ⟨s.nodeId, o.region, o.level == .M, .write, BitVec.ofNat 64 (key / 64 * 64), 64, data, mask, 0, vec⟩
          (markReads (hartTable s.hart.num) (key / 64) s))
      | (_, st) => (st, false, s)

/-- What is left of a store when some pieces of it have been written or sent: it is performed when nothing is (R168). -/
def Hart.wrote (h : Hart) (id : Nat) (gone : Word × Nat × List Byte → Bool) (sent : Bool) (st : BitVec 17) (now : Word) : Hart :=
  match h.op? id with
  | none => h
  | some o =>
    match o.kind with
    | .store ws vec buf =>
      let rest := ws.filter (fun w => !gone w)
      let n := o.sent.getD 0 + (if sent then 1 else 0)
      let h1 := h.report o.strand st
      if rest.isEmpty && n = 0 then h1.perform id now
      else h1.putOp { o with sent := if n = 0 then none else some n, kind := .store rest vec buf }
    | _ => h

/-- A store that goes straight to its banks is performed (R156, R168): its pieces in order. -/
def performStore (o : Op) (vec : Bool) : List (Word × Nat × List Byte) → State → State
  | [], s => s.onHart (fun h => h.wrote o.id (fun _ => true) false 0 s.now)
  | w :: t, s =>
    let (st, sent, s1) := writePieces o [o.id] vec (w.1.toNat / 64) [w] s
    performStore o vec t (s1.onHart (fun h =>
      let h1 := h.report o.strand st
      if sent then (match h1.op? o.id with | some q => h1.putOp { q with sent := some (q.sent.getD 0 + 1) } | none => h1) else h1))

/-! ### The combining buffer drains (R158) -/

/-- The pieces of an operation that lie in a line. -/
def Op.pieces (o : Op) (line : Nat) : List (Word × Nat × List Byte) :=
  match o.kind with
  | .store ws _ true => ws.filter (fun w => w.1.toNat / 64 = line)
  | _ => []

/-- The operations whose bytes an entry holds, in issue order. -/
def Hart.entryOps (h : Hart) (e : CombEntry) : List Op := e.ops.filterMap h.op?

/-- An earlier operation leaves an entry free to drain (R184): it is in the entry, and nothing of it is elsewhere. -/
def CombEntry.only (e : CombEntry) (p : Op) : Bool :=
  e.ops.contains p.id && p.sent.isNone && (match p.kind with
    | .store ws _ _ => ws.all (fun w => w.1.toNat / 64 = e.line)
    | _ => false)

/-- An older entry goes first (R158, R184): of the same line, or of the same strand since the same fork marker. -/
def Hart.entryAfter (h : Hart) (e f : CombEntry) : Bool :=
  f.line == e.line || (f.strand == e.strand && (h.entryOps f).any (fun p => (h.entryOps e).any (fun o =>
    p.strandBefore o && !(decide (p.id < h.holdTo) && decide (h.holdTo ≤ o.id)))))

/-- A load on its way to another node has taken bytes of the entry's line along: it is to be performed first (R182). -/
def Hart.suppliesFlight (h : Hart) (e : CombEntry) : Bool :=
  h.ops.any (fun o => o.sent.isSome && o.fwd.any (fun p => p.1 / 64 == e.line))

/-- An entry may drain now: it drains, no older entry goes first, and what must come first is performed. -/
def Hart.drainable (h : Hart) (k : Nat) : Bool :=
  match h.comb[k]? with
  | none => false
  | some e =>
    e.draining && !(h.comb.take k).any (h.entryAfter e) && !h.suppliesFlight e
      && (h.entryOps e).all (fun o => decide (h.holdTo ≤ o.id) && !h.underWrite [] o
        && !h.ops.any (fun p => h.goesFirst [] p o && !e.only p))

/-- The entry's operations carry a vector access (R204, log 63). -/
def Op.vecStore (o : Op) : Bool := match o.kind with | .store _ v _ => v | _ => false

/-- One entry of the hart in focus drains, as one masked write (R158). The spec does not say which level and region the write
carries when stores of several levels have merged: those of the oldest (log 75). -/
def drainNow (k : Nat) (s : State) : State :=
  match s.hart.comb[k]? with
  | none => s
  | some e =>
    let ops := s.hart.entryOps e
    let s0 := s.onHart (fun h => { h with comb := h.comb.take k ++ h.comb.drop (k + 1) })
    match ops.head? with
    | none => s0
    | some o =>
      let (st, sent, s1) := writePieces o (ops.map (·.id)) (ops.any Op.vecStore) e.line (ops.flatMap (fun p => p.pieces e.line)) s0
      s1.onHart (fun h => ops.foldl (fun h p => h.wrote p.id (fun w => w.1.toNat / 64 = e.line) sent st s.now) h)

/-- COMBINING_DRAIN (R158): an entry drains, when the rules of order let it; its write carries the level and the region of its oldest
store, which the spec does not fix (log 75). -/
def drainEntry (k : Nat) (s : State) : State := if s.hart.drainable k then drainNow k s else s

/-- COMBINING_IDLE_TIMEOUT (R158): an entry not written for 128 cycles of the hart starts to drain. -/
def idleDrain (k : Nat) (s : State) : State :=
  match s.hart.comb[k]? with
  | none => s
  | some e =>
    if !e.draining && s.hart.cycle ≥ e.last + 128 then
      s.onHart (fun h => { h with comb := h.comb.set k { e with closed := true, draining := true } })
    else s

/-! ### Loads -/

/-- log2 of an access size. -/
def sizeLog (n : Nat) : BitVec 2 := BitVec.ofNat 2 (Nat.log2 n)

/-- The page a fault lists: causes 0x04, and 0x05 with REASON 7 (R153). -/
def faultPages (cause reason : BitVec 8) (a : Word) : List Word :=
  if cause = 0x04 || (cause = 0x05 && reason = 7) then [a &&& ~~~0xFFFF#64] else []

/-- OPERAND of a vector entry (R208). -/
def vecOperand (lanes : Nat) (fmt : BitVec 4) (t : Bool) (idx : BitVec 5) (op : Nat) : Word :=
  BitVec.ofNat 64 (lanes % 2 ^ 32 + fmt.toNat * 2 ^ 32 + (if t then 2 ^ 36 else 0) + idx.toNat * 2 ^ 37 + op * 2 ^ 42)

/-- The fault entry of an operation (R153, R208). -/
def Op.faultEntry (o : Op) (cause reason : BitVec 8) (at_ : Word) : FaultEntry :=
  let pg := faultPages cause reason at_
  match o.kind with
  | .load ea n uns d => ⟨o.id, o.pc, ea, cause, reason, d, sizeLog n, uns, o.strand, 0, 0, 0, 0, pg⟩
  | .atomic ea fn b cmp d =>
    ⟨o.id, o.pc, ea, cause, reason, d, sizeLog (amoSize fn), false, o.strand, 1, fn, b,
      if fn = 9 || fn = 25 then cmp else 0, pg⟩
  | .vload ea fmt vd => ⟨o.id, o.pc, ea, cause, reason, vd, 3, false, o.strand, 2, 0, vecOperand 0 fmt (fmt == 2) 0 0, 0, pg⟩
  | .blockAcc ea xb vd => ⟨o.id, o.pc, ea, cause, reason, vd, 3, false, o.strand, 2, 0, vecOperand 0 (if (blockSel xb).1 then 7 else 6) false 0 3, xb, pg⟩
  | .vloadx fmt t vd idx base lanes =>
    ⟨o.id, o.pc, base, cause, reason, vd, 3, false, o.strand, 2, 0,
      vecOperand (lanes.foldl (fun m p => m + 2 ^ p.1) 0) fmt t idx 1, 0, pg⟩
  | _ => ⟨o.id, o.pc, at_, cause, reason, 0, 0, false, o.strand, 0, 0, 0, 0, pg⟩

/-- The access is a vector access (R204). -/
def Op.isVec (o : Op) : Bool :=
  match o.kind with
  | .vload .. | .vloadx .. | .streamLoad .. => true
  | _ => false

/-- A load that cannot be performed (R151): its entry returns carrying the fault; a stream keeps the cause for the
consuming instruction (R212). -/
def faultOp (o : Op) (cause reason : BitVec 8) (at_ : Word) (s : State) : State :=
  match o.kind with
  | .streamLoad r j _ _ => s.onHart (fun h => h.finish o s.now (.stream r j 0 0 cause) none [])
  | _ => s.onHart (fun h => h.finish o s.now (.nothing [] []) (some (o.faultEntry cause reason at_)) [])

/-- The access record of a load sent to another node. -/
def Op.request (o : Op) (s : State) (key n : Nat) : Access :=
  ⟨s.nodeId, o.region, o.level == .M, .read, BitVec.ofNat 64 key, n, 0, 0, 0, o.isVec⟩

/-- The mark of a read that met a memory error: it never delivers data (R154, R415). -/
def lostRead : Nat := 2 ^ 64

/-- An operation of the hart in focus meets a memory error. -/
def loseOp (o : Op) (s : State) : State := s.onHart (fun h => h.putOp { o with sent := some lostRead })

/-- The operation's read, for the tables. -/
def Op.reader (o : Op) (h : Nat) : Reader := ⟨h, o.strand, true, false⟩

/-- The translation an operation of the hart in focus needs has not come: it is asked for, or its walk has met a memory error and the
operation with it (R147, R415). -/
def Op.awaits (o : Op) (t : Trans) (need : Need) (a : Word) (s : State) : State :=
  let s1 := s.awaits t s.hart.num o.region o.level need a
  if gaNode a = s.nodeId then loseOp o s1 else s1

/-- A load of one place is performed, or sent (R149, R157, R159, R168). -/
def performLoad (o : Op) (p : Word) (n : Nat) (s : State) : State :=
  let f := s.hart.fwdOf o
  if covered o.reads f then s.onHart (fun h => h.finish o s.now (o.kind.fwdResult h f) none [])
  else if o.isVec && s.foreignFormatted s.hart.num p then faultOp o 0x05 11 p s
  else
    let t := translate s o.region o.level .load p
    if t.cause = awaitRemote then o.awaits t .load p s
    else if t.cause ≠ 0 then faultOp o t.cause t.reason p t.st
    else if gaNode p ≠ s.nodeId then
      let (k, s1) := joinRead (o.reader s.hart.num) t.key n true t.st
      let s2 := s1.onHart (fun h => h.putOp { o with sent := some k, fwd := f })
      if k = t.st.nextRead then send (.request (gaNode p) s.hart.num k (o.request s t.key n)) s2 else s2
    else if t.st.poisoned t.key then loseOp o (reportPoison o.region t.key t.st)
    else if gaCore p = hbmCore then
      let (k, b, s1) := readLine (o.reader s.hart.num) t.key n t.st
      s1.onHart (fun h => h.finish o s.now (o.kind.result h (fillFwd p.toNat b f)) none [k])
    else t.st.onHart (fun h => h.finish o s.now (o.kind.result h (t.st.readKey t.key n)) none [])

/-! ### vldx (R209) -/

/-- How one lane of a vldx ends: with its value, a fault, on its way from another node, waiting for a translation, or with the
operation at a memory error. -/
inductive LaneEnd where
  | value (i : Nat) (v : Rounded) (entry : Option Nat)
  | fault (i : Nat) (cause reason : BitVec 8) (a : Word)
  | remote
  | await
  | lost
deriving DecidableEq, Repr

/-- A fault of a lane on another node is kept with the answers of the operation, so that the lane is not translated again. -/
def keepFault (h : Nat) (o : Op) (p : Word) (cause reason : BitVec 8) (s : State) : State :=
  { s with far := s.far ++ [⟨h, .op o.id, p.toNat / 64, false, 0, some ⟨cause, reason, false, 0⟩, false⟩] }

/-- One lane read: of HBM of this module or of another node, it joins the read-combining table as any read does (R159, R207). -/
def gatherLane (o : Op) (fmt : BitVec 4) (t : Bool) (f : Fwd) (l : Nat × Word) (s : State) : LaneEnd × State :=
  let (p, n) := gatherPlace fmt t l.2
  let value (b : List Byte) (k : Option Nat) : LaneEnd := .value l.1 (gatherValue fmt (bitsOf l.2 0 15) (fillFwd p.toNat b f)) k
  if covered [spanOf (p, n)] f then (value (List.replicate n 0) none, s)
  else if s.foreignFormatted s.hart.num p then (.fault l.1 0x05 11 p, s)
  else
    match s.farOf s.hart.num (.op o.id) p with
    | some g => match g.got with
      | .data d => (value (bytesOfLine d p.toNat n) none, s)
      | .fault c w => (.fault l.1 c w p, s)
      | _ => (.remote, s)
    | none =>
      let tr := translate s o.region o.level .load p
      if tr.cause = awaitRemote then (if gaNode p = s.nodeId then .lost else .await, o.awaits tr .load p s)
      else if gaNode p ≠ s.nodeId then
        if tr.cause ≠ 0 then (.fault l.1 tr.cause tr.reason p, keepFault s.hart.num o p tr.cause tr.reason tr.st)
        else (.remote, (farRead (o.reader s.hart.num) (.op o.id) p tr.key n (o.request s tr.key n) tr.st).2)
      else if tr.cause ≠ 0 then (.fault l.1 tr.cause tr.reason p, tr.st)
      else if tr.st.poisoned tr.key then (.lost, loseOp o (reportPoison o.region tr.key tr.st))
      else if gaCore p = hbmCore then
        let (k, b, s1) := readLine (o.reader s.hart.num) tr.key n tr.st
        (value b (some k), s1)
      else (value (tr.st.readKey tr.key n) none, tr.st)

/-- The lanes read one after another. -/
def gatherLanes (o : Op) (fmt : BitVec 4) (t : Bool) (f : Fwd) : List (Nat × Word) → State → List LaneEnd × State
  | [], s => ([], s)
  | l :: ls, s =>
    let (e, s1) := gatherLane o fmt t f l s
    let (es, s2) := gatherLanes o fmt t f ls s1
    (e :: es, s2)

/-- The result of a vldx: its good lanes, and the fault entry of the others (R208, R209). -/
def finishGather (o : Op) (t : Bool) (vd idx : BitVec 5) (es : List LaneEnd) (s : State) : State :=
  let good := es.filterMap (fun e => match e with | .value i v _ => some (i, v) | _ => none)
  let bad := es.filterMap (fun e => match e with | .fault i c r a => some (i, c, r, a) | _ => none)
  let res := Result.lanes vd t (good.map (fun p => (p.1, BitVec.ofNat 32 p.2.bits))) idx (orFlags (good.map (·.2)))
  let fault := match bad with
    | [] => none
    | (_, c, r, a) :: _ =>
      let e := o.faultEntry c r a
      some { e with
        operand := (e.operand &&& ~~~0xFFFFFFFF#64) ||| BitVec.ofNat 64 (bad.foldl (fun m p => m + 2 ^ p.1) 0),
        pages := (bad.flatMap (fun p => faultPages p.2.1 p.2.2.1 p.2.2.2)).eraseDups }
  let entries := (es.filterMap (fun e => match e with | .value _ _ k => k | _ => none)).eraseDups
  s.onHart (fun h => h.finish o s.now res fault entries)

/-- The mark of a vldx whose lanes on other nodes have been asked for. -/
def gatherSent : Nat := 2 ^ 64 + 1

/-- A vldx is performed (R209). While a translation of another node is on its way nothing of it is done; then the lines of other nodes
are asked for, with what the buffer supplies taken along, and once each has answered all lanes are performed together (log 21). -/
def performGather (o : Op) (fmt : BitVec 4) (t : Bool) (vd idx : BitVec 5) (lanes : List (Nat × Word)) (s : State) : State :=
  let f := s.hart.fwdOf o
  let (es, s1) := gatherLanes o fmt t f lanes s
  if es.contains .lost then (s.errorFrom s1).onHart (fun h => h.putOp { o with sent := some lostRead })
  else if es.contains .await then { s with sendq := s1.sendq, asks := s1.asks }
  else if es.contains .remote then (s.keepSent s1).onHart (fun h => h.putOp { o with sent := some gatherSent, fwd := f })
  else (finishGather o t vd idx es s1).unlock s.hart.num o.id

/-! ### Atomics (R160, R161) -/

/-- The new value of an integer atomic on w bits. -/
def amoNew {w : Nat} (fn : Nat) (old b cmp : BitVec w) : BitVec w :=
  match fn with
  | 0 => old + b
  | 1 => old &&& b
  | 2 => old ||| b
  | 3 => old ^^^ b
  | 4 => if b.slt old then b else old
  | 5 => if old.slt b then b else old
  | 6 => if b.ult old then b else old
  | 7 => if old.ult b then b else old
  | 8 => b
  | _ => if old = cmp then b else old

/-- The sum of two halves in BF16 (R161). -/
def bf16Add (a b : Nat) : Nat := (fpAddV .bf16 .rne (fpDecode .bf16 a) (fpDecode .bf16 b)).bits

/-- The new value and the returned value of an atomic from the old bits (R161). -/
def amoEffect (fn : BitVec 6) (old : Nat) (b cmp : Word) : Nat × Word :=
  let o32 := BitVec.ofNat 32 old
  let b32 : BitVec 32 := b.setWidth 32
  match fn.toNat with
  | 10 => ((fpAddV .fp32 .rne (fpDecode .fp32 o32.toNat) (fpDecode .fp32 b32.toNat)).bits, zext64 o32)
  | 11 =>
    (bf16Add (o32.toNat % 65536) (b32.toNat % 65536) + 65536 * bf16Add (o32.toNat / 65536) (b32.toNat / 65536),
      zext64 o32)
  | n =>
    if n ≥ 16 then ((amoNew (n - 16) o32 b32 (cmp.setWidth 32)).toNat, sext64 o32)
    else ((amoNew n (BitVec.ofNat 64 old) b cmp).toNat, BitVec.ofNat 64 old)

/-- Whether an atomic writes: amo.cas on unequal values does not (R161). -/
def amoWrites (fn : BitVec 6) (old : Nat) (cmp : Word) : Bool :=
  if fn = 9 then BitVec.ofNat 64 old = cmp
  else if fn = 25 then BitVec.ofNat 32 old = cmp.setWidth 32
  else true

/-- An atomic at a place of this module: the returned value, or the refusal of a compressed page (R166). -/
def amoHome (region : Option (BitVec 16)) (fn : BitVec 6) (key : Nat) (b cmp : Word) (s : State) : Option Word × State :=
  let n := amoSize fn
  let old := leNat (s.readKey key n)
  let (new, ret) := amoEffect fn old b cmp
  if amoWrites fn old cmp then
    let (ok, s1) := writeHome region key (leBytes new n) s
    (if ok then some ret else none, s1)
  else (some ret, s)

/-- An atomic is performed at its single point, or sent to another node (R160); either way it is a write that passes
the router (R159). -/
def performAtomic (o : Op) (ea : Word) (fn : BitVec 6) (b cmp : Word) (d : BitVec 5) (s : State) : State :=
  let t := translate s o.region o.level .atomic ea
  let marked := markReads (hartTable s.hart.num) (t.key / 64) t.st
  if t.cause = awaitRemote then o.awaits t .atomic ea s
  else if t.cause ≠ 0 then faultOp o t.cause t.reason ea t.st
  else if gaNode ea ≠ s.nodeId then
    send (.request (gaNode ea) s.hart.num o.id
      ⟨s.nodeId, o.region, o.level == .M, .atomic fn, BitVec.ofNat 64 t.key, amoSize fn, b.setWidth 512, 0, cmp, false⟩)
      (marked.onHart (fun h => h.putOp { o with sent := some 0 }))
  else if t.st.poisoned t.key then loseOp o (reportPoison o.region t.key t.st)
  else
    match amoHome o.region fn t.key b cmp marked with
    | (some v, s1) => s1.onHart (fun h => h.finish o s.now (.xval d v) none [])
    | (none, s1) => faultOp o 0x05 10 ea s1

/-! ### Markers (R173, R174) -/

/-- A fork marker is performed when the named strand reaches its point: an acquire of its own strand (R194). -/
def performFork (o : Op) (sa : BitVec 3) (n : BitVec 32) (s : State) : State :=
  if s.hart.reachedAt sa n then s.onHart (fun h => (h.perform o.id s.now).acquire o.strand s.now) else s

/-- A join marker is performed: the joined strand's STATUS is merged, an acquire of its own strand (R174). -/
def performJoin (o : Op) (sa : BitVec 3) (n : BitVec 32) (s : State) : State :=
  if s.hart.reachedAt sa n then
    s.onHart (fun h => ((h.report o.strand (h.spin sa).status).perform o.id s.now).acquire o.strand s.now)
  else s

/-! ### The events -/

/-- An operation of the hart in focus is performed by the part of the machine that serves it, when the rules of order
let it; operations of engines, copies and messages are performed by those units. -/
def performOp (id : Nat) (s : State) : State :=
  match s.hart.op? id with
  | none => s
  | some o =>
    if !s.hart.ready o || o.sent.isSome then s
    else match o.kind with
      | .store ws vec false => performStore o vec ws s
      | .vloadx fmt t vd idx _ lanes => performGather o fmt t vd idx lanes s
      | .atomic ea fn b cmp d => performAtomic o ea fn b cmp d s
      | .fork sa n => performFork o sa n s
      | .join sa n => performJoin o sa n s
      | k => match k.loadPlace with
        | some (p, n) => performLoad o p n s
        | none => s

/-- Whether performing the operation now would do something. -/
def Hart.canPerform (h : Hart) (o : Op) : Bool :=
  h.ready o && o.sent.isNone && (match o.kind with
    | .store _ _ b => !b
    | .fork sa n | .join sa n => h.reachedAt sa n
    | .engine | .copy _ | .msend .. | .mpost _ => false
    | _ => true)

/-- A result written to its registers, with the flags it raises (R116, R199, R200). What a stream fetched waits there for the
instruction that consumes it. -/
def Hart.writeBack (h : Hart) (r : Result) : Hart :=
  match r with
  | .xval d v => h.wx d v
  | .vval vals fl | .acc _ vals fl => { h.wvs vals with fxFlags := h.fxFlags ||| fl }
  | .lanes vd t vals _ fl =>
    let v := ofLanes t ((List.range (laneCount t)).map (fun i =>
      ((vals.find? (fun p => p.1 == i)).map (·.2.toNat)).getD (lane t (h.rv vd) i)))
    { h.wv vd v with fxFlags := h.fxFlags ||| fl }
  | .nothing _ _ => h
  | .stream r j v fl c =>
    h.onBound r (fun b => if j < b.pos then b else { b with ready := b.ready ++ [(j, v, fl, c)] })

/-- The lanes of a register that a result writes. -/
def Result.active : Result → List Bool
  | .lanes _ t vals _ _ => (List.range (laneCount t)).map (fun i => vals.any (fun p => p.1 == i))
  | _ => fullLanes

/-- The result writes its registers: one that brings no value does not (R151, R249). -/
def Result.brings : Result → Bool
  | .nothing .. => false
  | _ => true

/-- The vector registers a result writes that are bound to a write stream: the write puts them out (R212, log 17). -/
def Hart.streamedBy (h : Hart) (r : Result) : List (BitVec 5) :=
  if r.brings then streamed else []
where streamed : List (BitVec 5) := r.destV.filter (fun d => match h.bound d with | some b => b.write && decide (b.pos < b.count) | none => false)

/-- A register that a returning result writes is put out (R212, log 17): when the buffer has no room the result does not
return yet (`none`). The store was checked at the instruction that writes the register; one that fails its checks now is not made,
and is reported as refused on the stream's strand. -/
def putOut (active : List Bool) (d : BitVec 5) (s : State) : Option State :=
  let p := produce d active s
  if p.ok then some p.st
  else if p.st.hart.run = .blocked then none
  else some (s.onHart (fun h => (h.report (((h.bound d).map (·.strand)).getD 0) stRA).onBound d (fun b => { b with pos := b.pos + 1 })))

/-- Several registers put out. -/
def putOuts (active : List Bool) : List (BitVec 5) → State → Option State
  | [], s => some s
  | d :: t, s => (putOut active d s).bind (putOuts active t)

/-- A result leaves its entry, which is freed or kept as a fault in program order (R151). -/
def Hart.takeRet (h : Hart) (r : Ret) : Hart :=
  let h1 := Hart.writeBack { h with rets := h.rets.filter (fun q => q.id != r.id) } r.res
  match r.fault with
  | some f => { h1 with
      faults := (h1.faults.filter (fun g => decide (g.id < f.id))) ++ f :: (h1.faults.filter (fun g => decide (f.id < g.id))) }
  | none => h1

/-- A result returns (R116): registers and flags, and what a write stream puts out; without room in the buffer the oldest
entry drains and the result comes later. -/
def returnRet (r : Ret) (s : State) : State :=
  match putOuts r.res.active (s.hart.streamedBy r.res) (s.onHart (fun h => h.takeRet r)) with
  | some s1 => s1
  | none => s.onHart Hart.drainOldest

/-- The result may return now: the read-combining entries it waits for are closed (R159). -/
def State.returnable (s : State) (r : Ret) : Bool := !s.reads.any (fun e => r.entries.contains e.id)

/-- NONBLOCKING_RESULT_RETURN (R116): a read of a slice is performed and returns at once; an operation that waits on
nothing else returns. -/
def resultReturn (id : Nat) (s : State) : State :=
  let s1 := match s.hart.op? id with
    | some o => if o.kind.takesEntry then performOp id s else s
    | none => s
  match s1.hart.rets.find? (fun r => r.id == id) with
  | some r => if s1.returnable r then returnRet r s1 else s1
  | none => s1

/-- The loads of a hart that wait on a read-combining entry. -/
def Hart.waitingOn (h : Hart) (k : Nat) : List Op := h.ops.filter (fun o => o.sent == some k && o.kind.isRead)

/-- A reply reaches one operation that waits on it (R147, R159). -/
def answerOp (ok : Bool) (reason : BitVec 8) (data : BitVec 512) (o : Op) (s : State) : State :=
  match o.kind.loadPlace with
  | none => s
  | some (p, n) =>
    if ok then s.onHart (fun h => h.finish o s.now (o.kind.result h (fillFwd p.toNat (bytesOfLine data p.toNat n) o.fwd)) none [])
    else faultOp o 0x05 reason p s

/-- A vldx of the hart in focus whose lines of other nodes have all been answered is performed. -/
def finishFar (o : Op) (s : State) : State :=
  match o.kind with
  | .vloadx fmt t vd idx _ lanes =>
    if o.sent == some gatherSent && !s.far.any (fun f => f.hart == s.hart.num && f.use == .op o.id && f.ans.isNone) then
      performGather o fmt t vd idx lanes s
    else s
  | _ => s

/-- The answer to what was asked of other nodes under a number. -/
def answerFar (k : Nat) (write : Bool) (a : FarAns) (s : State) : State :=
  { s with far := s.far.map (fun f => if f.num = k && f.write = write && f.ans.isNone then { f with ans := some a } else f) }

/-- Every operation of the hart in focus that waits on an entry, and every vldx that now has all its answers. -/
def answerAll (k : Nat) (ok : Bool) (reason : BitVec 8) (data : BitVec 512) (s : State) : State :=
  let s1 := (s.hart.waitingOn k).foldl (fun st o => answerOp ok reason data o st) s
  s1.hart.ops.foldl (fun st o => finishFar o st) s1

/-- Each hart in turn given the focus for an operation; the focus comes back (log 2). -/
def State.withHart (s : State) (n : Nat) (f : State → State) : State :=
  let t := (f (s.focus n))
  t.focus s.hart.num

/-- A request has left its send queue, so that its reply can come; a dead link is answered with REASON 8 at once (R139,
R348). -/
def State.answerable (s : State) (hart id : Nat) (ok : Bool) (reason : BitVec 8) : Bool :=
  (!ok && reason == 8) || !s.unsent (fun p => match p with | .request _ h i _ => h == hart && i == id | _ => false)

/-- READ_REPLY_ARRIVAL (R159): the reply closes its entry; a reply from another node brings every read in it the line, or the
refusal of its target (log 14). -/
def replyArrival (k : Nat) (ok : Bool) (reason : BitVec 8) (data : BitVec 512) (s : State) : State :=
  match s.reads.find? (fun e => e.id == k) with
  | none => s
  | some e =>
    let s1 := { s with reads := s.reads.filter (fun f => f.id != k) }
    if !e.remote then s1
    else if !s.answerable ((e.readers.head?.map (·.1)).getD 0) k ok reason then s
    else ((e.readers.map (·.1)).eraseDups).foldl (fun st n => st.withHart n (answerAll k ok reason data))
      (answerFar k false ⟨if ok then 0 else 0x05, reason, false, data⟩ s1)

/-- ATOMIC_PERFORM (R160): at a point of this module; for one sent to another node, its reply (log 14). -/
def atomicReply (id : Nat) (ok : Bool) (reason : BitVec 8) (old : Word) (s : State) : State :=
  match s.hart.op? id with
  | none => s
  | some o =>
    match o.kind, o.sent with
    | .atomic .., none => performOp id s
    | .atomic ea fn _ _ d, some n =>
      if n = lostRead || !s.answerable s.hart.num id ok reason then s
      else if ok then
        let v := if amoSize fn = 8 then old else if fn.toNat ≥ 16 then sext64 (old.setWidth 32) else zext64 (old.setWidth 32)
        s.onHart (fun h => h.finish o s.now (.xval d v) none [])
      else faultOp o 0x05 reason ea s
    | _, _ => s

/-- One acknowledgement fewer to come for a store; the last one performs it (R348). -/
def Hart.acked (h : Hart) (id : Nat) (st : BitVec 17) (now : Word) : Hart :=
  match h.op? id with
  | none => h
  | some o =>
    let n := o.sent.getD 0 - 1
    let h1 := h.report o.strand st
    match o.kind with
    | .store [] _ _ => if n = 0 then h1.perform id now else h1.putOp { o with sent := some n }
    | _ => h1.putOp { o with sent := if n = 0 then none else some n }

/-- What the acknowledgement of a write says to an engine, a copy or a blocking store: CS, DL and RA stand for a suspended class, a dead
link and a refusal of the target (R139, R171). -/
def ackAnswer (st : BitVec 17) : FarAns :=
  if st &&& stCS ≠ 0 then ⟨0, 0, true, 0⟩
  else if st &&& stDL ≠ 0 then ⟨0x05, 8, false, 0⟩
  else if st &&& stRA ≠ 0 then ⟨0x05, 6, false, 0⟩
  else ⟨0, 0, false, 0⟩

/-- The hart in focus has such a write of no operation on its way. -/
def State.farWriting (s : State) (id : Nat) : Bool :=
  s.far.any (fun f => f.hart == s.hart.num && f.write && f.num == id && f.ans.isNone)

/-- An acknowledgement or a refusal reaches the writer (R171, R348). -/
def acknowledge (id : Nat) (st : BitVec 17) (s : State) : State :=
  match s.hart.writes.find? (fun w => w.num == id) with
  | none => answerFar id true (ackAnswer st) s
  | some w =>
    s.onHart (fun h => w.ops.foldl (fun h i => h.acked i st s.now) { h with writes := h.writes.filter (fun v => v.num != id) })

/-- A write or a message of the hart in focus that has not left its send queue. -/
def State.unsentBy (s : State) (id : Nat) : Bool :=
  s.unsent (fun p => match p with
    | .write _ h i _ => h == s.hart.num && i == id
    | .message _ m => m.srcHart.toNat == s.hart.num && m.header[1]? == some (BitVec.ofNat 64 id)
    | _ => false)

/-- WRITE_ACKNOWLEDGEMENT (R348): of a write sent to another node, by its number, once it has left its send queue; the answer
to an msend; or the write of a bank of this module itself. -/
def writeAck (id : Nat) (st : BitVec 3) (s : State) : State :=
  if s.unsentBy id then s
  else if s.hart.writes.any (fun w => w.num == id) || s.farWriting id then acknowledge id (statusOf st) s
  else match s.hart.op? id with
    | none => s
    | some o =>
      match o.kind, o.sent with
      | .store _ _ false, none => performOp id s
      | .msend .., some _ =>
        (s.onHart (fun h => (h.report o.strand (statusOf st)).perform id s.now)).unlock s.hart.num id
      | _, _ => s

/-- POSTED_WRITE_REFUSED (R353): a write of the hart in focus, of its engine or of a copy has reached the head of its link queue while
the class is suspended: it is refused with CS. -/
def writeRefused (id : Nat) (s : State) : State :=
  match s.sendq.find? (fun i => match i.pkt with | .write _ h n _ => h == s.hart.num && n == id | _ => false) with
  | none => s
  | some it =>
    if s.suspended it.peer && (s.sendq.find? (fun i => i.peer == it.peer && i.cls == 2)) == some it then
      acknowledge id stCS { s with sendq := s.sendq.erase it }
    else s

/-- A fetch of a stream's register j is on its way. -/
def Hart.fetching (h : Hart) (reg : BitVec 5) (j : Nat) : Bool :=
  h.ops.any (fun o => match o.kind with | .streamLoad q i _ _ => q == reg && i == j | _ => false)
    || h.rets.any (fun q => match q.res with | .stream p i _ _ _ => p == reg && i == j | _ => false)

/-- STREAM_FETCH (R212): a read stream fetches its next register, up to four ahead of consumption; an element beyond the
capacity or a range-locked destination is the fetch's own fault (R205, R211). -/
def streamFetch (r : BitVec 3) (s : State) : State :=
  match s.hart.bind r with
  | none => s
  | some b =>
    let at_ : Binding := { b with pos := b.fetched }
    let ea := b.addr b.fetched
    let reg : BitVec 5 := 24 + r.setWidth 5
    if b.write || b.fetched ≥ b.count || b.fetched ≥ b.pos + 4 then s
    else if b.ready.any (fun p => p.1 == b.fetched) || s.hart.fetching reg b.fetched then
      s.onHart (fun h => h.setBind r (some { b with fetched := b.fetched + 1 }))
    else if s.noSlot ea then s
    else
      let p := vecPlace b.fmt ea
      let lk := lockHit s p.toNat (p.toNat + codeBytes b.fmt) false b.strand
      let c : BitVec 8 := if at_.beyond then 0x05 else lk
      let s1 := s.onHart (fun h => h.setBind r (some { b with fetched := b.fetched + 1 }))
      if c ≠ 0 then s1.onHart (fun h => h.writeBack (.stream reg b.fetched 0 0 c))
      else issueLoad b.strand (.streamLoad reg b.fetched ea b.fmt) s1

end Sys2Proof.Machine
end

