-- ==== Sys2Proof/Machine/Device.lean ====
section
/-! DEFINITION. Memory accesses of the engines and the copy channels: line by line, translated like the issuing hart's
accesses (R20, R235). An access to another node is sent, and the unit waits for its answer (R347, log 25). -/

namespace Sys2Proof.Machine

/-- How a device access ends: the bytes, a fault with its cause and REASON, or a wait for a translation of another
node. -/
inductive Got where
  | bytes (b : List Byte)
  | fault (cause reason : BitVec 8)
  | wait
deriving DecidableEq, Repr

/-- Who a device access is made for: the hart, its region and its level (R140, R381), and its operation with the strand. -/
structure Agent where
  hart : Nat
  region : Option (BitVec 16)
  level : Level
  strand : BitVec 3
  op : Nat
deriving DecidableEq, Repr

/-- Where a device access goes: through the second-level TLB of the hart it is made for (R20, R235). -/
def Agent.translate (g : Agent) (need : Need) (a : Word) (s : State) : Trans :=
  translateBy s (.table (hartTable g.hart)) g.hart g.region g.level need a

/-- The access of an agent to a line of another node (R381). -/
def Agent.access (g : Agent) (s : State) (kind : AccKind) (addr n : Nat) (data : BitVec 512) (mask : BitVec 64) : Access :=
  ⟨s.nodeId, g.region, g.level == .M, kind, BitVec.ofNat 64 addr, n, data, mask, 0, false⟩

/-- The translation of an agent's access has not come (R147, R415). -/
def Agent.awaits (g : Agent) (t : Trans) (need : Need) (a : Word) (s : State) : State := s.awaits t g.hart g.region g.level need a

/-- A read within one line: HBM through the read-combining table of the hart it is made for (R159). -/
def lineRead (g : Agent) (a : Word) (n : Nat) (s : State) : Got × State :=
  let t := g.translate .load a s
  let r : Reader := ⟨g.hart, g.strand, false, false⟩
  if t.cause = awaitRemote then (.wait, g.awaits t .load a s)
  else if t.cause ≠ 0 then (.fault t.cause t.reason, t.st)
  else if gaNode a = s.nodeId then
    if t.st.poisoned t.key then (.wait, reportPoison g.region t.key t.st)
    else if gaCore a = hbmCore then
      let (_, b, s1) := readLine r t.key n t.st
      (.bytes b, s1)
    else (.bytes (t.st.readKey t.key n), t.st)
  else match farRead r (.op g.op) a t.key n (g.access s .read t.key n 0 0) t.st with
    | (.data d, s1) => (.bytes (bytesOfLine d t.key n), s1)
    | (.fault c w, s1) => (.fault c w, s1)
    | (_, s1) => (.wait, s1)

/-- A read of any length, line by line. -/
def rangeRead (g : Agent) : Nat → Word → Nat → State → Got × State
  | 0, _, _, s => (.bytes [], s)
  | fuel + 1, a, n, s =>
    if n = 0 then (.bytes [], s)
    else
      let m := min n (64 - a.toNat % 64)
      match lineRead g a m s with
      | (.bytes b, s1) =>
        match rangeRead g fuel (a + BitVec.ofNat 64 m) (n - m) s1 with
        | (.bytes c, s2) => (.bytes (b ++ c), s2)
        | r => r
      | r => r

/-- A read of n bytes. -/
def deviceGet (g : Agent) (a : Word) (n : Nat) (s : State) : Got × State := rangeRead g (n / 64 + 2) a n s

/-- How a device write ends: done, a fault or a refusal with the address of the part not written, the same for a suspended
class, or a wait. -/
inductive Put where
  | done
  | fault (cause reason : BitVec 8) (at_ : Word)
  | wait
  | suspended (at_ : Word)
deriving DecidableEq, Repr

/-- A write within one line (R149, R166, R353). -/
def linePut (g : Agent) (a : Word) (b : List Byte) (s : State) : Put × State :=
  let t := g.translate .store a s
  if t.cause = awaitRemote then (.wait, g.awaits t .store a s)
  else if t.cause ≠ 0 then (.fault t.cause t.reason a, t.st)
  else
    let s1 := markReads (hartTable g.hart) (t.key / 64) t.st
    if gaNode a = s.nodeId then
      let (ok, s2) := writeHome g.region t.key b s1
      (if ok then .done else .fault 0x05 10 a, s2)
    else
      let off := t.key % 64
      match farWrite g.hart (.op g.op) a
          (g.access s .write (t.key - off) 64 (BitVec.ofNat 512 (leNat b * 2 ^ (8 * off))) (lineMask a b.length)) s1 with
      | (.data _, s2) => (.done, s2)
      | (.fault c w, s2) => (.fault c w a, s2)
      | (.suspended, s2) => (.suspended a, s2)
      | (.pending, s2) => (.wait, s2)

/-- A write of any length in ascending lines; what was written before an end stays written. -/
def rangePut (g : Agent) : Nat → Word → List Byte → State → Put × State
  | 0, _, _, s => (.done, s)
  | fuel + 1, a, b, s =>
    if b.isEmpty then (.done, s)
    else
      let m := 64 - a.toNat % 64
      match linePut g a (b.take m) s with
      | (.done, s1) => rangePut g fuel (a + BitVec.ofNat 64 m) (b.drop m) s1
      | r => r

/-- A write of bytes. -/
def devicePut (g : Agent) (a : Word) (b : List Byte) (s : State) : Put × State := rangePut g (b.length / 64 + 2) a b s

end Sys2Proof.Machine
end

