-- ==== Sys2Proof/Machine/Matrix.lean ====
section
/-! DEFINITION. The matrix engine (09, R232 to R265): its stores, the tile configuration, enqueuing a command, and what
one strip of each command computes. Which tile an engine takes next, and its drain, stand in Engine.lean. -/

namespace Sys2Proof.Machine

/-! ### The engine's stores (R232) -/

/-- The engine of a frame. -/
def State.engine (s : State) (f : Nat) : Engine := (s.engines.find? (fun e => e.frame == f)).getD (Engine.reset f)

/-- An engine list with one engine put in its place, frames rising. -/
def putEngine (e : Engine) : List Engine → List Engine
  | [] => [e]
  | g :: t => if g.frame = e.frame then e :: t else if e.frame < g.frame then e :: g :: t else g :: putEngine e t

/-- The state with an engine replaced. -/
def State.setEngine (s : State) (e : Engine) : State := { s with engines := putEngine e s.engines }

/-- The key of an accumulator element: row, column. -/
def accKey (r c : Nat) : Nat := r * 512 + c
/-- The key of a CIM slot byte: array row, column, slot. -/
def cimKey (r c slot : Nat) : Nat := (r * 512 + c) * 16 + slot
/-- The key of a scale byte: block, column, slot. -/
def scaleKey (kb c slot : Nat) : Nat := (kb * 512 + c) * 16 + slot

/-- Several values set. -/
def setCells {w : Nat} (c : Cells w) (l : List (Nat × BitVec w)) : Cells w := l.foldl (fun c p => Cells.set c p.1 p.2) c

/-! ### The tile configuration (R238, R239) -/

def cfgA (c : Word) : Nat := bitsOf c 0 4
def cfgB (c : Word) : Nat := bitsOf c 4 4
def cfgBw (c : Word) : Bool := c.getLsbD 8
def cfgNeg (c : Word) : Bool := c.getLsbD 9
def cfgSlot (c : Word) : Nat := bitsOf c 12 4
def cfgM (c : Word) : Nat := bitsOf c 16 8
def cfgK (c : Word) : Nat := bitsOf c 32 9
def cfgN (c : Word) : Nat := bitsOf c 48 10
def cfgRed (c : Word) : Bool := c.getLsbD 62
def cfgValid (c : Word) : Bool := c.getLsbD 63
/-- The fields mcfg writes (R238). -/
def cfgMask : Word := 0x03FF01FF00FFF3FF

/-- The number of the first check that fails, 0 if none does (R239). -/
def cfgCheck (c : Word) (red : Bool) : Nat :=
  if !([2, 4, 5, 6, 7].contains (cfgA c)) then 1
  else if !([1, 2, 4, 5, 7].contains (cfgB c)) || (cfgB c == 7 && cfgBw c) then 2
  else if (cfgBw c && cfgSlot c % 2 == 1) || (red && cfgSlot c ≥ 8) then 3
  else if !(1 ≤ cfgM c && cfgM c ≤ 128) then 4
  else if !(1 ≤ cfgK c && cfgK c ≤ 480) then 5
  else if !(1 ≤ cfgN c && cfgN c ≤ 512) then 6
  else 0

/-- A configuration with its RED and VALID bits. -/
def cfgWord (c : Word) (red : Bool) : Word :=
  (c &&& cfgMask) ||| (if red then 1#64 <<< 62 else 0) ||| (if cfgCheck c red = 0 then 1#64 <<< 63 else 0)

/-- Blocks of a row of n elements (R235). -/
def blocksOf (n : Nat) : Nat := (n + 47) / 48

/-! ### Issue checks (R253, R254, R259, R252) -/

/-- Major 0x3A is available: a compute hart whose node, if any, has ENGINE = 1 (R254). -/
def State.engineAllowed (s : State) : Bool :=
  decide (s.hart.num < 1024) && (match s.hart.node with | some n => n.engine | none => true)

/-- A flight entry's frames (R293). -/
def flightHasFrame (w : Word) (f : Nat) : Bool :=
  let h0 := bitsOf w 0 11
  let n := bitsOf w 16 11
  decide (h0 / 8 ≤ f) && decide (f ≤ (h0 + n - 1) / 8)

/-- A stairwell withholds weight writes on an engine (R306, R308). -/
def State.withholds (s : State) (f : Nat) : Bool :=
  s.seqs.toList.any (fun q => q.bound && !q.permit && q.flights.any (fun w => flightHasFrame w f))

/-- The alignment of A and S for AFMT (R235). -/
def aAlign (fmt : Nat) : Nat := match fmt with | 6 => 32 | 7 => 64 | 2 => 2 | _ => 1
/-- Bytes of one row of n elements (R235). -/
def rowBytes (fmt n : Nat) : Nat :=
  match fmt with
  | 6 => 32 * blocksOf n
  | 7 => 64 * blocksOf n
  | 2 => 2 * n
  | _ => n
/-- The element size of a B source (R258). -/
def bSize (fmt : Nat) : Nat := match fmt with | 1 => 4 | 2 => 2 | _ => 1

/-- The bounding interval of `rows` rows of `len` bytes whose stride is signed (R188). -/
def rowsSpan (a : Word) (rows len : Nat) (stride : Word) : Nat × Nat :=
  let off : Int := ((rows - 1 : Nat) : Int) * stride.toInt
  let lo : Int := (a.toNat : Int) + min 0 off
  let hi : Int := (a.toNat : Int) + max 0 off + len
  (lo.toNat, hi.toNat)

/-- The queue or the range-lock table has no room (R242). -/
def State.queueFull (s : State) (locks : Nat) : Bool :=
  decide (s.hart.cmds.length ≥ Config.queue) || !s.lockRoom locks

/-- A command put into the hart's queue with its captured values (R240, R251), and its range-lock entry. -/
def enqueue (major fn : BitVec 6) (sn : BitVec 3) (word : BitVec 32) (xa xb : Word) (dest : BitVec 5) (data : VReg)
    (kn : Option (BitVec 32 × BitVec 32 × BitVec 32 × BitVec 4 × BitVec 2 × BitVec 2)) (peers : List Nat)
    (lock : Option (Nat × Nat × LockKind)) (s : State) : State :=
  let s1 := s.onHart (fun h => (h.issueOp sn .engine).drainStrand sn)
  let c : Cmd := ⟨s1.hart.nextOp - 1, s.hart.pc, word, major, fn, sn, xa, xb, s.oxr 0, s.oxr 1, s.oxr 2, s.hart.cfg, dest,
    data, 0, false, kn, peers, false, false⟩
  let s2 := s1.onHart (fun h => { h with cmds := h.cmds ++ [c] })
  match lock with
  | some (lo, hi, k) => s2.lock lo hi k sn
  | none => s2

/-- A matrix command issued: available, aligned when the configuration is valid, weight writes permitted, room. -/
def issueCmd (fn : BitVec 6) (sn : BitVec 3) (b a d : BitVec 5) (xa xb : Word) (data : VReg) (aligned : Bool)
    (weight : Bool) (peers : List Nat) (lock : Option (Nat × Nat × LockKind)) (m : Bool) (s : State) : State :=
  if !s.engineAllowed then trap 0x05 0 s
  else if !aligned then trap 0x03 xa s
  else if weight then trap 0x0A xa s
  else if s.queueFull (if lock.isSome then 1 else 0) then s.block
  else (enqueue 0x3A fn sn (encX m fn sn b a d 0x3A) xa xb d data none peers lock s).done 4 m

/-- The source interval of an A operand, when the configuration is valid. -/
def aLock (s : State) (n : Nat) (xa : Word) : Option (Nat × Nat × LockKind) :=
  let c := s.hart.cfg
  if cfgValid c then
    let (lo, hi) := rowsSpan xa (cfgM c) (rowBytes (cfgA c) n) (s.oxr 0)
    some (lo, hi, .source)
  else none

/-- A is aligned, or the configuration is not valid (R259). -/
def aAligned (s : State) (xa : Word) : Bool :=
  let n := aAlign (cfgA s.hart.cfg)
  !cfgValid s.hart.cfg || (xa.toNat % n == 0 && (s.oxr 0).toNat % n == 0)

/-! ### The instructions (R255) -/

/-- mcfg (R256). -/
def execMcfg (d a : BitVec 5) (m : Bool) (s : State) : Out :=
  if !s.engineAllowed then .next (trap 0x05 0 s)
  else
    let c := s.x a
    let red := cfgRed s.hart.cfg
    .next (((s.onHart (fun h => { h with cfg := cfgWord c red })).setX d (BitVec.ofNat 64 (cfgCheck c red))).done 4 m)

/-- mredund (R257). -/
def execMredund (d a : BitVec 5) (m : Bool) (s : State) : Out :=
  if !s.engineAllowed then .next (trap 0x05 0 s)
  else
    let red := (s.x a).getLsbD 0
    let c := s.hart.cfg
    .next (((s.onHart (fun h => { h with cfg := cfgWord c red })).setX d (BitVec.ofNat 64 (cfgCheck c red))).done 4 m)

/-- mload (R258): the source interval covers its columns. -/
def execMload (a b : BitVec 5) (sn : BitVec 3) (m : Bool) (s : State) : Out :=
  let c := s.hart.cfg
  let xa := s.x a
  let al := if cfgB c = 7 then 64 else bSize (cfgB c)
  let len := if cfgB c = 7 then 64 * blocksOf (cfgK c) else bSize (cfgB c) * cfgK c
  let (lo, hi) := rowsSpan xa (cfgN c) len (s.oxr 0)
  .next (issueCmd 1 sn b a 0 xa (s.x b) 0 (!cfgValid c || (xa.toNat % al == 0 && (s.oxr 0).toNat % al == 0))
    (cfgValid c && s.withholds (hartFrame s.hart.num)) [] (if cfgValid c then some (lo, hi, .source) else none) m s)

/-- mmul (R259). -/
def execMmul (a b : BitVec 5) (sn : BitVec 3) (m : Bool) (s : State) : Out :=
  .next (issueCmd 2 sn b a 0 (s.x a) (s.x b) 0 (aAligned s (s.x a)) false [] (aLock s (cfgK s.hart.cfg) (s.x a)) m s)
/-- mmulz (R259). -/
def execMmulz (a b : BitVec 5) (sn : BitVec 3) (m : Bool) (s : State) : Out :=
  .next (issueCmd 3 sn b a 0 (s.x a) (s.x b) 0 (aAligned s (s.x a)) false [] (aLock s (cfgK s.hart.cfg) (s.x a)) m s)

/-- The frames on a bus of a frame, itself among them (R21): 0 the row bus, 1 the column bus. -/
def busFrames (f bus : Nat) : List Nat :=
  if bus = 0 then (List.range 8).map (fun c => f / 32 * 32 + c * 4 + f % 4)
  else (List.range 4).map (fun r => f / 4 * 4 + r)

/-- The region a hart is reserved to as a member of a bound stairwell (R291). -/
def State.reservedTo (s : State) (h : Nat) : Option (BitVec 16) :=
  (s.seqs.toList.find? (fun q => q.bound && q.flights.any (fun w =>
    decide (bitsOf w 0 11 ≤ h) && decide (h < bitsOf w 0 11 + bitsOf w 16 11)))).map (·.region)

/-- The region that holds a frame (R380): one of its harts runs a node of it, or is reserved to it. -/
def State.frameHolder (s : State) (f : Nat) : Option (BitVec 16) :=
  ((List.range 8).filterMap (fun i =>
    match (s.getHart (8 * f + i)).region with
    | some r => some r
    | none => s.reservedTo (8 * f + i))).head?

/-- The other engines of a bus whose frame belongs to the hart's region (R260). -/
def busPeers (s : State) (bus : Nat) : List Nat :=
  let f := hartFrame s.hart.num
  (busFrames f bus).filter (fun g => g != f && s.hart.region.isSome && s.frameHolder g == s.hart.region)

/-- mmul.bc (R260). -/
def execMmulBc (a b : BitVec 5) (sn : BitVec 3) (m : Bool) (s : State) : Out :=
  .next (issueCmd 4 sn b a 0 (s.x a) (s.x b) 0 (aAligned s (s.x a)) false (busPeers s (bitsOf (s.x b) 48 2))
    (aLock s (cfgK s.hart.cfg) (s.x a)) m s)
/-- mtmul (R261): rows of N elements. -/
def execMtmul (a b : BitVec 5) (sn : BitVec 3) (m : Bool) (s : State) : Out :=
  .next (issueCmd 5 sn b a 0 (s.x a) (s.x b) 0 (aAligned s (s.x a)) false [] (aLock s (cfgN s.hart.cfg) (s.x a)) m s)

/-- The fields of a tile word (R241): first row, first column, rows, columns. -/
def tileOf (w : Word) : Nat × Nat × Nat × Nat := (bitsOf w 0 7, bitsOf w 16 9, bitsOf w 32 8, bitsOf w 48 10)
/-- A tile word is in range (R241). -/
def tileOk (w : Word) : Bool :=
  let (r0, c0, r, c) := tileOf w
  1 ≤ r && r ≤ 128 && 1 ≤ c && c ≤ 512 && r0 + r ≤ 128 && c0 + c ≤ 512

/-- The interval of a tile in memory, when its word is in range. -/
def tileLock (s : State) (xa w : Word) (k : LockKind) : Option (Nat × Nat × LockKind) :=
  if tileOk w then
    let (_, _, r, c) := tileOf w
    let (lo, hi) := rowsSpan xa r (4 * c) (s.oxr 0)
    some (lo, hi, k)
  else none

/-- acld (R262). -/
def execAcld (a b : BitVec 5) (sn : BitVec 3) (m : Bool) (s : State) : Out :=
  .next (issueCmd 6 sn b a 0 (s.x a) (s.x b) 0 ((s.x a).toNat % 4 == 0 && (s.oxr 0).toNat % 4 == 0) false []
    (tileLock s (s.x a) (s.x b) .source) m s)

/-- A destination interval overlaps a weight range of a stairwell of the hart's region that withholds weight writes (R306,
R308). -/
def State.hitsWeights (s : State) (l : Option (Nat × Nat × LockKind)) : Bool :=
  match l with
  | some (lo, hi, _) => s.seqs.toList.any (fun q => q.bound && !q.permit && some q.region == s.hart.region &&
      q.ranges.any (fun r => meets lo hi r.1.toNat (r.1.toNat + r.2.toNat)))
  | none => false

/-- acst (R262, R308). -/
def execAcst (a b : BitVec 5) (sn : BitVec 3) (m : Bool) (s : State) : Out :=
  let l := tileLock s (s.x a) (s.x b) .dest
  .next (issueCmd 7 sn b a 0 (s.x a) (s.x b) 0 ((s.x a).toNat % 4 == 0 && (s.oxr 0).toNat % 4 == 0) (s.hitsWeights l)
    [] l m s)

/-- acrd (R263): one scoreboard entry. It writes v[vd], so that a bound vd is checked at issue (R212). -/
def execAcrd (d a : BitVec 5) (sn : BitVec 3) (m : Bool) (s : State) : Out :=
  let xa := s.x a
  let issues := s.engineAllowed && bitsOf xa 16 9 % 16 == 0
  if issues && s.hart.writeMisuse d then .next (trap 0x0E (zext64 d) s)
  else if issues && !(produceChecks fullLanes [d] s).ok then .next (s.stopAs (produceChecks fullLanes [d] s.calm).st)
  else if issues && decide (s.hart.entries ≥ Config.scoreboard) then .next s.noEntry
  else .next (issueCmd 8 sn 0 a d xa 0 0 (bitsOf xa 16 9 % 16 == 0) false [] none m s)

/-- acwr (R263): v[vd] is read at issue. -/
def execAcwr (d a : BitVec 5) (sn : BitVec 3) (m : Bool) (s : State) : Out :=
  let xa := s.x a
  if !s.engineAllowed || bitsOf xa 16 9 % 16 != 0 || s.queueFull 0 then
    .next (issueCmd 9 sn 0 a d xa 0 0 (bitsOf xa 16 9 % 16 == 0) false [] none m s)
  else
    let con := consumeAll [d] s
    if !con.ok then .next con.st
    else .next (issueCmd 9 sn 0 a d xa 0 (con.st.vr d) true false [] none m con.st)

/-- acz (R262): the tile word stands in x[a]. -/
def execAcz (a : BitVec 5) (sn : BitVec 3) (m : Bool) (s : State) : Out :=
  .next (issueCmd 10 sn 0 a 0 (s.x a) 0 0 true false [] none m s)

/-- An mmul.bc at the head of the queue waits for its bus (R260, R264): another command holds it, from its first tile on and
again from its first tile after a gang stop (log 67). -/
def State.busBusy (s : State) (f bus hart op : Nat) : Bool :=
  (busFrames f bus).any (fun g =>
    (List.range 8).any (fun i =>
      let n := 8 * g + i
      (s.getHart n).cmds.any (fun c => c.holds && !(n == hart && c.op == op) && bitsOf c.xb 48 2 == bus)))

/-- The word mqst reads (R264). -/
def engineWord (s : State) (sel : Nat) : Word :=
  let h := s.hart
  match sel, h.engErr with
  | 0, _ =>
    let waits := match h.cmds.head? with
      | some c => c.major == 0x3A && c.fn == 4 && !c.holds && s.busBusy (hartFrame h.num) (bitsOf c.xb 48 2) h.num c.op
      | none => false
    BitVec.ofNat 64 (h.cmds.length + (if waits then 256 else 0))
  | 1, _ => h.cfg
  | 2, some e => e.pc ||| 1
  | 3, some e => BitVec.ofNat 64 (e.word.toNat + e.ecode.toNat * 2 ^ 32 + e.strip.toNat * 2 ^ 48)
  | 4, some e => e.xa
  | 5, some e => e.xb
  | 6, some e => e.ox0
  | 7, some e => e.cfg
  | 8, some e => BitVec.ofNat 64 (e.col0.toNat + e.col1.toNat * 2 ^ 16)
  | _, _ => 0

/-- mqst (R264). -/
def execMqst (d a : BitVec 5) (m : Bool) (s : State) : Out :=
  if !s.engineAllowed then .next (trap 0x05 0 s)
  else .next ((s.setX d (engineWord s (bitsOf (s.x a) 0 4))).done 4 m)

/-! ### What a strip computes (R235, R236, R245, R246) -/

/-- A block of A: its integers and exponent, none for a NaN block. -/
abbrev ABlock := Option (List Int × Int)

/-- The integers of a scalar-format block aligned to one exponent (R110). -/
def alignBlock (vals : List FVal) : ABlock :=
  if vals.any fvNonFinite then none
  else if vals.all fvZero then some (vals.map (fun _ => 0), 0)
  else match maxMag vals (.fin false 0 0) with
    | .fin _ m e =>
      let (n, d) := finRat m e
      let sa := ratLog2 n d - 14
      some (vals.map (fun v => match v with
        | .fin neg m e => (dyRoundInt .rne neg m (e - sa)).1
        | _ => 0), sa)
    | _ => none

/-- A block of n elements from its bytes; a record's unread bytes stand as 0. -/
def blockA (fmt n : Nat) (b : List Byte) : ABlock :=
  match fmt with
  | 6 | 7 =>
    let k8 := fmt == 7
    if recordScale k8 b == 255 then none
    else some ((List.range n).map (recordInt k8 b), recordUnit k8 b)
  | _ =>
    let f : Fp := match fmt with | 2 => .bf16 | 4 => .e4m3 | _ => .e5m2
    alignBlock ((groupBytes (if fmt = 2 then 2 else 1) n b).map (fpDecode f))

/-- The byte ranges of block kb that the row buffer reads, for n elements (R235, R236): offset in the block, length. -/
def blockRanges (fmt n : Nat) : List (Nat × Nat) :=
  match fmt with
  | 6 => [(0, (n + 1) / 2), (24, 2)]
  | 7 => [(0, n), (48, 1)]
  | 2 => [(0, 2 * n)]
  | _ => [(0, n)]

/-- Bytes of a whole block in memory. -/
def blockStride (fmt : Nat) : Nat := match fmt with | 6 => 32 | 7 => 64 | 2 => 96 | _ => 48

/-- The ranges of a block read, its bytes with zeros where nothing was read. -/
def readRanges (g : Agent) (a : Word) : List (Nat × Nat) → List Byte → State → Got × State
  | [], acc, s => (.bytes acc, s)
  | (o, n) :: t, acc, s =>
    match deviceGet g (a + BitVec.ofNat 64 o) n s with
    | (.bytes b, s1) => readRanges g a t (acc ++ List.replicate (o - acc.length) 0 ++ b) s1
    | r => r

/-- How a fetch of operands ends. -/
inductive Fetch (α : Type) where
  | got (v : α)
  | fault (cause reason : BitVec 8)
  | wait
deriving DecidableEq, Repr

/-- One row of A, block by block (R235): `len` elements remain from block kb on. -/
def fetchRow (g : Agent) (fmt : Nat) : Nat → Word → Nat → State → Fetch (List ABlock) × State
  | 0, _, _, s => (.got [], s)
  | fuel + 1, a, len, s =>
    if len = 0 then (.got [], s)
    else
      let n := min 48 len
      match readRanges g a (blockRanges fmt n) [] s with
      | (.bytes b, s1) =>
        match fetchRow g fmt fuel (a + BitVec.ofNat 64 (blockStride fmt)) (len - n) s1 with
        | (.got l, s2) => (.got (blockA fmt n b :: l), s2)
        | r => r
      | (.fault c r, s1) => (.fault c r, s1)
      | (.wait, s1) => (.wait, s1)

/-- Several rows of A. -/
def fetchRows (g : Agent) (fmt len : Nat) (stride : Word) : Nat → Word → State → Fetch (List (List ABlock)) × State
  | 0, _, s => (.got [], s)
  | rows + 1, a, s =>
    match fetchRow g fmt 11 a len s with
    | (.got r, s1) =>
      match fetchRows g fmt len stride rows (a + stride) s1 with
      | (.got l, s2) => (.got (r :: l), s2)
      | x => x
    | (.fault c w, s1) => (.fault c w, s1)
    | (.wait, s1) => (.wait, s1)

/-- The B integer at an array row and column; the mirror placement of redundant mode (R232, R233). -/
def bInt (e : Engine) (slot : Nat) (bw mirror : Bool) (row col : Nat) : Int :=
  let r := if mirror then (row + 96) % 480 else row
  let sl := if mirror then slot + 8 else slot
  if bw then
    ((Cells.get e.cim (cimKey r col sl)).toNat : Int) + 256 * (Cells.get e.cim (cimKey r col (sl + 1))).toInt
  else (Cells.get e.cim (cimKey r col sl)).toInt

/-- The scale byte of a block and column. -/
def bScale (e : Engine) (slot : Nat) (mirror : Bool) (kb col : Nat) : Nat :=
  (Cells.get e.scale (scaleKey (if mirror then (kb + 2) % 10 else kb) col (if mirror then slot + 8 else slot))).toNat

/-- A partial product (R111): the exact sum, rounded once to FP32. -/
def partialOf (sum : Int) (e : Int) : Nat := (fpRoundDyadic .fp32 .rne (sum < 0) sum.natAbs e).bits

/-- The partial of A block kb against a resident column (R245). -/
def partialMul (e : Engine) (cfg : Word) (mirror : Bool) (blk : ABlock) (kb col : Nat) : Nat :=
  let sc := bScale e (cfgSlot cfg) mirror kb col
  match blk with
  | none => fpNaN .fp32
  | some (qa, sa) =>
    if sc = 255 then fpNaN .fp32
    else
      let sum := (qa.zipIdx.map (fun p => p.1 * bInt e (cfgSlot cfg) (cfgBw cfg) mirror (48 * kb + p.2) col)).foldl (· + ·) 0
      partialOf sum (sa + (sc : Int) - 127)

/-- The partial of A block nb against an array row, over the columns of the block (R246): each term has its column's
scale. -/
def partialTr (e : Engine) (cfg : Word) (mirror : Bool) (blk : ABlock) (nb row bcol : Nat) : Nat :=
  match blk with
  | none => fpNaN .fp32
  | some (qa, sa) =>
    let cols := qa.zipIdx.map (fun p => (p.1, bcol + 48 * nb + p.2))
    let scales := cols.map (fun p => bScale e (cfgSlot cfg) mirror (row / 48) p.2)
    if scales.any (fun v => v == 255) then fpNaN .fp32
    else
      let lo := scales.foldl min 255
      let sum := ((cols.zip scales).map (fun p =>
        p.1.1 * bInt e (cfgSlot cfg) (cfgBw cfg) mirror row p.1.2 * (2 ^ (p.2 - lo) : Nat))).foldl (· + ·) 0
      partialOf sum (sa + (lo : Int) - 127)

/-- One addition into an accumulator element (R245): FP32, to nearest. -/
def accAdd (neg : Bool) (acc p : Nat) : Nat :=
  let v := fpDecode .fp32 p
  (fpAddV .fp32 .rne (fpDecode .fp32 acc) (if neg then fvNeg v else v)).bits

/-- An element: its partials added in ascending order from block `i` on; a mirror partial that differs names its block
(R233, R245). -/
def accElem (cfg : Word) (i start : Nat) : List (Nat × Nat) → Except Nat Nat
  | [] => .ok start
  | p :: t => if p.1 = p.2 then accElem cfg (i + 1) (accAdd (cfgNeg cfg) start p.1) t else .error i

/-- The new elements of one strip, or the resident column at which its drain comparison fails (R248). -/
inductive StripOut where
  | cells (l : List (Nat × BitVec 32))
  | mismatch (col : Nat)
deriving DecidableEq, Repr

/-- Elements computed one by one; the first mismatch ends the strip. -/
def stripElems (key : Nat × Nat → Nat) (val : Nat × Nat → Except Nat Nat) : List (Nat × Nat) → StripOut
  | [] => .cells []
  | rc :: t =>
    match val rc with
    | .error col => .mismatch col
    | .ok v =>
      match stripElems key val t with
      | .cells l => .cells ((key rc, BitVec.ofNat 32 v) :: l)
      | r => r

/-- The accumulator element of row r and column j of a strip (R241). -/
def Cmd.elemKey (c : Cmd) (strip : Nat) (rc : Nat × Nat) : Nat :=
  accKey (bitsOf c.xb 0 7 + 16 * strip + rc.1) (bitsOf c.xb 16 9 + rc.2)

/-- The rows and columns of a strip, row by row. -/
def stripPlaces (rows cols : Nat) : List (Nat × Nat) :=
  (List.range rows).flatMap (fun r => (List.range cols).map (fun j => (r, j)))

/-- The column a mismatch names when its block spans columns: the first of the block (R248, log 68). -/
def Cmd.blockCol (c : Cmd) (nb : Nat) : Nat := bitsOf c.xb 32 9 + 48 * nb

/-- Pairs of partials: the primary and, in redundant mode, the mirror. -/
def withMirror (cfg : Word) (f : Bool → Nat) : Nat × Nat := (f false, if cfgRed cfg then f true else f false)

/-- One strip of mmul, mmulz or mmul.bc on an engine (R245). `row0` is the strip's first row. -/
def stripMul (e : Engine) (c : Cmd) (zero : Bool) (strip : Nat) (rows : List (List ABlock)) : StripOut :=
  stripElems (c.elemKey strip) (fun rc =>
    let col := bitsOf c.xb 32 9 + rc.2
    let ps := ((rows[rc.1]?).getD []).zipIdx.map (fun b => withMirror c.cfg (fun mir => partialMul e c.cfg mir b.1 b.2 col))
    let start := if zero then 0 else (Cells.get e.acc (c.elemKey strip rc)).toNat
    (accElem c.cfg 0 start ps).mapError (fun _ => col)) (stripPlaces rows.length (cfgN c.cfg))

/-- One strip of mtmul (R246): outputs run over the array rows. -/
def stripTr (e : Engine) (c : Cmd) (strip : Nat) (rows : List (List ABlock)) : StripOut :=
  stripElems (c.elemKey strip) (fun rc =>
    let ps := ((rows[rc.1]?).getD []).zipIdx.map (fun b =>
      withMirror c.cfg (fun mir => partialTr e c.cfg mir b.1 b.2 rc.2 (bitsOf c.xb 32 9)))
    (accElem c.cfg 0 (Cells.get e.acc (c.elemKey strip rc)).toNat ps).mapError c.blockCol)
    (stripPlaces rows.length (cfgK c.cfg))

/-- A command's placement is in range (R241). -/
def placeOk (c : Cmd) (cols : Nat) : Bool :=
  bitsOf c.xb 0 7 + cfgM c.cfg ≤ 128 && bitsOf c.xb 16 9 + cols ≤ 512 && bitsOf c.xb 32 9 + cfgN c.cfg ≤ 512

/-! ### mload (R258) -/

/-- Resident bytes and scale byte of a block of K8 records or of encoded values. -/
structure BBlock where
  q : List Int
  scale : Nat
deriving DecidableEq, Repr

/-- A value rounded to a 16-bit integer with saturation. -/
def satS16 (v : Int) : Int := max (-32768) (min 32767 v)

/-- One block of B from its values (R258); a wide block with a NaN or an infinity has only its scale byte stated, and its
integers are free (log 65). -/
def encodeB (bw : Bool) (vals : List FVal) (free : List Int) : BBlock :=
  if !bw then
    let e := encodeBlock true 0 [] vals
    ⟨e.elems.map (fun v => (BitVec.ofNat 8 v).toInt), e.scale⟩
  else if vals.any fvNonFinite then ⟨free, 255⟩
  else if vals.all fvZero then ⟨vals.map (fun _ => 0), 127⟩
  else match maxMag vals (.fin false 0 0) with
    | .fin _ m e =>
      let (n, d) := finRat m e
      let sb : Int := max (ratLog2 n d - 14) (-127)
      ⟨vals.map (fun v => match v with
        | .fin neg m e => satS16 (dyRoundInt .rne neg m (e - sb)).1
        | _ => 0), (sb + 127).toNat⟩
    | _ => ⟨vals.map (fun _ => 0), 255⟩

/-- A list lengthened with zeros. -/
def padTo (n : Nat) (l : List Int) : List Int := l ++ List.replicate (n - l.length) 0

/-- The cells one block writes at a column: bytes of slot (and of slot + 1 when BW), and the scale byte; rows at K and
above hold 0, and the mirror is written too in redundant mode (R233, R258). -/
def blockCells (cfg : Word) (kb col : Nat) (b : BBlock) : List (Nat × Byte) × List (Nat × Byte) :=
  let slot := cfgSlot cfg
  let one (mir : Bool) : List (Nat × Byte) × List (Nat × Byte) :=
    let sl := if mir then slot + 8 else slot
    let cells := (padTo 48 b.q).zipIdx.flatMap (fun p =>
      let r := if mir then (48 * kb + p.2 + 96) % 480 else 48 * kb + p.2
      let v := (p.1 % 65536).toNat
      (cimKey r col sl, BitVec.ofNat 8 v) :: (if cfgBw cfg then [(cimKey r col (sl + 1), BitVec.ofNat 8 (v / 256))] else []))
    (cells, [(scaleKey (if mir then (kb + 2) % 10 else kb) col sl, BitVec.ofNat 8 b.scale)])
  let (c1, s1) := one false
  if cfgRed cfg then let (c2, s2) := one true; (c1 ++ c2, s1 ++ s2) else (c1, s1)

/-- The source of one block: its ranges, and its values. -/
def sourceB (g : Agent) (cfg : Word) (a : Word) (kb : Nat) (s : State) : Fetch BBlock × State :=
  let n := min 48 (cfgK cfg - 48 * kb)
  let fmt := cfgB cfg
  if fmt = 7 then
    match readRanges g (a + BitVec.ofNat 64 (64 * kb)) (blockRanges 7 n) [] s with
    | (.bytes b, s1) => (.got ⟨(List.range n).map (recordInt true b), recordScale true b⟩, s1)
    | (.fault c r, s1) => (.fault c r, s1)
    | (.wait, s1) => (.wait, s1)
  else
    let z := bSize fmt
    match deviceGet g (a + BitVec.ofNat 64 (48 * kb * z)) (n * z) s with
    | (.bytes b, s1) =>
      let f : Fp := match fmt with | 1 => .fp32 | 2 => .bf16 | 4 => .e4m3 | _ => .e5m2
      let vals := (groupBytes z n b).map (fpDecode f)
      if cfgBw cfg && vals.any fvNonFinite then
        let (u, s2) := freeBytes (2 * n) s1
        (.got (encodeB true vals ((groupBytes 2 n u).map (fun v => (BitVec.ofNat 16 v).toInt))), s2)
      else (.got (encodeB (cfgBw cfg) vals []), s1)
    | (.fault c r, s1) => (.fault c r, s1)
    | (.wait, s1) => (.wait, s1)

/-- Every cell an mload writes, block by block: a list of (column, block) places. -/
def loadCells (g : Agent) (c : Cmd) : List (Nat × Nat) → State → Fetch (List (Nat × Byte) × List (Nat × Byte)) × State
  | [], s => (.got ([], []), s)
  | (j, kb) :: t, s =>
    match sourceB g c.cfg (c.xa + BitVec.ofNat 64 j * c.ox0) kb s with
    | (.got b, s1) =>
      match loadCells g c t s1 with
      | (.got (l1, l2), s2) =>
        let (m1, m2) := blockCells c.cfg kb (bitsOf c.xb 32 9 + j) b
        (.got (m1 ++ l1, m2 ++ l2), s2)
      | r => r
    | (.fault x y, s1) => (.fault x y, s1)
    | (.wait, s1) => (.wait, s1)

/-- The places of an mload, columns ascending. -/
def loadPlaces (cfg : Word) : List (Nat × Nat) :=
  (List.range (cfgN cfg)).flatMap (fun j => (List.range (blocksOf (cfgK cfg))).map (fun kb => (j, kb)))

end Sys2Proof.Machine
end

