-- ==== Sys2Proof/Machine/Spline.lean ====
section
/-! DEFINITION. Spline cells (10, R266 to R287): the knot grid, the basis values, enqueuing the commands, what one strip
of each computes, and what the grid commands do. -/

namespace Sys2Proof.Machine

/-! ### The grid and the knot unit (R268 to R272) -/

/-- The knot grid of an engine (R268). -/
structure Grid where
  lo : BitVec 32
  h : BitVec 32
  hinv : BitVec 32
  g : BitVec 4
  p : BitVec 2
  mode : BitVec 2
deriving DecidableEq, Repr

/-- The grid an engine holds. -/
def Engine.grid (e : Engine) : Grid := ⟨e.lo, e.h, e.hinv, e.g, e.p, e.mode⟩
/-- The grid in the form a command captures (R275). -/
def Grid.pack (k : Grid) : BitVec 32 × BitVec 32 × BitVec 32 × BitVec 4 × BitVec 2 × BitVec 2 :=
  (k.lo, k.h, k.hinv, k.g, k.p, k.mode)
/-- The grid a command captured; the engine's before that. -/
def Cmd.grid (c : Cmd) (e : Engine) : Grid :=
  match c.kn with
  | some (lo, h, hinv, g, p, mode) => ⟨lo, h, hinv, g, p, mode⟩
  | none => e.grid

/-- Coefficients of a cell: L = G + p (R266). -/
def Grid.len (k : Grid) : Nat := k.g.toNat + k.p.toNat

/-- What the knot unit answers for an input (R269): a place with its fraction `num / den`, clamped to a side or not;
nothing; or NaN. -/
inductive Knot where
  | inside (m num den : Nat) (side : Option Bool)
  | void (high : Bool)
  | nan
deriving DecidableEq, Repr

/-- An FP32 pattern as a value. -/
def f32 (b : BitVec 32) : FVal := fpDecode .fp32 b.toNat

/-- The knot unit (R269). -/
def Grid.knot (k : Grid) (x : FVal) : Knot :=
  match x with
  | .nan => .nan
  | _ =>
    let d := fpDecode .fp32 (fpAddV .fp32 .rne x (fvNeg (f32 k.lo))).bits
    let out (low : Bool) : Knot :=
      if k.mode = 1 then .void (!low)
      else if low then .inside 0 0 1 (some false) else .inside (k.g.toNat - 1) 1 1 (some true)
    match fpDecode .fp32 (fpMulV .fp32 .rne d (f32 k.hinv)).bits with
    | .nan => .nan
    | .inf neg => out neg
    | .fin neg m e =>
      let (n, q) := finRat m e
      if neg && n != 0 then out true
      else if n ≥ k.g.toNat * q then out false
      else .inside (n / q) (n % q) q none

/-- The exact basis values of degree p at s = a / c, as numerators over one denominator (R271). -/
def basisNums (p a c : Nat) : List Int × Nat :=
  let s : Int := a
  let o : Int := c
  let t := o - s
  match p with
  | 1 => ([t, s], c)
  | 2 => ([t * t, o * o + 2 * s * o - 2 * s * s, s * s], 2 * c * c)
  | _ => ([t * t * t, 4 * o * o * o - 6 * s * s * o + 3 * s * s * s,
           o * o * o + 3 * s * o * o + 3 * s * s * o - 3 * s * s * s, s * s * s], 6 * c * c * c)

/-- The derivatives of the basis values (R272). -/
def derivNums (p a c : Nat) : List Int × Nat :=
  let s : Int := a
  let o : Int := c
  match p with
  | 1 => ([-o, o], c)
  | 2 => ([s - o, o - 2 * s, s], c)
  | _ => ([-(o - s) * (o - s), 3 * s * s - 4 * s * o, o * o + 2 * s * o - 3 * s * s, s * s], 2 * c * c)

/-- The first p values rounded, the last completes the total (R271, R272). -/
def quantise (unit total : Int) (p : Nat) (nums : List Int × Nat) : List Int :=
  let q := (nums.1.take p).map (fun n => (ratRoundInt .rne (n < 0) (n * unit).natAbs nums.2).1)
  q ++ [total - q.foldl (· + ·) 0]

/-- The basis of a place (R271). -/
def basis (p a c : Nat) : List Int := quantise 256 256 p (basisNums p a c)
/-- The derivative basis of a place (R272). -/
def derivBasis (p a c : Nat) : List Int := quantise 128 0 p (derivNums p a c)

/-- A basis record (R273). -/
def Grid.record (k : Grid) (x : FVal) : Word :=
  let p := k.p.toNat
  let low := match x with
    | .nan => false
    | _ => match k.knot x with | .inside _ _ _ (some false) | .void false => true | _ => false
  let high := match k.knot x with | .inside _ _ _ (some true) | .void true => true | _ => false
  match k.knot x with
  | .nan => BitVec.ofNat 64 (2 ^ 8 + p * 2 ^ 11 + 2 ^ 13)
  | .void _ => BitVec.ofNat 64 (2 ^ 8 + (if low then 2 ^ 9 else 0) + (if high then 2 ^ 10 else 0) + p * 2 ^ 11)
  | .inside m a c _ =>
    let q := basis p a c
    BitVec.ofNat 64 (m + (if low then 2 ^ 9 else 0) + (if high then 2 ^ 10 else 0) + p * 2 ^ 11 +
      (q.zipIdx.map (fun b => (b.1 % 4096).toNat * 2 ^ (16 + 12 * b.2))).foldl (· + ·) 0)

/-! ### Enqueuing (R277 to R287) -/

/-- A spline command issued. -/
def issueSpline (fn : BitVec 6) (sn : BitVec 3) (b a d : BitVec 5) (xa xb : Word) (bad : Option (BitVec 8 × Word))
    (locks : List (Nat × Nat × LockKind)) (m : Bool) (s : State) : State :=
  if !s.engineAllowed then trap 0x05 0 s
  else match bad with
    | some (c, v) => trap c v s
    | none =>
      if s.queueFull locks.length then s.block
      else
        let s1 := enqueue 0x3B fn sn (encX m fn sn b a d 0x3B) xa xb d 0 none [] none s
        (locks.foldl (fun st l => st.lock l.1 l.2.1 l.2.2 sn) s1).done 4 m

/-- Rows of an A operand as a lock, when the configuration is valid. -/
def rowsLock (s : State) (xa : Word) (n : Nat) : List (Nat × Nat × LockKind) := (aLock s n xa).toList

/-- seval (R279). -/
def execSeval (a b : BitVec 5) (sn : BitVec 3) (m : Bool) (s : State) : Out :=
  .next (issueSpline 1 sn b a 0 (s.x a) (s.x b) (if aAligned s (s.x a) then none else some (0x03, s.x a))
    (rowsLock s (s.x a) (cfgK s.hart.cfg)) m s)

/-- sderiv (R281): both operands are aligned. -/
def execSderiv (a b : BitVec 5) (sn : BitVec 3) (m : Bool) (s : State) : Out :=
  let n := aAlign (cfgA s.hart.cfg)
  let xOk := !cfgValid s.hart.cfg || ((s.oxr 1).toNat % n == 0 && (s.oxr 2).toNat % n == 0)
  .next (issueSpline 2 sn b a 0 (s.x a) (s.x b)
    (if !aAligned s (s.x a) then some (0x03, s.x a) else if xOk then none else some (0x03, s.oxr 1))
    (rowsLock s (s.x a) (cfgN s.hart.cfg)) m s)

/-- The fields of a fold word (R282): ROW0, NI, NJ, NS. -/
def foldOf (w : Word) : Nat × Nat × Nat × Nat := (bitsOf w 0 7, bitsOf w 8 4, bitsOf w 16 6, bitsOf w 32 16)
/-- A fold word is in range (R282). -/
def foldOk (w : Word) : Bool :=
  let (r0, ni, nj, ns) := foldOf w
  1 ≤ ni && ni ≤ 8 && 1 ≤ nj && nj ≤ 32 && 1 ≤ ns && r0 + ni ≤ 128

/-- sgfold (R282); the address tr.val is to hold at a misalignment is not stated: x[a], or ox1 when it alone is misaligned
(log 66). -/
def execSgfold (a b : BitVec 5) (sn : BitVec 3) (m : Bool) (s : State) : Out :=
  let xa := s.x a
  let (_, _, nj, ns) := foldOf (s.x b)
  let ok := xa.toNat % 4 == 0 && (s.oxr 0).toNat % 4 == 0 && (s.oxr 1).toNat % 8 == 0
  let lk := if foldOk (s.x b) then let (lo, hi) := rowsSpan xa ns (4 * nj) (s.oxr 0); [(lo, hi, LockKind.source)] else []
  .next (issueSpline 3 sn b a 0 xa (s.x b)
    (if ok then none else some (0x03, if xa.toNat % 4 == 0 && (s.oxr 0).toNat % 4 == 0 then s.oxr 1 else xa)) lk m s)

/-- sload (R283): a weight write; its cells span K × 64 bytes of each column. At a misalignment tr.val is x[a], which the rule
does not state (log 66). -/
def execSload (a b : BitVec 5) (sn : BitVec 3) (m : Bool) (s : State) : Out :=
  let xa := s.x a
  let c := s.hart.cfg
  let ok := xa.toNat % 64 == 0 && (s.oxr 0).toNat % 64 == 0
  let (lo, hi) := rowsSpan xa (cfgN c) (64 * cfgK c) (s.oxr 0)
  .next (issueSpline 4 sn b a 0 xa (s.x b)
    (if !ok then some (0x03, xa) else if cfgValid c && s.withholds (hartFrame s.hart.num) then some (0x0A, xa) else none)
    (if cfgValid c then [(lo, hi, .source)] else []) m s)

/-- sbrec (R280, R308): records of 8 bytes to x[b]. -/
def execSbrec (a b : BitVec 5) (sn : BitVec 3) (m : Bool) (s : State) : Out :=
  let xa := s.x a
  let xb := s.x b
  let c := s.hart.cfg
  let (lo, hi) := rowsSpan xb (cfgM c) (8 * cfgK c) (s.oxr 1)
  let dst : List (Nat × Nat × LockKind) := if cfgValid c then [(lo, hi, .dest)] else []
  let bad := if xb.toNat % 8 != 0 || (s.oxr 1).toNat % 8 != 0 then some (0x03, xb)
    else if !aAligned s xa then some (0x03, xa)
    else if s.hitsWeights dst.head? then some (0x0A, xb) else none
  .next (issueSpline 8 sn b a 0 xa xb bad (rowsLock s xa (cfgK c) ++ dst) m s)

/-- kcnt (R286): a queue entry and a scoreboard entry. -/
def execKcnt (d a : BitVec 5) (sn : BitVec 3) (m : Bool) (s : State) : Out :=
  if s.engineAllowed && decide (s.hart.entries ≥ Config.scoreboard) then .next s.noEntry
  else .next (issueSpline 7 sn 0 a d (s.x a) 0 none [] m s)

/-! ### Grid commands (R274) -/

/-- A grid command takes its queue entry and blocks its hart; it is one operation of its strand from the instant it is
performed, so that a trap or an abandoned wait leaves nothing behind (log 26). -/
def issueGrid (fn : BitVec 6) (sn : BitVec 3) (b a : BitVec 5) (xa xb val : Word) (bad : Option (BitVec 8 × Word)) (m : Bool)
    (s : State) : State :=
  if !s.engineAllowed then trap 0x05 0 s
  else if s.withholds (hartFrame s.hart.num) then trap 0x0A val s
  else match bad with
    | some (c, v) => trap c v s
    | none =>
      if decide (s.hart.cmds.length ≥ Config.queue) then s.block
      else s.onHart (fun h =>
        let c : Cmd := ⟨h.nextOp, h.pc, encX m fn sn b a 0 0x3B, 0x3B, fn, sn, xa, xb, h.rox 0, h.rox 1, h.rox 2, h.cfg, 0, 0,
          0, false, none, [], false, false⟩
        { h.drainStrand sn with cmds := h.cmds ++ [c], nextOp := h.nextOp + 1, run := .grid m })

/-- A positive normal FP32 value. -/
def f32Normal (b : BitVec 32) : Bool :=
  let e := (b.toNat / 2 ^ 23) % 256
  decide (b.toNat < 2 ^ 31) && decide (1 ≤ e) && decide (e ≤ 254)
/-- A finite FP32 value. -/
def f32Finite (b : BitVec 32) : Bool := (b.toNat / 2 ^ 23) % 256 != 255
/-- RoundRNE(1 / h) (R268). -/
def f32Recip (h : BitVec 32) : BitVec 32 := BitVec.ofNat 32 (fpRcpV .fp32 (f32 h)).bits

/-- The fields kset takes from its operands (R278). -/
def ksetGrid (xa xb : Word) : Grid :=
  let h : BitVec 32 := xa.extractLsb' 32 32
  ⟨xa.setWidth 32, h, f32Recip h, xb.extractLsb' 32 4, xb.extractLsb' 40 2, xb.extractLsb' 48 2⟩

/-- The check of kset (R278). -/
def ksetBad (k : Grid) : Bool :=
  k.g == 0 || k.p == 0 || decide (k.g.toNat + k.p.toNat > 16) || k.mode == 3 || !f32Finite k.lo || !f32Normal k.h
    || !f32Normal k.hinv

/-- kset (R278). -/
def execKset (a b : BitVec 5) (sn : BitVec 3) (m : Bool) (s : State) : Out :=
  .next (issueGrid 0 sn b a (s.x a) (s.x b) (s.x a) (if ksetBad (ksetGrid (s.x a) (s.x b)) then some (0x0B, s.x b) else none) m s)
/-- srefine (R284). -/
def execSrefine (sn : BitVec 3) (m : Bool) (s : State) : Out := .next (issueGrid 5 sn 0 0 0 0 0 none m s)
/-- sextend (R285). -/
def execSextend (a : BitVec 5) (sn : BitVec 3) (m : Bool) (s : State) : Out := .next (issueGrid 6 sn 0 a (s.x a) 0 0 none m s)

/-- The engine after kset (R278). -/
def ksetEngine (k : Grid) (e : Engine) : Engine :=
  { e with lo := k.lo, h := k.h, hinv := k.hinv, g := k.g, p := k.p, mode := k.mode, cntLo := 0, cntHi := 0 }

/-- A coefficient of a cell (R266). -/
def coef (e : Engine) (row col k : Nat) : Int := bInt e k false false row col

/-- The (column, block) pairs of an engine with a byte that is not 0, of their own or in redundant mode in their mirror
(R233); every other block holds zeros alone, which refining and extending keep. -/
def usedBlocks (red : Bool) (e : Engine) : List (Nat × Nat) :=
  let own := ((e.cim.map (fun p => (p.1 / 16 % 512, p.1 / 16 / 512 / 48))).filter (fun b => b.2 < 10)).eraseDups
  if red then (own ++ own.map (fun (b : Nat × Nat) => (b.1, (b.2 + 8) % 10))).eraseDups else own

/-- Binomial coefficients. -/
def binom : Nat → Nat → Nat
  | _, 0 => 1
  | 0, _ + 1 => 0
  | n + 1, k + 1 => binom n k + binom n (k + 1)

/-- A refined coefficient as an integer over 2^p (R284). -/
def refined (e : Engine) (row col g p l : Nat) : Int :=
  ((List.range (g + p)).map (fun (k : Nat) =>
    let j : Int := (l : Int) - 2 * (k : Int) + (p : Int)
    if 0 ≤ j && j ≤ (p : Int) + 1 then coef e row col k * (binom (p + 1) j.toNat : Nat) else 0)).foldl (· + ·) 0

/-- A coefficient written to a slot of a cell, and to the mirror in redundant mode (R233). -/
def putSlot (red : Bool) (row col k : Nat) (c : Int) : List (Nat × Byte) :=
  let v := BitVec.ofNat 8 (c % 256).toNat
  (cimKey row col k, v) :: (if red then [(cimKey ((row + 96) % 480) col (k + 8), v)] else [])
/-- Coefficients written to slots 0 to L − 1 of a cell, mirrors in redundant mode (R233). -/
def putCell (red : Bool) (row col : Nat) (l : List Int) : List (Nat × Byte) :=
  l.zipIdx.flatMap (fun p => putSlot red row col p.2 p.1)

/-- A scale byte written to slots 0 to L − 1 of a block, mirrors in redundant mode. -/
def putScale (red : Bool) (kb col len sc : Nat) : List (Nat × Byte) :=
  (List.range len).flatMap (fun k =>
    (scaleKey kb col k, BitVec.ofNat 8 sc) :: (if red then [(scaleKey ((kb + 2) % 10) col (k + 8), BitVec.ofNat 8 sc)] else []))

/-- Groups of n elements. -/
def chunks (n : Nat) : Nat → List Int → List (List Int)
  | 0, _ => []
  | k + 1, l => l.take n :: chunks n k (l.drop n)

/-- One block refined (R284). -/
def refineBlock (red : Bool) (src : Engine) (g p : Nat) (e : Engine) (cb : Nat × Nat) : Engine :=
  let (col, kb) := cb
  let sc := bScale src 0 false kb col
  let len := 2 * g + p
  if sc = 255 then e
  else
    let vals := (List.range 48).map (fun i => (List.range len).map (fun l => refined src (48 * kb + i) col g p l))
    if vals.all (fun r => r.all (fun v => v == 0)) then
      { e with cim := setCells e.cim ((List.range 48).flatMap (fun i =>
          putCell red (48 * kb + i) col (List.replicate len 0))) }
    else
      let b := encodeBlock true 0 [] (vals.flatten.map (fun v => fvOfInt v ((sc : Int) - 127 - p)))
      let ints := chunks len 48 (b.elems.map (fun v => (BitVec.ofNat 8 v).toInt))
      { e with
        cim := setCells e.cim ((ints.zipIdx).flatMap (fun r => putCell red (48 * kb + r.2) col r.1)),
        scale := setCells e.scale (putScale red kb col len b.scale) }

/-- srefine's check on the engine (R284). -/
def refineBad (red : Bool) (e : Engine) : Bool :=
  let len := 2 * e.g.toNat + e.p.toNat
  e.g == 0 || decide (len > 16) || (red && decide (len > 8)) || decide ((e.h.toNat / 2 ^ 23) % 256 ≤ 1)

/-- srefine performed (R284): the exponents of h and its reciprocal move by one, both exactly. -/
def refineEngine (red : Bool) (e : Engine) : Engine :=
  let f := (usedBlocks red e).foldl (refineBlock red e e.g.toNat e.p.toNat) e
  { f with g := e.g + e.g, h := e.h - 0x800000#32, hinv := e.hinv + 0x800000#32 }

/-- Sat127 (R285). -/
def sat127 (v : Int) : Int := max (-127) (min 127 v)

/-- What one cell's extension writes (R285): the new slot at the high end, or every slot moved up by one. -/
def extendCell (red high : Bool) (row col n : Nat) (c : Nat → Int) : List (Nat × Byte) :=
  if high then putSlot red row col n (sat127 (2 * c (n - 1) - c (n - 2)))
  else putCell red row col (sat127 (2 * c 0 - c 1) :: (List.range n).map c)

/-- kn.lo − kn.h in FP32 and whether it is exact (R285). -/
def extendLo (e : Engine) : Rounded := fpAddV .fp32 .rne (f32 e.lo) (fvNeg (f32 e.h))

/-- sextend's check on the engine (R285). -/
def extendBad (red high : Bool) (e : Engine) : Bool :=
  let len := e.g.toNat + e.p.toNat + 1
  e.g == 0 || decide (len > 16) || (red && decide (len > 8)) || (!high && (extendLo e).flags != 0)

/-- sextend performed (R285): every cell of a block in use. -/
def extendEngine (red high : Bool) (e : Engine) : Engine :=
  let len := e.g.toNat + e.p.toNat
  let f := (usedBlocks red e).foldl (fun f cb =>
    let (col, kb) := cb
    { f with cim := setCells f.cim ((List.range 48).flatMap (fun i =>
        let row := 48 * kb + i
        extendCell red high row col len (coef e row col))) }) e
  { f with g := e.g + 1, lo := if high then e.lo else BitVec.ofNat 32 (extendLo e).bits }

/-! ### What a strip computes -/

/-- The row's elements as FP32 values, block by block (R269). -/
def fetchVals (g : Agent) (fmt : Nat) : Nat → Word → Nat → State → Fetch (List FVal) × State
  | 0, _, _, s => (.got [], s)
  | fuel + 1, a, len, s =>
    if len = 0 then (.got [], s)
    else
      let n := min 48 len
      match readRanges g a (blockRanges fmt n) [] s with
      | (.bytes b, s1) =>
        let vals : List FVal := match fmt with
          | 6 | 7 => (List.range n).map (fun i => fpDecode .fp32 (recordFp32 (fmt == 7) b i).bits)
          | 2 => (groupBytes 2 n b).map (fpDecode .bf16)
          | 4 => (groupBytes 1 n b).map (fpDecode .e4m3)
          | _ => (groupBytes 1 n b).map (fpDecode .e5m2)
        match fetchVals g fmt fuel (a + BitVec.ofNat 64 (blockStride fmt)) (len - n) s1 with
        | (.got l, s2) => (.got (vals ++ l), s2)
        | r => r
      | (.fault c r, s1) => (.fault c r, s1)
      | (.wait, s1) => (.wait, s1)

/-- Several rows of inputs. -/
def fetchValRows (g : Agent) (fmt len : Nat) (stride : Word) : Nat → Word → State → Fetch (List (List FVal)) × State
  | 0, _, s => (.got [], s)
  | rows + 1, a, s =>
    match fetchVals g fmt 11 a len s with
    | (.got r, s1) =>
      match fetchValRows g fmt len stride rows (a + stride) s1 with
      | (.got l, s2) => (.got (r :: l), s2)
      | x => x
    | (.fault c w, s1) => (.fault c w, s1)
    | (.wait, s1) => (.wait, s1)

/-- The partial of one block of inputs against a resident column (R279). -/
def partialSpline (e : Engine) (k : Grid) (mirror : Bool) (kb col : Nat) (ins : List Knot) : Nat :=
  let sc := bScale e 0 mirror kb col
  if sc = 255 || ins.any (fun x => x == .nan) then fpNaN .fp32
  else
    let sum := (ins.zipIdx.map (fun x => match x.1 with
      | .inside m a c _ =>
        ((basis k.p.toNat a c).zipIdx.map (fun q => bInt e (m + q.2) false mirror (48 * kb + x.2) col * q.1)).foldl (· + ·) 0
      | _ => 0)).foldl (· + ·) 0
    partialOf sum ((sc : Int) - 127 - 8)

/-- Groups of 48 in order. -/
def groups48 {α : Type} : Nat → List α → List (List α)
  | 0, _ => []
  | n + 1, l => if l.isEmpty then [] else l.take 48 :: groups48 n (l.drop 48)

/-- One strip of seval (R279). -/
def stripEval (e : Engine) (c : Cmd) (k : Grid) (strip : Nat) (rows : List (List FVal)) : StripOut :=
  let knots := rows.map (fun r => groups48 10 (r.map k.knot))
  stripElems (c.elemKey strip) (fun rc =>
    let col := bitsOf c.xb 32 9 + rc.2
    let ps := ((knots[rc.1]?).getD []).zipIdx.map (fun b => withMirror c.cfg (fun mir => partialSpline e k mir b.2 col b.1))
    (accElem c.cfg 0 (Cells.get e.acc (c.elemKey strip rc)).toNat ps).mapError (fun _ => col))
    (stripPlaces rows.length (cfgN c.cfg))

/-- The inputs of a strip counted below and above the grid (R270). -/
def stripCounts (k : Grid) (rows : List (List FVal)) : Nat × Nat :=
  if k.mode ≠ 2 then (0, 0)
  else
    let ks := rows.flatMap (fun r => r.map k.knot)
    ((ks.filter (fun x => match x with | .inside _ _ _ (some false) => true | _ => false)).length,
     (ks.filter (fun x => match x with | .inside _ _ _ (some true) => true | _ => false)).length)

/-- A counter that saturates at 2^32 − 1 (R270). -/
def satCount (v : BitVec 32) (n : Nat) : BitVec 32 := BitVec.ofNat 32 (min (v.toNat + n) (2 ^ 32 - 1))

/-- The partial of one δ block against an input (R281). -/
def partialDeriv (e : Engine) (k : Grid) (mirror : Bool) (blk : ABlock) (x : Knot) (row nb bcol : Nat) : Nat :=
  match blk, x with
  | none, _ => fpNaN .fp32
  | _, .nan => fpNaN .fp32
  | some (qa, sa), _ =>
    let cols := qa.zipIdx.map (fun p => (p.1, bcol + 48 * nb + p.2))
    let scales := cols.map (fun p => bScale e 0 mirror (row / 48) p.2)
    if scales.any (fun v => v == 255) then fpNaN .fp32
    else
      let lo := scales.foldl min 255
      let inner (col : Nat) : Int := match x with
        | .inside m a c none =>
          ((derivBasis k.p.toNat a c).zipIdx.map (fun q => bInt e (m + q.2) false mirror row col * q.1)).foldl (· + ·) 0
        | _ => 0
      let sum := ((cols.zip scales).map (fun p => p.1.1 * inner p.1.2 * (2 ^ (p.2 - lo) : Nat))).foldl (· + ·) 0
      match f32 k.hinv with
      | .fin _ mh eh => partialOf (sum * (mh : Int)) (sa + (lo : Int) - 127 - 7 + eh)
      | _ => fpNaN .fp32

/-- One strip of sderiv (R281). -/
def stripDeriv (e : Engine) (c : Cmd) (k : Grid) (strip : Nat) (rows : List (List ABlock)) (xs : List (List FVal)) :
    StripOut :=
  stripElems (c.elemKey strip) (fun rc =>
    let x := k.knot ((((xs[rc.1]?).getD [])[rc.2]?).getD .nan)
    let ps := ((rows[rc.1]?).getD []).zipIdx.map (fun b =>
      withMirror c.cfg (fun mir => partialDeriv e k mir b.1 x rc.2 b.2 (bitsOf c.xb 32 9)))
    (accElem c.cfg 0 (Cells.get e.acc (c.elemKey strip rc)).toNat ps).mapError c.blockCol)
    (stripPlaces rows.length (cfgK c.cfg))

/-- A 12-bit value of a record (R273). -/
def recordB (w : Word) (k : Nat) : Int := (w.extractLsb' (16 + 12 * k) 12).toInt

/-- One record's additions into the accumulator (R282). -/
def foldRecord (row nj : Nat) (rec : Word) (deltas : List Nat) (acc : Cells 32) : Cells 32 :=
  if rec.getLsbD 13 then
    setCells acc ((List.range (16 * nj)).map (fun c => (accKey row c, BitVec.ofNat 32 (fpNaN .fp32))))
  else if rec.getLsbD 8 then acc
  else
    let mm := bitsOf rec 0 8
    let p := bitsOf rec 11 2
    let terms := (List.range nj).flatMap (fun j => (List.range (p + 1)).map (fun k => (j, k)))
    terms.foldl (fun acc t =>
      let (j, k) := t
      if mm + k > 15 then acc
      else
        let key := accKey row (16 * j + mm + k)
        let prod := fvMul (fpDecode .fp32 (natAt deltas j)) (fvOfInt (recordB rec k) (-8))
        let sum := if prod.2 then (fpNaNWith .fp32 0).bits
          else (fpAddV .fp32 .rne (fpDecode .fp32 (Cells.get acc key).toNat) prod.1).bits
        Cells.set acc key (BitVec.ofNat 32 sum)) acc

/-- The samples of one strip folded in order (R282). -/
def foldSamples (g : Agent) (c : Cmd) (row0 ni nj : Nat) : List Nat → Cells 32 → State → Fetch (Cells 32) × State
  | [], acc, s => (.got acc, s)
  | n :: t, acc, s =>
    match deviceGet g (c.xa + BitVec.ofNat 64 n * c.ox0) (4 * nj) s with
    | (.bytes b, s1) =>
      match deviceGet g (c.ox1 + BitVec.ofNat 64 n * c.ox2) (8 * ni) s1 with
      | (.bytes r, s2) =>
        let deltas := groupBytes 4 nj b
        let acc' := (List.range ni).foldl (fun acc i => foldRecord (row0 + i) nj (dwordAt r i) deltas acc) acc
        foldSamples g c row0 ni nj t acc' s2
      | (.fault x y, s2) => (.fault x y, s2)
      | (.wait, s2) => (.wait, s2)
    | (.fault x y, s1) => (.fault x y, s1)
    | (.wait, s1) => (.wait, s1)

/-- The coefficients of the cells of a block below K, from memory (R283). -/
def fetchCells (g : Agent) (len : Nat) : List Nat → Word → State → Fetch (List (List FVal)) × State
  | [], _, s => (.got [], s)
  | i :: t, a, s =>
    match deviceGet g (a + BitVec.ofNat 64 (64 * i)) (4 * len) s with
    | (.bytes b, s1) =>
      match fetchCells g len t a s1 with
      | (.got l, s2) => (.got ((groupBytes 4 len b).map (fpDecode .fp32) :: l), s2)
      | r => r
    | (.fault x y, s1) => (.fault x y, s1)
    | (.wait, s1) => (.wait, s1)

/-- The cells one block of an sload writes (R283). -/
def sloadBlock (red : Bool) (len kb col : Nat) (vals : List (List FVal)) : List (Nat × Byte) × List (Nat × Byte) :=
  let full := vals ++ List.replicate (48 - vals.length) (List.replicate len (FVal.fin false 0 0))
  let b := encodeBlock true 0 [] full.flatten
  let ints := chunks len 48 (b.elems.map (fun v => (BitVec.ofNat 8 v).toInt))
  ((ints.zipIdx).flatMap (fun r => putCell red (48 * kb + r.2) col r.1), putScale red kb col len b.scale)

/-- What an sload has fetched: the cells and scale bytes of the blocks before its end, the blocks left, and how it ends. -/
structure Sload where
  cells : List (Nat × Byte)
  scales : List (Nat × Byte)
  rest : List (Nat × Nat)
  fetch : Fetch Unit
  st : State

/-- The cells an sload writes, block by block in the order of R283. -/
def sloadCells (g : Agent) (c : Cmd) (len : Nat) : List (Nat × Nat) → State → Sload
  | [], s => ⟨[], [], [], .got (), s⟩
  | (j, kb) :: t, s =>
    let n := min 48 (cfgK c.cfg - 48 * kb)
    match fetchCells g len ((List.range n).map (fun i => 48 * kb + i)) (c.xa + BitVec.ofNat 64 j * c.ox0) s with
    | (.got v, s1) =>
      let l := sloadCells g c len t s1
      let (m1, m2) := sloadBlock (cfgRed c.cfg) len kb (bitsOf c.xb 32 9 + j) v
      { l with cells := m1 ++ l.cells, scales := m2 ++ l.scales }
    | (.fault x y, s1) => ⟨[], [], (j, kb) :: t, .fault x y, s1⟩
    | (.wait, s1) => ⟨[], [], (j, kb) :: t, .wait, s1⟩

/-- The value kcnt reads (R286). -/
def kcntWord (e : Engine) (sel : Nat) : Word :=
  match sel with
  | 0 => zext64 e.cntLo
  | 1 => zext64 e.cntHi
  | 2 => zext64 e.lo ||| (zext64 e.h <<< 32)
  | 3 => BitVec.ofNat 64 (e.hinv.toNat + e.g.toNat * 2 ^ 32 + e.p.toNat * 2 ^ 40 + e.mode.toNat * 2 ^ 48)
  | 4 => zext64 e.cntLo ||| (zext64 e.cntHi <<< 32)
  | _ => 0
/-- Whether kcnt clears the counters (R286). -/
def kcntClears (xa : Word) : Bool := xa.getLsbD 8 && [0, 1, 4].contains (bitsOf xa 0 8)

end Sys2Proof.Machine
end

