-- ==== Sys2Proof/Machine/Engine.lean ====
section
/-! DEFINITION. The arbiter of a matrix engine (R242, R243, R265, R274), what its tiles do, and how a command ends (R247 to
R249). -/

namespace Sys2Proof.Machine

/-! ### The queues of a frame -/

/-- The harts of a frame. -/
def frameHarts (f : Nat) : List Nat := (List.range 8).map (fun i => 8 * f + i)

/-- A grid command (R274). -/
def Cmd.isGrid (c : Cmd) : Bool := c.major == 0x3B && (c.fn == 0 || c.fn == 5 || c.fn == 6)
/-- An mmul.bc. -/
def Cmd.isBus (c : Cmd) : Bool := c.major == 0x3A && c.fn == 4
/-- A command of strips of A rows. -/
def Cmd.byRows (c : Cmd) : Bool :=
  if c.major = 0x3A then [2, 3, 4, 5].contains c.fn.toNat else [1, 2, 8].contains c.fn.toNat
/-- Strips of a command (R243, R276). -/
def Cmd.strips (c : Cmd) : Nat :=
  if c.byRows then (cfgM c.cfg + 15) / 16
  else if c.major = 0x3B && c.fn = 3 then ((foldOf c.xb).2.2.2 + 15) / 16
  else 1
/-- Rows of a strip. -/
def Cmd.rowsAt (c : Cmd) (strip : Nat) : Nat := min 16 (cfgM c.cfg - 16 * strip)
/-- The command depends on a valid configuration (R240, R267). -/
def Cmd.needsCfg (c : Cmd) : Bool := c.major == 0x3A || [1, 2, 4, 8].contains c.fn.toNat

/-- Every earlier operation of the command's strand is performed (R242, R251). -/
def Hart.cmdReady (h : Hart) (c : Cmd) : Bool :=
  match h.op? c.op with
  | some o => h.ready o
  | none => !h.ops.any (fun p => p.strand == c.strand && p.gen == (h.spin c.strand).gen)

/-- A hart that a gang stop holds: its queue is a journal (R250). -/
def Hart.isStopped (h : Hart) : Bool := h.back.isSome || (match h.run with | .stopped _ => true | _ => false)

/-- A grid command stands at the head of one of the frame's queues with its strand performed (R274). -/
def State.gridWaits (s : State) (f : Nat) : Bool :=
  (frameHarts f).any (fun n =>
    let h := s.getHart n
    match h.cmds.head? with
    | some c => c.isGrid && !h.isStopped && h.cmdReady c
    | none => false)

/-- Tiles of a command still on a bus. -/
def State.onBus (s : State) (hart op : Nat) : Bool :=
  s.engines.any (fun e => e.busIn.any (fun b => b.hart == hart && b.op == op))

/-- The queue of a hart has a tile for its engine now (R242, R243, R260, R274). -/
def State.canServe (s : State) (f n : Nat) : Bool :=
  let h := s.getHart n
  match h.cmds.head? with
  | none => false
  | some c =>
    !h.isStopped && !c.isGrid &&
      !c.lost && !(c.isBus && !c.holds && decide (bitsOf c.xb 48 2 < 2) && s.busBusy f (bitsOf c.xb 48 2) n c.op) &&
      (if c.begun then decide (c.drained < c.strips) && !(c.isBus && s.onBus n c.op)
       else h.cmdReady c && !s.gridWaits f)

/-- The engine weight of the region whose node is placed on a hart (R243). -/
def State.tileWeight (s : State) (n : Nat) : Nat :=
  match (s.getHart n).region.bind s.region? with
  | some g => max 1 g.ew
  | none => 1

/-- The place the round serves next, with the tiles it has then taken at this visit (R243). -/
def pickTile (s : State) (f : Nat) : Option (Nat × Nat) :=
  let e := s.engine f
  let first := if e.served < s.tileWeight (8 * f + e.place) then [(e.place, e.served + 1)] else []
  let rest := (List.range 8).map (fun i => ((e.place + 1 + i) % 8, 1))
  (first ++ rest).find? (fun p => s.canServe f (8 * f + p.1))

/-! ### How a command ends -/

/-- A command replaced in its queue. -/
def Hart.putCmd (h : Hart) (c : Cmd) : Hart := { h with cmds := h.cmds.map (fun d => if d.op = c.op then c else d) }

/-- A command leaves its queue: its operation is performed, its locks go, and a register it answers with returns. -/
def finishCmd (n : Nat) (c : Cmd) (res : Option Result) (s : State) : State :=
  let s1 := (s.modHart n (fun h => ({ h with cmds := h.cmds.filter (fun d => d.op != c.op) }).perform c.op s.now)).unlock n c.op
  match res with
  | some r => s1.modHart n (fun h => { h with rets := h.rets ++ [⟨c.op, c.strand, r, none, []⟩] })
  | none => s1

/-- The answer of a command that does not run (R249, R286). -/
def Cmd.noAnswer (c : Cmd) : Option Result :=
  if c.isAcrd then some (.nothing [] [c.dest]) else if c.isKcnt then some (.nothing [c.dest] []) else none

/-- The columns the error record gives (R248); none where the spec states no range. -/
def Cmd.errCols (c : Cmd) (mis : Option Nat) (operand : Bool) : Option (Nat × Nat) :=
  if c.major = 0x3A && (c.fn = 6 || c.fn = 7) then
    let (_, c0, _, n) := tileOf c.xb; some (c0, c0 + n - 1)
  else if c.major = 0x3A && c.fn = 10 then
    let (_, c0, _, n) := tileOf c.xa; some (c0, c0 + n - 1)
  else if c.major = 0x3B && c.fn = 3 then some (0, 16 * (foldOf c.xb).2.2.1 - 1)
  else if c.major = 0x3B && c.fn = 8 then some (0, 0)
  else match mis with
    | some col => some (col / 128 * 128, col / 128 * 128 + 127)
    | none => if operand then some (bitsOf c.xb 32 9, bitsOf c.xb 32 9 + cfgN c.cfg - 1) else none

/-- The bus tiles of a command dropped. -/
def State.dropBus (s : State) (hart op : Nat) : State :=
  if s.onBus hart op then
    { s with engines := s.engines.map (fun e => { e with busIn := e.busIn.filter (fun b => !(b.hart == hart && b.op == op)) }) }
  else s

/-- A command ends in its error phase (R247, R248): STATUS, the error record for ECODE 0x01 to 0x05, and a rollback when
the region's policy asks for one. -/
def errorCmd (n : Nat) (c : Cmd) (ecode : BitVec 8) (bits : BitVec 17) (strip : Nat) (cols : Option (Nat × Nat))
    (region : Option (BitVec 16)) (s : State) : State :=
  let (v, s1) := if cols.isSome || ecode.toNat > 5 then ((0 : Word), s) else s.takeFree
  let (c0, c1) := cols.getD (bitsOf v 0 9, bitsOf v 9 9)
  let s2 := s1.modHart n (fun h =>
    let h1 := h.report c.strand (stEF ecode ||| bits)
    if ecode.toNat ≤ 5 then
      { h1 with engErr := some ⟨c.pc, c.word, c.xa, c.xb, c.ox0, c.cfg, ecode, BitVec.ofNat 12 strip, BitVec.ofNat 9 c0,
        BitVec.ofNat 9 c1⟩ }
    else h1)
  let s3 := finishCmd n c c.noAnswer (s2.dropBus n c.op)
  if ecode = 5 then
    match region.bind s.region? with
    | some g =>
      if g.fpol.getLsbD 0 then
        let (w, s4) := s3.takeFree
        askRollback region (w.setWidth 8) s4
      else s3
    | none => s3
  else s3

/-- A command is skipped (R249). -/
def skipCmd (n : Nat) (c : Cmd) (s : State) : State := finishCmd n c c.noAnswer s

/-! ### The tiles -/

/-- How a tile ends: drained, waiting for a translation of another node, or the command's error phase. -/
inductive TileEnd where
  | ok (res : Option Result) (st : State)
  | wait (st : State)
  | error (ecode : BitVec 8) (bits : BitVec 17) (mis : Option Nat) (operand : Bool) (st : State)

/-- The ECODE and STATUS bits of a refused operand access (R247). -/
def refusal (cause reason : BitVec 8) : BitVec 8 × BitVec 17 :=
  if cause = 0x04 then (3, stTF) else (4, if reason = 8 then stDL else stRA)

/-- Cells set to free values (R11, R247). -/
def freeCells {w : Nat} : List Nat → Cells w → State → Cells w × State
  | [], c, s => (c, s)
  | k :: t, c, s =>
    let (v, s1) := s.takeFree
    freeCells t (Cells.set c k (v.setWidth w)) s1

/-- Accumulator elements of an engine set. -/
def State.setAcc (s : State) (f : Nat) (l : List (Nat × BitVec 32)) : State :=
  let e := s.engine f
  s.setEngine { e with acc := setCells e.acc l }

/-- Accumulator elements of an engine become undefined. -/
def State.freeAcc (s : State) (f : Nat) (keys : List Nat) : State :=
  let (acc, s1) := freeCells keys (s.engine f).acc s
  s1.setEngine { s1.engine f with acc := acc }

/-- The elements of a rectangle of the accumulator. -/
def accRect (r0 c0 rows cols : Nat) : List Nat :=
  (List.range rows).flatMap (fun r => (List.range cols).map (fun j => accKey (r0 + r) (c0 + j)))

/-- The elements a strip of A rows writes. -/
def Cmd.stripKeys (c : Cmd) (strip : Nat) : List Nat :=
  let cols := if c.major = 0x3A then (if c.fn = 5 then cfgK c.cfg else cfgN c.cfg) else (if c.fn = 2 then cfgK c.cfg else cfgN c.cfg)
  accRect (bitsOf c.xb 0 7 + 16 * strip) (bitsOf c.xb 16 9) (c.rowsAt strip) cols

/-- An operand fault of a strip: its rows become undefined, on every participant of an mmul.bc (R247, R260). -/
def faultStrip (frames : List Nat) (keys : List Nat) (cause reason : BitVec 8) (s : State) : TileEnd :=
  let (ec, bits) := refusal cause reason
  .error ec bits none true (frames.foldl (fun st f => st.freeAcc f keys) s)

/-- A strip's result put into the accumulator. -/
def putStrip (f : Nat) (out : StripOut) (s : State) : TileEnd :=
  match out with
  | .cells l => .ok none (s.setAcc f l)
  | .mismatch col => .error 5 0 (some col) false s

/-- The address of the first row of a strip. -/
def stripAddr (a stride : Word) (strip : Nat) : Word := a + BitVec.ofNat 64 (16 * strip) * stride

/-- A strip of mmul, mmulz, mmul.bc or mtmul (R245, R246, R260). -/
def tileMul (f : Nat) (g : Agent) (c : Cmd) (strip : Nat) (s : State) : TileEnd :=
  let len := if c.fn = 5 then cfgN c.cfg else cfgK c.cfg
  match fetchRows g (cfgA c.cfg) len c.ox0 (c.rowsAt strip) (stripAddr c.xa c.ox0 strip) s with
  | (.wait, s1) => .wait s1
  | (.fault x y, s1) => faultStrip (f :: c.peers) (c.stripKeys strip) x y s1
  | (.got rows, s1) =>
    let e := s1.engine f
    match putStrip f (if c.fn = 5 then stripTr e c strip rows else stripMul e c (c.fn == 3) strip rows) s1 with
    | .ok r s2 => .ok r (c.peers.foldl (fun st p =>
        let q := st.engine p
        st.setEngine { q with busIn := q.busIn ++ [⟨g.hart, c.op, strip, rows⟩] }) s2)
    | r => r

/-- mload (R258): a fault leaves every cell it would have written undefined. -/
def tileLoad (f : Nat) (g : Agent) (c : Cmd) (s : State) : TileEnd :=
  match loadCells g c (loadPlaces c.cfg) s with
  | (.wait, s1) => .wait s1
  | (.got (l1, l2), s1) =>
    let e := s1.engine f
    .ok none (s1.setEngine { e with cim := setCells e.cim l1, scale := setCells e.scale l2 })
  | (.fault x y, s1) =>
    let parts := (loadPlaces c.cfg).map (fun p => blockCells c.cfg p.2 (bitsOf c.xb 32 9 + p.1) ⟨[], 0⟩)
    let (cim, s2) := freeCells (parts.flatMap (fun p => p.1.map (·.1))) (s1.engine f).cim s1
    let (scale, s3) := freeCells (parts.flatMap (fun p => p.2.map (·.1))) (s1.engine f).scale s2
    let (ec, bits) := refusal x y
    .error ec bits none true (s3.setEngine { s3.engine f with cim := cim, scale := scale })

/-- acld (R262): rows ascending. -/
def loadTile (g : Agent) (c : Cmd) (cols : Nat) : List Nat → State → Fetch (List (Nat × List Byte)) × State
  | [], s => (.got [], s)
  | r :: t, s =>
    match deviceGet g (c.xa + BitVec.ofNat 64 r * c.ox0) (4 * cols) s with
    | (.bytes b, s1) =>
      match loadTile g c cols t s1 with
      | (.got l, s2) => (.got ((r, b) :: l), s2)
      | x => x
    | (.fault x y, s1) => (.fault x y, s1)
    | (.wait, s1) => (.wait, s1)

/-- Rows of bytes written one after another; what stands before an end stays written (R262, R280). -/
def putRows (g : Agent) (a stride : Word) : List (Nat × List Byte) → State → Put × State
  | [], s => (.done, s)
  | (r, b) :: t, s =>
    match devicePut g (a + BitVec.ofNat 64 r * stride) b s with
    | (.done, s1) => putRows g a stride t s1
    | x => x

/-- The end of a command's writes to memory. -/
def putEnd (p : Put × State) : TileEnd :=
  match p with
  | (.done, s) => .ok none s
  | (.wait, s) => .wait s
  | (.suspended _, s) => .error 4 stCS none true s
  | (.fault x y _, s) => let (ec, bits) := refusal x y; .error ec bits none true s

/-- acld, acst, acz, acrd and acwr (R262, R263). -/
def tileAcc (f : Nat) (g : Agent) (c : Cmd) (s : State) : TileEnd :=
  let e := s.engine f
  match c.fn.toNat with
  | 6 =>
    let (r0, c0, rows, cols) := tileOf c.xb
    match loadTile g c cols (List.range rows) s with
    | (.wait, s1) => .wait s1
    | (.fault x y, s1) => faultStrip [f] (accRect r0 c0 rows cols) x y s1
    | (.got l, s1) =>
      .ok none (s1.setAcc f (l.flatMap (fun p => (groupBytes 4 cols p.2).zipIdx.map (fun q =>
        (accKey (r0 + p.1) (c0 + q.2), BitVec.ofNat 32 q.1)))))
  | 7 =>
    let (r0, c0, rows, cols) := tileOf c.xb
    putEnd (putRows g c.xa c.ox0 ((List.range rows).map (fun r =>
      (r, (List.range cols).flatMap (fun j => leBytes (Cells.get e.acc (accKey (r0 + r) (c0 + j))).toNat 4)))) s)
  | 8 =>
    let r := bitsOf c.xa 0 7
    let c0 := bitsOf c.xa 16 9
    .ok (some (.vval [(c.dest, ofLanes false ((List.range 16).map (fun j => (Cells.get e.acc (accKey r (c0 + j))).toNat)))] 0)) s
  | 9 =>
    let r := bitsOf c.xa 0 7
    let c0 := bitsOf c.xa 16 9
    .ok none (s.setAcc f ((List.range 16).map (fun j => (accKey r (c0 + j), BitVec.ofNat 32 (lane false c.data j)))))
  | _ =>
    let (r0, c0, rows, cols) := tileOf c.xa
    .ok none (s.setAcc f ((accRect r0 c0 rows cols).map (fun k => (k, 0))))

/-- seval (R279): the counts are added at the drain (R270). -/
def tileEval (f : Nat) (g : Agent) (c : Cmd) (strip : Nat) (s : State) : TileEnd :=
  match fetchValRows g (cfgA c.cfg) (cfgK c.cfg) c.ox0 (c.rowsAt strip) (stripAddr c.xa c.ox0 strip) s with
  | (.wait, s1) => .wait s1
  | (.fault x y, s1) => faultStrip [f] (c.stripKeys strip) x y s1
  | (.got rows, s1) =>
    let e := s1.engine f
    let k := c.grid e
    match putStrip f (stripEval e c k strip rows) s1 with
    | .ok r s2 =>
      let (lo, hi) := stripCounts k rows
      let e2 := s2.engine f
      .ok r (s2.setEngine { e2 with cntLo := satCount e2.cntLo lo, cntHi := satCount e2.cntHi hi })
    | r => r

/-- sderiv (R281). -/
def tileDeriv (f : Nat) (g : Agent) (c : Cmd) (strip : Nat) (s : State) : TileEnd :=
  match fetchRows g (cfgA c.cfg) (cfgN c.cfg) c.ox0 (c.rowsAt strip) (stripAddr c.xa c.ox0 strip) s with
  | (.wait, s1) => .wait s1
  | (.fault x y, s1) => faultStrip [f] (c.stripKeys strip) x y s1
  | (.got rows, s1) =>
    match fetchValRows g (cfgA c.cfg) (cfgK c.cfg) c.ox2 (c.rowsAt strip) (stripAddr c.ox1 c.ox2 strip) s1 with
    | (.wait, s2) => .wait s2
    | (.fault x y, s2) => faultStrip [f] (c.stripKeys strip) x y s2
    | (.got xs, s2) =>
      let e := s2.engine f
      putStrip f (stripDeriv e c (c.grid e) strip rows xs) s2

/-- sgfold (R282): strips of 16 samples. -/
def tileFold (f : Nat) (g : Agent) (c : Cmd) (strip : Nat) (s : State) : TileEnd :=
  let (r0, ni, nj, ns) := foldOf c.xb
  let samples := (List.range (min 16 (ns - 16 * strip))).map (fun i => 16 * strip + i)
  match foldSamples g c r0 ni nj samples (s.engine f).acc s with
  | (.wait, s1) => .wait s1
  | (.fault x y, s1) => faultStrip [f] (accRect r0 0 ni (16 * nj)) x y s1
  | (.got acc, s1) => .ok none (s1.setEngine { s1.engine f with acc := acc })

/-- sload (R283): a fault leaves the cells of the blocks it has not written undefined. -/
def tileSload (f : Nat) (g : Agent) (c : Cmd) (s : State) : TileEnd :=
  let len := (c.grid (s.engine f)).len
  let l := sloadCells g c len (loadPlaces c.cfg) s
  let e := l.st.engine f
  let cim := setCells e.cim l.cells
  let scale := setCells e.scale l.scales
  match l.fetch with
  | .wait => .wait l.st
  | .got _ => .ok none (l.st.setEngine { e with cim := cim, scale := scale })
  | .fault x y =>
    let parts := l.rest.map (fun p => sloadBlock (cfgRed c.cfg) len p.2 (bitsOf c.xb 32 9 + p.1) [])
    let (cim, s2) := freeCells (parts.flatMap (fun p => p.1.map (·.1))) cim l.st
    let (scale, s3) := freeCells (parts.flatMap (fun p => p.2.map (·.1))) scale s2
    let (ec, bits) := refusal x y
    .error ec bits none true (s3.setEngine { s3.engine f with cim := cim, scale := scale })

/-- sbrec (R280). -/
def tileRecords (f : Nat) (g : Agent) (c : Cmd) (strip : Nat) (s : State) : TileEnd :=
  match fetchValRows g (cfgA c.cfg) (cfgK c.cfg) c.ox0 (c.rowsAt strip) (stripAddr c.xa c.ox0 strip) s with
  | (.wait, s1) => .wait s1
  | (.fault x y, s1) => let (ec, bits) := refusal x y; .error ec bits none true s1
  | (.got rows, s1) =>
    let k := c.grid (s1.engine f)
    putEnd (putRows g c.xb c.ox1 (rows.zipIdx.map (fun p =>
      (16 * strip + p.2, p.1.flatMap (fun x => leBytes (k.record x).toNat 8)))) s1)

/-- kcnt (R286). -/
def tileCount (f : Nat) (c : Cmd) (s : State) : TileEnd :=
  let e := s.engine f
  let v := kcntWord e (bitsOf c.xa 0 8)
  .ok (some (.xval c.dest v)) (if kcntClears c.xa then s.setEngine { e with cntLo := 0, cntHi := 0 } else s)

/-- The check a command fails before it does anything (R240, R241, R267, R282): its ECODE. -/
def Cmd.check (c : Cmd) (k : Grid) : BitVec 8 :=
  if c.needsCfg && !cfgValid c.cfg then 1
  else if c.major = 0x3A then
    match c.fn.toNat with
    | 1 => if bitsOf c.xb 32 9 + cfgN c.cfg ≤ 512 then 0 else 2
    | 2 | 3 => if placeOk c (cfgN c.cfg) then 0 else 2
    | 4 => if placeOk c (cfgN c.cfg) && decide (bitsOf c.xb 48 2 < 2) then 0 else 2
    | 5 => if placeOk c (cfgK c.cfg) then 0 else 2
    | 6 | 7 => if tileOk c.xb then 0 else 2
    | 10 => if tileOk c.xa then 0 else 2
    | _ => 0
  else
    let noGrid := k.g == 0 || (c.fn != 8 && cfgRed c.cfg && decide (k.len > 8))
    match c.fn.toNat with
    | 1 => if !placeOk c (cfgN c.cfg) then 2 else if noGrid then 7 else 0
    | 2 => if !placeOk c (cfgK c.cfg) then 2 else if noGrid then 7 else 0
    | 3 => if foldOk c.xb then 0 else 2
    | 4 => if bitsOf c.xb 32 9 + cfgN c.cfg > 512 then 2 else if noGrid then 7 else 0
    | 8 => if noGrid then 7 else 0
    | _ => 0

/-- One tile of a command. -/
def runTile (f : Nat) (g : Agent) (c : Cmd) (s : State) : TileEnd :=
  let ec := c.check (c.grid (s.engine f))
  if ec ≠ 0 then .error ec 0 none false s
  else if c.major = 0x3A then
    match c.fn.toNat with
    | 1 => tileLoad f g c s
    | 2 | 3 | 4 | 5 => tileMul f g c c.drained s
    | _ => tileAcc f g c s
  else
    match c.fn.toNat with
    | 1 => tileEval f g c c.drained s
    | 2 => tileDeriv f g c c.drained s
    | 3 => tileFold f g c c.drained s
    | 4 => tileSload f g c s
    | 7 => tileCount f c s
    | _ => tileRecords f g c c.drained s

/-! ### The events -/

/-- A request to the start sequencer, once (R422). -/
def State.askStart (s : State) (r : StartReq) : State := if s.startq.contains r then s else { s with startq := s.startq ++ [r] }

/-- TILE_BEGIN (R242, R243, R249): the round's next tile begins, or its command is skipped; a clock-gated engine asks for
admission (R265). -/
def tileBegin (f : Nat) (s : State) : State :=
  let e := s.engine f
  if e.tile.isSome || !e.busIn.isEmpty then s
  else match pickTile s f with
    | none => s
    | some (place, served) =>
      let n := 8 * f + place
      match (s.getHart n).cmds.head? with
      | none => s
      | some c =>
        if !c.begun && (((s.getHart n).spin c.strand).status &&& 8) != 0 then skipCmd n c s
        else if e.gated then s.askStart (.engine f)
        else
          let c1 := { c with begun := true, holds := c.isBus, kn := if c.major = 0x3B && c.kn.isNone then some e.grid.pack else c.kn }
          (s.modHart n (fun h => h.putCmd c1)).setEngine { e with tile := some (n, c.op), place := place, served := served }

/-- The agent of a command: its operation's region and level. -/
def State.cmdAgent (s : State) (n : Nat) (c : Cmd) : Agent :=
  let h := s.getHart n
  match h.op? c.op with
  | some o => ⟨n, o.region, o.level, c.strand, c.op⟩
  | none => ⟨n, h.region, h.level, c.strand, c.op⟩

/-- The engine after a tile: nothing in progress. -/
def State.tileOver (s : State) (f : Nat) : State := s.setEngine { s.engine f with tile := none, lastTile := s.now }

/-- A strip counts as drained; the last one ends the command, an mmul.bc when its bus is empty too (R250, R260). -/
def drained (n : Nat) (c : Cmd) (res : Option Result) (s : State) : State :=
  let c1 := { c with drained := c.drained + 1 }
  if c1.drained ≥ c.strips && c.peers.isEmpty then finishCmd n c res s else s.modHart n (fun h => h.putCmd c1)

/-- A command meets a memory error (R234): it is not completed; its tile is dropped, and its queue stays behind it until the
rollback. -/
def loseCmd (n op : Nat) (s : State) : State :=
  let s1 := (s.modHart n (fun h => { h with cmds := h.cmds.map (fun c => if c.op = op then { c with lost := true } else c) })).dropBus n op
  { s1 with engines := s1.engines.map (fun e => if e.tile = some (n, op) then { e with tile := none } else e) }

/-- STRIP_DRAIN (R243 to R249): the tile in progress drains, or waits for what other nodes are to answer (log 25). -/
def stripDrain (f : Nat) (s : State) : State :=
  match (s.engine f).tile with
  | none => s
  | some (n, op) =>
    match (s.getHart n).cmds.find? (fun c => c.op == op) with
    | none => s.tileOver f
    | some c =>
      let g := s.cmdAgent n c
      match runTile f g c s with
      | .wait s1 => if s1.poison = s.poison then s.waited s1 else loseCmd n op (s.waited s1)
      | .ok res s1 => drained n c res ((s1.tileOver f).farOver n (· == .op op))
      | .error ec bits mis operand s1 =>
        errorCmd n c ec bits c.drained (c.errCols mis operand) g.region (s1.tileOver f)

/-- The first tile of an engine's bus drains (R245, R260); the last of a command's last strip ends it. The spec does not say what becomes
of the rows that the issuing engine and other participants have written when one participant's comparison fails: they stay, as each engine compares
before its own write alone (log 77). -/
def busDrain (f : Nat) (s : State) : State :=
  let e := s.engine f
  match e.busIn with
  | [] => s
  | b :: t =>
    let s1 := s.setEngine { e with busIn := t, lastTile := s.now }
    match (s.getHart b.hart).cmds.find? (fun c => c.op == b.op) with
    | none => s1
    | some c =>
      match stripMul e c false b.strip b.rows with
      | .cells l =>
        let s2 := s1.setAcc f l
        if c.drained ≥ c.strips && !s2.onBus b.hart b.op then finishCmd b.hart c none s2 else s2
      | .mismatch col =>
        errorCmd b.hart c 5 0 b.strip (c.errCols (some col) false) (s.cmdAgent b.hart c).region s1

/-- BUS_TILE_ARRIVAL (R243, R260): a tile on the bus drains on this engine at a tile boundary, ahead of the round. -/
def busTile (f : Nat) (s : State) : State :=
  let e := s.engine f
  if e.busIn.isEmpty || e.tile.isSome then s
  else if e.gated then s.askStart (.engine f)
  else busDrain f s

/-- A command that has begun still runs on the engine of a frame: of one of its queues, or an mmul.bc of its bus. -/
def State.begunOn (s : State) (f : Nat) : Bool :=
  (s.hart :: s.others).any (fun h => h.cmds.any (fun c => c.begun && (hartFrame h.num == f || c.peers.contains f)))

/-- The hart whose grid command is performed next. -/
def State.gridHart (s : State) (f : Nat) : Option Nat :=
  (frameHarts f).find? (fun n =>
    let h := s.getHart n
    match h.run, h.cmds.head? with
    | .grid _, some c => c.isGrid && h.cmdReady c
    | _, _ => false)

/-- A grid command is performed, or traps, and its hart goes on (R274, R278, R284, R285). For an sextend whose kn.lo − kn.h is not exact
the spec gives no tr.val: it is G here too, as for the other checks (log 78). -/
def gridDone (c : Cmd) (m : Bool) (bad : Bool) (e' : Engine) (s : State) : State :=
  let e := s.engine e'.frame
  let s1 := s.onHart (fun h => { h with cmds := h.cmds.filter (fun d => d.op != c.op), run := .running })
  if bad then trap 0x0B (zext64 e.g) s1
  else
    ((s1.setEngine e').onHart (fun h =>
      let h1 := h.issueRaw c.strand .engine
      h1.perform (h1.nextOp - 1) s.now)).done 4 m

/-- GRID_COMMAND_PERFORM (R274): once no command that has begun remains. -/
def gridPerform (f : Nat) (s : State) : State :=
  let e := s.engine f
  if e.tile.isSome || !e.busIn.isEmpty || s.begunOn f then s
  else match s.gridHart f with
    | none => s
    | some n =>
      s.withHart n (fun s =>
        match s.hart.run, s.hart.cmds.head? with
        | .grid m, some c =>
          let red := cfgRed c.cfg
          let high := c.xa.getLsbD 0
          if c.fn = 0 then gridDone c m false (ksetEngine (ksetGrid c.xa c.xb) e) s
          else if c.fn = 5 then gridDone c m (refineBad red e) (if refineBad red e then e else refineEngine red e) s
          else gridDone c m (extendBad red high e) (if extendBad red high e then e else extendEngine red high e) s
        | _, _ => s)

/-- ENGINE_CLOCK_GATE (R265): an engine without a tile for 2 µs. -/
def engineGate (f : Nat) (s : State) : State :=
  let e := s.engine f
  if !e.gated && e.tile.isNone && e.busIn.isEmpty && decide (e.lastTile.toNat + 2000 ≤ s.now.toNat) then
    s.setEngine { e with gated := true }
  else s

/-! ### A gang stop (R250) -/

/-- The bus tiles of an engine drained: whatever else the engine does, a strip the issuing engine has drained has begun to
drain on every participant (R250). -/
def drainBus : Nat → Nat → State → State
  | 0, _, s => s
  | fuel + 1, f, s => if (s.engine f).busIn.isEmpty then s else drainBus fuel f (busDrain f s)

/-- The frames at which tiles of a hart's commands are on a bus. -/
def State.busWaits (s : State) (n : Nat) : List Nat :=
  (s.engines.filter (fun e => e.busIn.any (fun b => b.hart == n))).map (·.frame)

/-- A command left in the queue as a journal entry; its strips drained so far stay counted, and it leaves its bus. -/
def Cmd.journal (c : Cmd) : Cmd :=
  if c.drained = 0 then { c with begun := false, kn := none, holds := false } else { c with holds := false }

/-- The engine lets a hart's commands rest: the tile in progress is dropped, the entries stay, a grid command is
abandoned (R250, R274). -/
def stopQueue (n : Nat) (s : State) : State :=
  let f := hartFrame n
  let s0 := (s.busWaits n).foldl (fun st p => drainBus 16 p st) s
  let s1 := s0.modHart n (fun h => { h with cmds := (h.cmds.filter (fun c => !c.isGrid)).map Cmd.journal })
  let s2 := match (s1.engine f).tile with
    | some (k, _) => if n < 1024 && k == n then s1.setEngine { s1.engine f with tile := none } else s1
    | none => s1
  { s2 with locks := s2.locks.filter (fun l => !(l.hart == some n && (l.kind == .source || l.kind == .dest))) }

/-- The range-lock intervals of a command from its captured values (R188, R252). -/
def Cmd.lockSpans (c : Cmd) : List (Nat × Nat × LockKind) :=
  let v := cfgValid c.cfg
  let src (a : Word) (rows len : Nat) (st : Word) : List (Nat × Nat × LockKind) :=
    let (lo, hi) := rowsSpan a rows len st; [(lo, hi, .source)]
  let dst (a : Word) (rows len : Nat) (st : Word) : List (Nat × Nat × LockKind) :=
    let (lo, hi) := rowsSpan a rows len st; [(lo, hi, .dest)]
  if c.major = 0x3A then
    match c.fn.toNat with
    | 1 =>
      let len := if cfgB c.cfg = 7 then 64 * blocksOf (cfgK c.cfg) else bSize (cfgB c.cfg) * cfgK c.cfg
      if v then src c.xa (cfgN c.cfg) len c.ox0 else []
    | 2 | 3 | 4 => if v then src c.xa (cfgM c.cfg) (rowBytes (cfgA c.cfg) (cfgK c.cfg)) c.ox0 else []
    | 5 => if v then src c.xa (cfgM c.cfg) (rowBytes (cfgA c.cfg) (cfgN c.cfg)) c.ox0 else []
    | 6 => if tileOk c.xb then src c.xa (tileOf c.xb).2.2.1 (4 * (tileOf c.xb).2.2.2) c.ox0 else []
    | 7 => if tileOk c.xb then dst c.xa (tileOf c.xb).2.2.1 (4 * (tileOf c.xb).2.2.2) c.ox0 else []
    | _ => []
  else
    match c.fn.toNat with
    | 1 => if v then src c.xa (cfgM c.cfg) (rowBytes (cfgA c.cfg) (cfgK c.cfg)) c.ox0 else []
    | 2 => if v then src c.xa (cfgM c.cfg) (rowBytes (cfgA c.cfg) (cfgN c.cfg)) c.ox0 else []
    | 3 => if foldOk c.xb then src c.xa (foldOf c.xb).2.2.2 (4 * (foldOf c.xb).2.2.1) c.ox0 else []
    | 4 => if v then src c.xa (cfgN c.cfg) (64 * cfgK c.cfg) c.ox0 else []
    | 8 => if v then src c.xa (cfgM c.cfg) (rowBytes (cfgA c.cfg) (cfgK c.cfg)) c.ox0
        ++ dst c.xb (cfgM c.cfg) (8 * cfgK c.cfg) c.ox1 else []
    | _ => []

/-- The range-lock entries of a journal made again at a resume (R250). -/
def relockQueue (n : Nat) (s : State) : State :=
  let h := s.getHart n
  { s with locks := s.locks ++ h.cmds.flatMap (fun c => (c.lockSpans.filter (fun l => l.1 < l.2.1)).map (fun l =>
      (⟨hartTable n, lineLo l.1, lineHi l.2.1, l.2.2, some n, c.strand, h.region, c.op, none⟩ : Lock))) }

end Sys2Proof.Machine
end

