-- ==== Sys2Proof/Machine/Copy.lean ====
section
/-! DEFINITION. Bulk copies (12, R319 to R345): requests, the journal, the channels, delivery and its errors, and the
instructions. -/

namespace Sys2Proof.Machine

/-! ### The request (R323 to R325) -/

def cpRows (w2 : Word) : Nat := bitsOf w2 0 16
def cpLen (w2 : Word) : Nat := bitsOf w2 16 16
def cpStride (w2 : Word) : Int := (w2.extractLsb' 32 27).toInt
def cpTr (w2 : Word) : Bool := w2.getLsbD 59
def cpPat (w2 : Word) : BitVec 4 := w2.extractLsb' 60 4
def cpStrand (w3 : Word) : BitVec 3 := w3.setWidth 3

/-- The format register of the bank an address lies in, 0 for a raw target; another node's bank answers freely (R325,
log 25). -/
def bankWord (a : Word) (s : State) : Word × State :=
  if gaCore a ≥ 1024 || gaOff a ≥ sliceSize then (0, s)
  else if gaNode a = s.nodeId then (s.bankReg (gaCore a) (bitsOf a 15 3), s)
  else
    let (v, s1) := s.takeFree
    (if bitsOf v 0 4 > 8 || bitsOf v 4 3 > 4 then 0 else v, s1)

/-- The format of a side: its own, or the other side's when it is raw (R325). -/
def sideFmt (own other : BitVec 4) : BitVec 4 := if own = 0 then other else own

/-- Bytes of a unit of a scalar format, or of a block's record. -/
def unitBytes (f : BitVec 4) : Nat := if isBlockCode f then recordBytes (f == 7) else codeSize f

/-- The index of a unit within its record. -/
def unitIndex (base : Word) (own : BitVec 4) (u : Int) : Nat :=
  (((if own = 0 then 0 else (bitsOf base 0 15 : Int)) + u) % 48).toNat

/-- The address of a unit; of its record for a block format (R205, R325). -/
def unitAddr (base : Word) (own f : BitVec 4) (u : Int) : Word :=
  let z : Int := unitBytes f
  let place (k : Int) : Word := BitVec.ofInt 64 ((if isBlockCode f then k / 48 else k) * z)
  if own = 0 then base + place u else (base &&& ~~~0x7FFF#64) + place ((bitsOf base 0 15 : Int) + u)

/-- The address that names a unit: in a formatted bank its low bits count elements (R205, R323). -/
def unitName (base : Word) (own f : BitVec 4) (u : Int) : Word := if own = 0 then unitAddr base own f u else base + BitVec.ofInt 64 u

/-- The address of the element at row r, column c of a transposing load's source (R331). -/
def trAddr (w0 w2 : Word) (esz : BitVec 2) (r c : Nat) : Word :=
  w0 + BitVec.ofInt 64 (((r : Int) * cpStride w2 + (c : Int)) * (2 ^ esz.toNat : Nat))

/-- The bounding intervals of source and destination (R188). -/
def copySpans (w0 w1 w2 : Word) (sf df : BitVec 4) (esz : BitVec 2) : (Nat × Nat) × (Nat × Nat) :=
  let rows := cpRows w2
  let len := cpLen w2
  if cpTr w2 then
    let a := (trAddr w0 w2 esz 0 0).toNat
    let b := (trAddr w0 w2 esz (rows - 1) 0).toNat
    let z := 2 ^ esz.toNat
    ((min a b, max a b + len * z), (w1.toNat, w1.toNat + rows * len * z))
  else
    let f := sideFmt sf df
    let g := sideFmt df sf
    let a := (unitAddr w0 sf f 0).toNat
    let b := (unitAddr w0 sf f (((rows - 1 : Nat) : Int) * cpStride w2)).toNat
    let row := (unitAddr w0 sf f ((len - 1 : Nat) : Int)).toNat + unitBytes f - a
    ((min a b, max a b + row),
      ((unitAddr w1 df g 0).toNat, (unitAddr w1 df g ((rows * len - 1 : Nat) : Int)).toNat + unitBytes g))

/-- Alignment or block shape is broken (R327): a raw side keeps to its element, a transposing load's to the pattern's, whose
size is not known when its entry is invalid; with a block format both sides keep to whole blocks. -/
def copyMisaligned (w0 w1 w2 : Word) (sf df : BitVec 4) (pat : Word) : Bool :=
  let f := sideFmt sf df
  let g := sideFmt df sf
  if isBlockCode f || isBlockCode g then
    let off (a : Word) (own h : BitVec 4) : Bool :=
      if own = 0 then a.toNat % recordBytes (h == 7) != 0 else bitsOf a 0 15 % 48 != 0
    cpLen w2 % 48 != 0 || cpStride w2 % 48 != 0 ||
      (if isBlockCode f then off w0 sf f else off w0 1 f) || (if isBlockCode g then off w1 df g else off w1 1 g)
  else
    let size (h : BitVec 4) : Nat := if !cpTr w2 then codeSize h else if pat.getLsbD 0 then 2 ^ bitsOf pat 1 2 else 1
    (sf == 0 && w0.toNat % size f != 0) || (df == 0 && w1.toNat % size g != 0)

/-- The first failing of codes 2 to 5 (R342, R343), 0 for none. -/
def copyCode (node : BitVec 4) (w0 w1 w2 w3 : Word) (sf df : BitVec 4) (pat : Word) : Nat :=
  if cpRows w2 == 0 || cpLen w2 == 0 || bitsOf w3 3 13 != 0 || (!cpTr w2 && cpPat w2 != 0) then 2
  else if copyMisaligned w0 w1 w2 sf df pat then 3
  else if cpTr w2 && (gaNode w0 != node || gaCore w0 != hbmCore || df != 0 || !pat.getLsbD 0) then 4
  else if w3.getLsbD 32 then 5
  else 0

/-! ### The journal (R320, R322) -/

/-- A journal slot. -/
def Hart.slot (h : Hart) (i : BitVec 8) : CopySlot := assocGet h.copies i.toNat CopySlot.reset
/-- A journal slot replaced. -/
def Hart.setSlot (h : Hart) (i : BitVec 8) (c : CopySlot) : Hart := { h with copies := assocSet h.copies i.toNat c }
/-- FIFO entries in use: copies not yet begun. -/
def Hart.fifoUsed (h : Hart) : Nat := (h.copies.filter (fun p => p.2.taken && p.2.st == .queued)).length
/-- Journal slots in use. -/
def Hart.slotsUsed (h : Hart) : Nat := (h.copies.filter (fun p => p.2.taken)).length
/-- The lowest-numbered free slot. -/
def Hart.freeSlot (h : Hart) : Option (BitVec 8) :=
  ((List.range Config.copySlots).find? (fun i => !(assocGet h.copies i CopySlot.reset).taken)).map (BitVec.ofNat 8)

/-- A handle (R342). -/
def copyHandle (node : BitVec 4) (hart : Nat) (slot : BitVec 8) (c : CopySlot) : Word :=
  BitVec.ofNat 64 (bitsOf c.w3 16 16 + slot.toNat * 2 ^ 16 + hart * 2 ^ 24 + node.toNat * 2 ^ 35 + c.gen.toNat * 2 ^ 40)

/-- Coding of STATE (R322). -/
def CopyState.code : CopyState → Nat
  | .done => 0 | .queued => 1 | .running => 2 | .stopped => 3 | .held => 4

/-- The state word (R342). -/
def CopySlot.word (c : CopySlot) : Word :=
  BitVec.ofNat 64 (c.wp.toNat + c.st.code * 2 ^ 40 + c.ecode.toNat * 2 ^ 48 + (if c.nonReplay then 2 ^ 56 else 0))

/-- The handler's address: the upper half is that of the pc of the cpq (R323). -/
def handlerOf (pc w3 : Word) : Word := if bitsOf w3 32 32 = 0 then 0 else (pc &&& ~~~0xFFFFFFFF#64) ||| (w3 >>> 32)

/-- The user interrupt of a copy that became DONE or STOPPED, one for each slot (R339). -/
def Hart.copyIrq (h : Hart) (node : BitVec 4) (slot : BitVec 8) (c : CopySlot) : Hart :=
  if c.handler = 0 || h.irqs.any (fun i => i.cause == 0x12 && i.slot == slot) then h
  else { h with irqs := h.irqs ++ [⟨0x12, copyHandle node h.num slot c, slot, c.handler⟩] }

/-- A pending interrupt of a slot dropped. -/
def Hart.dropIrq (h : Hart) (slot : BitVec 8) : Hart :=
  { h with irqs := h.irqs.filter (fun i => !(i.cause == 0x12 && i.slot == slot)) }

/-- A slot freed: it reads DONE and keeps WP, ECODE and GEN (R322). -/
def Hart.freeCopy (h : Hart) (slot : BitVec 8) : Hart :=
  (h.setSlot slot { h.slot slot with st := .done, taken := false }).dropIrq slot

/-- The range-lock entries of a copy (R188). -/
def lockCopy (c : CopySlot) (sf df : BitVec 4) (esz : BitVec 2) (s : State) : State :=
  let (a, b) := copySpans c.w0 c.w1 c.w2 sf df esz
  let e (lo hi : Nat) (k : LockKind) : Lock :=
    ⟨hartTable s.hart.num, lineLo lo, lineHi hi, k, some s.hart.num, cpStrand c.w3, s.hart.region, c.op, none⟩
  { s with locks := s.locks ++ [e a.1 a.2 .copySource, e b.1 b.2 .copyDest] }

/-- An operation of a copy issued: its sequence number, the drain of its strand's entries, its locks (R320, R340). -/
def queueCopy (slot : BitVec 8) (c : CopySlot) (sf df : BitVec 4) (esz : BitVec 2) (s : State) : State :=
  let sn := cpStrand c.w3
  let s1 := s.onHart (fun h => (h.issueOp sn (.copy slot)).drainStrand sn)
  let c1 := { c with st := .queued, op := s1.hart.nextOp - 1, seq := (s1.hart.spin sn).issue }
  lockCopy c1 sf df esz (s1.onHart (fun h => h.setSlot slot c1))

/-! ### The channels (R321) -/

/-- The copies of a hart that may begin: queued and ready, oldest first. -/
def Hart.readyCopies (h : Hart) : List (Nat × BitVec 8) :=
  if h.isStopped then []
  else h.ops.filterMap (fun o => match o.kind with
    | .copy slot => if (h.slot slot).st == .queued && (h.slot slot).op == o.id && h.ready o then some (o.id, slot) else none
    | _ => none)

/-- A free channel of a set (R319). -/
def State.freeChannel (s : State) (group : Nat) : Option Nat :=
  let busy := s.harts.flatMap (fun h => if hartTable h.num = group then
    h.copies.filterMap (fun p => if p.2.taken && p.2.st == .running then some p.2.chan else none) else [])
  (List.range 16).find? (fun i => !busy.contains i)

/-- The hart a channel serves next: ascending after the one it served last (R321). -/
def nextHart (last : Nat) (l : List Nat) : Option Nat :=
  l.foldl (fun best n => match best with
    | none => some n
    | some b => if (n + 4095 - last) % 2048 < (b + 4095 - last) % 2048 then some n else some b) none

/-- What COPY_BEGIN would take: the channel, the hart and its slot. -/
def State.nextCopy (s : State) (group : Nat) : Option (Nat × Nat × BitVec 8) :=
  match s.freeChannel group with
  | none => none
  | some ch =>
    let hs := s.harts.filter (fun h => hartTable h.num == group && !h.readyCopies.isEmpty)
    match nextHart (assocGet s.channels (group * 16 + ch) 2047) (hs.map (·.num)) with
    | none => none
    | some n => ((s.getHart n).readyCopies.head?).map (fun p => (ch, n, p.2))

/-! ### Ends of a copy -/

/-- The agent of a copy. -/
def copyAgent (c : CopySlot) (s : State) : Agent :=
  match s.hart.op? c.op with
  | some o => ⟨s.hart.num, o.region, o.level, cpStrand c.w3, c.op⟩
  | none => ⟨s.hart.num, s.hart.region, s.hart.level, cpStrand c.w3, c.op⟩

/-- A range of a destination of this module becomes undefined: lines that cannot be written are left (R11, R328). -/
def undefineRange (g : Agent) : Nat → Word → Nat → State → State
  | 0, _, _, s => s
  | fuel + 1, a, n, s =>
    if n = 0 then s
    else
      let m := min n (64 - a.toNat % 64)
      let (b, s1) := freeBytes m s
      undefineRange g fuel (a + BitVec.ofNat 64 m) (n - m) (match linePut g a b s1 with
        | (.done, s2) => s2
        | _ => s1)

/-- The destination units at and above WP become undefined (R328, R334), up to the end of a formatted destination's bank. -/
def undefineRest (c : CopySlot) (s : State) : State :=
  if gaNode c.w1 ≠ s.nodeId then s
  else
    let total := cpRows c.w2 * cpLen c.w2
    let (lo, hi) : Nat × Nat :=
      if cpTr c.w2 then (c.w1.toNat + c.wp.toNat * 2 ^ c.esz.toNat, c.w1.toNat + total * 2 ^ c.esz.toNat)
      else
        let g := sideFmt c.dfmt c.sfmt
        let top := (unitAddr c.w1 c.dfmt g ((total - 1 : Nat) : Int)).toNat + unitBytes g
        ((unitAddr c.w1 c.dfmt g c.wp.toNat).toNat, if c.dfmt = 0 then top else min top ((c.w1.toNat / 2 ^ 15 + 1) * 2 ^ 15))
    undefineRange (copyAgent c s) ((hi - lo) / 64 + 2) (BitVec.ofNat 64 lo) (hi - lo) s

/-- A copy stops (R333, R334): with code 6 it was skipped. -/
def stopCopy (slot : BitVec 8) (c : CopySlot) (ecode : BitVec 8) (bits : BitVec 17) (kept : Word) (s : State) : State :=
  let s0 := if ecode ≠ 6 && c.nonReplay then undefineRest c s else s
  let sn := cpStrand c.w3
  let c1 := { c with st := .stopped, ecode := ecode, kept := kept }
  (s0.onHart (fun h =>
    let h1 := if ecode = 6 then h else h.report sn (stEF ecode ||| bits)
    ((h1.setSlot slot c1).perform c.op s.now).copyIrq s.nodeId slot c1)).unlock s.hart.num c.op

/-- A copy completes (R338, R339): its slot is freed, or held until its handler has been entered. -/
def doneCopy (slot : BitVec 8) (c : CopySlot) (s : State) : State :=
  let c1 := { c with st := .done, taken := c.handler != 0 }
  (s.onHart (fun h => ((h.setSlot slot c1).perform c.op s.now).copyIrq s.nodeId slot c1)).unlock s.hart.num c.op

/-! ### Beginning (R325, R327, R334) -/

/-- The side whose bank capacity a copy would run past, with the first unit beyond it (R327). -/
def capacityBreach (c : CopySlot) : Option Word :=
  if cpTr c.w2 then none
  else
    let rows := cpRows c.w2
    let len := cpLen c.w2
    let total := rows * len
    let at_ (u : Nat) : Int := ((u / len : Nat) : Int) * cpStride c.w2 + ((u % len : Nat) : Int)
    let k0 : Int := bitsOf c.w0 0 15
    let ends := [k0, k0 + ((rows - 1 : Nat) : Int) * cpStride c.w2]
    let sBad := c.sfmt != 0 && ends.any (fun k => decide (k < 0) || decide (k + len > codeCapacity c.sfmt))
    let dBad := c.dfmt != 0 && decide (bitsOf c.w1 0 15 + total > codeCapacity c.dfmt)
    if sBad then some (unitName c.w0 c.sfmt c.sfmt (at_ c.wp.toNat))
    else if dBad then some (unitName c.w1 c.dfmt c.dfmt c.wp.toNat)
    else none

/-- A copy of the hart in focus begins on a channel, or is skipped. The spec does not say what becomes of a copy whose bank's format or
pattern entry has changed since it was issued so that it would not pass the checks of the issue any more: it goes on under what it
finds, and only the capacity is checked (log 79). -/
def beginCopy (slot : BitVec 8) (chan : Nat) (s : State) : State :=
  let c := s.hart.slot slot
  if ((s.hart.spin (cpStrand c.w3)).status &&& 8) != 0 then stopCopy slot c 6 0 0 s
  else
    let (sw, s1) := if c.begun then ((0 : Word), s) else bankWord c.w0 s
    let (dw, s2) := if c.begun then ((0 : Word), s1) else bankWord c.w1 s1
    let pat := s.cgPat[(cpPat c.w2).toNat]
    let c1 : CopySlot :=
      if c.begun then { c with st := .running, chan := chan }
      else { c with st := .running, chan := chan, begun := true, sfmt := fmtCode sw, dfmt := fmtCode dw, rnd := fmtRnd dw,
                    esz := pat.extractLsb' 1 2 }
    let s3 := s2.onHart (fun h => h.setSlot slot c1)
    let s4 := if c1.nonReplay then s3 else undefineRest c1 s3
    match capacityBreach c1 with
    | some a => stopCopy slot c1 4 stRA a s4
    | none => s4

/-- COPY_BEGIN (R321). -/
def copyBegin (group : Nat) (s : State) : State :=
  match s.nextCopy group with
  | none => s
  | some (ch, n, slot) =>
    ({ s with channels := assocSet s.channels (group * 16 + ch) n }).withHart n (beginCopy slot ch)

/-! ### Delivery (R324, R326, R328) -/

/-- The exact value of element k of a record, or of a scalar element. -/
def unitVals (f : BitVec 4) (b : List Byte) (k n : Nat) : List FVal :=
  if isBlockCode f then (List.range n).map (fun i => recordValue (f == 7) b (k + i))
  else match fpOfCode f with
    | some p => (groupBytes (codeSize f) n b).map (fpDecode p)
    | none => []

/-- A block of values for which R97 gives no scale byte: a copy's FP64 or block source may hold 2^128 and more, beyond the
FP32 inputs the rule speaks of (log 70). -/
def beyondScale (g : BitVec 4) (vals : List FVal) : Bool :=
  isBlockCode g && !vals.any fvNonFinite && decide (scaleOf (g == 7) vals > 254)

/-- A group converted to the destination's format (R326): stochastic rounding by the hash dither, a group of 16 cut
short by the row's end filled with Dn = 0. -/
def convertUnits (f g : BitVec 4) (rnd : BitVec 3) (step : Word) (b : List Byte) (k n : Nat) : List Byte :=
  let vals := unitVals f b k n
  if isBlockCode g then
    let rnds := if rnd = 4 then hashRnds (blockDs (g == 7) vals) step else []
    blockBytes (g == 7) (encodeBlock (g == 7) rnd rnds vals)
  else match fpOfCode g with
    | some p =>
      let ds := vals.map (discarded p) ++ List.replicate (16 - n) 0
      let rnds := if rnd = 4 then hashRnds ds step else []
      vals.zipIdx.flatMap (fun v => leBytes (fpConvert p (modeAt rnd rnds v.2) v.1).bits (codeSize g))
    | none => []

/-- How one delivery ends. -/
inductive Delivery where
  | moved (units : Nat) (st : State)
  | wait (st : State)
  | fail (ecode : BitVec 8) (bits : BitVec 17) (kept : Word) (st : State)

/-- A read refused. -/
def Delivery.refused (kept : Word) (cause reason : BitVec 8) (s : State) : Delivery :=
  let (ec, bits) := refusal cause reason
  .fail ec bits kept s

/-- A group written to the destination; a write that fails keeps the address of the first unit not written, which `name` gives for the
byte it stopped at (R334). -/
def deliver (g : Agent) (name : Word → Word) (a : Word) (b : List Byte) (n : Nat) (s : State) : Delivery :=
  match devicePut g a b s with
  | (.done, s1) => .moved n s1
  | (.wait, s1) => .wait s1
  | (.suspended k, s1) => .fail 4 stCS (name k) s1
  | (.fault c r k, s1) => Delivery.refused (name k) c r s1

/-- The elements of one column, rows ascending (R331, R332). -/
def gatherColumn (g : Agent) (c : CopySlot) (col : Nat) : List Nat → State → (List Byte × Option Delivery) × State
  | [], s => (([], none), s)
  | r :: t, s =>
    let a := trAddr c.w0 c.w2 c.esz r col
    match deviceGet g a (2 ^ c.esz.toNat) s with
    | (.bytes b, s1) =>
      let ((l, e), s2) := gatherColumn g c col t s1
      ((b ++ l, e), s2)
    | (.wait, s1) => (([], some (.wait s1)), s1)
    | (.fault x y, s1) => (([], some (Delivery.refused a x y s1)), s1)

/-- The next destination units of a running copy: a column, a block, a dither group of 16, or the raw units of one
line. -/
def moveUnits (g : Agent) (c : CopySlot) (s : State) : Delivery :=
  let pos := c.wp.toNat
  let rows := cpRows c.w2
  let len := cpLen c.w2
  if cpTr c.w2 then
    match gatherColumn g c (pos / rows) (List.range rows) s with
    | ((_, some e), _) => e
    | ((b, none), s1) => deliver g id (c.w1 + BitVec.ofNat 64 (pos * 2 ^ c.esz.toNat)) b rows s1
  else
    let f := sideFmt c.sfmt c.dfmt
    let h := sideFmt c.dfmt c.sfmt
    let cu := pos % len
    let su : Int := ((pos / len : Nat) : Int) * cpStride c.w2 + (cu : Int)
    let sa := unitAddr c.w0 c.sfmt f su
    let da := unitAddr c.w1 c.dfmt h pos
    let name (k : Word) : Word := if c.dfmt = 0 then k
      else unitName c.w1 c.dfmt h (pos + (k - da).toNat / unitBytes h * (if isBlockCode h then 48 else 1) : Nat)
    let left := len - cu
    let line (a : Word) (z : Nat) : Nat := (64 - a.toNat % 64) / z
    let n := if f ≠ h then (if isBlockCode h then min 48 left else min 16 left)
      else if isBlockCode f then min 48 left
      else max 1 (min left (min (line sa (unitBytes f)) (line da (unitBytes h))))
    let nb := if isBlockCode f then unitBytes f else n * unitBytes f
    match deviceGet g sa nb s with
    | (.wait, s1) => .wait s1
    | (.fault x y, s1) => Delivery.refused (unitName c.w0 c.sfmt f su) x y s1
    | (.bytes b, s1) =>
      let k := unitIndex c.w0 c.sfmt su
      if f = h then deliver g name da b n s1
      else if beyondScale h (unitVals f b k n) then
        let (u, s2) := freeBytes (unitBytes h) s1
        deliver g name da u n s2
      else deliver g name da (convertUnits f h c.rnd c.step b k n) n s1

/-- COPY_UNIT_DELIVERED (R328, R334) for a copy of the hart in focus: WP advances, or the copy stops; it waits for what other nodes are
to answer (log 25). -/
def copyUnit (slot : BitVec 8) (s : State) : State :=
  let c := s.hart.slot slot
  if c.taken && c.st == .running && !c.lost then
    match moveUnits (copyAgent c s) c s with
    | .wait s1 =>
      if s1.poison = s.poison then s.waited s1
      else (s.waited s1).onHart (fun h => h.setSlot slot { c with lost := true })
    | .fail ec bits kept s1 => stopCopy slot c ec bits kept s1
    | .moved n s2 =>
      let s1 := s2.farOver s.hart.num (· == .op c.op)
      let wp := min (c.wp.toNat + n) (cpRows c.w2 * cpLen c.w2)
      let c1 := { c with wp := BitVec.ofNat 40 wp }
      if wp = cpRows c.w2 * cpLen c.w2 then doneCopy slot c1 s1 else s1.onHart (fun h => h.setSlot slot c1)
  else s

/-- COPY_ERROR_STOP (R333, R334): a delivery that meets a fault or refusal with this code. -/
def copyErrorStop (slot : BitVec 8) (code : BitVec 8) (s : State) : State :=
  let s1 := copyUnit slot s
  if (s.hart.slot slot).st == .running && (s1.hart.slot slot).st == .stopped && (s1.hart.slot slot).ecode == code then s1 else s

/-! ### Gang stops and node ends (R335, R337) -/

/-- A gang stop meets a copy of the hart in focus: RUNNING becomes HELD. -/
def holdCopies (s : State) : State :=
  let held (c : CopySlot) : CopySlot := if c.taken && c.st == .running then { c with st := .held } else c
  let ops := s.hart.copies.filterMap (fun p => if p.2.taken && (p.2.st == .running || p.2.st == .queued) then some p.2.op else none)
  let s1 := s.onHart (fun h => { h with copies := h.copies.map (fun p => (p.1, held p.2)) })
  { s1 with locks := s1.locks.filter (fun l => !(l.hart == some s.hart.num && (l.kind == .copySource || l.kind == .copyDest)
      && ops.contains l.op)) }

/-- A copy of the hart that no resume can replay (R329, R337). -/
def Hart.nonReplayable (h : Hart) : Bool :=
  h.copies.any (fun p => p.2.taken && p.2.nonReplay && (p.2.st == .running || p.2.st == .held))

/-- A resume: the entries of HELD and QUEUED copies are made again, and HELD copies become QUEUED. -/
def replayCopies (s : State) : State :=
  let l := s.hart.copies.filter (fun p => p.2.taken && (p.2.st == .held || p.2.st == .queued))
  let s1 := l.foldl (fun st p =>
    let (a, st1) := if p.2.begun then (p.2.sfmt, st) else let (w, t) := bankWord p.2.w0 st; (fmtCode w, t)
    let (b, st2) := if p.2.begun then (p.2.dfmt, st1) else let (w, t) := bankWord p.2.w1 st1; (fmtCode w, t)
    lockCopy p.2 a b (if p.2.begun then p.2.esz else (s.cgPat[(cpPat p.2.w2).toNat]).extractLsb' 1 2) st2) s
  s1.onHart (fun h => { h with copies := h.copies.map (fun p =>
    (p.1, if p.2.taken && p.2.st == .held then { p.2 with st := .queued } else p.2)) })

/-- ndone frees the slots of STOPPED copies, and of those whose handler still waits (R322, R335). -/
def Hart.endCopies (h : Hart) : Hart :=
  h.copies.foldl (fun h p => if p.2.taken && (p.2.st == .stopped || p.2.st == .done) then h.freeCopy (BitVec.ofNat 8 p.1) else h) h

/-- Every copy discarded (R392, R414). -/
def Hart.dropCopies (h : Hart) : Hart :=
  h.copies.foldl (fun h p => if p.2.taken then h.freeCopy (BitVec.ofNat 8 p.1) else h) h

/-! ### cpq and cpq.nb (R343) -/

/-- The hart waits, or cpq.nb answers busy. -/
def copyBusy (nb : Bool) (d : BitVec 5) (m : Bool) (s : State) : State :=
  if nb then (s.setX d (BitVec.ofNat 64 (2 ^ 63 + 1))).done 4 m else s.block

/-- One copy issued. -/
def copyIssue (nb : Bool) (d a : BitVec 5) (m : Bool) (s : State) : State :=
  let w0 := s.x a
  let w1 := s.x (a + 1)
  let w2 := s.x (a + 2)
  let w3 := s.x (a + 3)
  let (sw, s1) := bankWord w0 s
  let (dw, s2) := bankWord w1 s1
  let sf := fmtCode sw
  let df := fmtCode dw
  let pat := s.cgPat[(cpPat w2).toNat]
  let code := copyCode s.nodeId w0 w1 w2 w3 sf df pat
  let esz : BitVec 2 := pat.extractLsb' 1 2
  let (src, dst) := copySpans w0 w1 w2 sf df esz
  if code ≠ 0 then (s2.setX d (BitVec.ofNat 64 (2 ^ 63 + code))).done 4 m
  else if s2.hitsWeights (some (dst.1, dst.2, .copyDest)) then trap 0x0A w1 s2
  else if decide (s2.hart.fifoUsed ≥ Config.copyFifo) || !s2.lockRoom 2 then copyBusy nb d m s
  else match s2.hart.freeSlot with
    | none => copyBusy nb d m s
    | some slot =>
      let old := s2.hart.slot slot
      let c : CopySlot := { CopySlot.reset with
        gen := old.gen + 1
        st := .queued
        taken := true
        w0 := w0
        w1 := w1
        w2 := w2
        w3 := w3
        step := s.hart.srStep
        handler := handlerOf s.hart.pc w3
        nonReplay := meets (lineLo src.1) (lineHi src.2) (lineLo dst.1) (lineHi dst.2) }
      ((queueCopy slot c sf df esz s2).setX d (copyHandle s.nodeId s.hart.num slot c)).done 4 m

/-- cpq (R343). -/
def execCpq (d a : BitVec 5) (m : Bool) (s : State) : Out := .next (copyIssue false d a m s)
/-- cpq.nb (R343). -/
def execCpqNb (d a : BitVec 5) (m : Bool) (s : State) : Out := .next (copyIssue true d a m s)

/-! ### cpwp, cpwait and cpst (R344, R345) -/

/-- The region a hart is placed in (R342): of its node, or of the last one, as a hart whose node has ended counts as placed there still
(log 37). -/
def State.placedIn (s : State) (n : Nat) : Option (BitVec 16) :=
  match (s.getHart n).region with
  | some r => some r
  | none => (s.lastOwner.find? (fun p => p.1 == n)).map (·.2)

/-- The slot a handle names, with its hart and whether the handle is stale; none for code 7 (R342), which a hart without a node gets of
every handle, its own too (log 41). -/
def State.findCopy (s : State) (hd : Word) : Option (Nat × BitVec 8 × CopySlot × Bool) :=
  let n := bitsOf hd 24 11
  if hd.getLsbD 63 || hd.extractLsb' 35 4 != s.nodeId || !s.present n || s.hart.region.isNone
      || s.placedIn n != s.hart.region then none
  else
    let slot : BitVec 8 := hd.extractLsb' 16 8
    let c := (s.getHart n).slot slot
    some (n, slot, c, c.gen != hd.extractLsb' 40 23)

/-- The state word a handle reads. -/
def handleWord (c : CopySlot) (stale : Bool) : Word := if stale then 0xFFFFFFFFFF else c.word

/-- cpwp (R344). -/
def execCpwp (d a : BitVec 5) (m : Bool) (s : State) : Out :=
  match s.findCopy (s.x a) with
  | none => .next ((s.setX d (BitVec.ofNat 64 (2 ^ 63 + 7))).done 4 m)
  | some (_, _, c, stale) => .next ((s.setX d (handleWord c stale)).done 4 m)

/-- cpwait (R340, R344): an acquire of every strand when it ends. The spec does not say whether one that ends with code 7 is an acquire:
it is none (log 80). -/
def execCpwait (d a b : BitVec 5) (m : Bool) (s : State) : Out :=
  match s.findCopy (s.x a) with
  | none => .next ((s.setX d (BitVec.ofNat 64 (2 ^ 63 + 7))).done 4 m)
  | some (_, _, c, stale) =>
    if stale || c.st == .done || c.st == .stopped || decide ((s.x b).toNat ≤ c.wp.toNat) then
      .next (((s.onHart (fun h => h.acquireAll s.now)).setX d (handleWord c stale)).done 4 m)
    else .next s.block

/-- RESUME (R345): from the point where cpq checks the FIFO. -/
def resumeCopy (d : BitVec 5) (slot : BitVec 8) (c : CopySlot) (m : Bool) (s : State) : State :=
  if decide (s.hart.fifoUsed ≥ Config.copyFifo) || !s.lockRoom 2 then s.block
  else
    let (sw, s1) := if c.begun then (zext64 c.sfmt, s) else bankWord c.w0 s
    let (dw, s2) := if c.begun then (zext64 c.dfmt, s1) else bankWord c.w1 s1
    let esz := if c.begun then c.esz else (s.cgPat[(cpPat c.w2).toNat]).extractLsb' 1 2
    ((queueCopy slot c (fmtCode sw) (fmtCode dw) esz (s2.onHart (fun h => h.dropIrq slot))).setX d 0).done 4 m

/-- The value of selectors 0 to 7 (R345). -/
def copyValue (h : Hart) (c : CopySlot) (stale : Bool) (sel : Nat) : Word :=
  if sel = 0 then handleWord c stale
  else if stale then 0
  else match sel with
    | 1 => c.w0
    | 2 => c.w1
    | 3 => c.w2
    | 4 => c.w3
    | 5 => if c.st == .stopped then c.kept else 0
    | 6 => BitVec.ofNat 64 (h.fifoUsed + h.slotsUsed * 2 ^ 8)
    | 7 => zext64 c.seq
    | _ => 0

/-- cpst by its selector (R345). -/
def copyStatus (d a b : BitVec 5) (m : Bool) (s : State) : State :=
  match s.findCopy (s.x a) with
  | none => (s.setX d (BitVec.ofNat 64 (2 ^ 63 + 7))).done 4 m
  | some (n, slot, c, stale) =>
    let sel := bitsOf (s.x b) 0 8
    if sel = 8 || sel = 9 then
      if stale || n ≠ s.hart.num || c.st != .stopped || !c.taken then (s.setX d (BitVec.ofNat 64 (2 ^ 63 + 8))).done 4 m
      else if sel = 9 then ((s.onHart (fun h => h.freeCopy slot)).setX d 0).done 4 m
      else if c.nonReplay then (s.setX d (BitVec.ofNat 64 (2 ^ 63 + 9))).done 4 m
      else resumeCopy d slot c m s
    else (s.setX d (copyValue (s.getHart n) c stale sel)).done 4 m

/-- cpst (R345). -/
def execCpst (d a b : BitVec 5) (m : Bool) (s : State) : Out := .next (copyStatus d a b m s)
/-- cpst with selector 8 (R345, log 15). -/
def execCpstResume (d a b : BitVec 5) (m : Bool) (s : State) : Out := .next (copyStatus d a b m s)
/-- cpst with selector 9 (R345, log 15). -/
def execCpstAbandon (d a b : BitVec 5) (m : Bool) (s : State) : Out := .next (copyStatus d a b m s)

end Sys2Proof.Machine
end

