-- ==== Sys2Proof/Machine/Cycle.lean ====
section
/-! DEFINITION. Cycle control (11, R289 to R317): the stairwells' sequencers, their barriers and decisions, and the seven
instructions. A hart that waits for a release stands in `Run.barrier`. -/

namespace Sys2Proof.Machine

/-! ### Sequencers -/

/-- A sequencer by its stairwell's number. -/
def State.seqr (s : State) (i : BitVec 4) : Sequencer := s.seqs[i.toNat]
/-- A sequencer replaced. -/
def State.setSeq (s : State) (i : BitVec 4) (q : Sequencer) : State := { s with seqs := s.seqs.set i.toNat q }

/-- Coding of STATE (R294). -/
def SeqState.code : SeqState → Nat
  | .closed => 0 | .open_ => 1 | .relax => 2 | .coarse => 3 | .test => 4 | .done => 5
/-- Coding of STAT (R294). -/
def CycleStat.code : CycleStat → Nat
  | .none => 0 | .converged => 1 | .inexact => 2 | .diverged => 3 | .aborted => 4

/-- The state word (R294). -/
def Sequencer.word (q : Sequencer) : Word :=
  let b (v : Bool) (k : Nat) : Nat := if v then 2 ^ k else 0
  BitVec.ofNat 64 (q.state.code + q.stat.code * 2 ^ 4 + q.lastF.code * 2 ^ 8 + q.lastB.code * 2 ^ 12 + b q.dir 16 + b q.norm 17
    + b q.lax 18 + b q.ack 19 + b q.permit 20 + b q.miss 21 + b q.device 22 + b q.bound 23 + q.count.toNat * 2 ^ 24
    + q.nflight.toNat * 2 ^ 32 + q.limit.toNat * 2 ^ 48)

/-- The state moves, with its record to the region's event queue (R296, R427). -/
def moveSeq (i : BitVec 4) (q : Sequencer) (st : SeqState) (s : State) : State :=
  let q' := { q with state := st }
  regionRecord q.region 0x01 0xFFFF (i.toNat + st.code * 2 ^ 32) q'.word.toNat (s.setSeq i q')

/-- A cycle runs: neither CLOSED nor DONE. -/
def SeqState.runs : SeqState → Bool
  | .open_ | .relax | .coarse | .test => true
  | _ => false

/-- The phase a state expects (R297). -/
def SeqState.phase : SeqState → Nat
  | .relax => 1 | .coarse => 2 | .test => 3 | _ => 0

/-- A flight entry names a hart (R293). -/
def flightHas (w : Word) (h : Nat) : Bool := decide (bitsOf w 0 11 ≤ h) && decide (h < bitsOf w 0 11 + bitsOf w 16 11)

/-- The flight of a member. -/
def Sequencer.flightOf (q : Sequencer) (h : Nat) : Option Nat := q.flights.findIdx? (fun w => flightHas w h)
/-- Members of a stairwell. -/
def Sequencer.members (q : Sequencer) : Nat := (q.flights.map (fun w => bitsOf w 16 11)).foldl (· + ·) 0

/-- The stairwell is bound to the hart's region. -/
def State.mine (s : State) (q : Sequencer) : Bool := q.bound && s.hart.region == some q.region

/-- A code with bit 63 set. -/
def errCode (n : Nat) : Word := BitVec.ofNat 64 (2 ^ 63 + n)

/-- The code of an invalid arrival or cyres, 0 if it is valid (R301): codes 1, 3, 2, 4 in this order. -/
def State.requestCode (s : State) (q : Sequencer) (state : SeqState) (res : Bool) : Nat :=
  match q.flightOf s.hart.num with
  | none => 1
  | some f =>
    if !s.mine q then 1
    else if !q.state.runs then 3
    else if q.state ≠ state then 2
    else if res && q.partials.any (fun p => p.1 == f) then 4
    else 0

/-! ### Weight entries (R308) -/

/-- The weight entries of a stairwell removed from every table. -/
def State.dropWeights (s : State) (i : BitVec 4) : State := { s with locks := s.locks.filter (fun l => l.stair != some i) }

/-- Every table has room for n more entries. -/
def State.tablesRoom (s : State) (n : Nat) : Bool :=
  (List.range 36).all (fun t => decide ((s.locks.filter (fun l => l.table == t)).length + n ≤ Config.locks))

/-- The weight ranges a cyopen makes entries for: those for which none exist (R296, R308; log 69). -/
def State.newRanges (s : State) (i : BitVec 4) (ranges : List (Word × Word)) : List (Word × Word) :=
  ranges.filter (fun r => !s.locks.any (fun l => l.stair == some i && l.lo == lineLo r.1.toNat &&
    l.hi == lineHi (r.1.toNat + r.2.toNat)))

/-- A weight entry for each range in every table. -/
def State.addWeights (s : State) (i : BitVec 4) (region : BitVec 16) (ranges : List (Word × Word)) : State :=
  { s with locks := s.locks ++ (List.range 36).flatMap (fun t => ranges.map (fun r =>
      (⟨t, lineLo r.1.toNat, lineHi (r.1.toNat + r.2.toNat), .weight, none, 0, some region, 0, some i⟩ : Lock))) }

/-! ### Waiting members -/

/-- A hart waits at this stairwell for its release in the cycle that runs; `free`: its tick may be set already. -/
def Hart.waitsAt (h : Hart) (i : BitVec 4) (free : Bool) : Bool :=
  match h.run with
  | .barrier k _ _ _ r ended => k == i && (r.isNone || (free && !ended))
  | _ => false

/-- A waiting member's cyphase returns a value. -/
def Hart.phaseReturns (h : Hart) (v : Word) (acq : Option Word) : Hart :=
  match h.run with
  | .barrier _ _ d m _ _ =>
    let h1 := match acq with | some now => h.acquireAll now | none => h
    (h1.wx d v).retire (h.pc + 4) m
  | _ => h

/-- The members whose arrivals wait get their release tick (R302). -/
def setRelease (i : BitVec 4) (t : Word) (ended : Bool) (s : State) : State :=
  s.eachHart (fun h => match h.run with
    | .barrier k p d m none _ => if k = i then { h with run := .barrier k p d m (some t) ended } else h
    | _ => h)

/-- The release tick of a barrier (R302). -/
def releaseTick (q : Sequencer) (a : Nat) (arr : List Arrival) (decision : Nat) : Word :=
  let ld := max q.ldelay.toNat (if q.device then 160 else 64)
  let want := (arr.map (fun r => r.want.toNat)).foldl max 0
  BitVec.ofNat 64 (max (a + ld) (max (min want (a + Config.maxWait)) decision))

/-! ### Abort, close and release (R296, R307) -/

/-- The cycle is aborted; what waiting members see is the caller's. -/
def abortSeq (q : Sequencer) : Sequencer := { q with stat := .aborted, verdict := 4, arrivals := [] }

/-- A gang stop or a rollback of a region aborts its open cycles (R296). -/
def abortRegion (r : BitVec 16) (s : State) : State :=
  (List.range 16).foldl (fun st k =>
    let i := BitVec.ofNat 4 k
    let q := st.seqr i
    if q.bound && q.region == r && q.state.runs then moveSeq i (abortSeq q) .done st else st) s

/-- A stairwell released: every field cleared, the weight entries gone (R296). -/
def releaseSeq (i : BitVec 4) (s : State) : State := (s.setSeq i Sequencer.reset).dropWeights i

/-- The stairwells of a region that ends are aborted and released (R392, R414). -/
def releaseRegionSeqs (r : BitVec 16) (s : State) : State :=
  (List.range 16).foldl (fun st k =>
    let i := BitVec.ofNat 4 k
    if (st.seqr i).bound && (st.seqr i).region == r then releaseSeq i st else st) (abortRegion r s)

/-- An arrival withdrawn by a gang stop (R312). -/
def withdraw (h : Nat) (s : State) : State :=
  { s with seqs := s.seqs.map (fun q => { q with arrivals := q.arrivals.filter (fun a => a.hart != h) }) }

/-- PERMIT as a close evaluates it (R307). -/
def permits (q : Sequencer) : Bool :=
  let ok (c : CycleStat) : Bool := c == .converged || c == .inexact
  (q.lastF == .converged && q.lastB == .converged) || (q.lax && ok q.lastF && ok q.lastB)

/-- The cyclose row of DONE (R296). -/
def closeDone (i : BitVec 4) (q : Sequencer) (s : State) : State :=
  let q1 := if q.dir then { q with lastB := q.stat } else { q with lastF := q.stat }
  let q2 := { q1 with permit := permits q1 }
  moveSeq i q2 .closed (if q2.permit then s.dropWeights i else s)

/-- The cyclose rows (R296): a cycle still running is aborted, and its waiting members return code 3. -/
def closeSeq (i : BitVec 4) (s : State) : State :=
  let q := s.seqr i
  match q.state with
  | .closed => s
  | .done => closeDone i q s
  | _ => closeDone i (abortSeq q) (s.eachHart (fun h => if h.waitsAt i true then h.phaseReturns (errCode 3) none else h))

/-! ### Barriers and decisions (R302 to R305) -/

/-- The last arrival of phases 0 to 2 (R296, R302). -/
def lastArrival (i : BitVec 4) (q : Sequencer) (s : State) : State :=
  let t := releaseTick q s.now.toNat q.arrivals 0
  let q1 := { q with arrivals := [], release := t }
  let (q2, st) : Sequencer × SeqState := match q.state with
    | .open_ => (q1, .relax)
    | .relax => (q1, .coarse)
    | _ => ({ q1 with partials := [] }, .test)
  setRelease i t false (moveSeq i q2 st s)

/-- An arrival (R295, R302). -/
def arrive (i : BitVec 4) (want : Word) (d : BitVec 5) (m : Bool) (s : State) : State :=
  let q := s.seqr i
  let q1 := { q with arrivals := q.arrivals ++ [⟨s.hart.num, s.now, want⟩] }
  let s1 := (s.setSeq i q1).onHart (fun h =>
    { h with run := .barrier i (BitVec.ofNat 2 q.state.phase) d m none false, idleSince := s.now })
  if q1.arrivals.length = q1.members && q.state ≠ .test then lastArrival i q1 s1 else s1

/-- The FP64 absolute value. -/
def fvAbs : FVal → FVal
  | .fin _ m e => .fin false m e
  | .inf _ => .inf false
  | .nan => .nan

/-- The partials combined in flight order (R304): the norm and whether one was missing. -/
def combine64 (q : Sequencer) : Word × Bool :=
  let step (r : FVal) (f : Nat) : FVal :=
    let v := match q.partials.find? (fun p => p.1 == f) with
      | some p => fpDecode .fp64 p.2.toNat
      | none => .nan
    if q.norm then
      (match r, v with
       | .nan, _ | _, .nan => FVal.nan
       | _, _ => if fvLt r (fvAbs v) then fvAbs v else r)
    else fpDecode .fp64 (fpAddV .fp64 .rne r v).bits
  let r := (List.range q.nflight.toNat).foldl step (.fin false 0 0)
  (BitVec.ofNat 64 (fpConvert .fp64 .rne r).bits, (List.range q.nflight.toNat).any (fun f => !q.partials.any (fun p => p.1 == f)))

/-- The verdict (R305): the first rule that applies. -/
def verdictOf (q : Sequencer) : BitVec 3 × CycleStat :=
  let res := fpDecode .fp64 q.res.toNat
  match res with
  | .nan => (3, .diverged)
  | _ =>
    if fvLe res (fpDecode .fp64 q.tol.toNat) then (1, .converged)
    else if q.divf != 0 && decide (q.count.toNat ≥ 2) &&
        fvLt (fpDecode .fp64 (fpMulV .fp64 .rne (fpDecode .fp64 q.divf.toNat) (fpDecode .fp64 q.prev.toNat)).bits) res then
      (3, .diverged)
    else if q.count = q.limit then (2, .inexact)
    else (0, q.stat)

/-- CYCLE_DECISION (R304, R305): once every member has arrived at phase 3; then the release is set. A continue begins the next
iteration, in which no partial is given yet (R317). -/
def cycleDecision (i : BitVec 4) (s : State) : State :=
  let q := s.seqr i
  if q.state = .test && q.arrivals.length = q.members && q.bound then
    let (r, miss) := combine64 q
    let q1 := { q with prev := q.res, res := r, miss := miss, count := q.count + 1 }
    let (v, stat) := verdictOf q1
    let a := (q.arrivals.map (fun r => r.time.toNat)).foldl max 0
    let t := releaseTick q a q.arrivals s.now.toNat
    let q2 := { q1 with verdict := v, stat := stat, arrivals := [], release := t,
                        partials := if v = 0 then [] else q1.partials }
    setRelease i t (v != 0) (moveSeq i q2 (if v = 0 then .open_ else .done) s)
  else s

/-- BARRIER_RELEASE (R302): the members whose tick has come go on, an acquire of every strand (R298). -/
def barrierRelease (i : BitVec 4) (s : State) : State :=
  s.eachHart (fun h => match h.run with
    | .barrier k _ _ _ (some t) _ =>
      if k = i && decide (t.toNat ≤ s.now.toNat) then h.phaseReturns t (some s.now) else h
    | _ => h)

/-- A hart of the module given the focus for a trap. -/
def trapHart (n : Nat) (cause : BitVec 8) (val : Word) (s : State) : State := s.withHart n (fun t => trap cause val t)

/-- The phase timeout has passed at a time, counted from the first arrival at the barrier (R303). -/
def Sequencer.timedOut (q : Sequencer) (now : Nat) : Bool :=
  match q.arrivals.head? with
  | some a =>
    q.state.runs && decide (q.arrivals.length < q.members) &&
      decide (a.time.toNat + (if q.timeout = 0 then 1000000 else q.timeout.toNat) ≤ now)
  | none => false

/-- PHASE_TIMEOUT (R303): the cycle is aborted and its waiting members trap with cause 0x0F. -/
def phaseTimeout (i : BitVec 4) (s : State) : State :=
  let q := s.seqr i
  if q.timedOut s.now.toNat then
    let val := BitVec.ofNat 64 (i.toNat + q.state.phase * 2 ^ 8)
    (q.arrivals.map (·.hart)).foldl (fun st n =>
      if (st.getHart n).waitsAt i false then trapHart n 0x0F val st else st) (moveSeq i (abortSeq q) .done s)
  else s

/-- What a sequencer has done when it performs a command: a phase timeout that lies before now has come (R295, R303). -/
def State.onTime (s : State) (i : BitVec 4) : State :=
  if (s.seqr i).timedOut (s.now.toNat - 1) then phaseTimeout i s else s

/-! ### cyopen (R311) -/

/-- The fields of a stairwell descriptor (R292). -/
structure StairDesc where
  ctrl : Word
  tol : Word
  divf : Word
  timeout : Word
  ldelay : Word
  flt : Word
  lnd : Word
  zero : List Word
  ranges : List (Word × Word)
deriving DecidableEq, Repr

/-- A descriptor from its 256 bytes. -/
def stairDesc (b : List Byte) : StairDesc :=
  let w := dwordAt b
  ⟨w 0, w 1, w 2, w 3, w 4, w 5, w 6, (List.range 9).map (fun i => w (7 + i)),
    (List.range (bitsOf (w 0) 24 4)).map (fun i => (w (16 + 2 * i), w (17 + 2 * i)))⟩

/-- Check 3 of cyopen fails (R292, R311). -/
def StairDesc.bad (d : StairDesc) : Bool :=
  let inf : Nat := 0x7FF0000000000000
  let n := bitsOf d.ctrl 0 9
  (d.ctrl &&& ~~~0x0FFF71FF#64) != 0 || n == 0 || decide (n > 256) || bitsOf d.ctrl 16 8 == 0 || decide (bitsOf d.ctrl 24 4 > 8)
    || bitsOf d.timeout 32 32 != 0 || bitsOf d.ldelay 32 32 != 0 || d.flt.toNat % 8 != 0 || d.lnd.toNat % 8 != 0
    || d.zero.any (fun w => w != 0)
    || !(decide (d.tol.toNat < inf) || d.tol == 1#64 <<< 63)
    || !(d.divf == 0 || (decide (0x3FF0000000000000 ≤ d.divf.toNat) && decide (d.divf.toNat < inf)))
    || d.ranges.any (fun r => r.2 == 0 || decide (gaOff r.1 + r.2.toNat > 2 ^ 49))

/-- The members a flight table names. -/
def flightHarts (fl : List Word) : List Nat := fl.flatMap (fun w => (List.range (bitsOf w 16 11)).map (fun i => bitsOf w 0 11 + i))

/-- The frames a flight table touches. -/
def flightFrames (fl : List Word) : List Nat := ((flightHarts fl).map hartFrame).eraseDups

/-- Codes 3 to 6 that need the tables (R311); a reserved bit of a flight entry breaks R293. -/
def openTableCode (i : BitVec 4) (fl : List Word) (s : State) : Nat :=
  let hs := flightHarts fl
  if fl.any (fun w => (w &&& ~~~0x07FF07FF#64) != 0) then 3
  else if fl.any (fun w => bitsOf w 16 11 == 0) || hs.any (fun h => decide (h > 1023) || !s.present h)
      || decide (hs.eraseDups.length < hs.length)
      || hs.any (fun h => let g := (s.getHart h).region; g.isNone || g != s.hart.region) then 4
  else if (List.range 16).any (fun k => k != i.toNat && (let q := s.seqr (BitVec.ofNat 4 k)
      q.bound && (flightFrames q.flights).any (flightFrames fl).contains)) then 5
  else if (s.seqr i).bound && (s.seqr i).flights != fl then 6
  else 0

/-- The cyopen rows (R296). -/
def openSeq (i : BitVec 4) (region : BitVec 16) (d : StairDesc) (fl lt : List Word) (s : State) : State :=
  let q := s.seqr i
  let gal := (flightHarts fl).map hartGallery
  let q1 : Sequencer := { q with
    stat := .none
    lastF := if q.bound then q.lastF else .none
    lastB := if q.bound then q.lastB else .none
    dir := d.ctrl.getLsbD 12
    norm := d.ctrl.getLsbD 13
    lax := d.ctrl.getLsbD 14
    ack := false
    permit := false
    miss := false
    device := gal.any (fun g => g != gal.headD 0)
    bound := true
    count := 0
    nflight := BitVec.ofNat 9 fl.length
    limit := d.ctrl.extractLsb' 16 8
    region := region
    res := 0
    prev := 0
    partials := []
    tol := d.tol
    divf := d.divf
    timeout := d.timeout.setWidth 32
    ldelay := d.ldelay.setWidth 32
    flights := fl
    landings := lt
    ranges := d.ranges
    arrivals := []
    verdict := 5 }
  moveSeq i q1 .open_ (s.addWeights i region (s.newRanges i d.ranges))

/-- An instruction of this chapter answers with a register. -/
def answer (d : BitVec 5) (v : Word) (m : Bool) (s : State) : State := (s.setX d v).done 4 m

/-- cyopen behind its descriptor: the tables, the codes and the cyopen rows. -/
def openWith (i : BitVec 4) (d : BitVec 5) (sd : StairDesc) (m : Bool) (s0 s : State) : State :=
  let n := bitsOf sd.ctrl 0 9
  match blockRange sd.flt n s with
  | .wait st => s0.waitAs st
  | .fault c a st => trap c a (s0.undoReads st)
  | .got b s1 =>
    match blockRange sd.lnd (n + 1) s1 with
    | .wait st => s0.waitAs st
    | .fault c a st => trap c a (s0.undoReads st)
    | .got b2 s2 =>
      let fl := (List.range n).map (dwordAt b)
      let code := openTableCode i fl s2
      if code ≠ 0 then answer d (BitVec.ofNat 64 code) m s2
      else if !s2.tablesRoom (s2.newRanges i sd.ranges).length then s0.block
      else match s2.hart.region with
        | some r => answer d 0 m (openSeq i r sd fl ((List.range (n + 1)).map (dwordAt b2)) s2)
        | none => answer d 4 m s2

/-- cyopen (R311). -/
def execCyopen (d a b : BitVec 5) (m : Bool) (s : State) : Out :=
  let xa := s.x a
  let i : BitVec 4 := (s.x b).setWidth 4
  if xa.toNat % 256 ≠ 0 then .next (trap 0x03 xa s)
  else match blockRange xa 32 s with
    | .wait st => .next st
    | .fault c ad st => .next (trap c ad st)
    | .got bs st =>
      let s1 := st.onTime i
      let q := s1.seqr i
      let sd := stairDesc bs
      if q.bound && s1.hart.region ≠ some q.region then .next (answer d 1 m s1)
      else if q.state ≠ .closed then .next (answer d 2 m s1)
      else if sd.bad then .next (answer d 3 m s1)
      else .next (openWith i d sd m s s1)

/-! ### The other instructions -/

/-- The state that expects a phase (R297). -/
def phaseState (p : Nat) : SeqState := match p with | 0 => .open_ | 1 => .relax | 2 => .coarse | _ => .test

/-- cyphase (R298, R312). -/
def execCyphase (d a b : BitVec 5) (m : Bool) (s : State) : Out :=
  let xa := s.x a
  let i : BitVec 4 := xa.setWidth 4
  let s0 := s.onTime i
  let q := s0.seqr i
  let code := s0.requestCode q (phaseState (bitsOf xa 8 2)) false
  if code ≠ 0 then .next (answer d (errCode code) m s0)
  else
    let s1 := s0.onHart Hart.drainAll
    let scope : BitVec 3 := if q.device then 5 else 4
    if (List.range 8).any (fun k => s1.hart.waitsOn (BitVec.ofNat 3 k) scope) then .next s1.block
    else .next (arrive i (s.x b) d m s1)

/-- cyres (R313). -/
def execCyres (d a b : BitVec 5) (m : Bool) (s0 : State) : Out :=
  let i : BitVec 4 := (s0.x a).setWidth 4
  let s := s0.onTime i
  let q := s.seqr i
  let code := s.requestCode q .test true
  let v := if q.norm then
      (match fpDecode .fp64 (s.x b).toNat with
       | .nan => BitVec.ofNat 64 (fpNaN .fp64)
       | _ => s.x b &&& ~~~(1#64 <<< 63))
    else s.x b
  match q.flightOf s.hart.num with
  | some f =>
    if code = 0 then .next (answer d 0 m (s.setSeq i { q with partials := q.partials ++ [(f, v)] }))
    else .next (answer d (errCode code) m s)
  | none => .next (answer d (errCode code) m s)

/-- cytest (R314). -/
def execCytest (d a : BitVec 5) (m : Bool) (s0 : State) : Out :=
  let i : BitVec 4 := (s0.x a).setWidth 4
  let s := s0.onTime i
  let q := s.seqr i
  .next (answer d (if s.mine q then BitVec.ofNat 64 (q.verdict.toNat + q.count.toNat * 2 ^ 8) else errCode 5) m s)

/-- cyclose (R315). -/
def execCyclose (d a : BitVec 5) (m : Bool) (s0 : State) : Out :=
  let xa := s0.x a
  let i : BitVec 4 := xa.setWidth 4
  let s := s0.onTime i
  if s.mine (s.seqr i) then
    let s1 := closeSeq i s
    let q := s1.seqr i
    let r := q.stat.code + (if q.permit then 2 ^ 8 else 0)
    if xa.getLsbD 8 && q.permit then .next (answer d (BitVec.ofNat 64 (r + 2 ^ 9)) m (releaseSeq i s1))
    else .next (answer d (BitVec.ofNat 64 r) m s1)
  else .next (answer d (errCode 5) m s)

/-- The value cystat reads under selectors 1 to 6 (R317). -/
def Sequencer.statWord (q : Sequencer) (sel i : Nat) : Word :=
  match sel with
  | 1 => q.res
  | 2 => q.prev
  | 3 => ((q.partials.find? (fun p => p.1 == i)).map (·.2)).getD 0
  | 4 => (q.landings[i]?).getD 0
  | 5 => (q.flights[i]?).getD 0
  | 6 => q.release
  | _ => 0

/-- cystat (R317). -/
def execCystat (d a : BitVec 5) (m : Bool) (s0 : State) : Out :=
  let xa := s0.x a
  let i : BitVec 4 := xa.setWidth 4
  let s := s0.onTime i
  let q := s.seqr i
  let sel := bitsOf xa 8 4
  let v := if sel = 0 then q.word else if sel > 6 then 0
    else if s.mine q then q.statWord sel (bitsOf xa 16 9) else errCode 5
  .next (answer d v m s)

/-- cyack (R316). -/
def execCyack (d a : BitVec 5) (m : Bool) (s0 : State) : Out :=
  let i : BitVec 4 := (s0.x a).setWidth 4
  let s := s0.onTime i
  let q := s.seqr i
  if !s.mine q then .next (answer d (errCode 5) m s)
  else if q.state ≠ .closed then .next (answer d (errCode 6) m s)
  else .next (answer d 0 m ((s.setSeq i { q with ack := true, permit := true }).dropWeights i))

end Sys2Proof.Machine
end

