-- ==== Sys2Proof/Machine/Operands.lean ====
section
/-! DEFINITION. The registers each instruction reads and writes: what the issue guard of R115 and the scout pass of
R155 look at. -/

namespace Sys2Proof.Machine

/-- Registers read (r) and written (w): general (x), vector (v), mask (m) and operand-extension (o) registers. -/
structure Uses where
  rx : List (BitVec 5) := []
  wx : List (BitVec 5) := []
  rv : List (BitVec 5) := []
  wv : List (BitVec 5) := []
  rm : List (BitVec 3) := []
  wm : List (BitVec 3) := []
  ro : List (BitVec 3) := []
  wo : List (BitVec 3) := []
deriving DecidableEq, Repr

/-- Consecutive registers. -/
def regs (r : BitVec 5) (n : Nat) : List (BitVec 5) := (List.range n).map (fun i => r + BitVec.ofNat 5 i)

/-- The registers a vld or vst moves: its run-time format decides (R205). -/
def vecRegs (s : State) (d a : BitVec 5) (o : BitVec 10) : List (BitVec 5) :=
  regs d (codeRegs (fmtCode (s.fmtReg s.hart.num (eaVec s a o))))

/-- A partly masked destination keeps lanes of its old value (R198). -/
def keeps (k : BitVec 3) (d : BitVec 5) : List (BitVec 5) := if k = 0 then [] else [d]

/-- The registers an instruction reads and writes. -/
def usesOf (i : Instr) (s : State) : Uses :=
  match i with
  | .add d a b _ _ => { rx := [a, b], wx := [d] }
  | .sub d a b _ _ => { rx := [a, b], wx := [d] }
  | .and d a b _ => { rx := [a, b], wx := [d] }
  | .or d a b _ => { rx := [a, b], wx := [d] }
  | .xor d a b _ => { rx := [a, b], wx := [d] }
  | .sll d a b _ _ => { rx := [a, b], wx := [d] }
  | .srl d a b _ _ => { rx := [a, b], wx := [d] }
  | .sra d a b _ _ => { rx := [a, b], wx := [d] }
  | .slt d a b _ => { rx := [a, b], wx := [d] }
  | .sltu d a b _ => { rx := [a, b], wx := [d] }
  | .min d a b _ => { rx := [a, b], wx := [d] }
  | .max d a b _ => { rx := [a, b], wx := [d] }
  | .minu d a b _ => { rx := [a, b], wx := [d] }
  | .maxu d a b _ => { rx := [a, b], wx := [d] }
  | .rotl d a b _ _ => { rx := [a, b], wx := [d] }
  | .rotr d a b _ _ => { rx := [a, b], wx := [d] }
  | .mul d a b _ _ => { rx := [a, b], wx := [d] }
  | .mulh d a b _ => { rx := [a, b], wx := [d] }
  | .mulhu d a b _ => { rx := [a, b], wx := [d] }
  | .div d a b _ _ => { rx := [a, b], wx := [d] }
  | .divu d a b _ _ => { rx := [a, b], wx := [d] }
  | .rem d a b _ _ => { rx := [a, b], wx := [d] }
  | .remu d a b _ _ => { rx := [a, b], wx := [d] }
  | .sel d a b _ _ => { rx := [a, b, d], wx := [d] }
  | .clz d a _ _ => { rx := [a], wx := [d] }
  | .ctz d a _ _ => { rx := [a], wx := [d] }
  | .popc d a _ _ => { rx := [a], wx := [d] }
  | .sext d a _ _ => { rx := [a], wx := [d] }
  | .zext d a _ _ => { rx := [a], wx := [d] }
  | .bext d a _ => { rx := [a], ro := [0], wx := [d] }
  | .bins d a _ => { rx := [a, d], ro := [0], wx := [d] }
  | .lea d a b _ _ => { rx := [a, b], wx := [d] }
  | .addi d a _ _ => { rx := [a], wx := [d] }
  | .andi d a _ _ => { rx := [a], wx := [d] }
  | .ori d a _ _ => { rx := [a], wx := [d] }
  | .xori d a _ _ => { rx := [a], wx := [d] }
  | .slti d a _ _ => { rx := [a], wx := [d] }
  | .sltiu d a _ _ => { rx := [a], wx := [d] }
  | .slli d a _ _ => { rx := [a], wx := [d] }
  | .srli d a _ _ => { rx := [a], wx := [d] }
  | .srai d a _ _ => { rx := [a], wx := [d] }
  | .li d _ _ => { wx := [d] }
  | .lsh d _ _ => { rx := [d], wx := [d] }
  | .pcrel d _ _ => { wx := [d] }
  | .gadr d a b _ => { rx := [a, b], wx := [d] }
  | .beq a b _ _ => { rx := [a, b] }
  | .bne a b _ _ => { rx := [a, b] }
  | .blt a b _ _ => { rx := [a, b] }
  | .bge a b _ _ => { rx := [a, b] }
  | .bltu a b _ _ => { rx := [a, b] }
  | .bgeu a b _ _ => { rx := [a, b] }
  | .jmp _ _ => {}
  | .call _ _ => { wx := [1] }
  | .ret a _ => { rx := [a] }
  | .jt a b _ => { rx := [a, b], ro := [0] }
  | .jtc a b _ => { rx := [a, b], ro := [0], wx := [1] }
  | .callr a _ => { rx := [a], ro := [0], wx := [1] }
  | .lpad _ _ => {}
  | .oxmv a n _ => { rx := [a], wo := [n] }
  | .oxrd d n _ => { ro := [n], wx := [d] }
  | .oxli a n _ _ => { rx := [a], wo := [n] }
  | .twait d a _ => { rx := [a], wx := [d] }
  | .sleep d a _ => { rx := [a], wx := [d] }
  | .tsnow d _ => { wx := [d] }
  | .tsat d a _ => { rx := [a], wx := [d] }
  | .ldB d a _ _ _ => { rx := [a], wx := [d] }
  | .lduB d a _ _ _ => { rx := [a], wx := [d] }
  | .ldH d a _ _ _ => { rx := [a], wx := [d] }
  | .lduH d a _ _ _ => { rx := [a], wx := [d] }
  | .ldW d a _ _ _ => { rx := [a], wx := [d] }
  | .lduW d a _ _ _ => { rx := [a], wx := [d] }
  | .ldD d a _ _ _ => { rx := [a], wx := [d] }
  | .stB d a _ _ _ => { rx := [a, d] }
  | .stH d a _ _ _ => { rx := [a, d] }
  | .stW d a _ _ _ => { rx := [a, d] }
  | .stD d a _ _ _ => { rx := [a, d] }
  | .ldxB d a b _ _ => { rx := [a, b], wx := [d] }
  | .ldxH d a b _ _ => { rx := [a, b], wx := [d] }
  | .ldxW d a b _ _ => { rx := [a, b], wx := [d] }
  | .ldxD d a b _ _ => { rx := [a, b], wx := [d] }
  | .ldxuB d a b _ _ => { rx := [a, b], wx := [d] }
  | .ldxuH d a b _ _ => { rx := [a, b], wx := [d] }
  | .ldxuW d a b _ _ => { rx := [a, b], wx := [d] }
  | .stxB d a b _ _ => { rx := [a, b, d] }
  | .stxH d a b _ _ => { rx := [a, b, d] }
  | .stxW d a b _ _ => { rx := [a, b, d] }
  | .stxD d a b _ _ => { rx := [a, b, d] }
  | .amoAdd d a b _ _ _ => { rx := [a, b], wx := [d] }
  | .amoAnd d a b _ _ _ => { rx := [a, b], wx := [d] }
  | .amoOr d a b _ _ _ => { rx := [a, b], wx := [d] }
  | .amoXor d a b _ _ _ => { rx := [a, b], wx := [d] }
  | .amoMin d a b _ _ _ => { rx := [a, b], wx := [d] }
  | .amoMax d a b _ _ _ => { rx := [a, b], wx := [d] }
  | .amoMinu d a b _ _ _ => { rx := [a, b], wx := [d] }
  | .amoMaxu d a b _ _ _ => { rx := [a, b], wx := [d] }
  | .amoSwap d a b _ _ _ => { rx := [a, b], wx := [d] }
  | .amoCas d a b _ _ _ => { rx := [a, b], ro := [0], wx := [d] }
  | .amoFadd d a b _ _ => { rx := [a, b], wx := [d] }
  | .amoFadd2 d a b _ _ => { rx := [a, b], wx := [d] }
  | .pref a _ _ _ => { rx := [a] }
  | .cbflush a _ _ => { rx := [a] }
  | .sfork _ _ _ => {}
  | .sjoin _ _ _ => {}
  | .swait d _ _ _ => { wx := [d] }
  | .sexp d _ _ => { wx := [d] }
  | .simp _ a _ => { rx := [a] }
  | .sstat d _ _ _ => { wx := [d] }
  | .fence d _ _ => { wx := [d] }
  | .vld d a _ o _ => { rx := [a], wv := vecRegs s d a o }
  | .vst d a _ o _ => { rx := [a], rv := vecRegs s d a o }
  | .vldx d a b _ k _ => { rx := [a], rv := [b, d], rm := [k], wv := [d] }
  | .vstx d a b _ k _ => { rx := [a], rv := [b, d], rm := [k] }
  | .vadd d a b _ k _ => { rv := [a, b] ++ keeps k d, rm := [k], wv := [d] }
  | .vsub d a b _ k _ => { rv := [a, b] ++ keeps k d, rm := [k], wv := [d] }
  | .vmul d a b _ k _ => { rv := [a, b] ++ keeps k d, rm := [k], wv := [d] }
  | .vfma d a b _ k _ => { rv := [a, b, d], rm := [k], wv := [d] }
  | .vfms d a b _ k _ => { rv := [a, b, d], rm := [k], wv := [d] }
  | .vfnma d a b _ k _ => { rv := [a, b, d], rm := [k], wv := [d] }
  | .vmin d a b _ k _ => { rv := [a, b] ++ keeps k d, rm := [k], wv := [d] }
  | .vmax d a b _ k _ => { rv := [a, b] ++ keeps k d, rm := [k], wv := [d] }
  | .vabs d a _ k _ => { rv := [a] ++ keeps k d, rm := [k], wv := [d] }
  | .vneg d a _ k _ => { rv := [a] ++ keeps k d, rm := [k], wv := [d] }
  | .vdiv d a b _ k _ => { rv := [a, b] ++ keeps k d, rm := [k], wv := [d] }
  | .vsqrt d a _ k _ => { rv := [a] ++ keeps k d, rm := [k], wv := [d] }
  | .vrsqrt d a _ k _ => { rv := [a] ++ keeps k d, rm := [k], wv := [d] }
  | .vrcp d a _ k _ => { rv := [a] ++ keeps k d, rm := [k], wv := [d] }
  | .vexp2 d a _ k _ => { rv := [a] ++ keeps k d, rm := [k], wv := [d] }
  | .vlog2 d a _ k _ => { rv := [a] ++ keeps k d, rm := [k], wv := [d] }
  | .vsig d a _ k _ => { rv := [a] ++ keeps k d, rm := [k], wv := [d] }
  | .vtanh d a _ k _ => { rv := [a] ++ keeps k d, rm := [k], wv := [d] }
  | .viadd d a b _ k _ => { rv := [a, b] ++ keeps k d, rm := [k], wv := [d] }
  | .visub d a b _ k _ => { rv := [a, b] ++ keeps k d, rm := [k], wv := [d] }
  | .vimul d a b _ k _ => { rv := [a, b] ++ keeps k d, rm := [k], wv := [d] }
  | .vimulh d a b _ k _ => { rv := [a, b] ++ keeps k d, rm := [k], wv := [d] }
  | .vand d a b _ k _ => { rv := [a, b] ++ keeps k d, rm := [k], wv := [d] }
  | .vor d a b _ k _ => { rv := [a, b] ++ keeps k d, rm := [k], wv := [d] }
  | .vxor d a b _ k _ => { rv := [a, b] ++ keeps k d, rm := [k], wv := [d] }
  | .vsll d a b _ k _ => { rv := [a, b] ++ keeps k d, rm := [k], wv := [d] }
  | .vsrl d a b _ k _ => { rv := [a, b] ++ keeps k d, rm := [k], wv := [d] }
  | .vsra d a b _ k _ => { rv := [a, b] ++ keeps k d, rm := [k], wv := [d] }
  | .vimin d a b _ k _ => { rv := [a, b] ++ keeps k d, rm := [k], wv := [d] }
  | .vimax d a b _ k _ => { rv := [a, b] ++ keeps k d, rm := [k], wv := [d] }
  | .viminu d a b _ k _ => { rv := [a, b] ++ keeps k d, rm := [k], wv := [d] }
  | .vimaxu d a b _ k _ => { rv := [a, b] ++ keeps k d, rm := [k], wv := [d] }
  | .vcmpEq d a b _ k _ => { rv := [a, b], rm := [k], wm := [d] }
  | .vcmpLt d a b _ k _ => { rv := [a, b], rm := [k], wm := [d] }
  | .vcmpLe d a b _ k _ => { rv := [a, b], rm := [k], wm := [d] }
  | .vsel d a b _ k _ => { rv := [a, b], rm := [k], wv := [d] }
  | .vperm d a b _ k _ => { rv := [a, b] ++ keeps k d, rm := [k], wv := [d] }
  | .vbcast d a _ k _ => { rx := [a], rv := keeps k d, rm := [k], wv := [d] }
  | .vslide d a b _ k _ => { rv := [a] ++ keeps k d, rx := [b], rm := [k], wv := [d] }
  | .vmov d a _ k _ => { rv := [a] ++ keeps k d, rm := [k], wv := [d] }
  | .vredAdd d a _ k _ => { rv := [a], rm := [k], wv := [d] }
  | .vredMax d a _ k _ => { rv := [a], rm := [k], wv := [d] }
  | .vredMin d a _ k _ => { rv := [a], rm := [k], wv := [d] }
  | .vcvt d a k _ _ => { rv := [a, d], rm := [k], wv := [d] }
  | .vxt d a _ _ _ => { rv := [a], wx := [d] }
  | .vins d a _ _ _ => { rx := [a], rv := [d], wv := [d] }
  | .mand d a b _ => { rm := [a, b], wm := [d] }
  | .mor d a b _ => { rm := [a, b], wm := [d] }
  | .mxor d a b _ => { rm := [a, b], wm := [d] }
  | .mnot d a _ => { rm := [a], wm := [d] }
  | .mpop d a _ => { rm := [a], wx := [d] }
  | .mset d a _ => { rx := [a], wm := [d] }
  | .strbind d a b _ _ => { rx := [a, b], ro := [0, 1], wv := [24 + d.setWidth 5] }
  | .strfree _ _ _ => {}
  | .strst d _ _ => { wx := [d] }
  | .bscale d a b _ => { rv := regs a 3, rx := [b], wv := [d] }
  | .baddqAcc d a b _ _ => { rx := [a, b], rv := regs d 3, wv := regs d 3 }
  | .baddqOut d a b _ _ => { rx := [a, b], rv := regs d 3 }
  | .vsr d a _ => { rx := [a], wx := [d] }
  | .mcfg d a _ => { rx := [a], wx := [d] }
  | .mload a b _ _ => { rx := [a, b], ro := [0, 1, 2] }
  | .mmul a b _ _ => { rx := [a, b], ro := [0, 1, 2] }
  | .mmulz a b _ _ => { rx := [a, b], ro := [0, 1, 2] }
  | .mmulBc a b _ _ => { rx := [a, b], ro := [0, 1, 2] }
  | .mtmul a b _ _ => { rx := [a, b], ro := [0, 1, 2] }
  | .acld a b _ _ => { rx := [a, b], ro := [0, 1, 2] }
  | .acst a b _ _ => { rx := [a, b], ro := [0, 1, 2] }
  | .acrd d a _ _ => { rx := [a], wv := [d] }
  | .acwr d a _ _ => { rx := [a], rv := [d] }
  | .acz a _ _ => { rx := [a] }
  | .mredund d a _ => { rx := [a], wx := [d] }
  | .mqst d a _ => { rx := [a], wx := [d] }
  | .kset a b _ _ => { rx := [a, b], ro := [0, 1, 2] }
  | .seval a b _ _ => { rx := [a, b], ro := [0, 1, 2] }
  | .sderiv a b _ _ => { rx := [a, b], ro := [0, 1, 2] }
  | .sgfold a b _ _ => { rx := [a, b], ro := [0, 1, 2] }
  | .sload a b _ _ => { rx := [a, b], ro := [0, 1, 2] }
  | .srefine _ _ => {}
  | .sextend a _ _ => { rx := [a] }
  | .kcnt d a _ _ => { rx := [a], wx := [d] }
  | .sbrec a b _ _ => { rx := [a, b], ro := [0, 1, 2] }
  | .cyopen d a b _ => { rx := [a, b], wx := [d] }
  | .cyphase d a b _ => { rx := [a, b], wx := [d] }
  | .cyres d a b _ => { rx := [a, b], wx := [d] }
  | .cytest d a _ => { rx := [a], wx := [d] }
  | .cyclose d a _ => { rx := [a], wx := [d] }
  | .cystat d a _ => { rx := [a], wx := [d] }
  | .cyack d a _ => { rx := [a], wx := [d] }
  | .cpq d a _ => { rx := regs a 4, wx := [d] }
  | .cpwp d a _ => { rx := [a], wx := [d] }
  | .cpwait d a b _ => { rx := [a, b], wx := [d] }
  | .cpst d a b _ => { rx := [a, b], wx := [d] }
  | .cpqNb d a _ => { rx := regs a 4, wx := [d] }
  | .msend d a b _ _ => { rx := [a, b], ro := [0, 1], wx := [d] }
  | .mpost d a b _ _ => { rx := [a, b], ro := [0, 1], wx := [d] }
  | .mprobe d a b _ => { rx := [a, b], wx := [d] }
  | .mcancel d a _ => { rx := [a], wx := [d] }
  | .lnpark d a _ => { rx := [a], wx := [d] }
  | .lnwake d a _ => { rx := [a], wx := [d] }
  | .lnst d a _ => { rx := [a], wx := [d] }
  | .gwtake d a _ => { rx := [a], wx := [d] }
  | .nspawn d a _ => { rx := [a], wx := [d] }
  | .ndone _ => {}
  | .nyield d _ => { wx := [d] }
  | .ndep d a b _ => { rx := [a, b], wx := [d] }
  | .rlaunch d a b _ => { rx := [a, b], wx := [d] }
  | .rswitchSuspend d a b _ => { rx := [a, b], wx := [d] }
  | .sys a _ _ => { rx := [a] }
  | .eret _ => {}
  | .srd d _ _ => { wx := [d] }
  | .swr d _ _ => { rx := [d] }
  | .wfi _ => {}
  | .gstop d a _ => { rx := [a], wx := [d] }
  | .tlbinv d a b _ => { rx := [a, b], wx := [d] }
  | .pginvack d a _ => { rx := [a], wx := [d] }
  | .pwreq d a _ => { rx := [a], wx := [d] }
  | .ckpt d a _ => { rx := [a], wx := [d] }
  | .cMov d a => { rx := [a], wx := [d] }
  | .cLi d _ => { wx := [d] }
  | .cAddi d _ => { rx := [d], wx := [d] }
  | .cAdd d a => { rx := [a, d], wx := [d] }
  | .cSub d a => { rx := [a, d], wx := [d] }
  | .cAnd d a => { rx := [a, d], wx := [d] }
  | .cOr d a => { rx := [a, d], wx := [d] }
  | .cLd d _ => { rx := [2], wx := [d] }
  | .cSt d _ => { rx := [2, d] }
  | .cBz d _ => { rx := [d] }
  | .cBnz d _ => { rx := [d] }
  | .cJmp _ => {}
  | .cRet => { rx := [1] }
  | .cMark => {}
  | .cNop => {}
  | .cpstResume d a b _ => { rx := [a, b], wx := [d] }
  | .cpstAbandon d a b _ => { rx := [a, b], wx := [d] }
  | .rswitchResume d a b _ => { rx := [a, b], wx := [d] }
  | .rswitchEnd d a b _ => { rx := [a, b], wx := [d] }
  | .instructionFetch => {}
  | .parkEnd => {}
  | .nonblockingResultReturn _ => {}
  | .interruptTaken => {}
  | .waitDeadline => {}
  | .wfiWake => {}
  | .sleepWakeEvent => {}
  | .pageWalk _ _ => {}
  | .remoteTranslationRequest _ _ _ _ => {}
  | .translationReply _ _ _ _ _ _ _ => {}
  | .tlbInvalidation _ _ _ _ _ => {}
  | .invalidationAck _ _ _ => {}
  | .remoteAccessArrival _ => {}
  | .hostAccessArrival _ => {}
  | .combiningDrain _ => {}
  | .combiningIdleTimeout _ => {}
  | .writeAcknowledgement _ _ => {}
  | .routerReadAbsorb _ => {}
  | .readReplyArrival _ _ _ _ => {}
  | .atomicPerform _ _ _ _ => {}
  | .pinExpiry _ => {}
  | .forkMarkerPerformed _ => {}
  | .joinMarkerPerformed _ => {}
  | .tokenCheckRequest _ _ => {}
  | .tokenCheckReply _ => {}
  | .streamFetch _ => {}
  | .tileBegin _ => {}
  | .stripDrain _ => {}
  | .busTileArrival _ => {}
  | .gridCommandPerform _ => {}
  | .engineClockGate _ => {}
  | .startSequencerAdmit => {}
  | .barrierRelease _ => {}
  | .phaseTimeout _ => {}
  | .cycleDecision _ => {}
  | .copyBegin _ => {}
  | .copyUnitDelivered _ => {}
  | .copyErrorStop _ _ => {}
  | .messageArrival _ => {}
  | .overflowPayloadCopy _ => {}
  | .deadlockProbe _ => {}
  | .probeReturn _ => {}
  | .laneFailure _ _ => {}
  | .crcErrorResend _ _ => {}
  | .postedWriteRefused _ => {}
  | .packetBoundary _ _ => {}
  | .laneLocked _ _ => {}
  | .skeinParked _ => {}
  | .skeinWakeTimeout _ => {}
  | .firmwareRetune _ _ => {}
  | .migrationForwardExpiry _ => {}
  | .releasePointPerformed _ => {}
  | .dispatch => {}
  | .priorityAgeing _ => {}
  | .ringWp _ => {}
  | .ringReset _ => {}
  | .launch => {}
  | .suspend => {}
  | .resume => {}
  | .endRec => {}
  | .gangStop _ => {}
  | .gangResume _ => {}
  | .gstopResume _ => {}
  | .checkpointTick => {}
  | .uncorrectableMemoryError _ _ => {}
  | .patrolScrub _ _ => {}
  | .retentionEntry _ => {}
  | .retentionExit _ _ => {}
  | .timingErrorReplay _ => {}
  | .budgetRecompute _ _ _ => {}
  | .clockRelock _ => {}
  | .moduleReset => {}
  | .tkKey d _ => { rx := [d] }
  | .bkFmt _ d _ => { rx := [d] }
  | .cgPat _ d _ => { rx := [d] }
  | .csTab _ d _ => { rx := [d] }
  | .rgAlias d _ => { rx := [d] }
  | .mxCfg d _ => { rx := [d] }
  | .unknownKindRingRecord => {}
  | .attestationRequest _ => {}
  | .firmwareUpdateRequest _ => {}

end Sys2Proof.Machine
end

