-- ==== Sys2Proof/Machine/Transcendental.lean ====
section
/-! DEFINITION. The correctly rounded transcendental forms (R216 to R218). Each is evaluated in fixed point with 400
fractional bits, far beyond the 48 bits at which FP32 results can lie close to a rounding boundary, and rounded once
to nearest. Exact results are recognised first. -/

namespace Sys2Proof.Machine

/-- Fractional bits of the fixed-point evaluation. -/
def fxP : Nat := 400

/-- ln 2 in fixed point. -/
def fxLn2 : Nat :=
  0xb17217f7d1cf79abc9e3b39803f2f6af40f343267298b62d8a0d175b8baafa2be7b876206debac98559552fb4afa1b10ed2eae35c / 2 ^ 20

/-- The Taylor sum of e^r from its term number n on, for r in [0, 1). -/
def fxExpSum (r : Nat) : Nat → Nat → Nat → Nat
  | 0, _, _ => 0
  | fuel + 1, n, term => term + fxExpSum r fuel (n + 1) (term * r / 2 ^ fxP / (n + 1))

/-- e^r for r in [0, 1), in fixed point. -/
def fxExp (r : Nat) : Nat := fxExpSum r 100 0 (2 ^ fxP)

/-- The sum of z^(2n+1) / (2n+1): the inverse hyperbolic tangent of z in [0, 1/3]. -/
def fxAtanhSum (z2 : Nat) : Nat → Nat → Nat → Nat
  | 0, _, _ => 0
  | fuel + 1, n, zp => zp / (2 * n + 1) + fxAtanhSum z2 fuel (n + 1) (zp * z2 / 2 ^ fxP)

/-- A signed dyadic in fixed point. -/
def fxOf (neg : Bool) (m : Nat) (e : Int) : Int :=
  let v : Nat := if (fxP : Int) + e ≥ 0 then m * 2 ^ ((fxP : Int) + e).toNat else m / 2 ^ (-((fxP : Int) + e)).toNat
  if neg then -(v : Int) else v

/-- A fixed-point value limited to a magnitude of `b`. -/
def fxClamp (b : Nat) (v : Int) : Int := max (-(b * 2 ^ fxP : Nat)) (min ((b * 2 ^ fxP : Nat)) v)

/-- e^v of a fixed-point v, as a rational. -/
def fxExpRat (v : Int) : Nat × Nat :=
  let k := Int.fdiv v fxLn2
  let r := (v - k * fxLn2).toNat
  let t := fxExp r
  if k ≥ 0 then (t * 2 ^ k.toNat, 2 ^ fxP) else (t, 2 ^ (fxP + (-k).toNat))

/-- 2^a, to nearest. -/
def fpExp2V (f : Fp) : FVal → Rounded
  | .nan => fpNaNWith f 0
  | .inf true => ⟨0, 0⟩
  | .inf false => fpInfWith f false 0
  | .fin n m e =>
    let v := fxClamp 300 (fxOf n m e)
    let k := Int.fdiv v (2 ^ fxP : Nat)
    let fr := (v - k * (2 ^ fxP : Nat)).toNat
    let t := if fr == 0 then 2 ^ fxP else fxExp (fr * fxLn2 / 2 ^ fxP)
    if k ≥ 0 then fpRound f .rne false (t * 2 ^ k.toNat) (2 ^ fxP)
    else fpRound f .rne false t (2 ^ (fxP + (-k).toNat))

/-- log2 a, to nearest. -/
def fpLog2V (f : Fp) : FVal → Rounded
  | .nan => fpNaNWith f 0
  | .inf true => fpNaNWith f flagNV
  | .inf false => fpInfWith f false 0
  | .fin n m e =>
    if m == 0 then fpInfWith f true flagDZ
    else if n then fpNaNWith f flagNV
    else
      let lg := Nat.log2 m
      let ex : Int := e + lg
      if m == 2 ^ lg then
        fpRoundDyadic f .rne (ex < 0) ex.natAbs 0
      else
        -- mantissa m / 2^lg in (1, 2); z = (m - 2^lg) / (m + 2^lg)
        let z := (m - 2 ^ lg) * 2 ^ fxP / (m + 2 ^ lg)
        let l := 2 * fxAtanhSum (z * z / 2 ^ fxP) 140 0 z
        let v : Int := ex * (2 ^ fxP : Nat) + (l * 2 ^ fxP / fxLn2 : Nat)
        fpRound f .rne (v < 0) v.natAbs (2 ^ fxP)

/-- 1 / (1 + e^-a), to nearest. -/
def fpSigV (f : Fp) : FVal → Rounded
  | .nan => fpNaNWith f 0
  | .inf true => ⟨0, 0⟩
  | .inf false => fpRound f .rne false 1 1
  | .fin n m e =>
    if m == 0 then fpRound f .rne false 1 2
    else
      let (p, q) := fxExpRat (fxClamp 200 (fxOf n m e))
      fpRound f .rne false p (p + q)

/-- tanh a, to nearest. -/
def fpTanhV (f : Fp) : FVal → Rounded
  | .nan => fpNaNWith f 0
  | .inf n => fpRound f .rne n 1 1
  | .fin n m e =>
    if m == 0 then ⟨withSign f n 0, 0⟩
    else if (Nat.log2 m : Int) + e < -60 then
      -- below 2^-60 the result lies under a by less than a quarter of any spacing
      let (a, b) := finRat m e
      fpRound f .rne n (a * (2 ^ 100 - 1)) (b * 2 ^ 100)
    else
      let (p, q) := fxExpRat (fxClamp 200 (2 * fxOf false m e))
      fpRound f .rne n (p - q) (p + q)

end Sys2Proof.Machine
end

