-- ==== Sys2Proof/Machine/Vector.lean ====
section
/-! DEFINITION. Vector arithmetic, compare, rearrange, reduce, convert and mask instructions (08, R216 to R225).
Each meaning names its lane function over the shared operations; withStreams serves bound registers (R212). -/

namespace Sys2Proof.Machine

/-- The lane format of floating lanes (R197). -/
def laneFp (t : Bool) : Fp := if t then .bf16 else .fp32
/-- The governing rounding of arithmetic (R105). -/
def arithRm (s : State) : Rm := rmArith s.hart.fxRound

/-- The lanes of a register replaced where the mask is active, with the flags of the active lanes (R198, R200). -/
def mapLanes (t : Bool) (k : Word) (old : VReg) (f : Nat → Rounded) : VReg × Flags :=
  let l := (List.range (laneCount t)).map (fun i => if k.getLsbD i then f i else ⟨lane t old i, 0⟩)
  (ofLanes t (l.map (·.bits)), orFlags l)

/-- A lanewise instruction into v[d]: the lane function sees the state after its streams were read. -/
def laneOp (reads : List (BitVec 5)) (d : BitVec 5) (t : Bool) (k : BitVec 3) (f : State → Nat → Rounded) (m : Bool)
    (s : State) : State :=
  withStreams reads (some d) (activeLanes t (s.mr k)) (fun s =>
    let (v, fl) := mapLanes t (s.mr k) (s.vr d) (f s)
    (s.setV d v).raise fl) m s

/-- Lane i of a register as a value. -/
def laneVal (t : Bool) (s : State) (r : BitVec 5) (i : Nat) : FVal := fpDecode (laneFp t) (lane t (s.vr r) i)

/-- A floating instruction with two sources. -/
def fp2 (f : Fp → Rm → FVal → FVal → Rounded) (d a b : BitVec 5) (t : Bool) (k : BitVec 3) (m : Bool) (s : State) : State :=
  laneOp [a, b] d t k (fun s i => f (laneFp t) (arithRm s) (laneVal t s a i) (laneVal t s b i)) m s
/-- A floating instruction with one source. -/
def fp1 (f : Fp → Rm → FVal → Rounded) (d a : BitVec 5) (t : Bool) (k : BitVec 3) (m : Bool) (s : State) : State :=
  laneOp [a] d t k (fun s i => f (laneFp t) (arithRm s) (laneVal t s a i)) m s
/-- A fused instruction: the old v[d] is the third source. -/
def fp3 (f : FVal → FVal → FVal → FVal × FVal × FVal) (d a b : BitVec 5) (t : Bool) (k : BitVec 3) (m : Bool) (s : State) :
    State :=
  laneOp [a, b, d] d t k (fun s i =>
    let (x, y, z) := f (laneVal t s a i) (laneVal t s b i) (laneVal t s d i)
    fpFmaV (laneFp t) (arithRm s) x y z) m s

/-- A value without a flag. -/
def plain (v : Nat) : Rounded := ⟨v, 0⟩

/-- vabs and vneg: the sign is cleared or inverted; a NaN becomes canonical (R216). -/
def fpSignOp (neg : Bool) (f : Fp) (v : FVal) : Rounded :=
  match v with
  | .nan => fpNaNWith f 0
  | .inf n => fpInfWith f (neg && !n) 0
  | .fin n m e => plain (fvExactSigned f (neg && !n) m e)
where
  /-- the bits of a finite value that the format holds exactly, a zero with its sign -/
  fvExactSigned (f : Fp) (n : Bool) (m : Nat) (e : Int) : Nat := (fpRoundDyadic f .rne n m e).bits

/-! ### Floating point (R216 to R218) -/

/-- vadd (R216). -/
def execVadd (d a b : BitVec 5) (t : Bool) (k : BitVec 3) (m : Bool) (s : State) : Out :=
  .next (fp2 fpAddV d a b t k m s)
/-- vsub (R216). -/
def execVsub (d a b : BitVec 5) (t : Bool) (k : BitVec 3) (m : Bool) (s : State) : Out :=
  .next (fp2 (fun f rm x y => fpAddV f rm x (fvNeg y)) d a b t k m s)
/-- vmul (R216). -/
def execVmul (d a b : BitVec 5) (t : Bool) (k : BitVec 3) (m : Bool) (s : State) : Out :=
  .next (fp2 fpMulV d a b t k m s)
/-- vfma (R216). -/
def execVfma (d a b : BitVec 5) (t : Bool) (k : BitVec 3) (m : Bool) (s : State) : Out :=
  .next (fp3 (fun a b c => (a, b, c)) d a b t k m s)
/-- vfms (R216). -/
def execVfms (d a b : BitVec 5) (t : Bool) (k : BitVec 3) (m : Bool) (s : State) : Out :=
  .next (fp3 (fun a b c => (a, b, fvNeg c)) d a b t k m s)
/-- vfnma (R216). -/
def execVfnma (d a b : BitVec 5) (t : Bool) (k : BitVec 3) (m : Bool) (s : State) : Out :=
  .next (fp3 (fun a b c => (fvNeg a, b, c)) d a b t k m s)
/-- vmin: -0 below +0 (R216). -/
def execVmin (d a b : BitVec 5) (t : Bool) (k : BitVec 3) (m : Bool) (s : State) : Out :=
  .next (fp2 (fun f _ x y => plain (fpMinV f x y)) d a b t k m s)
/-- vmax (R216). -/
def execVmax (d a b : BitVec 5) (t : Bool) (k : BitVec 3) (m : Bool) (s : State) : Out :=
  .next (fp2 (fun f _ x y => plain (fpMaxV f x y)) d a b t k m s)
/-- vabs (R216). -/
def execVabs (d a : BitVec 5) (t : Bool) (k : BitVec 3) (m : Bool) (s : State) : Out :=
  .next (fp1 (fun f _ x => fpSignOp false f x) d a t k m s)
/-- vneg (R216). -/
def execVneg (d a : BitVec 5) (t : Bool) (k : BitVec 3) (m : Bool) (s : State) : Out :=
  .next (fp1 (fun f _ x => fpSignOp true f x) d a t k m s)
/-- vdiv (R216, R217). -/
def execVdiv (d a b : BitVec 5) (t : Bool) (k : BitVec 3) (m : Bool) (s : State) : Out :=
  .next (fp2 fpDivV d a b t k m s)
/-- vsqrt (R216, R217). -/
def execVsqrt (d a : BitVec 5) (t : Bool) (k : BitVec 3) (m : Bool) (s : State) : Out :=
  .next (fp1 fpSqrtV d a t k m s)
/-- vrsqrt: to nearest whatever fx.round says (R216, R217). -/
def execVrsqrt (d a : BitVec 5) (t : Bool) (k : BitVec 3) (m : Bool) (s : State) : Out :=
  .next (fp1 (fun f _ x => fpRsqrtV f x) d a t k m s)
/-- vrcp: to nearest whatever fx.round says (R216, R217). -/
def execVrcp (d a : BitVec 5) (t : Bool) (k : BitVec 3) (m : Bool) (s : State) : Out :=
  .next (fp1 (fun f _ x => fpRcpV f x) d a t k m s)
/-- vexp2: to nearest whatever fx.round says (R216, R217). -/
def execVexp2 (d a : BitVec 5) (t : Bool) (k : BitVec 3) (m : Bool) (s : State) : Out :=
  .next (fp1 (fun f _ x => fpExp2V f x) d a t k m s)
/-- vlog2: to nearest whatever fx.round says (R216, R217). -/
def execVlog2 (d a : BitVec 5) (t : Bool) (k : BitVec 3) (m : Bool) (s : State) : Out :=
  .next (fp1 (fun f _ x => fpLog2V f x) d a t k m s)
/-- vsig: to nearest whatever fx.round says (R216, R217). -/
def execVsig (d a : BitVec 5) (t : Bool) (k : BitVec 3) (m : Bool) (s : State) : Out :=
  .next (fp1 (fun f _ x => fpSigV f x) d a t k m s)
/-- vtanh: to nearest whatever fx.round says (R216, R217). -/
def execVtanh (d a : BitVec 5) (t : Bool) (k : BitVec 3) (m : Bool) (s : State) : Out :=
  .next (fp1 (fun f _ x => fpTanhV f x) d a t k m s)
/-! ### Integer (R219) -/

/-- An integer instruction on lanes of w bits; the result keeps the low w bits. -/
def int2 (f : (w : Nat) → BitVec w → BitVec w → BitVec w) (d a b : BitVec 5) (t : Bool) (k : BitVec 3) (m : Bool) (s : State) :
    State :=
  laneOp [a, b] d t k (fun s i =>
    let w := laneWidth t
    plain (f w (BitVec.ofNat w (lane t (s.vr a) i)) (BitVec.ofNat w (lane t (s.vr b) i))).toNat) m s

/-- viadd (R219). -/
def execViadd (d a b : BitVec 5) (t : Bool) (k : BitVec 3) (m : Bool) (s : State) : Out :=
  .next (int2 (fun _ x y => x + y) d a b t k m s)
/-- visub (R219). -/
def execVisub (d a b : BitVec 5) (t : Bool) (k : BitVec 3) (m : Bool) (s : State) : Out :=
  .next (int2 (fun _ x y => x - y) d a b t k m s)
/-- vimul (R219). -/
def execVimul (d a b : BitVec 5) (t : Bool) (k : BitVec 3) (m : Bool) (s : State) : Out :=
  .next (int2 (fun _ x y => x * y) d a b t k m s)
/-- vimulh: the high half of the signed product (R219). -/
def execVimulh (d a b : BitVec 5) (t : Bool) (k : BitVec 3) (m : Bool) (s : State) : Out :=
  .next (int2 (fun w x y => BitVec.ofInt w (Int.fdiv (x.toInt * y.toInt) (2 ^ w))) d a b t k m s)
/-- vand (R219). -/
def execVand (d a b : BitVec 5) (t : Bool) (k : BitVec 3) (m : Bool) (s : State) : Out :=
  .next (int2 (fun _ x y => x &&& y) d a b t k m s)
/-- vor (R219). -/
def execVor (d a b : BitVec 5) (t : Bool) (k : BitVec 3) (m : Bool) (s : State) : Out :=
  .next (int2 (fun _ x y => x ||| y) d a b t k m s)
/-- vxor (R219). -/
def execVxor (d a b : BitVec 5) (t : Bool) (k : BitVec 3) (m : Bool) (s : State) : Out :=
  .next (int2 (fun _ x y => x ^^^ y) d a b t k m s)
/-- vsll (R219). -/
def execVsll (d a b : BitVec 5) (t : Bool) (k : BitVec 3) (m : Bool) (s : State) : Out :=
  .next (int2 (fun w x y => x <<< (y.toNat % w)) d a b t k m s)
/-- vsrl (R219). -/
def execVsrl (d a b : BitVec 5) (t : Bool) (k : BitVec 3) (m : Bool) (s : State) : Out :=
  .next (int2 (fun w x y => x >>> (y.toNat % w)) d a b t k m s)
/-- vsra (R219). -/
def execVsra (d a b : BitVec 5) (t : Bool) (k : BitVec 3) (m : Bool) (s : State) : Out :=
  .next (int2 (fun w x y => x.sshiftRight (y.toNat % w)) d a b t k m s)
/-- vimin, signed (R219). -/
def execVimin (d a b : BitVec 5) (t : Bool) (k : BitVec 3) (m : Bool) (s : State) : Out :=
  .next (int2 (fun _ x y => if y.slt x then y else x) d a b t k m s)
/-- vimax, signed (R219). -/
def execVimax (d a b : BitVec 5) (t : Bool) (k : BitVec 3) (m : Bool) (s : State) : Out :=
  .next (int2 (fun _ x y => if x.slt y then y else x) d a b t k m s)
/-- viminu, unsigned (R219). -/
def execViminu (d a b : BitVec 5) (t : Bool) (k : BitVec 3) (m : Bool) (s : State) : Out :=
  .next (int2 (fun _ x y => if y.ult x then y else x) d a b t k m s)
/-- vimaxu, unsigned (R219). -/
def execVimaxu (d a b : BitVec 5) (t : Bool) (k : BitVec 3) (m : Bool) (s : State) : Out :=
  .next (int2 (fun _ x y => if x.ult y then y else x) d a b t k m s)
/-! ### Compare (R220) -/

/-- A comparison into a mask register. -/
def cmpOp (c : FVal → FVal → Bool) (d : BitVec 3) (a b : BitVec 5) (t : Bool) (k : BitVec 3) (m : Bool) (s : State) : State :=
  withStreams [a, b] none [] (fun s =>
    let act := s.mr k
    s.setM d (BitVec.ofNat 64 ((List.range (laneCount t)).foldl (fun acc i =>
      if act.getLsbD i && c (laneVal t s a i) (laneVal t s b i) then acc + 2 ^ i else acc) 0))) m s

/-- vcmp.eq (R220). -/
def execVcmpEq (d : BitVec 3) (a b : BitVec 5) (t : Bool) (k : BitVec 3) (m : Bool) (s : State) : Out :=
  .next (cmpOp fvEq d a b t k m s)
/-- vcmp.lt (R220). -/
def execVcmpLt (d : BitVec 3) (a b : BitVec 5) (t : Bool) (k : BitVec 3) (m : Bool) (s : State) : Out :=
  .next (cmpOp fvLt d a b t k m s)
/-- vcmp.le (R220). -/
def execVcmpLe (d : BitVec 3) (a b : BitVec 5) (t : Bool) (k : BitVec 3) (m : Bool) (s : State) : Out :=
  .next (cmpOp fvLe d a b t k m s)
/-! ### Rearrange (R221) -/

/-- Every lane, active: what vsel stores through a write stream. -/
def allLanes (t : Bool) : List Bool := List.replicate (laneCount t) true

/-- vsel: the mask selects and does not enable (R221). -/
def execVsel (d a b : BitVec 5) (t : Bool) (k : BitVec 3) (m : Bool) (s : State) : Out :=
  .next (withStreams [a, b] (some d) (allLanes t) (fun s =>
    s.setV d (ofLanes t ((List.range (laneCount t)).map (fun i =>
      if (s.mr k).getLsbD i then lane t (s.vr a) i else lane t (s.vr b) i)))) m s)
/-- vperm (R221). -/
def execVperm (d a b : BitVec 5) (t : Bool) (k : BitVec 3) (m : Bool) (s : State) : Out :=
  .next (laneOp [a, b] d t k (fun s i => plain (lane t (s.vr a) (lane t (s.vr b) i % laneCount t))) m s)
/-- vbcast: va names an x register (R221). -/
def execVbcast (d a : BitVec 5) (t : Bool) (k : BitVec 3) (m : Bool) (s : State) : Out :=
  .next (laneOp [] d t k (fun s _ => plain ((s.x a).toNat % 2 ^ laneWidth t)) m s)
/-- The source lane of vslide, none outside the register (R221). -/
def slideFrom (t : Bool) (i : Nat) (by_ : Word) : Option Nat :=
  let j : Int := (i : Int) + by_.toInt
  if 0 ≤ j && j < (laneCount t : Int) then some j.toNat else none
/-- vslide: vb names an x register (R221). -/
def execVslide (d a b : BitVec 5) (t : Bool) (k : BitVec 3) (m : Bool) (s : State) : Out :=
  .next (laneOp [a] d t k (fun s i => plain (((slideFrom t i (s.x b)).map (lane t (s.vr a))).getD 0)) m s)
/-- vmov (R221). -/
def execVmov (d a : BitVec 5) (t : Bool) (k : BitVec 3) (m : Bool) (s : State) : Out :=
  .next (laneOp [a] d t k (fun s i => plain (lane t (s.vr a) i)) m s)
/-! ### Reductions (R112, R222) -/

/-- One level of the pairwise tree. -/
def pairLevel (f : Nat → Nat → Rounded) : List Nat → List Nat × Flags
  | x :: y :: l =>
    let r := f x y
    let (rs, fl) := pairLevel f l
    (r.bits :: rs, r.flags ||| fl)
  | _ => ([], 0)

/-- The pairwise tree over 2^n lanes (R112). -/
def pairTree (f : Nat → Nat → Rounded) : Nat → List Nat → List Nat × Flags
  | 0, l => (l, 0)
  | n + 1, l =>
    let (l1, f1) := pairLevel f l
    let (l2, f2) := pairTree f n l1
    (l2, f1 ||| f2)

/-- A reduction: inactive lanes enter as `fill`; the result goes to lane 0, the others become 0 (R222). -/
def reduceOp (f : Fp → Rm → FVal → FVal → Rounded) (fill : Fp → Nat) (d a : BitVec 5) (t : Bool) (k : BitVec 3) (m : Bool)
    (s : State) : State :=
  withStreams [a] (some d) (allLanes t) (fun s =>
    let fp := laneFp t
    let ls := (List.range (laneCount t)).map (fun i => if (s.mr k).getLsbD i then lane t (s.vr a) i else fill fp)
    let (r, fl) := pairTree (fun x y => f fp (arithRm s) (fpDecode fp x) (fpDecode fp y)) (if t then 5 else 4) ls
    (s.setV d (ofLanes t [natAt r 0])).raise fl) m s

/-- vred.add (R112, R222). -/
def execVredAdd (d a : BitVec 5) (t : Bool) (k : BitVec 3) (m : Bool) (s : State) : Out :=
  .next (reduceOp fpAddV (fun f => withSign f true 0) d a t k m s)
/-- vred.max (R222). -/
def execVredMax (d a : BitVec 5) (t : Bool) (k : BitVec 3) (m : Bool) (s : State) : Out :=
  .next (reduceOp (fun f _ x y => plain (fpMaxV f x y)) (fun f => withSign f true (fpInfBits f)) d a t k m s)
/-- vred.min (R222). -/
def execVredMin (d a : BitVec 5) (t : Bool) (k : BitVec 3) (m : Bool) (s : State) : Out :=
  .next (reduceOp (fun f _ x y => plain (fpMinV f x y)) (fun f => fpInfBits f) d a t k m s)
/-! ### Conversion (R223) -/

/-- The destination format of a selector. -/
def cvtFmt (sel : Nat) : Fp :=
  match sel with
  | 0 | 1 => .bf16
  | 6 => .fp16
  | 7 => .e4m3
  | 8 => .e5m2
  | _ => .fp32

/-- The source value of element i. -/
def cvtSrc (sel : Nat) (v : VReg) (i : Nat) : FVal :=
  match sel with
  | 2 => fpDecode .bf16 (lane true v i)
  | 3 => fpDecode .bf16 (lane true v (16 + i))
  | 5 => fvOfInt (v.extractLsb' (32 * i) 32).toInt 0
  | 10 => fvOfInt (lane false v i) 0
  | _ => fpDecode .fp32 (lane false v i)

/-- A value to an integer of a range (R223): NaN gives 0; saturation sets OF and NX. -/
def cvtInt (rm : Rm) (lo hi : Int) : FVal → Rounded
  | .nan => ⟨0, flagNV⟩
  | .inf n => ⟨((if n then lo else hi) % 2 ^ 32).toNat, flagNV⟩
  | .fin n m e =>
    let (v, inexact) := dyRoundInt rm n m e
    if v < lo || v > hi then ⟨((if v < lo then lo else hi) % 2 ^ 32).toNat, flagOF ||| flagNX⟩
    else ⟨(v % 2 ^ 32).toNat, if inexact then flagNX else 0⟩

/-- One element converted under a mode. -/
def cvtElem (sel : Nat) (rm irm : Rm) (v : FVal) : Rounded :=
  match sel with
  | 4 => cvtInt irm (-(2 ^ 31)) (2 ^ 31 - 1) v
  | 9 => cvtInt irm 0 (2 ^ 32 - 1) v
  | 6 | 7 | 8 =>
    let r := fpConvert (cvtFmt sel) rm v
    ⟨(fpConvert .fp32 .rne (fpDecode (cvtFmt sel) r.bits)).bits, r.flags⟩
  | _ => fpConvert (cvtFmt sel) rm v

/-- The sixteen converted elements, with the random values of code 4 drawn by active elements (R106, R107; log 19): none for
the integer results, which code 4 rounds RNE, and none for the exact widenings, which code 4 does not apply to (R103,
R223). -/
def cvtAll (sel : Nat) (k : Word) (src : VReg) (s : State) : List Rounded × State :=
  let code := s.hart.fxRound
  let vals := (List.range 16).map (cvtSrc sel src)
  let act := (List.range 16).map (fun i => k.getLsbD i)
  let (rnds, s1) := if [2, 3, 4, 9].contains sel then ([], s) else rndsFor code true (vals.map (discarded (cvtFmt sel))) act s
  (vals.zipIdx.map (fun p => cvtElem sel (modeAt code rnds p.2) (rmArith code) p.1), s1)

/-- The lanes a vcvt writes: 32 BF16 lanes for selectors 0 and 1, otherwise the sixteen FP32 lanes. -/
def cvtLanes (sel : Nat) (k : Word) : List Bool :=
  if sel ≤ 1 then (List.range 32).map (fun j => decide (j / 16 = sel) && k.getLsbD (j % 16))
  else (List.range 16).map (fun i => k.getLsbD i)

/-- vcvt (R223). -/
def execVcvt (d a : BitVec 5) (k : BitVec 3) (sel : BitVec 5) (m : Bool) (s : State) : Out :=
  let n := sel.toNat
  let t := decide (n ≤ 1)
  let act := cvtLanes n (s.mr k)
  let draws := if [2, 3, 4, 9].contains n then 0 else drawsOf s.hart.fxRound true ((List.range 16).map (fun i => (s.mr k).getLsbD i))
  .next (drawing draws (withStreams [a] (some d) (if k = 0 then allLanes t else act) (fun s =>
    let (rs, s1) := cvtAll n (s.mr k) (s.vr a) s
    let v := ofLanes t ((List.range (laneCount t)).map (fun j =>
      if (act[j]?).getD false then ((rs[j % 16]?).map (·.bits)).getD 0 else lane t (s.vr d) j))
    let fl := (List.range 16).foldl (fun acc i =>
      if (s.mr k).getLsbD i then acc ||| ((rs[i]?).map (·.flags)).getD 0 else acc) 0
    (s1.setV d v).raise fl) m) s)

/-! ### One lane (R224) -/

/-- vxt: d names an x register (R224). -/
def execVxt (d a : BitVec 5) (t : Bool) (i : BitVec 5) (m : Bool) (s : State) : Out :=
  .next (withStreams [a] none [] (fun s => s.setX d (BitVec.ofNat 64 (lane t (s.vr a) i.toNat))) m s)
/-- vins: a names an x register (R224). -/
def execVins (d a : BitVec 5) (t : Bool) (i : BitVec 5) (m : Bool) (s : State) : Out :=
  .next (withStreams [] (some d) (allLanes t) (fun s =>
    s.setV d (ofLanes t ((List.range (laneCount t)).map (fun j =>
      if j = i.toNat then (s.x a).toNat else lane t (s.vr d) j)))) m s)

/-! ### Masks (R225) -/

/-- A mask instruction with two sources. -/
def mask2 (f : Word → Word → Word) (d a b : BitVec 3) (m : Bool) (s : State) : State :=
  (s.setM d (f (s.mr a) (s.mr b))).done 4 m
/-- mand (R225). -/
def execMand (d a b : BitVec 3) (m : Bool) (s : State) : Out :=
  .next (mask2 (fun x y => x &&& y) d a b m s)
/-- mor (R225). -/
def execMor (d a b : BitVec 3) (m : Bool) (s : State) : Out :=
  .next (mask2 (fun x y => x ||| y) d a b m s)
/-- mxor (R225). -/
def execMxor (d a b : BitVec 3) (m : Bool) (s : State) : Out :=
  .next (mask2 (fun x y => x ^^^ y) d a b m s)
/-- mnot (R225). -/
def execMnot (d a : BitVec 3) (m : Bool) (s : State) : Out :=
  .next ((s.setM d (~~~(s.mr a))).done 4 m)
/-- mpop (R225). -/
def execMpop (d : BitVec 5) (a : BitVec 3) (m : Bool) (s : State) : Out :=
  .next ((s.setX d (aluPopc false (s.mr a))).done 4 m)
/-- mset (R225). -/
def execMset (d : BitVec 3) (a : BitVec 5) (m : Bool) (s : State) : Out :=
  .next ((s.setM d (s.x a)).done 4 m)

end Sys2Proof.Machine
end

