-- ==== Sys2Proof/Machine/Faults.lean ====
section
/-! DEFINITION. Deferred load faults: the scout pass (R155), the fault record (R153), the trap with cause 0x07 (R151)
at the end of a park (R70, R71), and the accesses eret issues again (R154, R208). -/

namespace Sys2Proof.Machine

/-! ### The scout pass (R155) -/

/-- Instructions a scout pass executes on its copy of the registers: those without a memory access. -/
def scoutExec (i : Instr) (s : State) : Option Out :=
  match i with
  | .add d a b w m => some (execAdd d a b w m s)
  | .sub d a b w m => some (execSub d a b w m s)
  | .and d a b m => some (execAnd d a b m s)
  | .or d a b m => some (execOr d a b m s)
  | .xor d a b m => some (execXor d a b m s)
  | .sll d a b w m => some (execSll d a b w m s)
  | .srl d a b w m => some (execSrl d a b w m s)
  | .sra d a b w m => some (execSra d a b w m s)
  | .slt d a b m => some (execSlt d a b m s)
  | .sltu d a b m => some (execSltu d a b m s)
  | .min d a b m => some (execMin d a b m s)
  | .max d a b m => some (execMax d a b m s)
  | .minu d a b m => some (execMinu d a b m s)
  | .maxu d a b m => some (execMaxu d a b m s)
  | .rotl d a b w m => some (execRotl d a b w m s)
  | .rotr d a b w m => some (execRotr d a b w m s)
  | .mul d a b w m => some (execMul d a b w m s)
  | .mulh d a b m => some (execMulh d a b m s)
  | .mulhu d a b m => some (execMulhu d a b m s)
  | .div d a b w m => some (execDiv d a b w m s)
  | .divu d a b w m => some (execDivu d a b w m s)
  | .rem d a b w m => some (execRem d a b w m s)
  | .remu d a b w m => some (execRemu d a b w m s)
  | .sel d a b c m => some (execSel d a b c m s)
  | .clz d a w m => some (execClz d a w m s)
  | .ctz d a w m => some (execCtz d a w m s)
  | .popc d a w m => some (execPopc d a w m s)
  | .sext d a sz m => some (execSext d a sz m s)
  | .zext d a sz m => some (execZext d a sz m s)
  | .bext d a m => some (execBext d a m s)
  | .bins d a m => some (execBins d a m s)
  | .lea d a b l m => some (execLea d a b l m s)
  | .addi d a i m => some (execAddi d a i m s)
  | .andi d a i m => some (execAndi d a i m s)
  | .ori d a i m => some (execOri d a i m s)
  | .xori d a i m => some (execXori d a i m s)
  | .slti d a i m => some (execSlti d a i m s)
  | .sltiu d a i m => some (execSltiu d a i m s)
  | .slli d a sz m => some (execSlli d a sz m s)
  | .srli d a sz m => some (execSrli d a sz m s)
  | .srai d a sz m => some (execSrai d a sz m s)
  | .li d i m => some (execLi d i m s)
  | .lsh d i m => some (execLsh d i m s)
  | .pcrel d i m => some (execPcrel d i m s)
  | .gadr d a b m => some (execGadr d a b m s)
  | .beq a b o m => some (execBeq a b o m s)
  | .bne a b o m => some (execBne a b o m s)
  | .blt a b o m => some (execBlt a b o m s)
  | .bge a b o m => some (execBge a b o m s)
  | .bltu a b o m => some (execBltu a b o m s)
  | .bgeu a b o m => some (execBgeu a b o m s)
  | .jmp o m => some (execJmp o m s)
  | .call o m => some (execCall o m s)
  | .ret a m => some (execRet a m s)
  | .lpad l m => some (execLpad l m s)
  | .oxmv a n m => some (execOxmv a n m s)
  | .oxrd d n m => some (execOxrd d n m s)
  | .oxli a n i m => some (execOxli a n i m s)
  | .vadd d a b t k m => some (execVadd d a b t k m s)
  | .vsub d a b t k m => some (execVsub d a b t k m s)
  | .vmul d a b t k m => some (execVmul d a b t k m s)
  | .vfma d a b t k m => some (execVfma d a b t k m s)
  | .vfms d a b t k m => some (execVfms d a b t k m s)
  | .vfnma d a b t k m => some (execVfnma d a b t k m s)
  | .vmin d a b t k m => some (execVmin d a b t k m s)
  | .vmax d a b t k m => some (execVmax d a b t k m s)
  | .vabs d a t k m => some (execVabs d a t k m s)
  | .vneg d a t k m => some (execVneg d a t k m s)
  | .vdiv d a b t k m => some (execVdiv d a b t k m s)
  | .vsqrt d a t k m => some (execVsqrt d a t k m s)
  | .vrsqrt d a t k m => some (execVrsqrt d a t k m s)
  | .vrcp d a t k m => some (execVrcp d a t k m s)
  | .vexp2 d a t k m => some (execVexp2 d a t k m s)
  | .vlog2 d a t k m => some (execVlog2 d a t k m s)
  | .vsig d a t k m => some (execVsig d a t k m s)
  | .vtanh d a t k m => some (execVtanh d a t k m s)
  | .viadd d a b t k m => some (execViadd d a b t k m s)
  | .visub d a b t k m => some (execVisub d a b t k m s)
  | .vimul d a b t k m => some (execVimul d a b t k m s)
  | .vimulh d a b t k m => some (execVimulh d a b t k m s)
  | .vand d a b t k m => some (execVand d a b t k m s)
  | .vor d a b t k m => some (execVor d a b t k m s)
  | .vxor d a b t k m => some (execVxor d a b t k m s)
  | .vsll d a b t k m => some (execVsll d a b t k m s)
  | .vsrl d a b t k m => some (execVsrl d a b t k m s)
  | .vsra d a b t k m => some (execVsra d a b t k m s)
  | .vimin d a b t k m => some (execVimin d a b t k m s)
  | .vimax d a b t k m => some (execVimax d a b t k m s)
  | .viminu d a b t k m => some (execViminu d a b t k m s)
  | .vimaxu d a b t k m => some (execVimaxu d a b t k m s)
  | .vcmpEq d a b t k m => some (execVcmpEq d a b t k m s)
  | .vcmpLt d a b t k m => some (execVcmpLt d a b t k m s)
  | .vcmpLe d a b t k m => some (execVcmpLe d a b t k m s)
  | .vsel d a b t k m => some (execVsel d a b t k m s)
  | .vperm d a b t k m => some (execVperm d a b t k m s)
  | .vbcast d a t k m => some (execVbcast d a t k m s)
  | .vslide d a b t k m => some (execVslide d a b t k m s)
  | .vmov d a t k m => some (execVmov d a t k m s)
  | .vredAdd d a t k m => some (execVredAdd d a t k m s)
  | .vredMax d a t k m => some (execVredMax d a t k m s)
  | .vredMin d a t k m => some (execVredMin d a t k m s)
  | .vcvt d a k sz m => some (execVcvt d a k sz m s)
  | .vxt d a t i m => some (execVxt d a t i m s)
  | .vins d a t i m => some (execVins d a t i m s)
  | .mand d a b m => some (execMand d a b m s)
  | .mor d a b m => some (execMor d a b m s)
  | .mxor d a b m => some (execMxor d a b m s)
  | .mnot d a m => some (execMnot d a m s)
  | .mpop d a m => some (execMpop d a m s)
  | .mset d a m => some (execMset d a m s)
  | .cMov d a => some (execCMov d a s)
  | .cLi d i => some (execCLi d i s)
  | .cAddi d i => some (execCAddi d i s)
  | .cAdd d a => some (execCAdd d a s)
  | .cSub d a => some (execCSub d a s)
  | .cAnd d a => some (execCAnd d a s)
  | .cOr d a => some (execCOr d a s)
  | .cBz d o => some (execCBz d o s)
  | .cBnz d o => some (execCBnz d o s)
  | .cJmp o => some (execCJmp o s)
  | .cRet => some (execCRet s)
  | .cNop => some (execCNop s)
  | _ => none

/-- The access of a scalar instruction that a scout pass translates: its address registers, then address, bytes, need and
strand. -/
def scoutScalar (i : Instr) (s : State) : Option (List (BitVec 5) × List (Word × Nat × Need × BitVec 3)) :=
  match i with
  | .ldB _ a sn o _ => some ([a], [(eaImm s a o 1, 1, .load, sn)])
  | .lduB _ a sn o _ => some ([a], [(eaImm s a o 1, 1, .load, sn)])
  | .ldH _ a sn o _ => some ([a], [(eaImm s a o 2, 2, .load, sn)])
  | .lduH _ a sn o _ => some ([a], [(eaImm s a o 2, 2, .load, sn)])
  | .ldW _ a sn o _ => some ([a], [(eaImm s a o 4, 4, .load, sn)])
  | .lduW _ a sn o _ => some ([a], [(eaImm s a o 4, 4, .load, sn)])
  | .ldD _ a sn o _ => some ([a], [(eaImm s a o 8, 8, .load, sn)])
  | .stB _ a sn o _ => some ([a], [(eaImm s a o 1, 1, .store, sn)])
  | .stH _ a sn o _ => some ([a], [(eaImm s a o 2, 2, .store, sn)])
  | .stW _ a sn o _ => some ([a], [(eaImm s a o 4, 4, .store, sn)])
  | .stD _ a sn o _ => some ([a], [(eaImm s a o 8, 8, .store, sn)])
  | .ldxB _ a b sn _ => some ([a, b], [(eaIdx s a b, 1, .load, sn)])
  | .ldxuB _ a b sn _ => some ([a, b], [(eaIdx s a b, 1, .load, sn)])
  | .ldxH _ a b sn _ => some ([a, b], [(eaIdx s a b, 2, .load, sn)])
  | .ldxuH _ a b sn _ => some ([a, b], [(eaIdx s a b, 2, .load, sn)])
  | .ldxW _ a b sn _ => some ([a, b], [(eaIdx s a b, 4, .load, sn)])
  | .ldxuW _ a b sn _ => some ([a, b], [(eaIdx s a b, 4, .load, sn)])
  | .ldxD _ a b sn _ => some ([a, b], [(eaIdx s a b, 8, .load, sn)])
  | .stxB _ a b sn _ => some ([a, b], [(eaIdx s a b, 1, .store, sn)])
  | .stxH _ a b sn _ => some ([a, b], [(eaIdx s a b, 2, .store, sn)])
  | .stxW _ a b sn _ => some ([a, b], [(eaIdx s a b, 4, .store, sn)])
  | .stxD _ a b sn _ => some ([a, b], [(eaIdx s a b, 8, .store, sn)])
  | .amoAdd _ a _ w sn _ => some ([a], [(s.x a, (if w then 4 else 8), .atomic, sn)])
  | .amoAnd _ a _ w sn _ => some ([a], [(s.x a, (if w then 4 else 8), .atomic, sn)])
  | .amoOr _ a _ w sn _ => some ([a], [(s.x a, (if w then 4 else 8), .atomic, sn)])
  | .amoXor _ a _ w sn _ => some ([a], [(s.x a, (if w then 4 else 8), .atomic, sn)])
  | .amoMin _ a _ w sn _ => some ([a], [(s.x a, (if w then 4 else 8), .atomic, sn)])
  | .amoMax _ a _ w sn _ => some ([a], [(s.x a, (if w then 4 else 8), .atomic, sn)])
  | .amoMinu _ a _ w sn _ => some ([a], [(s.x a, (if w then 4 else 8), .atomic, sn)])
  | .amoMaxu _ a _ w sn _ => some ([a], [(s.x a, (if w then 4 else 8), .atomic, sn)])
  | .amoSwap _ a _ w sn _ => some ([a], [(s.x a, (if w then 4 else 8), .atomic, sn)])
  | .amoCas _ a _ w sn _ => some ([a], [(s.x a, (if w then 4 else 8), .atomic, sn)])
  | .amoFadd _ a _ sn _ => some ([a], [(s.x a, 4, .atomic, sn)])
  | .amoFadd2 _ a _ sn _ => some ([a], [(s.x a, 4, .atomic, sn)])
  | .cLd _ o => some ([2], [(s.x 2 + zext64 o * 8, 8, .load, 0)])
  | .cSt _ o => some ([2], [(s.x 2 + zext64 o * 8, 8, .store, 0)])
  | _ => none

/-- The accesses of a vector load or store (R206, R209) with the registers its addresses come from; the last part is
`true` when a check would trap. -/
def scoutVector (i : Instr) (s : State) : Option (Uses × List (Word × Nat × Need × BitVec 3) × Bool) :=
  let vecAt (d a : BitVec 5) (sn : BitVec 3) (o : BitVec 10) (need : Need) :=
    let ea := eaVec s a o
    let fmt := fmtCode (s.fmtReg s.hart.num ea)
    (({ rx := [a] } : Uses), [(vecPlace fmt ea, codeBytes fmt, need, sn)], vecCheck fmt ea d != 0)
  let gather (a b : BitVec 5) (t : Bool) (k : BitVec 3) (need : Need) :=
    let base := s.x a
    let fmt := fmtCode (s.fmtReg s.hart.num base)
    let lanes := laneList t fmt base (s.vr b) (s.mr k)
    (({ rx := [a], rv := [b], rm := [k] } : Uses), lanes.map (fun p => let q := lanePlace t fmt base (s.vr b) p; (q.1, q.2, need, (0 : BitVec 3))),
      (gatherCheck s t fmt base (s.vr b) lanes (need == .store)).isSome)
  match i with
  | .vld d a sn o _ => some (vecAt d a sn o .load)
  | .vst d a sn o _ => some (vecAt d a sn o .store)
  | .vldx _ a b t k _ => some (gather a b t k .load)
  | .vstx _ a b t k _ => some (gather a b t k .store)
  | _ => none

/-- The state of a scout pass: the copy it executes on, the invalid registers, the pages found (R155). -/
structure Scout where
  st : State
  bx : List (BitVec 5)
  bv : List (BitVec 5)
  bm : List (BitVec 3)
  bo : List (BitVec 3)
  pages : List Word
  room : Nat
deriving DecidableEq, Repr

/-- A register read is invalid. -/
def Scout.bad (c : Scout) (u : Uses) : Bool :=
  u.rx.any (fun r => r != 0 && c.bx.contains r) || u.rv.any c.bv.contains || u.rm.any (fun r => r != 0 && c.bm.contains r)
    || u.ro.any c.bo.contains

/-- The registers written become invalid, or valid (log 22). -/
def Scout.mark (c : Scout) (u : Uses) (invalid : Bool) : Scout :=
  if invalid then { c with bx := c.bx ++ u.wx, bv := c.bv ++ u.wv, bm := c.bm ++ u.wm, bo := c.bo ++ u.wo }
  else { c with
    bx := c.bx.filter (fun r => !u.wx.contains r), bv := c.bv.filter (fun r => !u.wv.contains r),
    bm := c.bm.filter (fun r => !u.wm.contains r), bo := c.bo.filter (fun r => !u.wo.contains r) }

/-- A page the scout pass found, once (R155). -/
def Scout.add (c : Scout) (a : Word) : Scout :=
  let p := a &&& ~~~0xFFFF#64
  if c.pages.contains p || c.pages.length ≥ c.room then c else { c with pages := c.pages ++ [p] }

/-- A translation by the pass: `none` when the access would trap, which of the refusals only a store's at its own node and
the translation of another node's HBM do (R149), or when its walk meets a memory error (R415). -/
def Scout.access (c : Scout) (p : Word × Nat × Need × BitVec 3) : Option Scout :=
  let (a, n, need, sn) := p
  if lockHit c.st a.toNat (a.toNat + n) need.writes sn ≠ 0 then none
  else
    let t := scoutTranslate c.st c.st.hart.region c.st.hart.level need a
    let d := { c with st := { c.st with freeCtr := t.st.freeCtr } }
    if t.cause = awaitRemote then none
    else if t.cause = 0x04 then some (d.add a)
    else if t.cause ≠ 0 && need == .store && !(gaNode a != c.st.nodeId && (t.reason == 8 || gaCore a != hbmCore)) then none
    else some d

/-- Several translations. -/
def Scout.accesses (c : Scout) : List (Word × Nat × Need × BitVec 3) → Option Scout
  | [] => some c
  | p :: t => (c.access p).bind (fun d => d.accesses t)

/-- The pass goes on behind an instruction. -/
def Scout.skip (c : Scout) (len : Nat) : Scout :=
  { c with st := c.st.onHart (fun h => { h with pc := h.pc + BitVec.ofNat 64 len }) }

/-- The offset of a conditional branch. -/
def branchOffset (i : Instr) : Option Word :=
  match i with
  | .beq _ _ o _ | .bne _ _ o _ | .blt _ _ o _ | .bge _ _ o _ | .bltu _ _ o _ | .bgeu _ _ o _ => some (sext64 o <<< 1)
  | .cBz _ o | .cBnz _ o => some (sext64 o <<< 1)
  | _ => none

/-- Majors that end a pass (R155). -/
def scoutStops (len : Nat) (bits : Word) (i : Instr) : Bool :=
  let mj := bitsOf bits 1 6
  i == .cMark || (len == 4 && (mj == 0x1C || (0x2A ≤ mj && mj ≤ 0x2C) || (0x37 ≤ mj && mj ≤ 0x3F)))

/-- The text of another node is free for the pass, which sends nothing (R155, log 54). -/
def scoutText : FarText := fun _ _ s => let (b, s1) := freeBytes 64 s; (.data (BitVec.ofNat 512 (leNat b)), s1)

/-- A fetch by the pass: no A bit, nothing cached (R155). -/
def scoutFetch (a : Word) (s : State) : Fetched :=
  fetchVia (fun a s => scoutTranslate s s.hart.region s.hart.level .fetch a) scoutText a s

/-- An indirect jump with its target in hand (R130, R155): `none` when it would trap. -/
def Scout.callr (c : Scout) (a : BitVec 5) : Option Scout :=
  let t := c.st.x a
  if t.getLsbD 0 then none
  else match scoutFetch t c.st with
    | .got (.lpad l _) _ _ _ =>
      if l = (c.st.oxr 0).extractLsb' 0 16 then
        some { c with st := ((c.st.setX 1 (c.st.hart.pc + 4)).onHart (fun h => { h with pc := t })),
                      bx := c.bx.filter (· != 1) }
      else none
    | _ => none

/-- A return with a valid register goes there; an odd one would trap. -/
def returnOdd (i : Instr) (s : State) : Bool :=
  match i with
  | .ret a _ => (s.x a).getLsbD 0
  | .cRet => (s.x 1).getLsbD 0
  | _ => false

/-- An indirect jump. -/
def isReturn (i : Instr) : Bool := match i with | .ret .. | .cRet => true | _ => false

/-- The hart in focus is about to take a trap. -/
def State.trapping (s : State) : Bool := match s.hart.run with | .parkTrap .. => true | _ => false

/-- What stands for a hart's operations in a pass: a result that never returns, so that what would trap parks first (R71) and shows
itself. -/
def Hart.passing (h : Hart) : Hart := { h with ops := [], rets := [⟨0, 0, .nothing [] [], none, []⟩], comb := [] }

/-- The read streams among registers. -/
def Scout.fed (c : Scout) (rs : List (BitVec 5)) : List (BitVec 5) :=
  (rs.filter (fun r => (c.st.hart.bound r).any (fun b => !b.write))).eraseDups
/-- The write streams among them. -/
def Scout.taken (c : Scout) (rs : List (BitVec 5)) : List (BitVec 5) :=
  (rs.filter (fun r => (c.st.hart.bound r).any (fun b => b.write))).eraseDups

/-- The read streams whose next register has not arrived: the pass does not wait for it, and what it brings is not valid. -/
def Scout.late (c : Scout) (rs : List (BitVec 5)) : List (BitVec 5) :=
  (c.fed rs).filter (fun r => c.st.hart.streamNext r == .absent)

/-- The pass with a value of no meaning in place of each late register. -/
def Scout.supply (c : Scout) (rs : List (BitVec 5)) : Scout :=
  { c with st := c.st.onHart (fun h => (c.late rs).foldl (fun h r => h.onBound r (fun b => { b with ready := (b.pos, 0, 0, 0) :: b.ready })) h) }

/-- The streams move on past an instruction whose effect is not computed. -/
def Hart.moveOn (rs : List (BitVec 5)) (h : Hart) : Hart := rs.foldl (fun h r => h.onBound r Binding.advance) h

/-- The registers of read streams after an instruction has consumed them: the late ones are not valid. -/
def Scout.fedBy (d c : Scout) (rs : List (BitVec 5)) : Scout :=
  { d with bv := d.bv.filter (fun r => !(c.fed rs).contains r) ++ c.late rs }

/-- An instruction without a memory access on the copy: a stream misused, a stream fetch's own fault, and the store of a write stream
that fails its checks end the pass, as all that would trap does (R155, R212; log 22). -/
def Scout.trial (c : Scout) (i : Instr) (u : Uses) (len : Nat) (bad : Bool) : Option Scout :=
  match scoutExec i (c.supply u.rv).st with
  | some (.next s) =>
    if s.trapping then none
    else if s.hart.run = .blocked then
      some (((({ c with st := c.st.onHart (Hart.moveOn (c.fed u.rv ++ c.taken u.wv)) } : Scout).fedBy c u.rv).mark u true).skip len)
    else some ((({ c with st := s.onHart Hart.passing } : Scout).fedBy c u.rv).mark u (bad || !(c.late u.rv).isEmpty))
  | _ => none

/-- A vector load or store of the pass on its streams: what it reads is consumed, what it writes has its stores checked. -/
def Scout.streamed (c : Scout) (u : Uses) : Option Scout :=
  let a := consumeAll (c.fed u.rv ++ c.taken (u.rv.filter (fun r => !u.wv.contains r))) (c.supply u.rv).st
  if !a.ok || u.wv.any a.st.hart.writeMisuse || (produceChecks fullLanes u.wv a.st).st.trapping then none
  else some (({ c with st := a.st.onHart (Hart.moveOn (c.taken u.wv)) } : Scout).fedBy c u.rv)

/-- One instruction of the pass: `none` when the pass stops. -/
def Scout.step (c : Scout) : Option Scout :=
  match scoutFetch c.st.hart.pc c.st with
  | .got i len bits _ =>
    if scoutStops len bits i then none
    else
      let u := usesOf i c.st
      let fed := c.fed u.rv
      let bad := c.bad { u with rv := u.rv.filter (fun r => !fed.contains r) }
      match scoutScalar i c.st, scoutVector i c.st with
      | some (rs, l), _ =>
        if c.bad { rx := rs } then some ((c.mark u true).skip len)
        else if l.any (fun p => p.1.toNat % p.2.1 != 0) then none
        else (c.accesses l).map (fun d => (d.mark u true).skip len)
      | none, some (au, l, traps) =>
        (c.streamed u).bind (fun d =>
          if c.bad { au with rv := au.rv.filter (fun r => !fed.contains r) } || au.rv.any (c.late u.rv).contains then
            some ((d.mark u true).skip len)
          else if traps then none
          else (d.accesses l).map (fun d => (d.mark u true).skip len))
      | none, none =>
        match i with
        | .jt .. | .jtc .. => none
        | .callr a _ => if bad then none else c.callr a
        | _ =>
          if !(fed ++ c.taken u.wv).isEmpty then c.trial i u len bad
          else if bad then
            if isReturn i then none
            else match branchOffset i with
              | some o => some (if o.toInt < 0 then
                  { c with st := c.st.onHart (fun h => { h with pc := h.pc + o }) } else c.skip len)
              | none => some ((c.mark u true).skip len)
          else if returnOdd i c.st then none
          else c.trial i u len false
  | _ => none

/-- Up to a number of instructions of the pass, or until the page list is full (R155). -/
def Scout.run : Nat → Scout → Scout
  | 0, c => c
  | n + 1, c => if c.pages.length ≥ c.room then c else match c.step with
    | some d => Scout.run n d
    | none => c

/-- The pages a scout pass from a trap point finds beyond those listed (R155), and the count of free values after it. -/
def scoutPages (epc : Word) (listed : List Word) (s : State) : List Word × Nat :=
  let h := s.hart
  let copy := s.onHart (fun h => { Hart.passing h with faults := [], cmds := [], pc := epc, run := .running })
  let c : Scout := ⟨copy, h.faults.flatMap (fun f => f.destX), h.faults.flatMap (fun f => f.destV), [], [], listed, 17⟩
  let d := Scout.run 256 c
  (d.pages.drop listed.length, d.st.freeCtr)

/-! ### The fault record (R153) -/

/-- The offset of the record in the hart's own slice or local store. -/
def recordOff : Nat := 0x3F000

/-- INFO of an entry (R153). -/
def FaultEntry.info (f : FaultEntry) : Word :=
  BitVec.ofNat 64 (f.cause.toNat + f.reason.toNat * 2 ^ 8 + f.dest.toNat * 2 ^ 16 + f.size.toNat * 2 ^ 21 +
    (if f.uns then 2 ^ 23 else 0) + f.sn.toNat * 2 ^ 24 + f.kind.toNat * 2 ^ 27 + f.fn.toNat * 2 ^ 32)

/-- Pages in order, each once, at most 17 (R153). -/
def faultPageList (fs : List FaultEntry) : List Word := ((fs.flatMap (·.pages)).eraseDups).take 17

/-- Flag W of a page: one of its entries is an atomic (R153). -/
def pageWord (fs : List FaultEntry) (p : Word) : Word :=
  if fs.any (fun f => f.kind == 1 && f.pages.contains p) then p ||| 2 else p

/-- Dwords written one after another at home. -/
def writeDwords (region : Option (BitVec 16)) : Nat → List Word → State → State
  | _, [], s => s
  | k, w :: t, s => writeDwords region (k + 8) t (commit region k (leBytes w.toNat 8) s)

/-- The fault record written, the counters moved (R153, R155). The trap is taken for a translation fault, and the pass runs,
when any entry of the record has cause 0x04, not the oldest one alone (log 64). -/
def writeRecord (epc : Word) (s : State) : State :=
  let h := s.hart
  let fs := h.faults.take 64
  let pages := faultPageList fs
  let ran := h.scout && fs.any (fun f => f.cause == 0x04)
  let (found, free) := if ran then scoutPages epc pages s else ([], s.freeCtr)
  let head : Word := BitVec.ofNat 64 (fs.length + (pages.length + found.length) * 2 ^ 8 + (if ran then 2 ^ 16 else 0))
  let base := memKey s.nodeId h.num recordOff
  let s1 := writeDwords h.region base [head, 0] s
  let s2 := writeDwords h.region (base + 0x10) (pages.map (pageWord fs) ++ found.map (fun p => p ||| 1)) s1
  let s3 := writeDwords h.region (base + 0xA0) (fs.flatMap (fun f => [f.addr, f.info, f.operand, f.compare])) s2
  let s4 := { s3 with freeCtr := free }
  s4.onHart (fun h => { h with
    fcnt := h.fcnt + BitVec.ofNat 32 pages.length
    scnt := h.scnt + BitVec.ofNat 32 found.length
    recInfo := fs.map (·.info) })

/-- The trap with cause 0x07 (R151): every other result has returned. -/
def deferredTrap (epc : Word) (s : State) : State :=
  match s.hart.faults with
  | [] => s
  | f :: _ =>
    let s1 := writeRecord epc s
    enterTrap 0x07 false f.pc epc f.addr none (s1.onHart (fun h => { h with faults := [] }))

/-- A hart that goes on after a gang stop has not issued all again that the stop recorded: its loads have not found entries and reply
slots yet (R72, R116, R348). A handler of gstop's interrupt does not issue them (log 29). -/
def Hart.resuming (h : Hart) : Bool :=
  (!h.recalled.isEmpty || (h.holdTo ≠ 0 && h.back.isNone)) && (h.back.isNone || h.holdTo = 0)
    && (match h.run with | .stopped _ => false | _ => true)

/-- Only faulted results hold the scoreboard (R116). -/
def Hart.faultsOnly (h : Hart) : Bool := h.outstanding = 0 && decide (h.faults.length ≥ Config.scoreboard)

/-- PARK_END (R68, R70, R71): every outstanding result has returned. -/
def parkEnd (s : State) : State :=
  if s.hart.outstanding ≠ 0 || (s.hart.resuming && !s.hart.faultsOnly) then s
  else match s.hart.run with
    | .parked => if s.hart.faults.isEmpty then s.onHart (fun h => { h with run := .running }) else deferredTrap s.hart.pc s
    | .parkTrap cause pc epc val =>
      if s.hart.faults.isEmpty then
        if cause = 7 then s.onHart (fun h => { h with run := .running }) else enterTrap cause false pc epc val none s
      else deferredTrap pc s
    | _ => s

/-! ### Accesses issued again by eret (R154, R208) -/

/-- The operation an entry of the record describes (R153, R208). -/
def entryKind (addr info operand compare : Word) (s : State) : OpKind :=
  let dest : BitVec 5 := info.extractLsb' 16 5
  let fmt : BitVec 4 := operand.extractLsb' 32 4
  match bitsOf info 27 2 with
  | 0 => .load addr (2 ^ bitsOf info 21 2) (info.getLsbD 23) dest
  | 1 => .atomic addr (info.extractLsb' 32 6) operand compare dest
  | _ =>
    match bitsOf operand 42 2 with
    | 1 =>
      let t := operand.getLsbD 36
      let idx : BitVec 5 := operand.extractLsb' 37 5
      .vloadx fmt t dest idx addr (laneList t fmt addr (s.vr idx) (operand &&& 0xFFFFFFFF#64))
    | 3 => .blockAcc addr compare dest
    | _ => .vload addr fmt dest

/-- One entry as the record holds it now: its four dwords, and whether its INFO word is the one the hart wrote. -/
structure RecordEntry where
  addr : Word
  info : Word
  operand : Word
  compare : Word
  same : Bool
deriving DecidableEq, Repr

/-- Entry i of the hart's record. -/
def recordEntry (i : Nat) (s : State) : RecordEntry :=
  let b := s.mem.bytes (memKey s.nodeId s.hart.num (recordOff + 0xA0 + 32 * i)) 32
  ⟨dwordAt b 0, dwordAt b 1, dwordAt b 2, dwordAt b 3, s.hart.recInfo[i]? == some (dwordAt b 1)⟩

/-- The strand of an entry. -/
def RecordEntry.strand (e : RecordEntry) : BitVec 3 := e.info.extractLsb' 24 3
/-- The operation it describes. -/
def RecordEntry.kind (e : RecordEntry) (s : State) : OpKind := entryKind e.addr e.info e.operand e.compare s

/-- The range lock that stops an entry's access: each is compared at issue, as any access is (R189). -/
def RecordEntry.lock (e : RecordEntry) (s : State) : Option (BitVec 8 × Word) :=
  let k := e.kind s
  let o : Op := ⟨0, 0, e.strand, 0, 0, s.hart.level, s.hart.region, k, none, []⟩
  if !e.same then none
  else (o.reads.find? (fun r => lockHit s r.1 r.2 (!k.isRead) e.strand != 0)).map (fun r =>
    (lockHit s r.1 r.2 (!k.isRead) e.strand, e.addr))

/-- A faulted access issued again under its strand (R154): a load as a new load, an atomic behind the drain of its line
(R158). -/
def reissueKind (k : OpKind) (strand : BitVec 3) (s : State) : State :=
  match k with
  | .atomic ea .. => s.onHart (fun h => ((h.drainLine (ea.toNat / 64)).drainStrand strand).issueOp strand k)
  | _ => issueLoad strand k s

/-- One entry issued again (R154). It carries the level and the address of the eret, which R406 has issue it before it
returns. A changed INFO word gives the register it names a free value, and there is no access (R11; log 24). -/
def reissueEntry (i : Nat) (s : State) : State :=
  let e := recordEntry i s
  if e.same then reissueKind (e.kind s) e.strand s
  else
    let d : BitVec 5 := e.info.extractLsb' 16 5
    let (b, s1) := freeBytes 64 s
    let res : Result := if bitsOf e.info 27 2 = 2 then .vval [(d, BitVec.ofNat 512 (leNat b))] 0 else .xval d (leWord b)
    s1.onHart (fun h => { h with nextOp := h.nextOp + 1, rets := h.rets ++ [⟨h.nextOp, e.strand, res, none, []⟩] })

/-- The entries a record lists: NLOAD of its header, at most 64 (R153). -/
def recordCount (s : State) : Nat := min 64 (leNat (s.mem.bytes (memKey s.nodeId s.hart.num recordOff) 1))

/-- The range lock that stops the first entry it hits: eret then traps and issues nothing (R13, R189; log 24). -/
def reissueLock (s : State) : Option (BitVec 8 × Word) :=
  (List.range (recordCount s)).findSome? (fun i => (recordEntry i s).lock s)

/-- Every entry of the record, in order (R154). -/
def reissue (s : State) : State := (List.range (recordCount s)).foldl (fun st i => reissueEntry i st) s

/-- The accesses of the record that take reply slots. -/
def recordFar (s : State) : Nat :=
  ((List.range (recordCount s)).filter (fun i => (recordEntry i s).same && s.leaves (recordEntry i s).addr)).length

/-- Before the accesses of the record are issued again, eret waits until each finds a scoreboard entry and a reply slot; as any
instruction that waits for an entry it takes the deferred fault when only faulted entries are held (R116, R348). -/
def reissueWait (s : State) : Option State :=
  if s.hart.entries + recordCount s > Config.scoreboard then some s.noEntry
  else if s.hart.replySlots + recordFar s > 64 then some s.block
  else none

/-- What a gang stop holds back is let go; faults that its handler has left are recorded with the rest (R72, log 29). -/
def Hart.letGo (h : Hart) : Hart := { h with holdTo := 0, recalled := h.recalled ++ h.faults, faults := [] }

/-- The held operations find their entries and reply slots beside what the handler has outstanding (R116, R348). -/
def Hart.letsGo (h : Hart) : Bool :=
  decide ({ h with holdTo := 0 }.outstanding ≤ Config.scoreboard) && decide ({ h with holdTo := 0 }.replySlots ≤ 64)

/-- The faulted accesses that a gang stop recorded are issued again, each at its own address, as far as there is room (R72, R116, R348,
R392; log 24). The spec does not say whether they are compared with the range locks once more, as R189 has every access be at issue:
they are not (log 76). -/
def issueRecalled : Nat → State → State
  | 0, s => s
  | n + 1, s =>
    match s.hart.recalled with
    | [] => s
    | f :: t =>
      if s.hart.entries ≥ Config.scoreboard || s.noSlot f.addr then s
      else
        let pc := s.hart.pc
        let s1 := s.onHart (fun h => { h with recalled := t, pc := f.pc })
        issueRecalled n ((reissueKind (entryKind f.addr f.info f.operand f.compare s1) f.sn s1).onHart (fun h => { h with pc := pc }))

/-- A hart that goes on issues its loads again (R72). -/
def reissueRecalled (s : State) : State :=
  if !s.hart.resuming then s
  else
    let s1 := if s.hart.holdTo ≠ 0 && s.hart.letsGo then s.onHart Hart.letGo else s
    if s1.hart.holdTo = 0 then issueRecalled s1.hart.recalled.length s1 else s1

end Sys2Proof.Machine
end

