-- ==== Sys2Proof/Machine/Message.lean ====
section
/-! DEFINITION. Messages (13, R356 to R365): matching, the overflow queue, the instructions and their events. -/

namespace Sys2Proof.Machine

/-! ### Who sends (R356, R371, R447) -/

/-- The region of this module that a number of another node acts as (R371). -/
def State.aliasRegion (s : State) (q : BitVec 16) : Option (BitVec 16) :=
  (s.rgAlias.toList.find? (fun w => w.getLsbD 63 && w.extractLsb' 0 16 == q && w.extractLsb' 12 4 != s.nodeId
    && (s.region? (w.extractLsb' 16 16)).isSome)).map (fun w => w.extractLsb' 16 16)

/-- The node is a host (R447). -/
def State.isHost (s : State) (node : BitVec 4) : Bool := s.hosts.getLsbD node.toNat

/-- The region a request of a node carries here (R371, R447). -/
def State.carried (s : State) (node : BitVec 4) (region : Option (BitVec 16)) : Option (BitVec 16) :=
  if node = s.nodeId then region else if s.isHost node then none else region.bind s.aliasRegion

/-- The tag of a message, in its first header word (R356). -/
def msgTag (m : Message) : BitVec 16 := (m.header.headD 0).extractLsb' 32 16

/-- A match specification agrees with a source and a tag (R356, R357). -/
def specMatches (spec : Word) (hart : BitVec 11) (node : BitVec 4) (tag : BitVec 16) : Bool :=
  (spec.getLsbD 20 || (spec.extractLsb' 0 11 == hart && spec.extractLsb' 16 4 == node))
    && (spec.getLsbD 48 || spec.extractLsb' 32 16 == tag)

/-! ### The posted-receive table and the overflow queue (R357, R358) -/

/-- A posted receive. -/
def Hart.post (h : Hart) (i : BitVec 5) : Post := h.posts[i.toNat]
/-- A posted receive replaced. -/
def Hart.setPost (h : Hart) (i : BitVec 5) (p : Post) : Hart := { h with posts := h.posts.set i.toNat p }

/-- The first receive in posting order that matches (R357). -/
def Hart.matchPost (h : Hart) (src : BitVec 11) (node : BitVec 4) (tag : BitVec 16) : Option (BitVec 5) :=
  let l := (List.range 32).map (fun i => (BitVec.ofNat 5 i, h.post (BitVec.ofNat 5 i)))
  let ok := l.filter (fun p => p.2.used && !p.2.matched && !p.2.done && specMatches p.2.spec src node tag)
  (ok.foldl (fun best p => match best with
    | none => some p
    | some b => if p.2.order < b.2.order then some p else some b) none).map (·.1)

/-- The oldest queued arrival that no receive has taken and a specification matches. -/
def Hart.matchQueued (h : Hart) (spec : Word) : Option Queued :=
  h.ovfq.find? (fun q => !q.claimed && specMatches spec q.srcHart q.srcNode q.tag)

/-- The receive status word (R364). -/
def statusWord (len : Nat) (trunc done cancelled : Bool) (src : BitVec 11) (node : BitVec 4) (tag : BitVec 16) : Word :=
  BitVec.ofNat 64 (len + (if trunc then 2 ^ 13 else 0) + (if done then 2 ^ 14 else 0) + (if cancelled then 2 ^ 15 else 0)
    + src.toNat * 2 ^ 16 + node.toNat * 2 ^ 27 + tag.toNat * 2 ^ 32)

/-- ms.stat (R358). -/
def Hart.msStat (h : Hart) : Word :=
  BitVec.ofNat 64 (h.ovfq.length + (if h.msPend then 2 ^ 8 else 0) + h.msLost.toNat * 2 ^ 32)

/-- The HBM offset of an entry of the overflow area (R358). -/
def Hart.ovfOffset (h : Hart) (entry : Nat) : Nat := h.msOvf.toNat * 2 ^ 18 + 4096 * entry

/-- Bytes the device writes for a region at an HBM offset of this module (R358, R375); false when refused, or when the walk meets a
memory error, which is reported (R415). -/
def regionBytes (region : Option (BitVec 16)) (off : Nat) (b : List Byte) (s : State) : Bool × State :=
  if b.isEmpty then (true, s)
  else match region.bind s.region? with
    | none => (false, s)
    | some g =>
      let t := translateLocal s .walker (some g.num) g.enter .atomic true true off
      if t.cause = awaitRemote then (false, reportPoison (some g.num) t.key t.st)
      else if t.cause = 0 then writeHome (some g.num) t.key b t.st else (false, s)

/-- An operation of messages ends: performed, its lock removed. -/
def messageDone (n op : Nat) (s : State) : State := (s.modHart n (fun h => h.perform op s.now)).unlock n op

/-- A receive is performed: an acquire of its strand (R194, R195). -/
def receiveDone (n : Nat) (p : Post) (s : State) : State :=
  (messageDone n p.op s).modHart n (fun h => h.acquire p.strand s.now)

/-- A counter of gs that moves on, but not in a hart that gstop has stopped: there it is frozen (R409, R410). -/
def Hart.counted (h : Hart) (c : BitVec 32) : BitVec 32 := if h.back.isSome then c else c + 1

/-- A payload reaches a posted buffer (R357, R363): the receive is performed, or ends in an error with LEN 0; one whose walk meets a memory
error is not performed (R415). -/
def fillPost (n : Nat) (i : BitVec 5) (src : BitVec 11) (node : BitVec 4) (tag : BitVec 16) (payload : List Byte) (s : State) :
    State :=
  let h := s.getHart n
  let p := h.post i
  let g : Agent := match h.op? p.op with
    | some o => ⟨n, o.region, o.level, p.strand, p.op⟩
    | none => ⟨n, h.region, h.level, p.strand, p.op⟩
  let p1 := { p with matched := true, done := true, srcHart := src, srcNode := node, tag := tag, queued := none, held := none }
  match devicePut g p.buf (payload.take p.cap) s with
  | (.fault c r _, s1) =>
    let (ec, bits) := refusal c r
    receiveDone n p (s1.modHart n (fun h => (h.setPost i { p1 with len := 0 }).report p.strand (stEF ec ||| bits)))
  | (.wait, s1) =>
    s1.modHart n (fun h => (h.setPost i { p1 with done := false }).putOps (fun o => if o.id = p.op then { o with sent := some lostRead } else o))
  | (_, s1) =>
    receiveDone n p (s1.modHart n (fun h =>
      { h.setPost i { p1 with len := payload.length, trunc := decide (payload.length > p.cap) } with mrecv := h.counted h.mrecv }))

/-- An arrival takes the receive it matches: the payload is written at once, or waits until every earlier operation of the
receive's strand is performed (R195, R357). -/
def takePost (n : Nat) (i : BitVec 5) (src : BitVec 11) (node : BitVec 4) (tag : BitVec 16) (payload : List Byte) (s : State) :
    State :=
  let h := s.getHart n
  let p := h.post i
  match h.op? p.op with
  | some o =>
    if h.ready o then fillPost n i src node tag payload s
    else s.modHart n (fun h => h.setPost i { p with
      matched := true, srcHart := src, srcNode := node, tag := tag, len := payload.length,
      trunc := decide (payload.length > p.cap), held := some payload })
  | none => fillPost n i src node tag payload s

/-- A refused arrival (R358): counted; the first raises cause 0x0C. -/
def lostArrival (n : Nat) (m : Message) (s : State) : State :=
  s.modHart n (fun h =>
    let h1 := { h with msLost := if h.msLost = BitVec.allOnes 32 then h.msLost else h.msLost + 1 }
    if h.msPend then h1
    else { h1 with
      msPend := true
      irqs := h1.irqs ++ [(⟨0x0C, BitVec.ofNat 64 (m.srcHart.toNat + m.srcNode.toNat * 2 ^ 16 + (msgTag m).toNat * 2 ^ 32), 0, 0⟩ : Irq)] })

/-- An arrival put into the overflow queue (R358); false when it is refused. -/
def queueArrival (n : Nat) (m : Message) (s : State) : Bool × State :=
  let h := s.getHart n
  match (List.range 64).find? (fun e => !h.ovfq.any (fun q => q.entry == e)) with
  | none => (false, lostArrival n m s)
  | some e =>
    if h.msOvf = 0 then (false, lostArrival n m s)
    else
      let (ok, s1) := regionBytes h.region (h.ovfOffset e) m.payload s
      if ok then (true, s1.modHart n (fun h =>
        { h with ovfq := h.ovfq ++ [⟨e, m.srcHart, m.srcNode, (msgTag m), m.payload.length, false⟩] }))
      else (false, lostArrival n m s1)

/-- How an arrival ends. -/
inductive Arrived where
  | delivered (st : State)
  | refused (st : State)
  | later
deriving DecidableEq, Repr

/-- The forwarding of a hart is over (R359). -/
def Forward.over (f : Forward) (now : Word) : Bool := f.past || decide (f.until_.toNat ≤ now.toNat)

/-- The hart that an arrival for a region reaches: the new hart of a node of that region that migrated, and on from there when it has moved
again; none when that forwarding is over, until a node comes to the old hart (R359). Arrivals for another region, or for none, are not the
migrated node's and stay (log 39). -/
def State.forwarded (s : State) (region : Option (BitVec 16)) : Nat → Nat → Option Nat
  | 0, n => some n
  | fuel + 1, n =>
    match (s.forwards.filter (fun f => f.old == n && some f.region == region)).getLast? with
    | none => some n
    | some f =>
      if !f.over s.now then s.forwarded region fuel f.new
      else if (s.getHart n).node.isSome then some n else none

/-- A hart of a suspended region whose frame another region has borrowed (R393). -/
def State.lentHart (s : State) (n : Nat) (region : BitVec 16) : Bool :=
  s.lent.any (fun l => l.region == region && l.harts.any (fun h => h.num == n && h.node.isSome))

/-- An arriving message (R356 to R359): to a hart that a gang stop holds, in its place or with its frame lent, it waits for the
resume. -/
def arrival (m : Message) (s : State) : Arrived :=
  let region := s.carried m.srcNode m.region
  let mm := m.mmode || (m.srcNode != s.nodeId && s.isHost m.srcNode)
  match s.forwarded region s.forwards.length m.dstHart.toNat with
  | none => .refused s
  | some n =>
    if !s.present n then .refused s
    else if !mm && (region.map (s.lentHart n)).getD false then .later
    else if !mm && (region.isNone || region != some (s.ownerOf n)) then .refused s
    else if (s.getHart n).isStopped then .later
    else match (s.getHart n).matchPost m.srcHart m.srcNode (msgTag m) with
      | some i => .delivered (takePost n i m.srcHart m.srcNode (msgTag m) m.payload s)
      | none =>
        let (ok, s1) := queueArrival n m s
        if ok then .delivered s1 else .refused s1

/-! ### Sending (R362) -/

/-- An msend of the hart in focus leaves, when the order of its strand lets it: to a hart of this module it arrives at
once; to another node it waits for the answer. -/
def sendMessage (id : Nat) (s : State) : State :=
  match s.hart.op? id with
  | none => s
  | some o =>
    match o.kind with
    | .msend src len dst =>
      if !s.hart.ready o || o.sent.isSome || s.hart.isStopped then s
      else
        let node : BitVec 4 := dst.extractLsb' 16 4
        match (if len = 0 then (Got.bytes [], s) else deviceGet ⟨s.hart.num, o.region, o.level, o.strand, id⟩ src len s) with
        | (.wait, s1) => if s1.poison = s.poison then s.waited s1 else loseOp o (s.waited s1)
        | (.fault c r, s1) =>
          let (ec, bits) := refusal c r
          messageDone s.hart.num id (s1.onHart (fun h => h.report o.strand (stEF ec ||| bits)))
        | (.bytes b, s1) =>
          let m : Message := ⟨s.nodeId, BitVec.ofNat 11 s.hart.num, dst.extractLsb' 0 11, o.region, o.level == Level.M,
            [dst, BitVec.ofNat 64 id], b⟩
          if node = s.nodeId then
            match arrival m s1 with
            | .delivered s2 => messageDone s.hart.num id s2
            | .refused s2 => messageDone s.hart.num id (s2.onHart (fun h => h.report o.strand stRA))
            | .later => s
          else if !s.reaches node then messageDone s.hart.num id (s.onHart (fun h => h.report o.strand stDL))
          else send (.message node m) (s1.onHart (fun h => h.putOp { o with sent := some 1 }))
    | _ => s

/-- Numbers of the msends of a hart not yet sent, oldest first. -/
def Hart.msendsOpen (h : Hart) : List Nat :=
  h.ops.filterMap (fun o => match o.kind with
    | .msend .. => if o.sent.isNone && h.ready o then some o.id else none
    | _ => none)

/-- MESSAGE_ARRIVAL (R357): of a message of another node, or of the oldest msend of a hart of this module to the hart
named, which leaves this module when its destination is another node. -/
def messageArrival (m : Message) (s : State) : State :=
  if m.srcNode = s.nodeId then
    s.withHart m.srcHart.toNat (fun t =>
      match t.hart.msendsOpen.find? (fun id => match (t.hart.op? id).map (·.kind) with
        | some (OpKind.msend _ _ dst) => dst.extractLsb' 0 11 == m.dstHart
        | _ => false) with
      | some id => sendMessage id t
      | none => t)
  else if s.recovery then s
  else match arrival m s with
    | .delivered s1 => send (.messageReply m.srcNode m.srcHart true) s1
    | .refused s1 => send (.messageReply m.srcNode m.srcHart false) s1
    | .later => s

/-- OVERFLOW_PAYLOAD_COPY (R195, R357): the payload of a queued arrival, or of one that waited for the order of the strand, goes
to the buffer of the receive that took it. -/
def overflowCopy (i : BitVec 5) (s : State) : State :=
  let p := s.hart.post i
  match p.queued, s.hart.op? p.op with
  | none, some o =>
    match p.held with
    | some b => if s.hart.ready o && !p.done then fillPost s.hart.num i p.srcHart p.srcNode p.tag b s else s
    | none => s
  | some e, some o =>
    if !s.hart.ready o || p.done || o.sent.isSome then s
    else match s.hart.ovfq.find? (fun q => q.entry == e) with
      | none => s
      | some q =>
        let rest (t : State) : State := t.onHart (fun h => { h with ovfq := h.ovfq.filter (fun r => r.entry != e) })
        let go (b : List Byte) (t : State) : State := rest (fillPost s.hart.num i q.srcHart q.srcNode q.tag b t)
        if q.len = 0 then go [] s
        else match s.hart.region.bind s.region? with
          | none => s
          | some g =>
            let t := translateLocal s .walker (some g.num) g.enter .load true true (s.hart.ovfOffset e)
            if t.cause = awaitRemote then loseOp o (reportPoison (some g.num) t.key t.st)
            else if t.cause = 0 then
              if t.st.poisoned t.key then loseOp o (reportPoison (some g.num) t.key t.st) else go (t.st.readKey t.key q.len) t.st
            else
              let (ec, bits) := refusal t.cause t.reason
              rest (receiveDone s.hart.num p (s.onHart (fun h =>
                (h.setPost i { p with done := true, len := 0, queued := none }).report p.strand (stEF ec ||| bits))))
  | _, _ => s

/-- MIGRATION_FORWARD_EXPIRY (R359): 100 µs after a migration the old hart forwards no more. -/
def forwardExpiry (k : Nat) (s : State) : State :=
  match s.forwards[k]? with
  | some f => if f.until_.toNat ≤ s.now.toNat then { s with forwards := s.forwards.set k { f with past := true } } else s
  | none => s

/-! ### Node ends (R359) -/

/-- The receives that no message has matched are cancelled and performed. -/
def cancelPosts (s : State) : State :=
  (List.range 32).foldl (fun st k =>
    let i := BitVec.ofNat 5 k
    let p := st.hart.post i
    if p.used && !p.matched && !p.done then
      receiveDone st.hart.num p (st.onHart (fun h => h.setPost i { p with done := true, cancelled := true }))
    else st) s

/-- The table emptied, the slots' counts kept; the overflow queue discarded. -/
def Hart.clearMessages (h : Hart) : Hart :=
  { h with posts := h.posts.map (fun p => { Post.reset with gen := p.gen }), ovfq := [] }

/-! ### The instructions -/

/-- An instruction answers with a register. -/
def reply (d : BitVec 5) (v : Word) (m : Bool) (s : State) : State := (s.setX d v).done 4 m

/-- A code with bit 63 set (R361). -/
def msCode (n : Nat) : Word := BitVec.ofNat 64 (2 ^ 63 + n)

/-- The first failing check of msend, 0 for none (R362). -/
def msendCode (node : BitVec 4) (src len dst : Word) : Nat :=
  if len.toNat > 4096 then 2
  else if len != 0 && src.toNat % 8 != 0 then 3
  else if (len != 0 && gaNode src != node) || bitsOf dst 0 11 > 1091 then 4
  else 0

/-- msend (R362). -/
def execMsend (d a b : BitVec 5) (sn : BitVec 3) (m : Bool) (s : State) : Out :=
  let src := s.x a
  let len := s.x b
  let dst := s.oxr 0
  let code := msendCode s.nodeId src len dst
  if code ≠ 0 then .next (reply d (msCode code) m s)
  else if (s.hart.ops.filter (fun o => match o.kind with | .msend .. => true | _ => false)).length ≥ Config.msends
      || (len != 0 && !s.lockRoom 1) then .next s.block
  else
    let s1 := s.onHart (fun h => { (h.issueOp sn (.msend src len.toNat dst)).drainStrand sn with msent := h.counted h.msent })
    .next (reply d 0 m (s1.lock src.toNat (src.toNat + len.toNat) .copySource sn))

/-- The first failing check of mpost, 0 for none (R363). -/
def mpostCode (node : BitVec 4) (buf cap : Word) : Nat :=
  if cap.toNat > 4096 then 2 else if buf.toNat % 8 ≠ 0 then 3 else if gaNode buf ≠ node then 4 else 0

/-- mpost (R363). -/
def execMpost (d a b : BitVec 5) (sn : BitVec 3) (m : Bool) (s : State) : Out :=
  let buf := s.x a
  let cap := s.x b
  let spec := s.oxr 0
  let code := mpostCode s.nodeId buf cap
  if code ≠ 0 then .next (reply d (msCode code) m s)
  else match (List.range 32).find? (fun i => !(s.hart.post (BitVec.ofNat 5 i)).used) with
    | none => .next (reply d (msCode 1) m s)
    | some k =>
      if cap != 0 && !s.lockRoom 1 then .next s.block
      else
        let i := BitVec.ofNat 5 k
        let gen := (s.hart.post i).gen + 1
        let order := (s.hart.posts.toList.map (·.order)).foldl max 0 + 1
        let s1 := s.onHart (fun h => h.issueOp sn (.mpost i))
        let q := s.hart.matchQueued spec
        let p : Post := { Post.reset with
          gen := gen
          used := true
          order := order
          buf := buf
          cap := cap.toNat
          spec := spec
          strand := sn
          level := s.hart.level
          op := s1.hart.nextOp - 1
          matched := q.isSome
          len := (q.map (·.len)).getD 0
          trunc := match q with | some v => decide (v.len > cap.toNat) | none => false
          srcHart := (q.map (·.srcHart)).getD 0
          srcNode := (q.map (·.srcNode)).getD 0
          tag := (q.map (·.tag)).getD 0
          queued := q.map (·.entry) }
        let s2 := s1.onHart (fun h => { h.setPost i p with
          ovfq := h.ovfq.map (fun v => if some v.entry = p.queued then { v with claimed := true } else v) })
        .next (reply d (BitVec.ofNat 64 (k + gen.toNat * 2 ^ 8)) m (s2.lock buf.toNat (buf.toNat + cap.toNat) .copyDest sn))

/-- The receive a handle names; none for a stale one (R364, R365). -/
def Hart.findPost (h : Hart) (hd : Word) : Option (BitVec 5 × Post) :=
  let i : BitVec 5 := hd.setWidth 5
  let p := h.post i
  if p.used && hd == BitVec.ofNat 64 (i.toNat + p.gen.toNat * 2 ^ 8) then some (i, p) else none

/-- mprobe (R364): selector 0 frees the slot of a performed receive (R365). -/
def execMprobe (d a b : BitVec 5) (m : Bool) (s : State) : Out :=
  let xa := s.x a
  match bitsOf (s.x b) 0 2 with
  | 0 =>
    match s.hart.findPost xa with
    | none => .next (reply d (msCode 7) m s)
    | some (i, p) =>
      let v := if p.matched || p.done then statusWord p.len p.trunc p.done p.cancelled p.srcHart p.srcNode p.tag else 0
      .next (reply d v m (if p.done then s.onHart (fun h => h.setPost i { p with used := false }) else s))
  | 1 =>
    match s.hart.matchQueued xa with
    | none => .next (reply d 0 m s)
    | some q => .next (reply d (statusWord q.len false false false q.srcHart q.srcNode q.tag) m s)
  | 2 => .next (reply d s.hart.msStat m s)
  | _ => .next (reply d 0 m s)

/-- mcancel (R365): an unmatched receive is cancelled and performed, and its slot is freed. -/
def execMcancel (d a : BitVec 5) (m : Bool) (s : State) : Out :=
  match s.hart.findPost (s.x a) with
  | none => .next (reply d (msCode 7) m s)
  | some (i, p) =>
    if p.matched || p.done then .next (reply d 1 m s)
    else .next (reply d 0 m (receiveDone s.hart.num p (s.onHart (fun h =>
      h.setPost i { p with used := false, done := true, cancelled := true }))))

end Sys2Proof.Machine
end

