-- ==== Sys2Proof/Machine/Fabric.lean ====
section
/-! DEFINITION. Lanes, skeins and striping (13, R351 to R355), the start sequencer (R422), and the instructions on them
(R366 to R368). -/

namespace Sys2Proof.Machine

/-! ### Lanes (R351) -/

/-- The skein of a fibre (R29). -/
def skeinOf (f : BitVec 6) : BitVec 3 := f.extractLsb' 3 3

/-- A lane put into the list of lanes that are not ACTIVE, by peer and fibre. -/
def putLane (l : Lane) : List Lane → List Lane
  | [] => [l]
  | k :: t => if k.peer.toNat * 64 + k.fibre.toNat < l.peer.toNat * 64 + l.fibre.toNat then k :: putLane l t else l :: k :: t

/-- A lane moves to a state. -/
def State.setLane (s : State) (peer : BitVec 4) (f : BitVec 6) (st : LaneState) : State :=
  let rest := s.lanes.filter (fun l => !(l.peer == peer && l.fibre == f))
  { s with lanes := if st == .active then rest else putLane ⟨peer, f, st⟩ rest }

/-- The peers of this module. -/
def State.peers (s : State) : List (BitVec 4) := ((List.range 16).map (BitVec.ofNat 4)).filter (fun p => p != s.nodeId)

/-- The lanes of a skein, to every peer. -/
def State.skeinLanes (s : State) (k : BitVec 3) : List (BitVec 4 × BitVec 6) :=
  s.peers.flatMap (fun p => (List.range 8).map (fun i => (p, BitVec.ofNat 6 (8 * k.toNat + i))))

/-- The fibres of a peer whose lane is in a state, ascending. -/
def State.fibres (s : State) (peer : BitVec 4) (st : LaneState) : List (BitVec 6) :=
  ((List.range 64).map (BitVec.ofNat 6)).filter (fun f => s.laneState peer f == st)

/-- A mask of fibres. -/
def fibreMask (l : List (BitVec 6)) : Word := l.foldl (fun m f => m ||| (1#64 <<< f.toNat)) 0

/-- A dead link (R424): the translations cached from the peer go, tickets count it, and what waits to be sent to it is lost. -/
def linkDead (peer : BitVec 4) (s : State) : State :=
  let bit : BitVec 16 := 1#16 <<< peer.toNat
  { s.tlbDrop (fun e => e.node == peer) with
    sendq := s.sendq.filter (fun i => i.peer != peer)
    flights := s.flights.filter (fun f => f.item.peer != peer)
    asks := s.asks.filter (fun q => q.node != peer)
    tickets := s.tickets.map (fun t => { t with waiting := t.waiting &&& ~~~bit, dead := t.dead ||| (t.waiting &&& bit) }) }

/-- The record of a change of the posted-write class (R353, R427): the peer, and its lanes not FAILED. -/
def classRecord (peer : BitVec 4) (s : State) : State :=
  firmwareRecord 0x03 0xFFFF 0xFFFF peer.toNat (s.liveLanes peer) s

/-- The posted-write class of a peer is suspended below 32 lanes (R353). -/
def suspendClass (peer : BitVec 4) (s : State) : State :=
  let s1 := if s.liveLanes peer = 0 then linkDead peer s else s
  if s.liveLanes peer < 32 && !s1.degraded.getLsbD peer.toNat then
    classRecord peer { s1 with degraded := s1.degraded ||| (1#16 <<< peer.toNat) }
  else s1

/-- A lane becomes FAILED. -/
def failLane (peer : BitVec 4) (f : BitVec 6) (s : State) : State :=
  let s1 := s.setLane peer f .failed
  suspendClass peer { s1 with leaving := s1.leaving.filter (fun q => q != (peer, f)) }

/-! ### Skein states (R354) -/

/-- Coding of a skein's state (R367). -/
def SkeinState.code : SkeinState → Nat
  | .awake => 0 | .parking => 1 | .parked => 2 | .waking => 3

/-- A skein. -/
def State.skein (s : State) (k : BitVec 3) : Skein := s.skeins[k.toNat]
/-- A skein replaced. -/
def State.setSkein (s : State) (k : BitVec 3) (v : Skein) : State := { s with skeins := s.skeins.set k.toNat v }

/-- A skein moves to a state, with its record (R354, R427). -/
def moveSkein (k : BitVec 3) (st : SkeinState) (s : State) : State :=
  firmwareRecord 0x02 0xFFFF 0xFFFF (k.toNat + st.code * 2 ^ 32) 0 (s.setSkein k ⟨st, false, none⟩)

/-- Every lane of a skein that is not FAILED is locked. -/
def State.allLocked (s : State) (k : BitVec 3) : Bool :=
  (s.skeinLanes k).all (fun p => s.laneState p.1 p.2 != .idle)

/-- An admitted skein is AWAKE as soon as every lane not FAILED is locked (R354). -/
def wakeCheck (k : BitVec 3) (s : State) : State :=
  if (s.skein k).st == .waking && (s.skein k).admitted.isSome && s.allLocked k then moveSkein k .awake s else s

/-! ### Striping (R352) -/

/-- The beats that a failed lane has not delivered, the first `done` of those it sends being delivered, go to the remaining lanes in turn,
in beat order, each behind what its new lane has still to send; every other beat keeps its lane. -/
def resend (rest : List (BitVec 6)) (bad : BitVec 6) (done : Nat) (plan : List (Nat × BitVec 6)) : List (Nat × BitVec 6) :=
  let lost := (plan.filter (fun p => p.2 == bad)).drop done
  let beats := (List.range plan.length).filter (fun j => lost.any (fun p => p.1 == j))
  plan.filter (fun p => !lost.contains p) ++ beats.zipIdx.map (fun p => (p.1, (rest[p.2 % rest.length]?).getD bad))

/-- The remaining lanes, the first one behind a fibre in front. -/
def behind (set : List (BitVec 6)) (f : BitVec 6) : List (BitVec 6) :=
  set.filter (fun g => f.toNat < g.toNat) ++ set.filter (fun g => g.toNat < f.toNat)

/-- The fibres of a mask, ascending. -/
def maskFibres (m : Word) : List (BitVec 6) := ((List.range 64).filter (fun i => m.getLsbD i)).map (BitVec.ofNat 6)

/-- The packet on its way to a peer. -/
def State.flight? (s : State) (peer : BitVec 4) : Option Flight := s.flights.find? (fun f => f.item.peer == peer)

/-- A lane fails while a packet is on its way: the beats it still owes go to the lanes of the packet's set that remain. -/
def Flight.replan (f : Flight) (rest : List (BitVec 6)) (bad : BitVec 6) (done : Nat) : Flight :=
  { f with plan := resend (behind rest bad) bad done f.plan, broken := true }

/-- LANE_FAILURE (R351, R352, R354): a lane fails, of its beats of the present packet the first `done` delivered. An active
lane that fails between two packets changes the set, and the pointer is cleared. -/
def laneFailure (peer : BitVec 4) (f : BitVec 6) (done : Nat) (s : State) : State :=
  let st := s.laneState peer f
  if peer = s.nodeId || st == .failed then s
  else
    let s1 := failLane peer f s
    let s2 := match s1.flight? peer with
      | some k =>
        if k.mask.getLsbD f.toNat then
          let rest := (maskFibres k.mask).filter (fun g => s1.laneState peer g != .failed)
          { s1 with flights := s1.flights.map (fun q => if q.item.peer = peer then q.replan rest f done else q) }
        else s1
      | none => if st == .active then { s1 with stripe := s1.stripe.filter (fun q => q.1 != peer.toNat) } else s1
    wakeCheck (skeinOf f) s2

/-- The lane of each beat of a packet that starts now: position (P + j) mod n of the active set. -/
def stripePlan (s : State) (peer : BitVec 4) (beats : Nat) : List (Nat × BitVec 6) :=
  let set := s.fibres peer .active
  let p := assocGet s.stripe peer.toNat 0
  (List.range beats).map (fun j => (j, (set[(p + j) % set.length]?).getD 0))

/-- The lane of each beat, in beat order. -/
def Flight.lanes (f : Flight) : List (BitVec 6) :=
  (List.range f.plan.length).map (fun j => ((f.plan.find? (fun p => p.1 == j)).map (·.2)).getD 0)

/-- A message whose sender a gang stop holds, in its place or with its frame lent, has fallen out of the network until the resume
(R359, R393). -/
def State.fallsOut (s : State) (p : Packet) : Bool :=
  match p with
  | .message _ m =>
    (m.region == (s.getHart m.srcHart.toNat).region && (s.getHart m.srcHart.toNat).isStopped)
      || (m.region.map (s.lentHart m.srcHart.toNat)).getD false
  | _ => false

/-- The packet of a class that starts next towards a peer: none of posted writes while they are suspended (R353). -/
def State.headItem (s : State) (peer : BitVec 4) (cls : BitVec 2) : Option SendItem :=
  if cls = 2 && s.suspended peer then none
  else s.sendq.find? (fun i => i.peer == peer && i.cls == cls && !s.fallsOut i.pkt)

/-- A message towards a peer has moved (R350). -/
def State.moved (s : State) (i : SendItem) : State :=
  if i.cls = 1 then { s with msgMoved := assocSet s.msgMoved i.peer.toNat s.now } else s

/-- Between two packets (R352, R353): LOCKED lanes join the set, leaving ones stop, the pointer is cleared when the active set
changes, which a leaving lane that was only LOCKED does not do, and full service resumes. -/
def setBoundary (peer : BitVec 4) (s : State) : State :=
  let mine := s.leaving.filter (fun q => q.1 == peer)
  let join := (s.fibres peer .locked).filter (fun f => !mine.contains (peer, f))
  let s1 := join.foldl (fun st f => st.setLane peer f .active) s
  let s2 := mine.foldl (fun st q => st.setLane peer q.2 .idle) s1
  let changed := !join.isEmpty || mine.any (fun q => s.laneState peer q.2 == .active)
  let s3 := { s2 with
    leaving := s2.leaving.filter (fun q => q.1 != peer)
    stripe := if changed then s2.stripe.filter (fun q => q.1 != peer.toNat) else s2.stripe }
  if s3.degraded.getLsbD peer.toNat && s3.liveLanes peer ≥ 32 then
    classRecord peer { s3 with degraded := s3.degraded &&& ~~~(1#16 <<< peer.toNat) }
  else s3

/-- The packet on its way arrives whole at the peer, in beat order (R352): the header's mask and the lane of each beat. -/
def endPacket (f : Flight) (s : State) : State :=
  let peer := f.item.peer
  let n := (maskFibres f.mask).length
  let p := if f.broken then 0 else (assocGet s.stripe peer.toNat 0 + f.plan.length) % n
  { s.moved f.item with
    flights := s.flights.filter (fun q => q.item.peer != peer)
    stripe := (assocSet s.stripe peer.toNat p).filter (fun q => q.2 != 0)
    outbox := s.outbox ++ [Packet.beats peer f.mask f.lanes, f.item.pkt] }

/-- The next packet of a class starts on the active set. -/
def startPacket (peer : BitVec 4) (cls : BitVec 2) (s : State) : State :=
  let set := s.fibres peer .active
  match s.headItem peer cls with
  | some i =>
    if set.isEmpty then s
    else { s.moved i with
      sendq := s.sendq.erase i
      flights := s.flights ++ [⟨i, fibreMask set, stripePlan s peer i.pkt.flits, false⟩] }
  | none => s

/-- PACKET_BOUNDARY (R352, R353): the packet on its way ends; or, between two packets, the set changes and the next packet of
the class starts. -/
def packetBoundary (peer : BitVec 4) (cls : BitVec 2) (s : State) : State :=
  if peer = s.nodeId then s
  else match s.flight? peer with
    | some f => setBoundary peer (endPacket f s)
    | none => startPacket peer cls (setBoundary peer s)

/-- CRC_ERROR_RESEND (R352): a beat of the present packet is sent again on the same lane. -/
def crcResend (peer : BitVec 4) (f : BitVec 6) (s : State) : State :=
  match s.flight? peer with
  | some k => if k.plan.any (fun p => p.2 == f) then { s with outbox := s.outbox ++ [Packet.beats peer k.mask [f]] } else s
  | none => s

/-! ### Deadlock recovery (R350) -/

/-- DEADLOCK_PROBE (R350): a message has waited for its output for 4 µs in which none moved, nor any probe was sent: a probe
leaves along the blocked path. -/
def deadlockProbe (node : BitVec 4) (s : State) : State :=
  if s.sendq.any (fun i => i.peer == node && i.cls == 1)
      && decide ((assocGet s.msgMoved node.toNat 0).toNat + 4000 ≤ s.now.toNat) && s.reaches node then
    { s with outbox := s.outbox ++ [Packet.probe node], probes := s.probes ||| (1#16 <<< node.toNat),
             msgMoved := assocSet s.msgMoved node.toNat s.now }
  else s

/-- PROBE_RETURN (R350): the probe came back to its origin: the first message moves one hop forward, out of this module; none
is dropped or reordered, so that nothing moves while a packet is under way there already (log 71). -/
def probeReturn (node : BitVec 4) (s : State) : State :=
  if s.probes.getLsbD node.toNat then
    let s1 := { s with probes := s.probes &&& ~~~(1#16 <<< node.toNat) }
    match s1.flight? node, s1.headItem node 1 with
    | none, some i => { s1.moved i with sendq := s1.sendq.erase i, outbox := s1.outbox ++ [i.pkt] }
    | _, _ => s1
  else s

/-! ### Skeins (R354, R355) -/

/-- A parked skein enters the start sequencer's queue. -/
def wakeSkein (k : BitVec 3) (s : State) : State := (moveSkein k .waking s).askStart (.skein k)

/-- A skein's lanes leave the active sets at the next boundaries. -/
def leaveSkein (k : BitVec 3) (s : State) : State :=
  let go := (s.skeinLanes k).filter (fun p =>
    (s.laneState p.1 p.2 == .active || s.laneState p.1 p.2 == .locked) && !s.leaving.contains p)
  { s with leaving := s.leaving ++ go, startq := s.startq.filter (fun r => r != .skein k) }

/-- lnpark for one skein (R354). -/
def parkSkein (k : BitVec 3) (s : State) : State :=
  match (s.skein k).st with
  | .awake | .waking => leaveSkein k (moveSkein k .parking s)
  | _ => s

/-- lnwake for one skein (R354). -/
def unparkSkein (k : BitVec 3) (s : State) : State :=
  match (s.skein k).st with
  | .parked => wakeSkein k s
  | .parking => s.setSkein k { s.skein k with pending := true }
  | _ => s

/-- SKEIN_PARKED (R354): no lane of the skein is left in an active set; a pending wake starts at once. -/
def skeinParked (k : BitVec 3) (s : State) : State :=
  let sk := s.skein k
  let waits := s.leaving.any (fun p => skeinOf p.2 == k)
  if sk.st == .parking && !waits then
    let s1 := moveSkein k .parked s
    if sk.pending then wakeSkein k s1 else s1
  else s

/-- LANE_LOCKED (R354, R355): a lane of an admitted skein locks, within 3,200 ns of the admission. -/
def laneLocked (peer : BitVec 4) (f : BitVec 6) (s : State) : State :=
  let k := skeinOf f
  let sk := s.skein k
  if peer != s.nodeId && sk.st == .waking && s.laneState peer f == .idle &&
      (sk.admitted.map (fun t => decide (s.now.toNat ≤ t.toNat + 3200))).getD false then
    wakeCheck k (s.setLane peer f .locked)
  else s

/-- SKEIN_WAKE_TIMEOUT (R354): 3,200 ns after admission. -/
def wakeTimeout (k : BitVec 3) (s : State) : State :=
  match (s.skein k).st, (s.skein k).admitted with
  | .waking, some t =>
    if t.toNat + 3200 ≤ s.now.toNat then
      moveSkein k .awake ((s.skeinLanes k).foldl (fun st p =>
        if st.laneState p.1 p.2 == .idle then failLane p.1 p.2 st else st) s)
    else s
  | _, _ => s

/-- FIRMWARE_RETUNE (R354): a FAILED lane locks again, or waits for its skein's next wake. -/
def retune (peer : BitVec 4) (f : BitVec 6) (s : State) : State :=
  if peer = s.nodeId || s.laneState peer f != .failed then s
  else
    match (s.skein (skeinOf f)).st with
    | .awake | .waking => s.setLane peer f .locked
    | _ => s.setLane peer f .idle

/-! ### The start sequencer (R422) -/

/-- A time lies some nanoseconds back, or has not been. -/
def State.since (s : State) (t : Option Word) (ns : Nat) : Bool := t.all (fun t => decide (t.toNat + ns ≤ s.now.toNat))

/-- A slot of 64 ns is free. -/
def State.slotFree (s : State) : Bool := s.since s.lastAdmit 64

/-- An entry may be admitted now (R355, R422); a quad is admitted by its exit from retention (R416). -/
def StartReq.due (r : StartReq) (s : State) : Bool :=
  match r with
  | .skein _ => s.since s.lastSkein 400
  | .engine _ => true
  | .quad _ => false

/-- START_SEQUENCER_ADMIT (R422): the first entry that may start. -/
def startAdmit (s : State) : State :=
  if !s.slotFree then s
  else match s.startq.find? (fun r => r.due s) with
    | none => s
    | some r =>
      let s1 := { s with startq := s.startq.filter (fun q => q != r), lastAdmit := some s.now }
      match r with
      | .engine f => s1.setEngine { s1.engine f with gated := false, lastTile := s.now }
      | .skein k => wakeCheck k { s1.setSkein k { s1.skein k with admitted := some s.now } with lastSkein := some s.now }
      | .quad _ => s1

/-! ### The instructions -/

/-- The skeins of a mask, ascending. -/
def maskSkeins (v : Word) : List (BitVec 3) :=
  ((List.range 8).filter (fun i => v.getLsbD i)).map (BitVec.ofNat 3)

/-- A command of the link-power controller answers (R366). -/
def linkCommand (d : BitVec 5) (v : Word) (m : Bool) (stops : Bool) (f : BitVec 3 → State → State) (s : State) : State :=
  if hartKind s.hart.num = 0 then trap 0x05 0 s
  else if v.toNat > 0xFF then reply d (msCode 8) m s
  else if stops then reply d (msCode 6) m s
  else reply d 0 m ((maskSkeins v).foldl (fun st k => f k st) s)

/-- After parking a mask of skeins none would be AWAKE or WAKING (R366). -/
def State.parksAll (s : State) (v : Word) : Bool :=
  !(List.range 8).any (fun i => !v.getLsbD i && (match (s.skein (BitVec.ofNat 3 i)).st with
    | .awake | .waking => true
    | _ => false))

/-- lnpark (R366). -/
def execLnpark (d a : BitVec 5) (m : Bool) (s : State) : Out :=
  .next (linkCommand d (s.x a) m (s.parksAll (s.x a)) parkSkein s)

/-- lnwake (R366). -/
def execLnwake (d a : BitVec 5) (m : Bool) (s : State) : Out := .next (linkCommand d (s.x a) m false unparkSkein s)

/-- The value lnst reads (R367). -/
def linkWord (sel : Nat) (peer : BitVec 4) (s : State) : Word :=
  if sel = 0 then
    BitVec.ofNat 64 ((List.range 8).foldl (fun acc i =>
      let k := s.skein (BitVec.ofNat 3 i)
      acc + (k.st.code + (if k.pending then 4 else 0)) * 8 ^ i) 0)
  else if peer = s.nodeId then 0
  else match sel with
    | 1 => fibreMask (s.fibres peer .active)
    | 2 => fibreMask (s.fibres peer .failed)
    | 3 => fibreMask (s.fibres peer .locked)
    | 4 =>
      let n := s.liveLanes peer
      BitVec.ofNat 64 (min (s.queued peer) (2 ^ 32 - 1) + (if n < 32 then 2 ^ 32 else 0) + (if n = 0 then 2 ^ 33 else 0))
    | _ => 0

/-- lnst (R367). -/
def execLnst (d a : BitVec 5) (m : Bool) (s : State) : Out :=
  .next (reply d (linkWord (bitsOf (s.x a) 0 8) ((s.x a).extractLsb' 8 4) s) m s)

/-- The number of a gateway in its gallery; 0 on a service hart (R368). -/
def gatewayIndex (h : Nat) : Nat := if hartKind h = 1 then (h - 1024) % 16 else 0

/-- gwtake (R368). -/
def execGwtake (d a : BitVec 5) (m : Bool) (s : State) : Out :=
  if hartKind s.hart.num = 0 then .next (trap 0x05 0 s)
  else
    let v := s.x a
    let rid : BitVec 16 := v.extractLsb' 32 16
    let b : BitVec 32 := if rid = s.hart.gwRid then s.hart.gwNext else BitVec.ofNat 32 (gatewayIndex s.hart.num)
    let take := decide (b.toNat < bitsOf v 0 32)
    let s1 := s.onHart (fun h => { h with gwRid := rid, gwNext := if take then b + 16 else b })
    .next (reply d (if take then zext64 b else BitVec.allOnes 64) m s1)

end Sys2Proof.Machine
end

