-- ==== Sys2Proof/Machine/Gang.lean ====
section
/-! DEFINITION. The tree of regions, gang stops and resumes (14, R392 to R394; 15, R409, R410), discarded operations
(R192), and the end of a region (R390). -/

namespace Sys2Proof.Machine

/-! ### The tree of regions (R370, R373) -/

/-- A region and its ancestors, itself first. -/
def State.ancestors (s : State) : Nat → BitVec 16 → List (BitVec 16)
  | 0, _ => []
  | fuel + 1, r => match s.region? r with
    | none => []
    | some g => r :: (match g.parent with | some p => s.ancestors fuel p | none => [])

/-- A region and its ancestors. -/
def State.lineage (s : State) (r : BitVec 16) : List (BitVec 16) := s.ancestors s.regions.length r

/-- A region and its descendants. -/
def State.subtree (s : State) (a : BitVec 16) : List (BitVec 16) :=
  (s.regions.map (·.num)).filter (fun r => (s.lineage r).contains a)

/-- A region replaced. -/
def State.setRegion (s : State) (g : Region) : State :=
  { s with regions := s.regions.map (fun h => if h.num = g.num then g else h) }

/-- The switch state of a region. -/
def State.switchOf (s : State) (r : BitVec 16) : Option Switch := (s.region? r).map (fun g => g.switch)

/-- The switch state of regions set. -/
def State.setSwitch (s : State) (rs : List (BitVec 16)) (f : Switch → Switch) : State :=
  { s with regions := s.regions.map (fun g => if rs.contains g.num then { g with switch := f g.switch } else g) }

/-- Every hart, by number. -/
def State.allHarts (s : State) : List Hart := putHart s.hart s.others

/-- The harts that run nodes of regions, ascending. -/
def State.hartsOf (s : State) (rs : List (BitVec 16)) : List Nat :=
  (s.allHarts.filter (fun h => match h.region with | some r => rs.contains r | none => false)).map (·.num)

/-- An owner register written (R140); 0xFFFF is what an unlisted one holds. -/
def State.setOwner (s : State) (h : Nat) (r : BitVec 16) : State :=
  { s with owner := (assocSet s.owner h r).filter (fun p => p.2 != 0xFFFF) }

/-! ### Stopping a hart (R72, R136, R191, R215, R302, R408) -/

/-- Where a stopped hart goes on: a wait that a gang stop abandons is tried again, twait and sleep keep the time left, a
wfi ends. -/
def Hart.stopRun (now : Word) (h : Hart) : Hart :=
  let timed (k : BitVec 2) (dl : Word) (d : BitVec 5) (m : Bool) : Run :=
    .timed k (if k = 2 then dl else BitVec.ofNat 64 (dl.toNat - now.toNat)) d m
  match h.run with
  | .free | .halted | .stopped _ => h
  | .timed k dl d m => { h with run := .stopped (timed k dl d m) }
  | .retention (some (k, dl, d)) m => { h with run := .stopped (timed k dl d m) }
  | .wfi m | .retention none m => let h1 := h.retire (h.pc + 4) m; { h1 with run := .stopped h1.run }
  | .parked => { h with run := .stopped .parked }
  | .parkTrap c pc epc v => { h with run := .stopped (.parkTrap c pc epc v) }
  | _ => { h with run := .stopped .running }

/-- A hart goes on where it stood. -/
def Run.again (now : Word) (r : Run) : Run :=
  match r with
  | .timed k left d m => .timed k (if k = 2 then left else now + left) d m
  | r => r

/-- Fetched stream data is discarded; the streams fetch again from their positions (R215). -/
def Hart.dropFetches (h : Hart) : Hart :=
  let h1 := (List.range 8).foldl (fun h i => h.orphan (BitVec.ofNat 5 (24 + i))) h
  { h1 with binds := h1.binds.map (fun b => b.map (fun b => if b.write then b else { b with fetched := b.pos, ready := [] })) }

/-- Outstanding loads are issued again on resume, and the faulted ones among them are recorded for it (R72, R392): what is
performed and brings a value stays so (R191). -/
def Hart.recallLoads (h : Hart) : Hart :=
  { h with
    ops := h.ops.map (fun o => if o.kind.isRead then { o with sent := none, fwd := [] } else o)
    recalled := h.recalled ++ h.faults ++ h.rets.filterMap (·.fault)
    faults := []
    rets := (h.rets.filter (fun r => r.fault.isNone || r.res.brings)).map (fun r => { r with fault := none }) }

/-- What a stop leaves unperformed waits for the resume (R72). -/
def Hart.holdOps (h : Hart) : Hart := { h with holdTo := h.nextOp }

/-- A read of this module that may be performed. -/
def State.readsHere (s : State) (o : Op) : Bool :=
  o.kind.isRead && s.hart.canPerform o && o.reads.all (fun r => gaNode (BitVec.ofNat 64 r.1) == s.nodeId)

/-- A gang stop drains every entry of the combining buffer (R158, R191): those that the rules of order let drain, then the stores and
the reads of this module that come before others, and at last the oldest entry, whatever it would wait for: an answer of another node
that the stopped hart does not see any more (log 29). -/
def flushStores : Nat → State → State
  | 0, s => s
  | n + 1, s =>
    match (List.range s.hart.comb.length).find? s.hart.drainable with
    | some k => flushStores n (drainEntry k s)
    | none =>
      match s.hart.ops.find? (fun o => (match o.kind with | .store _ _ b => !b | _ => false) && s.hart.canPerform o) with
      | some o => flushStores n (performOp o.id s)
      | none =>
        if s.hart.comb.isEmpty then s
        else match s.hart.ops.find? s.readsHere with
          | some o => flushStores n (performOp o.id s)
          | none => flushStores n (drainNow 0 s)

/-- A hart stops with its region (R392). -/
def stopHart (n : Nat) (s : State) : State :=
  let s1 := s.withHart n (fun t =>
    let t1 := t.onHart (fun h => (h.stopRun t.now).drainAll)
    holdCopies ((flushStores (t1.hart.ops.length + t1.hart.comb.length) t1).onHart (fun h => h.dropFetches.recallLoads)))
  ((withdraw n (stopQueue n s1)).modHart n Hart.holdOps).farOver n (fun _ => true)

/-- A hart that a resume lets go on: recorded loads are issued again, at once or when there is room, journals and copies are replayed
(R72, R250, R337). -/
def resumeHart (run : Hart → Run) (n : Nat) (s : State) : State :=
  let s1 := s.modHart n (fun h => { h with run := run h, back := none, gstopEret := false })
  (if n < 1024 then relockQueue n s1 else s1).withHart n (fun t => replayCopies (reissueRecalled t))

/-! ### Discarding (R192, R392, R414) -/

/-- The unperformed operations of a spindle are retired as a discarded span (R192). -/
def Spindle.discard (p : Spindle) : Spindle :=
  if p.perf = p.issue then p
  else { p with span := some ((p.span.map (·.1)).getD p.perf, p.issue), perf := p.issue, mark := p.mark && !reached p.issue p.xseq }

/-- A hart without a node: free, nothing outstanding. -/
def Hart.vacant (h : Hart) : Hart :=
  { h with
    ops := []
    rets := []
    faults := []
    comb := []
    cmds := []
    binds := Vector.replicate 8 none
    run := .free
    node := none
    back := none
    gstopEret := false
    holdTo := 0
    recalled := []
    writes := []
    irqs := h.irqs.filter (fun q => q.cause != 0x0C && q.cause != 0x12 && q.cause != 0x13) }

/-- Everything of a hart's node is discarded. -/
def Hart.discard (h : Hart) : Hart :=
  (({ h with sp := h.sp.map Spindle.discard }).dropCopies.clearMessages).vacant

/-- An engine without the tiles of a hart. -/
def Engine.forget (n : Nat) (e : Engine) : Engine :=
  { e with
    busIn := e.busIn.filter (fun b => b.hart != n)
    tile := e.tile.filter (fun p => p.1 != n) }

/-- A packet that an operation of a hart alone sent under a region; a read may serve other harts too (R159). -/
def Packet.ofHart (n : Nat) (node : BitVec 4) (region : Option (BitVec 16)) : Packet → Bool
  | .write _ h _ acc => h == n && acc.region == region
  | .request _ h _ acc => h == n && acc.kind != .read && acc.region == region
  | .message _ m => m.srcNode == node && m.srcHart.toNat == n && m.region == region
  | _ => false

/-- A hart's node is discarded and the hart is free (R392, R414): what its operations have waiting for an output goes with
them (R192). -/
def discardHart (n : Nat) (s : State) : State :=
  let s1 := s.modHart n Hart.discard
  let s2 := { s1 with
    locks := s1.locks.filter (fun l => l.hart != some n)
    engines := s1.engines.map (Engine.forget n)
    sendq := s1.sendq.filter (fun i => !i.pkt.ofHart n s.nodeId (s.getHart n).region) }
  (s2.setOwner n 0xFFFF).farOver n (fun _ => true)

/-! ### The end of a region (R371, R390, R392) -/

/-- The record of a region's creation (0) or end (1), to its parent's queue (R427). -/
def lifeRecord (g : Region) (what : Nat) (s : State) : State :=
  let a0 := g.num.toNat + what * 2 ^ 32
  match g.parent with
  | none => firmwareRecord 0x07 0xFFFF g.num.toNat a0 0xFFFF s
  | some p => reportTo p 0x07 0xFFFF g.num.toNat a0 p.toNat s

/-- The region a release concerns. -/
def ReleaseWhat.region : ReleaseWhat → BitVec 16
  | .register n => n.region
  | .decrement r _ => r

/-- The span a spindle records when what its saved copy holds unperformed is discarded (R192): from the DLO of a span the saved copy
records, or else its PERF, to the spindle's own ISSUE. -/
def Spindle.withSpan (p saved : Spindle) : Spindle :=
  if saved.perf = saved.issue then p else { p with span := some ((saved.span.map (·.1)).getD saved.perf, p.issue) }

/-- The discarded spans of a lent hart's spindles go to the hart that bears its number. -/
def spanBack (l : Hart) (s : State) : State :=
  s.modHart l.num (fun h => { h with sp := Vector.ofFn (fun i => (h.sp[i]).withSpan l.sp[i]) })

/-- A region without children ends: nodes, harts, stairwells and releases go, and the number is freed. The slices and frames
it held last keep what it left until another region takes them: they then belong to no region that can be named (R381). -/
def dropRegion (r : BitVec 16) (s : State) : State :=
  match s.region? r with
  | none => s
  | some g =>
    let s1 := releaseRegionSeqs r (lifeRecord g 1 s)
    let s2 := (s1.hartsOf [r]).foldl (fun st n => discardHart n st) s1
    let s3 := (s2.lent.filter (fun l => l.region == r)).foldl (fun st l => l.harts.foldl (fun st h => spanBack h st) st) s2
    let forget (l : List (Nat × BitVec 16)) : List (Nat × BitVec 16) := l.map (fun p => if p.2 = r then (p.1, 0xFFFF) else p)
    let regions := s3.regions.filter (fun h => h.num != r)
    { s3 with
      regions := regions
      locks := s3.locks.filter (fun l => l.region != some r)
      nodes := s3.nodes.filter (fun n => n.region != r)
      releases := s3.releases.filter (fun p => p.what.region != r)
      lent := s3.lent.filter (fun l => l.region != r)
      rgAlias := s3.rgAlias.map (fun w => if w.extractLsb' 16 16 = r then 0 else w)
      lastOwner := forget s3.lastOwner
      lastFrame := forget s3.lastFrame
      intervals := s3.intervals.filter (fun i => regions.any (fun h => h.fdom == i.dom)) }

/-- A region has no registered node, none about to be registered, and no child (R390). -/
def State.idleRegion (s : State) (r : BitVec 16) : Bool :=
  !s.nodes.any (fun n => n.region == r) && !s.regions.any (fun g => g.parent == some r)
    && !s.releases.any (fun p => match p.what with | .register n => n.region == r | _ => false)

/-- A region that has become idle ends, and then perhaps its parent. -/
def endIdle : Nat → BitVec 16 → State → State
  | 0, _, s => s
  | fuel + 1, r, s =>
    match s.region? r with
    | none => s
    | some g =>
      if s.idleRegion r then
        match g.parent with
        | some p => endIdle fuel p (dropRegion r s)
        | none => dropRegion r s
      else s

/-- A region's descendants end, then the region. -/
def endBelow : Nat → BitVec 16 → State → State
  | 0, _, s => s
  | fuel + 1, r, s =>
    match (s.subtree r).find? (fun q => !s.regions.any (fun g => g.parent == some q)) with
    | some q => endBelow fuel r (dropRegion q s)
    | none => s

/-- The topmost gang-stopped region above a region goes on when every stopped hart has returned (R410). -/
def gstopCheck (r : BitVec 16) (s : State) : State :=
  match ((s.lineage r).filter (fun q => match s.switchOf q with | some (.gstopped _) => true | _ => false)).getLast? with
  | none => s
  | some q =>
    if (s.hartsOf (s.subtree q)).all (fun n => let h := s.getHart n; h.back.isNone || h.gstopEret) then
      s.setSwitch [q] (fun w => .gresuming (s.now + 64) (match w with | .gstopped e => e | _ => none))
    else s

/-- The harts of regions stop, those that are not stopped yet (R392). -/
def stopAll (rs : List (BitVec 16)) (s : State) : State :=
  ((s.hartsOf rs).filter (fun n => match (s.getHart n).run with | .stopped _ => false | _ => true)).foldl
    (fun st n => stopHart n st) (rs.foldl (fun st q => abortRegion q st) s)

/-- END (R392): the region and its descendants stop, then nothing of them is left. -/
def endTree (r : BitVec 16) (s : State) : State :=
  match s.region? r with
  | none => s
  | some g =>
    let s1 := endBelow (s.regions.length + 1) r (stopAll (s.subtree r) s)
    match g.parent with
    | some p => endIdle s.regions.length p (gstopCheck p s1)
    | none => s1

/-! ### SUSPEND (R392, R393) -/

/-- Bytes of a hart record and of a frame record (R392, R393). -/
def hartRecord : Nat := 4096
def frameRecord : Nat := 6374400
/-- The bytes of a region's hart records (R374). -/
def Region.recordSpace (g : Region) : Nat := hartRecord * (8 * g.frames + g.gw + (if g.svc then 1 else 0))

/-- A record whose layout is not architectural is written to the save area: free bytes, 1,024 at a time (R393, log 28). -/
def fillSave (r : BitVec 16) : Nat → Nat → State → Bool × State
  | 0, _, s => (true, s)
  | n + 1, off, s =>
    let (b, s1) := freeBytes 1024 s
    let (ok, s2) := regionBytes (some r) off b s1
    if ok then fillSave r n (off + 1024) s2 else (false, s2)

/-- A save or restore was refused: the region ends (R375). -/
def saveFailed (r : BitVec 16) (addr : Nat) (s : State) : State :=
  firmwareRecord 0x12 0xFFFF r.toNat r.toNat addr (endTree r s)

/-- The hart records of a region written, in ascending order of hart number. -/
def saveHarts (r : BitVec 16) (s : State) : State :=
  match s.region? r with
  | none => s
  | some g =>
    let base := gaOff g.saveA
    let hs := (s.hartsOf [r]).zipIdx
    let (ok, s1, l) : Bool × State × List (Nat × Nat) := hs.foldl (fun (acc : Bool × State × List (Nat × Nat)) p =>
      if acc.1 then
        let (ok, st) := fillSave r (hartRecord / 1024) (base + hartRecord * p.2) acc.2.1
        (ok, st, acc.2.2 ++ [(p.1, acc.2.1.freeCtr)])
      else acc) (true, s, [])
    if ok then
      match s1.region? r with
      | some g1 => s1.setRegion { g1 with saves := l }
      | none => s1
    else saveFailed r g.saveA.toNat s1

/-- A non-replayable copy turns a gang stop into a rollback (R337, R414), asked for once. -/
def stopRollback (hs : List Nat) (s : State) : Option State :=
  (hs.find? (fun n => (s.getHart n).nonReplayable)).map (fun n =>
    let r := (s.getHart n).region
    if ((r.bind s.region?).map (fun g => s.rollbacks.any (fun p => p.1 == g.fdom))).getD false then s
    else
      let (v, s1) := s.takeFree
      askRollback r (v.setWidth 8) s1)

/-- A region and its descendants are suspended at T (R392). -/
def suspendTree (r : BitVec 16) (t : Word) (s : State) : State :=
  let rs := s.subtree r
  let hs := s.hartsOf rs
  match stopRollback hs s with
  | some s1 => s1.setSwitch [r] (fun _ => .running)
  | none =>
    let s2 := stopAll rs s
    let s3 := s2.setSwitch rs (fun w => match w with | .ending e _ | .resuming _ (some e) => .ending e true | _ => .suspended)
    let s4 := s3.setSwitch [r] (fun _ => .suspended)
    let s5 := rs.foldl (fun st q => saveHarts q st) s4
    regionRecord r 0x08 0xFFFF t.toNat 0 s5

/-- gstop's stop at T (R410): each stopped hart gets interrupt 0x13. A hart in M mode with interrupts off goes on, with its
loads, until it takes it (log 29). -/
def gstopTree (r : BitVec 16) (s : State) : State :=
  let rs := s.subtree r
  let hs := s.hartsOf rs
  match stopRollback hs s with
  | some s1 => s1.setSwitch [r] (fun _ => .running)
  | none =>
    let s2 := stopAll rs s
    let mark (h : Hart) : Hart := match h.run with
      | .stopped was =>
        let open_ := h.level != .M || h.bankM.ie
        { h with
          back := some (if open_ then was else .running)
          run := if open_ then .running else was.again s2.now
          gstopEret := false
          holdTo := if open_ then h.holdTo else 0
          irqs := h.irqs ++ [(⟨0x13, BitVec.ofNat 64 (h.num + r.toNat * 2 ^ 16), 0, 0⟩ : Irq)] }
      | _ => h
    let s3 := hs.foldl (fun st n => (st.modHart n mark).withHart n (fun t => if t.hart.holdTo = 0 then reissueRecalled t else t)) s2
    gstopCheck r (s3.setSwitch rs (fun w => .gstopped (match w with | .ending e _ => some e | _ => none)))

/-- The tick at which a switch stops its region has come (R392, R410). -/
def Switch.stopDue (w : Switch) (now : Word) : Bool :=
  match w with
  | .suspending t | .ending t false | .gstopping t | .gstopped (some t) | .gresuming _ (some t) => decide (t.toNat ≤ now.toNat)
  | _ => false

/-- The tick at which a region stops, by itself or with an ancestor, has come: none of its harts issues any more (R392). -/
def State.stopsNow (s : State) (r : BitVec 16) : Bool :=
  (s.lineage r).any (fun q => match s.switchOf q with | some w => w.stopDue s.now | none => false)

/-- GANG_STOP (R392, R410): the tick of a region's pending stop has come. An END that meets a non-replayable copy has the rollback come first,
and stays pending (R337, R414; log 43). -/
def gangStop (r : BitVec 16) (s : State) : State :=
  match s.switchOf r with
  | some (.suspending t) => if t.toNat ≤ s.now.toNat then suspendTree r t s else s
  | some (.ending t _) | some (.gstopped (some t)) | some (.gresuming _ (some t)) =>
    if t.toNat ≤ s.now.toNat then (stopRollback (s.hartsOf (s.subtree r)) s).getD (endTree r s) else s
  | some (.gstopping t) => if t.toNat ≤ s.now.toNat then gstopTree r s else s
  | _ => s

/-! ### Lent frames (R393) -/

/-- A region, or an ancestor with it, is about to be resumed (R394). -/
def State.resumes (s : State) (r : BitVec 16) : Bool :=
  (s.lineage r).any (fun q => match s.switchOf q with | some (.resuming ..) => true | _ => false)

/-- The save area of a region has room for some frame records beyond those of its lent frames (R393). -/
def State.lendRoom (s : State) (g : Region) (more : Nat) : Bool :=
  decide (frameRecord * ((s.lent.filter (fun l => l.region == g.num)).length + more) + g.recordSpace ≤ g.saveSz.toNat)

/-- Frames of a suspended region whose records have room beyond the hart records, and that are not lent yet; none once its
RESUME is accepted. -/
def State.lendable (s : State) (f : Nat) : Bool :=
  match s.frameHolder f with
  | none => false
  | some r =>
    match s.region? r with
    | none => false
    | some g =>
      (match g.switch with | .suspended => !s.resumes r | _ => false)
        && s.lendRoom g 1
        && !(List.range 8).any (fun i => (s.reservedTo (8 * f + i)).isSome)

/-- The keys of a hart's slice. -/
def sliceLo (s : State) (h : Nat) : Nat := memKey s.nodeId h 0
def sliceHi (s : State) (h : Nat) : Nat := memKey s.nodeId h sliceSize
/-- The bytes of a slice that are not zero. -/
def sliceBytes (s : State) (h : Nat) : List (Nat × Byte) :=
  s.mem.filter (fun p => sliceLo s h ≤ p.1 && p.1 < sliceHi s h)

/-- Every spindle settled. -/
def Hart.settled (h : Hart) : Hart := { h with sp := h.sp.map (fun p => Spindle.mk p.issue p.issue p.status p.xseq p.mark p.span p.gen) }

/-- A frame's record is saved and the frame is free for another region (R393). -/
def lendFrame (f : Nat) (s : State) : State :=
  match (s.frameHolder f).bind s.region? with
  | none => s
  | some g =>
    let k := (s.lent.filter (fun l => l.region == g.num)).length
    let at_ := gaOff g.saveA + g.recordSpace + frameRecord * k
    let (ok, s1) := fillSave g.num (frameRecord / 1024) at_ s
    if ok then
      let ns := frameHarts f
      let l : Lent := ⟨f, g.num, (ns.map s1.getHart).filter (fun h => h.node.isSome), s1.engine f,
        ns.flatMap (sliceBytes s1), s1.bankFmt.filter (fun p => p.1 / 64 = f), at_, s.freeCtr⟩
      let s2 := l.harts.foldl (fun st h =>
        (st.modHart h.num (fun h => (h.settled.dropCopies).clearMessages.vacant)).setOwner h.num 0xFFFF) s1
      { s2 with lent := s2.lent ++ [l] }
    else saveFailed g.num (g.saveA.toNat + g.recordSpace + frameRecord * k) s1

/-- Every hart of a frame is free of nodes. -/
def State.frameFree (s : State) (f : Nat) : Bool := (frameHarts f).all (fun n => (s.getHart n).node.isNone)

/-- Whether the next records of 1,024 bytes still hold the free values they were written with (R393); none when a read of the
save area faults (R375) or meets a memory error, which is reported (R415). -/
def recordIntact (r : BitVec 16) (off : Nat) : Nat → Nat → State → Option Bool × State
  | 0, _, s => (some true, s)
  | n + 1, ctr, s =>
    match s.region? r with
    | none => (none, s)
    | some g =>
      let t := translateLocal s .walker (some r) g.enter .load true true off
      if t.cause = awaitRemote then (none, reportPoison (some r) t.key t.st)
      else if t.cause ≠ 0 then (none, t.st)
      else if (t.st.poisonIn t.key 1024).isSome then (none, reportPoison (some r) ((t.st.poisonIn t.key 1024).getD 0) t.st)
      else if t.st.readKey t.key 1024 == (List.range 1024).map (fun j => (Config.free64 (ctr + j)).setWidth 8) then
        recordIntact r (off + 1024) n (ctr + 1024) t.st
      else (some false, t.st)

/-- Free words (R11). -/
def freeWords : Nat → State → List Word × State
  | 0, s => ([], s)
  | n + 1, s => let (v, s1) := s.takeFree; let (l, s2) := freeWords n s1; (v :: l, s2)

/-- The stores of an engine hold free values (R11). -/
def undefineEngine (f : Nat) (s : State) : State :=
  let e := s.engine f
  let (acc, s1) := freeCells (List.range (128 * 512)) e.acc s
  let (cim, s2) := freeCells (List.range (480 * 512 * 16)) e.cim s1
  let (sc, s3) := freeCells (List.range (10 * 512 * 16)) e.scale s2
  let (l, s4) := freeWords 8 s3
  let w (i : Nat) : Word := (l[i]?).getD 0
  s4.setEngine { e with
    acc := acc
    cim := cim
    scale := sc
    lo := (w 0).setWidth 32
    h := (w 1).setWidth 32
    hinv := (w 2).setWidth 32
    g := (w 3).setWidth 4
    p := (w 4).setWidth 2
    mode := (w 5).setWidth 2
    cntLo := (w 6).setWidth 32
    cntHi := (w 7).setWidth 32 }

/-- A frame whose record was changed in the save area: its slices, its stores and its format registers are undefined (R11,
R393). -/
def undefineFrame (f : Nat) (s : State) : State :=
  let s1 := (frameHarts f).foldl (fun st n =>
    let (b, t) := freeBytes sliceSize st
    { t with mem := t.mem.store (sliceLo t n) b }) s
  let (l, s2) := freeWords 64 s1
  let fmts := (l.zipIdx.foldl (fun m p => assocSet m (64 * f + p.2) (fmtStored p.1)) s2.bankFmt).filter (fun p => p.2 != 0)
  let s3 := { s2 with bankFmt := fmts }
  undefineEngine f s3

/-- A lent frame gets its record back (R394): its harts and its stores; undefined stores when the record was changed; a
refused read ends the region (R375). The harts' spindles are those of the record, so that ISSUE and PERF go back below what a borrower's
node reached on the hart, whose exported tokens are then refused, or taken for others: the spec does not say otherwise (log 28). -/
def restoreFrame (l : Lent) (s0 : State) : State :=
  let (intact, s) := recordIntact l.region l.at_ (frameRecord / 1024) l.ctr s0
  if intact.isNone then saveFailed l.region (mkGa s.nodeId hbmCore l.at_).toNat s
  else
    let ns := frameHarts l.frame
    let cleared := ns.foldl (fun m n => Cells.clear m (sliceLo s n) (sliceHi s n)) s.mem
    let s1 := { s with
      mem := setCells cleared l.bytes
      bankFmt := l.fmts.foldl (fun b (p : Nat × Word) => assocSet b p.1 p.2) (s.bankFmt.filter (fun p => p.1 / 64 ≠ l.frame))
      lastFrame := assocSet s.lastFrame l.frame l.region
      lastOwner := l.harts.foldl (fun o (h : Hart) => assocSet o h.num l.region) s.lastOwner
      lent := s.lent.filter (fun k => !(k.frame == l.frame && k.region == l.region)) }
    let s2 := s1.setEngine { l.engine with busIn := [], tile := none }
    let s3 := l.harts.foldl (fun st h => (st.setHart h).setOwner h.num l.region) s2
    if intact = some true then s3 else undefineFrame l.frame s3

/-- A hart whose record was changed in the save area: its registers are undefined (R11, R393). -/
def undefineHart (n : Nat) (s : State) : State :=
  let (l, s1) := freeWords 305 s
  let w (i : Nat) : Word := (l[i]?).getD 0
  s1.modHart n (fun h => { h with
    x := Vector.ofFn (fun i => w i.val)
    ox := Vector.ofFn (fun i => w (32 + i.val))
    k := Vector.ofFn (fun i => w (40 + i.val))
    v := Vector.ofFn (fun i => BitVec.ofNat 512 ((List.range 8).foldl (fun a j => a + (w (48 + 8 * i.val + j)).toNat * 2 ^ (64 * j)) 0))
    pc := w 304 &&& ~~~1#64 })

/-- The hart records of a region read back; a refusal ends the region (R375, R394). -/
def restoreHarts (r : BitVec 16) (s : State) : State :=
  match s.region? r with
  | none => s
  | some g =>
    let s1 := g.saves.zipIdx.foldl (fun st p =>
      match recordIntact r (gaOff g.saveA + hartRecord * p.2) (hartRecord / 1024) p.1.2 st with
      | (some true, t) => t
      | (some false, t) => undefineHart p.1.1 t
      | (none, t) => if (t.region? r).isSome then saveFailed r (g.saveA.toNat + hartRecord * p.2) t else t) s
    match s1.region? r with
    | some g1 => s1.setRegion { g1 with saves := [] }
    | none => s1

/-- GANG_RESUME (R394): at T′ every hart of the region goes on. -/
def gangResume (r : BitVec 16) (s : State) : State :=
  match s.switchOf r with
  | some (.resuming t e) =>
    if (s.lineage r).tail.any s.resumes then s
    else
      let rs := s.subtree r
      let ls := s.lent.filter (fun l => rs.contains l.region)
      if s.now.toNat < t.toNat || ls.any (fun l => !s.frameFree l.frame) then s
      else
        let s1 := ls.foldl (fun st l => if (st.region? l.region).isSome then restoreFrame l st else st) s
        let s2 := rs.foldl (fun st q => restoreHarts q st) s1
        let s3 := s2.setSwitch rs (fun w => match w with | .ending e _ | .resuming _ (some e) => .ending e false | _ => .running)
        let s4 := s3.setSwitch [r] (fun _ => match e with | some e => .ending e false | none => .running)
        let s5 := (s4.hartsOf rs).foldl (fun st n => resumeHart (fun h => match h.run with
          | .stopped w => w.again st.now
          | w => w) n st) s4
        regionRecord r 0x08 0xFFFF (if ls.isEmpty then t else s.now).toNat 1 s5
  | _ => s

/-- GSTOP_RESUME (R410): 64 ns after the last eret. -/
def gstopResume (r : BitVec 16) (s : State) : State :=
  match s.switchOf r with
  | some (.gresuming t _) =>
    if s.now.toNat < t.toNat then s
    else
      let rs := s.subtree r
      let s1 := s.setSwitch rs (fun w => match w with
        | .gstopped none | .gresuming _ none => .running
        | .gstopped (some e) | .gresuming _ (some e) => .ending e false
        | w => w)
      (s1.hartsOf rs).foldl (fun st n => resumeHart (fun h => match h.back with
        | some w => w.again st.now
        | none => h.run) n st) s1
  | _ => s

end Sys2Proof.Machine
end

