-- ==== Sys2Proof/Machine/Nodes.lean ====
section
/-! DEFINITION. The ready pool and the dispatcher (14, R376 to R382): descriptors, releases, the choice of R379, the
placement of R380 and the entry of R381. -/

namespace Sys2Proof.Machine

/-! ### Descriptors (R376, R377) -/

/-- The descriptor's fields. -/
def nodeOf (region : BitVec 16) (desc : Word) (b : List Byte) (succ : List Word) : NodeRec :=
  let ctl := dwordAt b 2
  { region := region
    desc := desc
    entry := dwordAt b 0
    args := dwordAt b 1
    kind := ctl.extractLsb' 0 2
    engine := ctl.getLsbD 2
    gang := ctl.getLsbD 3
    hold := ctl.getLsbD 4
    count := bitsOf ctl 8 12 + 1
    foot := bitsOf ctl 20 12
    pred := bitsOf ctl 32 16
    succ := succ
    ops := (List.range 4).map (fun i => dwordAt b (4 + i))
    readyAt := none
    order := 0
    placed := 0
    retired := 0
    bad := false
    held := false
    moved := [] }

/-- A descriptor without its list breaks a rule of R376 or R377. -/
def descBad (b : List Byte) : Bool :=
  let ctl := dwordAt b 2
  (dwordAt b 0).getLsbD 0 || bitsOf ctl 5 3 != 0 || bitsOf ctl 48 16 != 0 || bitsOf ctl 0 2 == 3
    || (ctl.getLsbD 2 && bitsOf ctl 0 2 != 0) || decide (bitsOf ctl 20 12 > 4032) || bitsOf (dwordAt b 3) 0 3 != 0
    || (List.range 4).any (fun i => bitsOf (dwordAt b (4 + i)) 6 2 != 0 || bitsOf (dwordAt b (4 + i)) 34 30 != 0)

/-- The count of a successor list is out of its range, or other bits of the dword are set. -/
def listBad (w : Word) : Bool := w.toNat > 16

/-- The harts of a kind that a region's budget permits (R373, R386). -/
def Region.limit (g : Region) (kind : BitVec 2) : Nat :=
  match kind.toNat with
  | 0 => g.frames
  | 1 => g.gw
  | _ => if g.svc then 1 else 0

/-- The kind is not permitted, or a gang is larger than the budget's harts of its kind (R385). -/
def overBudget (g : Region) (n : NodeRec) : Bool :=
  g.limit n.kind == 0 || (n.gang && decide (n.count > (if n.kind = 0 then 8 else 1) * g.limit n.kind))

/-- Nodes of a region that hold a POOL entry: registered, or waiting for their release point (R386). -/
def State.pooled (s : State) (r : BitVec 16) : List Word :=
  (s.nodes.filter (fun n => n.region == r)).map (·.desc)
    ++ s.releases.filterMap (fun p => match p.what with | .register n => if n.region = r then some n.desc else none | _ => none)

/-- The first code of a descriptor, 0 for none (R386): 2, 3, 4, 1. -/
def nodeCode (s : State) (g : Region) (bad : Bool) (n : NodeRec) : Nat :=
  if bad then 2
  else if overBudget g n then 3
  else if (s.pooled g.num).contains n.desc then 4
  else if (s.pooled g.num).length ≥ g.pool then 1
  else 0

/-- A descriptor read by the issuer's blocking loads (R385): the node and whether a field is invalid. -/
inductive DescRead where
  | got (n : NodeRec) (bad : Bool) (st : State)
  | wait (st : State)
  | fault (cause : BitVec 8) (addr : Word) (st : State)
deriving DecidableEq, Repr

/-- The descriptor at an address and its successor list, under the hart's own translation; a fault undoes the reads before it (R13). -/
def readDesc (region : BitVec 16) (a : Word) (s : State) : DescRead :=
  if a.toNat % 64 ≠ 0 then .fault 0x03 a s
  else match blockRange a 8 s with
    | .wait st => .wait st
    | .fault c x st => .fault c x st
    | .got b s1 =>
      let sa := dwordAt b 3
      if sa = 0 || sa.toNat % 8 ≠ 0 then .got (nodeOf region a b []) (descBad b) s1
      else match blockRange sa 1 s1 with
        | .wait st => .wait (s.waitAs st)
        | .fault c x st => .fault c x (s.undoReads st)
        | .got w s2 =>
          if listBad (dwordAt w 0) then .got (nodeOf region a b []) true s2
          else match blockRange (sa + 8) (dwordAt w 0).toNat s2 with
            | .wait st => .wait (s.waitAs st)
            | .fault c x st => .fault c x (s.undoReads st)
            | .got l s3 =>
              let succ := (List.range (dwordAt w 0).toNat).map (dwordAt l)
              .got (nodeOf region a b succ) (descBad b || succ.any (fun d => d.toNat % 64 != 0)) s3

/-- Dwords read by the dispatcher under a region's page table (R384, R390), for a hart and a use: refused, or with another node's reply
still on its way. -/
def regionWords (who : Nat) (u : FarUse) (r : BitVec 16) (a : Word) : Nat → State → Got × State
  | 0, s => (.bytes [], s)
  | n + 1, s =>
    let lv := match s.region? r with | some g => g.enter | none => .U
    let t := translateBy s .walker who (some r) lv .load a
    let more (b : List Byte) (st : State) : Got × State :=
      match regionWords who u r (a + 8) n st with
      | (.bytes l, s1) => (.bytes (b ++ l), s1)
      | x => x
    if t.cause = awaitRemote then (.wait, s.awaits t who (some r) lv .load a)
    else if t.cause ≠ 0 then (.fault t.cause t.reason, t.st)
    else if gaNode a = s.nodeId then
      if t.st.poisoned t.key then (.wait, reportPoison (some r) t.key t.st) else more (t.st.readKey t.key 8) t.st
    else match farRead ⟨who, 0, false, true⟩ u a t.key 8 ⟨s.nodeId, some r, false, .read, BitVec.ofNat 64 t.key, 8, 0, 0, 0, false⟩ t.st with
      | (.data d, s1) => more (bytesOfLine d t.key 8) s1
      | (.fault c w, s1) => (.fault c w, s1)
      | (_, s1) => (.wait, s1)

/-- The end of a descriptor's reads: the code, 2 for a refusal and 0 for a wait. -/
def Got.code : Got → Nat
  | .wait => 0
  | _ => 2

/-- A root descriptor read under the new region's page table (R384, R390): the node; without one, code 2, or 0 while a reply of another
node is on its way. -/
def regionDesc (who : Nat) (u : FarUse) (r : BitVec 16) (a : Word) (s : State) : Nat × Option NodeRec × State :=
  if a.toNat % 64 ≠ 0 then (2, none, s)
  else match regionWords who u r a 8 s with
    | (.bytes b, s1) =>
      let sa := dwordAt b 3
      if descBad b then (2, none, s1)
      else if sa = 0 then (0, some (nodeOf r a b []), s1)
      else match regionWords who u r sa 1 s1 with
        | (.bytes w, s2) =>
          if listBad (dwordAt w 0) then (2, none, s2)
          else match regionWords who u r (sa + 8) (dwordAt w 0).toNat s2 with
            | (.bytes l, s3) =>
              let succ := (List.range (dwordAt w 0).toNat).map (dwordAt l)
              if succ.any (fun d => d.toNat % 64 != 0) then (2, none, s3) else (0, some (nodeOf r a b succ), s3)
            | (x, s3) => (x.code, none, s3)
        | (x, s2) => (x.code, none, s2)
    | (x, s1) => (x.code, none, s1)

/-! ### The ready pool (R378, R382) -/

/-- A node enters the pool (R378): ready at once when it has no predecessor. -/
def registerNode (n : NodeRec) (s : State) : State :=
  { s with
    nodes := s.nodes ++ [{ n with order := s.nextOrder, readyAt := if n.pred = 0 then some s.now else none }]
    nextOrder := s.nextOrder + 1 }

/-- A predecessor count is decremented, or the release is dropped with a record (R378). -/
def decrement (r : BitVec 16) (desc : Word) (s : State) : State :=
  match s.nodes.find? (fun n => n.region == r && n.desc == desc) with
  | none => regionRecord r 0x05 0xFFFF desc.toNat 0 s
  | some n =>
    if n.pred = 0 then regionRecord r 0x05 0xFFFF desc.toNat 0 s
    else { s with nodes := s.nodes.map (fun m =>
      if m.region = r && m.desc = desc then
        { m with pred := m.pred - 1, readyAt := if m.pred = 1 then some s.now else m.readyAt }
      else m) }

/-- What a release does. -/
def applyRelease (w : ReleaseWhat) (s : State) : State :=
  match w with
  | .register n => if (s.region? n.region).isSome then registerNode n s else s
  | .decrement r d => if (s.region? r).isSome then decrement r d s else s

/-- The release point of the strands of a mask (R382). -/
def recordRelease (mask : Nat) (w : ReleaseWhat) (s : State) : State :=
  let h := s.hart
  let points := ((List.range 8).filter (fun i => mask.testBit i)).map (fun i => (BitVec.ofNat 3 i, (h.spin (BitVec.ofNat 3 i)).issue))
  { s with releases := s.releases ++ [⟨h.num, points, w⟩] }

/-- A recorded release point is performed; not while the hart's saved state lies in a frame record. -/
def State.releaseDue (s : State) (p : Release) : Bool :=
  !s.lent.any (fun l => l.harts.any (fun h => h.num == p.hart)) && p.points.all (fun q => (s.getHart p.hart).reachedAt q.1 q.2)

/-- RELEASE_POINT_PERFORMED (R382). -/
def releasePoint (k : Nat) (s : State) : State :=
  match s.releases[k]? with
  | none => s
  | some p =>
    if s.releaseDue p then applyRelease p.what { s with releases := s.releases.take k ++ s.releases.drop (k + 1) } else s

/-! ### Budgets and holding (R373, R380) -/

/-- The harts of a kind. -/
def kindHarts (kind : BitVec 2) : List Nat :=
  match kind.toNat with
  | 0 => List.range 1024
  | 1 => (List.range 64).map (· + 1024)
  | _ => (List.range 4).map (· + 1088)

/-- The region that holds a gateway or service hart. -/
def State.hartHolder (s : State) (h : Nat) : Option (BitVec 16) :=
  match (s.getHart h).region with
  | some r => some r
  | none => s.reservedTo h

/-- The harts that matter for holding: those of the state and the members of bound stairwells. -/
def State.unitsHeld (s : State) (kind : BitVec 2) (rs : List (BitVec 16)) : Nat :=
  let own (r : Option (BitVec 16)) : Bool := match r with | some r => rs.contains r | none => false
  if kind = 0 then ((List.range 128).filter (fun f => own (s.frameHolder f))).length
  else ((kindHarts kind).filter (fun h => own (s.hartHolder h))).length

/-- A region and its ancestors have room for more frames or harts (R373). -/
def State.budgetRoom (s : State) (r : BitVec 16) (kind : BitVec 2) (extra : Nat) : Bool :=
  (s.lineage r).all (fun a => match s.region? a with
    | some g => decide (s.unitsHeld kind (s.subtree a) + extra ≤ g.limit kind)
    | none => false)

/-- The budget tree has given the domains of a hart their caps (R418): the hart's own, and that of its frame's engine. -/
def State.capped (s : State) (h : Nat) : Bool :=
  let has (d : Nat) : Bool := s.domains.any (fun x => x.num == d && x.given.isSome)
  has (hartDomain h) && (decide (1024 ≤ h) || has (engineDomain (h / 8)))

/-- A hart that the dispatcher may take for a region; a reserved one only for a gang of its region (R291, R380). -/
def State.hartFree (s : State) (h : Nat) (r : BitVec 16) (gang : Bool) : Bool :=
  let t := s.getHart h
  s.present h && s.capped h && (match t.run with | .free => true | _ => false) && t.node.isNone
    && (match s.reservedTo h with | some q => gang && q == r | none => true)
    && !s.lent.any (fun l => l.frame == h / 8 && decide (h < 1024) && s.resumes l.region)

/-- A frame that no region holds, or that a suspended region can lend (R393). -/
def State.frameOpen (s : State) (f : Nat) : Bool := (s.frameHolder f).isNone || s.lendable f

/-- A hart free once a lendable frame is lent. -/
def State.hartOpen (s : State) (h : Nat) (r : BitVec 16) (gang : Bool) : Bool :=
  s.hartFree h r gang || (decide (h < 1024) && s.lendable (h / 8) && s.present h && s.capped h)

/-- The harts of a frame, in order, that a region may take. -/
def State.openIn (s : State) (f : Nat) (r : BitVec 16) : Option Nat := (frameHarts f).find? (fun h => s.hartOpen h r false)

/-- Where an instance that is no gang goes (R380). -/
def State.findHart (s : State) (n : NodeRec) : Option Nat :=
  let r := n.region
  if n.kind = 0 then
    match ((List.range 128).filter (fun f => s.frameHolder f == some r)).findSome? (fun f =>
        (frameHarts f).find? (fun h => s.hartFree h r false)) with
    | some h => some h
    | none =>
      if s.budgetRoom r 0 1 then ((List.range 128).filter s.frameOpen).findSome? (fun f => s.openIn f r) else none
  else if s.budgetRoom r n.kind 1 then (kindHarts n.kind).find? (fun h => s.hartFree h r false)
  else none

/-- Each frame of a run is the region's, or open; the frames of one suspended region all find room for their records (R393). -/
def State.framesOpen (s : State) (r : BitVec 16) (fs : List Nat) : Bool :=
  fs.zipIdx.all (fun p =>
    s.frameHolder p.1 == some r || (s.frameHolder p.1).isNone || (s.lendable p.1 && (match (s.frameHolder p.1).bind s.region? with
      | some g => s.lendRoom g (((fs.take p.2).filter (fun f => s.frameHolder f == some g.num)).length + 1)
      | none => false)))

/-- Where a gang goes: the lowest run of COUNT consecutive free harts (R380). -/
def State.findGang (s : State) (n : NodeRec) : Option Nat :=
  let r := n.region
  let first := (kindHarts n.kind).headD 0
  let room := (kindHarts n.kind).length
  if n.count > room then none
  else ((List.range (room - n.count + 1)).map (· + first)).find? (fun base =>
    let hs := (List.range n.count).map (· + base)
    hs.all (fun h => s.hartOpen h r true) &&
      (if n.kind = 0 then
        let fs := (hs.map hartFrame).eraseDups
        s.framesOpen r fs
          && s.budgetRoom r 0 (fs.filter (fun f => s.frameHolder f != some r)).length
      else s.budgetRoom r n.kind n.count))

/-! ### The choice (R379) -/

/-- A region whose nodes may be placed: neither it nor an ancestor is stopped. -/
def State.placeable (s : State) (r : BitVec 16) : Bool :=
  (s.region? r).isSome && !s.stopsNow r && (s.lineage r).all (fun q => match s.switchOf q with
    | some .running | some (.suspending _) | some (.ending _ false) => true
    | _ => false)

/-- Instances still to place. -/
def NodeRec.unplaced (n : NodeRec) : Bool := decide (n.placed < n.count) || !n.moved.isEmpty

/-- A ready node with an instance to place. -/
def State.waits (s : State) (n : NodeRec) : Bool := n.readyAt.isSome && n.unplaced && s.placeable n.region

/-- The effective priority of a ready node (R379). -/
def State.effPrio (s : State) (n : NodeRec) : Nat :=
  match n.readyAt, s.region? n.region with
  | some t, some g => min 7 (g.prio + (s.now.toNat - t.toNat) / 64000)
  | _, _ => 0

/-- The budget has room for one more placement of the node (R379 step 1). -/
def State.candidate (s : State) (n : NodeRec) : Bool :=
  s.waits n &&
    (s.budgetRoom n.region n.kind 1
      || (n.kind == 0 && (List.range 128).any (fun f => s.frameHolder f == some n.region
        && (n.gang || (frameHarts f).any (fun h => s.hartFree h n.region false)))))

/-- A region's virtual time is less than another's. -/
def Region.before (a b : Region) : Bool :=
  decide (a.vnum * b.vden < b.vnum * a.vden) || (a.vnum * b.vden == b.vnum * a.vden && decide (a.num.toNat < b.num.toNat))

/-- Regions gain candidates at a priority (R379): the virtual time is raised to the least of the regions that had candidates
there and still have them. -/
def catchUp (s : State) : State :=
  let cs := s.nodes.filter s.candidate
  let prios (r : BitVec 16) : List Nat := ((cs.filter (fun n => n.region == r)).map s.effPrio).eraseDups
  let regions := s.regions.map (fun g =>
    let new := (prios g.num).filter (fun p => !g.hadPrio.contains p)
    new.foldl (fun g p =>
      let others := s.regions.filter (fun o => o.num != g.num && o.hadPrio.contains p && (prios o.num).contains p)
      match others.foldl (fun (best : Option Region) o => match best with
          | none => some o
          | some b => if o.vnum * b.vden < b.vnum * o.vden then some o else some b) none with
      | some o => if g.vnum * o.vden < o.vnum * g.vden then { g with vnum := o.vnum, vden := o.vden } else g
      | none => g) g)
  { s with regions := regions.map (fun g => { g with hadPrio := prios g.num }) }

/-- A gang that was chosen and waits holds back the other nodes of its kind at its priority or below until it is placed, even while its
budget has no room or its region is stopped (R380); of two such gangs at one priority neither holds the other back (log 72). -/
def heldBack (s : State) (n : NodeRec) : Bool :=
  s.nodes.any (fun g => g.held && g.kind == n.kind
    && (decide (s.effPrio n < s.effPrio g) || (!n.held && s.effPrio n == s.effPrio g)))

/-- The candidates of a kind that may be chosen now; one that no hart can take is passed over. -/
def choices (s : State) (kind : BitVec 2) : List NodeRec :=
  s.nodes.filter (fun n => n.kind == kind && s.candidate n && !heldBack s n
    && (if n.gang then !n.held || (s.findGang n).isSome else (s.findHart n).isSome))

/-- The node chosen (R379 steps 2 to 4). -/
def choose (s : State) (kind : BitVec 2) : Option NodeRec :=
  let cs := choices s kind
  let top := (cs.map s.effPrio).foldl max 0
  let cs1 := cs.filter (fun n => s.effPrio n == top)
  let regs := (cs1.filterMap (fun n => s.region? n.region))
  match regs.foldl (fun (best : Option Region) g => match best with
      | none => some g
      | some b => if g.before b then some g else some b) none with
  | none => none
  | some g =>
    (cs1.filter (fun n => n.region == g.num)).foldl (fun (best : Option NodeRec) n => match best with
      | none => some n
      | some b =>
        let tn := (n.readyAt.getD 0).toNat
        let tb := (b.readyAt.getD 0).toNat
        if tn < tb || (tn == tb && decide (n.order < b.order)) then some n else some b) none

/-! ### Entry (R381) -/

/-- The forwarding to where a hart's last node went is forgotten once it is over (R359). -/
def dropForwards (h : Nat) (s : State) : State :=
  { s with forwards := s.forwards.filter (fun f => !(f.old == h && f.over s.now)) }

/-- The slice or local store is prepared for a region: zeroed when another region owned it last (log 31), owner and
formats set. -/
def prepareSlice (h : Nat) (g : Region) (s : State) : State :=
  let last := (s.lastOwner.find? (fun p => p.1 == h)).map (·.2)
  let fresh := last.isSome && last != some g.num
  let hi := if h = 1088 then memKey s.nodeId h 0x3E000 else sliceHi s h
  let m1 := if fresh then Cells.clear s.mem (sliceLo s h) hi else s.mem
  let m2 := if fresh && h == 1088 then Cells.clear m1 (memKey s.nodeId h 0x3F000) (sliceHi s h) else m1
  let s1 := { s with
    mem := m2
    lastOwner := assocSet s.lastOwner h g.num
    bankFmt := if h < 1024 then
        s.bankFmt.filter (fun p => !(decide (h / 4 * 32 + h % 4 * 8 ≤ p.1) && decide (p.1 < h / 4 * 32 + h % 4 * 8 + 8)))
      else s.bankFmt }
  s1.setOwner h g.num

/-- The resident state of a frame's engine in its reset state (R449). -/
def Engine.cleared (e : Engine) : Engine :=
  { e with
    acc := []
    cim := []
    scale := []
    lo := 0
    h := 0
    hinv := 0
    g := 0
    p := 0
    mode := 0
    cntLo := 0
    cntHi := 0 }

/-- A frame taken by a region that does not hold it yet. -/
def prepareFrame (f : Nat) (g : Region) (s : State) : State :=
  if s.frameHolder f = some g.num then s
  else
    let last := (s.lastFrame.find? (fun p => p.1 == f)).map (·.2)
    let s1 := { s with lastFrame := assocSet s.lastFrame f g.num }
    if last.isSome && last != some g.num then s1.setEngine (s1.engine f).cleared else s1

/-- BASE of ms.ovf (R358). -/
def ovfBase (g : Region) (h : Nat) : BitVec 31 :=
  if g.ovf = 0 then 0 else (g.ovf + BitVec.ofNat 64 (2 ^ 18 * h)).extractLsb' 18 31

/-- x2 at entry (R381). -/
def entryStack (node : BitVec 4) (h : Nat) : Word := mkGa node h (if h = 1088 then 0x3E000 else 0x3F000)

/-- A spindle at entry (R169). -/
def Spindle.entered (p : Spindle) (status : BitVec 17) : Spindle := { p with perf := p.issue, status := status, mark := p.mark && !reached p.issue p.xseq }

/-- The U bank at node entry (R396). -/
def TrapBank.entry : TrapBank := { TrapBank.reset with ie := true }

/-- A hart enters an instance (R381). -/
def Hart.enter (h : Hart) (node : BitVec 4) (g : Region) (n : NodeRec) (index : Nat) (now : Word) : Hart :=
  let fresh := Hart.reset h.num
  let x : Vector Word 32 := ((((fresh.x.set 2 (entryStack node h.num)).set 10 n.args).set 11 (BitVec.ofNat 64 index)).set 12
    (BitVec.ofNat 64 n.count)).set 13 (zext64 g.num)
  { h.vacant with
    level := g.enter
    pc := n.entry
    x := x
    v := fresh.v
    k := fresh.k
    ox := fresh.ox
    sp := h.sp.map (fun p => p.entered 0)
    bankU := TrapBank.entry
    fxRound := 0
    fxFlags := 0
    srSrc := 0
    srLost := false
    srStep := 0
    logb := 0
    logn := 0
    logp := 0
    cfg := 0
    engErr := none
    msOvf := ovfBase g h.num
    posts := h.posts.map (fun p => { Post.reset with gen := p.gen })
    ovfq := []
    gwRid := 0xFFFF#16
    gwNext := BitVec.ofNat 32 (gatewayIndex h.num)
    req := 5
    icnt := 0
    msent := 0
    mrecv := 0
    run := .running
    node := some ⟨n.region, n.desc, index, n.count, n.engine, n.gang⟩
    acq := Vector.replicate 8 now
    recInfo := [] }

/-- The pages of an operand whose USE is in or in-out are put into the TLBs, as pref does (R376); a memory error met on the way is
reported (R415). -/
def prefillOne (n : NodeRec) (op : Word) (s : State) : State :=
  if bitsOf op 32 2 = 1 || bitsOf op 32 2 = 3 then
    let a := n.args + BitVec.ofNat 64 (8 * bitsOf op 0 6)
    let t := scoutTranslate s s.hart.region s.hart.level .load a
    if gaNode a ≠ s.nodeId then s
    else if t.cause = awaitRemote || (t.cause = 0 && s.poisoned t.key) then reportPoison s.hart.region t.key s
    else if t.cause ≠ 0 then s
    else
      let p := leWord (s.readKey t.key 8)
      let len := bitsOf op 8 24 * 64
      if len = 0 || gaCore p ≠ hbmCore then s
      else prefPages p ((p.toNat % 65536 + len - 1) / 65536 + 1) s
  else s

/-- An instance is placed on a hart and enters (R380, R381). -/
def placeOn (h : Nat) (n : NodeRec) (index : Nat) (s : State) : State :=
  match s.region? n.region with
  | none => s
  | some g =>
    let s1 := if h < 1024 then prepareFrame (h / 8) g s else s
    let s2 := dropForwards h (prepareSlice h g s1)
    let s3 := s2.modHart h (fun t => t.enter s.nodeId g n index s.now)
    s3.withHart h (fun t => n.ops.foldl (fun st op => prefillOne n op st) t)

/-! ### An instance that nyield moved (R389) -/

/-- The registers of a moved instance on its new hart: the spindles' counts, the journal, the fetch duty and the replay
count are the new hart's; x2 first, then nyield's own answer (R389). -/
def Hart.movedTo (m h : Hart) (d : BitVec 5) (node : BitVec 4) (g : Region) (now : Word) : Hart :=
  let x2 : Word := ((m.rx 2) &&& 0x1FFFFFFFFFFFF#64) ||| mkGa node h.num 0
  Hart.wx { m with
    num := h.num
    x := m.x.set 2 x2
    sp := Vector.ofFn (fun i => (h.sp[i]).entered (m.sp[i]).status)
    copies := h.copies
    duty := h.duty
    rcnt := h.rcnt
    msOvf := ovfBase g h.num
    gwRid := 0xFFFF#16
    gwNext := BitVec.ofNat 32 (gatewayIndex h.num)
    posts := h.posts.map (fun p => { Post.reset with gen := p.gen })
    nextOp := h.nextOp
    acq := Vector.replicate 8 now
    perfAt := h.perfAt
    cycle := h.cycle } d 1

/-- A payload that waits in the old hart's overflow area goes to the new one's (log 30). -/
def moveQueued (r : BitVec 16) (old new : Hart) (q : Queued) (s : State) : State :=
  match s.region? r with
  | none => s
  | some g =>
    let t := translateLocal s .walker (some r) g.enter .load true true (old.ovfOffset q.entry)
    if t.cause = awaitRemote then reportPoison (some r) t.key t.st
    else if t.cause = 0 && (t.st.poisonIn t.key q.len).isSome then reportPoison (some r) ((t.st.poisonIn t.key q.len).getD 0) t.st
    else if t.cause = 0 then (regionBytes (some r) (new.ovfOffset q.entry) (t.st.readKey t.key q.len) t.st).2 else t.st

/-- The bytes of the save area that an instance of a node takes: a hart record and the footprint, as far as the area reaches
(R389, log 28). -/
def savedBytes (g : Region) (n : NodeRec) : Nat := min (hartRecord + 64 * n.foot) g.saveSz.toNat

/-- Records of 1,024 bytes of the save area can be read, or the place of the first that cannot (R375). -/
def saveReads (g : Region) : Nat → Nat → State → Option Nat × State
  | 0, _, s => (none, s)
  | k + 1, off, s =>
    let t := translateLocal s .walker (some g.num) g.enter .load true true off
    if t.cause = awaitRemote then (some off, reportPoison (some g.num) t.key t.st)
    else if t.cause = 0 then saveReads g k (off + 1024) t.st else (some off, t.st)

/-- The forwarding of a moved instance begins: what was forwarded from its new hart for the region is over (R359). -/
def forwardFrom (old new : Nat) (r : BitVec 16) (s : State) : State :=
  { s with forwards := s.forwards.filter (fun f => !(f.old == new && f.region == r)) ++ [⟨old, new, r, s.now + 100000, false⟩] }

/-- A moved instance goes on at a new hart; a refused read of the save area ends the region (R375, R389). -/
def placeMoved (h : Nat) (n : NodeRec) (m : Moved) (s0 : State) : State :=
  match s0.region? n.region with
  | none => s0
  | some g => match saveReads g (savedBytes g n / 1024) (gaOff g.saveA) s0 with
  | (some off, s) => saveFailed g.num (mkGa s.nodeId hbmCore off).toNat s
  | (none, s) =>
    let s1 := if h < 1024 then prepareFrame (h / 8) g s else s
    let s2 := dropForwards h (prepareSlice h g s1)
    let base := sliceLo s h
    let mem := setCells (Cells.clear s2.mem base (base + 64 * n.foot)) (m.bytes.map (fun p => (base + p.1, p.2)))
    let s3 := (forwardFrom m.hart.num h n.region { s2 with mem := mem }).modHart h (fun t => m.hart.movedTo t m.dest s.nodeId g s.now)
    m.hart.ovfq.foldl (fun st q => moveQueued n.region m.hart (st.getHart h) q st) s3

/-! ### DISPATCH -/

/-- The node's record changed. -/
def State.setNode (s : State) (n : NodeRec) : State :=
  { s with nodes := s.nodes.map (fun m => if m.region = n.region && m.desc = n.desc then n else m) }

/-- A region's virtual time after k placements of a kind (R379 step 5). -/
def Region.charge (g : Region) (kind : BitVec 2) (k : Nat) : Region :=
  let w := max 1 (match kind.toNat with | 0 => g.frames | 1 => g.gw | _ => 1)
  let a := g.vnum * w + k * g.vden
  let b := g.vden * w
  { g with vnum := a / Nat.gcd a b, vden := b / Nat.gcd a b }

/-- The region charged. -/
def chargeRegion (r : BitVec 16) (kind : BitVec 2) (k : Nat) (s : State) : State :=
  match s.region? r with
  | some g => s.setRegion (g.charge kind k)
  | none => s

/-- Frames of the harts lent when a suspended region holds them. -/
def lendFor (hs : List Nat) (s : State) : State :=
  (((hs.filter (fun h => h < 1024)).map hartFrame).eraseDups).foldl (fun st f => if st.lendable f then lendFrame f st else st) s

/-- The lowest-numbered instance still to place: one that moved, or the next one. -/
def NodeRec.lowest (n : NodeRec) : Option Moved :=
  n.moved.foldl (fun (best : Option Moved) m => match best with
    | none => some m
    | some b => if m.index < b.index then some m else some b) none

/-- A chosen node placed; a gang that cannot be placed waits (R380). -/
def placeNode (n : NodeRec) (s : State) : State :=
  if n.gang then
    match s.findGang n with
    | none => s.setNode { n with held := true }
    | some base =>
      let hs := (List.range n.count).map (· + base)
      let s1 := (lendFor hs s).setNode { n with placed := n.count, held := false }
      let s2 := (List.range n.count).foldl (fun st i => placeOn (base + i) n i st) s1
      chargeRegion n.region n.kind n.count s2
  else
    match s.findHart n with
    | none => s
    | some h =>
      let s1 := lendFor [h] s
      match n.lowest with
      | some m =>
        let n1 := { n with moved := n.moved.filter (fun q => q.index != m.index) }
        chargeRegion n.region n.kind 1 (placeMoved h n m (s1.setNode n1))
      | none =>
        chargeRegion n.region n.kind 1 (placeOn h n n.placed (s1.setNode { n with placed := n.placed + 1 }))

/-- One decision of the dispatcher: the first kind with a choice; without one, only what the regions keep for the choice may
change. -/
def dispatchOne (s : State) : Option State :=
  let s1 := catchUp s
  match [0, 1, 2].findSome? (fun k => choose s1 (BitVec.ofNat 2 k)) with
  | some n => some (placeNode n s1)
  | none => if s1.regions = s.regions then none else some s1

/-- Decisions until none can be placed (R379). -/
def dispatchAll : Nat → State → State
  | 0, s => s
  | fuel + 1, s => match dispatchOne s with
    | some s1 => dispatchAll fuel s1
    | none => s

/-- A node waits for a hart, or the regions keep candidates that may be gone. -/
def State.dispatchDue (s : State) : Bool := s.nodes.any s.waits || s.regions.any (fun g => !g.hadPrio.isEmpty)

/-- DISPATCH (R379): every placement of at most one instance per hart, and every gang once held back. -/
def dispatch (s : State) : State :=
  if s.dispatchDue then dispatchAll (Config.harts + s.nodes.length + 1) s else s

/-- PRIORITY_AGEING (R379): the k-th node's effective priority rises with the time since it became ready; regions that
gain candidates at a priority by it have their virtual time raised. -/
def priorityAgeing (k : Nat) (s : State) : State :=
  match s.nodes[k]? with
  | some n => if s.candidate n then catchUp s else s
  | none => s

end Sys2Proof.Machine
end

