-- ==== Sys2Proof/Machine/Regions.lean ====
section
/-! DEFINITION. Regions (14): the region control block and its checks (R372 to R375), rlaunch (R390), rswitch (R391,
R394) and the host launch ring (R383, R384). -/

namespace Sys2Proof.Machine

/-! ### The region control block (R372 to R375) -/

/-- The child takes its own dword at offset 8i; a root region always does (R372, R374). -/
def ownDword (b : List Byte) (p : Option Region) (i : Nat) : Bool := p.isNone || (dwordAt b 6).getLsbD i

/-- An effective dword: the child's own, or the parent's (R373). -/
def effective (b : List Byte) (p : Option Region) (i : Nat) (of : Region → Word) : Word :=
  match p with
  | some g => if ownDword b p i then dwordAt b i else of g
  | none => dwordAt b i

/-- A field that reads 0 as 1 (R372). -/
def atLeastOne (n : Nat) : Nat := if n = 0 then 1 else n

/-- The effective region an RCB gives (R373). -/
def regionOf (b : List Byte) (p : Option Region) (num : BitVec 16) (enter : Level) : Region :=
  let own := ownDword b p 1
  let w := dwordAt b 1
  let pick (v : Nat) (of : Region → Nat) : Nat := match p with | some g => if own then v else of g | none => v
  let prio := pick (bitsOf w 32 3) (·.prio)
  { num := num
    parent := p.map (·.num)
    frames := pick (bitsOf w 0 8) (·.frames)
    gw := pick (bitsOf w 8 7) (·.gw)
    svc := pick (bitsOf w 15 1) (fun g => if g.svc then 1 else 0) == 1
    hbm := pick (atLeastOne (bitsOf w 16 5)) (·.hbm)
    ew := pick (atLeastOne (bitsOf w 24 5)) (·.ew)
    prio := match p with | some g => min prio g.prio | none => prio
    pool := pick (bitsOf w 36 12) (·.pool)
    fdom := (effective b p 2 (fun g => zext64 g.fdom)).setWidth 16
    ptroot := effective b p 3 (·.ptroot)
    ckpt := effective b p 4 (·.ckpt)
    evq := effective b p 5 (·.evq)
    ovf := effective b p 8 (·.ovf)
    saveA := effective b p 9 (·.saveA)
    saveSz := effective b p 10 (·.saveSz)
    fpol := effective b p 11 (·.fpol)
    enter := enter
    switch := .running
    vnum := 0
    vden := 1
    hadPrio := []
    saves := [] }

/-- The BUDGET dword breaks a rule of R372. -/
def budgetBad (w : Word) : Bool :=
  decide (bitsOf w 0 8 > 128) || decide (bitsOf w 8 7 > 64) || decide (bitsOf w 16 5 > 16) || decide (bitsOf w 24 5 > 16)
    || bitsOf w 36 12 == 0 || bitsOf w 21 3 != 0 || bitsOf w 29 3 != 0 || bitsOf w 35 1 != 0 || bitsOf w 48 16 != 0

/-- A global HBM address of this module (R375). -/
def State.ownHbm (s : State) (a : Word) : Bool := gaNode a == s.nodeId && gaCore a == hbmCore

/-- Every page of an interval is mapped with R and W, and with U where the nodes enter at U (R375). -/
def pagesWritable (s : State) (g : Region) (hi : Nat) : Nat → Nat → Bool
  | 0, _ => false
  | fuel + 1, off =>
    if off ≥ hi then true
    else match walk s g.ptroot off .atomic g.enter with
      | .leaf _ bits _ => pagesWritable s g hi fuel (off / 2 ^ bits * 2 ^ bits + 2 ^ bits)
      | _ => false

/-- The entry with a memory error that the walks of those pages meet first. -/
def pagesPoison (s : State) (g : Region) (hi : Nat) : Nat → Nat → Option Nat
  | 0, _ => none
  | fuel + 1, off =>
    if off ≥ hi then none
    else match walk s g.ptroot off .atomic g.enter with
      | .leaf _ bits _ => pagesPoison s g hi fuel (off / 2 ^ bits * 2 ^ bits + 2 ^ bits)
      | .poison k => some k
      | .fault _ _ => none

/-- A rule of R372, R374 or R375 is broken (code 2). `user`: the creator runs at U. -/
def rcbBad (b : List Byte) (p : Option Region) (user : Bool) (g : Region) (s : State) : Bool :=
  let own := ownDword b p
  let w := dwordAt b
  let lo := gaOff g.saveA
  let hi := lo + g.saveSz.toNat
  (p.isSome && decide ((w 0).toNat % 256 ≠ 0))
    || (w 6).getLsbD 0 || bitsOf (w 6) 13 51 != 0 || (b.drop 0x68).any (fun x => x != 0)
    || (user && [3, 4, 8, 9, 11].any (fun i => (w 6).getLsbD i))
    || (own 1 && budgetBad (w 1))
    || (own 2 && bitsOf (w 2) 16 48 != 0)
    || bitsOf g.ptroot 0 13 != 0 || bitsOf g.ptroot 39 25 != 0
    || bitsOf g.ckpt 1 15 != 0 || bitsOf g.ckpt 39 1 != 0
    || decide (g.ovf.toNat % 2 ^ 18 ≠ 0) || bitsOf g.ovf 49 15 != 0
    || bitsOf g.fpol 1 63 != 0
    || (own 12 && w 12 != 0)
    || decide (g.saveSz.toNat < g.recordSpace)
    || (g.evq != 0 && (decide (g.evq.toNat % 64 ≠ 0) || !s.ownHbm g.evq
      || !pagesWritable s g (gaOff g.evq + 1) 2 (gaOff g.evq)))
    || decide (g.saveA.toNat % 4096 ≠ 0) || !s.ownHbm g.saveA || decide (hi > 2 ^ 49)
    || !pagesWritable s g hi (2 ^ 33 + 2) lo

/-- A memory error that the check of a region's pages meets (R375, R415); none while nothing holds one. -/
def rcbPoison (g : Region) (s : State) : Option Nat :=
  if s.poison.isEmpty then none
  else
    let lo := gaOff g.saveA
    (if g.evq = 0 then none else pagesPoison s g (gaOff g.evq + 1) 2 (gaOff g.evq)).or
      (pagesPoison s g (lo + g.saveSz.toNat) (2 ^ 33 + 2) lo)

/-- A child's budget exceeds its parent's (code 3, R373). -/
def aboveParent (p : Option Region) (g : Region) : Bool :=
  match p with
  | none => false
  | some q => decide (g.frames > q.frames) || decide (g.gw > q.gw) || (g.svc && !q.svc) || decide (g.hbm > q.hbm)
      || decide (g.pool > q.pool)

/-- The lowest free region number of the module (R370, R390). -/
def State.freeNumber (s : State) : Option (BitVec 16) :=
  ((List.range 4095).find? (fun i => (s.region? (BitVec.ofNat 16 (s.nodeId.toNat * 4096 + i))).isNone)).map
    (fun i => BitVec.ofNat 16 (s.nodeId.toNat * 4096 + i))

/-- The region an RCB would make, or its code: 2, 3, 1 (R390). -/
def checkRcb (b : List Byte) (p : Option Region) (user : Bool) (enter : Level) (s : State) : Nat × Region :=
  let g := regionOf b p (s.freeNumber.getD 0) enter
  (if rcbBad b p user g s then 2 else if aboveParent p g then 3 else if s.freeNumber.isNone then 1 else 0, g)

/-- The root descriptor under the new region's page table (R384, R390): its code and node; code 0 without a node while another node's
reply is on its way. -/
def checkRoot (who : Nat) (u : FarUse) (g : Region) (a : Word) (s : State) : Nat × Option NodeRec × State :=
  let (c, n, s1) := regionDesc who u g.num a { s with regions := s.regions ++ [g] }
  let s2 := { s1 with regions := s1.regions.filter (fun h => h.num != g.num) }
  match n with
  | none => (c, none, s2)
  | some n => if overBudget g n then (3, none, s2) else (0, some n, s2)

/-- A region is created, with its record (R390, R427). -/
def createRegion (g : Region) (s : State) : State := lifeRecord g 0 { s with regions := s.regions ++ [g] }

/-! ### rlaunch (R390) -/

/-- A blocking store under sn0 (R390), performed when a store of sn0 may be. -/
inductive BlockStore where
  | ok (st : State)
  | wait (st : State)
  | fault (cause : BitVec 8) (st : State)
deriving DecidableEq, Repr

/-- A store of bytes under sn0 that the instruction at the pc would issue now. -/
def Hart.storeNow (h : Hart) (ea : Word) (b : List Byte) : Op :=
  { h.loadNow ea b.length with kind := .store [(ea, 0, b)] false false }

/-- The blocking store of one dword: at another node it waits for the acknowledgement. Its refusals trap with cause 0x05, that of a
suspended class too, which sets CS in the status of sn0 (R353, R390; log 81). -/
def blockWrite (ea w : Word) (s : State) : BlockStore :=
  let lock := lockHit s ea.toNat (ea.toNat + 8) true 0
  if !s.hart.ready (s.hart.storeNow ea (leBytes w.toNat 8)) then .wait (s.onHart (fun h => (h.drainStrand 0).drainAll)).block
  else if lock ≠ 0 then .fault lock s
  else
    let t := translate s s.hart.region s.hart.level .store ea
    let s1 := markReads (hartTable s.hart.num) (t.key / 64) t.st
    if t.cause = awaitRemote then .wait (s.awaitsOwn t .store ea).block
    else if t.cause ≠ 0 then .fault t.cause t.st
    else if gaNode ea = s.nodeId then
      let (ok, s2) := writeHome s.hart.region t.key (leBytes w.toNat 8) s1
      if ok then .ok s2.readDone else .fault 0x05 s2
    else
      match farWrite s.hart.num .block ea ⟨s.nodeId, s.hart.region, s.hart.level == .M, .write, BitVec.ofNat 64 (t.key / 64 * 64), 64,
          BitVec.ofNat 512 (w.toNat * 2 ^ (8 * (t.key % 64))), BitVec.ofNat 64 (0xFF * 2 ^ (t.key % 64)), 0, false⟩ s1 with
      | (.data _, s2) => .ok s2.readDone
      | (.fault c _, s2) => .fault c s2
      | (.suspended, s2) => .fault 0x05 (s2.onHart (fun h => h.report 0 stCS))
      | (.pending, s2) => .wait s2.block

/-- rlaunch behind its RCB; a trap of its store undoes the read of the RCB (R13). -/
def launchChild (d : BitVec 5) (rcb root : Word) (m : Bool) (b : List Byte) (p : Region) (s0 s : State) : State :=
  let (c1, g) := checkRcb b (some p) (s.hart.level == .U) .U s
  match rcbPoison g s with
  | some k => s0.waitAs (reportPoison (some p.num) k s)
  | none =>
    if c1 ≠ 0 then answer d (errCode c1) m s
    else
      match checkRoot s.hart.num .block g root s with
      | (c2, none, s1) => if c2 = 0 then s0.waitAs s1 else answer d (errCode c2) m s1
      | (_, some n, s1) =>
        match blockWrite (rcb + 0x38) (zext64 g.num) s1 with
        | .wait st => s0.waitAs st
        | .fault c st => trap c (rcb + 0x38) (s0.undoReads st)
        | .ok s2 => answer d (zext64 g.num) m (recordRelease 0xFF (.register n) (createRegion g s2))

/-- rlaunch (R390); an issuer without a region gets code 5. -/
def execRlaunch (d a b : BitVec 5) (m : Bool) (s : State) : Out :=
  let xa := s.x a
  if xa.toNat % 256 ≠ 0 then .next (trap 0x03 xa s)
  else match blockRange xa 32 s with
    | .wait st => .next st
    | .fault c ad st => .next (trap c ad st)
    | .got bs s1 =>
      match s1.hart.region.bind s1.region? with
      | none => .next (answer d (errCode 5) m s1)
      | some p => .next (launchChild d xa (s.x b) m bs p s s1)

/-! ### rswitch (R391, R394) -/

/-- A switch of an ancestor of a region, which covers the region with it, is pending: whether the ancestor is about to be
resumed (R391, R394). -/
def State.covered (s : State) (r : BitVec 16) : Option Bool :=
  (s.lineage r).tail.findSome? (fun q => match s.switchOf q with
    | some (.suspending _) | some (.ending _ _) => some false
    | some (.resuming ..) => some true
    | _ => none)

/-- The region, or an ancestor of it, is stopped by gstop, about to be, or about to go on (R410). -/
def State.inGstop (s : State) (r : BitVec 16) : Bool :=
  (s.lineage r).any (fun q => match s.switchOf q with
    | some (.gstopping _) | some (.gstopped _) | some (.gresuming ..) => true
    | _ => false)

/-- The state of a target as R394's table has it: with an ancestor's SUSPEND or END pending, so is the target's; with its
RESUME, the target is about to be resumed with it. -/
def Switch.underCover (w : Switch) (t : Word) (cover : Option Bool) : Option Switch :=
  match cover, w with
  | none, w => some w
  | some true, .suspended => some (.resuming t none)
  | some true, w => some w
  | some false, _ => none

/-- The new switch state of a target, or none for code 6 (R394, R410). -/
def switchTo (op : Nat) (w : Switch) (t : Word) (gstop : Bool) : Option Switch :=
  match op, w with
  | 0, .running => if gstop then none else some (.suspending t)
  | 1, .suspended => if gstop then none else some (.resuming t none)
  | 2, .running => some (.ending t false)
  | 2, .suspended => some (.ending t true)
  | 2, .resuming t1 none => some (.resuming t1 (some t))
  | 2, .gstopped none => some (.gstopped (some t))
  | _, _ => none

/-- rswitch and the ring's SUSPEND, RESUME and END: the code, T and the state (R391, R394). `scope`: the issuer's region
in S mode. -/
def switchRegion (op : Nat) (r : BitVec 16) (stamp : Word) (scope : Option (Option (BitVec 16))) (s : State) :
    Nat × Word × State :=
  let inScope := match scope with
    | none => true
    | some none => false
    | some (some q) => (s.lineage r).contains q
  let t := BitVec.ofNat 64 (max stamp.toNat (s.now.toNat + 1000))
  if op = 3 then (2, 0, s)
  else match s.switchOf r with
    | none => (5, 0, s)
    | some w =>
      if !inScope then (5, 0, s)
      else if stamp.toNat > s.now.toNat + Config.maxWait then (7, 0, s)
      else match (w.underCover t (s.covered r)).bind (fun w => switchTo op w t (s.inGstop r)) with
        | none => (6, 0, s)
        | some w1 => (0, if op = 1 then 0 else t, s.setSwitch [r] (fun _ => w1))

/-- A privileged instruction below its levels traps with cause 0x02 and its own word (R87, R404). -/
def guarded (ok : Bool) (word : BitVec 32) (f : State → State) (s : State) : State :=
  if ok then f s else trap 0x02 (zext64 word) s

/-- The word of an rswitch. -/
def rswitchWord (d a b : BitVec 5) (m : Bool) : BitVec 32 := encA m 0 5 b a d 0x3F

/-- rswitch (R391). -/
def rswitchAt (d a b : BitVec 5) (m : Bool) (s : State) : State :=
  guarded (s.hart.level != .U) (rswitchWord d a b m) (fun s =>
    let xa := s.x a
    let scope := if s.hart.level = .M then none else some s.hart.region
    let (c, t, s1) := switchRegion (bitsOf xa 16 2) (xa.setWidth 16) (s.x b) scope s
    answer d (if c = 0 then t else errCode c) m s1) s

/-- rswitch, operation 0 among its operations (R391, log 15). -/
def execRswitchSuspend (d a b : BitVec 5) (m : Bool) (s : State) : Out := .next (rswitchAt d a b m s)
/-- rswitch with operation 1 (R391, log 15). -/
def execRswitchResume (d a b : BitVec 5) (m : Bool) (s : State) : Out := .next (rswitchAt d a b m s)
/-- rswitch with operation 2 (R391, log 15). -/
def execRswitchEnd (d a b : BitVec 5) (m : Bool) (s : State) : Out := .next (rswitchAt d a b m s)

/-! ### The host launch ring (R383, R384) -/

/-- The dispatcher has a record to execute (R384, R430). -/
def State.ringReady (s : State) : Bool := !s.recovery && s.ringRp != s.ringWp && !s.ringOverrun.getLsbD 0

/-- A dword of the record at ring.rp. -/
def State.ringDword (s : State) (i : Nat) : Word :=
  leWord (s.mem.bytes (hbmKey s.nodeId (s.ringBase.toNat + 64 * (s.ringRp.toNat % 4096) + 8 * i)) 8)

/-- The record's SEQ is ring.rp. -/
def State.ringInSeq (s : State) : Bool := s.ringReady && (s.ringDword 0).setWidth 16 == s.ringRp

/-- The KIND of the record. -/
def State.ringKind (s : State) : Nat := bitsOf (s.ringDword 0) 16 8

/-- The next record; what was asked of other nodes for this one is forgotten. -/
def ringNext (s : State) : State := { s with ringRp := s.ringRp + 1 }.farOver 1088 (· == FarUse.ring)

/-- How the execution of a record ends: done, refused, or waiting, for a reply of another node or behind a memory error. -/
inductive Ringed where
  | done (st : State)
  | refused
  | wait (st : State)
deriving DecidableEq, Repr

/-- A LAUNCH record executed (R384). -/
def ringLaunch (s : State) : Ringed :=
  let at_ := s.ringDword 1
  let rcb := hbmKey s.nodeId at_.toNat
  if at_.toNat % 256 ≠ 0 || bitsOf at_ 39 25 ≠ 0 then .refused
  else
    let (c, g) := checkRcb (s.mem.bytes rcb 256) none false .S s
    match (s.poisonIn rcb 256).or (rcbPoison g s) with
    | some k => .wait (reportPoison none k s)
    | none =>
      if c ≠ 0 then .refused
      else match checkRoot 1088 .ring g (s.ringDword 2) s with
        | (c2, none, s1) => if c2 = 0 then .wait (s.waited s1) else .refused
        | (_, some n, s1) =>
          match writeHome none (rcb + 0x38) (leBytes g.num.toNat 8) s1 with
          | (true, s2) => .done (registerNode n (createRegion g s2))
          | (false, _) => .refused

/-- A SUSPEND, RESUME or END record executed (R384). -/
def ringSwitch (op : Nat) (s : State) : Ringed :=
  let r := s.ringDword 3
  match switchRegion op (r.setWidth 16) (s.ringDword 4) none s with
  | (0, _, s1) => .done s1
  | _ => .refused

/-- The line of the record at ring.rp holds a memory error (R415). -/
def State.ringPoison (s : State) : Option Nat := s.poisonIn (hbmKey s.nodeId (s.ringBase.toNat + 64 * (s.ringRp.toNat % 4096))) 64

/-- The record at ring.rp executed. -/
def ringRecord (s : State) : Ringed :=
  match s.ringKind with
  | 1 => ringLaunch s
  | 2 => ringSwitch 0 s
  | 3 => ringSwitch 1 s
  | 4 => ringSwitch 2 s
  | _ => .refused

/-- LAUNCH, SUSPEND, RESUME and END (R384): a record of the kind that is accepted, or that waits. -/
def ringExec (kind : Nat) (s : State) : State :=
  if s.ringReady && s.ringPoison.isSome then reportPoison none (s.ringPoison.getD 0) s
  else if s.ringInSeq && s.ringKind == kind then
    match ringRecord s with
    | .done s1 => ringNext s1
    | .wait s1 => s1
    | .refused => s
  else s

/-- UNKNOWN_KIND_RING_RECORD (R384): a record that is refused, of no known kind, or out of sequence. -/
def ringUnknown (s : State) : State :=
  if !s.ringReady || s.ringPoison.isSome then s
  else
    let seq : BitVec 16 := (s.ringDword 0).setWidth 16
    if seq ≠ s.ringRp then
      let ov : Word := 1 ||| (zext64 s.ringRp <<< 16) ||| (zext64 seq <<< 32)
      firmwareRecord 0x06 0xFFFF 0xFFFF ov.toNat seq.toNat { s with ringOverrun := ov }
    else match ringRecord s with
      | .refused => ringNext (firmwareRecord 0x06 0xFFFF 0xFFFF s.ringOverrun.toNat seq.toNat s)
      | _ => s

end Sys2Proof.Machine
end

