-- ==== Sys2Proof/Machine/Task.lean ====
section
/-! DEFINITION. The node instructions (14, R385 to R389): nspawn, ndep, ndone and nyield. -/

namespace Sys2Proof.Machine

/-! ### nspawn and ndep (R386, R387) -/

/-- nspawn behind its descriptor: the first code, or the release point recorded. -/
def spawn (d : BitVec 5) (m : Bool) (g : Region) (n : NodeRec) (bad : Bool) (s : State) : State :=
  let c := nodeCode s g bad n
  if c ≠ 0 then answer d (errCode c) m s
  else recordRelease 0xFF (.register n) s |> answer d 0 m

/-- nspawn (R386); an issuer without a region gets code 5. -/
def execNspawn (d a : BitVec 5) (m : Bool) (s : State) : Out :=
  let xa := s.x a
  match readDesc (s.hart.region.getD 0xFFFF) xa s with
  | .wait st => .next st
  | .fault c ad st => .next (trap c ad st)
  | .got n bad s1 =>
    match s1.hart.region.bind s1.region? with
    | none => .next (answer d (errCode 5) m s1)
    | some g => .next (spawn d m g n bad s1)

/-- ndep (R387): the strand mask, 0 read as 0xFF. -/
def execNdep (d a b : BitVec 5) (m : Bool) (s : State) : Out :=
  let mask := if bitsOf (s.x b) 0 8 = 0 then 0xFF else bitsOf (s.x b) 0 8
  let s1 := match s.hart.region with
    | some r => recordRelease mask (.decrement r (s.x a)) s
    | none => s
  .next (answer d 0 m s1)

/-! ### ndone (R388) -/

/-- What ndone does before it waits: bindings end, unmatched receives are cancelled, every drain starts. -/
def endInstance (s : State) : State :=
  let s1 := s.onHart (fun h => (List.range 8).foldl (fun h i => h.unbind (BitVec.ofNat 3 i)) h)
  (cancelPosts s1).onHart Hart.drainAll

/-- The successors of a node that has retired: released, or held when an instance of a HOLD node had an error. -/
def releaseSuccessors (n : NodeRec) (s : State) : State :=
  if n.hold && n.bad then regionRecord n.region 0x11 0xFFFF n.desc.toNat 0 s
  else n.succ.foldl (fun st d => decrement n.region d st) s

/-- One more instance of a node has retired; after the last one the node is unregistered (R388). -/
def retireNode (r : BitVec 16) (desc : Word) (bad : Bool) (s : State) : State :=
  match s.nodes.find? (fun n => n.region == r && n.desc == desc) with
  | none => s
  | some n =>
    let n1 := { n with retired := n.retired + 1, bad := n.bad || bad }
    if n1.retired = n1.count then
      let s1 := releaseSuccessors n1 s
      endIdle s1.regions.length r { s1 with nodes := s1.nodes.filter (fun k => !(k.region == r && k.desc == desc)) }
    else s.setNode n1

/-- The end of ndone once every operation is performed. A hart that runs no node becomes free. -/
def finishInstance (s : State) : State :=
  let st := s.hart.mergedStatus
  let n := s.hart.num
  let s1 := s.onHart (fun h => ((h.clearStatus).endCopies).clearMessages)
  match s.hart.node with
  | none => s1.onHart Hart.vacant
  | some nr =>
    let s2 := if st = 0 then s1 else regionRecord nr.region 0x04 n nr.desc.toNat (nr.index + st.toNat * 2 ^ 32) s1
    let s3 := (s2.onHart Hart.vacant).setOwner n 0xFFFF
    gstopCheck nr.region (retireNode nr.region nr.desc (st != 0) s3)

/-- ndone (R388). -/
def execNdone (m : Bool) (s : State) : Out :=
  let _ := m
  let s1 := endInstance s
  .next (if s1.hart.allPerformed then finishInstance s1 else s1.block)

/-! ### nyield (R389) -/

/-- nyield gives 0 at once (R389). -/
def State.staysHere (s : State) : Bool :=
  let h := s.hart
  match h.node.bind (fun nr => (s.nodes.find? (fun n => n.region == nr.region && n.desc == nr.desc)).map (fun n => (nr, n))) with
  | none => true
  | some (nr, n) =>
    nr.gang || nr.engine || (s.reservedTo h.num).isSome
      || (List.range 32).any (fun i => (h.post (BitVec.ofNat 5 i)).used)
      || h.binds.toList.any (·.isSome)
      || h.copies.any (fun p => p.2.taken && p.2.st == .stopped)
      || !h.cmds.isEmpty
      || h.sp.toList.any (·.mark)
      || !s.nodes.any (fun k => k.kind == n.kind && s.waits k
          && decide (((s.region? n.region).map (·.prio)).getD 0 ≤ s.effPrio k))

/-- The instance leaves its hart: its registers and the first 64 × FOOT bytes of its slice go to the save area, and are kept
with the node (log 28); a refused write ends the region (R375). -/
def leaveHart (nr : NodeRun) (d : BitVec 5) (m : Bool) (s : State) : State :=
  let h := s.hart
  let lo := sliceLo s h.num
  match s.nodes.find? (fun n => n.region == nr.region && n.desc == nr.desc), s.region? nr.region with
  | some n, some g =>
    let (ok, s0) := fillSave g.num (savedBytes g n / 1024) (gaOff g.saveA) s
    if !ok then saveFailed g.num g.saveA.toNat s0
    else
      let saved := h.retire (h.pc + 4) m
      let bytes := (s.mem.filter (fun p => lo ≤ p.1 && p.1 < lo + 64 * n.foot)).map (fun p => (p.1 - lo, p.2))
      let s1 := s0.setNode { n with moved := n.moved ++ [⟨nr.index, d, saved, bytes⟩] }
      (s1.onHart (fun h => (h.clearMessages).vacant)).setOwner h.num 0xFFFF
  | _, _ => s

/-- nyield (R389). -/
def execNyield (d : BitVec 5) (m : Bool) (s : State) : Out :=
  if s.staysHere then .next (answer d 0 m s)
  else
    let s1 := s.onHart Hart.drainAll
    if !s1.hart.allPerformed || s1.hart.rets.any (fun r => !r.res.isStream) then .next s1.block
    else match s1.hart.node with
      | none => .next (answer d 0 m s1)
      | some nr => .next (leaveHart nr d m s1)

end Sys2Proof.Machine
end

