-- ==== Sys2Proof/Machine/System.lean ====
section
/-! DEFINITION. The system instructions but ckpt (15, R396 to R410, R421, R423, R424): the system registers, sys, eret,
wfi, gstop, tlbinv, pginvack and pwreq. -/

namespace Sys2Proof.Machine

/-- The order of the levels (R396). -/
def Level.rank : Level → Nat
  | .U => 0 | .S => 1 | .M => 2

/-- At least a level. -/
def Level.atLeast (l : Level) (n : Nat) : Bool := decide (n ≤ l.rank)

/-! ### Reading (R402, R407) -/

/-- A register of a trap bank (R396); PPL and VEC read 0 in the U bank. -/
def bankRead (l : Level) (b : TrapBank) (i : Nat) : Word :=
  match i with
  | 0 => BitVec.ofNat 64 (b.cause.toNat + if b.async then 2 ^ 8 else 0)
  | 1 => b.pc
  | 2 => b.epc
  | 3 => b.val
  | 4 => BitVec.ofNat 64 ((if b.ie then 1 else 0) + (if b.pie then 2 else 0) + (if l = .U then 0 else 4 * b.ppl.rank)
      + (if b.tip then 16 else 0))
  | 5 => if l = .U then 0 else b.vec
  | _ => b.scr

/-- tr.ip (R397): bit c while an interrupt of cause c waits. -/
def Hart.waitingBits (h : Hart) : Word := h.irqs.foldl (fun w q => w ||| (1#64 <<< q.cause.toNat)) 0

/-- A frame is live (R2). -/
def State.frameLive (s : State) (f : Nat) : Bool :=
  !s.removedFrames.contains f && !(s.removedQuads.contains (2 * f) && s.removedQuads.contains (2 * f + 1))

/-- id.live (R429). -/
def State.idLive (s : State) : Word :=
  let quads := ((List.range 256).filter (fun q => s.present (4 * q))).length
  let frames := ((List.range 128).filter s.frameLive).length
  BitVec.ofNat 64 (4 * quads + quads * 2 ^ 16 + frames * 2 ^ 32)

/-- id.frm0 and id.frm1 (R429). -/
def State.idFrames (s : State) (first : Nat) : Word :=
  (List.range 64).foldl (fun w i => if s.frameLive (first + i) then w ||| (1#64 <<< i) else w) 0

/-- A power domain (R31, R418); unlisted ones stand as at reset. -/
def State.domain (s : State) (n : Nat) : Domain := (s.domains.find? (fun d => d.num == n)).getD ⟨n, 5, 7, none, none⟩

/-- pw.op of a hart (R419). -/
def State.pwOp (s : State) (h : Nat) : Word :=
  let d := s.domain (hartDomain h)
  BitVec.ofNat 64 (d.point.toNat + d.cap.toNat * 2 ^ 8)

/-- wr.age (R429): RPL adds up the replays of the quad's harts. -/
def State.wearWord (s : State) (h : Nat) : Word :=
  let hs := if h < 1024 then (List.range 4).map (fun i => h / 4 * 4 + i) else [h]
  let rpl := min ((hs.map (fun n => (s.getHart n).rcnt.toNat)).foldl (· + ·) 0) (2 ^ 32 - 1)
  (assocGet s.wear (hartDomain h) 0 &&& 0xFFFF00FF#64) ||| BitVec.ofNat 64 (rpl * 2 ^ 32)

/-- rg.alias of the entry that rg.asel names (R371). -/
def State.aliasWord (s : State) : Word := s.rgAlias[s.rgAsel.toNat]

/-- The bank a register number below 0x20 reaches (R396). -/
def bankLevel (n : Nat) (l : Level) : Level := if n < 7 then l else if n < 0x18 then .S else .U

/-- The value of a system register. -/
def sysRead (n : Nat) (s : State) : Word :=
  let h := s.hart
  if n < 0x20 then bankRead (bankLevel n h.level) (h.bank (bankLevel n h.level)) (n % 8)
  else if 0x80 ≤ n && n ≤ 0x9F then
    if h.num < 1024 then s.bankReg (h.num / 4 * 4 + (n - 0x80) / 8) ((n - 0x80) % 8) else 0
  else if 0xA0 ≤ n && n ≤ 0xAF then s.cgPat[(BitVec.ofNat 4 n).toNat]
  else match n with
  | 0x20 => zext64 h.deleg
  | 0x21 => h.waitingBits
  | 0x30 => idHart s.nodeId h.num
  | 0x31 => s.idLive
  | 0x32 => s.idFrames 0
  | 0x33 => s.idFrames 64
  | 0x34 => BitVec.ofNat 64 (0x0D20 + s.partRev.toNat * 2 ^ 16 + s.fwVer.toNat * 2 ^ 32)
  | 0x40 => s.now
  | 0x41 => h.icnt
  | 0x42 => zext64 h.msent
  | 0x43 => zext64 h.mrecv
  | 0x50 => zext64 h.fxRound
  | 0x51 => zext64 h.fxFlags
  | 0x52 => BitVec.ofNat 64 (h.srSrc.toNat + if h.srLost then 2 ^ 8 else 0)
  | 0x53 => h.srStep
  | 0x54 => BitVec.ofNat 64 (h.logb.toNat * 2)
  | 0x55 => zext64 h.logn
  | 0x56 => zext64 h.logp
  | 0x60 => if h.scout then 1 else 0
  | 0x61 => zext64 h.fcnt
  | 0x62 => zext64 h.scnt
  | 0x70 => h.cfg
  | 0xB0 => BitVec.ofNat 64 (h.msOvf.toNat * 2 ^ 18)
  | 0xB1 => h.msStat
  | 0xB2 => BitVec.ofNat 64 (h.gwRid.toNat + h.gwNext.toNat * 2 ^ 32)
  | 0xC0 => zext64 h.duty
  | 0xC1 => zext64 h.req
  | 0xC2 => s.pwOp h.num
  | 0xC3 => zext64 h.rcnt
  | 0xD0 => s.csTab
  | 0xD1 => s.csOvf
  | 0xD2 => s.csOvfsz
  | 0xD3 => s.csOvfuse
  | 0xE0 => s.evFw
  | 0xE1 => s.wearWord h.num
  | 0xE2 => zext64 s.rgAsel
  | 0xE3 => s.aliasWord
  | _ => 0

/-- The lowest level that may read a register (R402). -/
def readRank (n : Nat) : Nat :=
  if 0x10 ≤ n && n ≤ 0x16 then 2
  else if 0x18 ≤ n && n ≤ 0x1E then 1
  else if n = 0x20 || n = 0xE2 || n = 0xE3 then 2
  else if n = 0x21 || (0x60 ≤ n && n ≤ 0x62) || (0xD0 ≤ n && n ≤ 0xD3) || n = 0xE0 then 1
  else 0

/-- srd (R402, R407). -/
def execSrd (d : BitVec 5) (n : BitVec 12) (m : Bool) (s : State) : Out :=
  if s.hart.level.atLeast (readRank n.toNat) then .next (answer d (sysRead n.toNat s) m s) else .next (trap 0x02 (zext64 n) s)

/-! ### Writing (R9, R402, R403) -/

/-- Registers whose writes are ignored at every level (R402). -/
def writeIgnored (n : Nat) : Bool :=
  n == 0x21 || (decide (0x30 ≤ n) && decide (n ≤ 0x43)) || (decide (0xC0 ≤ n) && decide (n ≤ 0xC3)) || n == 0xD3 || n == 0xE1

/-- The lowest level that may write a register; 3 for none (R402). -/
def writeRank (n : Nat) : Nat :=
  if n = 0x70 then 3
  else if n = 0x63 || n = 0xB0 || n = 0xE0 then 2
  else if 0xA0 ≤ n && n ≤ 0xAF then 1
  else readRank n

/-- A level from PPL; 3 stores S (R396). -/
def levelOf (v : BitVec 2) : Level := match v.toNat with | 0 => .U | 2 => .M | _ => .S

/-- A register of a trap bank written (R396). -/
def bankWrite (l : Level) (b : TrapBank) (i : Nat) (v : Word) : TrapBank :=
  match i with
  | 0 => { b with cause := v.setWidth 8, async := v.getLsbD 8 }
  | 1 => { b with pc := v &&& ~~~1#64 }
  | 2 => { b with epc := v &&& ~~~1#64 }
  | 3 => { b with val := v }
  | 4 => { b with
      ie := v.getLsbD 0
      pie := v.getLsbD 1
      ppl := if l = .U then b.ppl else levelOf (v.extractLsb' 2 2)
      tip := v.getLsbD 4 }
  | 5 => if l = .U then b else { b with vec := v &&& ~~~1#64 }
  | _ => { b with scr := v }

/-- A hart's own register written; the numbers not named hold nothing of the hart. -/
def Hart.sysWrite (h : Hart) (n : Nat) (v : Word) : Hart :=
  if n < 0x20 then h.setBank (bankLevel n h.level) (bankWrite (bankLevel n h.level) (h.bank (bankLevel n h.level)) (n % 8) v)
  else match n with
  | 0x20 => { h with deleg := (v.setWidth 32 &&& 0x0003FFFE#32) ||| 0x1000#32 }
  | 0x50 => { h with fxRound := roundStored (v.setWidth 3) }
  | 0x51 => { h with fxFlags := v.setWidth 5 }
  | 0x52 => { h with srSrc := v.setWidth 2, srLost := h.srLost && !v.getLsbD 8 }
  | 0x53 => { h with srStep := v }
  | 0x54 => { h with logb := v.extractLsb' 1 17 }
  | 0x55 => { h with logn := v.setWidth 17 }
  | 0x56 => { h with logp := v.setWidth 17 }
  | 0x60 => { h with scout := v.getLsbD 0 }
  | 0x61 => { h with fcnt := v.setWidth 32 }
  | 0x62 => { h with scnt := v.setWidth 32 }
  | 0xB0 => { h with msOvf := v.extractLsb' 18 31 }
  | 0xB1 => { h with msPend := h.msPend && !v.getLsbD 8, msLost := v.extractLsb' 32 32 }
  | 0xB2 => { h with gwRid := v.setWidth 16, gwNext := v.extractLsb' 32 32 }
  | _ => h

/-- A register written (R402): those of the module, of the quad, or of the hart. -/
def sysWrite (n : Nat) (v : Word) (s : State) : State :=
  if 0x80 ≤ n && n ≤ 0x9F then
    if s.hart.num < 1024 then
      let k := s.hart.num / 4 * 32 + (n - 0x80)
      { s with bankFmt := (assocSet s.bankFmt k (fmtStored v)).filter (fun p => p.2 != 0) }
    else s
  else if 0xA0 ≤ n && n ≤ 0xAF then { s with cgPat := s.cgPat.set (BitVec.ofNat 4 n).toNat (v &&& 0x3F07#64) }
  else match n with
  | 0x63 => { s with tkKey := v }
  | 0xD0 => { s with csTab := v &&& 0x7FFF800000#64 }
  | 0xD1 => { s with csOvf := v &&& 0x7FFFFF0000#64 }
  | 0xD2 => { s with csOvfsz := v &&& 0xFFFFFF#64 }
  | 0xE0 => { s with evFw := v }
  | 0xE2 => { s with rgAsel := v.setWidth 6 }
  | 0xE3 => { s with rgAlias := s.rgAlias.set s.rgAsel.toNat (v &&& 0x80000000FFFFFFFF#64) }
  | _ => s.onHart (fun h => h.sysWrite n v)

/-- A write of a bank format register fails the ownership check of the bank's slice (R202). -/
def State.fmtRefused (s : State) (n : Nat) : Bool :=
  decide (0x80 ≤ n) && decide (n ≤ 0x9F) && decide (s.hart.num < 1024)
    && !s.owns s.hart.region (s.hart.level == .M) (s.hart.num / 4 * 4 + (n - 0x80) / 8) 0

/-- swr (R402, R407): a write that is ignored, refused, or made. -/
def swrAt (n : Nat) (d : BitVec 5) (m : Bool) (s : State) : State :=
  if writeIgnored n then s.done 4 m
  else if !s.hart.level.atLeast (writeRank n) then trap 0x02 (BitVec.ofNat 64 n) s
  else if s.fmtRefused n then trap 0x05 (BitVec.ofNat 64 n) s
  else (sysWrite n (s.x d) s).done 4 m

/-- swr (R402, R407). -/
def execSwr (d : BitVec 5) (n : BitVec 12) (m : Bool) (s : State) : Out := .next (swrAt n.toNat d m s)
/-- swr tk.key (R177, log 15). -/
def execTkKey (d : BitVec 5) (m : Bool) (s : State) : Out := .next (swrAt 0x63 d m s)
/-- swr of a bank format register (R202, log 15). -/
def execBkFmt (n d : BitVec 5) (m : Bool) (s : State) : Out := .next (swrAt (0x80 + n.toNat) d m s)
/-- swr of a pattern entry (R330, log 15). -/
def execCgPat (n : BitVec 4) (d : BitVec 5) (m : Bool) (s : State) : Out := .next (swrAt (0xA0 + n.toNat) d m s)
/-- swr of a compressed-page register (R425, log 15). -/
def execCsTab (n : BitVec 2) (d : BitVec 5) (m : Bool) (s : State) : Out := .next (swrAt (0xD0 + n.toNat) d m s)
/-- swr rg.alias (R371, log 15). -/
def execRgAlias (d : BitVec 5) (m : Bool) (s : State) : Out := .next (swrAt 0xE3 d m s)
/-- swr mx.cfg traps with cause 0x02 at every level (R238, log 15). -/
def execMxCfg (d : BitVec 5) (m : Bool) (s : State) : Out := .next (swrAt 0x70 d m s)

/-! ### sys and eret (R405, R406) -/

/-- sys (R405): cause 0x10 resumes behind it, a breakpoint at it. -/
def execSys (a : BitVec 5) (k : BitVec 1) (m : Bool) (s : State) : Out :=
  let _ := m
  .next (if k = 0 then trapAt 0x10 (s.hart.pc + 4) (s.x a) s else trapAt 0x11 s.hart.pc (s.x a) s)

/-- The park of a marked eret is not lost when the hart then stops: it goes on in the park, or parks behind the wait it goes on in
(R68). -/
def Run.parkedFirst : Run → Run
  | .running => .parked
  | .timed k left d _ => .timed k left d true
  | r => r

/-- The hart has returned from gstop's interrupt (R410): it stops until its region goes on. -/
def countReturn (s : State) : State :=
  match s.hart.back with
  | none => s
  | some w =>
    let was := if s.hart.run = .parked then w.parkedFirst else w
    let s1 := s.onHart (fun h => { h with gstopEret := true, back := some was, run := .stopped was })
    match s.hart.region with
    | some r => gstopCheck r s1
    | none => s1

/-- Own stores or atomics to the fault record are unperformed: they come before the read of the record (R154, R182;
log 51). -/
def State.recordBusy (s : State) : Bool :=
  let base := memKey s.nodeId s.hart.num recordOff
  s.hart.ops.any (fun o => anyMeet o.writes [(base, base + 0x8A0)])

/-- eret (R154, R406, R410): a range lock that stops an entry's access makes eret itself trap (R189, log 24); it waits while the accesses
of the record find no scoreboard entries or reply slots (R116, R348). -/
def execEret (m : Bool) (s : State) : Out :=
  let b := s.hart.bank s.hart.level
  let again := b.cause = 0x07 && !b.async
  if again && s.recordBusy then .next (s.onHart Hart.drainAll).block
  else match (if again then reissueLock s else none) with
    | some (c, a) => .next (trap c a s)
    | none => match (if again then reissueWait s else none) with
      | some st => .next st
      | none =>
        let s1 := if again then reissue s else s
        let s2 := (returnTrap s1).onHart (fun h => h.parkIf m)
        .next (if b.cause = 0x13 then countReturn s2 else s2)

/-! ### wfi (R408) -/

/-- The level an interrupt is taken at (R398). -/
def irqLevel (cause : BitVec 8) : Level := match cause.toNat with | 0x0C => .S | 0x12 => .U | _ => .M

/-- An interrupt waits that would be taken at the current level if its IE were 1 (R399, R408). -/
def Hart.wakes (h : Hart) : Bool := h.irqs.any (fun q => decide (h.level.rank ≤ (irqLevel q.cause).rank))

/-- wfi (R408). -/
def execWfi (m : Bool) (s : State) : Out :=
  .next (guarded (s.hart.level != .U) (encA m 0 10 0 0 0 0x3F) (fun s =>
    if s.hart.wakes then s.done 4 m
    else s.onHart (fun h => { h with run := .wfi m, idleSince := s.now })) s)

/-- WFI_WAKE (R408). -/
def wfiWake (s : State) : State :=
  if s.hart.wakes then
    match s.hart.run with
    | .wfi m => s.done 4 m
    | _ => s
  else s

/-! ### gstop (R410) -/

/-- gstop (R410). -/
def execGstop (d a : BitVec 5) (m : Bool) (s : State) : Out :=
  .next (guarded (s.hart.level == .M) (encA m 0 11 0 a d 0x3F) (fun s =>
    let r : BitVec 16 := (s.x a).setWidth 16
    if (s.region? r).isNone then answer d (errCode 5) m s
    else if (s.subtree r).any (fun q => s.switchOf q != some .running) || (s.covered r).isSome || s.inGstop r then
      answer d (errCode 6) m s
    else
      let t := s.now + 64
      answer d t m (s.setSwitch [r] (fun _ => .gstopping t))) s)

/-! ### Translation maintenance (R164, R423, R424) -/

/-- The leaf that maps an offset and its place, whatever it permits (R143, R144); `fuel` levels remain. -/
def findLeaf (s : State) (off : Nat) : Nat → Nat → Nat → Option (Word × Nat)
  | 0, _, _ => none
  | fuel + 1, lv, table =>
    let entry := hbmKey s.nodeId (table + 8 * walkIndex lv off)
    let e := leWord (s.mem.bytes entry 8)
    if !e.getLsbD 0 || entryReserved lv e then none
    else if (lv == 1 && e.getLsbD 1) || (lv == 4 && !e.getLsbD 1) || (e.getLsbD 1 && lv != 4 && e.getLsbD 7) then none
    else if e.getLsbD 1 then some (e, entry)
    else findLeaf s off fuel (lv + 1) (bitsOf e 8 31 * 256)

/-- The valid leaf of a page of a region. -/
def State.leafOf (s : State) (r : BitVec 16) (page : Nat) : Option (Word × Nat) :=
  (s.region? r).bind (fun g => findLeaf s (page * 65536) 4 1 (bitsOf g.ptroot 0 39))

/-- The leaf of a page of a region gets or loses its PIN bit (R143, R164). -/
def setPin (r : BitVec 16) (page : Nat) (pin : Bool) (s : State) : State :=
  match s.leafOf r page with
  | some (leaf, entry) =>
    let v := if pin then leaf ||| 0x200#64 else leaf &&& ~~~0x200#64
    { s with mem := s.mem.store entry (leBytes v.toNat 8) }
  | none => s

/-- The detector's entry of a page. -/
def State.thrashOf (s : State) (r : BitVec 16) (page : Nat) : Option Thrash :=
  s.thrash.find? (fun t => t.region == r && t.node == s.nodeId && t.page == page)

/-- A page that the detector holds pinned (R164). -/
def State.pinnedNow (s : State) (r : BitVec 16) (page : Nat) : Bool :=
  s.pins.any (fun p => p.region == r && p.node == s.nodeId && p.page == page && decide (s.now.toNat < p.at_.toNat + 10000000))

/-- The migrate option is used on a page (R164): the fifth use within 1,000 µs pins it. The entry least recently used makes
room. -/
def useMigrate (r : BitVec 16) (page : Nat) (s : State) : State :=
  let old := (s.thrashOf r page).getD ⟨r, s.nodeId, page, []⟩
  let uses := old.uses.filter (fun t => decide (s.now.toNat ≤ t.toNat + 1000000)) ++ [s.now]
  let rest := s.thrash.filter (fun t => !(t.region == r && t.node == s.nodeId && t.page == page))
  if uses.length ≥ 5 then
    let s1 := { s with
      thrash := (⟨r, s.nodeId, page, []⟩ : Thrash) :: rest.take 63
      pins := s.pins ++ [(⟨r, s.nodeId, page, s.now⟩ : Pin)] }
    regionRecord r 0x09 0xFFFF (memKey s.nodeId hbmCore (page * 65536)) s.nodeId.toNat (setPin r page true s1)
  else { s with thrash := { old with uses := uses } :: rest.take 63 }

/-- PIN_EXPIRY (R164): 10,000 µs after pinning PIN is cleared, whether the detector still has an entry of the page or not; not while a
later pinning of the same leaf lasts. -/
def pinExpiry (k : Nat) (s : State) : State :=
  match s.pins[k]? with
  | none => s
  | some p =>
    let rest := s.pins.eraseIdx k
    let same (q : Pin) : Bool := q.region == p.region && (s.leafOf q.region q.page).map (·.2) == (s.leafOf p.region p.page).map (·.2)
    if s.now.toNat < p.at_.toNat + 10000000 then s
    else if rest.any same then { s with pins := rest }
    else setPin p.region p.page false { s with pins := rest }

/-- What a tlbinv matches. -/
structure Inval where
  kind : Nat
  region : BitVec 16
  page : Nat
deriving DecidableEq, Repr

/-- The entry is one that the instruction removes. -/
def Inval.hits (v : Inval) (node : BitVec 4) (e : TlbEntry) : Bool :=
  match v.kind with
  | 0 => e.node == node && e.region == v.region && decide (e.base ≤ v.page * 65536)
      && decide (v.page * 65536 < e.base + 2 ^ e.bits)
  | 1 => e.region == v.region
  | _ => true

/-- An HBM address of this module lies in a page that a removed translation covers. -/
def Inval.covers (v : Inval) (es : List TlbEntry) (node : BitVec 4) (region : Option (BitVec 16)) (a : Word) : Bool :=
  gaCore a == hbmCore && (v.kind == 2 || region == some v.region) &&
    (v.kind != 0 || (gaNode a == node && (gaOff a / 65536 == v.page
      || es.any (fun e => decide (e.base ≤ gaOff a) && decide (gaOff a < e.base + 2 ^ e.bits)))))

/-- An access of a hart still stands under a translation that is to go: a store, which was translated at issue, or whatever
has been sent to another node under a translation of the region. -/
def Hart.underOld (h : Hart) (v : Inval) (es : List TlbEntry) (node : BitVec 4) : Bool :=
  h.ops.any (fun o => (match o.kind with
    | .store ws _ _ => ws.any (fun w => v.covers es node o.region w.1)
    | _ => false) || (v.kind != 0 && o.sent.isSome && (v.kind == 2 || o.region == some v.region)))

/-- An access of an engine, a copy or an instruction to another node is on its way under a translation of a region that is to go. -/
def State.farOld (s : State) (v : Inval) : Bool :=
  v.kind != 0 && s.far.any (fun f => f.ans.isNone && (v.kind == 2 || (s.getHart f.hart).region == some v.region))

/-- The combining entries under such a translation start to drain (R423). -/
def Hart.drainOld (h : Hart) (v : Inval) (es : List TlbEntry) (node : BitVec 4) : Hart :=
  let ids := (h.ops.filter (fun o => match o.kind with
    | .store ws _ _ => ws.any (fun w => v.covers es node o.region w.1)
    | _ => false)).map (·.id)
  { h with comb := h.comb.map (fun e => if e.ops.any ids.contains then { e with closed := true, draining := true } else e) }

/-- A translation at other nodes that the instruction removes, whatever the size of its leaf. -/
def Inval.takes (v : Inval) (h : Holder) : Bool :=
  match v.kind with
  | 0 => h.region == v.region && decide (h.base ≤ v.page * 65536) && decide (v.page * 65536 < h.base + 2 ^ h.bits)
  | 1 => h.region == v.region
  | _ => true

/-- Nodes that hold a translation the instruction removes. -/
def State.holdersOf (s : State) (v : Inval) : BitVec 16 := (s.holders.filter v.takes).foldl (fun m h => m ||| h.nodes) 0

/-- What an invalidation tells a node: the largest page of those it holds that the instruction removes; nothing but the kind
for kinds 1 and 2. -/
def State.invalidation (s : State) (v : Inval) (t : BitVec 32) (node : BitVec 4) : Packet :=
  let mine := s.holders.filter (fun h => v.takes h && h.nodes.getLsbD node.toNat)
  let big := mine.foldl (fun (b : Nat × Nat) h => if b.2 < h.bits then (h.base, h.bits) else b) (v.page * 65536, 16)
  if v.kind = 0 then .invalidate node t 0 v.region (BitVec.ofNat 49 big.1) (BitVec.ofNat 6 big.2)
  else .invalidate node t (BitVec.ofNat 2 v.kind) v.region 0 0

/-- The ticket: invalidations go to every holder; one whose link is dead is counted at once (R424). -/
def sendInvalidations (v : Inval) (s : State) : Word × State :=
  let held := s.holdersOf v
  let nodes := (List.range 16).filter (fun i => held.getLsbD i)
  let live := nodes.filter (fun i => s.reaches (BitVec.ofNat 4 i))
  let mask (l : List Nat) : BitVec 16 := l.foldl (fun m i => m ||| (1#16 <<< i)) 0
  let t := s.nextTicket
  (zext64 t, sends (live.map (fun i => s.invalidation v t (BitVec.ofNat 4 i))) { s with
    holders := s.holders.filter (fun h => !v.takes h)
    tickets := s.tickets ++ [⟨t, mask live, mask (nodes.filter (fun i => !live.contains i))⟩]
    nextTicket := if t + 1 = 0 then 1 else t + 1 })

/-- The local part of tlbinv, then the invalidations (R423): it waits while an access stands under an old translation. -/
def invalidate (v : Inval) (migrate : Bool) (d : BitVec 5) (m : Bool) (s : State) : State :=
  let es := s.tlbAll.filter (v.hits s.nodeId)
  if s.harts.any (fun h => h.underOld v es s.nodeId) || s.farOld v then
    (s.eachHart (fun h => h.drainOld v es s.nodeId)).block
  else
    let s1 := { s.tlbDrop (v.hits s.nodeId) with
      tlbFaults := s.tlbFaults.filter (fun f => v.kind == 0 || (v.kind == 1 && f.ask.region != v.region)) }
    let s2 := if migrate then useMigrate v.region v.page s1 else s1
    let (t, s3) := sendInvalidations v s2
    answer d t m s3

/-- tlbinv (R423). -/
def execTlbinv (d a b : BitVec 5) (m : Bool) (s : State) : Out :=
  .next (guarded (s.hart.level != .U) (encA m 0 12 b a d 0x3F) (fun s =>
    let w := s.x b
    let r : BitVec 16 := w.setWidth 16
    let kind := bitsOf w 16 2
    let migrate := w.getLsbD 18
    let page := gaOff (s.x a) / 65536
    let inScope := s.hart.level == .M || (match s.hart.region with
      | some q => (s.lineage r).contains q
      | none => false)
    if kind = 3 || (kind = 2 && s.hart.level != .M) || (migrate && kind != 0) then answer d (errCode 2) m s
    else if (s.region? r).isNone || !inScope then answer d (errCode 5) m s
    else if migrate && s.pinnedNow r page then answer d (errCode 6) m s
    else invalidate ⟨kind, r, page⟩ migrate d m s) s)

/-- pginvack (R424). -/
def execPginvack (d a : BitVec 5) (m : Bool) (s : State) : Out :=
  .next (guarded (s.hart.level != .U) (encA m 0 13 0 a d 0x3F) (fun s =>
    let t := s.x a
    if t.toNat ≥ s.nextTicket.toNat then answer d (errCode 7) m s
    else match s.tickets.find? (fun k => k.num.toNat == t.toNat) with
      | none => answer d 0x10000 m s
      | some k =>
        if k.waiting ≠ 0 then s.block
        else answer d (zext64 k.dead ||| 0x10000) m { s with tickets := s.tickets.filter (fun q => q.num != k.num) }) s)

/-! ### pwreq (R421) -/

/-- pwreq (R421). -/
def execPwreq (d a : BitVec 5) (m : Bool) (s : State) : Out :=
  let op := s.pwOp s.hart.num
  let p : BitVec 3 := (s.x a).setWidth 3
  .next (answer d op m (s.onHart (fun h => { h with req := p })))

end Sys2Proof.Machine
end

