-- ==== Sys2Proof/Machine/Remote.lean ====
section
/-! DEFINITION. What arrives from other fabric nodes (R140, R147, R178, R447): translation requests and replies,
invalidations, accesses and token checks; and the page walks of this module (R144). -/

namespace Sys2Proof.Machine

/-! ### Translations (R144 to R147) -/

/-- PAGE_WALK (R143 to R146): a walker translates a page that an unperformed access of the hart in focus touches; a memory error that the
walk meets is the access's (R415). -/
def pageWalk (off : BitVec 49) (write : Bool) (s : State) : State :=
  let a := mkGa s.nodeId hbmCore off.toNat
  let lo := a.toNat / 65536 * 65536
  let touches (l : List (Nat × Nat)) : Bool := l.any (fun p => meets lo (lo + 65536) p.1 p.2)
  let need : Need := if write then .atomic else .load
  match s.hart.ops.find? (fun o => if write then touches o.writes else touches o.reads) with
  | some o =>
    let t := translate s s.hart.region s.hart.level need a
    if t.cause = awaitRemote then o.awaits t need a s else t.st
  | none => s

/-- The level of the table whose leaf maps a page of so many bits (R143). -/
def leafLevel (bits : Nat) : BitVec 3 := if bits = 30 then 2 else if bits = 21 then 3 else 4

/-- A node holds a translation of a page of a size (R147). -/
def State.addHolder (s : State) (r : BitVec 16) (base bits : Nat) (node : BitVec 4) : State :=
  let bit : BitVec 16 := 1#16 <<< node.toNat
  let same (h : Holder) : Bool := h.region == r && h.base == base && h.bits == bits
  if s.holders.any same then
    { s with holders := s.holders.map (fun h => if same h then { h with nodes := h.nodes ||| bit } else h) }
  else { s with holders := s.holders ++ [⟨r, base, bits, bit⟩] }

/-- The region of this module under which a translation request is walked (R371, R447); a module in recovery answers none. -/
def State.requestRegion (s : State) (node : BitVec 4) (q : BitVec 16) : Option Region :=
  (s.carried node (some q)).bind s.region?

/-- REMOTE_TRANSLATION_REQUEST (R145, R147, R371): the walk of the region that the requester's number acts as, for what the
access needs and at its hart's level; A and D are set as the walk of an own access sets them, by a pref none. A walk that meets a memory
error reports it and is not answered (R415). -/
def translationRequest (node : BitVec 4) (q : BitVec 16) (off : BitVec 49) (need : BitVec 3) (user : Bool) (s : State) : State :=
  let reply (level : BitVec 3) (leaf : Word) (c w : BitVec 8) (st : State) : State :=
    send (.transReply node q off level leaf c w) st
  if s.recovery then s
  else match s.requestRegion node q with
    | none => reply 0 0 5 9 s
    | some g =>
      match walk s g.ptroot off.toNat (needOf need) (if user then .U else .M) with
      | .fault c w => reply 0 0 c w s
      | .poison k => reportPoison (some g.num) k s
      | .leaf leaf bits entry =>
        let l := if need = 4 then leaf else leafAccessed leaf (needOf need).writes
        let s1 := if need = 4 then s else { s with mem := s.mem.store entry (leBytes l.toNat 8) }
        reply (leafLevel bits) l 0 0 ((noteCs l bits s1).addHolder g.num (off.toNat / 2 ^ bits * 2 ^ bits) bits node)

/-- TRANSLATION_REPLY (R147): it answers the oldest request for the page that has left its send queue. A leaf is cached behind
the hart that asked, tagged by the target node, and for a pref in the hart's own data TLB too; a refusal is kept for the access that asked, but for
a pref's (R162). -/
def translationReply (node : BitVec 4) (q : BitVec 16) (off : BitVec 49) (level : BitVec 3) (leaf : Word)
    (cause reason : BitVec 8) (s : State) : State :=
  match s.asks.find? (fun a => a.node == node && a.region == q && a.page == off.toNat / 65536) with
  | none => s
  | some a =>
    if s.unsent (fun p => match p with
        | .transRequest n r o nd u => n == node && r == some q && o.toNat / 65536 == a.page && nd == a.need && u == a.user
        | _ => false) then s
    else
      let s1 := { s with asks := s.asks.erase a }
      if cause = 0 then
        let bits := walkBits level.toNat
        let e : TlbEntry := ⟨node, q, off.toNat / 2 ^ bits * 2 ^ bits, bits, leaf⟩
        if a.need = 4 then s1.tlbPut (.data a.hart) e else s1.putSecond (hartTable a.hart) e
      else if a.need = 4 then s1
      else { s1 with tlbFaults := s1.tlbFaults ++ [⟨a, cause, reason⟩] }

/-- The global addresses that an invalidation of a node names: a page of a size, or all its HBM (kinds 1 and 2). -/
def staleSpan (node : BitVec 4) (kind : BitVec 2) (page : BitVec 49) (bits : BitVec 6) : Nat × Nat :=
  if kind = 0 then (memKey node hbmCore page.toNat, memKey node hbmCore page.toNat + 2 ^ bits.toNat)
  else (memKey node hbmCore 0, memKey node hbmCore 0 + 2 ^ 49)

/-- A cached translation that an invalidation takes. -/
def staleEntry (sp : Nat × Nat) (e : TlbEntry) : Bool :=
  meets (memKey e.node hbmCore e.base) (memKey e.node hbmCore e.base + 2 ^ e.bits) sp.1 sp.2

/-- An access of the hart under a translation that is to go (R147): a store still here, an operation sent to its target, or a
write not acknowledged. -/
def Hart.underStale (h : Hart) (sp : Nat × Nat) : Bool :=
  h.ops.any (fun o => anyMeet o.writes [sp] || (o.sent.isSome && anyMeet o.reads [sp]))
    || h.writes.any (fun w => anyMeet w.spans [sp])

/-- An access of an engine, a copy or an instruction to the page is on its way. -/
def State.farStale (s : State) (sp : Nat × Nat) : Bool :=
  s.far.any (fun f => f.ans.isNone && meets (64 * f.line) (64 * f.line + 64) sp.1 sp.2)

/-- The combining entries of the page start to drain (R147). -/
def Hart.drainStale (h : Hart) (sp : Nat × Nat) : Hart :=
  { h with comb := h.comb.map (fun e =>
      if meets (64 * e.line) (64 * e.line + 64) sp.1 sp.2 then { e with closed := true, draining := true } else e) }

/-- TLB_INVALIDATION (R147): the entries go and the combining entries drain; the acknowledgement is sent once every access
under the old translation is performed, and the event comes again until then. A module in recovery answers none (R430). -/
def tlbInvalidation (node : BitVec 4) (ticket : BitVec 32) (kind : BitVec 2) (page : BitVec 49) (bits : BitVec 6) (s : State) :
    State :=
  let sp := staleSpan node kind page bits
  let s1 := s.tlbDrop (staleEntry sp)
  if s.recovery then s
  else if s1.harts.any (fun h => h.underStale sp) || s1.farStale sp then s1.eachHart (fun h => h.drainStale sp)
  else send (.invalidateAck node ticket) s1

/-- INVALIDATION_ACK (R147, R424): a holder has acknowledged, or its link is dead. -/
def invalidationAck (node : BitVec 4) (ticket : BitVec 32) (dead : Bool) (s : State) : State :=
  let bit : BitVec 16 := 1#16 <<< node.toNat
  { s with tickets := s.tickets.map (fun t =>
      if t.num = ticket && (t.waiting &&& bit) != 0 then
        { t with waiting := t.waiting &&& ~~~bit, dead := if dead then t.dead ||| bit else t.dead }
      else t) }

/-! ### Accesses (R140, R204, R447) -/

/-- Where an access that arrives lies, or its REASON (R139, R140, R143, R447). HBM offsets are physical: those of host
nodes always, those of other nodes as their source translated them. -/
def arrivalPlace (acc : Access) (s : State) : Nat × BitVec 8 :=
  let core := gaCore acc.addr
  let off := gaOff acc.addr
  let host := s.isHost acc.node
  let region := s.carried acc.node acc.region
  if core = hbmCore then
    if host then (if off ≥ 2 ^ 39 then (0, 4) else (hbmKey s.nodeId off, 0))
    else if region.isNone then (0, 9)
    else (hbmKey s.nodeId off, 0)
  else if !s.present core then (0, 4)
  else if off ≥ sliceSize then (0, 5)
  else if !s.owns region (acc.mmode || host) core off then (0, 6)
  else (memKey s.nodeId core off, 0)

/-- The bytes of a write with the disabled ones as they stand. -/
def maskedBytes (acc : Access) (old : List Byte) : List Byte :=
  let new := leBytes acc.data.toNat acc.size
  (List.range acc.size).map (fun i => if acc.mask.getLsbD i then (new[i]?).getD 0 else (old[i]?).getD 0)

/-- An access performed at its target: whether it was, its REASON, and the data. -/
def serveAccess (acc : Access) (s : State) : Bool × BitVec 8 × BitVec 512 × State :=
  let (key, reason) := arrivalPlace acc s
  let region := s.carried acc.node acc.region
  let a := mkGa s.nodeId (gaCore acc.addr) (gaOff acc.addr)
  if reason ≠ 0 then (false, reason, 0, s)
  else if acc.vector && s.foreignFormatted Config.harts a then (false, 11, 0, s)
  else match acc.kind with
    | .read =>
      if s.poisoned key then (false, 0, 0, reportPoison region key s)
      else (true, 0, BitVec.ofNat 512 (leNat (s.readKey key (min acc.size 64))), s)
    | .write =>
      let (ok, s1) := writeHome region key (maskedBytes acc (s.readKey key acc.size)) s
      (ok, if ok then 0 else 10, 0, s1)
    | .atomic fn =>
      if s.poisoned key then (false, 0, 0, reportPoison region key s)
      else match amoHome region fn key (acc.data.setWidth 64) acc.cmp s with
      | (some v, s1) => (true, 0, v.setWidth 512, s1)
      | (none, s1) => (false, 10, 0, s1)

/-- An access that arrives is served and answered; a module in recovery answers none (R430). -/
def accessArrival (host : Bool) (acc : Access) (s : State) : State :=
  if s.recovery || acc.node = s.nodeId || s.isHost acc.node != host then s
  else
    let (ok, reason, data, s1) := serveAccess acc s
    send (.accessReply acc.node ok reason data) s1

/-! ### Token checks (R178) -/

/-- TOKEN_CHECK_REQUEST (R178): the exporter answers, at once or when its spindle reaches the sequence number. -/
def tokenRequest (node : BitVec 4) (tok : Word) (s : State) : State :=
  let w : TokenWait := ⟨node, tok⟩
  if s.recovery then s
  else match tokenVerdict s tok with
    | some ok => send (.tokenReply node ok) { s with tokenWaits := s.tokenWaits.filter (· != w) }
    | none => if s.tokenWaits.contains w then s else { s with tokenWaits := s.tokenWaits ++ [w] }

/-- TOKEN_CHECK_REPLY (R178): the simp of the hart in focus, once its request has left, ends as an acquire, or traps. -/
def tokenReply (ok : Bool) (s : State) : State :=
  match s.hart.run with
  | .token sd tok m =>
    if s.unsent (fun p => match p with | .tokenRequest _ t => t == tok | _ => false) then s
    else if ok then (s.onHart (fun h => h.acquire sd s.now)).done 4 m else trap 0x0D tok s
  | _ => s

end Sys2Proof.Machine
end

