-- ==== Sys2Proof/Machine/Power.lean ====
section
/-! DEFINITION. Checkpoints and rollback (15, R411 to R414), memory errors and retention (R415, R416), replays, operating
points and the start of the module (R417 to R420, R430, R449). -/

namespace Sys2Proof.Machine

/-! ### Checkpoints (R411, R412) -/

/-- EN and SIZE of CKPT allow intervals (R411). -/
def Region.logs (g : Region) : Bool := g.ckpt.getLsbD 0 && bitsOf g.ckpt 40 24 != 0

/-- An interval opens: its first 4 KiB of log are taken, and a record says so (R412, R427). -/
def openInterval (dom r : BitVec 16) (base limit : Nat) (n : NodeRec) (s : State) : State :=
  let (b, s1) := freeBytes 4096 s
  let i : Interval := ⟨dom, r, base, limit, [], false, n⟩
  let s2 := { s1 with
    mem := s1.mem.store (hbmKey s.nodeId base) b
    intervals := s1.intervals.filter (fun j => j.dom != dom) ++ [i] }
  regionRecord r 0x0C 0xFFFF 4096 0 s2

/-- ckpt (R412): the wait for the tick follows the wait for every strand. An issuer without a region gets code 1. -/
def execCkpt (d a : BitVec 5) (m : Bool) (s : State) : Out :=
  let xa := s.x a
  match s.hart.region.bind s.region? with
  | none => .next (answer d (errCode 1) m s)
  | some g =>
    if !g.logs then .next (answer d (errCode 1) m s)
    else match readDesc g.num xa s with
      | .wait st => .next st
      | .fault c ad st => .next (trap c ad st)
      | .got n bad s1 =>
        if bad then .next (answer d (errCode 2) m s1)
        else
          let s2 := s1.onHart Hart.drainAll
          if !s2.hart.allPerformed then .next (s.waitAs s2)
          else .next ({ s2 with
            restarts := assocSet s2.restarts s2.hart.num n }.onHart (fun h => { h with run := .ckpt (s2.now + 200) d m }))

/-- CHECKPOINT_TICK (R412): at T the old log goes, a new one opens, and ckpt of the hart in focus answers. -/
def checkpointTick (s : State) : State :=
  match s.hart.run, s.hart.region.bind s.region?, s.restarts.find? (fun p => p.1 == s.hart.num) with
  | .ckpt t d m, some g, some (_, n) =>
    if s.now.toNat < t.toNat then s
    else
      let old := s.intervalOf (some g.num)
      let used := match old with
        | some i => 4096 + 128 * i.log.length + if i.exhausted then 2 ^ 62 else 0
        | none => 0
      let s1 := { s with restarts := s.restarts.filter (fun p => p.1 != s.hart.num) }
      answer d (BitVec.ofNat 64 used) m
        (openInterval g.fdom g.num (bitsOf g.ckpt 16 23 * 65536) (bitsOf g.ckpt 40 24 * 65536) n s1)
  | _, _, _ => s

/-! ### Rollback (R414) -/

/-- The frames that regions hold. -/
def State.framesOf (s : State) (rs : List (BitVec 16)) : List Nat :=
  (List.range 128).filter (fun f => match s.frameHolder f with | some r => rs.contains r | none => false)

/-- Step 5 (R268, R414): the accumulator and the slots zeroed, the knot registers reset. -/
def Engine.rolledBack (e : Engine) : Engine :=
  { e with
    acc := []
    cim := []
    lo := 0
    h := 0
    hinv := 0
    g := 0
    p := 0
    mode := 0
    cntLo := 0
    cntHi := 0 }

/-- A region is running again after a rollback, but an END that it was given is still to come (R384, R392, log 43). -/
def Switch.rolledBack (w : Switch) : Switch :=
  match w with
  | .ending t _ | .resuming _ (some t) | .gstopped (some t) | .gresuming _ (some t) => .ending t false
  | _ => .running

/-- Step 2: everything of a region's nodes is discarded, its stairwells aborted and released. -/
def discardRegion (r : BitVec 16) (s : State) : State :=
  let s1 := releaseRegionSeqs r (abortRegion r s)
  let s2 := (s1.hartsOf [r]).foldl (fun st n => discardHart n (stopHart n st)) s1
  let s3 := (s2.lent.filter (fun l => l.region == r)).foldl (fun st l => l.harts.foldl (fun st h => spanBack h st) st) s2
  { s3 with
    locks := s3.locks.filter (fun l => l.region != some r)
    nodes := s3.nodes.filter (fun n => n.region != r)
    releases := s3.releases.filter (fun p => p.what.region != r)
    lent := s3.lent.filter (fun l => l.region != r)
    regions := s3.regions.map (fun g => if g.num = r then { g with saves := [], switch := g.switch.rolledBack } else g) }

/-- A region ends although a descendant of it lives on: its children become its parent's. -/
def dropAbove (r : BitVec 16) (s : State) : State :=
  match s.region? r with
  | none => s
  | some g => dropRegion r { s with regions := s.regions.map (fun h => if h.parent = some r then { h with parent := g.parent } else h) }

/-- Every region of a domain ends but the one kept (R414 steps 3 and 6). -/
def endDomain (rs : List (BitVec 16)) (keep : Option (BitVec 16)) (s : State) : State :=
  rs.foldl (fun st r =>
    if some r = keep then st
    else match keep with
      | some k => if (st.subtree r).contains k then dropAbove r st else endTree r st
      | none => endTree r st) s

/-- A pre-image written back; a line of a compressed page gives up or takes its overflow bytes (R166). -/
def restoreLine (s : State) (p : Nat × List Byte) : State :=
  let t := { s with mem := s.mem.store (64 * p.1) p.2 }
  if csPage s (64 * p.1) then { t with csOvfuse := BitVec.ofNat 64 (csUsed (64 * p.1) s t % 2 ^ 40) } else t

/-- Pre-images written back, newest first (R414 step 4). -/
def restoreLog (i : Interval) (s : State) : State := i.log.foldl restoreLine s

/-- A fault domain is rolled back (R414). -/
def rollBack (dom : BitVec 16) (cause : BitVec 8) (s0 : State) : State :=
  let s := { s0 with rollbacks := s0.rollbacks.filter (fun p => p.1 != dom) }
  let rs := (s.regions.filter (fun g => g.fdom == dom)).map (·.num)
  let frames := s.framesOf rs
  let open_ := (s.intervals.find? (fun i => i.dom == dom)).filter (fun i => (s.region? i.region).isSome)
  let s1 := rs.foldl (fun st r => discardRegion r st) s
  -- the stores that the stop performed may have filled the log
  let now := (s1.intervals.find? (fun i => i.dom == dom)).filter (fun i => open_.isSome && !i.exhausted)
  match now with
  | none => firmwareRecord 0x0D 0xFFFF 0xFFFF cause.toNat 0 (endDomain rs none s1)
  | some i =>
    let s2 := restoreLog i s1
    let s3 := frames.foldl (fun st f => st.setEngine (st.engine f).rolledBack) s2
    let s4 := endDomain rs (some i.region) s3
    let s5 := registerNode { i.restart with pred := 0 } s4
    let s6 := openInterval dom i.region i.base i.limit i.restart s5
    firmwareRecord 0x0D 0xFFFF i.region.toNat cause.toNat i.restart.desc.toNat
      (regionRecord i.region 0x0D 0xFFFF cause.toNat i.restart.desc.toNat s6)

/-! ### Memory errors (R415) -/

/-- The place is a store of this module (R2, R24). -/
def State.holdsPlace (s : State) (p : ErrPlace) : Bool :=
  match p with
  | .mem key =>
    let core := key / 2 ^ 49 % 2 ^ 11
    key / 2 ^ 60 == s.nodeId.toNat
      && (if core = hbmCore then decide (key % 2 ^ 49 < 2 ^ 39) else s.present core && decide (key % 2 ^ 49 < sliceSize))
  | .acc f | .cim f => decide (f < 128) && s.frameLive f

/-- The gallery that holds the place, and what tr.val gives: the spec gives the stores of an engine no address (R415, log
56). -/
def errorPlace (p : ErrPlace) (s : State) : Nat × Word × State :=
  match p with
  | .mem key => (keyGallery key, keyAddress key, s)
  | .acc f | .cim f => let (v, s1) := s.takeFree; (f / 32, v, s1)

/-- The access that met the error never delivers data: a load, an atomic or an msend gets no value, a copy delivers nothing
more, and an engine's command is not completed (R154, R234, R415). -/
def loseAccess (n : Nat) (o : Op) (s : State) : State :=
  match o.kind with
  | .engine => loseCmd n o.id s
  | .copy slot => s.modHart n (fun h => h.setSlot slot { h.slot slot with lost := true })
  | _ => s.withHart n (fun t => loseOp o t)

/-- The hart fetches its next instruction, or waits for the access that its next instruction makes at once. -/
def Hart.fetches (h : Hart) : Bool := h.run == .running || h.run == .blocked

/-- UNCORRECTABLE_MEMORY_ERROR (R234, R415): it is met by an operation of a hart that is not yet performed, or by the fetch or the
walk that a hart makes for its next instruction, which the hart then makes anew. -/
def uncorrectable (p : ErrPlace) (n op : Nat) (s : State) : State :=
  if !s.holdsPlace p then s
  else if op = ErrAccess.fetch then
    if s.present n && (s.getHart n).fetches then
      let (g, v, s1) := errorPlace p s
      memoryError g v (s.getHart n).region (s1.modHart n (fun h => { h with run := .blocked }))
    else s
  else match (s.getHart n).op? op with
    | none => s
    | some o =>
      let (g, v, s1) := errorPlace p s
      memoryError g v o.region (loseAccess n o s1)

/-- PATROL_SCRUB (R415): corrected, or recorded and kept for the first reader. -/
def patrolScrub (pa : BitVec 39) (correctable : Bool) (s : State) : State :=
  if correctable then s
  else
    let line := hbmKey s.nodeId pa.toNat / 64
    firmwareRecord 0x0F 0xFFFF 0xFFFF pa.toNat 0 (if s.poison.contains line then s else { s with poison := s.poison ++ [line] })

/-! ### Retention (R416) -/

/-- The hart has been in sleep or wfi for 20 µs with nothing queued. -/
def Hart.restful (h : Hart) (now : Word) : Bool :=
  (match h.run with | .timed 1 _ _ _ | .wfi _ => true | _ => false)
    && decide (h.idleSince.toNat + 20000 ≤ now.toNat) && h.cmds.isEmpty
    && !h.copies.any (fun p => p.2.taken && (p.2.st == .queued || p.2.st == .running))

/-- The harts of a quad. -/
def quadHarts (q : Nat) : List Nat := (List.range 4).map (fun i => 4 * q + i)

/-- RETENTION_ENTRY (R416). -/
def retentionEntry (q : Nat) (s : State) : State :=
  if q < 256 && (quadHarts q).all (fun n => (s.getHart n).restful s.now) then
    (quadHarts q).foldl (fun st n => st.modHart n (fun h => match h.run with
      | .timed _ t d m => { h with run := .retention (some (1, t, d)) m }
      | .wfi m => { h with run := .retention none m }
      | _ => h)) s
  else s

/-- The hart has an interrupt that is taken where it stands (R399). -/
def Hart.takes (h : Hart) (q : Irq) : Bool :=
  let l := irqLevel q.cause
  decide (h.level.rank < l.rank) || (h.level == l && (h.bank l).ie)

/-- A hart in retention has an event to wake to. -/
def Hart.stirs (h : Hart) (now : Word) : Bool :=
  match h.run with
  | .retention (some (_, t, _)) _ => decide (t.toNat ≤ now.toNat) || h.irqs.any h.takes
  | .retention none _ => h.wakes
  | _ => false

/-- The hart waits again as before retention. -/
def Hart.leaveRetention (h : Hart) (now : Word) : Hart :=
  match h.run with
  | .retention (some (k, t, d)) m => { h with run := .timed k t d m, idleSince := now }
  | .retention none m => { h with run := .wfi m, idleSince := now }
  | _ => h

/-- A hart whose quad has lost its contents: registers and spindles zeroed, those too that a reset gives another value. -/
def Hart.lost (h : Hart) : Hart :=
  { Hart.reset h.num with
    scout := false
    duty := 0
    req := 0
    gwRid := 0
    level := h.level
    run := h.run
    node := h.node
    nextOp := h.nextOp }

/-- RETENTION_EXIT (R416, R422): admitted by the start sequencer; a parity failure loses the quad's contents. -/
def retentionExit (q : Nat) (fails : Bool) (s : State) : State :=
  if (quadHarts q).any (fun n => (s.getHart n).stirs s.now) && s.slotFree then
    let s1 := (quadHarts q).foldl (fun st n => st.modHart n (fun h => h.leaveRetention st.now)) { s with lastAdmit := some s.now }
    if fails then
      let regions := ((quadHarts q).filterMap (fun n => (s.getHart n).region)).eraseDups
      let s2 := (quadHarts q).foldl (fun st n => st.modHart n Hart.lost) s1
      let s3 := { s2 with
        mem := (quadHarts q).foldl (fun m n => Cells.clear m (sliceLo s n) (sliceHi s n)) s2.mem
        bankFmt := s2.bankFmt.filter (fun p => p.1 / 32 != q) }
      let s4 := raiseIrq (1088 + hartGallery (4 * q)) 0x14 (BitVec.ofNat 64 q) s3
      let s5 := firmwareRecord 0x0E 0xFFFF 0xFFFF q 0 s4
      regions.foldl (fun st r => askRollback (some r) 0x14 st) s5
    else s1
  else s

/-! ### Replays and operating points (R417 to R420) -/

/-- A power domain replaced. -/
def State.setDomain (s : State) (d : Domain) : State :=
  { s with domains := s.domains.filter (fun e => decide (e.num < d.num)) ++ [d] ++ s.domains.filter (fun e => decide (d.num < e.num)) }

/-- The coding of a domain in a record (R427). -/
def domainCode (n : Nat) : Nat :=
  if n < 256 then n else if n < 384 then n - 256 + 2 ^ 16 else n - 384 + 1024 + 2 * 2 ^ 16

/-- The replays of a domain within the last microsecond (R417). -/
def State.replaysOf (s : State) (dom : Nat) : Nat :=
  ((s.replays.filter (fun p => p.1 == dom && decide (s.now.toNat < p.2.1.toNat + 1000))).map (fun p => p.2.2)).sum

/-- The replays that still count: those of the last microsecond. -/
def State.freshReplays (s : State) : List (Nat × Word × Nat) := s.replays.filter (fun p => decide (s.now.toNat < p.2.1.toNat + 1000))

/-- TIMING_ERROR_REPLAY (R417): so many replays of the hart in focus; more than 64 of its domain within 1 µs lower the domain's cap by
a point, and the replays so answered count no more (log 49). -/
def timingReplay (count : Nat) (s : State) : State :=
  let n := hartDomain s.hart.num
  let total := s.replaysOf n + count
  let s1 := s.onHart (fun h => { h with rcnt := BitVec.ofNat 32 (min (h.rcnt.toNat + count) (2 ^ 32 - 1)) })
  if total > 64 then
    let d := s1.domain n
    firmwareRecord 0x10 0xFFFF 0xFFFF (domainCode n) total
      ({ s1 with replays := s.freshReplays.filter (fun p => p.1 != n) }.setDomain { d with cap := if d.cap = 0 then 0 else d.cap - 1 })
  else { s1 with replays := s.freshReplays ++ [(n, s.now, count)] }

/-- The harts whose requests count for a domain (R418). -/
def domainHarts (n : Nat) : List Nat :=
  if n < 256 then quadHarts n else if n < 384 then frameHarts (n - 256) else [n - 384 + 1024]

/-- A hart executes, in a node or in M-mode code outside one (R418). -/
def Hart.executes (h : Hart) : Bool := match h.run with | .free | .halted => false | _ => true

/-- The point a recomputation gives a domain under a cap. -/
def State.pointFor (s : State) (n : Nat) (cap : BitVec 3) : BitVec 3 :=
  let reqs := ((domainHarts n).map s.getHart).filterMap (fun h => if h.executes then some h.req.toNat else none)
  BitVec.ofNat 3 (min (reqs.foldl max 0) cap.toNat)

/-- The fetch duty that a domain's harts have; an engine has none (R419). -/
def State.dutyOf (s : State) (n : Nat) : Nat :=
  if 256 ≤ n && n < 384 then 16 else (((domainHarts n).map (fun h => (s.getHart h).duty.toNat)).head?).getD 16

/-- What the domains draw at the caps that the tree has given them, in milliwatts, when one gets another cap and duty (R32). -/
def State.drawWith (s : State) (n : Nat) (cap : BitVec 3) (duty : BitVec 5) : Nat :=
  ((s.domains.filter (fun d => d.num != n && d.given.isSome)).map (fun d => Config.draw d.num d.cap.toNat (s.dutyOf d.num))).sum
    + Config.draw n cap.toNat duty.toNat

/-- A recomputation the tree may make (R32, R419, R420): below duty 16 only at point 0, duty 0 for no hart that runs a node, and
within the module's cap; the least that a domain can get, point 0 at duty 1, always fits (log 49). -/
def budgetAllowed (n : Nat) (cap : BitVec 3) (duty : BitVec 5) (s : State) : Bool :=
  decide (n < 384 + 68) && decide (duty.toNat ≤ 16) && (duty == 16 || cap == 0)
    && (duty != 0 || (domainHarts n).all (fun h => (s.getHart h).node.isNone))
    && ((cap == 0 && decide (duty.toNat ≤ 1)) || decide (s.drawWith n cap duty ≤ 1000 * s.capW))

/-- A domain's point changes, with its record (R420). -/
def changePoint (d : Domain) (p : BitVec 3) (s : State) : State :=
  firmwareRecord 0x0B 0xFFFF 0xFFFF (domainCode d.num) (p.toNat + d.cap.toNat * 2 ^ 32) (s.setDomain { d with point := p, next := none })

/-- A domain's next recomputation has come: the tree recomputes every 10 µs (R32). -/
def Domain.due (d : Domain) (now : Word) : Bool :=
  match d.given with
  | none => true
  | some t => decide (t.toNat + 10000 ≤ now.toNat)

/-- BUDGET_RECOMPUTE (R32, R418 to R420): the cap and the duty that the tree gives a domain (log 49), and the point that a relock
will bring. -/
def budgetRecompute (n : Nat) (cap : BitVec 3) (duty : BitVec 5) (s : State) : State :=
  if budgetAllowed n cap duty s && (s.domain n).due s.now then
    let d := s.domain n
    let p := s.pointFor n cap
    let s1 := s.setDomain { d with cap := cap, next := if p = d.point then none else some p, given := some s.now }
    if 256 ≤ n && n < 384 then s1
    else (domainHarts n).foldl (fun st h => if st.present h then st.modHart h (fun t => { t with duty := duty }) else st) s1
  else s

/-- CLOCK_RELOCK (R418): the domain runs at its new point. -/
def clockRelock (n : Nat) (s : State) : State :=
  match (s.domain n).next with
  | some p => changePoint (s.domain n) p s
  | none => s

/-! ### The module (R430, R449) -/

/-- A memory key of a module whose fabric node gets another number. -/
def rekey (node : BitVec 4) (k : Nat) : Nat := node.toNat * 2 ^ 60 + k % 2 ^ 60

/-- The memory of a node that gets another number. -/
def Memory.renode (old new : BitVec 4) (m : Memory) : Memory :=
  (m.filter (fun p => p.1 / 2 ^ 60 == old.toNat)).map (fun p => (rekey new p.1, p.2))

/-- The lowest-numbered hart that is present: the one that runs after a reset (log 3). -/
def State.bootHart (s : State) : Nat := ((List.range Config.harts).find? s.present).getD 1024

/-- MODULE_RESET (R2, R23, R30, R169, R428, R430, R447, R449): every reset value again, and what firmware finds and fixes at
this start (`boot`, log 3); the module stays in recovery when the firmware does not verify. The contents of memory are not said to
change, and a slice or a local store that a region has left its bytes in is zeroed for the next one (R11, R381, log 31). -/
def moduleReset (s : State) : State :=
  let boot := s.boot
  let s1 := { State.reset with
    mem := s.mem.renode s.nodeId boot.node
    poison := s.poison.map (fun (l : Nat) => rekey boot.node (64 * l) / 64)
    lastOwner := s.lastOwner.map (fun (p : Nat × BitVec 16) => (p.1, (0xFFFF : BitVec 16)))
    lastFrame := s.lastFrame.map (fun (p : Nat × BitVec 16) => (p.1, (0xFFFF : BitVec 16)))
    nodeId := boot.node
    removedQuads := boot.quads
    removedFrames := boot.frames
    partRev := boot.partRev
    fwVer := boot.fwVer
    hosts := boot.hosts
    capW := min 2400 boot.cap
    recovery := !boot.verified
    boot := boot
    wear := s.wear
    sched := s.sched
    tick := s.tick
    freeCtr := s.freeCtr
    noiseCtr := s.noiseCtr }
  { s1 with hart := { Hart.reset s1.bootHart with run := .running } }

/-- A request of a host node that is answered also in recovery (R430): attestation, or a firmware update. -/
def hostRequest (node : BitVec 4) (firmware : Bool) (s : State) : State :=
  if s.isHost node && node != s.nodeId then send (.report node firmware) s else s

end Sys2Proof.Machine
end

