-- ==== Sys2Proof/Machine/Events.lean ====
section
/-! DEFINITION. The rows of the opcode table that are no instructions: one step of another agent each (the walkers, the
banks, the engines, the copy channels, the links, the dispatcher, the outside world). An event that is not due, or names
nothing, changes nothing. -/

namespace Sys2Proof.Machine

/-! ### The hart -/

/-- The hart issues instructions, or tries one again. -/
def Hart.issues (h : Hart) : Bool := match h.run with | .running | .blocked => true | _ => false

/-- A hart issues now: it is not deconfigured (R2), its fetch duty is not 0 (R419), and the tick at which its region stops has
not come (R392). -/
def State.mayIssue (s : State) (h : Hart) : Bool :=
  h.issues && s.present h.num && h.duty != 0 && !(h.region.map s.stopsNow).getD false

/-- The instruction at the pc is fetched; a fault or a word that is none traps (R63, R84). -/
def fetchNext (s : State) : State :=
  if s.mayIssue s.hart then
    match fetchAt s.hart.pc s with
    | .got _ _ _ st => st
    | .illegal bits st => trap 0x01 bits st
    | .fault c a st => trap c a st
    | .wait st => st.block
  else s

/-- The order in which waiting interrupts are taken (R399). -/
def irqOrder : List (BitVec 8) := [0x15, 0x14, 0x13, 0x0C, 0x12]

/-- The interrupt that is taken next, if any (R399). -/
def Hart.nextIrq (h : Hart) : Option Irq :=
  irqOrder.findSome? (fun c => h.irqs.find? (fun q => q.cause == c && h.takes q))

/-- An interrupt leaves the list. -/
def Hart.dropOne (h : Hart) (q : Irq) : Hart := { h with irqs := h.irqs.erase q }

/-- A copy's user interrupt (R339): its handler must begin with lpad 0; its slot is freed at the entry. The rule names no other
failure of the first instruction's fetch: a word that is no lpad 0 traps with 0x09, a fetch that faults with its own cause, both at the
handler's address, and the interrupt is used up (log 82). -/
def enterHandler (q : Irq) (s : State) : State :=
  match fetchAt q.handler s with
  | .got (.lpad 0 _) _ _ st =>
    ((enterTrap 0x12 true st.hart.pc st.hart.pc q.val (some q.handler) st).onHart (fun h => (h.freeCopy q.slot).acquireAll st.now)).farDone
  | .wait st => st.onHart (fun h => { h with irqs := q :: h.irqs })
  | .got _ _ _ st => (trap 0x09 q.handler st).farDone
  | .illegal _ st => (trap 0x09 q.handler st).farDone
  | .fault c _ st => (trap c q.handler st).farDone

/-- What other nodes refused an access of the hart in focus is forgotten: the access is not tried again. -/
def State.forgetFaults (s : State) : State := { s with tlbFaults := s.tlbFaults.filter (fun f => f.ask.hart != s.hart.num) }

/-- INTERRUPT_TAKEN (R399, R400): at an instruction boundary. -/
def takeInterrupt (s : State) : State :=
  match s.hart.run, s.hart.nextIrq with
  | .running, some q =>
    let s1 := s.forgetFaults.onHart (fun h => h.dropOne q)
    if q.cause = 0x12 then enterHandler q s1 else (enterTrap q.cause true s.hart.pc s.hart.pc q.val none s1).farDone
  | _, _ => s

/-- WAIT_DEADLINE (R134, R135). -/
def waitDeadline (s : State) : State :=
  match s.hart.run with
  | .timed k t d m =>
    if t.toNat ≤ s.now.toNat then (s.setX d (if k = 1 then 0 else s.now)).done 4 m else s
  | _ => s

/-- SLEEP_WAKE_EVENT (R136): an enabled interrupt ends a sleep. -/
def sleepWake (s : State) : State :=
  match s.hart.run with
  | .timed 1 _ d m => if s.hart.irqs.any s.hart.takes then (s.setX d 1).done 4 m else s
  | _ => s

/-- The hart does not stand still with its region. -/
def State.moving (s : State) : Bool := match s.hart.run with | .stopped _ => false | _ => true

/-- An operation of some kinds performed, when the hart is not stopped. -/
def performKind (ok : OpKind → Bool) (id : Nat) (s : State) : State :=
  match s.hart.op? id with
  | some o => if s.moving && ok o.kind then performOp id s else s
  | none => s

/-- INSTRUCTION_FETCH (R63). -/
def execInstructionFetch (s : State) : Out := .next (fetchNext s)
/-- PARK_END (R68). -/
def execParkEnd (s : State) : Out := .next (parkEnd s)
/-- NONBLOCKING_RESULT_RETURN (R116). -/
def execNonblockingResultReturn (id : Nat) (s : State) : Out := .next (if s.moving then resultReturn id s else s)
/-- INTERRUPT_TAKEN (R399). -/
def execInterruptTaken (s : State) : Out := .next (takeInterrupt s)
/-- WAIT_DEADLINE (R135). -/
def execWaitDeadline (s : State) : Out := .next (waitDeadline s)
/-- WFI_WAKE (R408). -/
def execWfiWake (s : State) : Out := .next (wfiWake s)
/-- SLEEP_WAKE_EVENT (R136). -/
def execSleepWakeEvent (s : State) : Out := .next (sleepWake s)

/-! ### Memory -/

/-- PAGE_WALK (R144). -/
def execPageWalk (off : BitVec 49) (write : Bool) (s : State) : Out := .next (pageWalk off write s)
/-- REMOTE_TRANSLATION_REQUEST (R147). -/
def execRemoteTranslationRequest (node : BitVec 4) (region : BitVec 16) (off : BitVec 49) (want : WalkNeed) (s : State) : Out :=
  .next (translationRequest node region off want.need want.user s)
/-- TRANSLATION_REPLY (R147). -/
def execTranslationReply (node : BitVec 4) (region : BitVec 16) (off : BitVec 49) (level : BitVec 3) (leaf : BitVec 64)
    (cause reason : BitVec 8) (s : State) : Out := .next (translationReply node region off level leaf cause reason s)
/-- TLB_INVALIDATION (R147). -/
def execTlbInvalidation (node : BitVec 4) (ticket : BitVec 32) (kind : BitVec 2) (page : BitVec 49) (bits : BitVec 6)
    (s : State) : Out :=
  .next (tlbInvalidation node ticket kind page bits s)
/-- INVALIDATION_ACK (R147). -/
def execInvalidationAck (node : BitVec 4) (ticket : BitVec 32) (dead : Bool) (s : State) : Out := .next (invalidationAck node ticket dead s)
/-- REMOTE_ACCESS_ARRIVAL (R140). -/
def execRemoteAccessArrival (acc : Access) (s : State) : Out := .next (accessArrival false acc s)
/-- HOST_ACCESS_ARRIVAL (R447). -/
def execHostAccessArrival (acc : Access) (s : State) : Out := .next (accessArrival true acc s)
/-- COMBINING_DRAIN (R158). -/
def execCombiningDrain (k : Nat) (s : State) : Out := .next (drainEntry k s)
/-- COMBINING_IDLE_TIMEOUT (R158). -/
def execCombiningIdleTimeout (k : Nat) (s : State) : Out := .next (idleDrain k s)
/-- WRITE_ACKNOWLEDGEMENT (R348). -/
def execWriteAcknowledgement (id : Nat) (status : BitVec 3) (s : State) : Out := .next (writeAck id status s)
/-- ROUTER_READ_ABSORB (R159). -/
def execRouterReadAbsorb (id : Nat) (s : State) : Out := .next (performKind OpKind.isRead id s)
/-- READ_REPLY_ARRIVAL (R159). -/
def execReadReplyArrival (k : Nat) (ok : Bool) (reason : BitVec 8) (data : BitVec 512) (s : State) : Out :=
  .next (replyArrival k ok reason data s)
/-- ATOMIC_PERFORM (R160). -/
def execAtomicPerform (id : Nat) (ok : Bool) (reason : BitVec 8) (old : BitVec 64) (s : State) : Out :=
  .next (if s.moving then atomicReply id ok reason old s else s)
/-- PIN_EXPIRY (R164). -/
def execPinExpiry (k : Nat) (s : State) : Out := .next (pinExpiry k s)
/-- FORK_MARKER_PERFORMED (R173). -/
def execForkMarkerPerformed (id : Nat) (s : State) : Out :=
  .next (performKind (fun k => match k with | .fork .. => true | _ => false) id s)
/-- JOIN_MARKER_PERFORMED (R174). -/
def execJoinMarkerPerformed (id : Nat) (s : State) : Out :=
  .next (performKind (fun k => match k with | .join .. => true | _ => false) id s)
/-- TOKEN_CHECK_REQUEST (R178). -/
def execTokenCheckRequest (node : BitVec 4) (token : BitVec 64) (s : State) : Out := .next (tokenRequest node token s)
/-- TOKEN_CHECK_REPLY (R178). -/
def execTokenCheckReply (ok : Bool) (s : State) : Out := .next (tokenReply ok s)
/-- STREAM_FETCH (R212). -/
def execStreamFetch (r : BitVec 3) (s : State) : Out := .next (if s.moving then streamFetch r s else s)

/-! ### Engines, cycles and copies -/

/-- TILE_BEGIN (R243). -/
def execTileBegin (frame : Nat) (s : State) : Out := .next (if frame < 128 then tileBegin frame s else s)
/-- STRIP_DRAIN (R245). -/
def execStripDrain (frame : Nat) (s : State) : Out := .next (if frame < 128 then stripDrain frame s else s)
/-- BUS_TILE_ARRIVAL (R260). -/
def execBusTileArrival (frame : Nat) (s : State) : Out := .next (if frame < 128 then busTile frame s else s)
/-- GRID_COMMAND_PERFORM (R274). -/
def execGridCommandPerform (frame : Nat) (s : State) : Out := .next (if frame < 128 then gridPerform frame s else s)
/-- ENGINE_CLOCK_GATE (R265). -/
def execEngineClockGate (frame : Nat) (s : State) : Out := .next (if frame < 128 then engineGate frame s else s)
/-- START_SEQUENCER_ADMIT (R422). -/
def execStartSequencerAdmit (s : State) : Out := .next (startAdmit s)
/-- BARRIER_RELEASE (R302). -/
def execBarrierRelease (stair : BitVec 4) (s : State) : Out := .next (barrierRelease stair s)
/-- PHASE_TIMEOUT (R303). -/
def execPhaseTimeout (stair : BitVec 4) (s : State) : Out := .next (phaseTimeout stair s)
/-- CYCLE_DECISION (R305). -/
def execCycleDecision (stair : BitVec 4) (s : State) : Out := .next (cycleDecision stair s)
/-- COPY_BEGIN (R321). -/
def execCopyBegin (group : Nat) (s : State) : Out := .next (copyBegin group s)
/-- COPY_UNIT_DELIVERED (R328). -/
def execCopyUnitDelivered (slot : BitVec 8) (s : State) : Out := .next (copyUnit slot s)
/-- COPY_ERROR_STOP (R334). -/
def execCopyErrorStop (slot code : BitVec 8) (s : State) : Out := .next (copyErrorStop slot code s)

/-! ### Messages and the fabric -/

/-- MESSAGE_ARRIVAL (R357). -/
def execMessageArrival (msg : Message) (s : State) : Out := .next (messageArrival msg s)
/-- OVERFLOW_PAYLOAD_COPY (R357). -/
def execOverflowPayloadCopy (slot : BitVec 5) (s : State) : Out := .next (if s.moving then overflowCopy slot s else s)
/-- DEADLOCK_PROBE (R350). -/
def execDeadlockProbe (node : BitVec 4) (s : State) : Out := .next (deadlockProbe node s)
/-- PROBE_RETURN (R350). -/
def execProbeReturn (node : BitVec 4) (s : State) : Out :=
  .next (probeReturn node s)
/-- LANE_FAILURE (R351). -/
def execLaneFailure (peer : BitVec 4) (loss : LaneLoss) (s : State) : Out := .next (laneFailure peer loss.fibre loss.done s)
/-- CRC_ERROR_RESEND (R352). -/
def execCrcErrorResend (peer : BitVec 4) (fibre : BitVec 6) (s : State) : Out := .next (crcResend peer fibre s)
/-- POSTED_WRITE_REFUSED (R353). -/
def execPostedWriteRefused (id : Nat) (s : State) : Out := .next (writeRefused id s)
/-- PACKET_BOUNDARY (R352). -/
def execPacketBoundary (peer : BitVec 4) (cls : BitVec 2) (s : State) : Out := .next (packetBoundary peer cls s)
/-- LANE_LOCKED (R354). -/
def execLaneLocked (peer : BitVec 4) (fibre : BitVec 6) (s : State) : Out := .next (laneLocked peer fibre s)
/-- SKEIN_PARKED (R354). -/
def execSkeinParked (skein : BitVec 3) (s : State) : Out := .next (skeinParked skein s)
/-- SKEIN_WAKE_TIMEOUT (R354). -/
def execSkeinWakeTimeout (skein : BitVec 3) (s : State) : Out := .next (wakeTimeout skein s)
/-- FIRMWARE_RETUNE (R354). -/
def execFirmwareRetune (peer : BitVec 4) (fibre : BitVec 6) (s : State) : Out := .next (retune peer fibre s)
/-- MIGRATION_FORWARD_EXPIRY (R359). -/
def execMigrationForwardExpiry (k : Nat) (s : State) : Out := .next (forwardExpiry k s)

/-! ### The dispatcher, the ring and gang stops -/

/-- RELEASE_POINT_PERFORMED (R382). -/
def execReleasePointPerformed (k : Nat) (s : State) : Out := .next (releasePoint k s)
/-- DISPATCH (R379). -/
def execDispatch (s : State) : Out := .next (dispatch s)
/-- PRIORITY_AGEING (R379). -/
def execPriorityAgeing (k : Nat) (s : State) : Out := .next (priorityAgeing k s)
/-- RING_WP (R384). -/
def execRingWp (v : BitVec 64) (s : State) : Out := .next (if s.recovery then s else ringSetWp (v.setWidth 16) s)
/-- RING_RESET (R383). -/
def execRingReset (v : BitVec 64) (s : State) : Out := .next (if s.recovery then s else ringDoReset v s)
/-- LAUNCH (R384). -/
def execLaunch (s : State) : Out := .next (ringExec 1 s)
/-- SUSPEND (R384). -/
def execSuspend (s : State) : Out := .next (ringExec 2 s)
/-- RESUME (R384). -/
def execResume (s : State) : Out := .next (ringExec 3 s)
/-- END (R384). -/
def execEndRec (s : State) : Out := .next (ringExec 4 s)
/-- UNKNOWN_KIND_RING_RECORD (R384). -/
def execUnknownKindRingRecord (s : State) : Out := .next (ringUnknown s)
/-- GANG_STOP (R392). -/
def execGangStop (region : BitVec 16) (s : State) : Out := .next (gangStop region s)
/-- GANG_RESUME (R394). -/
def execGangResume (region : BitVec 16) (s : State) : Out := .next (gangResume region s)
/-- GSTOP_RESUME (R410). -/
def execGstopResume (region : BitVec 16) (s : State) : Out := .next (gstopResume region s)
/-- CHECKPOINT_TICK (R412). -/
def execCheckpointTick (s : State) : Out := .next (checkpointTick s)

/-! ### Errors, power and the module -/

/-- UNCORRECTABLE_MEMORY_ERROR (R415). -/
def execUncorrectableMemoryError (place : ErrPlace) (met : ErrAccess) (s : State) : Out := .next (uncorrectable place met.hart met.op s)
/-- PATROL_SCRUB (R415). -/
def execPatrolScrub (pa : BitVec 39) (correctable : Bool) (s : State) : Out := .next (patrolScrub pa correctable s)
/-- RETENTION_ENTRY (R416). -/
def execRetentionEntry (quad : Nat) (s : State) : Out := .next (retentionEntry quad s)
/-- RETENTION_EXIT (R416). -/
def execRetentionExit (quad : Nat) (parityFails : Bool) (s : State) : Out := .next (if quad < 256 then retentionExit quad parityFails s else s)
/-- TIMING_ERROR_REPLAY (R417). -/
def execTimingErrorReplay (count : Nat) (s : State) : Out := .next (timingReplay count s)
/-- BUDGET_RECOMPUTE (R418). -/
def execBudgetRecompute (domain : Nat) (cap : BitVec 3) (duty : BitVec 5) (s : State) : Out := .next (budgetRecompute domain cap duty s)
/-- CLOCK_RELOCK (R418). -/
def execClockRelock (domain : Nat) (s : State) : Out := .next (clockRelock domain s)
/-- MODULE_RESET (R449). -/
def execModuleReset (s : State) : Out := .next (moduleReset s)
/-- ATTESTATION_REQUEST (R430). -/
def execAttestationRequest (node : BitVec 4) (s : State) : Out := .next (hostRequest node false s)
/-- FIRMWARE_UPDATE_REQUEST (R430). -/
def execFirmwareUpdateRequest (node : BitVec 4) (s : State) : Out := .next (hostRequest node true s)

end Sys2Proof.Machine
end

