-- ==== Sys2Proof/Machine/Dispatch.lean ====
section
/-! DEFINITION. One arm per instruction: its meaning. -/

namespace Sys2Proof.Machine

def exec (i : Instr) (s : State) : Host.Outcome State Fault Refusal :=
  match i with
  | .add d a b w m => Sys2Proof.Machine.execAdd d a b w m s
  | .sub d a b w m => Sys2Proof.Machine.execSub d a b w m s
  | .and d a b m => Sys2Proof.Machine.execAnd d a b m s
  | .or d a b m => Sys2Proof.Machine.execOr d a b m s
  | .xor d a b m => Sys2Proof.Machine.execXor d a b m s
  | .sll d a b w m => Sys2Proof.Machine.execSll d a b w m s
  | .srl d a b w m => Sys2Proof.Machine.execSrl d a b w m s
  | .sra d a b w m => Sys2Proof.Machine.execSra d a b w m s
  | .slt d a b m => Sys2Proof.Machine.execSlt d a b m s
  | .sltu d a b m => Sys2Proof.Machine.execSltu d a b m s
  | .min d a b m => Sys2Proof.Machine.execMin d a b m s
  | .max d a b m => Sys2Proof.Machine.execMax d a b m s
  | .minu d a b m => Sys2Proof.Machine.execMinu d a b m s
  | .maxu d a b m => Sys2Proof.Machine.execMaxu d a b m s
  | .rotl d a b w m => Sys2Proof.Machine.execRotl d a b w m s
  | .rotr d a b w m => Sys2Proof.Machine.execRotr d a b w m s
  | .mul d a b w m => Sys2Proof.Machine.execMul d a b w m s
  | .mulh d a b m => Sys2Proof.Machine.execMulh d a b m s
  | .mulhu d a b m => Sys2Proof.Machine.execMulhu d a b m s
  | .div d a b w m => Sys2Proof.Machine.execDiv d a b w m s
  | .divu d a b w m => Sys2Proof.Machine.execDivu d a b w m s
  | .rem d a b w m => Sys2Proof.Machine.execRem d a b w m s
  | .remu d a b w m => Sys2Proof.Machine.execRemu d a b w m s
  | .sel d a b c m => Sys2Proof.Machine.execSel d a b c m s
  | .clz d a w m => Sys2Proof.Machine.execClz d a w m s
  | .ctz d a w m => Sys2Proof.Machine.execCtz d a w m s
  | .popc d a w m => Sys2Proof.Machine.execPopc d a w m s
  | .sext d a sn m => Sys2Proof.Machine.execSext d a sn m s
  | .zext d a sn m => Sys2Proof.Machine.execZext d a sn m s
  | .bext d a m => Sys2Proof.Machine.execBext d a m s
  | .bins d a m => Sys2Proof.Machine.execBins d a m s
  | .lea d a b l m => Sys2Proof.Machine.execLea d a b l m s
  | .addi d a imm m => Sys2Proof.Machine.execAddi d a imm m s
  | .andi d a imm m => Sys2Proof.Machine.execAndi d a imm m s
  | .ori d a imm m => Sys2Proof.Machine.execOri d a imm m s
  | .xori d a imm m => Sys2Proof.Machine.execXori d a imm m s
  | .slti d a imm m => Sys2Proof.Machine.execSlti d a imm m s
  | .sltiu d a imm m => Sys2Proof.Machine.execSltiu d a imm m s
  | .slli d a sn m => Sys2Proof.Machine.execSlli d a sn m s
  | .srli d a sn m => Sys2Proof.Machine.execSrli d a sn m s
  | .srai d a sn m => Sys2Proof.Machine.execSrai d a sn m s
  | .li d imm m => Sys2Proof.Machine.execLi d imm m s
  | .lsh d imm m => Sys2Proof.Machine.execLsh d imm m s
  | .pcrel d imm m => Sys2Proof.Machine.execPcrel d imm m s
  | .gadr d a b m => Sys2Proof.Machine.execGadr d a b m s
  | .beq a b o m => Sys2Proof.Machine.execBeq a b o m s
  | .bne a b o m => Sys2Proof.Machine.execBne a b o m s
  | .blt a b o m => Sys2Proof.Machine.execBlt a b o m s
  | .bge a b o m => Sys2Proof.Machine.execBge a b o m s
  | .bltu a b o m => Sys2Proof.Machine.execBltu a b o m s
  | .bgeu a b o m => Sys2Proof.Machine.execBgeu a b o m s
  | .jmp o m => Sys2Proof.Machine.execJmp o m s
  | .call o m => Sys2Proof.Machine.execCall o m s
  | .ret a m => Sys2Proof.Machine.execRet a m s
  | .jt a b m => Sys2Proof.Machine.execJt a b m s
  | .jtc a b m => Sys2Proof.Machine.execJtc a b m s
  | .callr a m => Sys2Proof.Machine.execCallr a m s
  | .lpad l m => Sys2Proof.Machine.execLpad l m s
  | .oxmv a n m => Sys2Proof.Machine.execOxmv a n m s
  | .oxrd d n m => Sys2Proof.Machine.execOxrd d n m s
  | .oxli a n imm m => Sys2Proof.Machine.execOxli a n imm m s
  | .twait d a m => Sys2Proof.Machine.execTwait d a m s
  | .sleep d a m => Sys2Proof.Machine.execSleep d a m s
  | .tsnow d m => Sys2Proof.Machine.execTsnow d m s
  | .tsat d a m => Sys2Proof.Machine.execTsat d a m s
  | .ldB d a sn o m => Sys2Proof.Machine.execLdB d a sn o m s
  | .lduB d a sn o m => Sys2Proof.Machine.execLduB d a sn o m s
  | .ldH d a sn o m => Sys2Proof.Machine.execLdH d a sn o m s
  | .lduH d a sn o m => Sys2Proof.Machine.execLduH d a sn o m s
  | .ldW d a sn o m => Sys2Proof.Machine.execLdW d a sn o m s
  | .lduW d a sn o m => Sys2Proof.Machine.execLduW d a sn o m s
  | .ldD d a sn o m => Sys2Proof.Machine.execLdD d a sn o m s
  | .stB d a sn o m => Sys2Proof.Machine.execStB d a sn o m s
  | .stH d a sn o m => Sys2Proof.Machine.execStH d a sn o m s
  | .stW d a sn o m => Sys2Proof.Machine.execStW d a sn o m s
  | .stD d a sn o m => Sys2Proof.Machine.execStD d a sn o m s
  | .ldxB d a b sn m => Sys2Proof.Machine.execLdxB d a b sn m s
  | .ldxH d a b sn m => Sys2Proof.Machine.execLdxH d a b sn m s
  | .ldxW d a b sn m => Sys2Proof.Machine.execLdxW d a b sn m s
  | .ldxD d a b sn m => Sys2Proof.Machine.execLdxD d a b sn m s
  | .ldxuB d a b sn m => Sys2Proof.Machine.execLdxuB d a b sn m s
  | .ldxuH d a b sn m => Sys2Proof.Machine.execLdxuH d a b sn m s
  | .ldxuW d a b sn m => Sys2Proof.Machine.execLdxuW d a b sn m s
  | .stxB d a b sn m => Sys2Proof.Machine.execStxB d a b sn m s
  | .stxH d a b sn m => Sys2Proof.Machine.execStxH d a b sn m s
  | .stxW d a b sn m => Sys2Proof.Machine.execStxW d a b sn m s
  | .stxD d a b sn m => Sys2Proof.Machine.execStxD d a b sn m s
  | .amoAdd d a b w sn m => Sys2Proof.Machine.execAmoAdd d a b w sn m s
  | .amoAnd d a b w sn m => Sys2Proof.Machine.execAmoAnd d a b w sn m s
  | .amoOr d a b w sn m => Sys2Proof.Machine.execAmoOr d a b w sn m s
  | .amoXor d a b w sn m => Sys2Proof.Machine.execAmoXor d a b w sn m s
  | .amoMin d a b w sn m => Sys2Proof.Machine.execAmoMin d a b w sn m s
  | .amoMax d a b w sn m => Sys2Proof.Machine.execAmoMax d a b w sn m s
  | .amoMinu d a b w sn m => Sys2Proof.Machine.execAmoMinu d a b w sn m s
  | .amoMaxu d a b w sn m => Sys2Proof.Machine.execAmoMaxu d a b w sn m s
  | .amoSwap d a b w sn m => Sys2Proof.Machine.execAmoSwap d a b w sn m s
  | .amoCas d a b w sn m => Sys2Proof.Machine.execAmoCas d a b w sn m s
  | .amoFadd d a b sn m => Sys2Proof.Machine.execAmoFadd d a b sn m s
  | .amoFadd2 d a b sn m => Sys2Proof.Machine.execAmoFadd2 d a b sn m s
  | .pref a n sn m => Sys2Proof.Machine.execPref a n sn m s
  | .cbflush a sn m => Sys2Proof.Machine.execCbflush a sn m s
  | .sfork d a m => Sys2Proof.Machine.execSfork d a m s
  | .sjoin d a m => Sys2Proof.Machine.execSjoin d a m s
  | .swait d a sn m => Sys2Proof.Machine.execSwait d a sn m s
  | .sexp d a m => Sys2Proof.Machine.execSexp d a m s
  | .simp d a m => Sys2Proof.Machine.execSimp d a m s
  | .sstat d a b m => Sys2Proof.Machine.execSstat d a b m s
  | .fence d sn m => Sys2Proof.Machine.execFence d sn m s
  | .vld d a sn o m => Sys2Proof.Machine.execVld d a sn o m s
  | .vst d a sn o m => Sys2Proof.Machine.execVst d a sn o m s
  | .vldx d a b t k m => Sys2Proof.Machine.execVldx d a b t k m s
  | .vstx d a b t k m => Sys2Proof.Machine.execVstx d a b t k m s
  | .vadd d a b t k m => Sys2Proof.Machine.execVadd d a b t k m s
  | .vsub d a b t k m => Sys2Proof.Machine.execVsub d a b t k m s
  | .vmul d a b t k m => Sys2Proof.Machine.execVmul d a b t k m s
  | .vfma d a b t k m => Sys2Proof.Machine.execVfma d a b t k m s
  | .vfms d a b t k m => Sys2Proof.Machine.execVfms d a b t k m s
  | .vfnma d a b t k m => Sys2Proof.Machine.execVfnma d a b t k m s
  | .vmin d a b t k m => Sys2Proof.Machine.execVmin d a b t k m s
  | .vmax d a b t k m => Sys2Proof.Machine.execVmax d a b t k m s
  | .vabs d a t k m => Sys2Proof.Machine.execVabs d a t k m s
  | .vneg d a t k m => Sys2Proof.Machine.execVneg d a t k m s
  | .vdiv d a b t k m => Sys2Proof.Machine.execVdiv d a b t k m s
  | .vsqrt d a t k m => Sys2Proof.Machine.execVsqrt d a t k m s
  | .vrsqrt d a t k m => Sys2Proof.Machine.execVrsqrt d a t k m s
  | .vrcp d a t k m => Sys2Proof.Machine.execVrcp d a t k m s
  | .vexp2 d a t k m => Sys2Proof.Machine.execVexp2 d a t k m s
  | .vlog2 d a t k m => Sys2Proof.Machine.execVlog2 d a t k m s
  | .vsig d a t k m => Sys2Proof.Machine.execVsig d a t k m s
  | .vtanh d a t k m => Sys2Proof.Machine.execVtanh d a t k m s
  | .viadd d a b t k m => Sys2Proof.Machine.execViadd d a b t k m s
  | .visub d a b t k m => Sys2Proof.Machine.execVisub d a b t k m s
  | .vimul d a b t k m => Sys2Proof.Machine.execVimul d a b t k m s
  | .vimulh d a b t k m => Sys2Proof.Machine.execVimulh d a b t k m s
  | .vand d a b t k m => Sys2Proof.Machine.execVand d a b t k m s
  | .vor d a b t k m => Sys2Proof.Machine.execVor d a b t k m s
  | .vxor d a b t k m => Sys2Proof.Machine.execVxor d a b t k m s
  | .vsll d a b t k m => Sys2Proof.Machine.execVsll d a b t k m s
  | .vsrl d a b t k m => Sys2Proof.Machine.execVsrl d a b t k m s
  | .vsra d a b t k m => Sys2Proof.Machine.execVsra d a b t k m s
  | .vimin d a b t k m => Sys2Proof.Machine.execVimin d a b t k m s
  | .vimax d a b t k m => Sys2Proof.Machine.execVimax d a b t k m s
  | .viminu d a b t k m => Sys2Proof.Machine.execViminu d a b t k m s
  | .vimaxu d a b t k m => Sys2Proof.Machine.execVimaxu d a b t k m s
  | .vcmpEq d a b t k m => Sys2Proof.Machine.execVcmpEq d a b t k m s
  | .vcmpLt d a b t k m => Sys2Proof.Machine.execVcmpLt d a b t k m s
  | .vcmpLe d a b t k m => Sys2Proof.Machine.execVcmpLe d a b t k m s
  | .vsel d a b t k m => Sys2Proof.Machine.execVsel d a b t k m s
  | .vperm d a b t k m => Sys2Proof.Machine.execVperm d a b t k m s
  | .vbcast d a t k m => Sys2Proof.Machine.execVbcast d a t k m s
  | .vslide d a b t k m => Sys2Proof.Machine.execVslide d a b t k m s
  | .vmov d a t k m => Sys2Proof.Machine.execVmov d a t k m s
  | .vredAdd d a t k m => Sys2Proof.Machine.execVredAdd d a t k m s
  | .vredMax d a t k m => Sys2Proof.Machine.execVredMax d a t k m s
  | .vredMin d a t k m => Sys2Proof.Machine.execVredMin d a t k m s
  | .vcvt d a k sn m => Sys2Proof.Machine.execVcvt d a k sn m s
  | .vxt d a t imm m => Sys2Proof.Machine.execVxt d a t imm m s
  | .vins d a t imm m => Sys2Proof.Machine.execVins d a t imm m s
  | .mand d a b m => Sys2Proof.Machine.execMand d a b m s
  | .mor d a b m => Sys2Proof.Machine.execMor d a b m s
  | .mxor d a b m => Sys2Proof.Machine.execMxor d a b m s
  | .mnot d a m => Sys2Proof.Machine.execMnot d a m s
  | .mpop d a m => Sys2Proof.Machine.execMpop d a m s
  | .mset d a m => Sys2Proof.Machine.execMset d a m s
  | .strbind d a b sn m => Sys2Proof.Machine.execStrbind d a b sn m s
  | .strfree d sn m => Sys2Proof.Machine.execStrfree d sn m s
  | .strst d a m => Sys2Proof.Machine.execStrst d a m s
  | .bscale d a b m => Sys2Proof.Machine.execBscale d a b m s
  | .baddqAcc d a b sn m => Sys2Proof.Machine.execBaddqAcc d a b sn m s
  | .baddqOut d a b sn m => Sys2Proof.Machine.execBaddqOut d a b sn m s
  | .vsr d a m => Sys2Proof.Machine.execVsr d a m s
  | .mcfg d a m => Sys2Proof.Machine.execMcfg d a m s
  | .mload a b sn m => Sys2Proof.Machine.execMload a b sn m s
  | .mmul a b sn m => Sys2Proof.Machine.execMmul a b sn m s
  | .mmulz a b sn m => Sys2Proof.Machine.execMmulz a b sn m s
  | .mmulBc a b sn m => Sys2Proof.Machine.execMmulBc a b sn m s
  | .mtmul a b sn m => Sys2Proof.Machine.execMtmul a b sn m s
  | .acld a b sn m => Sys2Proof.Machine.execAcld a b sn m s
  | .acst a b sn m => Sys2Proof.Machine.execAcst a b sn m s
  | .acrd d a sn m => Sys2Proof.Machine.execAcrd d a sn m s
  | .acwr d a sn m => Sys2Proof.Machine.execAcwr d a sn m s
  | .acz a sn m => Sys2Proof.Machine.execAcz a sn m s
  | .mredund d a m => Sys2Proof.Machine.execMredund d a m s
  | .mqst d a m => Sys2Proof.Machine.execMqst d a m s
  | .kset a b sn m => Sys2Proof.Machine.execKset a b sn m s
  | .seval a b sn m => Sys2Proof.Machine.execSeval a b sn m s
  | .sderiv a b sn m => Sys2Proof.Machine.execSderiv a b sn m s
  | .sgfold a b sn m => Sys2Proof.Machine.execSgfold a b sn m s
  | .sload a b sn m => Sys2Proof.Machine.execSload a b sn m s
  | .srefine sn m => Sys2Proof.Machine.execSrefine sn m s
  | .sextend a sn m => Sys2Proof.Machine.execSextend a sn m s
  | .kcnt d a sn m => Sys2Proof.Machine.execKcnt d a sn m s
  | .sbrec a b sn m => Sys2Proof.Machine.execSbrec a b sn m s
  | .cyopen d a b m => Sys2Proof.Machine.execCyopen d a b m s
  | .cyphase d a b m => Sys2Proof.Machine.execCyphase d a b m s
  | .cyres d a b m => Sys2Proof.Machine.execCyres d a b m s
  | .cytest d a m => Sys2Proof.Machine.execCytest d a m s
  | .cyclose d a m => Sys2Proof.Machine.execCyclose d a m s
  | .cystat d a m => Sys2Proof.Machine.execCystat d a m s
  | .cyack d a m => Sys2Proof.Machine.execCyack d a m s
  | .cpq d a m => Sys2Proof.Machine.execCpq d a m s
  | .cpwp d a m => Sys2Proof.Machine.execCpwp d a m s
  | .cpwait d a b m => Sys2Proof.Machine.execCpwait d a b m s
  | .cpst d a b m => Sys2Proof.Machine.execCpst d a b m s
  | .cpqNb d a m => Sys2Proof.Machine.execCpqNb d a m s
  | .msend d a b sn m => Sys2Proof.Machine.execMsend d a b sn m s
  | .mpost d a b sn m => Sys2Proof.Machine.execMpost d a b sn m s
  | .mprobe d a b m => Sys2Proof.Machine.execMprobe d a b m s
  | .mcancel d a m => Sys2Proof.Machine.execMcancel d a m s
  | .lnpark d a m => Sys2Proof.Machine.execLnpark d a m s
  | .lnwake d a m => Sys2Proof.Machine.execLnwake d a m s
  | .lnst d a m => Sys2Proof.Machine.execLnst d a m s
  | .gwtake d a m => Sys2Proof.Machine.execGwtake d a m s
  | .nspawn d a m => Sys2Proof.Machine.execNspawn d a m s
  | .ndone m => Sys2Proof.Machine.execNdone m s
  | .nyield d m => Sys2Proof.Machine.execNyield d m s
  | .ndep d a b m => Sys2Proof.Machine.execNdep d a b m s
  | .rlaunch d a b m => Sys2Proof.Machine.execRlaunch d a b m s
  | .rswitchSuspend d a b m => Sys2Proof.Machine.execRswitchSuspend d a b m s
  | .sys a k m => Sys2Proof.Machine.execSys a k m s
  | .eret m => Sys2Proof.Machine.execEret m s
  | .srd d n m => Sys2Proof.Machine.execSrd d n m s
  | .swr d n m => Sys2Proof.Machine.execSwr d n m s
  | .wfi m => Sys2Proof.Machine.execWfi m s
  | .gstop d a m => Sys2Proof.Machine.execGstop d a m s
  | .tlbinv d a b m => Sys2Proof.Machine.execTlbinv d a b m s
  | .pginvack d a m => Sys2Proof.Machine.execPginvack d a m s
  | .pwreq d a m => Sys2Proof.Machine.execPwreq d a m s
  | .ckpt d a m => Sys2Proof.Machine.execCkpt d a m s
  | .cMov d a => Sys2Proof.Machine.execCMov d a s
  | .cLi d imm => Sys2Proof.Machine.execCLi d imm s
  | .cAddi d imm => Sys2Proof.Machine.execCAddi d imm s
  | .cAdd d a => Sys2Proof.Machine.execCAdd d a s
  | .cSub d a => Sys2Proof.Machine.execCSub d a s
  | .cAnd d a => Sys2Proof.Machine.execCAnd d a s
  | .cOr d a => Sys2Proof.Machine.execCOr d a s
  | .cLd d o => Sys2Proof.Machine.execCLd d o s
  | .cSt d o => Sys2Proof.Machine.execCSt d o s
  | .cBz d o => Sys2Proof.Machine.execCBz d o s
  | .cBnz d o => Sys2Proof.Machine.execCBnz d o s
  | .cJmp o => Sys2Proof.Machine.execCJmp o s
  | .cRet => Sys2Proof.Machine.execCRet s
  | .cMark => Sys2Proof.Machine.execCMark s
  | .cNop => Sys2Proof.Machine.execCNop s
  | .cpstResume d a b m => Sys2Proof.Machine.execCpstResume d a b m s
  | .cpstAbandon d a b m => Sys2Proof.Machine.execCpstAbandon d a b m s
  | .rswitchResume d a b m => Sys2Proof.Machine.execRswitchResume d a b m s
  | .rswitchEnd d a b m => Sys2Proof.Machine.execRswitchEnd d a b m s
  | .instructionFetch => Sys2Proof.Machine.execInstructionFetch s
  | .parkEnd => Sys2Proof.Machine.execParkEnd s
  | .nonblockingResultReturn id => Sys2Proof.Machine.execNonblockingResultReturn id s
  | .interruptTaken => Sys2Proof.Machine.execInterruptTaken s
  | .waitDeadline => Sys2Proof.Machine.execWaitDeadline s
  | .wfiWake => Sys2Proof.Machine.execWfiWake s
  | .sleepWakeEvent => Sys2Proof.Machine.execSleepWakeEvent s
  | .pageWalk off write => Sys2Proof.Machine.execPageWalk off write s
  | .remoteTranslationRequest node region off want => Sys2Proof.Machine.execRemoteTranslationRequest node region off want s
  | .translationReply node region off level leaf cause reason => Sys2Proof.Machine.execTranslationReply node region off level leaf cause reason s
  | .tlbInvalidation node ticket kind page bits => Sys2Proof.Machine.execTlbInvalidation node ticket kind page bits s
  | .invalidationAck node ticket dead => Sys2Proof.Machine.execInvalidationAck node ticket dead s
  | .remoteAccessArrival acc => Sys2Proof.Machine.execRemoteAccessArrival acc s
  | .hostAccessArrival acc => Sys2Proof.Machine.execHostAccessArrival acc s
  | .combiningDrain k => Sys2Proof.Machine.execCombiningDrain k s
  | .combiningIdleTimeout k => Sys2Proof.Machine.execCombiningIdleTimeout k s
  | .writeAcknowledgement id status => Sys2Proof.Machine.execWriteAcknowledgement id status s
  | .routerReadAbsorb id => Sys2Proof.Machine.execRouterReadAbsorb id s
  | .readReplyArrival k ok reason data => Sys2Proof.Machine.execReadReplyArrival k ok reason data s
  | .atomicPerform id ok reason old => Sys2Proof.Machine.execAtomicPerform id ok reason old s
  | .pinExpiry k => Sys2Proof.Machine.execPinExpiry k s
  | .forkMarkerPerformed id => Sys2Proof.Machine.execForkMarkerPerformed id s
  | .joinMarkerPerformed id => Sys2Proof.Machine.execJoinMarkerPerformed id s
  | .tokenCheckRequest node token => Sys2Proof.Machine.execTokenCheckRequest node token s
  | .tokenCheckReply ok => Sys2Proof.Machine.execTokenCheckReply ok s
  | .streamFetch r => Sys2Proof.Machine.execStreamFetch r s
  | .tileBegin frame => Sys2Proof.Machine.execTileBegin frame s
  | .stripDrain frame => Sys2Proof.Machine.execStripDrain frame s
  | .busTileArrival frame => Sys2Proof.Machine.execBusTileArrival frame s
  | .gridCommandPerform frame => Sys2Proof.Machine.execGridCommandPerform frame s
  | .engineClockGate frame => Sys2Proof.Machine.execEngineClockGate frame s
  | .startSequencerAdmit => Sys2Proof.Machine.execStartSequencerAdmit s
  | .barrierRelease stair => Sys2Proof.Machine.execBarrierRelease stair s
  | .phaseTimeout stair => Sys2Proof.Machine.execPhaseTimeout stair s
  | .cycleDecision stair => Sys2Proof.Machine.execCycleDecision stair s
  | .copyBegin group => Sys2Proof.Machine.execCopyBegin group s
  | .copyUnitDelivered slot => Sys2Proof.Machine.execCopyUnitDelivered slot s
  | .copyErrorStop slot code => Sys2Proof.Machine.execCopyErrorStop slot code s
  | .messageArrival msg => Sys2Proof.Machine.execMessageArrival msg s
  | .overflowPayloadCopy slot => Sys2Proof.Machine.execOverflowPayloadCopy slot s
  | .deadlockProbe node => Sys2Proof.Machine.execDeadlockProbe node s
  | .probeReturn node => Sys2Proof.Machine.execProbeReturn node s
  | .laneFailure peer loss => Sys2Proof.Machine.execLaneFailure peer loss s
  | .crcErrorResend peer fibre => Sys2Proof.Machine.execCrcErrorResend peer fibre s
  | .postedWriteRefused id => Sys2Proof.Machine.execPostedWriteRefused id s
  | .packetBoundary peer cls => Sys2Proof.Machine.execPacketBoundary peer cls s
  | .laneLocked peer fibre => Sys2Proof.Machine.execLaneLocked peer fibre s
  | .skeinParked skein => Sys2Proof.Machine.execSkeinParked skein s
  | .skeinWakeTimeout skein => Sys2Proof.Machine.execSkeinWakeTimeout skein s
  | .firmwareRetune peer fibre => Sys2Proof.Machine.execFirmwareRetune peer fibre s
  | .migrationForwardExpiry k => Sys2Proof.Machine.execMigrationForwardExpiry k s
  | .releasePointPerformed k => Sys2Proof.Machine.execReleasePointPerformed k s
  | .dispatch => Sys2Proof.Machine.execDispatch s
  | .priorityAgeing k => Sys2Proof.Machine.execPriorityAgeing k s
  | .ringWp v => Sys2Proof.Machine.execRingWp v s
  | .ringReset v => Sys2Proof.Machine.execRingReset v s
  | .launch => Sys2Proof.Machine.execLaunch s
  | .suspend => Sys2Proof.Machine.execSuspend s
  | .resume => Sys2Proof.Machine.execResume s
  | .endRec => Sys2Proof.Machine.execEndRec s
  | .gangStop region => Sys2Proof.Machine.execGangStop region s
  | .gangResume region => Sys2Proof.Machine.execGangResume region s
  | .gstopResume region => Sys2Proof.Machine.execGstopResume region s
  | .checkpointTick => Sys2Proof.Machine.execCheckpointTick s
  | .uncorrectableMemoryError place met => Sys2Proof.Machine.execUncorrectableMemoryError place met s
  | .patrolScrub pa correctable => Sys2Proof.Machine.execPatrolScrub pa correctable s
  | .retentionEntry quad => Sys2Proof.Machine.execRetentionEntry quad s
  | .retentionExit quad parityFails => Sys2Proof.Machine.execRetentionExit quad parityFails s
  | .timingErrorReplay count => Sys2Proof.Machine.execTimingErrorReplay count s
  | .budgetRecompute domain cap duty => Sys2Proof.Machine.execBudgetRecompute domain cap duty s
  | .clockRelock domain => Sys2Proof.Machine.execClockRelock domain s
  | .moduleReset => Sys2Proof.Machine.execModuleReset s
  | .tkKey d m => Sys2Proof.Machine.execTkKey d m s
  | .bkFmt n d m => Sys2Proof.Machine.execBkFmt n d m s
  | .cgPat n d m => Sys2Proof.Machine.execCgPat n d m s
  | .csTab n d m => Sys2Proof.Machine.execCsTab n d m s
  | .rgAlias d m => Sys2Proof.Machine.execRgAlias d m s
  | .mxCfg d m => Sys2Proof.Machine.execMxCfg d m s
  | .unknownKindRingRecord => Sys2Proof.Machine.execUnknownKindRingRecord s
  | .attestationRequest node => Sys2Proof.Machine.execAttestationRequest node s
  | .firmwareUpdateRequest node => Sys2Proof.Machine.execFirmwareUpdateRequest node s

end Sys2Proof.Machine
end

