-- ==== Sys2Proof/Machine/Issue.lean ====
section
/-! DEFINITION. How the next move is made: the issue of an instruction (R63, R87, R115), a scheduled move, and the order in
which the machine's agents act when nothing is scheduled (log 2). -/

namespace Sys2Proof.Machine

/-! ### Issue (R115, R116, R151) -/

/-- What stands before an instruction: nothing, a result still to come, or a deferred fault that it would use. -/
inductive Gate where
  | open_ | wait | deferred
deriving DecidableEq, Repr

/-- The registers of an instruction against the scoreboard (R115, R151, R199). -/
def gateOf (u : Uses) (h : Hart) : Gate :=
  let xs := (u.rx ++ u.wx).filter (fun r => r != 0)
  let vs := u.rv ++ u.wv
  if xs.any (fun r => h.faults.any (fun f => f.destX.contains r)) || vs.any (fun r => h.faults.any (fun f => f.destV.contains r)) then
    .deferred
  else if xs.any h.pendingX.contains || vs.any h.pendingV.contains || u.wv.any h.heldV.contains then .wait
  else .open_

/-- The gate of an instruction; a hart with nothing outstanding passes. -/
def gate (i : Instr) (s : State) : Gate :=
  let h := s.hart
  if h.ops.isEmpty && h.rets.isEmpty && h.faults.isEmpty && h.cmds.isEmpty then .open_ else gateOf (usesOf i s) h

/-- A next state changed; a stop stays. -/
def Out.then (o : Out) (f : State → State) : Out :=
  match o with
  | .next s => .next (f s)
  | .fault r => .fault r
  | .refused r => .refused r

/-- The hart in focus fetches, decodes and performs its next instruction, or waits before it (R63, R87, R115). -/
def issue (s : State) : Out :=
  let s0 := s.onHart (fun h => { h with run := .running })
  match fetchAt s0.hart.pc s0 with
  | .fault c a st => .next (trap c a st).farDone
  | .illegal bits st => .next (trap 0x01 bits st).farDone
  | .wait st => .next st.block
  | .got i _ _ st =>
    match gate i st with
    | .open_ => Out.then (exec i st) State.farDone
    | .wait => .next st
    | .deferred => .next st.deferred.farDone

/-- The hart in focus moves on: an interrupt at its boundary, the loads that a gang stop recalled from it (R72), or its next
instruction. -/
def issueMove (s : State) : Out :=
  if s.mayIssue s.hart then
    if s.hart.run = .running && s.hart.nextIrq.isSome then .next (takeInterrupt s)
    else if s.hart.resuming then .next (if s.hart.faultsOnly then s.deferred else reissueRecalled s)
    else issue s
  else .next s

/-! ### A scheduled move -/

/-- A row that is a step of another agent; the rows of swr are instructions. -/
def schedulable (i : Instr) : Bool :=
  i.isEvent && !(match i with
    | .tkKey .. | .bkFmt .. | .cgPat .. | .csTab .. | .rgAlias .. | .mxCfg .. => true
    | _ => false)

/-- A move of the schedule made. -/
def scheduled (mv : Move) (s : State) : Out :=
  match mv with
  | .turn n => .next (if s.present n then s.focus n else s)
  | .issue => issueMove s
  | .event i => if schedulable i then exec i s else .next s

/-! ### What acts when nothing is scheduled -/

/-- An effect that changes something. -/
def attempt (f : State → State) (s : State) : Option State :=
  let t := f s
  if t = s then none else some t

/-- The first effect of a list that changes something. -/
def firstOf {α : Type} (l : List α) (f : α → State → State) (s : State) : Option State := l.findSome? (fun a => attempt (f a) s)

/-- What the units of the hart in focus do next: results return, operations are performed in issue order, the combining
buffer drains, copies and messages move, and waits that are over end. -/
def hartAction (s : State) : Option State :=
  let h := s.hart
  let on := s.moving
  let store (o : Op) : Bool := match o.kind with | .store .. => true | _ => false
  (if on && h.resuming then attempt reissueRecalled s else none)
  <|> ((if on then h.rets.find? s.returnable else none).map (fun r => returnRet r s))
  <|> firstOf ((h.ops.filter (fun o => h.canPerform o && (on || store o))).map (·.id)) performOp s
  <|> firstOf ((List.range h.comb.length).filter h.drainable) drainEntry s
  <|> firstOf (List.range h.comb.length) idleDrain s
  <|> (if on && h.binds.toList.any (·.isSome) then firstOf (List.range 8) (fun i => streamFetch (BitVec.ofNat 3 i)) s else none)
  <|> firstOf ((h.copies.filter (fun p => p.2.taken && p.2.st == .running)).map (·.1)) (fun k => copyUnit (BitVec.ofNat 8 k)) s
  <|> (if on then firstOf h.msendsOpen sendMessage s else none)
  <|> (if on && h.posts.toList.any (fun p => p.queued.isSome || p.held.isSome) then firstOf (List.range 32) (fun i => overflowCopy (BitVec.ofNat 5 i)) s else none)
  <|> (match h.run with
    | .parked | .parkTrap .. => attempt parkEnd s
    | .timed 1 .. => attempt sleepWake s <|> attempt waitDeadline s
    | .timed .. => attempt waitDeadline s
    | .wfi _ => attempt wfiWake s
    | .ckpt .. => attempt checkpointTick s
    | _ => none)

/-- The units of a hart, whichever hart is in focus. -/
def onHartAction (s : State) (n : Nat) : Option State := (hartAction (s.focus n)).map (fun t => t.focus s.hart.num)

/-- Frames whose engines have something to do. -/
def busyFrames (s : State) : List Nat :=
  ((s.harts.filter (fun h => !h.cmds.isEmpty)).map (fun h => hartFrame h.num)
    ++ (s.engines.filter (fun e => e.tile.isSome || !e.busIn.isEmpty)).map (·.frame)).eraseDups

/-- What an engine does next (R243, R274). -/
def engineAction (s : State) (f : Nat) : Option State :=
  attempt (gridPerform f) s <|> attempt (stripDrain f) s <|> attempt (busTile f) s <|> attempt (tileBegin f) s

/-- Quads with a hart that rests. -/
def restingQuads (s : State) : List Nat :=
  ((s.harts.filter (fun h => decide (h.num < 1024) && (match h.run with | .timed 1 .. | .wfi _ | .retention .. => true | _ => false))).map
    (fun h => hartQuad h.num)).eraseDups

/-- Lanes of a skein that wait to lock. -/
def State.lockable (s : State) (k : BitVec 3) : List (BitVec 4 × BitVec 6) :=
  if (s.skein k).st == .waking then (s.skeinLanes k).filter (fun p => s.laneState p.1 p.2 == .idle) else []

/-- The first posted write towards each peer whose class is suspended: its hart and its number (R353). -/
def State.refusable (s : State) : List (Nat × Nat) :=
  ((s.sendq.map (·.peer)).eraseDups.filter s.suspended).filterMap (fun p =>
    match (s.sendq.find? (fun i => i.peer == p && i.cls == 2)).map (·.pkt) with
    | some (Packet.write _ h n _) => some (h, n)
    | _ => none)

/-- What the links do next (R347, R352 to R354): packets end and start, the responses first. -/
def linkAction (s : State) : Option State :=
  let ks := ((List.range 8).map (BitVec.ofNat 3)).filter (fun k => (s.skein k).st != .awake)
  let peers := (s.leaving.map (·.1) ++ (s.lanes.filter (fun l => l.st == .locked)).map (·.peer)
    ++ s.flights.map (·.item.peer) ++ s.sendq.map (·.peer)).eraseDups
  firstOf (peers.flatMap (fun p => [(p, (0 : BitVec 2)), (p, 1), (p, 2)])) (fun q => packetBoundary q.1 q.2) s
  <|> firstOf s.refusable (fun q t => t.withHart q.1 (writeRefused q.2)) s
  <|> firstOf (ks.flatMap s.lockable) (fun p => laneLocked p.1 p.2) s
  <|> firstOf ks skeinParked s
  <|> firstOf ks wakeTimeout s

/-- What the dispatcher and the ring do next (R379, R382, R384, R392, R394, R410). -/
def taskAction (s : State) : Option State :=
  firstOf (List.range s.releases.length) releasePoint s
  <|> (if s.dispatchDue then dispatchOne s else none)
  <|> firstOf ((s.regions.filter (fun g => g.switch != .running)).map (·.num)) (fun r t => gstopResume r (gangResume r (gangStop r t))) s
  <|> (if s.ringReady then firstOf [1, 2, 3, 4] ringExec s <|> attempt ringUnknown s else none)

/-- The stairwells at which harts wait for a release tick (R302); a closed one may have such harts too (R296). -/
def State.releasing (s : State) : List (BitVec 4) :=
  (s.harts.filterMap (fun h => match h.run with | .barrier i _ _ _ (some _) _ => some i | _ => none)).eraseDups

/-- What the cycle sequencers, the detector and the clocks do next. -/
def timerAction (s : State) : Option State :=
  let stairs := ((List.range 16).map (BitVec.ofNat 4)).filter (fun i => (s.seqr i).bound)
  firstOf stairs cycleDecision s
  <|> firstOf s.releasing barrierRelease s
  <|> firstOf stairs phaseTimeout s
  <|> (s.tokenWaits.find? (fun w => (tokenVerdict s w.tok).isSome)).map (fun w => tokenRequest w.node w.tok s)
  <|> firstOf (List.range s.pins.length) pinExpiry s
  <|> firstOf (List.range s.forwards.length) forwardExpiry s
  <|> firstOf ((s.domains.filter (fun d => d.next.isSome)).map (·.num)) clockRelock s
  <|> firstOf (restingQuads s) retentionEntry s
  <|> firstOf (restingQuads s) (fun q => retentionExit q false) s
  <|> firstOf ((s.engines.filter (fun e => !e.gated)).map (·.frame)) engineGate s

/-- What an agent other than the harts' issue does next, if any can act: an order of the model's own (log 2). Nothing
arrives from outside by itself. -/
def unitAction (s : State) : Option State :=
  (s.rollbacks.head?.map (fun p => rollBack p.1 p.2 s))
  <|> (s.reads.find? (fun e => !e.remote)).map (fun e => replyArrival e.id true 0 0 s)
  <|> (s.harts.map (·.num)).findSome? (onHartAction s)
  <|> (busyFrames s).findSome? (engineAction s)
  <|> firstOf ((s.harts.filter (fun h => !h.readyCopies.isEmpty)).map (fun h => hartTable h.num)).eraseDups copyBegin s
  <|> (if s.startq.isEmpty then none else attempt startAdmit s)
  <|> taskAction s
  <|> timerAction s
  <|> linkAction s

/-! ### The harts' turns -/

/-- The next hart after the one in focus that issues. -/
def nextTurn (s : State) : Option Nat :=
  let ns := (s.allHarts.filter s.mayIssue).map (·.num)
  (ns.find? (fun n => decide (s.hart.num < n))) <|> ns.head?

/-- The other harts' clocks run on while one issues; a hart that waits at issue lets its own run on. -/
def State.othersCycle (s : State) : State :=
  { s with
    hart := if s.hart.run = .blocked then { s.hart with cycle := s.hart.cycle + 1 } else s.hart
    others := s.others.map (fun h => { h with cycle := h.cycle + 1 }) }

/-- The turn goes to the next hart that issues. -/
def passTurn (s : State) : State :=
  match nextTurn s with
  | some n => s.othersCycle.focus n
  | none => s.othersCycle

/-- The move made when nothing is scheduled: another agent's, or the next instruction of the hart whose turn it is, or
time passes. -/
def unscheduled (s : State) : Out :=
  match unitAction s with
  | some t => .next t
  | none =>
    if s.mayIssue s.hart then Out.then (issueMove s) passTurn
    else match nextTurn s with
      | some n => .next (s.focus n)
      | none =>
        if s.harts.all (fun h => h.run == .halted) then .fault .allHartsHalted
        else .next (s.eachHart (fun h => { h with cycle := h.cycle + 1 }))

/-- Time passes before a step; the timebase never runs backwards. Every hart reads the one count, exactly: R30 lets two readings
of a package differ by up to 1 ns (log 1). -/
def advance (s : State) : State :=
  { s with
    now := BitVec.ofNat 64 (min (s.now.toNat + Config.stepTime s.tick) (2 ^ 64 - 1))
    tick := s.tick + 1 }

/-- The next move is taken from the schedule, or chosen when there is none. -/
def nextMove (s : State) : Out :=
  match s.sched with
  | mv :: rest => scheduled mv { s with sched := rest }
  | [] => unscheduled s

/-- An instruction's bytes stored where the hart in focus fetches next, and the move that issues it. -/
def placeWord (s : State) (nbits w : Nat) : State :=
  let t := fetchHalf s.hart.pc s
  let key := if t.cause = 0 then t.key else s.hart.pc.toNat
  { s with
    hart := { s.hart with run := .running }
    mem := s.mem.store key (leBytes (w % 2 ^ nbits) 4)
    sched := [.issue] }

end Sys2Proof.Machine
end

