-- ==== Sys2Proof/Machine/Step.lean ====
section
/-! DEFINITION. One step of the module, and the placing of an instruction for it. -/

namespace Sys2Proof.Machine

/-- One step: time passes, then one agent moves (log 1, 2). -/
def step (s : State) : Host.Outcome State Fault Refusal := nextMove (advance s)

/-- The state with an instruction stored at the pc of the hart in focus, whose turn it is next. -/
def State.withFetchWord (s : State) (nbits w : Nat) : State := placeWord s nbits w

end Sys2Proof.Machine
end

