-- ==== Sys2Proof/Safety.lean ====
section
/-! DEFINITION. What a claim may ask of a run: the well-formedness of a state, a module none of whose harts is stopped
by a double trap, and the terms in which claims say how an instruction ends and what it leaves alone. -/

namespace Sys2Proof

open Sys2Proof.Machine

/-- The stores of an engine are in their canonical form. -/
def EngineWf (e : Engine) : Prop := Cells.wf e.acc = true ∧ Cells.wf e.cim = true ∧ Cells.wf e.scale = true

/-- The invariant of the model's data: memory is in its canonical form, and so are the stores of every engine, those in a
frame record among them. -/
def Inv (s : State) : Prop :=
  Memory.wf s.mem = true ∧ (∀ e ∈ s.engines, EngineWf e) ∧ ∀ l ∈ s.lent, EngineWf l.engine

/-- No hart of the state is stopped by a double trap (R401). -/
def Live (s : State) : Prop := ∀ h ∈ s.harts, h.run ≠ .halted

/-- A run of so many steps reaches no stop and no halted hart. -/
def SafeRun : Nat → State → Prop
  | 0, s => Live s
  | n + 1, s => Live s ∧ ∃ t, step s = .next t ∧ SafeRun n t

namespace Claims

/-! ### Frames -/

/-- Every byte of memory reads as before. -/
def SameBytes (s t : State) : Prop := ∀ k, Cells.get t.mem k = Cells.get s.mem k

/-- What the end of an instruction may change of its hart. -/
def mayEnd (old new : Hart) : Hart :=
  { old with
    pc := new.pc
    run := new.run
    cycle := new.cycle
    icnt := new.icnt }
/-- What an instruction with a general register as its destination may change of its hart. -/
def mayX (old new : Hart) : Hart := { mayEnd old new with x := new.x }
/-- What an instruction with an operand-extension register as its destination may change. -/
def mayOx (old new : Hart) : Hart := { mayEnd old new with ox := new.ox }
/-- What an instruction with a mask register as its destination may change. -/
def mayM (old new : Hart) : Hart := { mayEnd old new with k := new.k }
/-- What a vector instruction may change: vector registers and the sticky flags. -/
def mayV (old new : Hart) : Hart := { mayEnd old new with v := new.v, fxFlags := new.fxFlags }

/-- Nothing differs but what `may` takes from the new hart: no other field of the hart in focus, no other hart, no
unit of the module, no byte of memory. -/
def Only (may : Hart → Hart → Hart) (s t : State) : Prop := t = { s with hart := may s.hart t.hart } ∧ SameBytes s t

/-! ### Ends of instructions -/

/-- How an instruction of the hart in focus ends (R68, R409): its next pc, the park of a marked word while a result is
outstanding, and the counts of cycles and of completed instructions. -/
def Ends (s t : State) (pc : Word) (m : Bool) : Prop :=
  t.hart.pc = pc ∧ t.hart.cycle = s.hart.cycle + 1
    ∧ t.hart.icnt = (if s.hart.level = .M then s.hart.icnt else s.hart.icnt + 1)
    ∧ t.hart.run = (if m = true ∧ (t.hart.outstanding ≠ 0 ∨ t.hart.faults ≠ []) then .parked else .running)

/-- One general register is written and the others keep their values; x0 keeps nothing (R67). -/
def WritesX (s t : State) (d : BitVec 5) (v : Word) : Prop := ∀ r, t.x r = if r = d ∧ r ≠ 0 then v else s.x r

/-- The instruction runs, writes one general register and goes to `pc`. -/
def RunsXTo (i : Instr) (s : State) (d : BitVec 5) (v pc : Word) (m : Bool) : Prop :=
  ∃ t, exec i s = .next t ∧ WritesX s t d v ∧ Ends s t pc m ∧ Only mayX s t
/-- The instruction runs, writes one general register and the next instruction follows. -/
def RunsX (i : Instr) (s : State) (d : BitVec 5) (v : Word) (len : Nat) (m : Bool) : Prop :=
  RunsXTo i s d v (s.hart.pc + BitVec.ofNat 64 len) m

/-- The instruction runs and writes one operand-extension register. -/
def RunsOx (i : Instr) (s : State) (n : BitVec 3) (v : Word) (len : Nat) (m : Bool) : Prop :=
  ∃ t, exec i s = .next t ∧ (∀ r, t.oxr r = if r = n then v else s.oxr r)
    ∧ Ends s t (s.hart.pc + BitVec.ofNat 64 len) m ∧ Only mayOx s t

/-- The instruction runs and writes one mask register; m0 keeps all ones (R17). -/
def RunsM (i : Instr) (s : State) (d : BitVec 3) (v : Word) (m : Bool) : Prop :=
  ∃ t, exec i s = .next t ∧ (∀ r, t.mr r = if r = d ∧ r ≠ 0 then v else s.mr r)
    ∧ Ends s t (s.hart.pc + 4) m ∧ Only mayM s t

/-- The instruction runs and changes nothing but the pc. -/
def RunsTo (i : Instr) (s : State) (pc : Word) (m : Bool) : Prop :=
  ∃ t, exec i s = .next t ∧ Ends s t pc m ∧ Only mayEnd s t

/-- The hart waits at the instruction, which has had no effect; combining entries may start to drain, requests to other nodes may
have left, and a memory error met may have been reported. -/
def WaitsWhole (i : Instr) (s st : State) : Prop :=
  ∃ w, exec i s = .next w ∧ w.hart = { s.hart with run := .blocked, comb := w.hart.comb, irqs := w.hart.irqs }
    ∧ w.sendq = st.sendq ∧ w.asks = st.asks

/-- Land at a target (R131), fetched in the state `s1`: where the jump traps, where it waits, and where it goes. `before` makes
what the instruction has done besides, from the state that the fetch answers. -/
def Lands (i : Instr) (s s1 : State) (goal : Word) (label : BitVec 16) (link : Bool) (before : State → State) (m : Bool) : Prop :=
  (goal.toNat % 2 = 1 → exec i s = .next (trap 0x03 goal s1))
  ∧ (goal.toNat % 2 = 0 →
    (∀ st c addr, fetchAt goal s1 = .fault c addr st → exec i s = .next (trap c goal st))
    ∧ (∀ st bits, fetchAt goal s1 = .illegal bits st → exec i s = .next (trap 0x09 goal st))
    ∧ (∀ st, fetchAt goal s1 = .wait st → WaitsWhole i s st)
    ∧ ∀ st j n bits, fetchAt goal s1 = .got j n bits st →
      ((∀ k, j ≠ .lpad label k) → exec i s = .next (trap 0x09 goal st))
      ∧ ∀ k, j = .lpad label k → ∃ u, exec i s = .next u ∧ Ends (before st) u goal m ∧ Only mayX (before st) u
        ∧ ∀ r, u.x r = if link = true ∧ r = 1 then (before st).hart.pc + 4 else (before st).x r)

/-! ### Numbers -/

/-- The width of an instruction or its .w form. -/
def width (w : Bool) : Nat := if w then 32 else 64
/-- The low 64 bits of a number, or with `w` its low 32 bits sign-extended (R119). -/
def wide (w : Bool) (n : Nat) : Word := if w then (BitVec.ofNat 32 n).signExtend 64 else BitVec.ofNat 64 n
/-- The same of a signed number. -/
def wideInt (w : Bool) (n : Int) : Word := if w then (BitVec.ofInt 32 n).signExtend 64 else BitVec.ofInt 64 n
/-- The low bits that an instruction or its .w form reads (R119). -/
def low (w : Bool) (v : Word) : Nat := if w then v.toNat % 2 ^ 32 else v.toNat
/-- The same as a signed number. -/
def lowInt (w : Bool) (v : Word) : Int := Int.bmod (low w v) (2 ^ width w)
/-- A truth value in a register. -/
def bit (c : Prop) [Decidable c] : Word := if c then 1 else 0

/-- The integer nearest to num / den; of two equally near ones the even one. -/
def Near (v num : Int) (den : Nat) : Prop :=
  2 * (v * den - num).natAbs ≤ den ∧ (2 * (v * den - num).natAbs = den → v % 2 = 0)

/-- The exact number v × 2^e rounded once to a format; an exact zero is +0. -/
def roundedTo (f : Fp) (rm : Rm) (v : Int) (e : Int) : Rounded :=
  if v = 0 then ⟨0, 0⟩ else fpRound f rm (decide (v < 0)) (v.natAbs * 2 ^ e.toNat) (2 ^ (-e).toNat)

/-- A magnitude with its sign. -/
def signed (neg : Bool) (m : Nat) : Int := if neg = true then -(m : Int) else m

/-- The sum of the terms of the indices below n. -/
def sumTo (n : Nat) (f : Nat → Int) : Int := ((List.range n).map f).sum

/-- Only the read-combining entries differ (R159). -/
def OnlyReads (s u : State) : Prop := u = { s with reads := u.reads, nextRead := u.nextRead }

/-- The read-combining entries of this module's lines hold what memory holds, each under a number of its own (R159). -/
def Fresh (s : State) : Prop :=
  (s.reads.map (·.id)).Nodup ∧ ∀ e ∈ s.reads, e.id < s.nextRead
    ∧ (64 * e.line / 2 ^ 60 = s.nodeId.toNat → ∀ i < 64, e.data.extractLsb' (8 * i) 8 = Cells.get s.mem (64 * e.line + i))

/-- The bytes an agent reads from n bytes at an address, whichever part of them it asks for and whatever entries are open: nothing
else changes. -/
def Reads (g : Agent) (s : State) (byte : Word → Byte) (a : Word) (n : Nat) : Prop :=
  ∀ o k u, o + k ≤ n → OnlyReads s u → Fresh u → ∃ v, deviceGet g (a + BitVec.ofNat 64 o) k u
    = (.bytes ((List.range k).map (fun i => byte (a + BitVec.ofNat 64 (o + i)))), v) ∧ OnlyReads s v ∧ Fresh v

/-! ### Memory operations -/

/-- What issuing an operation may change of its hart: its list of operations, its spindles and its combining buffer. -/
def mayIssue (old new : Hart) : Hart :=
  { mayEnd old new with ops := new.ops, nextOp := new.nextOp, sp := new.sp, comb := new.comb }
/-- What a load answered by the hart's own combining buffer may change: also its results on their way. -/
def mayForward (old new : Hart) : Hart := { mayIssue old new with rets := new.rets, perfAt := new.perfAt }

/-- An operation is issued under a strand (R167, R169): it takes the next sequence number, the strand keeps its other
counts, and no other strand differs. -/
def Issued (s t : State) (sn : BitVec 3) (kind : OpKind) : Prop :=
  (∃ o, t.hart.ops = s.hart.ops ++ [o] ∧ o.id = s.hart.nextOp ∧ o.kind = kind ∧ o.strand = sn
    ∧ o.seq = (s.hart.spin sn).issue + 1 ∧ o.pc = s.hart.pc ∧ o.level = s.hart.level ∧ o.region = s.hart.region
    ∧ o.sent = none)
  ∧ t.hart.nextOp = s.hart.nextOp + 1
  ∧ (t.hart.spin sn).issue = (s.hart.spin sn).issue + 1 ∧ (t.hart.spin sn).perf = (s.hart.spin sn).perf
  ∧ (t.hart.spin sn).status = (s.hart.spin sn).status ∧ ∀ r, r ≠ sn → t.hart.spin r = s.hart.spin r

/-- Some entries of the combining buffer close and start to drain; the others stay as they are (R158). -/
def Drains (s t : State) (which : CombEntry → Bool) : Prop :=
  t.hart.comb = s.hart.comb.map (fun e => if which e = true then { e with closed := true, draining := true } else e)
/-- Some entries of the combining buffer take no further writes (R184). -/
def Closes (s t : State) (which : CombEntry → Bool) : Prop :=
  t.hart.comb = s.hart.comb.map (fun e => if which e = true then { e with closed := true } else e)

/-- An instruction that needs a scoreboard entry finds none (R116): it waits, or the deferred fault is taken when every
entry has returned. -/
def WaitsForEntry (i : Instr) (s : State) : Prop :=
  exec i s = .next { s with hart := { s.hart with
    run := if s.hart.outstanding = 0 then .parkTrap 7 s.hart.pc s.hart.pc 0 else .blocked } }

/-- An access to another slice, to HBM or to another node waits while all 64 reply slots are in use (R348). -/
def SlotsTaken (s : State) (ea : Word) : Prop :=
  (gaNode ea ≠ s.nodeId ∨ gaCore ea ≠ s.hart.num) ∧ 64 ≤ s.hart.replySlots

/-- The byte that the combining buffer of the hart in focus holds for an address, when it may supply one (R157, R182). -/
def bufferByte (s : State) (a : Nat) : Option Byte :=
  if s.hart.comb = [] then none else forwardByte (s.hart.olderOps s.hart.nextOp) a

/-- A load issued now takes every byte from the buffer and is performed at once: no own load of the same bytes is still to be
performed (R157, R168, R182). -/
def Forwarded (s : State) (spans : List (Nat × Nat)) : Prop :=
  (∃ p ∈ spans, p.1 < p.2) ∧ (∀ p ∈ spans, ∀ a, p.1 ≤ a → a < p.2 → (bufferByte s a).isSome = true)
    ∧ ∀ o ∈ s.hart.ops, anyMeet o.reads spans = false

/-- The bytes of a place as the buffer holds them. -/
def bufferBytes (s : State) (lo n : Nat) : List Byte := (List.range n).map (fun i => (bufferByte s (lo + i)).getD 0)

/-- A load of the places `spans` is issued (R149, R157, R168, R184): it waits under its strand, whose combining entries start
to drain; or, wholly supplied by the buffer, it is performed with the result `res` on its way. -/
def IssuesLoad (s t : State) (sn : BitVec 3) (k : OpKind) (spans : List (Nat × Nat)) (res : Result) : Prop :=
  (¬Forwarded s spans → Issued s t sn k ∧ Drains s t (fun e => e.strand == sn) ∧ Only mayIssue s t)
  ∧ (Forwarded s spans → t.hart.rets = s.hart.rets ++ [⟨s.hart.nextOp, sn, res, none, []⟩]
      ∧ t.hart.ops = s.hart.ops.filter (fun o => o.id != s.hart.nextOp) ∧ t.hart.nextOp = s.hart.nextOp + 1
      ∧ (t.hart.spin sn).issue = (s.hart.spin sn).issue + 1 ∧ t.hart.comb = s.hart.comb ∧ Only mayForward s t)

/-- A load that has passed its checks: it waits for a reply slot or a scoreboard entry, or is issued (R116, R348). -/
def LoadIssues (i : Instr) (s : State) (ea : Word) (sn : BitVec 3) (k : OpKind) (spans : List (Nat × Nat)) (res : Result)
    (len : Nat) (m : Bool) : Prop :=
  (SlotsTaken s ea → exec i s = .next s.block)
  ∧ (¬SlotsTaken s ea → 64 ≤ s.hart.entries → WaitsForEntry i s)
  ∧ (¬SlotsTaken s ea → s.hart.entries < 64 → ∃ t, exec i s = .next t ∧ Ends s t (s.hart.pc + BitVec.ofNat 64 len) m
      ∧ IssuesLoad s t sn k spans res)

/-- A scalar load at an address (R149, R157, R188, R189): where it traps, where it waits, and what it does. -/
def LoadsAt (i : Instr) (s : State) (ea : Word) (size : Nat) (uns : Bool) (d : BitVec 5) (sn : BitVec 3) (len : Nat)
    (m : Bool) : Prop :=
  let lock := lockHit s ea.toNat (ea.toNat + size) false sn
  (ea.toNat % size ≠ 0 → exec i s = .next (trap 0x03 ea s))
  ∧ (ea.toNat % size = 0 → lock ≠ 0 → exec i s = .next (trap lock ea s))
  ∧ (ea.toNat % size = 0 → lock = 0 → LoadIssues i s ea sn (.load ea size uns d) [(ea.toNat, ea.toNat + size)]
      (.xval d (extend size uns (leNat (bufferBytes s ea.toNat size)))) len m)

/-- The enables of some bytes of a line (R156). -/
def lineBytes (lo n : Nat) : BitVec 64 := BitVec.ofNat 64 ((2 ^ n - 1) * 2 ^ lo)

/-- The bytes of a store enter the combining buffer (R156, R158, R184): they merge into the open entry of their line and strand,
or take a new entry, which closes the strand's others and drains those of the line; a full line drains at once. -/
def Combines (s t : State) (sn : BitVec 3) (ea : Word) (n : Nat) : Prop :=
  let mine (e : CombEntry) : Bool := e.line == ea.toNat / 64 && e.strand == sn && !e.closed
  let bytes := lineBytes (ea.toNat % 64) n
  let full (e : CombEntry) : Prop := e.closed = (e.mask == BitVec.allOnes 64) ∧ e.draining = (e.mask == BitVec.allOnes 64)
  (s.hart.comb.any mine = true → t.hart.comb.length = s.hart.comb.length
    ∧ ∀ e ∈ t.hart.comb, e ∈ s.hart.comb ∨ ∃ f ∈ s.hart.comb, mine f = true ∧ e.line = f.line
      ∧ e.strand = sn ∧ s.hart.nextOp ∈ e.ops ∧ e.mask = f.mask ||| bytes ∧ e.last = s.hart.cycle ∧ full e)
  ∧ (s.hart.comb.any mine = false → ∃ e rest, t.hart.comb = rest ++ [e] ∧ rest.length = s.hart.comb.length
    ∧ e.line = ea.toNat / 64 ∧ e.strand = sn ∧ e.ops = [s.hart.nextOp] ∧ e.last = s.hart.cycle ∧ e.mask = bytes ∧ full e
    ∧ ∀ f ∈ rest, (f.strand = sn → f.closed = true) ∧ (f.line = e.line → f.strand ≠ sn → f.draining = true))

/-- Every piece of a store lies where stores enter the combining buffer (R156). -/
def Buffered (s : State) (l : List (Word × Nat × List Byte)) : Prop := l ≠ [] ∧ ∀ w ∈ l, s.buffers w.1 = true

/-- The buffer has no room for the lines of a store that have no open entry (R156). -/
def BufferFull (s : State) (sn : BitVec 3) (l : List (Word × Nat × List Byte)) : Prop :=
  Buffered s l ∧ 32 < s.hart.comb.length + ((l.map (fun w => w.1.toNat / 64)).eraseDups.filter
    (fun k => !s.hart.comb.any (fun e => e.line == k && e.strand == sn && !e.closed))).length

/-- A store of checked pieces is issued (R149, R156): straight to its banks, or through the combining buffer. -/
def IssuesStore (s t : State) (sn : BitVec 3) (l : List (Word × Nat × List Byte)) (vec : Bool) : Prop :=
  (¬Buffered s l → Issued s t sn (.store l vec false) ∧ Closes s t (fun e => e.strand == sn) ∧ Only mayIssue s t)
  ∧ (Buffered s l → Issued s t sn (.store l vec true) ∧ Only mayIssue s t
      ∧ (∀ w, l = [w] → Combines s t sn w.1 w.2.2.length)
      ∧ ∀ w ∈ l, ∃ e ∈ t.hart.comb, e.line = w.1.toNat / 64 ∧ e.strand = sn ∧ s.hart.nextOp ∈ e.ops
        ∧ ∀ i < w.2.2.length, e.mask.getLsbD ((w.1.toNat + i) % 64) = true)

/-- A refusal of a store's target that is left to the target and reported on the strand: another node without a live lane, or
a place of its slices (R149; log 59). -/
def LeftToTarget (s : State) (tr : Trans) (ea : Word) : Prop :=
  tr.cause ≠ 0xFF ∧ gaNode ea ≠ s.nodeId ∧ (tr.reason = 8 ∨ gaCore ea ≠ hbmCore)

/-- A store's target is checked in `s` (R149): where the instruction traps with `tv`, and where it waits. -/
def StoreStops (i : Instr) (s : State) (tv ea : Word) : Prop :=
  let tr := translate s s.hart.region s.hart.level .store ea
  (tr.cause = 0xFF → exec i s = .next (s.awaitsOwn tr .store ea).block)
  ∧ (tr.cause ≠ 0 → tr.cause ≠ 0xFF → ¬LeftToTarget s tr ea → exec i s = .next (trap tr.cause tv tr.st))

/-- A store's target passes its check in `s`. -/
def StorePasses (s : State) (ea : Word) : Prop :=
  (translate s s.hart.region s.hart.level .store ea).cause = 0
    ∨ LeftToTarget s (translate s s.hart.region s.hart.level .store ea) ea

/-- The piece that bytes make at an address, whose target has been checked. -/
def pieceAt (tr : Trans) (ea : Word) (b : List Byte) : Word × Nat × List Byte := (ea, if tr.cause = 0 then tr.key else 0, b)

/-- A scalar store of `b` at an address (R149, R156, R188, R189): where it traps, where it waits, and what it does. The
state after the check of its target is the one the translation answers. -/
def StoresAt (i : Instr) (s : State) (ea : Word) (size : Nat) (b : List Byte) (sn : BitVec 3) (len : Nat) (m : Bool) : Prop :=
  let lock := lockHit s ea.toNat (ea.toNat + size) true sn
  let tr := translate s s.hart.region s.hart.level .store ea
  let l := [pieceAt tr ea b]
  (ea.toNat % size ≠ 0 → exec i s = .next (trap 0x03 ea s))
  ∧ (ea.toNat % size = 0 → lock ≠ 0 → exec i s = .next (trap lock ea s))
  ∧ (ea.toNat % size = 0 → lock = 0 → StoreStops i s ea ea)
  ∧ (ea.toNat % size = 0 → lock = 0 → StorePasses s ea →
      (BufferFull tr.st sn l → exec i s = .next (tr.st.onHart Hart.drainOldest).block)
      ∧ (¬BufferFull tr.st sn l → ∃ t, exec i s = .next t ∧ Ends tr.st t (tr.st.hart.pc + BitVec.ofNat 64 len) m
          ∧ IssuesStore tr.st t sn l false))

/-- An atomic at an address (R161): where it traps, where it waits, and what issuing it does. -/
def AtomicAt (i : Instr) (s : State) (a b : BitVec 5) (fn : BitVec 6) (size : Nat) (d : BitVec 5) (sn : BitVec 3) (m : Bool) :
    Prop :=
  let ea := s.x a
  let lock := lockHit s ea.toNat (ea.toNat + size) true sn
  (ea.toNat % size ≠ 0 → exec i s = .next (trap 0x03 ea s))
  ∧ (ea.toNat % size = 0 → lock ≠ 0 → exec i s = .next (trap lock ea s))
  ∧ (ea.toNat % size = 0 → lock = 0 → SlotsTaken s ea → exec i s = .next s.block)
  ∧ (ea.toNat % size = 0 → lock = 0 → ¬SlotsTaken s ea → 64 ≤ s.hart.entries → WaitsForEntry i s)
  ∧ (ea.toNat % size = 0 → lock = 0 → ¬SlotsTaken s ea → s.hart.entries < 64 → ∃ t, exec i s = .next t
      ∧ Ends s t (s.hart.pc + 4) m ∧ Issued s t sn (.atomic ea fn (s.x b) (s.oxr 0) d)
      ∧ Drains s t (fun e => e.line == ea.toNat / 64 || e.strand == sn) ∧ Only mayIssue s t)

/-- What performing an operation and returning results may change of a hart. -/
def mayPerform (old new : Hart) : Hart :=
  { old with ops := new.ops, sp := new.sp, perfAt := new.perfAt, rets := new.rets }

/-- The operation with a number leaves the list of unperformed operations. -/
def Performs (s t : State) (id : Nat) : Prop := t.hart.ops = s.hart.ops.filter (fun o => o.id != id)

/-- The operation stands among the unperformed ones of the hart in focus, nothing that must come first does, and it has
not left for another node (R182, R184). -/
def Due (s : State) (o : Op) : Prop := s.hart.op? o.id = some o ∧ s.hart.ready o = true ∧ o.sent = none

/-- Consecutive bytes are written at a place of memory, and no other byte differs. -/
def WritesBytes (s t : State) (key : Nat) (b : List Byte) : Prop :=
  ∀ k, Cells.get t.mem k = if key ≤ k ∧ k < key + b.length then (b[k - key]?).getD 0 else Cells.get s.mem k

/-- Pieces are written at places of memory one after another, the later on top, and no other byte differs. -/
def WritesPieces (s t : State) (ps : List (Nat × List Byte)) : Prop :=
  ∀ k, Cells.get t.mem k
    = (ps.reverse.findSome? (fun p => if p.1 ≤ k then p.2[k - p.1]? else none)).getD (Cells.get s.mem k)

/-- Bytes read from memory at an address as a load sees them: those that the combining buffer holds from older stores of the
hart come from there (R157, R182). -/
def seenBytes (s : State) (o : Op) (lo : Nat) (b : List Byte) : List Byte :=
  (List.range b.length).map (fun i =>
    (if s.hart.comb = [] then none else forwardByte (s.hart.olderOps o.id) (lo + i)).getD ((b[i]?).getD 0))

/-- The buffer supplies every byte of a place to a load. -/
def Supplied (s : State) (o : Op) (lo n : Nat) : Prop :=
  0 < n ∧ s.hart.comb ≠ [] ∧ ∀ i < n, (forwardByte (s.hart.olderOps o.id) (lo + i)).isSome = true

/-- A load is performed with a result on its way that waits for some read-combining entries. -/
def Returns (s t : State) (o : Op) (res : Result) (entries : List Nat) : Prop :=
  t.hart.rets = s.hart.rets ++ [⟨o.id, o.strand, res, none, entries⟩] ∧ Performs s t o.id

/-- A write of some bytes at a place of this module is a plain one: within a line, outside the ring block, in no
compressed page, and with no checkpoint interval open that logs it (R166, R383, R412). -/
def PlainPlace (s : State) (key n : Nat) : Prop :=
  key % 64 + n ≤ 64 ∧ keyInRing s key = false ∧ csPage s key = false ∧ s.intervals = []

/-- A number of a size, extended to a register (R149). -/
def extended (uns : Bool) (size v : Nat) : Word :=
  if uns = true then BitVec.ofNat 64 v else BitVec.ofInt 64 (Int.bmod v (2 ^ (8 * size)))

/-- The new value of an integer atomic (R161, R77). -/
def atomicNew {w : Nat} (fn : Nat) (old b cmp : BitVec w) : BitVec w :=
  match fn with
  | 0 => BitVec.ofNat w (old.toNat + b.toNat)
  | 1 => old &&& b
  | 2 => old ||| b
  | 3 => old ^^^ b
  | 4 => BitVec.ofInt w (min old.toInt b.toInt)
  | 5 => BitVec.ofInt w (max old.toInt b.toInt)
  | 6 => BitVec.ofNat w (min old.toNat b.toNat)
  | 7 => BitVec.ofNat w (max old.toNat b.toNat)
  | 8 => b
  | _ => if old = cmp then b else old

/-! ### Vector instructions -/

/-- The register effect of a vector instruction: lanes of one register, the sticky flags, no other register. -/
def VectorEffect (s u : State) (d : BitVec 5) (t : Bool) (act : Nat → Bool) (val : Nat → Nat) (fl : Flags) : Prop :=
  (∀ j < laneCount t, lane t (u.vr d) j = if act j = true then val j % 2 ^ laneWidth t else lane t (s.vr d) j)
  ∧ (∀ r, r ≠ d → u.vr r = s.vr r) ∧ u.hart.fxFlags = s.hart.fxFlags ||| fl

/-- The stream of a register, if it has one, holds the register that the next read takes (R212). -/
def StreamReady (s : State) (q : BitVec 5) : Prop :=
  ∀ b, s.hart.bound q = some b → b.write = false ∧ b.pos < b.count
    ∧ ∃ e, b.ready.find? (fun p => p.1 == b.pos) = some e ∧ e.2.2.2 = 0

/-- The first register among those read whose stream does not give a value stops the instruction without effect (R212): a
misuse traps with 0x0E, a fetch still on its way makes it wait, and the fetch's own fault traps and is fetched again. -/
def StopsOnStreams (i : Instr) (s : State) (reads : List (BitVec 5)) : Prop :=
  ∀ pre r post b, reads = pre ++ r :: post → (∀ q ∈ pre, StreamReady s q) → s.hart.bound r = some b →
    (b.write = true ∨ b.count ≤ b.pos → exec i s = .next (trap 0x0E (BitVec.ofNat 64 r.toNat) s))
    ∧ (b.write = false → b.pos < b.count → b.ready.find? (fun p => p.1 == b.pos) = none → exec i s = .next s.block)
    ∧ (b.write = false → b.pos < b.count → ∀ e, b.ready.find? (fun p => p.1 == b.pos) = some e → e.2.2.2 ≠ 0 →
        ∃ u, exec i s = .next (trap e.2.2.2 (b.addr b.pos) u)
          ∧ u.hart.bound r = some { b with fetched := b.pos, ready := b.ready.filter (fun p => p.1 != b.pos) }
          ∧ (∀ q, q ≠ r → u.hart.bound q = s.hart.bound q) ∧ u = { s with hart := { s.hart with binds := u.hart.binds } })

/-- A register that an instruction may not write: its stream reads, or is at its end (R212). -/
def WriteMisused (s : State) (d : BitVec 5) : Prop := ∃ b, s.hart.bound d = some b ∧ (b.write = false ∨ b.count ≤ b.pos)

/-- An instruction stops without any effect of its own: a trap, or a wait in which combining entries may start to drain and a
memory error may have been reported. -/
def StopsWhole (i : Instr) (s : State) : Prop :=
  ∃ w, exec i s = .next w ∧ ((∃ c v, w = trap c v s)
    ∨ w.hart = { s.hart with run := .blocked, comb := w.hart.comb, irqs := w.hart.irqs })

/-- The values that an instruction draws can be drawn: what stops it, when it is reached, is what the log's entries meet (R109,
R189). -/
def LogStops (i : Instr) (s : State) (draws : Nat) : Prop := (s.logGate draws).ok = false → exec i s = .next (s.logGate draws).st

/-- A vector instruction with a vector destination (R197 to R200, R212). A destination bound for reading, or at its stream's
end, traps with 0x0E; a source stream may stop it. Once the streams among `reads` are consumed (the state is then `s1`),
`after` gives the state after its random draws; an unbound destination takes the lanes; a write stream puts them out as
well, or stops the instruction. `out` are the lanes a write stream stores. -/
def RunsLanes (i : Instr) (reads : List (BitVec 5)) (s : State) (d : BitVec 5) (t : Bool) (out : List Bool) (act : Nat → Bool)
    (after : State → State) (val : State → Nat → Nat) (fl : State → Flags) (m : Bool) : Prop :=
  (WriteMisused s d → exec i s = .next (trap 0x0E (BitVec.ofNat 64 d.toNat) s))
  ∧ (¬WriteMisused s d → StopsOnStreams i s reads)
  ∧ ∀ s1, consumeAll reads s = ⟨true, s1⟩ →
    (s.hart.bound d = none → ∃ u, exec i s = .next u ∧ VectorEffect s1 u d t act (val s1) (fl s1)
      ∧ Ends (after s1) u (s1.hart.pc + 4) m ∧ Only mayV (after s1) u)
    ∧ (∀ b, s.hart.bound d = some b → b.write = true → b.pos < b.count → ∃ u, VectorEffect s1 u d t act (val s1) (fl s1)
      ∧ Only (fun old new => { old with v := new.v, fxFlags := new.fxFlags }) (after s1) u
      ∧ ((produce d out u).ok = true → exec i s = .next ((produce d out u).st.done 4 m))
      ∧ ((produce d out u).ok = false → StopsWhole i s))

/-- A lanewise instruction under a mask, with the flags its active lanes raise (R198, R200). -/
def RunsFp (i : Instr) (reads : List (BitVec 5)) (s : State) (d : BitVec 5) (t : Bool) (k : BitVec 3) (f : State → Nat → Rounded)
    (m : Bool) : Prop :=
  RunsLanes i reads s d t (activeLanes t (s.mr k)) (fun j => (s.mr k).getLsbD j) id (fun s1 j => (f s1 j).bits)
    (fun s1 => ((List.range (laneCount t)).filter (fun j => (s.mr k).getLsbD j)).foldl (fun acc j => acc ||| (f s1 j).flags) 0) m

/-- A lanewise instruction under a mask that raises no flag. -/
def RunsInt (i : Instr) (reads : List (BitVec 5)) (s : State) (d : BitVec 5) (t : Bool) (k : BitVec 3) (f : State → Nat → Nat)
    (m : Bool) : Prop := RunsFp i reads s d t k (fun s1 j => ⟨f s1 j, 0⟩) m

/-- Every lane is replaced, whatever the mask. -/
def RunsAll (i : Instr) (reads : List (BitVec 5)) (s : State) (d : BitVec 5) (t : Bool) (f : State → Nat → Nat) (fl : State → Flags)
    (m : Bool) : Prop := RunsLanes i reads s d t (List.replicate (laneCount t) true) (fun _ => true) id f fl m

/-- An instruction that reads vector registers and writes a general register. -/
def ReadsToX (i : Instr) (reads : List (BitVec 5)) (s : State) (d : BitVec 5) (v : State → Word) (m : Bool) : Prop :=
  StopsOnStreams i s reads ∧ ∀ s1, consumeAll reads s = ⟨true, s1⟩ → ∃ u, exec i s = .next u ∧ WritesX s1 u d (v s1)
    ∧ Ends s1 u (s1.hart.pc + 4) m ∧ Only mayX s1 u

/-- An instruction that compares vector registers into a mask register. -/
def ReadsToM (i : Instr) (reads : List (BitVec 5)) (s : State) (d : BitVec 3) (v : State → Nat → Bool) (m : Bool) : Prop :=
  StopsOnStreams i s reads ∧ ∀ s1, consumeAll reads s = ⟨true, s1⟩ → ∃ u w, exec i s = .next u
    ∧ (∀ r, u.mr r = if r = d ∧ r ≠ 0 then w else s1.mr r) ∧ (∀ j < 64, w.getLsbD j = v s1 j)
    ∧ Ends s1 u (s1.hart.pc + 4) m ∧ Only mayM s1 u

/-- The pairwise tree of a reduction (R112): the value and the flags of the node at a height and a place. -/
def tree (f : Nat → Nat → Rounded) (leaf : Nat → Nat) : Nat → Nat → Rounded
  | 0, i => ⟨leaf i, 0⟩
  | n + 1, i =>
    let a := tree f leaf n (2 * i)
    let b := tree f leaf n (2 * i + 1)
    let r := f a.bits b.bits
    ⟨r.bits, a.flags ||| b.flags ||| r.flags⟩

/-! ### Vector memory -/

/-- The first byte of a vector access: the address itself in a raw bank, else the place of the element (R205). -/
def bankPlace (fmt : BitVec 4) (ea : Word) : Word :=
  let k := ea.toNat % 2 ^ 15
  if fmt = 0 then ea
  else BitVec.ofNat 64 (ea.toNat - k + if fmt = 6 then k / 48 * 32 else if fmt = 7 then k / 48 * 64 else k * codeSize fmt)

/-- The cause with which R206 refuses a vld or vst at issue, 0 for none. -/
def bankRefusal (fmt : BitVec 4) (ea : Word) (d : BitVec 5) : BitVec 8 :=
  let k := ea.toNat % 2 ^ 15
  if fmt = 0 then (if ea.toNat % 64 = 0 then 0 else 0x03)
  else if k % codeElems fmt ≠ 0 then 0x03
  else if codeCapacity fmt < k + codeElems fmt then 0x05
  else if (fmt = 6 ∨ fmt = 7) ∧ 29 < d.toNat then 0x03
  else 0

/-- The raised flags of a conversion are ORed into fx.flags. -/
def raised (s : State) (fl : Flags) : State := { s with hart := { s.hart with fxFlags := s.hart.fxFlags ||| fl } }

/-- An instruction that stands at `s` waits for room in the combining buffer of `v`, whose oldest entry starts to drain
(R156). -/
def WaitsForBuffer (i : Instr) (s v : State) : Prop :=
  ∃ w, exec i s = .next w ∧ w.hart = { s.hart with run := .blocked, comb := v.hart.drainOldest.comb }

/-- A vector store of one access at `ea`, whose bytes lie from `place` on (R149, R206, R229): its target is checked in the state
`s` of the instruction, then the log of the values its conversion draws, and the store is issued from `v`, in which its streams are
consumed and its registers converted. -/
def StoresBlock (i : Instr) (s v : State) (ea place : Word) (b : List Byte) (draws : Nat) (sn : BitVec 3) (vec m : Bool) : Prop :=
  let tr := translate v v.hart.region v.hart.level .store place
  let l := [pieceAt tr place b]
  StoreStops i s ea place
  ∧ (StorePasses s place → LogStops i s draws)
  ∧ (StorePasses s place → (s.logGate draws).ok = true → (BufferFull tr.st sn l → WaitsForBuffer i s tr.st)
      ∧ (¬BufferFull tr.st sn l → ∃ t, exec i s = .next t ∧ Ends tr.st t (tr.st.hart.pc + 4) m ∧ IssuesStore tr.st t sn l vec))

/-! ### Engine commands -/

/-- The hart in focus may use its engine: a compute hart whose node, if any, asked for it (R254). -/
def EngineFor (s : State) : Prop := s.hart.num < 1024 ∧ ∀ n, s.hart.node = some n → n.engine = true

/-- The command queue and the hart's range-lock table have room for a command with so many intervals (R242). -/
def HasRoom (s : State) (n : Nat) : Prop :=
  s.hart.cmds.length < 16 ∧ (s.locks.filter (fun l => l.table == hartTable s.hart.num)).length + n ≤ 256

/-- The bytes from the first to the last of some rows (R188). -/
def rowSpan (a : Word) (rows len : Nat) (stride : Word) (k : LockKind) : Nat × Nat × LockKind :=
  let last : Int := (a.toNat : Int) + ((rows - 1 : Nat) : Int) * stride.toInt
  ((min (a.toNat : Int) last).toNat, (max (a.toNat : Int) last + len).toNat, k)

/-- The range-lock entries an operation adds: its intervals in whole lines, in the table of its hart (R188). -/
def lockEntries (s : State) (sn : BitVec 3) (spans : List (Nat × Nat × LockKind)) : List Lock :=
  (spans.filter (fun p => decide (p.1 < p.2.1))).map (fun p =>
    ⟨hartTable s.hart.num, p.1 / 64 * 64, (p.2.1 + 63) / 64 * 64, p.2.2, some s.hart.num, sn, s.hart.region, s.hart.nextOp, none⟩)

/-- What putting a command into the queue may change of its hart. -/
def mayQueue (old new : Hart) : Hart := { mayIssue old new with cmds := new.cmds }

/-- The instruction puts a command with what it captured at the end of the hart's queue (R240, R251), as one operation of its
strand with its range locks, and the next instruction follows. -/
def Queues (i : Instr) (s s1 : State) (major fn : Nat) (sn : BitVec 3) (xa xb : Word) (d : BitVec 5) (data : VReg)
    (peers : Nat → Prop) (spans : List (Nat × Nat × LockKind)) (m : Bool) : Prop :=
  ∃ t c, exec i s = .next t ∧ Issued s1 t sn .engine ∧ Drains s1 t (fun e => e.strand == sn) ∧ Ends s1 t (s1.hart.pc + 4) m
    ∧ t.hart.cmds = s1.hart.cmds ++ [c] ∧ c.op = s1.hart.nextOp ∧ c.pc = s1.hart.pc ∧ encode i = some (.word c.word)
    ∧ c.major.toNat = major ∧ c.fn.toNat = fn ∧ c.strand = sn ∧ c.xa = xa ∧ c.xb = xb ∧ c.ox0 = s1.oxr 0 ∧ c.ox1 = s1.oxr 1
    ∧ c.ox2 = s1.oxr 2 ∧ c.cfg = s1.hart.cfg ∧ c.dest = d ∧ c.data = data ∧ c.drained = 0 ∧ c.begun = false ∧ c.kn = none
    ∧ c.holds = false ∧ c.lost = false
    ∧ (∀ g, g ∈ c.peers ↔ peers g) ∧ t.locks = s1.locks ++ lockEntries s1 sn spans
    ∧ t = { s1 with hart := mayQueue s1.hart t.hart, locks := t.locks } ∧ SameBytes s1 t

/-- An instruction that queues a command: where it traps, where it waits, and what it puts into the queue (R242, R253, R254,
R259, R308). -/
def QueueCommand (i : Instr) (s : State) (major fn : Nat) (sn : BitVec 3) (xa xb : Word) (d : BitVec 5) (peers : Nat → Prop)
    (aligned : Prop) (bad : Word) (weights : Prop) (at_ : Word) (spans : List (Nat × Nat × LockKind)) (m : Bool) : Prop :=
  (¬EngineFor s → exec i s = .next (trap 0x05 0 s))
  ∧ (EngineFor s → ¬aligned → exec i s = .next (trap 0x03 bad s))
  ∧ (EngineFor s → aligned → weights → exec i s = .next (trap 0x0A at_ s))
  ∧ (EngineFor s → aligned → ¬weights → ¬HasRoom s spans.length →
      exec i s = .next { s with hart := { s.hart with run := .blocked } })
  ∧ (EngineFor s → aligned → ¬weights → HasRoom s spans.length → Queues i s s major fn sn xa xb d 0 peers spans m)

/-- A bound sequencer withholds weight writes on the engine of a frame (R306). -/
def Withheld (s : State) (f : Nat) : Prop :=
  ∃ q ∈ s.seqs.toList, q.bound = true ∧ q.permit = false ∧ ∃ w ∈ q.flights,
    bitsOf w 0 11 / 8 ≤ f ∧ f ≤ (bitsOf w 0 11 + bitsOf w 16 11 - 1) / 8

/-- A destination interval meets a weight range that a stairwell of the hart's region withholds (R308). -/
def OnWeights (s : State) (spans : List (Nat × Nat × LockKind)) : Prop :=
  ∃ p ∈ spans, ∃ q ∈ s.seqs.toList, q.bound = true ∧ q.permit = false ∧ some q.region = s.hart.region
    ∧ ∃ r ∈ q.ranges, p.1 < r.1.toNat + r.2.toNat ∧ r.1.toNat < p.2.1

/-- The tile of a command is in progress on the engine of a frame. -/
def TileOf (s : State) (f n : Nat) (c : Cmd) : Prop :=
  f < 128 ∧ (s.engine f).tile = some (n, c.op) ∧ (s.getHart n).cmds.find? (fun d => d.op == c.op) = some c

/-- A strip of a command has drained: the engine has no tile in progress; the command counts the strip, or ends with its last
one, its operation performed and its range locks gone (R250). -/
def StripCounts (s t : State) (f n : Nat) (c : Cmd) : Prop :=
  (t.engine f).tile = none ∧ (t.engine f).lastTile = s.now
  ∧ (c.drained + 1 < c.strips ∨ c.peers ≠ [] → (t.getHart n).ops = (s.getHart n).ops
      ∧ (t.getHart n).cmds = (s.getHart n).cmds.map (fun d => if d.op = c.op then { c with drained := c.drained + 1 } else d))
  ∧ (c.strips ≤ c.drained + 1 → c.peers = [] → (t.getHart n).cmds = (s.getHart n).cmds.filter (fun d => d.op != c.op)
      ∧ (t.getHart n).ops = (s.getHart n).ops.filter (fun o => o.id != c.op)
      ∧ t.locks = s.locks.filter (fun l => !(l.hart == some n && l.op == c.op)))

/-- A command of hart n ends in its error phase (R247, R248): EF and the ECODE in its strand's STATUS, the error record for
ECODE 1 to 5 with its columns, and the command, its operation and its range locks gone; a register it answers with keeps its
value. -/
def CmdFails (s t : State) (n : Nat) (c : Cmd) (ec : BitVec 8) (bits : BitVec 17) (strip : Nat) (cols : Nat → Nat → Prop) : Prop :=
  let h := s.getHart n
  let u := t.getHart n
  (u.spin c.strand).status = mergeStatus (h.spin c.strand).status (8 ||| bits ||| ec.setWidth 17 <<< 8)
  ∧ u.cmds = h.cmds.filter (fun d => d.op != c.op) ∧ u.ops = h.ops.filter (fun o => o.id != c.op)
  ∧ t.locks = s.locks.filter (fun l => !(l.hart == some n && l.op == c.op))
  ∧ (∀ e ∈ t.engines, ∀ b ∈ e.busIn, ¬(b.hart = n ∧ b.op = c.op))
  ∧ (ec.toNat ≤ 5 → ∃ e, u.engErr = some e ∧ e.pc = c.pc ∧ e.word = c.word ∧ e.xa = c.xa ∧ e.xb = c.xb ∧ e.ox0 = c.ox0
      ∧ e.cfg = c.cfg ∧ e.ecode = ec ∧ e.strip = BitVec.ofNat 12 strip ∧ cols e.col0.toNat e.col1.toNat)
  ∧ (ec = 7 → u.engErr = h.engErr) ∧ u.x = h.x ∧ u.v = h.v
  ∧ u.rets = h.rets ++ (if c.major = 0x3A ∧ c.fn = 8 then [⟨c.op, c.strand, .nothing [] [c.dest], none, []⟩]
      else if c.major = 0x3B ∧ c.fn = 7 then [⟨c.op, c.strand, .nothing [c.dest] [], none, []⟩] else [])

/-- Some cells of a store take new values, the later on top, and no other differs. -/
def PutsCells {w : Nat} (c c' : Cells w) (l : List (Nat × BitVec w)) : Prop :=
  ∀ k, Cells.get c' k = ((l.reverse.find? (fun p => p.1 == k)).map (·.2)).getD (Cells.get c k)

/-- The elements of a rectangle of the accumulator take new values and no other element differs. -/
def SetsAcc (e e' : Engine) (r0 c0 rows cols : Nat) (v : Nat → Nat → BitVec 32) : Prop :=
  (∀ r < rows, ∀ j < cols, Cells.get e'.acc ((r0 + r) * 512 + (c0 + j)) = v r j)
  ∧ ∀ k, (∀ r < rows, ∀ j < cols, k ≠ (r0 + r) * 512 + (c0 + j)) → Cells.get e'.acc k = Cells.get e.acc k

/-- The instruction answers with a register from a state that some of its effects have made: from there the register is written
and the next instruction follows. -/
def Answers (i : Instr) (s v : State) (d : BitVec 5) (r : Word) (m : Bool) : Prop :=
  ∃ t, exec i s = .next t ∧ WritesX v t d r ∧ Ends v t (v.hart.pc + 4) m ∧ Only mayX v t

/-! ### Cycle control -/

/-- A sequencer takes a new state, and the region's event queue the record of it (R296, R427). -/
def Moves (k : BitVec 4) (q : Sequencer) (u v : State) : Prop :=
  v = regionRecord q.region 0x01 0xFFFF (k.toNat + q.state.code * 2 ^ 32) q.word.toNat (u.setSeq k q)

/-- The sequencer is bound to the region of the hart in focus. -/
def Bound (s : State) (q : Sequencer) : Prop := q.bound = true ∧ s.hart.region = some q.region

/-- The state that comes after the last arrival of a phase (R295, R297). -/
def nextPhase : SeqState → SeqState
  | .open_ => .relax
  | .relax => .coarse
  | .coarse => .test
  | st => st

/-- The release tick of a barrier (R302). -/
def releaseAt (q : Sequencer) (last : Nat) (wants : List Nat) (decision : Nat) : Nat :=
  max (last + max q.ldelay.toNat (if q.device = true then 160 else 64)) (max (min (wants.foldl max 0) (last + 2 ^ 20)) decision)

/-- The waiting members of a stairwell have their release tick; `ended` tells that the cycle is decided for good. -/
def released (k : BitVec 4) (t : Word) (ended : Bool) (h : Hart) : Hart :=
  match h.run with
  | .barrier j p d m none _ => if j = k then { h with run := .barrier j p d m (some t) ended } else h
  | _ => h

/-- The members of a stairwell that still wait in the cycle that runs go on behind their cyphase with a code. -/
def sentBack (k : BitVec 4) (code : Word) (h : Hart) : Hart :=
  match h.run with
  | .barrier j _ d m r e => if j = k ∧ (r = none ∨ e = false) then (h.wx d code).retire (h.pc + 4) m else h
  | _ => h

/-! ### Copies -/

/-- What issuing or resuming a copy may change of its hart. -/
def mayCopy (old new : Hart) : Hart := { mayIssue old new with x := new.x, copies := new.copies }

/-- What the end of a copy may change of its hart. -/
def mayEndCopy (old new : Hart) : Hart :=
  { old with ops := new.ops, sp := new.sp, perfAt := new.perfAt, copies := new.copies, irqs := new.irqs }

/-- The copies of a hart that stand in its FIFO (R320). -/
def waitingCopies (h : Hart) : Nat := (h.copies.filter (fun p => p.2.taken && p.2.st == .queued)).length

/-- The range-lock entries of the latest copy of the hart: its source and its destination (R188). -/
def copyLocks (s : State) (sn : BitVec 3) (w0 w1 w2 : Word) (sf df : BitVec 4) (esz : BitVec 2) : List Lock :=
  let p := copySpans w0 w1 w2 sf df esz
  [⟨hartTable s.hart.num, p.1.1 / 64 * 64, (p.1.2 + 63) / 64 * 64, .copySource, some s.hart.num, sn, s.hart.region, s.hart.nextOp, none⟩,
   ⟨hartTable s.hart.num, p.2.1 / 64 * 64, (p.2.2 + 63) / 64 * 64, .copyDest, some s.hart.num, sn, s.hart.region, s.hart.nextOp, none⟩]

/-- A copy of the hart in focus stops (R333, R334): its slot, its operation, its locks, its strand's STATUS and its interrupt. -/
def CopyStops (s t : State) (slot : BitVec 8) (c : CopySlot) (ec : BitVec 8) (bits : BitVec 17) (kept : Word) : Prop :=
  t.hart.slot slot = { c with st := .stopped, ecode := ec, kept := kept }
  ∧ t.hart.ops = s.hart.ops.filter (fun o => o.id != c.op)
  ∧ t.locks = s.locks.filter (fun l => !(l.hart == some s.hart.num && l.op == c.op))
  ∧ (t.hart.spin (BitVec.ofNat 3 c.w3.toNat)).status = (if ec = 6 then (s.hart.spin (BitVec.ofNat 3 c.w3.toNat)).status
      else mergeStatus (s.hart.spin (BitVec.ofNat 3 c.w3.toNat)).status (8 ||| bits ||| ec.setWidth 17 <<< 8))
  ∧ (c.handler ≠ 0 → ∃ q ∈ t.hart.irqs, q.cause = 0x12 ∧ q.slot = slot)

/-! ### Packets -/

/-- A packet waits at the end of its peer's send queue; nothing is sent to a peer that no live lane reaches (R139, R347). Only
the time since which messages wait for their output may change besides (R350). -/
def Sends (s t : State) (p : Packet) : Prop :=
  (s.liveLanes p.peer = 0 → t = s)
  ∧ (0 < s.liveLanes p.peer → t = { s with sendq := s.sendq ++ [⟨p.peer, p.cls, p⟩], msgMoved := t.msgMoved })

/-! ### Messages -/

/-- A receive of a hart ends with a message: its slot, its operation and the acquire of its strand (R194, R357, R363). -/
def Receives (s t : State) (n : Nat) (i : BitVec 5) (len : Nat) (src : BitVec 11) (node : BitVec 4) (tag : BitVec 16) : Prop :=
  let p := (s.getHart n).post i
  (t.getHart n).post i = { p with matched := true, done := true, srcHart := src, srcNode := node, tag := tag, queued := none, held := none, len := len, trunc := decide (p.cap < len) }
  ∧ (∀ j, j ≠ i → (t.getHart n).post j = (s.getHart n).post j) ∧ (t.getHart n).mrecv = (if (s.getHart n).back = none then (s.getHart n).mrecv + 1 else (s.getHart n).mrecv)
  ∧ (t.getHart n).ops = (s.getHart n).ops.filter (fun o => o.id != p.op)
  ∧ t.locks = s.locks.filter (fun l => !(l.hart == some n && l.op == p.op))
  ∧ (t.getHart n).acq[p.strand.toNat] = s.now

/-- The receive status word (R364). -/
def receiveStatus (p : Post) : Word :=
  BitVec.ofNat 64 (p.len + (if p.trunc = true then 2 ^ 13 else 0) + (if p.done = true then 2 ^ 14 else 0)
    + (if p.cancelled = true then 2 ^ 15 else 0) + p.srcHart.toNat * 2 ^ 16 + p.srcNode.toNat * 2 ^ 27 + p.tag.toNat * 2 ^ 32)

/-- A match specification takes a source and a tag (R356). -/
def Takes (spec : Word) (src : BitVec 11) (node : BitVec 4) (tag : BitVec 16) : Prop :=
  (spec.getLsbD 20 = true ∨ spec.toNat % 2 ^ 11 = src.toNat ∧ spec.toNat / 2 ^ 16 % 16 = node.toNat)
  ∧ (spec.getLsbD 48 = true ∨ spec.toNat / 2 ^ 32 % 2 ^ 16 = tag.toNat)
/-! ### Tasks and regions -/

/-- A release point of some strands of the hart in focus is recorded (R382). -/
def PointRecorded (s t : State) (strands : BitVec 3 → Prop) (w : ReleaseWhat) : Prop :=
  ∃ p, t.releases = s.releases ++ [p] ∧ p.hart = s.hart.num ∧ p.what = w
    ∧ ∀ i n, (i, n) ∈ p.points ↔ strands i ∧ n = (s.hart.spin i).issue

/-- The word of a code (R385). -/
def coded (n : Nat) : Word := BitVec.ofNat 64 (2 ^ 63 + n)

/-- A descriptor without successors breaks a rule of R376 or R377. -/
def DescInvalid (b : List Byte) : Prop :=
  let ctl := (dwordAt b 2).toNat
  (dwordAt b 0).toNat % 2 = 1 ∨ ctl % 4 = 3 ∨ ctl / 4 % 2 = 1 ∧ ctl % 4 ≠ 0 ∨ ctl / 2 ^ 5 % 8 ≠ 0 ∨ 4032 < ctl / 2 ^ 20 % 2 ^ 12
    ∨ ctl / 2 ^ 48 ≠ 0 ∨ ∃ i < 4, (dwordAt b (4 + i)).toNat / 2 ^ 6 % 4 ≠ 0 ∨ (dwordAt b (4 + i)).toNat / 2 ^ 34 ≠ 0

/-- The first code of a descriptor, 0 for none (R386). -/
def spawnCode (s : State) (g : Region) (bad : Bool) (n : NodeRec) : Nat :=
  let limit := if n.kind = 0 then g.frames else if n.kind = 1 then g.gw else if g.svc = true then 1 else 0
  if bad = true then 2
  else if limit = 0 ∨ n.gang = true ∧ (if n.kind = 0 then 8 else 1) * limit < n.count then 3
  else if n.desc ∈ s.pooled g.num then 4
  else if g.pool ≤ (s.pooled g.num).length then 1 else 0

/-- A region or one above it is stopped by gstop. -/
def GstoppedAbove (s : State) (r : BitVec 16) : Prop := ∃ q ∈ s.lineage r, ∃ e, s.switchOf q = some (.gstopped e)

/-- A child takes its own dword at offset 8i (R372). -/
def Own (b : List Byte) (i : Nat) : Prop := (dwordAt b 6).toNat / 2 ^ i % 2 = 1
/-- A live region without children. -/
def Childless (s : State) (r : BitVec 16) : Prop := (s.region? r).isSome = true ∧ ∀ g ∈ s.regions, g.parent ≠ some r

/-- The dispatcher has a ring record to take (R384, R430). -/
def RingHolds (s : State) : Prop := s.recovery = false ∧ s.ringRp ≠ s.ringWp ∧ s.ringOverrun.toNat % 2 = 0

/-- A dword of the record at ring.rp (R384). -/
def ringWord (s : State) (i : Nat) : Word :=
  leWord (s.mem.bytes (hbmKey s.nodeId (s.ringBase.toNat + 64 * (s.ringRp.toNat % 4096) + 8 * i)) 8)
/-! ### System registers and traps -/

/-- The instruction makes the named change, and otherwise only ends. -/
def Sets (i : Instr) (s u : State) (m : Bool) : Prop :=
  ∃ t, exec i s = .next t ∧ Ends s t (s.hart.pc + 4) m ∧ t = { u with hart := mayEnd u.hart t.hart } ∧ SameBytes s t

/-- The seven registers of a trap bank as srd reads them (R396). -/
def bankWords (l : Level) (b : TrapBank) : List Word :=
  let ppl := match b.ppl with | .U => 0 | .S => 4 | .M => 8
  [BitVec.ofNat 64 (b.cause.toNat + if b.async = true then 2 ^ 8 else 0), b.pc, b.epc, b.val,
   BitVec.ofNat 64 ((if b.ie = true then 1 else 0) + (if b.pie = true then 2 else 0) + (if l = .U then 0 else ppl) + if b.tip = true then 16 else 0),
   if l = .U then 0 else b.vec, b.scr]

/-- The trap bank after a write of one of its registers (R396). -/
def bankAfter (l : Level) (b : TrapBank) (v : Word) : List TrapBank :=
  let even := BitVec.ofNat 64 (v.toNat / 2 * 2)
  let ppl : Level := if v.toNat / 4 % 4 = 0 then .U else if v.toNat / 4 % 4 = 2 then .M else .S
  [{ b with cause := BitVec.ofNat 8 v.toNat, async := v.getLsbD 8 },
   { b with pc := even },
   { b with epc := even },
   { b with val := v },
   { b with ie := v.getLsbD 0, pie := v.getLsbD 1, ppl := if l = .U then b.ppl else ppl, tip := v.getLsbD 4 },
   if l = .U then b else { b with vec := even },
   { b with scr := v }]

/-- The level at which a cause is taken (R397, R398). -/
def targetOf (h : Hart) (cause : BitVec 8) : Level :=
  if cause = 0x0C then .S
  else if cause = 0x12 then .U
  else if cause = 0x13 ∨ cause = 0x14 ∨ cause = 0x15 then .M
  else if h.level = .M then .M
  else if cause.toNat < 32 ∧ h.deleg.toNat / 2 ^ cause.toNat % 2 = 1 then .S
  else .M

/-- A trap is taken at a level (R400): what its bank saves, the level and the pc; nothing else differs. -/
def Enters (s t : State) (l : Level) (cause : BitVec 8) (async : Bool) (pc epc val target : Word) : Prop :=
  let even (w : Word) : Word := BitVec.ofNat 64 (w.toNat / 2 * 2)
  let old := s.hart.bank l
  t = { s with hart := { s.hart with level := l, pc := target, run := .running, bankU := t.hart.bankU, bankS := t.hart.bankS, bankM := t.hart.bankM } }
  ∧ t.hart.bank l = { old with cause := cause, async := async, pc := even pc, epc := even epc, val := val, pie := old.ie, ie := false, ppl := s.hart.level, tip := true }
  ∧ ∀ k, k ≠ l → t.hart.bank k = s.hart.bank k

/-- A synchronous trap (R400, R401): at its level, in M when the S bank is busy, or the hart stops. -/
def TakesTrap (s t : State) (cause : BitVec 8) (pc epc val : Word) : Prop :=
  let l := targetOf s.hart cause
  ((s.hart.bank l).tip = false → Enters s t l cause false pc epc val (s.hart.bank l).vec)
  ∧ ((s.hart.bank l).tip = true → l = .S → Enters s t .M cause false pc epc val s.hart.bankM.vec)
  ∧ ((s.hart.bank l).tip = true → l ≠ .S → t.hart.run = .halted ∧ t.hart.pc = s.hart.pc ∧ t.hart.level = s.hart.level
      ∧ (∀ g, s.hart.region.bind s.region? = some g → (g.fdom, cause) ∈ t.rollbacks ∧ SameBytes s t))

/-- The word of an instruction of major 0x3F (R404). -/
def word3F (fn b a d : Nat) (m : Bool) : Word :=
  BitVec.ofNat 64 ((if m = true then 2 ^ 31 else 0) + fn * 2 ^ 22 + b * 2 ^ 17 + a * 2 ^ 12 + d * 2 ^ 7 + 0x7F)

end Claims

end Sys2Proof
end

