-- ==== Sys2Proof/Certificates/Slice0/Obligations.lean ====
section
/-! DEFINITION. The statements about the machine: what its instructions and its units do, from the numbered rules of the
spec. A statement over a wait, a fetch or a translation takes the state that operation answers. -/

open Sys2Proof Sys2Proof.Machine Sys2Proof.Claims

/-- R291 to R317: the instructions of cycle control in every state. -/
def Obligations.CycleInstructions : Prop :=
  ∀ (s0 : State) (d a b : BitVec 5) (m : Bool),
    let k : BitVec 4 := BitVec.ofNat 4 (s0.x a).toNat
    let s := s0.onTime k
    let run (i : Instr) (v : Word) : Prop := Answers i s0 s d v m
    let q := s.seqr k
    let coded (n : Nat) : Word := BitVec.ofNat 64 (2 ^ 63 + n)
    let outsider : Prop := q.flightOf s.hart.num = none ∨ ¬Bound s q
    let runs : Prop := q.state ≠ .closed ∧ q.state ≠ .done
    let sel := bitsOf (s0.x a) 8 4
    let ix := bitsOf (s0.x a) 16 9
    let phase := bitsOf (s0.x a) 8 2
    let expected : SeqState := match phase with | 0 => .open_ | 1 => .relax | 2 => .coarse | _ => .test
    let drained : State := { s with hart := { s.hart with comb := s.hart.comb.map (fun e : CombEntry => { e with closed := true, draining := true }) } }
    let busy : Prop := ∃ j : BitVec 3, drained.hart.waitsOn j (if q.device = true then 5 else 4) = true
    let arrived : Sequencer := { q with arrivals := q.arrivals ++ [⟨s.hart.num, s.now, s0.x b⟩] }
    let waits : State := { (drained.setSeq k arrived) with
      hart := { drained.hart with run := .barrier k (BitVec.ofNat 2 phase) d m none false, idleSince := s.now } }
    let result (q : Sequencer) (rel : Bool) : Word :=
      BitVec.ofNat 64 (q.stat.code + (if q.permit = true then 2 ^ 8 else 0) + (if rel = true then 2 ^ 9 else 0))
    let good (c : CycleStat) : Prop := c = .converged ∨ c = .inexact
    let closes (q : Sequencer) (q' : Sequencer) : Prop :=
      q' = { q with state := .closed, lastB := q'.lastB, lastF := q'.lastF, permit := q'.permit }
      ∧ q'.lastB = (if q.dir = true then q.stat else q.lastB) ∧ q'.lastF = (if q.dir = true then q.lastF else q.stat)
      ∧ (q'.permit = true ↔ q'.lastF = .converged ∧ q'.lastB = .converged ∨ q.lax = true ∧ good q'.lastF ∧ good q'.lastB)
    let ends (q' : Sequencer) (v : State) : Prop :=
      (q'.permit = true ∧ (s0.x a).getLsbD 8 = true → Answers (.cyclose d a m) s0
        { (v.setSeq k Sequencer.reset) with locks := v.locks.filter (fun l => l.stair != some k) } d (result q' true) m)
      ∧ (¬(q'.permit = true ∧ (s0.x a).getLsbD 8 = true) → Answers (.cyclose d a m) s0 v d (result q' false) m)
    (Bound s q → run (.cytest d a m) (BitVec.ofNat 64 (q.verdict.toNat + q.count.toNat * 2 ^ 8)))
    ∧ (¬Bound s q → run (.cytest d a m) (coded 5) ∧ run (.cyack d a m) (coded 5)
        ∧ run (.cyclose d a m) (coded 5))
    ∧ (sel = 0 → run (.cystat d a m) q.word) ∧ (6 < sel → run (.cystat d a m) 0)
    ∧ (1 ≤ sel → sel ≤ 6 → ¬Bound s q → run (.cystat d a m) (coded 5))
    ∧ (Bound s q → (sel = 1 → run (.cystat d a m) q.res) ∧ (sel = 2 → run (.cystat d a m) q.prev)
        ∧ (sel = 3 → run (.cystat d a m) (((q.partials.find? (fun p => p.1 == ix)).map (·.2)).getD 0))
        ∧ (sel = 4 → run (.cystat d a m) ((q.landings[ix]?).getD 0))
        ∧ (sel = 5 → run (.cystat d a m) ((q.flights[ix]?).getD 0)) ∧ (sel = 6 → run (.cystat d a m) q.release))
    ∧ (Bound s q → (q.state ≠ .closed → run (.cyack d a m) (coded 6))
        ∧ (q.state = .closed → Answers (.cyack d a m) s0 { (s.setSeq k { q with ack := true, permit := true }) with
            locks := s.locks.filter (fun l => l.stair != some k) } d 0 m))
    ∧ (outsider → run (.cyres d a b m) (coded 1) ∧ run (.cyphase d a b m) (coded 1))
    ∧ (¬outsider → ¬runs → run (.cyres d a b m) (coded 3) ∧ run (.cyphase d a b m) (coded 3))
    ∧ (¬outsider → runs → q.state ≠ .test → run (.cyres d a b m) (coded 2))
    ∧ (∀ f, ¬outsider → q.state = .test → q.flightOf s.hart.num = some f →
        ((∃ v, (f, v) ∈ q.partials) → run (.cyres d a b m) (coded 4))
        ∧ ((¬∃ v, (f, v) ∈ q.partials) → Answers (.cyres d a b m) s0 (s.setSeq k { q with partials := q.partials ++ [(f,
            if q.norm = false then s.x b else if (s.x b).toNat % 2 ^ 63 > 0x7FF0000000000000 then 0x7FF8000000000000#64
            else BitVec.ofNat 64 ((s.x b).toNat % 2 ^ 63))] }) d 0 m))
    ∧ (¬outsider → runs → q.state ≠ expected → run (.cyphase d a b m) (coded 2))
    ∧ (¬outsider → runs → q.state = expected → busy →
        exec (.cyphase d a b m) s0 = .next { drained with hart := { drained.hart with run := .blocked } })
    ∧ (¬outsider → runs → q.state = expected → ¬busy → arrived.arrivals.length ≠ q.members ∨ q.state = .test →
        exec (.cyphase d a b m) s0 = .next waits)
    ∧ (¬outsider → runs → q.state = expected → ¬busy → arrived.arrivals.length = q.members → q.state ≠ .test →
        let t := BitVec.ofNat 64 (releaseAt q s.now.toNat (arrived.arrivals.map (fun r : Arrival => r.want.toNat)) 0)
        ∃ v, Moves k { q with arrivals := [], release := t, state := nextPhase q.state, partials := if q.state = .coarse then [] else q.partials } waits v
          ∧ exec (.cyphase d a b m) s0 = .next { v with hart := released k t false v.hart, others := v.others.map (released k t false) })
    ∧ (Bound s q → (q.state = .closed → ends q s)
        ∧ (q.state = .done → ∃ q' v, closes q q'
            ∧ Moves k q' { s with locks := if q'.permit = true then s.locks.filter (fun l => l.stair != some k) else s.locks } v ∧ ends q' v)
        ∧ (runs → ∃ q' v, closes { q with stat := .aborted, verdict := 4, arrivals := [] } q'
            ∧ Moves k q' { s with
                hart := sentBack k (coded 3) s.hart
                others := s.others.map (sentBack k (coded 3))
                locks := if q'.permit = true then s.locks.filter (fun l => l.stair != some k) else s.locks } v ∧ ends q' v))
    ∧ ((s0.x a).toNat % 256 ≠ 0 → exec (.cyopen d a b m) s0 = .next (trap 0x03 (s0.x a) s0))
    ∧ ((s0.x a).toNat % 256 = 0 → (∀ u, blockRange (s0.x a) 32 s0 = .wait u → exec (.cyopen d a b m) s0 = .next u)
      ∧ (∀ c v u, blockRange (s0.x a) 32 s0 = .fault c v u → exec (.cyopen d a b m) s0 = .next (trap c v u))
      ∧ (∀ bytes u0, blockRange (s0.x a) 32 s0 = .got bytes u0 →
        let j : BitVec 4 := BitVec.ofNat 4 (s0.x b).toNat
        let u := u0.onTime j
        let p := u.seqr j
        let e := stairDesc bytes
        let n := e.ctrl.toNat % 512
        let other : Prop := p.bound = true ∧ u.hart.region ≠ some p.region
        (other → Answers (.cyopen d a b m) s0 u d 1 m)
        ∧ (¬other → p.state ≠ .closed → Answers (.cyopen d a b m) s0 u d 2 m)
        ∧ (¬other → p.state = .closed → e.bad = true → Answers (.cyopen d a b m) s0 u d 3 m)
        ∧ (¬other → p.state = .closed → e.bad = false →
          (∀ c v w, blockRange e.flt n u = .fault c v w → exec (.cyopen d a b m) s0 = .next (trap c v (s0.undoReads w)))
          ∧ (∀ w, blockRange e.flt n u = .wait w → exec (.cyopen d a b m) s0 = .next (s0.waitAs w))
          ∧ ∀ b1 u1, blockRange e.flt n u = .got b1 u1 →
            (∀ c v w, blockRange e.lnd (n + 1) u1 = .fault c v w → exec (.cyopen d a b m) s0 = .next (trap c v (s0.undoReads w)))
            ∧ (∀ w, blockRange e.lnd (n + 1) u1 = .wait w → exec (.cyopen d a b m) s0 = .next (s0.waitAs w))
            ∧ ∀ b2 u2, blockRange e.lnd (n + 1) u1 = .got b2 u2 →
            let fl := (List.range n).map (dwordAt b1)
            let room := u2.tablesRoom (u2.newRanges j e.ranges).length
            (openTableCode j fl u2 ≠ 0 → Answers (.cyopen d a b m) s0 u2 d (BitVec.ofNat 64 (openTableCode j fl u2)) m)
            ∧ (openTableCode j fl u2 = 0 → room = false →
                exec (.cyopen d a b m) s0 = .next { s0 with hart := { s0.hart with run := .blocked } })
            ∧ (∀ r, openTableCode j fl u2 = 0 → u2.hart.region = some r → room = true →
              ∃ p' v ls, Moves j p' { u2 with locks := u2.locks ++ ls } v ∧ Answers (.cyopen d a b m) s0 v d 0 m
                ∧ (∀ l ∈ ls, l.kind = .weight ∧ l.stair = some j ∧ l.region = some r ∧ l.table < 36)
                ∧ ((∀ l ∈ u2.locks, l.stair ≠ some j) → ∀ t < 36, ∀ w ∈ e.ranges, ∃ l ∈ ls, l.table = t
                    ∧ l.lo = w.1.toNat / 64 * 64 ∧ l.hi = (w.1.toNat + w.2.toNat + 63) / 64 * 64)
                ∧ (∀ w ∈ e.ranges, ∃ l ∈ u2.locks ++ ls, l.stair = some j ∧ l.lo = w.1.toNat / 64 * 64
                    ∧ l.hi = (w.1.toNat + w.2.toNat + 63) / 64 * 64)
                ∧ p'.state = .open_ ∧ p'.stat = .none ∧ p'.bound = true ∧ p'.region = r ∧ p'.count = 0 ∧ p'.partials = [] ∧ p'.arrivals = []
                ∧ p'.res = 0 ∧ p'.prev = 0 ∧ p'.miss = false
                ∧ p'.dir = e.ctrl.getLsbD 12 ∧ p'.norm = e.ctrl.getLsbD 13 ∧ p'.lax = e.ctrl.getLsbD 14 ∧ p'.permit = false ∧ p'.ack = false
                ∧ p'.limit.toNat = e.ctrl.toNat / 2 ^ 16 % 256 ∧ p'.nflight.toNat = n ∧ p'.tol = e.tol ∧ p'.divf = e.divf
                ∧ p'.timeout.toNat = e.timeout.toNat % 2 ^ 32 ∧ p'.ldelay.toNat = e.ldelay.toNat % 2 ^ 32
                ∧ p'.flights = fl ∧ p'.landings = (List.range (n + 1)).map (dwordAt b2) ∧ p'.ranges = e.ranges
                ∧ p'.verdict = 5
                ∧ ((u2.seqr j).bound = true → p'.lastF = (u2.seqr j).lastF ∧ p'.lastB = (u2.seqr j).lastB)
                ∧ ((u2.seqr j).bound = false → p'.lastF = .none ∧ p'.lastB = .none)))))

/-- R296, R298, R302 to R305: what the sequencers do on their own. -/
def Obligations.CycleEvents : Prop :=
  ∀ (s : State) (k : BitVec 4),
    let q := s.seqr k
    let due : Prop := q.state = .test ∧ q.arrivals.length = q.members ∧ q.bound = true
    let limit := if q.timeout = 0 then 1000000 else q.timeout.toNat
    let late : Prop := ∃ a rest, q.arrivals = a :: rest ∧ q.state ≠ .closed ∧ q.state ≠ .done ∧ q.arrivals.length < q.members
      ∧ a.time.toNat + limit ≤ s.now.toNat
    (¬due → exec (.cycleDecision k) s = .next s)
    ∧ (due → ∃ (q' : Sequencer) (v : State), Moves k q' s v
      ∧ exec (.cycleDecision k) s = .next { v with
          hart := released k q'.release (q'.verdict != 0) v.hart
          others := v.others.map (released k q'.release (q'.verdict != 0)) }
      ∧ q'.release.toNat = releaseAt q ((q.arrivals.map (·.time.toNat)).foldl max 0) (q.arrivals.map (·.want.toNat)) s.now.toNat % 2 ^ 64
      ∧ q' = { q with
          state := q'.state
          stat := q'.stat
          verdict := q'.verdict
          count := q'.count
          res := q'.res
          prev := q'.prev
          miss := q'.miss
          arrivals := q'.arrivals
          release := q'.release
          partials := if q'.verdict = 0 then [] else q.partials }
      ∧ q'.prev = q.res ∧ q'.count = q.count + 1 ∧ q'.arrivals = [] ∧ q'.res = (combine64 q).1 ∧ q'.miss = (combine64 q).2
      ∧ (let res := fpDecode .fp64 q'.res.toNat
         let above : Bool := q.divf != 0 && decide (2 ≤ q'.count.toNat)
           && fvLt (fpDecode .fp64 (fpMulV .fp64 .rne (fpDecode .fp64 q.divf.toNat) (fpDecode .fp64 q.res.toNat)).bits) res
         if res = .nan then q'.verdict = 3 ∧ q'.stat = .diverged ∧ q'.state = .done
         else if fvLe res (fpDecode .fp64 q.tol.toNat) = true then q'.verdict = 1 ∧ q'.stat = .converged ∧ q'.state = .done
         else if above = true then q'.verdict = 3 ∧ q'.stat = .diverged ∧ q'.state = .done
         else if q'.count = q.limit then q'.verdict = 2 ∧ q'.stat = .inexact ∧ q'.state = .done
         else q'.verdict = 0 ∧ q'.stat = q.stat ∧ q'.state = .open_))
    ∧ ((combine64 q).2 = true ↔ ∃ f < q.nflight.toNat, ∀ v, (f, v) ∉ q.partials)
    ∧ (let part (f : Nat) : FVal := ((q.partials.find? (fun p : Nat × Word => p.1 == f)).map (fun p : Nat × Word => fpDecode .fp64 p.2.toNat)).getD .nan
       let greatest (r v : FVal) : FVal :=
        match r, v with
        | .nan, _ => .nan
        | _, .nan => .nan
        | r, .inf _ => if fvLt r (.inf false) = true then .inf false else r
        | r, .fin _ n e => if fvLt r (.fin false n e) = true then .fin false n e else r
       let sum (r v : FVal) : FVal := fpDecode .fp64 (fpAddV .fp64 .rne r v).bits
       (combine64 q).1 = BitVec.ofNat 64 (fpConvert .fp64 .rne ((List.range q.nflight.toNat).foldl (fun r f =>
         if q.norm = true then greatest r (part f) else sum r (part f)) (.fin false 0 0))).bits)
    ∧ (let goes (h h' : Hart) : Prop :=
        (∀ p d m t e, h.run = .barrier k p d m (some t) e → t.toNat ≤ s.now.toNat →
          let v := { s with hart := h }
          let v' := { s with hart := h' }
          WritesX v v' d t ∧ Ends v v' (h.pc + 4) m ∧ (∀ j : BitVec 3, h'.acq[j.toNat] = s.now) ∧ h' = { mayX h h' with acq := h'.acq })
        ∧ ((∀ p d m t e, h.run = .barrier k p d m (some t) e → s.now.toNat < t.toNat) → h' = h)
       ∃ u, exec (.barrierRelease k) s = .next u ∧ u = { s with hart := u.hart, others := u.others } ∧ goes s.hart u.hart
        ∧ u.others.length = s.others.length ∧ ∀ (i : Nat) (h h' : Hart), s.others[i]? = some h → u.others[i]? = some h' → goes h h')
    ∧ (¬late → exec (.phaseTimeout k) s = .next s)
    ∧ (late → ∃ v, Moves k { q with stat := .aborted, verdict := 4, arrivals := [], state := .done } s v
        ∧ exec (.phaseTimeout k) s = .next ((q.arrivals.map (·.hart)).foldl (fun st n =>
            if (st.getHart n).waitsAt k false = true then
              st.withHart n (fun u => trap 0x0F (BitVec.ofNat 64 (k.toNat + q.state.phase * 2 ^ 8)) u) else st) v))
    ∧ (∀ h : Hart, h.waitsAt k false = true ↔ ∃ p d m e, h.run = .barrier k p d m none e)
    ∧ (let passed : Prop := ∃ a rest, q.arrivals = a :: rest ∧ q.state ≠ .closed ∧ q.state ≠ .done ∧ q.arrivals.length < q.members
         ∧ a.time.toNat + limit ≤ s.now.toNat - 1
       (¬passed → s.onTime k = s) ∧ (passed → exec (.phaseTimeout k) s = .next (s.onTime k)))

/-- R188, R320 to R327, R340 to R345: the copy instructions in every state. That RESUME and ABANDON drop the slot's pending interrupt 0x12
is the model's (log 37), as are code 7 of a hart without a node (log 41) and a cpwait with code 7 that acquires nothing (log 80). -/
def Obligations.CopyInstructions : Prop :=
  ∀ (s : State) (d a b : BitVec 5) (m : Bool),
    let w0 := s.x a
    let w1 := s.x (a + 1)
    let w2 := s.x (a + 2)
    let w3 := s.x (a + 3)
    let sn : BitVec 3 := BitVec.ofNat 3 w3.toNat
    let tr := w2.getLsbD 59
    let pat := s.cgPat[w2.toNat / 2 ^ 60 % 16]'(by omega)
    let esz : BitVec 2 := BitVec.ofNat 2 (pat.toNat / 2)
    let coded (n : Nat) : Word := BitVec.ofNat 64 (2 ^ 63 + n)
    let room (s : State) (slots : Bool) : Prop := waitingCopies s.hart < 16
      ∧ (s.locks.filter (fun l => l.table == hartTable s.hart.num)).length + 2 ≤ 256
      ∧ (slots = true → ∃ j < 256, (assocGet s.hart.copies j CopySlot.reset).taken = false)
    let busy (s1 : State) : Prop := ¬room s1 true
    let word (c : CopySlot) (stale : Bool) : Word := if stale = true then 0xFFFFFFFFFF else
      BitVec.ofNat 64 (c.wp.toNat + c.st.code * 2 ^ 40 + c.ecode.toNat * 2 ^ 48 + if c.nonReplay = true then 2 ^ 56 else 0)
    let queues (i : Instr) (s1 : State) (sf df : BitVec 4) : Prop :=
      let code := if w2.toNat % 2 ^ 16 = 0 ∨ w2.toNat / 2 ^ 16 % 2 ^ 16 = 0 ∨ w3.toNat / 8 % 2 ^ 13 ≠ 0 ∨ tr = false ∧ w2.toNat / 2 ^ 60 ≠ 0 then 2
        else if copyMisaligned w0 w1 w2 sf df pat = true then 3
        else if tr = true ∧ (gaNode w0 ≠ s.nodeId ∨ gaCore w0 ≠ hbmCore ∨ df ≠ 0 ∨ pat.getLsbD 0 = false) then 4
        else if w3.getLsbD 32 = true then 5 else 0
      let src := (copySpans w0 w1 w2 sf df esz).1
      let dst := (copySpans w0 w1 w2 sf df esz).2
      (code ≠ 0 → Answers i s s1 d (coded code) m)
      ∧ (code = 0 → OnWeights s1 [(dst.1, dst.2, .copyDest)] → exec i s = .next (trap 0x0A w1 s1))
      ∧ (code = 0 → ¬OnWeights s1 [(dst.1, dst.2, .copyDest)] → room s1 true → ∃ t slot c, exec i s = .next t
        ∧ (assocGet s1.hart.copies slot.toNat CopySlot.reset).taken = false
        ∧ (∀ j < slot.toNat, (assocGet s1.hart.copies j CopySlot.reset).taken = true)
        ∧ t.hart.copies = assocSet s1.hart.copies slot.toNat c ∧ c.gen = (s1.hart.slot slot).gen + 1 ∧ c.st = .queued ∧ c.taken = true
        ∧ c.w0 = w0 ∧ c.w1 = w1 ∧ c.w2 = w2 ∧ c.w3 = w3 ∧ c.step = s.hart.srStep ∧ c.wp = 0 ∧ c.ecode = 0 ∧ c.begun = false
        ∧ c.op = s1.hart.nextOp ∧ c.seq = (s1.hart.spin sn).issue + 1
        ∧ (c.nonReplay = true ↔ src.1 / 64 * 64 < (dst.2 + 63) / 64 * 64 ∧ dst.1 / 64 * 64 < (src.2 + 63) / 64 * 64)
        ∧ c.handler = (if w3.toNat / 2 ^ 32 = 0 then 0 else BitVec.ofNat 64 (s.hart.pc.toNat / 2 ^ 32 * 2 ^ 32 + w3.toNat / 2 ^ 32))
        ∧ Issued s1 t sn (.copy slot) ∧ Drains s1 t (fun e => e.strand == sn) ∧ t.locks = s1.locks ++ copyLocks s1 sn w0 w1 w2 sf df esz
        ∧ WritesX s1 t d (BitVec.ofNat 64 (w3.toNat / 2 ^ 16 % 2 ^ 16 + slot.toNat * 2 ^ 16 + s.hart.num * 2 ^ 24 + s.nodeId.toNat * 2 ^ 35
            + c.gen.toNat * 2 ^ 40))
        ∧ Ends s1 t (s1.hart.pc + 4) m ∧ t = { s1 with hart := mayCopy s1.hart t.hart, locks := t.locks } ∧ SameBytes s1 t)
      ∧ (code = 0 → ¬OnWeights s1 [(dst.1, dst.2, .copyDest)] → busy s1 →
          (i = .cpq d a m → exec i s = .next { s with hart := { s.hart with run := .blocked } }) ∧ (i = .cpqNb d a m → RunsX i s d (coded 1) 4 m))
    (∀ sw dw s1 s2, bankWord w0 s = (sw, s1) → bankWord w1 s1 = (dw, s2) →
      queues (.cpq d a m) s2 (fmtCode sw) (fmtCode dw) ∧ queues (.cpqNb d a m) s2 (fmtCode sw) (fmtCode dw))
    ∧ (s.findCopy w0 = none → RunsX (.cpwp d a m) s d (coded 7) 4 m ∧ RunsX (.cpwait d a b m) s d (coded 7) 4 m
        ∧ RunsX (.cpst d a b m) s d (coded 7) 4 m ∧ RunsX (.cpstResume d a b m) s d (coded 7) 4 m
        ∧ RunsX (.cpstAbandon d a b m) s d (coded 7) 4 m)
    ∧ (∀ n slot c stale, s.findCopy w0 = some (n, slot, c, stale) →
      let ended : Prop := stale = true ∨ c.st = .done ∨ c.st = .stopped ∨ (s.x b).toNat ≤ c.wp.toNat
      let sel := (s.x b).toNat % 256
      let picked : Word := match sel with
        | 0 => word c stale
        | 1 => if stale = true then 0 else c.w0
        | 2 => if stale = true then 0 else c.w1
        | 3 => if stale = true then 0 else c.w2
        | 4 => if stale = true then 0 else c.w3
        | 5 => if stale = true ∨ c.st ≠ .stopped then 0 else c.kept
        | 6 => if stale = true then 0 else BitVec.ofNat 64 (waitingCopies (s.getHart n)
            + ((s.getHart n).copies.filter (fun p => p.2.taken)).length * 2 ^ 8)
        | 7 => if stale = true then 0 else BitVec.ofNat 64 c.seq.toNat
        | _ => 0
      let mine : Prop := stale = false ∧ n = s.hart.num ∧ c.st = .stopped ∧ c.taken = true
      RunsX (.cpwp d a m) s d (word c stale) 4 m
      ∧ (ended → ∃ t, exec (.cpwait d a b m) s = .next t ∧ WritesX s t d (word c stale) ∧ Ends s t (s.hart.pc + 4) m
          ∧ (∀ j : BitVec 3, t.hart.acq[j.toNat] = s.now) ∧ Only (fun old new => { mayX old new with acq := new.acq }) s t)
      ∧ (¬ended → exec (.cpwait d a b m) s = .next { s with hart := { s.hart with run := .blocked } })
      ∧ ∀ i, i = .cpst d a b m ∨ i = .cpstResume d a b m ∨ i = .cpstAbandon d a b m →
        (sel ≠ 8 → sel ≠ 9 → RunsX i s d picked 4 m)
        ∧ (sel = 8 ∨ sel = 9 → ¬mine → RunsX i s d (coded 8) 4 m)
        ∧ (sel = 8 → mine → c.nonReplay = true → RunsX i s d (coded 9) 4 m)
        ∧ (sel = 9 → mine → ∃ t, exec i s = .next t ∧ WritesX s t d 0 ∧ Ends s t (s.hart.pc + 4) m
            ∧ t.hart.slot slot = { s.hart.slot slot with st := .done, taken := false } ∧ (∀ j, j ≠ slot → t.hart.slot j = s.hart.slot j)
            ∧ t.hart.irqs = s.hart.irqs.filter (fun q => !(q.cause == 0x12 && q.slot == slot))
            ∧ Only (fun old new => { mayX old new with copies := new.copies, irqs := new.irqs }) s t)
        ∧ (sel = 8 → mine → c.nonReplay = false → ¬room s false → exec i s = .next { s with hart := { s.hart with run := .blocked } })
        ∧ (∀ sw dw s1 s2, bankWord c.w0 s = (sw, s1) → bankWord c.w1 s1 = (dw, s2) →
          let sn : BitVec 3 := BitVec.ofNat 3 c.w3.toNat
          let goes (u : State) (sf df : BitVec 4) (esz : BitVec 2) : Prop := ∃ t, exec i s = .next t
            ∧ WritesX u t d 0 ∧ Ends u t (u.hart.pc + 4) m ∧ Issued u t sn (.copy slot) ∧ Drains u t (fun e => e.strand == sn)
            ∧ t.hart.slot slot = { c with st := .queued, op := u.hart.nextOp, seq := (u.hart.spin sn).issue + 1 }
            ∧ t.hart.irqs = u.hart.irqs.filter (fun q => !(q.cause == 0x12 && q.slot == slot))
            ∧ t.locks = u.locks ++ copyLocks u sn c.w0 c.w1 c.w2 sf df esz
            ∧ t = { u with hart := { mayCopy u.hart t.hart with irqs := t.hart.irqs }, locks := t.locks } ∧ SameBytes u t
          (sel = 8 → mine → c.nonReplay = false → room s false → c.begun = true → goes s c.sfmt c.dfmt c.esz)
          ∧ (sel = 8 → mine → c.nonReplay = false → room s false → c.begun = false → goes s2 (fmtCode sw) (fmtCode dw)
              (BitVec.ofNat 2 ((s.cgPat[c.w2.toNat / 2 ^ 60 % 16]'(by omega)).toNat / 2)))))

/-- R319 to R334, R338, R339: what the copy channels do. -/
def Obligations.CopyEvents : Prop :=
  ∀ (s : State) (g : Nat) (slot : BitVec 8),
    let total (c : CopySlot) : Nat := c.w2.toNat % 2 ^ 16 * (c.w2.toNat / 2 ^ 16 % 2 ^ 16)
    (s.nextCopy g = none → exec (.copyBegin g) s = .next s)
    ∧ (∀ ch, s.nextCopy g = some (ch, s.hart.num, slot) →
      let c := s.hart.slot slot
      let u := { s with channels := assocSet s.channels (g * 16 + ch) s.hart.num }
      let ef := (s.hart.spin (BitVec.ofNat 3 c.w3.toNat)).status.getLsbD 3
      (ef = true → ∃ t, exec (.copyBegin g) s = .next t ∧ CopyStops u t slot c 6 0 0 ∧ SameBytes s t
        ∧ t = { u with hart := mayEndCopy s.hart t.hart, locks := t.locks, far := t.far })
      ∧ (∀ sw dw u1 u2, ef = false → bankWord c.w0 u = (sw, u1) → bankWord c.w1 u1 = (dw, u2) →
        let first := { c with
          st := .running
          chan := ch
          begun := true
          sfmt := fmtCode sw
          dfmt := fmtCode dw
          rnd := fmtRnd dw
          esz := BitVec.ofNat 2 ((s.cgPat[c.w2.toNat / 2 ^ 60 % 16]'(by omega)).toNat / 2) }
        let c1 := if c.begun = true then { c with st := .running, chan := ch } else first
        let w := if c.begun = true then u else u2
        let placed : State := { w with hart := { w.hart with copies := assocSet w.hart.copies slot.toNat c1 } }
        (∀ a, capacityBreach c1 = some a →
          ∃ t, exec (.copyBegin g) s = .next t ∧ CopyStops (undefineRest c1 placed) t slot c1 4 2 a ∧ SameBytes (undefineRest c1 placed) t)
        ∧ (capacityBreach c1 = none →
            exec (.copyBegin g) s = .next (if c.nonReplay = true then placed else undefineRest c1 placed))))
    ∧ (∀ c a, capacityBreach c = some a →
        let at_ : Int := ((c.wp.toNat / (c.w2.toNat / 2 ^ 16 % 2 ^ 16) : Nat) : Int) * cpStride c.w2 + ((c.wp.toNat % (c.w2.toNat / 2 ^ 16 % 2 ^ 16) : Nat) : Int)
        c.sfmt ≠ 0 ∧ a = c.w0 + BitVec.ofInt 64 at_ ∨ c.dfmt ≠ 0 ∧ a = c.w1 + BitVec.ofNat 64 c.wp.toNat)
    ∧ (∀ c, gaNode c.w1 ≠ s.nodeId → undefineRest c s = s)
    ∧ (∀ c k, Inv s → s.intervals = [] → c.w2.getLsbD 59 = false → c.sfmt = 0 → c.dfmt = 0 → gaNode c.w1 = s.nodeId → gaCore c.w1 < 1024 →
        gaOff c.w1 + total c ≤ 2 ^ 18 → (k < c.w1.toNat + c.wp.toNat ∨ c.w1.toNat + total c ≤ k) →
        Cells.get (undefineRest c s).mem k = Cells.get s.mem k)
    ∧ (∀ c, s.hart.slot slot = c → (c.taken = true ∧ c.st = .running ∧ c.lost = false) →
      (∀ n s1, moveUnits (copyAgent c s) c s = .moved n s1 → s1.hart.copies = s.hart.copies → s1.hart.num = s.hart.num →
        let left := s1.far.filter (fun f => !(f.hart == s.hart.num && f.use == .op c.op))
        (c.wp.toNat + n < total c → c.wp.toNat + n < 2 ^ 40 → ∃ t, exec (.copyUnitDelivered slot) s = .next t
          ∧ t.hart.slot slot = { c with wp := BitVec.ofNat 40 (c.wp.toNat + n) } ∧ SameBytes s1 t
          ∧ t = { s1 with hart := { s1.hart with copies := t.hart.copies }, far := left })
        ∧ (total c ≤ c.wp.toNat + n → ∃ t, exec (.copyUnitDelivered slot) s = .next t ∧ SameBytes s1 t
          ∧ t.hart.slot slot = { c with wp := BitVec.ofNat 40 (total c), st := .done, taken := c.handler != 0 }
          ∧ t.hart.ops = s1.hart.ops.filter (fun o => o.id != c.op)
          ∧ t.locks = s1.locks.filter (fun l => !(l.hart == some s1.hart.num && l.op == c.op))
          ∧ (c.handler ≠ 0 → ∃ q ∈ t.hart.irqs, q.cause = 0x12 ∧ q.slot = slot)
          ∧ t = { s1 with hart := mayEndCopy s1.hart t.hart, locks := t.locks, far := left }))
      ∧ (∀ ec bits kept s1, moveUnits (copyAgent c s) c s = .fail ec bits kept s1 → ec ≠ 6 →
          let w := if c.nonReplay = true then undefineRest c s1 else s1
          ∃ t, exec (.copyUnitDelivered slot) s = .next t ∧ CopyStops w t slot c ec bits kept ∧ SameBytes w t
            ∧ exec (.copyErrorStop slot ec) s = .next t ∧ ∀ other, other ≠ ec → exec (.copyErrorStop slot other) s = .next s)
      ∧ (∀ s1, moveUnits (copyAgent c s) c s = .wait s1 →
          (s1.poison = s.poison → ∃ t, exec (.copyUnitDelivered slot) s = .next t ∧ t.sendq = s1.sendq ∧ t.asks = s1.asks
              ∧ t.far = s1.far.map (fun f => { f with met := false })
              ∧ t = { s with
                  sendq := t.sendq
                  asks := t.asks
                  msgMoved := t.msgMoved
                  far := t.far
                  nextRead := t.nextRead
                  reads := t.reads })
          ∧ (s1.poison ≠ s.poison → ∃ t, exec (.copyUnitDelivered slot) s = .next t ∧ t.hart.slot slot = { c with lost := true }
              ∧ t.hart.ops = s.hart.ops ∧ t.locks = s.locks))
      ∧ ((∀ ec bits kept s1, moveUnits (copyAgent c s) c s ≠ .fail ec bits kept s1) → ∀ ec, exec (.copyErrorStop slot ec) s = .next s))
    ∧ (¬((s.hart.slot slot).taken = true ∧ (s.hart.slot slot).st = .running ∧ (s.hart.slot slot).lost = false) →
        exec (.copyUnitDelivered slot) s = .next s ∧ ∀ ec, exec (.copyErrorStop slot ec) s = .next s)
    ∧ (∀ c (ag : Agent), c.w2.getLsbD 59 = false → sideFmt c.sfmt c.dfmt = sideFmt c.dfmt c.sfmt → isBlockCode (sideFmt c.sfmt c.dfmt) = false →
      let f := sideFmt c.sfmt c.dfmt
      let len : Nat := c.w2.toNat / 2 ^ 16 % 2 ^ 16
      let row : Nat := c.wp.toNat / len
      let col : Nat := c.wp.toNat % len
      let src := unitAddr c.w0 c.sfmt f ((row : Int) * cpStride c.w2 + (col : Int))
      let dst := unitAddr c.w1 c.dfmt f c.wp.toNat
      let kept (k : Word) : Word := if c.dfmt = 0 then k else c.w1 + BitVec.ofNat 64 (c.wp.toNat + (k - dst).toNat / unitBytes f)
      ∃ n : Nat, 1 ≤ n ∧ (col < len → n ≤ len - col) ∧ (∀ bytes s1, deviceGet ag src (n * unitBytes f) s = (.bytes bytes, s1) →
          (∀ s2, devicePut ag dst bytes s1 = (.done, s2) → moveUnits ag c s = .moved n s2)
          ∧ (∀ s2, devicePut ag dst bytes s1 = (.wait, s2) → moveUnits ag c s = .wait s2)
          ∧ (∀ k s2, devicePut ag dst bytes s1 = (.suspended k, s2) → moveUnits ag c s = .fail 4 4 (kept k) s2)
          ∧ (∀ x y k s2, devicePut ag dst bytes s1 = (.fault x y k, s2) → moveUnits ag c s = .fail (refusal x y).1 (refusal x y).2 (kept k) s2))
        ∧ (∀ s1, deviceGet ag src (n * unitBytes f) s = (.wait, s1) → moveUnits ag c s = .wait s1)
        ∧ (∀ x y s1, deviceGet ag src (n * unitBytes f) s = (.fault x y, s1) → moveUnits ag c s = .fail (refusal x y).1 (refusal x y).2
            (if c.sfmt = 0 then src else c.w0 + BitVec.ofInt 64 ((row : Int) * cpStride c.w2 + (col : Int))) s1))
    ∧ (∀ (f h : BitVec 4) (rnd : BitVec 3) (step : Word) (bytes : List Byte) (n : Nat) (p q : Fp), fpOfCode f = some p → fpOfCode h = some q →
      isBlockCode f = false → isBlockCode h = false → rnd ≠ 4 → convertUnits f h rnd step bytes 0 n
        = (groupBytes (codeSize f) n bytes).flatMap (fun e => leBytes (fpConvert q (rmConv rnd 0) (fpDecode p e)).bits (codeSize h)))

/-- R356 to R365: the message instructions in every state. -/
def Obligations.MessageInstructions : Prop :=
  ∀ (s : State) (d a b : BitVec 5) (sn : BitVec 3) (m : Bool),
    let coded (n : Nat) : Word := BitVec.ofNat 64 (2 ^ 63 + n)
    let xa := (s.x a).toNat
    let xb := (s.x b).toNat
    let o0 := s.oxr 0
    let own (v : Word) : Prop := v.toNat / 2 ^ 60 = s.nodeId.toNat
    let full : Prop := xb ≠ 0 ∧ 256 < (s.locks.filter (fun l => l.table == hartTable s.hart.num)).length + 1
    let scode : Nat := if 4096 < xb then 2 else if xb ≠ 0 ∧ xa % 8 ≠ 0 then 3
      else if xb ≠ 0 ∧ ¬own (s.x a) ∨ 1091 < o0.toNat % 2 ^ 11 then 4 else 0
    let sends := (s.hart.ops.filter (fun o => match o.kind with | .msend _ _ _ => true | _ => false)).length
    let pcode : Nat := if 4096 < xb then 2 else if xa % 8 ≠ 0 then 3 else if ¬own (s.x a) then 4 else 0
    let blocked : State := { s with hart := { s.hart with run := .blocked } }
    (scode ≠ 0 → RunsX (.msend d a b sn m) s d (coded scode) 4 m)
    ∧ (scode = 0 → 16 ≤ sends ∨ full → exec (.msend d a b sn m) s = .next blocked)
    ∧ (scode = 0 → sends < 16 → ¬full → ∃ t, exec (.msend d a b sn m) s = .next t ∧ WritesX s t d 0 ∧ Ends s t (s.hart.pc + 4) m
      ∧ Issued s t sn (.msend (s.x a) xb o0) ∧ Drains s t (fun e => e.strand == sn) ∧ t.hart.msent = (if s.hart.back = none then s.hart.msent + 1 else s.hart.msent)
      ∧ t.locks = s.locks ++ lockEntries s sn [(xa, xa + xb, .copySource)]
      ∧ t = { s with hart := { mayIssue s.hart t.hart with x := t.hart.x, msent := t.hart.msent }, locks := t.locks } ∧ SameBytes s t)
    ∧ (pcode ≠ 0 → RunsX (.mpost d a b sn m) s d (coded pcode) 4 m)
    ∧ (pcode = 0 → (∀ i, (s.hart.post i).used = true) → RunsX (.mpost d a b sn m) s d (coded 1) 4 m)
    ∧ (pcode = 0 → (∃ i, (s.hart.post i).used = false) → full → exec (.mpost d a b sn m) s = .next blocked)
    ∧ (∀ i, pcode = 0 → (s.hart.post i).used = false → (∀ j : BitVec 5, j.toNat < i.toNat → (s.hart.post j).used = true) → ¬full →
      let arrivals := s.hart.ovfq.filter (fun q => !q.claimed && specMatches o0 q.srcHart q.srcNode q.tag)
      ∃ t, exec (.mpost d a b sn m) s = .next t
        ∧ WritesX s t d (BitVec.ofNat 64 (i.toNat + ((s.hart.post i).gen + 1).toNat * 2 ^ 8)) ∧ Ends s t (s.hart.pc + 4) m
        ∧ Issued s t sn (.mpost i) ∧ (∀ j, j ≠ i → t.hart.post j = s.hart.post j)
        ∧ (let p := t.hart.post i
           p.used = true ∧ p.held = none ∧ p.gen = (s.hart.post i).gen + 1 ∧ p.buf = s.x a ∧ p.cap = xb ∧ p.spec = o0 ∧ p.strand = sn ∧ p.done = false
           ∧ p.op = s.hart.nextOp ∧ (∀ j, (s.hart.post j).order < p.order)
           ∧ (arrivals = [] → p.matched = false ∧ p.queued = none ∧ t.hart.ovfq = s.hart.ovfq)
           ∧ (∀ q rest, arrivals = q :: rest → p.matched = true ∧ p.queued = some q.entry ∧ p.len = q.len ∧ p.srcHart = q.srcHart
               ∧ p.srcNode = q.srcNode ∧ p.tag = q.tag
               ∧ t.hart.ovfq = s.hart.ovfq.map (fun v => if v.entry = q.entry then { v with claimed := true } else v)))
        ∧ t.locks = s.locks ++ lockEntries s sn [(xa, xa + xb, .copyDest)]
        ∧ t = { s with hart := { mayIssue s.hart t.hart with x := t.hart.x, posts := t.hart.posts, ovfq := t.hart.ovfq }, locks := t.locks }
        ∧ SameBytes s t)
    ∧ (∀ spec (src : BitVec 11) (node : BitVec 4) (tag : BitVec 16), specMatches spec src node tag = true ↔ Takes spec src node tag)
    ∧ (xb % 4 = 0 → s.hart.findPost (s.x a) = none → RunsX (.mprobe d a b m) s d (coded 7) 4 m)
    ∧ (∀ i p, xb % 4 = 0 → s.hart.findPost (s.x a) = some (i, p) → ∃ t, exec (.mprobe d a b m) s = .next t
        ∧ WritesX s t d (if p.matched = true ∨ p.done = true then receiveStatus p else 0) ∧ Ends s t (s.hart.pc + 4) m
        ∧ t.hart.post i = { p with used := !p.done } ∧ (∀ j, j ≠ i → t.hart.post j = s.hart.post j)
        ∧ Only (fun old new => { mayX old new with posts := new.posts }) s t)
    ∧ (xb % 4 = 1 → s.hart.matchQueued (s.x a) = none → RunsX (.mprobe d a b m) s d 0 4 m)
    ∧ (∀ q, xb % 4 = 1 → s.hart.matchQueued (s.x a) = some q → RunsX (.mprobe d a b m) s d
        (BitVec.ofNat 64 (q.len + q.srcHart.toNat * 2 ^ 16 + q.srcNode.toNat * 2 ^ 27 + q.tag.toNat * 2 ^ 32)) 4 m)
    ∧ (xb % 4 = 2 → RunsX (.mprobe d a b m) s d
        (BitVec.ofNat 64 (s.hart.ovfq.length + (if s.hart.msPend = true then 2 ^ 8 else 0) + s.hart.msLost.toNat * 2 ^ 32)) 4 m)
    ∧ (xb % 4 = 3 → RunsX (.mprobe d a b m) s d 0 4 m)
    ∧ (∀ hd i p, s.hart.findPost hd = some (i, p) ↔ i = BitVec.ofNat 5 hd.toNat ∧ p = s.hart.post i ∧ p.used = true
        ∧ hd.toNat = i.toNat + p.gen.toNat * 2 ^ 8)
    ∧ (s.hart.findPost (s.x a) = none → RunsX (.mcancel d a m) s d (coded 7) 4 m)
    ∧ (∀ i p, s.hart.findPost (s.x a) = some (i, p) → (p.matched = true ∨ p.done = true → RunsX (.mcancel d a m) s d 1 4 m)
        ∧ (p.matched = false → p.done = false → ∃ t, exec (.mcancel d a m) s = .next t ∧ WritesX s t d 0 ∧ Ends s t (s.hart.pc + 4) m
          ∧ t.hart.post i = { p with used := false, done := true, cancelled := true } ∧ (∀ j, j ≠ i → t.hart.post j = s.hart.post j)
          ∧ t.hart.ops = s.hart.ops.filter (fun o => o.id != p.op) ∧ t.hart.acq[p.strand.toNat] = s.now
          ∧ t.locks = s.locks.filter (fun l => !(l.hart == some s.hart.num && l.op == p.op)) ∧ SameBytes s t))

/-- R350, R356 to R362: what messages do on their way. The lowest free entry of the overflow queue, the receive that holds a payload
until its strand allows it and the arrivals of another region that are not forwarded are the model's (log 39), the step of a message at
a probe's return too (log 71). -/
def Obligations.MessageEvents : Prop :=
  ∀ (s : State) (g : Message),
    let dst := g.dstHart.toNat
    let tag : BitVec 16 := msgTag g
    let isPast (f : Forward) : Prop := f.past = true ∨ f.until_.toNat ≤ s.now.toNat
    let region := s.carried g.srcNode g.region
    let free : Prop := g.mmode = true ∨ s.isHost g.srcNode = true
    let lent (n : Nat) : Prop := ∃ r, region = some r ∧ s.lentHart n r = true
    let allowed (n : Nat) : Prop := free ∨ ¬lent n ∧ region = some (s.ownerOf n)
    let answered (u : State) (ok : Bool) : Prop :=
      ∃ t, exec (.messageArrival g) s = .next t ∧ Sends u t (.messageReply g.srcNode g.srcHart ok)
    let goal := s.forwarded region s.forwards.length dst
    let last (n : Nat) := (s.forwards.filter (fun f => f.old == n && some f.region == region)).getLast?
    let reaches (n : Nat) : Prop := g.srcNode ≠ s.nodeId ∧ s.recovery = false ∧ goal = some n ∧ s.present n = true ∧ allowed n
      ∧ (s.getHart n).isStopped = false
    (∀ n, s.forwarded region 0 n = some n)
    ∧ (∀ k n, last n = none → s.forwarded region (k + 1) n = some n)
    ∧ (∀ k n f, last n = some f → (¬isPast f → s.forwarded region (k + 1) n = s.forwarded region k f.new)
        ∧ (isPast f → s.forwarded region (k + 1) n = if (s.getHart n).node = none then none else some n))
    ∧ (g.srcNode ≠ s.nodeId → s.recovery = true → exec (.messageArrival g) s = .next s)
    ∧ (g.srcNode ≠ s.nodeId → s.recovery = false → goal = none → answered s false)
    ∧ (∀ n, g.srcNode ≠ s.nodeId → s.recovery = false → goal = some n →
      (s.present n = false ∨ ¬free ∧ ¬lent n ∧ ¬allowed n → answered s false)
      ∧ (s.present n = true → ¬free → lent n → exec (.messageArrival g) s = .next s)
      ∧ (s.present n = true → allowed n → (s.getHart n).isStopped = true → exec (.messageArrival g) s = .next s))
    ∧ (∀ n i o, reaches n → (s.getHart n).matchPost g.srcHart g.srcNode tag = some i →
      let h := s.getHart n
      let p := h.post i
      h.op? p.op = some o →
      (h.ready o = false → ∃ u, answered u true ∧ SameBytes s u ∧ (u.getHart n).ops = h.ops
        ∧ (u.getHart n).post i = { p with
            matched := true
            srcHart := g.srcHart
            srcNode := g.srcNode
            tag := tag
            len := g.payload.length
            trunc := decide (p.cap < g.payload.length)
            held := some g.payload })
      ∧ (h.ready o = true → ∀ s1, devicePut ⟨n, o.region, o.level, p.strand, p.op⟩ p.buf (g.payload.take p.cap) s = (.done, s1) → s1.getHart n = h →
          ∃ u, answered u true ∧ Receives s1 u n i g.payload.length g.srcHart g.srcNode tag ∧ SameBytes s1 u)
      ∧ (h.ready o = true → ∀ c r k s1, devicePut ⟨n, o.region, o.level, p.strand, p.op⟩ p.buf (g.payload.take p.cap) s = (.fault c r k, s1) →
          s1.getHart n = h → ∃ u, answered u true ∧ SameBytes s1 u ∧ ((u.getHart n).post i).done = true ∧ ((u.getHart n).post i).len = 0
            ∧ (u.getHart n).ops = h.ops.filter (fun q => q.id != p.op)
            ∧ ((u.getHart n).spin p.strand).status = mergeStatus (h.spin p.strand).status
                (8 ||| (refusal c r).2 ||| (refusal c r).1.setWidth 17 <<< 8))
      ∧ (h.ready o = true → ∀ s1, devicePut ⟨n, o.region, o.level, p.strand, p.op⟩ p.buf (g.payload.take p.cap) s = (.wait, s1) →
          ∃ u, answered u true ∧ SameBytes s1 u ∧ ((u.getHart n).post i).done = false))
    ∧ (∀ n, reaches n → (s.getHart n).matchPost g.srcHart g.srcNode tag = none →
      let h := s.getHart n
      let entry (e : Nat) : Prop := e < 64 ∧ (∀ q ∈ h.ovfq, q.entry ≠ e) ∧ ∀ k < e, ∃ q ∈ h.ovfq, q.entry = k
      (∀ e s1, entry e → h.msOvf ≠ 0 → regionBytes h.region (h.msOvf.toNat * 2 ^ 18 + 4096 * e) g.payload s = (true, s1) →
        ∃ u, answered u true ∧ SameBytes s1 u
          ∧ (u.getHart n).ovfq = (s1.getHart n).ovfq ++ [⟨e, g.srcHart, g.srcNode, tag, g.payload.length, false⟩])
      ∧ ((∀ e < 64, ∃ q ∈ h.ovfq, q.entry = e) ∨ h.msOvf = 0
          ∨ (∃ e s1, entry e ∧ regionBytes h.region (h.msOvf.toNat * 2 ^ 18 + 4096 * e) g.payload s = (false, s1)) →
        ∃ u, answered u false ∧ SameBytes s u ∧ (u.getHart n).msLost.toNat = min (h.msLost.toNat + 1) (2 ^ 32 - 1)
          ∧ (u.getHart n).msPend = true ∧ (h.msPend = true → (u.getHart n).irqs = h.irqs)
          ∧ (h.msPend = false → (u.getHart n).irqs = h.irqs ++ [⟨0x0C, BitVec.ofNat 64 (g.srcHart.toNat + g.srcNode.toNat * 2 ^ 16
            + tag.toNat * 2 ^ 32), 0, 0⟩])))
    ∧ (∀ id o src len word, g.srcNode = s.nodeId → g.srcHart.toNat = s.hart.num → s.hart.msendsOpen = [id] → s.hart.op? id = some o →
      s.hart.ready o = true → o.sent = none → o.kind = .msend src len word → word.toNat % 2 ^ 11 = dst →
      let node : BitVec 4 := BitVec.ofNat 4 (word.toNat / 2 ^ 16)
      let ends (u t : State) (st : BitVec 17) : Prop := t.hart.ops = u.hart.ops.filter (fun p => p.id != id)
        ∧ t.locks = u.locks.filter (fun l => !(l.hart == some s.hart.num && l.op == id)) ∧ SameBytes u t
        ∧ (t.hart.spin o.strand).status = (if st = 0 then (u.hart.spin o.strand).status else mergeStatus (u.hart.spin o.strand).status st)
      (s.hart.isStopped = true → exec (.messageArrival g) s = .next s)
      ∧ (∀ bytes s1, s.hart.isStopped = false → s1.hart = s.hart →
        (len = 0 ∧ bytes = [] ∧ s1 = s ∨ 0 < len ∧ deviceGet ⟨s.hart.num, o.region, o.level, o.strand, id⟩ src len s = (.bytes bytes, s1)) →
        let msg : Message := ⟨s.nodeId, BitVec.ofNat 11 s.hart.num, BitVec.ofNat 11 word.toNat, o.region, o.level == .M,
          [word, BitVec.ofNat 64 id], bytes⟩
        (node ≠ s.nodeId → 0 < s.liveLanes node → ∃ t, exec (.messageArrival g) s = .next t
          ∧ Sends { s1 with hart := { s.hart with ops := s.hart.ops.map (fun p => if p.id = id then { o with sent := some 1 } else p) } } t
              (.message node msg))
        ∧ (node ≠ s.nodeId → s.liveLanes node = 0 → ∃ t, exec (.messageArrival g) s = .next t ∧ ends s t 1)
        ∧ (∀ s2, node = s.nodeId → arrival msg s1 = .delivered s2 → s2.hart.num = s.hart.num →
            ∃ t, exec (.messageArrival g) s = .next t ∧ ends s2 t 0)
        ∧ (∀ s2, node = s.nodeId → arrival msg s1 = .refused s2 → s2.hart.num = s.hart.num →
            ∃ t, exec (.messageArrival g) s = .next t ∧ ends s2 t 2)
        ∧ (node = s.nodeId → arrival msg s1 = .later → exec (.messageArrival g) s = .next s))
      ∧ (∀ c r s1, s.hart.isStopped = false → s1.hart = s.hart → 0 < len →
          deviceGet ⟨s.hart.num, o.region, o.level, o.strand, id⟩ src len s = (.fault c r, s1) → ∃ t, exec (.messageArrival g) s = .next t
            ∧ ends s1 t (8 ||| (refusal c r).2 ||| (refusal c r).1.setWidth 17 <<< 8))
      ∧ (∀ s1, s.hart.isStopped = false → 0 < len → deviceGet ⟨s.hart.num, o.region, o.level, o.strand, id⟩ src len s = (.wait, s1) →
          s1.poison = s.poison → ∃ t, exec (.messageArrival g) s = .next t ∧ t.hart = s.hart ∧ t.sendq = s1.sendq ∧ t.mem = s.mem))
    ∧ (∀ i e o q b s0 s1, s.moving = true → (s.hart.post i).queued = some e → (s.hart.post i).done = false →
      s.hart.op? (s.hart.post i).op = some o → s.hart.ready o = true → o.sent = none → s.hart.ovfq.find? (fun q => q.entry == e) = some q →
      (q.len = 0 ∧ b = [] ∧ s0 = s ∨ 0 < q.len ∧ ∃ r, s.hart.region.bind s.region? = some r ∧
        let tr := translateLocal s .walker (some r.num) r.enter .load true true (s.hart.msOvf.toNat * 2 ^ 18 + 4096 * e)
        tr.cause = 0 ∧ tr.st.poisoned tr.key = false ∧ b = tr.st.readKey tr.key q.len ∧ s0 = tr.st) →
      devicePut ⟨s.hart.num, o.region, o.level, (s.hart.post i).strand, (s.hart.post i).op⟩ (s.hart.post i).buf (b.take (s.hart.post i).cap) s0 = (.done, s1) → s1.hart = s.hart →
      ∃ t, exec (.overflowPayloadCopy i) s = .next t ∧ Receives s1 t s.hart.num i b.length q.srcHart q.srcNode q.tag
        ∧ t.hart.ovfq = s.hart.ovfq.filter (fun r => r.entry != e) ∧ SameBytes s1 t)
    ∧ (∀ i o b s1, s.moving = true → (s.hart.post i).queued = none → (s.hart.post i).held = some b → (s.hart.post i).done = false →
      s.hart.op? (s.hart.post i).op = some o →
      (s.hart.ready o = false → exec (.overflowPayloadCopy i) s = .next s)
      ∧ (s.hart.ready o = true → s1.hart = s.hart →
        devicePut ⟨s.hart.num, o.region, o.level, (s.hart.post i).strand, (s.hart.post i).op⟩ (s.hart.post i).buf (b.take (s.hart.post i).cap) s = (.done, s1) →
        ∃ t, exec (.overflowPayloadCopy i) s = .next t ∧ SameBytes s1 t
          ∧ Receives s1 t s.hart.num i b.length (s.hart.post i).srcHart (s.hart.post i).srcNode (s.hart.post i).tag))
    ∧ (∀ k f, s.forwards[k]? = some f → (f.until_.toNat ≤ s.now.toNat → exec (.migrationForwardExpiry k) s
          = .next { s with forwards := s.forwards.set k { f with past := true } })
        ∧ (s.now.toNat < f.until_.toNat → exec (.migrationForwardExpiry k) s = .next s))
    ∧ (∀ node : BitVec 4,
      let blocked : Prop := (∃ i ∈ s.sendq, i.peer = node ∧ i.cls = 1) ∧ (assocGet s.msgMoved node.toNat 0).toNat + 4000 ≤ s.now.toNat
        ∧ 0 < s.liveLanes node
      let back : State := { s with probes := s.probes &&& ~~~(1#16 <<< node.toNat) }
      let first := s.sendq.find? (fun i => i.peer == node && i.cls == 1 && !s.fallsOut i.pkt)
      (¬blocked → exec (.deadlockProbe node) s = .next s)
      ∧ (blocked → exec (.deadlockProbe node) s = .next { s with
          outbox := s.outbox ++ [.probe node]
          probes := s.probes ||| (1#16 <<< node.toNat)
          msgMoved := assocSet s.msgMoved node.toNat s.now })
      ∧ (s.probes.getLsbD node.toNat = false → exec (.probeReturn node) s = .next s)
      ∧ (s.probes.getLsbD node.toNat = true → (first = none ∨ s.flight? node ≠ none → exec (.probeReturn node) s = .next back)
        ∧ ∀ i, s.flight? node = none → first = some i → exec (.probeReturn node) s = .next { back with
            sendq := s.sendq.erase i
            outbox := s.outbox ++ [i.pkt]
            msgMoved := assocSet s.msgMoved node.toNat s.now }))

/-- R29, R351, R354, R366 to R368: the link instructions in every state. -/
def Obligations.LinkInstructions : Prop :=
  ∀ (s : State) (d a : BitVec 5) (m : Bool),
    let coded (n : Nat) : Word := BitVec.ofNat 64 (2 ^ 63 + n)
    let v := s.x a
    let named (k : BitVec 3) : Prop := v.getLsbD k.toNat = true
    let up (k : BitVec 3) : Prop := (s.skein k).st = .awake ∨ (s.skein k).st = .waking
    let parks (k : BitVec 3) : Prop := named k ∧ up k
    let sel := v.toNat % 256
    let peer : BitVec 4 := BitVec.ofNat 4 (v.toNat / 256)
    let masks (st : LaneState) : Prop := ∃ w, RunsX (.lnst d a m) s d w 4 m ∧ ∀ f : BitVec 6, w.getLsbD f.toNat = true ↔ s.laneState peer f = st
    let n := (s.lanes.filter (fun l => l.peer == peer && l.st == .failed)).length
    (s.hart.num < 1024 → exec (.lnpark d a m) s = .next (trap 0x05 0 s) ∧ exec (.lnwake d a m) s = .next (trap 0x05 0 s)
      ∧ exec (.gwtake d a m) s = .next (trap 0x05 0 s))
    ∧ (1024 ≤ s.hart.num → 0xFF < v.toNat → RunsX (.lnpark d a m) s d (coded 8) 4 m ∧ RunsX (.lnwake d a m) s d (coded 8) 4 m)
    ∧ (1024 ≤ s.hart.num → v.toNat ≤ 0xFF → (∀ k, up k → named k) → RunsX (.lnpark d a m) s d (coded 6) 4 m)
    ∧ (1024 ≤ s.hart.num → v.toNat ≤ 0xFF → (∃ k, up k ∧ ¬named k) → ∃ u, Answers (.lnpark d a m) s u d 0 m
      ∧ (∀ k, (parks k → u.skein k = ⟨.parking, false, none⟩) ∧ (¬parks k → u.skein k = s.skein k))
      ∧ (∀ p f, (p, f) ∈ u.leaving ↔ (p, f) ∈ s.leaving ∨ parks (f.extractLsb' 3 3) ∧ p ≠ s.nodeId
          ∧ (s.laneState p f = .active ∨ s.laneState p f = .locked))
      ∧ (∀ r, r ∈ u.startq ↔ r ∈ s.startq ∧ ∀ k, parks k → r ≠ .skein k) ∧ u.lanes = s.lanes ∧ u.hart = s.hart
      ∧ (s.evFw = 0 → u = { s with skeins := u.skeins, leaving := u.leaving, startq := u.startq }))
    ∧ (1024 ≤ s.hart.num → v.toNat ≤ 0xFF → ∃ u, Answers (.lnwake d a m) s u d 0 m
      ∧ (∀ k, (named k → (s.skein k).st = .parked → u.skein k = ⟨.waking, false, none⟩)
        ∧ (named k → (s.skein k).st = .parking → u.skein k = { s.skein k with pending := true })
        ∧ (¬named k ∨ up k → u.skein k = s.skein k))
      ∧ (∀ r, r ∈ u.startq ↔ r ∈ s.startq ∨ ∃ k, r = .skein k ∧ named k ∧ (s.skein k).st = .parked) ∧ u.hart = s.hart
      ∧ (s.evFw = 0 → u = { s with skeins := u.skeins, startq := u.startq }))
    ∧ (sel = 0 → RunsX (.lnst d a m) s d (BitVec.ofNat 64 (((List.range 8).map (fun i =>
        (match (s.skein (BitVec.ofNat 3 i)).st with | .awake => 0 | .parking => 1 | .parked => 2 | .waking => 3)
          * 8 ^ i + if (s.skein (BitVec.ofNat 3 i)).pending = true then 4 * 8 ^ i else 0)).sum)) 4 m)
    ∧ (sel ≠ 0 → peer = s.nodeId → RunsX (.lnst d a m) s d 0 4 m)
    ∧ (peer ≠ s.nodeId → (sel = 1 → masks .active) ∧ (sel = 2 → masks .failed) ∧ (sel = 3 → masks .locked)
      ∧ (4 < sel → RunsX (.lnst d a m) s d 0 4 m)
      ∧ (sel = 4 → RunsX (.lnst d a m) s d (BitVec.ofNat 64 (
          min (((s.sendq.filter (fun i => i.peer == peer)).map (fun i => 32 * i.pkt.flits)).sum) (2 ^ 32 - 1)
            + (if 64 - n < 32 then 2 ^ 32 else 0) + (if 64 - n = 0 then 2 ^ 33 else 0))) 4 m))
    ∧ (1024 ≤ s.hart.num →
      let rid : BitVec 16 := BitVec.ofNat 16 (v.toNat / 2 ^ 32)
      let first : BitVec 32 := if s.hart.num < 1088 then BitVec.ofNat 32 ((s.hart.num - 1024) % 16) else 0
      let b := if rid = s.hart.gwRid then s.hart.gwNext else first
      let more : Prop := b.toNat < v.toNat % 2 ^ 32
      ∃ t, exec (.gwtake d a m) s = .next t ∧ WritesX s t d (if more then BitVec.ofNat 64 b.toNat else BitVec.allOnes 64)
        ∧ t.hart.gwRid = rid ∧ t.hart.gwNext = (if more then b + 16 else b) ∧ Ends s t (s.hart.pc + 4) m
        ∧ Only (fun old new => { mayX old new with gwRid := new.gwRid, gwNext := new.gwNext }) s t)

/-- R351 to R355, R422: the fabric's own events, with no firmware event queue (ev.fw = 0, R426). -/
def Obligations.LinkEvents : Prop :=
  ∀ (s : State) (p : BitVec 4) (f : BitVec 6) (k : BitVec 3) (cls : BitVec 2), s.evFw = 0 →
    let st := s.laneState p f
    let leaves (g : BitVec 6) : Prop := (p, g) ∈ s.leaving
    let joins (g : BitVec 6) : Prop := s.laneState p g = .locked ∧ ¬leaves g
    let changed : Prop := (∃ g, leaves g ∧ s.laneState p g = .active) ∨ ∃ g, joins g
    let past (t : Option Word) (ns : Nat) : Prop := ∀ a, t = some a → a.toNat + ns ≤ s.now.toNat
    let lanesOf (j : BitVec 3) (q : BitVec 4) (g : BitVec 6) : Prop := q ≠ s.nodeId ∧ g.extractLsb' 3 3 = j
    let wakes (t : State) (j : BitVec 3) (old : Skein) : Prop :=
      let all : Prop := old.st = .waking ∧ old.admitted ≠ none ∧ ∀ q g, lanesOf j q g → t.laneState q g ≠ .idle
      (all → t.skein j = ⟨.awake, false, none⟩) ∧ (¬all → t.skein j = old) ∧ ∀ i, i ≠ j → t.skein i = s.skein i
    let sk := s.skein k
    let slot : Prop := past s.lastAdmit 64
    let ready (r : StartReq) : Prop := match r with
      | .engine _ => True
      | .quad _ => False
      | .skein _ => past s.lastSkein 400
    (∀ done, (p = s.nodeId ∨ st = .failed) → exec (.laneFailure p ⟨f, done⟩) s = .next s)
    ∧ (∀ done, p ≠ s.nodeId → st ≠ .failed → ∃ t, exec (.laneFailure p ⟨f, done⟩) s = .next t ∧ t.laneState p f = .failed
      ∧ (∀ q g, (q, g) ≠ (p, f) → t.laneState q g = s.laneState q g)
      ∧ t.leaving = s.leaving.filter (fun q => q != (p, f))
      ∧ (∀ q : BitVec 4, t.degraded.getLsbD q.toNat = true ↔ s.degraded.getLsbD q.toNat = true ∨ q = p ∧ t.liveLanes p < 32)
      ∧ (t.stripe = if st = .active ∧ t.flight? p = none then s.stripe.filter (fun q => q.1 != p.toNat) else s.stripe)
      ∧ wakes t (f.extractLsb' 3 3) (s.skein (f.extractLsb' 3 3))
      ∧ (∀ q, q ≠ p → t.flight? q = s.flight? q)
      ∧ (0 < t.liveLanes p → (s.flight? p = none → t.flight? p = none) ∧ (∀ e, s.flight? p = some e →
          let rest := ((List.range 64).map (fun i => BitVec.ofNat 6 (f.toNat + i))).filter (fun g =>
            g != f && e.mask.getLsbD g.toNat && s.laneState p g != .failed)
          let owed := (e.plan.filter (fun q => q.2 == f)).drop done
          (e.mask.getLsbD f.toNat = false → t.flight? p = some e)
          ∧ (e.mask.getLsbD f.toNat = true → ∃ again : List (Nat × BitVec 6),
              t.flight? p = some { e with plan := e.plan.filter (fun q => !owed.contains q) ++ again, broken := true }
              ∧ (again.map (·.1)).Pairwise (· < ·) ∧ (∀ b, b ∈ again.map (·.1) ↔ b < e.plan.length ∧ b ∈ owed.map (·.1))
              ∧ ∀ (j : Nat) (q : Nat × BitVec 6), again[j]? = some q → q.2 = (rest[j % rest.length]?).getD f)))
      ∧ (0 < t.liveLanes p → t = { s with
          lanes := t.lanes
          leaving := t.leaving
          stripe := t.stripe
          flights := t.flights
          skeins := t.skeins
          degraded := t.degraded })
      ∧ (t.liveLanes p = 0 → (∀ e ∈ t.tlb, e.2.node ≠ p) ∧ (∀ h ∈ t.harts, ∀ e ∈ h.dtlb ++ h.itlb, e.node ≠ p)
          ∧ (∀ i ∈ t.sendq, i.peer ≠ p) ∧ (∀ a ∈ t.asks, a.node ≠ p) ∧ t.flight? p = none))
    ∧ (∀ e, s.flight? p = some e → f ∈ e.plan.map (·.2) →
        exec (.crcErrorResend p f) s = .next { s with outbox := s.outbox ++ [.beats p e.mask [f]] })
    ∧ ((∀ e, s.flight? p = some e → f ∉ e.plan.map (·.2)) → exec (.crcErrorResend p f) s = .next s)
    ∧ (p = s.nodeId → exec (.packetBoundary p cls) s = .next s)
    ∧ (p ≠ s.nodeId → ∃ t, exec (.packetBoundary p cls) s = .next t
      ∧ (∀ g, (leaves g → t.laneState p g = .idle) ∧ (joins g → t.laneState p g = .active)
        ∧ (¬leaves g → ¬joins g → t.laneState p g = s.laneState p g))
      ∧ (∀ q g, q ≠ p → t.laneState q g = s.laneState q g) ∧ (∀ x, x ∈ t.leaving ↔ x ∈ s.leaving ∧ x.1 ≠ p)
      ∧ (t.degraded.getLsbD p.toNat = true ↔ s.degraded.getLsbD p.toNat = true ∧ t.liveLanes p < 32)
      ∧ (changed → assocGet t.stripe p.toNat 0 = 0)
      ∧ (∀ e, s.flight? p = some e → (∃ l : List (BitVec 6), t.outbox = s.outbox ++ [.beats p e.mask l, e.item.pkt]
            ∧ l.length = e.plan.length ∧ ∀ j < e.plan.length, ∀ q, e.plan.find? (fun q => q.1 == j) = some q → l[j]? = some q.2)
          ∧ t.sendq = s.sendq
          ∧ e.item.peer = p ∧ t.flights = s.flights.filter (fun q => q.item.peer != p)
          ∧ ((s.stripe.map (·.1)).Pairwise (· < ·) → ¬changed → assocGet t.stripe p.toNat 0 = if e.broken = true then 0
              else (assocGet s.stripe p.toNat 0 + e.plan.length) % ((List.range 64).filter (fun i => e.mask.getLsbD i)).length)
          ∧ t.msgMoved = if e.item.cls = 1 then assocSet s.msgMoved p.toNat s.now else s.msgMoved)
      ∧ (s.flight? p = none →
          let head := if cls = 2 ∧ t.degraded.getLsbD p.toNat = true then none
            else s.sendq.find? (fun i => i.peer == p && i.cls == cls && !s.fallsOut i.pkt)
          let set := ((List.range 64).map (BitVec.ofNat 6)).filter (fun g => t.laneState p g == .active)
          t.outbox = s.outbox ∧ (¬changed → t.stripe = s.stripe)
          ∧ (head = none ∨ set = [] → t.sendq = s.sendq ∧ t.flights = s.flights ∧ t.msgMoved = s.msgMoved)
          ∧ (∀ i, head = some i → set ≠ [] → t.sendq = s.sendq.erase i
              ∧ t.msgMoved = (if cls = 1 then assocSet s.msgMoved p.toNat s.now else s.msgMoved)
              ∧ ∃ mask, t.flights = s.flights ++ [⟨i, mask, (List.range i.pkt.flits).map (fun j =>
                    (j, (set[(assocGet t.stripe p.toNat 0 + j) % set.length]?).getD 0)), false⟩]
                ∧ ∀ g : BitVec 6, mask.getLsbD g.toNat = true ↔ t.laneState p g = .active))
      ∧ t = { s with
          lanes := t.lanes
          leaving := t.leaving
          stripe := t.stripe
          outbox := t.outbox
          degraded := t.degraded
          flights := t.flights
          sendq := t.sendq
          msgMoved := t.msgMoved })
    ∧ ((sk.st ≠ .parking ∨ ∃ q g, (q, g) ∈ s.leaving ∧ g.extractLsb' 3 3 = k) → exec (.skeinParked k) s = .next s)
    ∧ (sk.st = .parking → (∀ q g, (q, g) ∈ s.leaving → g.extractLsb' 3 3 ≠ k) →
      exec (.skeinParked k) s = .next (if sk.pending = true then
        { (s.setSkein k ⟨.waking, false, none⟩) with startq := if s.startq.contains (.skein k) = true then s.startq else s.startq ++ [.skein k] }
        else s.setSkein k ⟨.parked, false, none⟩))
    ∧ (∀ j, j = f.extractLsb' 3 3 →
      let ok : Prop := p ≠ s.nodeId ∧ (s.skein j).st = .waking ∧ st = .idle
        ∧ ∃ a, (s.skein j).admitted = some a ∧ s.now.toNat ≤ a.toNat + 3200
      (¬ok → exec (.laneLocked p f) s = .next s)
      ∧ (ok → ∃ t, exec (.laneLocked p f) s = .next t ∧ t.laneState p f = .locked ∧ (∀ q g, (q, g) ≠ (p, f) → t.laneState q g = s.laneState q g)
        ∧ wakes t j (s.skein j) ∧ t = { s with lanes := t.lanes, skeins := t.skeins }))
    ∧ (∀ a, sk.st = .waking → sk.admitted = some a → a.toNat + 3200 ≤ s.now.toNat → ∃ t, exec (.skeinWakeTimeout k) s = .next t
      ∧ t.skein k = ⟨.awake, false, none⟩ ∧ ∀ q g, t.laneState q g = if lanesOf k q g ∧ s.laneState q g = .idle then .failed else s.laneState q g)
    ∧ ((sk.st ≠ .waking ∨ sk.admitted = none ∨ ∃ a, sk.admitted = some a ∧ s.now.toNat < a.toNat + 3200) →
        exec (.skeinWakeTimeout k) s = .next s)
    ∧ ((p = s.nodeId ∨ st ≠ .failed) → exec (.firmwareRetune p f) s = .next s)
    ∧ (p ≠ s.nodeId → st = .failed → ∃ t, exec (.firmwareRetune p f) s = .next t
      ∧ t.laneState p f = (if (s.skein (f.extractLsb' 3 3)).st = .awake ∨ (s.skein (f.extractLsb' 3 3)).st = .waking then .locked else .idle)
      ∧ (∀ q g, (q, g) ≠ (p, f) → t.laneState q g = s.laneState q g) ∧ t = { s with lanes := t.lanes })
    ∧ ((¬slot ∨ ∀ r ∈ s.startq, ¬ready r) → exec .startSequencerAdmit s = .next s)
    ∧ (∀ r l1 l2, slot → s.startq = l1 ++ r :: l2 → (∀ q ∈ l1, ¬ready q) → ready r → ∃ t, exec .startSequencerAdmit s = .next t
      ∧ t.lastAdmit = some s.now ∧ t.startq = s.startq.filter (fun q => q != r) ∧ t.lanes = s.lanes
      ∧ (∀ e, r = .engine e → t.engine e = { s.engine e with gated := false, lastTile := s.now } ∧ t.lastSkein = s.lastSkein)
      ∧ (∀ j, r = .skein j → wakes t j { s.skein j with admitted := some s.now } ∧ t.lastSkein = some s.now))

/-- R376 to R378, R382, R385 to R389: the node instructions in every state. Code 5 of nspawn, and what ndep, ndone and nyield do
on a hart without a region or node, are the model's choices (log 41). -/
def Obligations.NodeInstructions : Prop :=
  ∀ (s : State) (d a b : BitVec 5) (m : Bool),
    let xa := s.x a
    let reg := s.hart.region.getD 0xFFFF
    let mask := (s.x b).toNat % 256
    let u := endInstance s
    let st := u.hart.mergedStatus
    let undone (v st : State) : Prop := (v.hart.spin 0).issue = (s.hart.spin 0).issue ∧ (v.hart.spin 0).perf = (s.hart.spin 0).perf
      ∧ v = { st with hart := { st.hart with sp := v.hart.sp, nextOp := s.hart.nextOp, perfAt := s.hart.perfAt } }
    let freed (t : State) : Prop := t.hart.run = .free ∧ t.hart.node = none ∧ (∀ i, (t.hart.spin i).status = 0) ∧ t.hart.ovfq = []
    let blocked (v : State) : State := { v with hart := { v.hart with run := .blocked } }
    (∀ by_ s1, xa.toNat % 64 = 0 → blockRange xa 8 s = .got by_ s1 → dwordAt by_ 3 = 0 → ∃ n bad, readDesc reg xa s = .got n bad s1
      ∧ (bad = true ↔ DescInvalid by_) ∧ n.region = reg ∧ n.desc = xa ∧ n.entry = dwordAt by_ 0 ∧ n.args = dwordAt by_ 1
      ∧ n.kind.toNat = (dwordAt by_ 2).toNat % 4 ∧ n.engine = (dwordAt by_ 2).getLsbD 2 ∧ n.gang = (dwordAt by_ 2).getLsbD 3
      ∧ n.hold = (dwordAt by_ 2).getLsbD 4 ∧ n.count = (dwordAt by_ 2).toNat / 2 ^ 8 % 2 ^ 12 + 1
      ∧ n.foot = (dwordAt by_ 2).toNat / 2 ^ 20 % 2 ^ 12 ∧ n.pred = (dwordAt by_ 2).toNat / 2 ^ 32 % 2 ^ 16 ∧ n.succ = []
      ∧ n.placed = 0 ∧ n.retired = 0 ∧ n.moved = [])
    ∧ (∀ by_ s1, xa.toNat % 64 = 0 → blockRange xa 8 s = .got by_ s1 → dwordAt by_ 3 ≠ 0 → (dwordAt by_ 3).toNat % 8 = 0 →
      let sa := dwordAt by_ 3
      (∀ c x st, blockRange sa 1 s1 = .fault c x st → ∃ v, readDesc reg xa s = .fault c x v ∧ undone v st)
      ∧ ∀ w s2, blockRange sa 1 s1 = .got w s2 →
        let k := (dwordAt w 0).toNat
        (16 < k → ∃ n, readDesc reg xa s = .got n true s2)
        ∧ (∀ c x st, k ≤ 16 → blockRange (sa + 8) k s2 = .fault c x st → ∃ v, readDesc reg xa s = .fault c x v ∧ undone v st)
        ∧ (∀ l s3, k ≤ 16 → blockRange (sa + 8) k s2 = .got l s3 → ∃ n bad, readDesc reg xa s = .got n bad s3
          ∧ n.succ = (List.range k).map (dwordAt l) ∧ (bad = true ↔ DescInvalid by_ ∨ ∃ i < k, (dwordAt l i).toNat % 64 ≠ 0)))
    ∧ (∀ by_ s1, xa.toNat % 64 = 0 → blockRange xa 8 s = .got by_ s1 → (dwordAt by_ 3).toNat % 8 ≠ 0 → ∃ n, readDesc reg xa s = .got n true s1)
    ∧ (∀ st, readDesc reg xa s = .wait st → exec (.nspawn d a m) s = .next st
      ∧ st.hart = { s.hart with run := .blocked, comb := st.hart.comb, irqs := st.hart.irqs })
    ∧ (xa.toNat % 64 ≠ 0 → exec (.nspawn d a m) s = .next (trap 0x03 xa s))
    ∧ (∀ c ad s1, readDesc reg xa s = .fault c ad s1 → exec (.nspawn d a m) s = .next (trap c ad s1))
    ∧ (∀ n bad s1, readDesc reg xa s = .got n bad s1 → s1.hart.region.bind s1.region? = none → Answers (.nspawn d a m) s s1 d (coded 5) m)
    ∧ (∀ n bad s1 g, readDesc reg xa s = .got n bad s1 → s1.hart.region.bind s1.region? = some g →
      (spawnCode s1 g bad n ≠ 0 → Answers (.nspawn d a m) s s1 d (coded (spawnCode s1 g bad n)) m)
      ∧ (spawnCode s1 g bad n = 0 → ∃ t, exec (.nspawn d a m) s = .next t ∧ WritesX s1 t d 0 ∧ Ends s1 t (s1.hart.pc + 4) m
          ∧ PointRecorded s1 t (fun _ => True) (.register n)
          ∧ t = { s1 with hart := mayX s1.hart t.hart, releases := t.releases } ∧ SameBytes s1 t))
    ∧ (s.hart.region = none → RunsX (.ndep d a b m) s d 0 4 m)
    ∧ (∀ r, s.hart.region = some r → ∃ t, exec (.ndep d a b m) s = .next t ∧ WritesX s t d 0 ∧ Ends s t (s.hart.pc + 4) m
      ∧ PointRecorded s t (fun i => mask = 0 ∨ mask.testBit i.toNat = true) (.decrement r xa)
      ∧ t = { s with hart := mayX s.hart t.hart, releases := t.releases } ∧ SameBytes s t)
    ∧ ((∀ i, u.hart.bind i = none) ∧ (∀ i, (u.hart.post i).used = true → (u.hart.post i).matched = true ∨ (u.hart.post i).done = true)
      ∧ (∀ e ∈ u.hart.comb, e.closed = true ∧ e.draining = true) ∧ u.hart.x = s.hart.x ∧ u.hart.v = s.hart.v
      ∧ u.hart.node = s.hart.node ∧ SameBytes s u)
    ∧ (u.hart.ops ≠ [] → exec (.ndone m) s = .next (blocked u))
    ∧ (u.hart.ops = [] → u.hart.node = none → ∃ t, exec (.ndone m) s = .next t ∧ freed t ∧ SameBytes s t)
    ∧ (∀ nr k, u.hart.ops = [] → u.hart.node = some nr → u.nodes.find? (fun n => n.region == nr.region && n.desc == nr.desc) = some k →
      let w (h : Hart) : State := if st = 0 then { u with hart := h }
        else regionRecord nr.region 0x04 u.hart.num nr.desc.toNat (nr.index + st.toNat * 2 ^ 32) { u with hart := h }
      let rest (l : List NodeRec) : List NodeRec := l.filter (fun n => !(n.region == nr.region && n.desc == nr.desc))
      (k.retired + 1 ≠ k.count → ¬GstoppedAbove u nr.region → ∃ t h, exec (.ndone m) s = .next t ∧ freed t ∧ t.regions = u.regions ∧ SameBytes (w h) t
          ∧ t.nodes = u.nodes.map (fun n => if n.region = nr.region ∧ n.desc = nr.desc
              then { k with retired := k.retired + 1, bad := k.bad || st != 0 } else n))
      ∧ (k.retired + 1 = k.count → k.hold = true ∧ (k.bad = true ∨ st ≠ 0) → ∃ t, exec (.ndone m) s = .next t ∧ freed t
          ∧ t.nodes = rest u.nodes)
      ∧ (k.retired + 1 = k.count → k.hold = false ∨ k.bad = false ∧ st = 0 → ∃ t h, exec (.ndone m) s = .next t
          ∧ freed t ∧ t.nodes = rest (k.succ.foldl (fun v q => decrement nr.region q v) (w h)).nodes)
      ∧ (∀ g, k.retired + 1 = k.count → rest u.nodes = [] → u.region? nr.region = some g → g.parent = none →
          (∀ q ∈ u.regions, q.parent ≠ some nr.region) → (∀ p ∈ u.releases, ∀ n, p.what ≠ .register n) → k.succ = [] → st = 0 →
          ∃ t, exec (.ndone m) s = .next t ∧ freed t ∧ t.nodes = [] ∧ ∀ q ∈ t.regions, q.num ≠ nr.region))
    ∧ (s.hart.node = none → RunsX (.nyield d m) s d 0 4 m)
    ∧ (∀ nr n, s.hart.node = some nr → s.nodes.find? (fun n => n.region == nr.region && n.desc == nr.desc) = some n →
      let pr := ((s.region? n.region).map (·.prio)).getD 0
      (nr.gang = true ∨ nr.engine = true ∨ s.reservedTo s.hart.num ≠ none ∨ (∃ i, (s.hart.post i).used = true)
          ∨ (∃ i, s.hart.bind i ≠ none) ∨ (∃ p ∈ s.hart.copies, p.2.taken = true ∧ p.2.st = .stopped) ∨ s.hart.cmds ≠ []
          ∨ (∃ i, (s.hart.spin i).mark = true) ∨ (∀ k ∈ s.nodes, k.kind = n.kind → s.waits k = true → s.effPrio k < pr) →
        RunsX (.nyield d m) s d 0 4 m)
      ∧ (s.staysHere = false → s.hart.ops ≠ [] ∨ (∃ r ∈ s.hart.rets, r.res.isStream = false) → ∃ t, exec (.nyield d m) s = .next t
          ∧ Drains s t (fun _ => true) ∧ t = { s with hart := { s.hart with run := .blocked, comb := t.hart.comb } })
      ∧ (∀ g, s.staysHere = false → s.hart.ops = [] → (∀ r ∈ s.hart.rets, r.res.isStream = true) → s.region? nr.region = some g →
        let drained : State := { s with hart := { s.hart with comb := s.hart.comb.map (fun e : CombEntry => { e with closed := true, draining := true }) } }
        let saved := fillSave g.num (min (4096 + 64 * n.foot) g.saveSz.toNat / 1024) (gaOff g.saveA) drained
        (saved.1 = false → exec (.nyield d m) s = .next (saveFailed g.num g.saveA.toNat saved.2))
        ∧ (Inv s → ∀ k, k / 2 ^ 49 % 2 ^ 11 ≠ hbmCore → Cells.get saved.2.mem k = Cells.get s.mem k)
        ∧ (saved.1 = true → ∃ t mv, exec (.nyield d m) s = .next t
          ∧ t.hart.run = .free ∧ t.hart.node = none ∧ SameBytes saved.2 t
          ∧ t.nodes = saved.2.nodes.map (fun k => if k.region = n.region ∧ k.desc = n.desc then { n with moved := n.moved ++ [mv] } else k)
          ∧ mv.index = nr.index ∧ mv.dest = d ∧ mv.hart.x = s.hart.x ∧ mv.hart.pc = s.hart.pc + 4
          ∧ mv.hart.v = s.hart.v ∧ mv.hart.ox = s.hart.ox ∧ mv.hart.k = s.hart.k ∧ mv.hart.sp = s.hart.sp
          ∧ ∀ p, p ∈ mv.bytes ↔ p.1 < 64 * n.foot ∧ (sliceLo s s.hart.num + p.1, p.2) ∈ s.mem)))
    ∧ (∀ (mv h : Hart) (node : BitVec 4) (g : Region) (now : Word), d ≠ 0 →
      let t := mv.movedTo h d node g now
      t.rx d = 1 ∧ (∀ r, r ≠ d → r ≠ 2 → t.rx r = mv.rx r) ∧ t.pc = mv.pc ∧ t.v = mv.v ∧ t.num = h.num
      ∧ (d ≠ 2 → t.rx 2 = BitVec.ofNat 64 ((mv.rx 2).toNat % 2 ^ 49 + h.num * 2 ^ 49 + node.toNat * 2 ^ 60) ∨ 2 ^ 11 ≤ h.num))

/-- R372 to R375, R385, R390, R391, R394: rlaunch and rswitch in every state. Code 5 of rlaunch is the model's choice (log 41), as are
the order of the codes 2, 5, 7, 6 of rswitch and its outcomes during a gstop (log 43). -/
def Obligations.RegionInstructions : Prop :=
  ∀ (s : State) (d a b : BitVec 5) (m : Bool),
    let xa := s.x a
    let waits : Prop := ∃ t, exec (.rlaunch d a b m) s = .next t
      ∧ t.hart = { s.hart with run := .blocked, comb := t.hart.comb, irqs := t.hart.irqs }
    (xa.toNat % 256 ≠ 0 → exec (.rlaunch d a b m) s = .next (trap 0x03 xa s))
    ∧ (∀ c ad s1, xa.toNat % 256 = 0 → blockRange xa 32 s = .fault c ad s1 → exec (.rlaunch d a b m) s = .next (trap c ad s1))
    ∧ (∀ st, xa.toNat % 256 = 0 → blockRange xa 32 s = .wait st → waits)
    ∧ (∀ by_ s1, xa.toNat % 256 = 0 → blockRange xa 32 s = .got by_ s1 →
      (s1.hart.region.bind s1.region? = none → Answers (.rlaunch d a b m) s s1 d (coded 5) m)
      ∧ ∀ p code g, s1.hart.region.bind s1.region? = some p → checkRcb by_ (some p) (s1.hart.level == .U) .U s1 = (code, g) →
        (g.parent = some p.num ∧ g.enter = .U ∧ g.switch = .running ∧ g.vnum = 0 ∧ s1.freeNumber.getD 0 = g.num
          ∧ (Own by_ 1 → g.frames = (dwordAt by_ 1).toNat % 2 ^ 8 ∧ g.gw = (dwordAt by_ 1).toNat / 2 ^ 8 % 2 ^ 7
              ∧ g.svc = (dwordAt by_ 1).getLsbD 15 ∧ g.pool = (dwordAt by_ 1).toNat / 2 ^ 36 % 2 ^ 12
              ∧ g.prio = min ((dwordAt by_ 1).toNat / 2 ^ 32 % 8) p.prio)
          ∧ (¬Own by_ 1 → g.frames = p.frames ∧ g.gw = p.gw ∧ g.svc = p.svc ∧ g.pool = p.pool ∧ g.prio = p.prio)
          ∧ (Own by_ 3 → g.ptroot = dwordAt by_ 3) ∧ (¬Own by_ 3 → g.ptroot = p.ptroot) ∧ (¬Own by_ 2 → g.fdom = p.fdom)
          ∧ (Own by_ 5 → g.evq = dwordAt by_ 5) ∧ (¬Own by_ 5 → g.evq = p.evq) ∧ (¬Own by_ 8 → g.ovf = p.ovf)
          ∧ (¬Own by_ 9 → g.saveA = p.saveA) ∧ (¬Own by_ 4 → g.ckpt = p.ckpt))
        ∧ ((dwordAt by_ 0).toNat % 256 ≠ 0 ∨ (dwordAt by_ 6).toNat % 2 = 1 ∨ (s1.hart.level = .U ∧ Own by_ 3)
            ∨ (Own by_ 1 ∧ 128 < (dwordAt by_ 1).toNat % 2 ^ 8) → code = 2)
        ∧ (code ≠ 2 → (p.frames < g.frames ∨ p.gw < g.gw ∨ p.pool < g.pool → code = 3))
        ∧ (rcbPoison g s1 ≠ none → waits)
        ∧ (rcbPoison g s1 = none → code ≠ 0 → Answers (.rlaunch d a b m) s s1 d (coded code) m)
        ∧ (∀ c2 s2, rcbPoison g s1 = none → code = 0 → checkRoot s1.hart.num .block g (s.x b) s1 = (c2, none, s2) → (c2 = 0 → waits)
            ∧ (c2 ≠ 0 → (c2 = 2 ∨ c2 = 3) ∧ s2.regions = s1.regions.filter (fun h => h.num != g.num) ∧ Answers (.rlaunch d a b m) s s2 d (coded c2) m))
        ∧ (∀ c2 n s2, rcbPoison g s1 = none → code = 0 → checkRoot s1.hart.num .block g (s.x b) s1 = (c2, some n, s2) →
            n.region = g.num ∧ n.desc = s.x b
            ∧ (∀ s3, blockWrite (xa + 0x38) (zext64 g.num) s2 = .wait s3 → waits)
            ∧ (∀ c s3, blockWrite (xa + 0x38) (zext64 g.num) s2 = .fault c s3 → ∃ v, exec (.rlaunch d a b m) s = .next (trap c (xa + 0x38) v)
                ∧ (v.hart.spin 0).issue = (s.hart.spin 0).issue ∧ (v.hart.spin 0).perf = (s.hart.spin 0).perf
                ∧ (v.hart.spin 0).status = (s3.hart.spin 0).status
                ∧ v = { s3 with hart := { s3.hart with sp := v.hart.sp, nextOp := s.hart.nextOp, perfAt := s.hart.perfAt } })
            ∧ (∀ s3, blockWrite (xa + 0x38) (zext64 g.num) s2 = .ok s3 → ∃ t, exec (.rlaunch d a b m) s = .next t
                ∧ WritesX s3 t d (zext64 g.num) ∧ Ends s3 t (s3.hart.pc + 4) m ∧ t.regions = s3.regions ++ [g]
                ∧ PointRecorded s3 t (fun _ => True) (.register n))))
    ∧ (∀ i : Instr, i = .rswitchSuspend d a b m ∨ i = .rswitchResume d a b m ∨ i = .rswitchEnd d a b m →
      let r : BitVec 16 := BitVec.ofNat 16 xa.toNat
      let op := xa.toNat / 2 ^ 16 % 4
      let stamp := (s.x b).toNat
      let T : Word := BitVec.ofNat 64 (max stamp (s.now.toNat + 1000))
      let inScope : Prop := s.hart.level = .M ∨ ∃ q, s.hart.region = some q ∧ q ∈ s.lineage r
      let held : Prop := s.inGstop r = true
      let early : Prop := stamp ≤ s.now.toNat + 1048576
      let sets (w : Switch) (v : Word) : Prop := ∃ t, exec i s = .next t ∧ WritesX s t d v ∧ Ends s t (s.hart.pc + 4) m
        ∧ t.regions = s.regions.map (fun g => if g.num = r then { g with switch := w } else g)
        ∧ t = { s with hart := mayX s.hart t.hart, regions := t.regions } ∧ SameBytes s t
      let turned (n : Nat) : Prop := RunsX i s d (coded n) 4 m
      (s.hart.level = .U → ∃ w : BitVec 32, exec i s = .next (trap 0x02 (zext64 w) s)
          ∧ w.toNat = (if m = true then 2 ^ 31 else 0) + 5 * 2 ^ 22 + b.toNat * 2 ^ 17 + a.toNat * 2 ^ 12 + d.toNat * 2 ^ 7 + 0x7F)
      ∧ (s.hart.level ≠ .U →
        (op = 3 → turned 2)
        ∧ (op ≠ 3 → s.switchOf r = none ∨ ¬inScope → turned 5)
        ∧ (∀ w0, op ≠ 3 → s.switchOf r = some w0 → inScope →
          (¬early → turned 7)
          ∧ (early → s.covered r = some false → turned 6)
          ∧ (∀ w, early → (s.covered r = none ∧ w = w0
              ∨ s.covered r = some true ∧ w = (if w0 = .suspended then .resuming T none else w0)) →
            (op = 0 → w = .running → ¬held → sets (.suspending T) T)
            ∧ (op = 1 → w = .suspended → ¬held → sets (.resuming T none) 0)
            ∧ (op = 2 → w = .running → sets (.ending T false) T)
            ∧ (op = 2 → w = .suspended → sets (.ending T true) T)
            ∧ (∀ t1, op = 2 → w = .resuming t1 none → sets (.resuming t1 (some T)) T)
            ∧ (op = 2 → w = .gstopped none → sets (.gstopped (some T)) T)
            ∧ (op = 0 → w ≠ .running ∨ held → turned 6)
            ∧ (op = 1 → w ≠ .suspended ∨ held → turned 6)
            ∧ (op = 2 → (∃ t1 c, w = .ending t1 c) ∨ (∃ t1, w = .suspending t1) ∨ (∃ t1 t2, w = .resuming t1 (some t2))
                ∨ (∃ t1, w = .gstopped (some t1)) ∨ (∃ t1, w = .gstopping t1) ∨ (∃ t1 e, w = .gresuming t1 e) → turned 6)))))
    ∧ (∀ r : BitVec 16,
      let pending (q : BitVec 16) : Prop := (∃ t, s.switchOf q = some (.suspending t)) ∨ ∃ t c, s.switchOf q = some (.ending t c)
      let returning (q : BitVec 16) : Prop := ∃ t e, s.switchOf q = some (.resuming t e)
      (s.covered r = some false → ∃ q ∈ (s.lineage r).tail, pending q) ∧ (s.covered r = some true → ∃ q ∈ (s.lineage r).tail, returning q)
      ∧ (s.covered r = none ↔ ∀ q ∈ (s.lineage r).tail, ¬pending q ∧ ¬returning q)
      ∧ (s.inGstop r = true ↔ ∃ q ∈ s.lineage r, (∃ t, s.switchOf q = some (.gstopping t)) ∨ (∃ e, s.switchOf q = some (.gstopped e))
          ∨ ∃ t e, s.switchOf q = some (.gresuming t e)))

/-- R378 to R382: what the ready pool and the dispatcher do. That a node no hart can take is passed over is the model's (log 44),
and so is what two waiting gangs do to each other (log 72). -/
def Obligations.DispatchEvents : Prop :=
  ∀ (s : State),
    let lent (p : Release) : Prop := ∃ l ∈ s.lent, ∃ h ∈ l.harts, h.num = p.hart
    let due (p : Release) : Prop := ¬lent p ∧ ∀ q ∈ p.points, (((s.getHart p.hart).spin q.1).perf - q.2).toNat < 2 ^ 31
    let hasAt (r : BitVec 16) (p : Nat) : Prop := ∃ n ∈ s.nodes, s.candidate n = true ∧ n.region = r ∧ s.effPrio n = p
    let first (r : BitVec 16) (desc : Word) : Option NodeRec := s.nodes.find? (fun n => n.region == r && n.desc == desc)
    (∀ k p, s.releases[k]? = some p →
      let s1 : State := { s with releases := s.releases.take k ++ s.releases.drop (k + 1) }
      (¬due p → exec (.releasePointPerformed k) s = .next s)
      ∧ (∀ n, due p → p.what = .register n → (s.region? n.region).isSome = true → exec (.releasePointPerformed k) s = .next { s1 with
          nodes := s.nodes ++ [{ n with order := s.nextOrder, readyAt := if n.pred = 0 then some s.now else none }]
          nextOrder := s.nextOrder + 1 })
      ∧ (∀ n, due p → p.what = .register n → (s.region? n.region).isSome = false → exec (.releasePointPerformed k) s = .next s1)
      ∧ (∀ r q n, due p → p.what = .decrement r q → (s.region? r).isSome = true → first r q = some n → n.pred ≠ 0 →
          exec (.releasePointPerformed k) s = .next { s1 with nodes := s.nodes.map (fun j => if j.region = r ∧ j.desc = q
            then { j with pred := j.pred - 1, readyAt := if j.pred = 1 then some s.now else j.readyAt } else j) })
      ∧ (∀ r q, due p → p.what = .decrement r q → (s.region? r).isSome = true → (∀ n, first r q = some n → n.pred = 0) →
          exec (.releasePointPerformed k) s = .next (regionRecord r 0x05 0xFFFF q.toNat 0 s1)))
    ∧ ((∀ n ∈ s.nodes, s.waits n = false) → exec .dispatch s = .next (catchUp s)
        ∧ ((∀ g ∈ s.regions, g.hadPrio = []) → exec .dispatch s = .next s))
    ∧ (∀ n ∈ s.nodes, s.waits n = true →
      let s1 := catchUp s
      let chosen := [0, 1, 2].findSome? (fun k => choose s1 (BitVec.ofNat 2 k))
      (chosen = none → exec .dispatch s = .next s1)
      ∧ (∀ c, chosen = some c → exec .dispatch s = .next (dispatchAll (1092 + s.nodes.length) (placeNode c s1))))
    ∧ (∀ kind c, choose s kind = some c → c ∈ s.nodes ∧ c.kind = kind ∧ s.waits c = true ∧ s.candidate c = true
      ∧ ∀ n ∈ choices s kind, s.effPrio n ≤ s.effPrio c
        ∧ (s.effPrio n = s.effPrio c → (∀ g ∈ s.regions, 0 < g.vden) → ∀ g q, s.region? n.region = some g → s.region? c.region = some q → g.before q = false)
        ∧ (s.effPrio n = s.effPrio c → n.region = c.region →
            (c.readyAt.getD 0).toNat < (n.readyAt.getD 0).toNat
              ∨ (c.readyAt.getD 0).toNat = (n.readyAt.getD 0).toNat ∧ c.order ≤ n.order))
    ∧ (∀ kind n, n ∈ choices s kind ↔ n ∈ s.nodes ∧ n.kind = kind ∧ s.candidate n = true
        ∧ (∀ g ∈ s.nodes, g.held = true → g.kind = kind → s.effPrio g ≤ s.effPrio n ∧ (n.held = false → s.effPrio g < s.effPrio n))
        ∧ (n.gang = true → n.held = true → s.findGang n ≠ none) ∧ (n.gang = false → s.findHart n ≠ none))
    ∧ (∀ n, s.candidate n = true ↔ s.waits n = true ∧ (s.budgetRoom n.region n.kind 1 = true ∨ n.kind = 0
        ∧ ∃ f < 128, s.frameHolder f = some n.region ∧ (n.gang = true ∨ ∃ i < 8, s.hartFree (8 * f + i) n.region false = true)))
    ∧ (∀ n, s.waits n = true ↔ n.readyAt ≠ none ∧ (n.placed < n.count ∨ n.moved ≠ []) ∧ s.placeable n.region = true)
    ∧ (∀ r, s.placeable r = true ↔ (s.region? r).isSome = true ∧ ∀ q ∈ s.lineage r, ∃ w, s.switchOf q = some w
        ∧ (w = .running ∨ (∃ t, w = .suspending t ∧ s.now.toNat < t.toNat) ∨ ∃ t, w = .ending t false ∧ s.now.toNat < t.toNat))
    ∧ (∀ r kind k, s.budgetRoom r kind k = true ↔ ∀ q ∈ s.lineage r, ∃ g, s.region? q = some g
        ∧ s.unitsHeld kind (s.subtree q) + k ≤ (if kind = 0 then g.frames else if kind = 1 then g.gw else if g.svc = true then 1 else 0))
    ∧ (∀ n t g, n.readyAt = some t → s.region? n.region = some g → s.effPrio n = min 7 (g.prio + (s.now.toNat - t.toNat) / 64000))
    ∧ (∀ k r b, s.hartFree k r b = true → s.present k = true ∧ ∃ d ∈ s.domains, d.num = hartDomain k ∧ d.given ≠ none)
    ∧ (∀ n h, n.kind = 0 → s.findHart n = some h →
      let heldBy (k : Nat) : Prop := s.frameHolder (k / 8) = some n.region
      let free (k : Nat) : Prop := s.hartFree k n.region false = true
      h < 1024 ∧ ((heldBy h ∧ free h ∧ ∀ k < h, heldBy k → ¬free k)
        ∨ ((∀ k < 1024, heldBy k → ¬free k) ∧ s.budgetRoom n.region 0 1 = true ∧ s.frameOpen (h / 8) = true
            ∧ s.hartOpen h n.region false = true ∧ ∀ k < h, s.frameOpen (k / 8) = true → s.hartOpen k n.region false = false)))
    ∧ (∀ n g h, n.gang = false → n.moved = [] → s.findHart n = some h → s.region? n.region = some g →
      1024 ≤ h ∨ s.lendable (h / 8) = false →
      let t := (placeNode n s).getHart h
      t.run = .running ∧ t.pc = n.entry ∧ t.level = g.enter ∧ t.rx 10 = n.args ∧ t.rx 11 = BitVec.ofNat 64 n.placed
      ∧ t.rx 12 = BitVec.ofNat 64 n.count ∧ t.rx 13 = zext64 g.num
      ∧ t.rx 2 = BitVec.ofNat 64 (s.nodeId.toNat * 2 ^ 60 + h * 2 ^ 49 + if h = 1088 then 0x3E000 else 0x3F000)
      ∧ (∀ r : BitVec 5, r ∉ [2, 10, 11, 12, 13] → t.rx r = 0) ∧ (∀ r, t.rv r = 0) ∧ (∀ r, t.rox r = 0)
      ∧ (∀ i, (t.spin i).perf = (t.spin i).issue ∧ (t.spin i).status = 0) ∧ t.node = some ⟨n.region, n.desc, n.placed, n.count, n.engine, false⟩)
    ∧ (∀ (g : Region) (kind : BitVec 2) (k : Nat),
      let w := max 1 (if kind = 0 then g.frames else if kind = 1 then g.gw else 1)
      let c := g.charge kind k
      c.vnum * (g.vden * w) = (g.vnum * w + k * g.vden) * c.vden ∧ c = { g with vnum := c.vnum, vden := c.vden })
    ∧ (∀ k n, s.nodes[k]? = some n → s.candidate n = true → exec (.priorityAgeing k) s = .next (catchUp s))
    ∧ (∀ k, (∀ n, s.nodes[k]? = some n → s.candidate n = false) → exec (.priorityAgeing k) s = .next s)
    ∧ (∃ rs, catchUp s = { s with regions := rs } ∧ rs.map (·.num) = s.regions.map (·.num)
      ∧ (∀ g ∈ rs, ∀ p, p ∈ g.hadPrio ↔ hasAt g.num p)
      ∧ ((∀ g ∈ s.regions, 0 < g.vden) → ∀ (i : Nat) (g g' : Region), s.regions[i]? = some g → rs[i]? = some g' →
        let gains (p : Nat) : Prop := hasAt g.num p ∧ p ∉ g.hadPrio
        let other (p : Nat) (o : Region) : Prop := o ∈ s.regions ∧ o.num ≠ g.num ∧ p ∈ o.hadPrio ∧ hasAt o.num p
        let upTo (u v : Region) : Prop := u.vnum * v.vden ≤ v.vnum * u.vden
        g' = { g with vnum := g'.vnum, vden := g'.vden, hadPrio := g'.hadPrio } ∧ upTo g g'
        ∧ (∀ p o, gains p → other p o → ∃ q, other p q ∧ upTo q g')
        ∧ (g'.vnum = g.vnum ∧ g'.vden = g.vden ∨ ∃ p o, gains p ∧ other p o ∧ (∀ q, other p q → upTo o q) ∧ g'.vnum = o.vnum ∧ g'.vden = o.vden)))

/-- R383, R384, R390, R391: the launch ring. -/
def Obligations.RingEvents : Prop :=
  ∀ (s : State) (v : BitVec 64),
    let wp : BitVec 16 := BitVec.ofNat 16 v.toNat
    let over_ (n : BitVec 16) : Word := BitVec.ofNat 64 (1 + s.ringRp.toNat * 2 ^ 16 + n.toNat * 2 ^ 32)
    let seq : BitVec 16 := BitVec.ofNat 16 (ringWord s 0).toNat
    let kind := (ringWord s 0).toNat / 2 ^ 16 % 2 ^ 8
    let taken (i : Instr) (t : State) : Prop := exec i s = .next t
    let events : List Instr := [.launch, .suspend, .resume, .endRec]
    let skipped (u : State) : State := { u with ringRp := u.ringRp + 1, far := u.far.filter (fun f => !(f.hart == 1088 && f.use == .ring)) }
    let ready : Prop := RingHolds s ∧ s.ringPoison = none
    let waits (i : Instr) (u : State) : Prop := taken i u ∧ taken .unknownKindRingRecord s
    let refused (i : Instr) : Prop := exec i s = .next s ∧ exec .unknownKindRingRecord s
      = .next (skipped (firmwareRecord 0x06 0xFFFF 0xFFFF s.ringOverrun.toNat seq.toNat s))
    let r : BitVec 16 := BitVec.ofNat 16 (ringWord s 3).toNat
    let stamp := (ringWord s 4).toNat
    let T : Word := BitVec.ofNat 64 (max stamp (s.now.toNat + 1000))
    (s.recovery = true → exec (.ringWp v) s = .next s ∧ exec (.ringReset v) s = .next s)
    ∧ (s.recovery = false →
      ((wp - s.ringRp).toNat ≤ 4096 ∨ s.ringOverrun.toNat % 2 = 1 → exec (.ringWp v) s = .next { s with ringWp := wp })
      ∧ (4096 < (wp - s.ringRp).toNat → s.ringOverrun.toNat % 2 = 0 → exec (.ringWp v) s
          = .next (firmwareRecord 0x06 0xFFFF 0xFFFF (over_ wp).toNat wp.toNat { s with ringWp := wp, ringOverrun := over_ wp }))
      ∧ (v = 1 → exec (.ringReset v) s = .next { s with ringRp := s.ringWp, ringOverrun := 0 })
      ∧ (v ≠ 1 → exec (.ringReset v) s = .next s))
    ∧ (¬RingHolds s → (∀ i ∈ events, taken i s) ∧ taken .unknownKindRingRecord s)
    ∧ (∀ k, RingHolds s → s.ringPoison = some k → s.poisoned k = true ∧ taken .unknownKindRingRecord s ∧ ∀ i ∈ events, taken i (reportPoison none k s))
    ∧ (ready → seq ≠ s.ringRp → (∀ i ∈ events, taken i s)
      ∧ taken .unknownKindRingRecord (firmwareRecord 0x06 0xFFFF 0xFFFF (over_ seq).toNat seq.toNat { s with ringOverrun := over_ seq }))
    ∧ (ready → seq = s.ringRp → kind = 0 ∨ 4 < kind → (∀ i ∈ events, refused i))
    ∧ (ready → seq = s.ringRp → kind = 1 →
      let a := ringWord s 1
      let b := s.mem.bytes (hbmKey s.nodeId a.toNat) 256
      let clean (g : Region) : Prop := (s.poisonIn (hbmKey s.nodeId a.toNat) 256).or (rcbPoison g s) = none
      ((∀ i ∈ [Instr.suspend, .resume, .endRec], taken i s)
        ∧ (a.toNat % 256 ≠ 0 ∨ 2 ^ 39 ≤ a.toNat → refused .launch)
        ∧ ∀ code g, a.toNat % 256 = 0 → a.toNat < 2 ^ 39 → checkRcb b none false .S s = (code, g) →
          (∀ k, (s.poisonIn (hbmKey s.nodeId a.toNat) 256).or (rcbPoison g s) = some k → waits .launch (reportPoison none k s))
          ∧ (clean g → code ≠ 0 → refused .launch)
          ∧ g.parent = none ∧ g.enter = .S ∧ g.frames = (dwordAt b 1).toNat % 2 ^ 8 ∧ g.ptroot = dwordAt b 3 ∧ g.evq = dwordAt b 5
          ∧ (clean g → code = 0 → ∀ c n s1, checkRoot 1088 .ring g (ringWord s 2) s = (c, n, s1) → (n = none → c ≠ 0 → refused .launch)
            ∧ (n = none → c = 0 → s1.poison = s.poison → ∃ t, waits .launch t ∧ t.sendq = s1.sendq ∧ t.asks = s1.asks
                ∧ t = { s with
                    sendq := t.sendq
                    asks := t.asks
                    msgMoved := t.msgMoved
                    far := t.far
                    nextRead := t.nextRead
                    reads := t.reads })
            ∧ (∀ k s2, n = some k → writeHome none (hbmKey s.nodeId (a.toNat + 0x38)) (leBytes g.num.toNat 8) s1 = (false, s2) → refused .launch)
            ∧ ∀ k s2, n = some k → writeHome none (hbmKey s.nodeId (a.toNat + 0x38)) (leBytes g.num.toNat 8) s1 = (true, s2) →
              ∃ t, taken .launch t ∧ t.regions = s2.regions ++ [g] ∧ t.ringRp = s2.ringRp + 1
                ∧ t.nodes = s2.nodes ++ [{ k with order := s2.nextOrder, readyAt := if k.pred = 0 then some s2.now else none }])))
    ∧ (∀ i op, ready → seq = s.ringRp → (kind, i, op) ∈ [(2, Instr.suspend, 0), (3, .resume, 1), (4, .endRec, 2)] →
      (∀ j ∈ events, j ≠ i → taken j s)
      ∧ (s.switchOf r = none ∨ s.now.toNat + 1048576 < stamp → refused i)
      ∧ ∀ w, s.switchOf r = some w → stamp ≤ s.now.toNat + 1048576 →
        let eff : Option Switch := match s.covered r with
          | none => some w
          | some true => some (if w = .suspended then .resuming T none else w)
          | some false => none
        ((eff = none ∨ ∃ v, eff = some v ∧ switchTo op v T (s.inGstop r) = none) → refused i)
        ∧ (∀ v w1, eff = some v → switchTo op v T (s.inGstop r) = some w1 →
            taken i (skipped { s with regions := s.regions.map (fun g => if g.num = r then { g with switch := w1 } else g) })))

/-- R392, R394, R410, R414: gang stops and resumes of a region. That an END which meets a non-replayable copy has the
rollback come first and stays pending is the model's (log 43). -/
def Obligations.GangEvents : Prop :=
  ∀ (s : State) (r : BitVec 16),
    let held : Prop := ∀ n ∈ s.hartsOf (s.subtree r), (s.getHart n).nonReplayable = false
    let due (t : Word) : Prop := t.toNat ≤ s.now.toNat
    (∀ w t, s.switchOf r = some w → w = .suspending t ∨ w = .gstopping t ∨ (∃ c, w = .ending t c) → ¬due t → exec (.gangStop r) s = .next s)
    ∧ (∀ w, s.switchOf r = some w → w = .running ∨ w = .suspended ∨ w = .gstopped none → exec (.gangStop r) s = .next s
        ∧ exec (.gangResume r) s = .next s ∧ exec (.gstopResume r) s = .next s)
    ∧ (s.switchOf r = none → exec (.gangStop r) s = .next s ∧ exec (.gangResume r) s = .next s ∧ exec (.gstopResume r) s = .next s)
    ∧ (∀ t, s.switchOf r = some (.suspending t) → due t → held → ∃ u, exec (.gangStop r) s = .next u
      ∧ (u.switchOf r = some .suspended ∨ u.switchOf r = none)
      ∧ ∀ n ∈ s.hartsOf [r], (s.getHart n).run = .running → (u.getHart n).run = .stopped .running ∨ (u.getHart n).run = .free)
    ∧ (∀ t, s.switchOf r = some (.suspending t) → due t → held → Childless s r → ∃ u, exec (.gangStop r) s = .next u
      ∧ (u.switchOf r = some .suspended →
        (∀ k, (s.seqr k).bound = true → (s.seqr k).region = r → (s.seqr k).state ≠ .closed → (s.seqr k).state ≠ .done →
            u.seqr k = { s.seqr k with state := .done, stat := .aborted, verdict := 4, arrivals := [] })
        ∧ (∃ g, u.region? r = some g ∧ g.saves.map (·.1) = s.hartsOf [r])
        ∧ ∀ n ∈ s.hartsOf [r], (s.getHart n).isStopped = false →
          (u.getHart n).copies = (s.getHart n).copies.map (fun p => (p.1, if p.2.taken = true ∧ p.2.st = .running then { p.2 with st := .held } else p.2))
          ∧ (∀ l ∈ u.locks, l.hart = some n → l.kind ≠ .source ∧ l.kind ≠ .dest ∧ ∀ p ∈ (s.getHart n).copies, p.2.taken = true →
              p.2.st = .running ∨ p.2.st = .queued → l.kind = .copySource ∨ l.kind = .copyDest → l.op ≠ p.2.op)
          ∧ (s.busWaits n = [] → (u.getHart n).cmds = ((s.getHart n).cmds.filter (fun c => !c.isGrid)).map (fun c =>
              if c.drained = 0 then { c with begun := false, kn := none, holds := false } else { c with holds := false }))
          ∧ (n < 1024 → ∀ op, (u.engine (n / 8)).tile ≠ some (n, op))))
    ∧ (∀ w t, s.switchOf r = some w → (∃ c, w = .ending t c) ∨ w = .gstopped (some t) ∨ (∃ v, w = .gresuming v (some t)) → due t → ¬held →
      ∃ u, exec (.gangStop r) s = .next u ∧ u.switchOf r = some w ∧ u.mem = s.mem ∧ (∀ n, u.getHart n = s.getHart n)
        ∧ ∃ n ∈ s.hartsOf (s.subtree r), (s.getHart n).nonReplayable = true ∧ ∃ q g c, (s.getHart n).region = some q
          ∧ s.region? q = some g ∧ (g.fdom, c) ∈ u.rollbacks)
    ∧ (∀ w t, s.switchOf r = some w → w = .suspending t ∨ w = .gstopping t → due t → ¬held → ∃ u, exec (.gangStop r) s = .next u
      ∧ u.switchOf r = some .running ∧ u.mem = s.mem ∧ (∀ n, u.getHart n = s.getHart n)
      ∧ ∃ n ∈ s.hartsOf (s.subtree r), (s.getHart n).nonReplayable = true ∧ ∃ q g c, (s.getHart n).region = some q
          ∧ s.region? q = some g ∧ (g.fdom, c) ∈ u.rollbacks)
    ∧ (∀ h : Hart, h.nonReplayable = true ↔ ∃ p ∈ h.copies, p.2.taken = true ∧ p.2.nonReplay = true ∧ (p.2.st = .running ∨ p.2.st = .held))
    ∧ (∀ w t, s.switchOf r = some w → (∃ c, w = .ending t c) ∨ w = .gstopped (some t) ∨ (∃ v, w = .gresuming v (some t)) → due t → held → Childless s r →
      ∃ u, exec (.gangStop r) s = .next u ∧ u.switchOf r = none ∧ (∀ n ∈ u.nodes, n.region ≠ r) ∧ (∀ l ∈ u.locks, l.region ≠ some r)
        ∧ (∀ p ∈ u.releases, p.what.region ≠ r) ∧ (∀ l ∈ u.lent, l.region ≠ r)
        ∧ (∀ k, (s.seqr k).bound = true → (s.seqr k).region = r → u.seqr k = Sequencer.reset)
        ∧ ∀ n ∈ s.hartsOf [r], (u.getHart n).run = .free ∧ (u.getHart n).node = none ∧ u.ownerOf n = 0xFFFF
          ∧ (u.getHart n).cmds = [] ∧ (u.getHart n).ops = [] ∧ (u.getHart n).comb = [] ∧ (u.getHart n).ovfq = []
          ∧ (∀ j, ((u.getHart n).slot j).taken = false) ∧ ∀ i, ((u.getHart n).post i).used = false)
    ∧ (∀ t n, s.switchOf r = some (.gstopping t) → due t → held → Childless s r → n ∈ s.hartsOf [r] → (s.getHart n).run = .running →
      (s.getHart n).level ≠ .M → ∃ u, exec (.gangStop r) s = .next u ∧ u.switchOf r = some (.gstopped none)
        ∧ (u.getHart n).run = .running ∧ (u.getHart n).back = some .running
        ∧ ∃ q ∈ (u.getHart n).irqs, q.cause = 0x13 ∧ q.val = BitVec.ofNat 64 (n + r.toNat * 2 ^ 16))
    ∧ (∀ t e, s.switchOf r = some (.resuming t e) →
      (¬due t → exec (.gangResume r) s = .next s)
      ∧ (∀ l ∈ s.lent, l.region = r → Childless s r → s.frameFree l.frame = false → exec (.gangResume r) s = .next s)
      ∧ ((∃ q ∈ (s.lineage r).tail, s.resumes q = true) → exec (.gangResume r) s = .next s)
      ∧ (∀ g, due t → Childless s r → s.region? r = some g → (∀ l ∈ s.lent, l.region ≠ r) → (∀ q ∈ (s.lineage r).tail, s.resumes q = false) →
          (∀ p ∈ g.saves.zipIdx, recordIntact r (gaOff g.saveA + 4096 * p.2) 4 p.1.2 s = (some true, s)) → ∃ u, exec (.gangResume r) s = .next u
          ∧ u.switchOf r = some (match e with | some e => .ending e false | none => .running)
          ∧ ∀ n ∈ s.hartsOf [r], ∀ w, (s.getHart n).run = .stopped w → (∀ v, w ≠ .stopped v) → (u.getHart n).run = w.again s.now
            ∧ (∀ p ∈ (u.getHart n).copies, p.2.taken = true → p.2.st ≠ .held)
            ∧ ((s.getHart n).recalled = [] → ∀ p ∈ (s.getHart n).copies, p.2.taken = true → p.2.st = .held ∨ p.2.st = .queued →
                ∃ l ∈ u.locks, l.hart = some n ∧ l.op = p.2.op ∧ l.kind = .copyDest)
            ∧ (n < 1024 → (s.getHart n).recalled = [] → ∀ c ∈ (s.getHart n).cmds, ∀ p ∈ c.lockSpans, p.1 < p.2.1 →
                ∃ l ∈ u.locks, l.hart = some n ∧ l.op = c.op ∧ l.lo = p.1 / 64 * 64 ∧ l.hi = (p.2.1 + 63) / 64 * 64 ∧ l.kind = p.2.2)))
    ∧ (∀ t e, s.switchOf r = some (.gresuming t e) →
      (¬due t → exec (.gstopResume r) s = .next s)
      ∧ (due t → Childless s r → ∃ u, exec (.gstopResume r) s = .next u
          ∧ u.switchOf r = some (match e with | some e => .ending e false | none => .running)
          ∧ ∀ n ∈ s.hartsOf [r], ∀ w, (s.getHart n).back = some w → (u.getHart n).run = w.again s.now ∧ (u.getHart n).back = none))
    ∧ (∀ (now : Word) (k : BitVec 2) (left : Word) (d : BitVec 5) (m : Bool),
        Run.again now (.timed k left d m) = .timed k (if k = 2 then left else now + left) d m
        ∧ Run.again now .running = .running ∧ Run.again now .parked = .parked)

/-- R23, R30, R104, R108, R155, R177, R201, R238, R330, R358, R368, R371, R396, R397, R402, R409, R419, R425, R426, R429: what srd reads. -/
def Obligations.SystemRegisterReads : Prop :=
  ∀ (s : State) (d : BitVec 5) (m : Bool),
    let h := s.hart
    let nat (n : Nat) : Word := BitVec.ofNat 64 n
    let rows (first : Nat) (l : List Word) : List (BitVec 12 × Word) := l.zipIdx.map (fun p => (BitVec.ofNat 12 (first + p.2), p.1))
    let reads (l : List (BitVec 12 × Word)) : Prop := ∀ p ∈ l, RunsX (.srd d p.1 m) s d p.2 4 m
    let traps (l : List (BitVec 12 × Word)) : Prop := ∀ p ∈ l, exec (.srd d p.1 m) s = .next (trap 0x02 (nat p.1.toNat) s)
    let dom := s.domain (if h.num < 1024 then h.num / 4 else 384 + (h.num - 1024))
    let anyone := rows 0x000 (bankWords h.level (h.bank h.level))
      ++ [(0x034, nat (0x0D20 + s.partRev.toNat * 2 ^ 16 + s.fwVer.toNat * 2 ^ 32)), (0x040, s.now), (0x041, h.icnt), (0x042, nat h.msent.toNat),
        (0x043, nat h.mrecv.toNat), (0x050, nat h.fxRound.toNat), (0x051, nat h.fxFlags.toNat),
        (0x052, nat (h.srSrc.toNat + if h.srLost = true then 2 ^ 8 else 0)), (0x053, h.srStep), (0x054, nat (2 * h.logb.toNat)),
        (0x055, nat h.logn.toNat), (0x056, nat h.logp.toNat), (0x063, 0), (0x070, h.cfg), (0x0B0, nat (h.msOvf.toNat * 2 ^ 18)),
        (0x0B1, nat (h.ovfq.length + (if h.msPend = true then 2 ^ 8 else 0) + h.msLost.toNat * 2 ^ 32)),
        (0x0B2, nat (h.gwRid.toNat + h.gwNext.toNat * 2 ^ 32)), (0x0C0, nat h.duty.toNat), (0x0C1, nat h.req.toNat),
        (0x0C2, nat (dom.point.toNat + dom.cap.toNat * 2 ^ 8)), (0x0C3, nat h.rcnt.toNat), (0x0E1, s.wearWord h.num)]
    let supervisor := rows 0x018 (bankWords .U h.bankU)
      ++ [(0x021, h.waitingBits), (0x060, if h.scout = true then 1 else 0), (0x061, nat h.fcnt.toNat), (0x062, nat h.scnt.toNat),
        (0x0D0, s.csTab), (0x0D1, s.csOvf), (0x0D2, s.csOvfsz), (0x0D3, s.csOvfuse), (0x0E0, s.evFw)]
    let machine := rows 0x010 (bankWords .S h.bankS)
      ++ [(0x020, nat h.deleg.toNat), (0x0E2, nat s.rgAsel.toNat), (0x0E3, s.rgAlias[s.rgAsel.toNat])]
    reads anyone
    ∧ (h.num < 1024 → reads [(0x030, nat (h.num + s.nodeId.toNat * 2 ^ 16 + h.num / 256 * 2 ^ 20 + h.num / 32 * 2 ^ 24 + h.num / 8 * 2 ^ 32
        + h.num / 4 * 2 ^ 40))])
    ∧ (1024 ≤ h.num → h.num < 1092 → reads [(0x030, nat (h.num + (if h.num < 1088 then 1 else 2) * 2 ^ 11 + s.nodeId.toNat * 2 ^ 16
        + (if h.num < 1088 then (h.num - 1024) / 16 else h.num - 1088) * 2 ^ 20 + 0x1F * 2 ^ 24 + 0x7F * 2 ^ 32 + 0xFF * 2 ^ 40))])
    ∧ (let quad (q : Nat) : Bool := !s.removedQuads.contains q && !s.removedFrames.contains (q / 2)
       let frame (g : Nat) : Bool := !s.removedFrames.contains g && !(s.removedQuads.contains (2 * g) && s.removedQuads.contains (2 * g + 1))
       let quads := ((List.range 256).filter quad).length
       reads [(0x031, nat (4 * quads + quads * 2 ^ 16 + ((List.range 128).filter frame).length * 2 ^ 32))]
       ∧ ∀ p ∈ [((0x032 : BitVec 12), 0), (0x033, 64)], ∃ w, RunsX (.srd d p.1 m) s d w 4 m
          ∧ ∀ i < 64, w.getLsbD i = true ↔ frame (p.2 + i) = true)
    ∧ (∀ i : BitVec 5, reads [(0x080 + i.setWidth 12, if h.num < 1024 then assocGet s.bankFmt (h.num / 4 * 32 + i.toNat) 0 else 0)])
    ∧ (∀ i : BitVec 4, reads [(0x0A0 + i.setWidth 12, s.cgPat[i.toNat])])
    ∧ (h.level ≠ .U → reads supervisor) ∧ (h.level = .U → traps supervisor)
    ∧ (h.level = .M → reads machine) ∧ (h.level ≠ .M → traps machine)
    ∧ (∀ c : BitVec 8, c.toNat < 64 → (h.waitingBits.getLsbD c.toNat = true ↔ ∃ q ∈ h.irqs, q.cause = c))

/-- R9, R103, R104, R108, R155, R177, R201, R202, R238, R330, R358, R368, R371, R396, R397, R402, R425, R426: what swr writes. -/
def Obligations.SystemRegisterWrites : Prop :=
  ∀ (s : State) (d : BitVec 5) (m : Bool),
    let h := s.hart
    let v := s.x d
    let n := v.toNat
    let swr (k : Nat) : Instr := .swr d (BitVec.ofNat 12 k) m
    let on (g : Hart) : State := { s with hart := g }
    let bank (first : Nat) (l : Level) : List (List Instr × Nat × State) :=
      (bankAfter l (h.bank l) v).zipIdx.map (fun p => ([swr (first + p.2)], first + p.2, on (h.setBank l p.1)))
    let sets (l : List (List Instr × Nat × State)) : Prop := ∀ p ∈ l, ∀ i ∈ p.1, Sets i s p.2.2 m
    let traps (c : BitVec 8) (l : List (List Instr × Nat)) : Prop := ∀ p ∈ l, ∀ i ∈ p.1, exec i s = .next (trap c (BitVec.ofNat 64 p.2) s)
    let numbers (l : List (List Instr × Nat × State)) : List (List Instr × Nat) := l.map (fun p => (p.1, p.2.1))
    let anyone := bank 0 h.level
      ++ [([swr 0x050], 0x050, on { h with fxRound := if 4 < n % 8 then 0 else BitVec.ofNat 3 n }),
        ([swr 0x051], 0x051, on { h with fxFlags := BitVec.ofNat 5 n }),
        ([swr 0x052], 0x052, on { h with srSrc := BitVec.ofNat 2 n, srLost := h.srLost && !v.getLsbD 8 }),
        ([swr 0x053], 0x053, on { h with srStep := v }),
        ([swr 0x054], 0x054, on { h with logb := BitVec.ofNat 17 (n / 2) }),
        ([swr 0x055], 0x055, on { h with logn := BitVec.ofNat 17 n }),
        ([swr 0x056], 0x056, on { h with logp := BitVec.ofNat 17 n }),
        ([swr 0x0B1], 0x0B1, on { h with msPend := h.msPend && !v.getLsbD 8, msLost := BitVec.ofNat 32 (n / 2 ^ 32) }),
        ([swr 0x0B2], 0x0B2, on { h with gwRid := BitVec.ofNat 16 n, gwNext := BitVec.ofNat 32 (n / 2 ^ 32) })]
    let supervisor := bank 0x018 .U
      ++ [([swr 0x060], 0x060, on { h with scout := v.getLsbD 0 }), ([swr 0x061], 0x061, on { h with fcnt := BitVec.ofNat 32 n }),
        ([swr 0x062], 0x062, on { h with scnt := BitVec.ofNat 32 n }),
        ([swr 0x0D0, .csTab 0 d m], 0x0D0, { s with csTab := v &&& 0x7FFF800000#64 }),
        ([swr 0x0D1, .csTab 1 d m], 0x0D1, { s with csOvf := v &&& 0x7FFFFF0000#64 }),
        ([swr 0x0D2, .csTab 2 d m], 0x0D2, { s with csOvfsz := v &&& 0xFFFFFF#64 })]
      ++ (List.range 16).map (fun i => ([swr (0x0A0 + i), .cgPat (BitVec.ofNat 4 i) d m], 0x0A0 + i,
        { s with cgPat := s.cgPat.set (BitVec.ofNat 4 i).toNat (v &&& 0x3F07#64) }))
    let machine := bank 0x010 .S
      ++ [([swr 0x020], 0x020, on { h with deleg := (BitVec.ofNat 32 n &&& 0x0003FFFE#32) ||| 0x1000#32 }),
        ([swr 0x063, .tkKey d m], 0x063, { s with tkKey := v }),
        ([swr 0x0B0], 0x0B0, on { h with msOvf := BitVec.ofNat 31 (n / 2 ^ 18) }),
        ([swr 0x0E0], 0x0E0, { s with evFw := v }),
        ([swr 0x0E2], 0x0E2, { s with rgAsel := BitVec.ofNat 6 n }),
        ([swr 0x0E3, .rgAlias d m], 0x0E3, { s with rgAlias := s.rgAlias.set s.rgAsel.toNat (v &&& 0x80000000FFFFFFFF#64) })]
    sets anyone
    ∧ (h.level ≠ .U → sets supervisor) ∧ (h.level = .U → traps 0x02 (numbers supervisor))
    ∧ (h.level = .M → sets machine) ∧ (h.level ≠ .M → traps 0x02 (numbers machine))
    ∧ traps 0x02 [([swr 0x070, .mxCfg d m], 0x070)]
    ∧ (∀ k ∈ [0x021, 0x030, 0x031, 0x032, 0x033, 0x034, 0x040, 0x041, 0x042, 0x043, 0x0C0, 0x0C1, 0x0C2, 0x0C3, 0x0D3, 0x0E1],
        RunsTo (swr k) s (s.hart.pc + 4) m)
    ∧ RunsTo (.csTab 3 d m) s (s.hart.pc + 4) m
    ∧ (∀ k : BitVec 5, ∀ i ∈ [swr (0x080 + k.toNat), .bkFmt k d m],
      let core := h.num / 4 * 4 + k.toNat / 8
      let owned : Prop := h.level = .M ∨ ∃ r, h.region = some r ∧ r = s.ownerOf core ∧ r ≠ 0xFFFF
      let stored : Word := BitVec.ofNat 64 ((if 8 < n % 16 then 0 else n % 16) + (if 4 < n / 16 % 8 then 0 else n / 16 % 8) * 16 + n / 256 % 2 * 256)
      (1024 ≤ h.num → RunsTo i s (s.hart.pc + 4) m)
      ∧ (h.num < 1024 → ¬owned → exec i s = .next (trap 0x05 (BitVec.ofNat 64 (0x080 + k.toNat)) s))
      ∧ (h.num < 1024 → owned → Sets i s { s with
          bankFmt := (assocSet s.bankFmt (h.num / 4 * 32 + k.toNat) stored).filter (fun p => p.2 != 0) } m))

/-- R147, R164, R408, R410 to R412, R419, R421, R423, R424: the system instructions. Code 1 of ckpt without a region is the model's choice. -/
def Obligations.SystemInstructions : Prop :=
  ∀ (s : State) (d a b : BitVec 5) (m : Bool),
    let h := s.hart
    let blocked (u : State) : State := { u with hart := { u.hart with run := .blocked } }
    let wakes : Prop := ∃ q ∈ h.irqs, (h.level = .M → q.cause ≠ 0x0C ∧ q.cause ≠ 0x12) ∧ (h.level = .S → q.cause ≠ 0x12)
    let r : BitVec 16 := BitVec.ofNat 16 (s.x a).toNat
    let lived : Prop := (s.region? r).isSome = true
    let settled : Prop := (∀ q ∈ s.subtree r, s.switchOf q = some .running) ∧ s.covered r = none ∧ s.inGstop r = false
    let rb : BitVec 16 := BitVec.ofNat 16 (s.x b).toNat
    let kind := (s.x b).toNat / 2 ^ 16 % 4
    let migrate := (s.x b).getLsbD 18
    let page := (s.x a).toNat % 2 ^ 49 / 2 ^ 16
    let v : Inval := ⟨kind, rb, page⟩
    let scope_ : Prop := h.level = .M ∨ ∃ q, h.region = some q ∧ q ∈ s.lineage rb
    let invalid : Prop := kind = 3 ∨ kind = 2 ∧ h.level ≠ .M ∨ migrate = true ∧ kind ≠ 0
    let pinned : Prop := migrate = true ∧ ∃ p ∈ s.pins, p.region = rb ∧ p.node = s.nodeId ∧ p.page = page ∧ s.now.toNat < p.at_.toNat + 10000000
    let hits (e : TlbEntry) : Bool := match kind with
      | 0 => e.node == s.nodeId && e.region == rb && decide (e.base ≤ page * 65536) && decide (page * 65536 < e.base + 2 ^ e.bits)
      | 1 => e.region == rb
      | _ => true
    let old : Prop := (∃ k ∈ s.harts, k.underOld v (s.tlbAll.filter hits) s.nodeId = true)
      ∨ kind ≠ 0 ∧ ∃ e ∈ s.far, e.ans = none ∧ (kind = 2 ∨ (s.getHart e.hart).region = some rb)
    let taken (q : Holder) : Prop := kind = 2 ∨ q.region = rb ∧ (kind = 0 → q.base ≤ page * 65536 ∧ page * 65536 < q.base + 2 ^ q.bits)
    let holds (i : Nat) : Prop := ∃ q ∈ s.holders, taken q ∧ q.nodes.getLsbD i = true
    let kept (k k' : Hart) : Prop := k'.num = k.num ∧ k'.dtlb = k.dtlb.filter (fun e => !hits e) ∧ k'.itlb = k.itlb.filter (fun e => !hits e)
    let uses : List Word := ((s.thrashOf rb page).elim [] (·.uses)).filter (fun t => decide (s.now.toNat ≤ t.toNat + 1000000))
    (h.level = .U → exec (.wfi m) s = .next (trap 0x02 (word3F 10 0 0 0 m) s))
    ∧ (h.level ≠ .U → wakes → RunsTo (.wfi m) s (h.pc + 4) m)
    ∧ (h.level ≠ .U → ¬wakes → exec (.wfi m) s = .next { s with hart := { h with run := .wfi m, idleSince := s.now } })
    ∧ (h.level ≠ .M → exec (.gstop d a m) s = .next (trap 0x02 (word3F 11 0 a.toNat d.toNat m) s))
    ∧ (h.level = .M → ¬lived → RunsX (.gstop d a m) s d (coded 5) 4 m)
    ∧ (h.level = .M → lived → ¬settled → RunsX (.gstop d a m) s d (coded 6) 4 m)
    ∧ (h.level = .M → lived → settled → ∃ t, exec (.gstop d a m) s = .next t ∧ WritesX s t d (s.now + 64) ∧ Ends s t (h.pc + 4) m
        ∧ t.regions = s.regions.map (fun g => if g.num = r then { g with switch := .gstopping (s.now + 64) } else g)
        ∧ t = { s with hart := mayX h t.hart, regions := t.regions } ∧ SameBytes s t)
    ∧ (h.level = .U → exec (.tlbinv d a b m) s = .next (trap 0x02 (word3F 12 b.toNat a.toNat d.toNat m) s))
    ∧ (h.level ≠ .U → (invalid → RunsX (.tlbinv d a b m) s d (coded 2) 4 m)
      ∧ (¬invalid → (s.region? rb).isSome = false ∨ ¬scope_ → RunsX (.tlbinv d a b m) s d (coded 5) 4 m)
      ∧ (¬invalid → (s.region? rb).isSome = true → scope_ → pinned → RunsX (.tlbinv d a b m) s d (coded 6) 4 m)
      ∧ (¬invalid → (s.region? rb).isSome = true → scope_ → ¬pinned → old → ∃ t, exec (.tlbinv d a b m) s = .next t ∧ t.hart.run = .blocked
          ∧ t.hart.pc = h.pc ∧ t.tlb = s.tlb ∧ t.tickets = s.tickets ∧ SameBytes s t)
      ∧ (¬invalid → (s.region? rb).isSome = true → scope_ → ¬pinned → ¬old → ∃ t k, exec (.tlbinv d a b m) s = .next t
          ∧ WritesX s t d (BitVec.ofNat 64 s.nextTicket.toNat) ∧ Ends s t (h.pc + 4) m
          ∧ t.tlb = s.tlb.filter (fun p => !hits p.2) ∧ kept h t.hart ∧ List.Forall₂ kept s.others t.others
          ∧ (∀ q, q ∈ t.holders ↔ q ∈ s.holders ∧ ¬taken q)
          ∧ t.tickets = s.tickets ++ [k] ∧ k.num = s.nextTicket ∧ t.nextTicket = (if s.nextTicket.toNat + 1 = 2 ^ 32 then 1 else s.nextTicket + 1)
          ∧ (∀ i < 16, (k.waiting.getLsbD i = true ↔ holds i ∧ 0 < s.liveLanes (BitVec.ofNat 4 i))
              ∧ (k.dead.getLsbD i = true ↔ holds i ∧ s.liveLanes (BitVec.ofNat 4 i) = 0)
              ∧ (k.waiting.getLsbD i = true → ∃ p, (⟨BitVec.ofNat 4 i, p.cls, p⟩ : SendItem) ∈ t.sendq ∧
                  (kind ≠ 0 → p = .invalidate (BitVec.ofNat 4 i) s.nextTicket (BitVec.ofNat 2 kind) rb 0 0)
                  ∧ (kind = 0 → (∀ q ∈ s.holders, taken q → q.nodes.getLsbD i = true → q.bits ≤ 16) →
                    p = .invalidate (BitVec.ofNat 4 i) s.nextTicket 0 rb (BitVec.ofNat 49 (page * 65536)) 16)
                  ∧ (kind = 0 → (∃ q ∈ s.holders, taken q ∧ q.nodes.getLsbD i = true ∧ 16 < q.bits) →
                    ∃ q ∈ s.holders, taken q ∧ q.nodes.getLsbD i = true
                    ∧ (∀ q' ∈ s.holders, taken q' → q'.nodes.getLsbD i = true → q'.bits ≤ q.bits)
                    ∧ p = .invalidate (BitVec.ofNat 4 i) s.nextTicket 0 rb (BitVec.ofNat 49 q.base) (BitVec.ofNat 6 q.bits))))
          ∧ (migrate = false → t.pins = s.pins ∧ t.thrash = s.thrash ∧ SameBytes s t)
          ∧ (migrate = true → uses.length < 4 → t.pins = s.pins ∧ SameBytes s t ∧ t.thrashOf rb page = some ⟨rb, s.nodeId, page, uses ++ [s.now]⟩)
          ∧ (migrate = true → 4 ≤ uses.length → t.pins = s.pins ++ [⟨rb, s.nodeId, page, s.now⟩]
            ∧ t.thrashOf rb page = some ⟨rb, s.nodeId, page, []⟩)))
    ∧ (h.level = .U → exec (.pginvack d a m) s = .next (trap 0x02 (word3F 13 0 a.toNat d.toNat m) s))
    ∧ (h.level ≠ .U → (s.nextTicket.toNat ≤ (s.x a).toNat → RunsX (.pginvack d a m) s d (coded 7) 4 m)
      ∧ ((s.x a).toNat < s.nextTicket.toNat → s.tickets.find? (fun k => k.num.toNat == (s.x a).toNat) = none →
          RunsX (.pginvack d a m) s d 0x10000 4 m)
      ∧ (∀ k, (s.x a).toNat < s.nextTicket.toNat → s.tickets.find? (fun k => k.num.toNat == (s.x a).toNat) = some k →
          (k.waiting ≠ 0 → exec (.pginvack d a m) s = .next (blocked s))
          ∧ (k.waiting = 0 → ∃ t, exec (.pginvack d a m) s = .next t ∧ WritesX s t d (BitVec.ofNat 64 (k.dead.toNat + 2 ^ 16))
              ∧ Ends s t (h.pc + 4) m ∧ t.tickets = s.tickets.filter (fun q => q.num != k.num)
              ∧ t = { s with hart := mayX h t.hart, tickets := t.tickets } ∧ SameBytes s t)))
    ∧ (∃ t, exec (.pwreq d a m) s = .next t ∧ WritesX s t d (s.pwOp h.num) ∧ Ends s t (h.pc + 4) m ∧ t.hart.req = BitVec.ofNat 3 (s.x a).toNat
        ∧ Only (fun o n => { mayX o n with req := n.req }) s t)
    ∧ (h.region.bind s.region? = none → RunsX (.ckpt d a m) s d (coded 1) 4 m)
    ∧ (∀ g, h.region.bind s.region? = some g →
      let logs : Prop := g.ckpt.toNat % 2 = 1 ∧ g.ckpt.toNat / 2 ^ 40 ≠ 0
      (¬logs → RunsX (.ckpt d a m) s d (coded 1) 4 m)
      ∧ (∀ c ad s1, logs → readDesc g.num (s.x a) s = .fault c ad s1 → exec (.ckpt d a m) s = .next (trap c ad s1))
      ∧ (∀ s1, logs → readDesc g.num (s.x a) s = .wait s1 → exec (.ckpt d a m) s = .next s1 ∧ s1.hart.run = .blocked ∧ s1.hart.pc = h.pc)
      ∧ (∀ n s1, logs → readDesc g.num (s.x a) s = .got n true s1 → Answers (.ckpt d a m) s s1 d (coded 2) m)
      ∧ (∀ n s1, logs → readDesc g.num (s.x a) s = .got n false s1 → s1.hart.ops ≠ [] → ∃ t, exec (.ckpt d a m) s = .next t
          ∧ t.hart.run = .blocked ∧ t.hart.pc = h.pc ∧ ∀ e ∈ t.hart.comb, e.draining = true)
      ∧ (∀ n s1, logs → readDesc g.num (s.x a) s = .got n false s1 → s1.hart.ops = [] → ∃ t, exec (.ckpt d a m) s = .next t
          ∧ t.hart.run = .ckpt (s1.now + 200) d m ∧ t.hart.pc = s1.hart.pc ∧ t.restarts = assocSet s1.restarts s1.hart.num n)
      ∧ (∀ T n, h.run = .ckpt T d m → s.restarts.find? (fun p => p.1 == h.num) = some (h.num, n) →
          (s.now.toNat < T.toNat → exec .checkpointTick s = .next s)
          ∧ (T.toNat ≤ s.now.toNat → ∃ t, exec .checkpointTick s = .next t ∧ Ends s t (h.pc + 4) m
              ∧ (s.intervalOf (some g.num) = none → WritesX s t d 0)
              ∧ (∀ i, s.intervalOf (some g.num) = some i → WritesX s t d (BitVec.ofNat 64 (4096 + 128 * i.log.length
                  + if i.exhausted = true then 2 ^ 62 else 0)))
              ∧ t.intervals = s.intervals.filter (fun j => j.dom != g.fdom)
                  ++ [⟨g.fdom, g.num, g.ckpt.toNat / 2 ^ 16 % 2 ^ 23 * 65536, g.ckpt.toNat / 2 ^ 40 * 65536, [], false, n⟩])))
    ∧ ((∀ T e c, h.run ≠ .ckpt T e c) → exec .checkpointTick s = .next s)

/-- R13, R71, R154, R396 to R401, R405, R406, R410: taking traps and returning from them. That eret waits for own unperformed writes of the
record is the model's (log 51), and so are its locks and the changed INFO words (log 24). -/
def Obligations.TrapsAndReturns : Prop :=
  ∀ (s : State) (a : BitVec 5) (m : Bool),
    let h := s.hart
    let quiet : Prop := h.outstanding = 0 ∧ h.faults = []
    let b := h.bank h.level
    let returned (u t : State) : Prop := t.hart.pc = b.epc ∧ t.hart.level = (if h.level = .U then .U else b.ppl)
      ∧ t.hart.bank h.level = { b with ie := b.pie, tip := false } ∧ (∀ l, l ≠ h.level → t.hart.bank l = u.hart.bank l)
      ∧ t = { u with hart := { u.hart with pc := t.hart.pc, level := t.hart.level, run := t.hart.run, cycle := t.hart.cycle, icnt := t.hart.icnt, bankU := t.hart.bankU, bankS := t.hart.bankS, bankM := t.hart.bankM } }
      ∧ t.hart.icnt = (if h.level = .M then u.hart.icnt else u.hart.icnt + 1)
    let record := memKey s.nodeId h.num recordOff
    let busy : Prop := ∃ o ∈ h.ops, anyMeet o.writes [(record, record + 0x8A0)] = true
    let count := min 64 (leNat (s.mem.bytes record 1))
    let leaving := ((List.range count).filter (fun i => (recordEntry i s).same && !(gaNode (recordEntry i s).addr == s.nodeId
      && gaCore (recordEntry i s).addr == h.num))).length
    let first (w : Run) : Run := if m = false ∨ quiet then w else match w with
      | .running => .parked
      | .timed k left e _ => .timed k left e true
      | w => w
    let runs (t : State) : Prop := t.hart.run = if m = true ∧ (t.hart.outstanding ≠ 0 ∨ t.hart.faults ≠ []) then .parked else .running
    (∀ (c : BitVec 8) (val : Word), (¬quiet → trap c val s = { s with hart := { h with run := .parkTrap c h.pc h.pc val } })
      ∧ (quiet → TakesTrap s (trap c val s) c h.pc h.pc val))
    ∧ (¬quiet → exec (.sys a 0 m) s = .next { s with hart := { h with run := .parkTrap 0x10 h.pc (h.pc + 4) (s.x a) } }
        ∧ exec (.sys a 1 m) s = .next { s with hart := { h with run := .parkTrap 0x11 h.pc h.pc (s.x a) } })
    ∧ (quiet → (∃ t, exec (.sys a 0 m) s = .next t ∧ TakesTrap s t 0x10 h.pc (h.pc + 4) (s.x a))
        ∧ ∃ t, exec (.sys a 1 m) s = .next t ∧ TakesTrap s t 0x11 h.pc h.pc (s.x a))
    ∧ (b.cause ≠ 0x13 → b.cause ≠ 0x07 ∨ b.async = true → ∃ t, exec (.eret m) s = .next t ∧ returned s t ∧ runs t)
    ∧ (b.cause = 0x07 → b.async = false → busy → ∃ t, exec (.eret m) s = .next t ∧ t.hart.run = .blocked ∧ (∀ e ∈ t.hart.comb, e.draining = true)
        ∧ t.hart.comb.length = h.comb.length
        ∧ t = { s with hart := { h with run := t.hart.run, comb := t.hart.comb } })
    ∧ (∀ c ad, b.cause = 0x07 → b.async = false → ¬busy → reissueLock s = some (c, ad) → exec (.eret m) s = .next (trap c ad s))
    ∧ (b.cause = 0x07 → b.async = false → ¬busy → reissueLock s = none →
        (64 < h.entries + count → exec (.eret m) s = .next { s with hart := { h with run := if h.outstanding = 0 then .parkTrap 7 h.pc h.pc 0 else .blocked } })
        ∧ (h.entries + count ≤ 64 → 64 < h.replySlots + leaving → exec (.eret m) s = .next { s with hart := { h with run := .blocked } }))
    ∧ (b.cause = 0x07 → b.async = false → ¬busy → reissueLock s = none → h.entries + count ≤ 64 → h.replySlots + leaving ≤ 64 → ∃ t, exec (.eret m) s = .next t ∧ returned (reissue s) t ∧ runs t)
    ∧ (b.cause = 0x13 → h.back = none → ∃ t, exec (.eret m) s = .next t ∧ returned s t ∧ runs t)
    ∧ (∀ was, b.cause = 0x13 → h.back = some was → h.region = none → ∃ t, exec (.eret m) s = .next t ∧ t.hart.run = .stopped (first was)
        ∧ t.hart.gstopEret = true ∧ t.hart.pc = b.epc ∧ t.hart.level = (if h.level = .U then .U else b.ppl))
    ∧ (∀ r, b.cause = 0x13 → h.back ≠ none → h.region = some r → ∃ t, exec (.eret m) s = .next t ∧ t.hart.gstopEret = true
        ∧ t.hart.pc = b.epc ∧ (∃ was, h.back = some was ∧ t.hart.run = .stopped (first was) ∧ t.hart.back = some (first was))
        ∧ ∀ g ∈ t.regions, g ∈ s.regions ∨ ∃ t0 e, g.switch = .gresuming t0 e ∧ t0 = s.now + 64)
    ∧ (let addr := leWord (s.mem.bytes (record + 0xA0) 8)
       let info := leWord (s.mem.bytes (record + 0xA8) 8)
       let sn : BitVec 3 := BitVec.ofNat 3 (info.toNat / 2 ^ 24)
       let size := 2 ^ (info.toNat / 2 ^ 21 % 4)
       let dest : BitVec 5 := BitVec.ofNat 5 (info.toNat / 2 ^ 16)
       let lock := lockHit s addr.toNat (addr.toNat + size) false sn
       (s.mem.bytes record 1 = [0] → reissue s = s ∧ reissueLock s = none)
       ∧ (s.mem.bytes record 1 = [1] → h.recInfo.head? = some info → info.toNat / 2 ^ 27 % 4 = 0 →
          (lock ≠ 0 → reissueLock s = some (lock, addr)) ∧ (lock = 0 → reissueLock s = none)
          ∧ IssuesLoad s (reissue s) sn (.load addr size (info.getLsbD 23) dest) [(addr.toNat, addr.toNat + size)]
              (.xval dest (extend size (info.getLsbD 23) (leNat (bufferBytes s addr.toNat size)))))
       ∧ (s.mem.bytes record 1 = [1] → h.recInfo.head? ≠ some info → info.toNat / 2 ^ 27 % 4 ≠ 2 → reissueLock s = none
          ∧ ∃ v, (reissue s).hart.rets = h.rets ++ [⟨h.nextOp, sn, .xval dest v, none, []⟩] ∧ (reissue s).hart.ops = h.ops
            ∧ reissue s = { s with
                hart := { h with rets := (reissue s).hart.rets, nextOp := h.nextOp + 1 }
                freeCtr := (reissue s).freeCtr }))

/-- R63, R68, R71, R134 to R136, R151, R339, R398 to R400, R408: what happens to a hart between instructions; R153, R155: the fault record and the scout
pass. That a copy's handler without lpad 0 traps with 0x09 is the model's (log 37), the fetch of the handler that faults too (log 82), and
which entry makes the pass run (log 64). -/
def Obligations.InterruptsAndWaits : Prop :=
  ∀ (s : State) (d : BitVec 5) (m : Bool) (T : Word),
    let h := s.hart
    let issues : Prop := (h.run = .running ∨ h.run = .blocked) ∧ s.present h.num = true ∧ h.duty ≠ 0 ∧ ∀ r, h.region = some r → s.stopsNow r = false
    let level (c : BitVec 8) : Level := if c = 0x0C then .S else if c = 0x12 then .U else .M
    let rank (l : Level) : Nat := match l with | .U => 0 | .S => 1 | .M => 2
    let admits (c : BitVec 8) : Prop := rank h.level < rank (level c) ∨ h.level = level c ∧ (h.bank (level c)).ie = true
    let before : List (BitVec 8) := [0x15, 0x14, 0x13, 0x0C, 0x12]
    let boundary (q : Irq) : State := { s with
      hart := { h with irqs := h.irqs.erase q }
      tlbFaults := s.tlbFaults.filter (fun f => f.ask.hart != h.num) }
    let restsWith (k : BitVec 2) : Prop := h.run = .timed k T d m
    let left (u : State) : State := { u with far := u.far.filter (fun f => !(f.hart == u.hart.num && (f.use == .block || f.use == .text))) }
    (¬issues → exec .instructionFetch s = .next s)
    ∧ (issues → (∀ i len bits st, fetchAt h.pc s = .got i len bits st → exec .instructionFetch s = .next st)
      ∧ (∀ bits st, fetchAt h.pc s = .illegal bits st → exec .instructionFetch s = .next (trap 0x01 bits st))
      ∧ (∀ c ad st, fetchAt h.pc s = .fault c ad st → exec .instructionFetch s = .next (trap c ad st))
      ∧ (∀ st, fetchAt h.pc s = .wait st → exec .instructionFetch s = .next { st with hart := { st.hart with run := .blocked } }))
    ∧ (h.outstanding ≠ 0 ∨ h.resuming = true ∧ h.faults.length < 64 → exec .parkEnd s = .next s)
    ∧ (h.resuming = true ↔ (h.recalled ≠ [] ∨ h.holdTo ≠ 0 ∧ h.back = none) ∧ (h.back = none ∨ h.holdTo = 0) ∧ ∀ w, h.run ≠ .stopped w)
    ∧ (h.outstanding = 0 → h.resuming = false → h.run = .parked → h.faults = [] → exec .parkEnd s = .next { s with hart := { h with run := .running } })
    ∧ (∀ c pc epc val, h.outstanding = 0 → h.resuming = false → h.run = .parkTrap c pc epc val → h.faults = [] →
      (c ≠ 7 → ∃ t, exec .parkEnd s = .next t ∧ TakesTrap s t c pc epc val)
      ∧ (c = 7 → exec .parkEnd s = .next { s with hart := { h with run := .running } }))
    ∧ (∀ f rest at_, h.outstanding = 0 → h.resuming = false ∨ 64 ≤ h.faults.length → h.faults = f :: rest → (h.run = .parked ∧ at_ = h.pc ∨ ∃ c epc val, h.run = .parkTrap c at_ epc val) →
      ∃ t, exec .parkEnd s = .next t ∧ TakesTrap (let u := writeRecord at_ s; { u with hart := { u.hart with faults := [] } }) t 0x07 f.pc at_ f.addr)
    ∧ ((h.nextIrq = none ∨ h.run ≠ .running) → exec .interruptTaken s = .next s)
    ∧ (∀ q, h.nextIrq = some q → q ∈ h.irqs ∧ q.cause ∈ before ∧ admits q.cause
      ∧ ∀ p ∈ h.irqs, p.cause ∈ before → admits p.cause → before.idxOf q.cause ≤ before.idxOf p.cause)
    ∧ (h.nextIrq = none → ∀ p ∈ h.irqs, p.cause ∈ before → ¬admits p.cause)
    ∧ (∀ q, h.run = .running → h.nextIrq = some q → q.cause ≠ 0x12 → ∃ t, exec .interruptTaken s = .next t
      ∧ Enters (left (boundary q)) t (level q.cause) q.cause true h.pc h.pc q.val (h.bank (level q.cause)).vec)
    ∧ (∀ q lm len bits, h.run = .running → h.nextIrq = some q → q.cause = 0x12 →
      let s1 := boundary q
      (∀ u, fetchAt q.handler s1 = .got (.lpad 0 lm) len bits u → ∃ t, exec .interruptTaken s = .next t ∧ t.hart.pc = q.handler
          ∧ t.hart.level = .U ∧ t.hart.bankU.cause = 0x12 ∧ t.hart.bankU.async = true ∧ t.hart.bankU.epc = BitVec.ofNat 64 (u.hart.pc.toNat / 2 * 2)
          ∧ t.hart.bankU.val = q.val ∧ t.hart.bankU.ie = false ∧ t.hart.bankU.pie = u.hart.bankU.ie ∧ t.hart.bankU.tip = true
          ∧ (t.hart.slot q.slot).taken = false ∧ ∀ i, t.hart.acq[BitVec.toNat (w := 3) i] = u.now)
      ∧ (∀ j u, fetchAt q.handler s1 = .got j len bits u → (∀ mm, j ≠ .lpad 0 mm) → exec .interruptTaken s = .next (left (trap 0x09 q.handler u)))
      ∧ (∀ bits u, fetchAt q.handler s1 = .illegal bits u → exec .interruptTaken s = .next (left (trap 0x09 q.handler u)))
      ∧ (∀ c ad u, fetchAt q.handler s1 = .fault c ad u → exec .interruptTaken s = .next (left (trap c q.handler u)))
      ∧ (∀ u, fetchAt q.handler s1 = .wait u → exec .interruptTaken s = .next { u with hart := { u.hart with irqs := q :: u.hart.irqs } }))
    ∧ (∀ k, restsWith k → (s.now.toNat < T.toNat → exec .waitDeadline s = .next s)
      ∧ (T.toNat ≤ s.now.toNat → RunsX .waitDeadline s d (if k = 1 then 0 else s.now) 4 m))
    ∧ ((∀ k t e c, h.run ≠ .timed k t e c) → exec .waitDeadline s = .next s ∧ exec .sleepWakeEvent s = .next s)
    ∧ (restsWith 1 → (∃ q ∈ h.irqs, admits q.cause) → RunsX .sleepWakeEvent s d 1 4 m)
    ∧ (restsWith 1 → (∀ q ∈ h.irqs, ¬admits q.cause) → exec .sleepWakeEvent s = .next s)
    ∧ (h.run = .wfi m → (∃ q ∈ h.irqs, rank h.level ≤ rank (level q.cause)) → RunsTo .wfiWake s (h.pc + 4) m)
    ∧ (h.run = .wfi m → (∀ q ∈ h.irqs, rank (level q.cause) < rank h.level) → exec .wfiWake s = .next s)
    ∧ (∀ epc : Word, Inv s → s.intervals = [] → h.num < 1092 →
      let u := writeRecord epc s
      let fs := h.faults.take 64
      let pages := ((fs.flatMap (·.pages)).eraseDups).take 17
      let scouts : Prop := h.scout = true ∧ ∃ f ∈ fs, f.cause = 0x04
      let found : List Word := if scouts then (scoutPages epc pages s).1 else []
      let base := memKey s.nodeId h.num 0x3F000
      let dword (o : Nat) : Word := leWord (u.mem.bytes (base + o) 8)
      dword 0 = BitVec.ofNat 64 (fs.length + (pages.length + found.length) * 2 ^ 8 + if scouts then 2 ^ 16 else 0) ∧ dword 8 = 0
      ∧ (∀ (i : Nat) (p : Word), pages[i]? = some p → dword (0x10 + 8 * i) = if ∃ f ∈ fs, f.kind = 1 ∧ p ∈ f.pages then p ||| 2 else p)
      ∧ (∀ (i : Nat) (p : Word), found[i]? = some p → dword (0x10 + 8 * (pages.length + i)) = p ||| 1)
      ∧ (∀ (i : Nat) (f : FaultEntry), fs[i]? = some f → dword (0xA0 + 32 * i) = f.addr
          ∧ dword (0xA0 + 32 * i + 8) = BitVec.ofNat 64 (f.cause.toNat + f.reason.toNat * 2 ^ 8 + f.dest.toNat * 2 ^ 16 + f.size.toNat * 2 ^ 21
              + (if f.uns = true then 2 ^ 23 else 0) + f.sn.toNat * 2 ^ 24 + f.kind.toNat * 2 ^ 27 + f.fn.toNat * 2 ^ 32)
          ∧ dword (0xA0 + 32 * i + 16) = f.operand ∧ dword (0xA0 + 32 * i + 24) = f.compare)
      ∧ u.hart = { h with
          fcnt := h.fcnt + BitVec.ofNat 32 pages.length
          scnt := h.scnt + BitVec.ofNat 32 found.length
          recInfo := fs.map (·.info) }
      ∧ ∀ k, k < base ∨ base + 0x8A0 ≤ k → Cells.get u.mem k = Cells.get s.mem k)
    ∧ (∀ (epc : Word) (listed : List Word), ∃ c : Scout, (scoutPages epc listed s).1 = (Scout.run 256 c).pages.drop listed.length
      ∧ c.pages = listed ∧ c.room = 17 ∧ c.st.hart.pc = epc ∧ c.st.hart.x = h.x ∧ c.st.hart.v = h.v ∧ c.st.hart.k = h.k ∧ c.st.hart.ox = h.ox
      ∧ c.st.mem = s.mem ∧ (∀ r, r ∈ c.bx ↔ ∃ f ∈ h.faults, r ∈ f.destX) ∧ (∀ r, r ∈ c.bv ↔ ∃ f ∈ h.faults, r ∈ f.destV) ∧ c.bm = [] ∧ c.bo = [])
    ∧ (∀ (c : Scout) (n : Nat), Scout.run 0 c = c ∧ (c.room ≤ c.pages.length → Scout.run (n + 1) c = c)
      ∧ (c.pages.length < c.room → (c.step = none → Scout.run (n + 1) c = c) ∧ ∀ e, c.step = some e → Scout.run (n + 1) c = Scout.run n e))
    ∧ (∀ c : Scout,
      let got (i : Instr) (len : Nat) (bits : Word) : Prop := ∃ u, scoutFetch c.st.hart.pc c.st = .got i len bits u
      let stops (i : Instr) (len : Nat) (bits : Word) : Prop := let mj := bits.toNat / 2 % 64
        i = .cMark ∨ len = 4 ∧ (mj = 0x1C ∨ 0x2A ≤ mj ∧ mj ≤ 0x2C ∨ 0x37 ≤ mj)
      let runs (i : Instr) (len : Nat) : Prop := ∃ bits, got i len bits ∧ ¬stops i len bits
      let lost (r : BitVec 5) : Prop := r ≠ 0 ∧ r ∈ c.bx
      let listed (a : Word) : List Word := let p := a &&& ~~~0xFFFF#64
        if p ∈ c.pages ∨ c.room ≤ c.pages.length then c.pages else c.pages ++ [p]
      let behind (len : Nat) : Hart := { c.st.hart with pc := c.st.hart.pc + BitVec.ofNat 64 len }
      ((∀ i len bits, ¬got i len bits) → c.step = none) ∧ (∀ i len bits, got i len bits → stops i len bits → c.step = none)
      ∧ (∀ d a sn o k len, runs (.ldD d a sn o k) len →
        let ea := c.st.x a + o.signExtend 64 * 8
        let t := scoutTranslate c.st c.st.hart.region c.st.hart.level .load ea
        let goes (l : List Word) : Prop := ∃ e, c.step = some e ∧ e.pages = l ∧ d ∈ e.bx ∧ e.st.hart = behind len ∧ e.st.mem = c.st.mem
        (lost a → goes c.pages)
        ∧ (¬lost a → ea.toNat % 8 ≠ 0 ∨ lockHit c.st ea.toNat (ea.toNat + 8) false sn ≠ 0 ∨ t.cause = awaitRemote → c.step = none)
        ∧ (¬lost a → ea.toNat % 8 = 0 → lockHit c.st ea.toNat (ea.toNat + 8) false sn = 0 → t.cause ≠ awaitRemote →
            goes (if t.cause = 0x04 then listed ea else c.pages)))
      ∧ (∀ d a sn o k len, runs (.stD d a sn o k) len →
        let ea := c.st.x a + o.signExtend 64 * 8
        let t := scoutTranslate c.st c.st.hart.region c.st.hart.level .store ea
        let refused : Prop := t.cause ≠ 0 ∧ t.cause ≠ 0x04 ∧ ¬(gaNode ea ≠ c.st.nodeId ∧ (t.reason = 8 ∨ gaCore ea ≠ hbmCore))
        let goes (l : List Word) : Prop := ∃ e, c.step = some e ∧ e.pages = l ∧ e.st.hart = behind len ∧ e.st.mem = c.st.mem
        (lost a → goes c.pages)
        ∧ (¬lost a → ea.toNat % 8 ≠ 0 ∨ lockHit c.st ea.toNat (ea.toNat + 8) true sn ≠ 0 ∨ t.cause = awaitRemote ∨ refused → c.step = none)
        ∧ (¬lost a → ea.toNat % 8 = 0 → lockHit c.st ea.toNat (ea.toNat + 8) true sn = 0 → t.cause ≠ awaitRemote → ¬refused →
            goes (if t.cause = 0x04 then listed ea else c.pages)))
      ∧ (∀ d a b w k len, runs (.add d a b w k) len →
        (lost a ∨ lost b → ∃ e, c.step = some e ∧ e.pages = c.pages ∧ d ∈ e.bx ∧ e.st.hart = behind len)
        ∧ (¬lost a → ¬lost b → ∃ e t, exec (.add d a b w k) c.st = .next t ∧ c.step = some e ∧ e.pages = c.pages ∧ d ∉ e.bx
            ∧ e.st.hart.x = t.hart.x ∧ e.st.hart.pc = t.hart.pc ∧ e.st.mem = c.st.mem))
      ∧ (∀ a b o k len, runs (.beq a b o k) len → lost a ∨ lost b → ∃ e, c.step = some e ∧ e.pages = c.pages
          ∧ e.st.hart = if (o.signExtend 64 <<< 1).toInt < 0 then { c.st.hart with pc := c.st.hart.pc + o.signExtend 64 <<< 1 } else behind len)
      ∧ (∀ a k len, lost a → runs (.callr a k) len ∨ runs (.ret a k) len → c.step = none)
      ∧ (∀ a b k len, runs (.jt a b k) len ∨ runs (.jtc a b k) len → c.step = none))

/-- R144: the first condition of the table that applies at an entry, from level 1 downwards; an entry that a memory error has taken delivers
nothing (R415). -/
def Obligations.WalksEndAsTheTableSays : Prop :=
  ∀ (s : State) (off : Nat) (need : Need) (level : Level) (root : Word),
    walk s root off need level = walkFrom s off need level 4 1 (root.toNat % 2 ^ 39)
    ∧ ∀ (lv table : Nat), 1 ≤ lv → lv ≤ 4 →
      let bits := if lv = 1 then 39 else if lv = 2 then 30 else if lv = 3 then 21 else 16
      let index := off / 2 ^ bits % (if lv = 1 then 1024 else if lv = 4 then 32 else 512)
      let entry := hbmKey s.nodeId (table + 8 * index)
      let e := leWord (s.mem.bytes entry 8)
      let n := e.toNat
      let leaf : Prop := n / 2 % 2 = 1
      let reserved : Prop := n / 2 ^ 39 ≠ 0
        ∨ leaf ∧ (n / 2 ^ 10 % 2 ^ 6 ≠ 0 ∨ lv ≠ 1 ∧ n / 2 ^ 16 * 2 ^ 16 % 2 ^ bits ≠ 0)
        ∨ ¬leaf ∧ (n / 4 % 2 ^ 6 ≠ 0 ∨ (lv = 1 ∨ lv = 2) ∧ n / 2 ^ 8 * 2 ^ 8 % 2 ^ 12 ≠ 0)
      let misplaced : Prop := leaf ∧ lv = 1 ∨ ¬leaf ∧ lv = 4 ∨ leaf ∧ lv ≠ 4 ∧ n / 2 ^ 7 % 2 = 1
      let permitted : Prop := (need ≠ .store → n / 4 % 2 = 1) ∧ (need = .store ∨ need = .atomic → n / 8 % 2 = 1) ∧ (level = .U → n / 16 % 2 = 1)
      let ends (w : WalkEnd) : Prop := walkFrom s off need level (5 - lv) lv table = w
      (s.poisoned entry = true → ends (.poison entry))
      ∧ (s.poisoned entry = false → (n % 2 = 0 → ends (.fault 4 1))
      ∧ (n % 2 = 1 → reserved → ends (.fault 4 2))
      ∧ (n % 2 = 1 → ¬reserved → misplaced → ends (.fault 4 3))
      ∧ (n % 2 = 1 → ¬reserved → ¬misplaced → leaf → ¬permitted → ends (.fault 5 7))
      ∧ (n % 2 = 1 → ¬reserved → ¬misplaced → leaf → permitted → ends (.leaf e bits entry))
      ∧ (n % 2 = 1 → ¬reserved → ¬misplaced → ¬leaf → ends (walkFrom s off need level (4 - lv) (lv + 1) (n / 2 ^ 8 % 2 ^ 31 * 2 ^ 8))))

/-- R143 to R147, R162, R164, R165, R371, R415, R424, R430: translations and what keeps them. -/
def Obligations.TranslationEvents : Prop :=
  ∀ (s : State) (off : BitVec 49) (write : Bool) (node : BitVec 4) (q : BitVec 16) (want : WalkNeed) (level : BitVec 3) (leaf : Word)
    (c w : BitVec 8) (ticket : BitVec 32) (kind : BitVec 2) (page : BitVec 49) (size : BitVec 6) (dead : Bool),
    let table := hartTable s.hart.num
    let lo := off.toNat / 65536 * 65536 + hbmCore * 2 ^ 49 + s.nodeId.toNat * 2 ^ 60
    let touched : Prop := ∃ o ∈ s.hart.ops, ∃ p ∈ (if write = true then o.writes else o.reads), lo < p.2 ∧ p.1 < lo + 65536
    let marked (wr : Bool) (l : Word) : Word := if wr = true then l ||| 0x60#64 else l ||| 0x20#64
    let cached (u t : State) (n : Nat) (e : TlbEntry) : Prop := (t.secondTlb n).head? = some e ∧ (∀ f ∈ (t.secondTlb n).tail, f ∈ u.secondTlb n)
      ∧ ((u.secondTlb n).length ≤ 4096 → (t.secondTlb n).length ≤ 4096) ∧ ∀ k, k ≠ n → t.secondTlb k = u.secondTlb k
    let near (u t : State) (e : TlbEntry) : Prop := t.hart.dtlb.head? = some e ∧ (∀ f ∈ t.hart.dtlb.tail, f ∈ u.hart.dtlb)
      ∧ (u.hart.dtlb.length ≤ 64 → t.hart.dtlb.length ≤ 64)
    let compressed (u t : State) (l : Word) (bits : Nat) : Prop :=
      let frame := l.toNat / 2 ^ 16 % 2 ^ 23 * 65536 / 2 ^ bits * 2 ^ bits / 65536
      (∀ p, p < frame ∨ frame + 2 ^ (bits - 16) ≤ p → (p ∈ t.csPages ↔ p ∈ u.csPages))
      ∧ ∀ p, frame ≤ p → p < frame + 2 ^ (bits - 16) → (p ∈ t.csPages ↔ bits = 16 ∧ l.getLsbD 7 = true)
    let fits (e : TlbEntry) (r : BitVec 16) : Bool := e.node == s.nodeId && e.region == r && decide (e.base ≤ off.toNat)
      && decide (off.toNat < e.base + 2 ^ e.bits) && (!write || e.leaf.getLsbD 6)
    let bit : BitVec 16 := 1#16 <<< node.toNat
    let asked (a : Ask) : Bool := a.node == node && a.region == q && a.page == off.toNat / 65536
    let leftFor (a : Ask) : Prop := s.unsent (fun p => match p with
      | .transRequest n r o nd u => n == node && r == some q && o.toNat / 65536 == a.page && nd == a.need && u == a.user
      | _ => false) = false
    let from_ := memKey node hbmCore (if kind = 0 then page.toNat else 0)
    let upTo := from_ + (if kind = 0 then 2 ^ size.toNat else 2 ^ 49)
    let stale (e : TlbEntry) : Bool :=
      decide (memKey e.node hbmCore e.base < upTo) && decide (from_ < memKey e.node hbmCore e.base + 2 ^ e.bits)
    let within (l : List (Nat × Nat)) : Prop := ∃ p ∈ l, p.1 < upTo ∧ from_ < p.2
    let drop (h : Hart) : Hart := { h with
      dtlb := h.dtlb.filter (fun e => !stale e)
      itlb := h.itlb.filter (fun e => !stale e) }
    let dropped : State := { s with
      hart := drop s.hart
      others := s.others.map drop
      tlb := s.tlb.filter (fun p => !stale p.2) }
    let reported (t : State) (k : Nat) : Prop := k / 64 ∉ t.poison ∧ ∃ q ∈ (t.getHart (1088 + keyGallery k)).irqs, q.cause = 0x15
    let far : Prop := ∃ f ∈ s.far, f.ans = none ∧ 64 * f.line < upTo ∧ from_ < 64 * f.line + 64
    let busy : Prop := far ∨ ∃ h ∈ s.harts, (∃ o ∈ h.ops, within o.writes ∨ o.sent ≠ none ∧ within o.reads) ∨ ∃ k ∈ h.writes, within k.spans
    (¬touched → exec (.pageWalk off write) s = .next s)
    ∧ (∀ r g, touched → s.hart.region = some r → s.region? r = some g →
      let v : Via := .data s.hart.num
      (∀ e, s.hart.dtlb.find? (fun e => fits e g.num) = some e → exec (.pageWalk off write) s = .next s)
      ∧ (∀ e, s.hart.dtlb.find? (fun e => fits e g.num) = none → (s.secondTlb table).find? (fun e => fits e g.num) = some e →
        leafPermits e.leaf (if write = true then .atomic else .load) s.hart.level = true →
        ∃ t, exec (.pageWalk off write) s = .next t ∧ near s t e ∧ t = { s with
          hart := { s.hart with dtlb := t.hart.dtlb }
          freeCtr := t.freeCtr })
      ∧ (∀ k, s.tlbFind v s.nodeId g.num off.toNat write = none →
        walk s g.ptroot off.toNat (if write = true then .atomic else .load) s.hart.level = .poison k →
        ∃ t, exec (.pageWalk off write) s = .next t ∧ reported t k)
      ∧ ∀ l bits entry, Inv s → s.tlbFind v s.nodeId g.num off.toNat write = none →
        walk s g.ptroot off.toNat (if write = true then .atomic else .load) s.hart.level = .leaf l bits entry →
        ∃ t, exec (.pageWalk off write) s = .next t ∧ WritesBytes s t entry (leBytes (marked write l).toNat 8)
          ∧ near s t ⟨s.nodeId, g.num, off.toNat / 2 ^ bits * 2 ^ bits, bits, marked write l⟩
          ∧ cached s t table ⟨s.nodeId, g.num, off.toNat / 2 ^ bits * 2 ^ bits, bits, marked write l⟩ ∧ compressed s t l bits
          ∧ t = { s with
            hart := { s.hart with dtlb := t.hart.dtlb }
            mem := t.mem
            tlb := t.tlb
            csPages := t.csPages
            freeCtr := t.freeCtr })
    ∧ (let request : Instr := .remoteTranslationRequest node q off want
      (s.recovery = true → exec request s = .next s)
      ∧ (s.recovery = false → (s.carried node (some q)).bind s.region? = none →
        ∃ t, exec request s = .next t ∧ Sends s t (.transReply node q off 0 0 5 9))
      ∧ ∀ g, s.recovery = false → (s.carried node (some q)).bind s.region? = some g →
        let lv : Level := if want.user = true then .U else .M
        let wr := want.need = 1 ∨ want.need = 2
        let need : Need := if want.need = 1 then .store else if want.need = 2 then .atomic else if want.need = 3 then .fetch else .load
        (∀ c w, walk s g.ptroot off.toNat need lv = .fault c w → ∃ t, exec request s = .next t ∧ Sends s t (.transReply node q off 0 0 c w))
        ∧ (∀ k, walk s g.ptroot off.toNat need lv = .poison k → ∃ t, exec request s = .next t ∧ reported t k ∧ t.sendq = s.sendq)
        ∧ ∀ l bits entry, Inv s → walk s g.ptroot off.toNat need lv = .leaf l bits entry → ∃ u t, exec request s = .next t
          ∧ (want.need = 4 → SameBytes s u) ∧ (want.need ≠ 4 → WritesBytes s u entry (leBytes (marked (decide wr) l).toNat 8))
          ∧ Sends u t (.transReply node q off (if bits = 30 then 2 else if bits = 21 then 3 else 4) (if want.need = 4 then l else marked (decide wr) l) 0 0)
          ∧ (∃ h ∈ u.holders, h.region = g.num ∧ h.base = off.toNat / 2 ^ bits * 2 ^ bits ∧ h.bits = bits ∧ h.nodes &&& bit ≠ 0)
          ∧ compressed s u l bits ∧ u = { s with
            mem := u.mem
            csPages := u.csPages
            holders := u.holders })
    ∧ (let reply : Instr := .translationReply node q off level leaf c w
      (s.asks.find? asked = none → exec reply s = .next s)
      ∧ ∀ a, s.asks.find? asked = some a →
        (¬leftFor a → exec reply s = .next s)
        ∧ (leftFor a → ∃ t, exec reply s = .next t ∧ t.asks = s.asks.erase a
          ∧ (c = 0 → (let bits := if level = 1 then 39 else if level = 2 then 30 else if level = 3 then 21 else 16
              cached s t (hartTable a.hart) ⟨node, q, off.toNat / 2 ^ bits * 2 ^ bits, bits, leaf⟩)
            ∧ (a.need ≠ 4 → t = { s with
              asks := t.asks
              tlb := t.tlb
              freeCtr := t.freeCtr })
            ∧ (a.need = 4 → (let bits := if level = 1 then 39 else if level = 2 then 30 else if level = 3 then 21 else 16
                let old := (s.getHart a.hart).dtlb
                let new := (t.getHart a.hart).dtlb
                new.head? = some ⟨node, q, off.toNat / 2 ^ bits * 2 ^ bits, bits, leaf⟩ ∧ (∀ f ∈ new.tail, f ∈ old)
                ∧ (old.length ≤ 64 → new.length ≤ 64))
              ∧ t = { s.modHart a.hart (fun h => { h with dtlb := (t.getHart a.hart).dtlb }) with
                asks := t.asks
                tlb := t.tlb
                freeCtr := t.freeCtr }))
          ∧ (c ≠ 0 → t = { s with
              asks := t.asks
              tlbFaults := if a.need = 4 then s.tlbFaults else s.tlbFaults ++ [⟨a, c, w⟩] })))
    ∧ (s.recovery = true → exec (.tlbInvalidation node ticket kind page size) s = .next s)
    ∧ (s.recovery = false → ¬busy → ∃ t, exec (.tlbInvalidation node ticket kind page size) s = .next t ∧ Sends dropped t (.invalidateAck node ticket))
    ∧ (s.recovery = false → busy → ∃ t, exec (.tlbInvalidation node ticket kind page size) s = .next t
        ∧ (let drains (h : Hart) : Hart := { drop h with comb := h.comb.map (fun e =>
            if 64 * e.line < upTo ∧ from_ < 64 * e.line + 64 then { e with closed := true, draining := true } else e) }
          t = { dropped with
            hart := drains s.hart
            others := s.others.map drains }))
    ∧ (∃ ts, exec (.invalidationAck node ticket dead) s = .next { s with tickets := ts } ∧ ts.length = s.tickets.length
        ∧ ∀ (i : Nat) (t u : Ticket), s.tickets[i]? = some t → ts[i]? = some u → u.num = t.num
          ∧ (t.num = ticket → t.waiting &&& bit ≠ 0 → u.waiting = t.waiting &&& ~~~bit ∧ u.dead = if dead = true then t.dead ||| bit else t.dead)
          ∧ (t.num ≠ ticket ∨ t.waiting &&& bit = 0 → u = t))
    ∧ (∀ k p, s.pins[k]? = some p →
      (s.now.toNat < p.at_.toNat + 10000000 → exec (.pinExpiry k) s = .next s)
      ∧ (p.at_.toNat + 10000000 ≤ s.now.toNat →
        let place (p : Pin) : Option Nat := (s.leafOf p.region p.page).map (·.2)
        let lasting : Prop := ∃ o ∈ s.pins.eraseIdx k, o.region = p.region ∧ place o = place p
        (lasting → exec (.pinExpiry k) s = .next { s with pins := s.pins.eraseIdx k })
        ∧ (¬lasting → s.leafOf p.region p.page = none → exec (.pinExpiry k) s = .next { s with pins := s.pins.eraseIdx k })
        ∧ (∀ l entry, Inv s → ¬lasting → s.leafOf p.region p.page = some (l, entry) → ∃ u, exec (.pinExpiry k) s = .next u
          ∧ WritesBytes s u entry (leBytes (l &&& ~~~0x200#64).toNat 8) ∧ u.pins = s.pins.eraseIdx k
          ∧ u = { s with mem := u.mem, pins := u.pins })
        ∧ ∀ g l bits entry, s.region? p.region = some g → walk s g.ptroot (p.page * 65536) .load .M = .leaf l bits entry →
          s.leafOf p.region p.page = some (l, entry)))

/-- R139, R140, R143, R161, R204, R371, R415, R430, R447: accesses that arrive. REASON 0 of a failed line is the model's choice (log 56). -/
def Obligations.ArrivingAccesses : Prop :=
  ∀ (s : State) (acc : Access) (i : Instr),
    let core := acc.addr.toNat / 2 ^ 49 % 2 ^ 11
    let off := acc.addr.toNat % 2 ^ 49
    let host := s.isHost acc.node
    let region := s.carried acc.node acc.region
    let owned : Prop := if core = 1088 ∧ 0x3E000 ≤ off ∧ off < 0x3F000 then acc.mmode = true ∨ host = true
      else acc.mmode = true ∨ host = true ∨ ∃ r, region = some r ∧ r = s.ownerOf core ∧ r ≠ 0xFFFF
    let reason : BitVec 8 → Prop := fun w =>
      if core = 2047 then (host = true ∧ 2 ^ 39 ≤ off ∧ w = 4) ∨ (host = false ∧ region = none ∧ w = 9)
      else if s.present core = false then w = 4
      else if 2 ^ 18 ≤ off then w = 5
      else (¬owned ∧ w = 6) ∨ (owned ∧ acc.vector = true ∧ core < 1024 ∧ fmtCode (s.bankReg core (off / 2 ^ 15 % 8)) ≠ 0 ∧ w = 11)
    let served : Prop := ∀ w, ¬reason w
    let key := if core = 2047 then hbmKey s.nodeId off else memKey s.nodeId core off
    let answers (ok : Bool) (w : BitVec 8) (data : BitVec 512) (did : State → Prop) : Prop :=
      ∃ u t, exec i s = .next t ∧ did u ∧ Sends u t (.accessReply acc.node ok w data)
    let writes (u : State) : Prop := u = { s with mem := u.mem }
    let loses (u : State) : Prop := key / 64 ∉ u.poison ∧ ∃ q ∈ (u.getHart (1088 + keyGallery key)).irqs, q.cause = 0x15
    let mine : Prop := i = .remoteAccessArrival acc ∧ host = false ∨ i = .hostAccessArrival acc ∧ host = true
    (s.recovery = true ∨ acc.node = s.nodeId → exec (.remoteAccessArrival acc) s = .next s ∧ exec (.hostAccessArrival acc) s = .next s)
    ∧ (mine → s.recovery = false → acc.node ≠ s.nodeId →
      (∀ w, reason w → answers false w 0 (fun u => u = s))
      ∧ (served → acc.kind = .read → acc.size ≤ 64 → s.poisoned key = false → keyInRing s key = false →
          answers true 0 (BitVec.ofNat 512 (leNat (s.mem.bytes key acc.size))) (fun u => u = s))
      ∧ (served → acc.kind ≠ .write → s.poisoned key = true → answers false 0 0 loses)
      ∧ (Inv s → served → acc.kind = .write → acc.size ≤ 64 → PlainPlace s key acc.size → answers true 0 0 (fun t => writes t ∧ ∀ k, Cells.get t.mem k = if key ≤ k ∧ k < key + acc.size ∧ acc.mask.getLsbD (k - key) = true
              then BitVec.ofNat 8 (acc.data.toNat / 2 ^ (8 * (k - key))) else Cells.get s.mem k))
      ∧ (∀ fn, let size := if fn.toNat < 10 then 8 else 4
          Inv s → served → acc.kind = .atomic fn → s.poisoned key = false → PlainPlace s key size →
          let old := leNat (s.mem.bytes key size)
          let b := acc.data.toNat
          let does (new : Nat) (ret : Word) : Prop := answers true 0 (ret.setWidth 512) (fun t => writes t ∧ WritesBytes s t key (leBytes new size))
          (fn.toNat < 10 → does (atomicNew fn.toNat (BitVec.ofNat 64 old) (BitVec.ofNat 64 b) acc.cmp).toNat (BitVec.ofNat 64 old))
          ∧ (16 ≤ fn.toNat → fn.toNat < 26 →
              does (atomicNew (fn.toNat - 16) (BitVec.ofNat 32 old) (BitVec.ofNat 32 b) (acc.cmp.setWidth 32)).toNat (BitVec.ofInt 64 (Int.bmod old (2 ^ 32))))
          ∧ (fn = 10 → does (fpAddV .fp32 .rne (fpDecode .fp32 old) (fpDecode .fp32 (b % 2 ^ 32))).bits (BitVec.ofNat 64 old))
          ∧ (fn = 11 → does (bf16Add (old % 2 ^ 16) (b % 2 ^ 16) + 2 ^ 16 * bf16Add (old / 2 ^ 16) (b % 2 ^ 32 / 2 ^ 16)) (BitVec.ofNat 64 old))))

/-- R2, R23, R32, R234, R414 to R420, R422, R430, R449: errors, power and the module. -/
def Obligations.PowerAndModuleEvents : Prop :=
  ∀ (s : State) (pa : BitVec 39) (place : ErrPlace) (met : ErrAccess) (q count n : Nat) (cap : BitVec 3) (duty : BitVec 5) (node : BitVec 4),
    let hartsOf (q : Nat) : List Nat := [4 * q, 4 * q + 1, 4 * q + 2, 4 * q + 3]
    let key := match place with | .mem k => k | _ => 0
    let core := key / 2 ^ 49 % 2 ^ 11
    let frame := match place with | .acc f | .cim f => f | _ => 0
    let here : Prop := match place with
      | .mem k => k / 2 ^ 60 = s.nodeId.toNat ∧ (if core = 2047 then k % 2 ^ 49 < 2 ^ 39 else s.present core = true ∧ k % 2 ^ 49 < 2 ^ 18)
      | _ => frame < 128 ∧ s.frameLive frame = true
    let gallery := match place with | .mem k => (if core = 2047 then k / 512 % 8 / 2 else hartGallery core) | _ => frame / 32
    let op? := (s.getHart met.hart).op? met.op
    let error : Instr := .uncorrectableMemoryError place met
    let line := hbmKey s.nodeId pa.toNat / 64
    let rests (h : Hart) : Prop := ((∃ t d m, h.run = .timed 1 t d m) ∨ ∃ m, h.run = .wfi m) ∧ h.idleSince.toNat + 20000 ≤ s.now.toNat ∧ h.cmds = []
      ∧ ∀ p ∈ h.copies, p.2.taken = true → p.2.st ≠ .queued ∧ p.2.st ≠ .running
    let rank (l : Level) : Nat := match l with | .U => 0 | .S => 1 | .M => 2
    let level (c : BitVec 8) : Level := if c = 0x0C then .S else if c = 0x12 then .U else .M
    let admits (h : Hart) (c : BitVec 8) : Prop := rank h.level < rank (level c) ∨ h.level = level c ∧ (h.bank (level c)).ie = true
    let stirs (h : Hart) : Prop := (∃ t d m, h.run = .retention (some (1, t, d)) m ∧ (t.toNat ≤ s.now.toNat ∨ ∃ p ∈ h.irqs, admits h p.cause))
      ∨ ∃ m, h.run = .retention none m ∧ ∃ p ∈ h.irqs, rank h.level ≤ rank (level p.cause)
    let kinds (h : Hart) : Prop := (∃ t d m, h.run = .retention (some (1, t, d)) m) ∨ (∃ m, h.run = .retention none m)
    let slot : Prop := ∀ a, s.lastAdmit = some a → a.toNat + 64 ≤ s.now.toNat
    let dom := if s.hart.num < 1024 then s.hart.num / 4 else 384 + (s.hart.num - 1024)
    let members := if n < 256 then hartsOf n else if n < 384 then (List.range 8).map (fun i => 8 * (n - 256) + i) else [n - 384 + 1024]
    let recent := ((s.replays.filter (fun p => p.1 == dom && decide (s.now.toNat < p.2.1.toNat + 1000))).map (fun p => p.2.2)).sum
    let lasting := s.replays.filter (fun p => decide (s.now.toNat < p.2.1.toNat + 1000))
    let dutyNow (k : Nat) : Nat := if 256 ≤ k ∧ k < 384 then 16 else (s.getHart (if k < 256 then 4 * k else k - 384 + 1024)).duty.toNat
    let drawn := ((s.domains.filter (fun d => d.num != n && d.given.isSome)).map (fun d => Config.draw d.num d.cap.toNat (dutyNow d.num))).sum
      + Config.draw n cap.toNat duty.toNat
    let allowed : Prop := (cap = 0 ∧ duty.toNat ≤ 1 ∨ drawn ≤ 1000 * s.capW) ∧ n < 452 ∧ duty.toNat ≤ 16 ∧ (duty = 16 ∨ cap = 0) ∧ (duty = 0 → ∀ k ∈ members, (s.getHart k).node = none)
    let due : Prop := ∀ t, (s.domain n).given = some t → t.toNat + 10000 ≤ s.now.toNat
    let requests (k : Nat) : Nat := match (s.getHart k).run with | .free | .halted => 0 | _ => (s.getHart k).req.toNat
    let point := min ((members.map requests).foldl max 0) cap.toNat
    let fetch : Prop := met.op = ErrAccess.fetch
    let fetches : Prop := s.present met.hart = true ∧ ((s.getHart met.hart).run = .running ∨ (s.getHart met.hart).run = .blocked)
    (¬here ∨ (fetch ∧ ¬fetches) ∨ (¬fetch ∧ op? = none) → exec error s = .next s)
    ∧ (fetch → fetches → here → ∃ t v, exec error s = .next t
      ∧ (t.getHart (1088 + gallery)).irqs = (s.getHart (1088 + gallery)).irqs ++ [⟨0x15, v, 0, 0⟩]
      ∧ (∀ k, place = .mem k → core = 2047 → v = BitVec.ofNat 64 (k % 2 ^ 39))
      ∧ (∀ r g, (s.getHart met.hart).region = some r → s.region? r = some g → (g.fdom, 0x15#8) ∈ t.rollbacks) ∧ (s.evFw = 0 → SameBytes s t)
      ∧ (t.getHart met.hart).run = .blocked ∧ (t.getHart met.hart).pc = (s.getHart met.hart).pc)
    ∧ (∀ o, ¬fetch → op? = some o → here → ∃ t v, exec error s = .next t
      ∧ (t.getHart (1088 + gallery)).irqs = (s.getHart (1088 + gallery)).irqs ++ [⟨0x15, v, 0, 0⟩]
      ∧ (∀ k, place = .mem k → core = 2047 → v = BitVec.ofNat 64 (k % 2 ^ 39))
      ∧ (∀ r g, o.region = some r → s.region? r = some g → (g.fdom, 0x15#8) ∈ t.rollbacks) ∧ (s.evFw = 0 → SameBytes s t)
      ∧ (o.id = met.op → o.kind ≠ .engine → (∀ slot, o.kind ≠ .copy slot) → (t.getHart met.hart).op? met.op = some { o with sent := some lostRead }
          ∧ (t.getHart met.hart).rets = (s.getHart met.hart).rets)
      ∧ (∀ slot, o.kind = .copy slot → ((t.getHart met.hart).slot slot).lost = true)
      ∧ (o.kind = .engine → ∀ c ∈ (t.getHart met.hart).cmds, c.op = o.id → c.lost = true))
    ∧ exec (.patrolScrub pa true) s = .next s
    ∧ (∃ t, exec (.patrolScrub pa false) s = .next t ∧ line ∈ t.poison ∧ (∀ k, k ≠ line → (k ∈ t.poison ↔ k ∈ s.poison)) ∧ t.hart = s.hart
        ∧ (s.evFw = 0 → SameBytes s t))
    ∧ ((256 ≤ q ∨ ∃ k ∈ hartsOf q, ¬rests (s.getHart k)) → exec (.retentionEntry q) s = .next s)
    ∧ (q < 256 → (∀ k ∈ hartsOf q, rests (s.getHart k)) → ∃ t, exec (.retentionEntry q) s = .next t ∧ SameBytes s t
      ∧ (∀ k ∈ hartsOf q, ∃ run, t.getHart k = { s.getHart k with run := run }
          ∧ (∀ u d m, (s.getHart k).run = .timed 1 u d m → run = .retention (some (1, u, d)) m)
          ∧ (∀ m, (s.getHart k).run = .wfi m → run = .retention none m)))
    ∧ (∀ fails, 256 ≤ q ∨ ¬slot ∨ (∀ k ∈ hartsOf q, ¬stirs (s.getHart k)) → (∀ k ∈ hartsOf q, kinds (s.getHart k)) →
        exec (.retentionExit q fails) s = .next s)
    ∧ (∀ k ∈ hartsOf q, q < 256 → slot → stirs (s.getHart k) → (∀ j ∈ hartsOf q, kinds (s.getHart j)) →
      (∃ t, exec (.retentionExit q false) s = .next t ∧ t.lastAdmit = some s.now ∧ SameBytes s t
        ∧ ∀ j ∈ hartsOf q, ∃ run, t.getHart j = { s.getHart j with run := run, idleSince := s.now }
          ∧ (∀ u d m, (s.getHart j).run = .retention (some (1, u, d)) m → run = .timed 1 u d m)
          ∧ (∀ m, (s.getHart j).run = .retention none m → run = .wfi m))
      ∧ (∃ t, exec (.retentionExit q true) s = .next t ∧ t.lastAdmit = some s.now
        ∧ (∀ j ∈ hartsOf q, (∀ x, (t.getHart j).rx x = 0) ∧ (∀ v, (t.getHart j).rv v = 0) ∧ (∀ i, (t.getHart j).spin i = Spindle.reset) ∧ (∀ k, (t.getHart j).ox[BitVec.toNat (w := 3) k] = 0)
            ∧ (t.getHart j).scout = false ∧ (t.getHart j).duty = 0 ∧ (t.getHart j).req = 0 ∧ (t.getHart j).cfg = 0 ∧ (t.getHart j).fxFlags = 0
            ∧ (s.evFw = 0 → ∀ off < 2 ^ 18, Cells.get t.mem (memKey s.nodeId j off) = 0))
        ∧ (∀ b < 32, assocGet t.bankFmt (32 * q + b) 0 = 0)
        ∧ (∃ p ∈ (t.getHart (1088 + q / 64)).irqs, p.cause = 0x14 ∧ p.val = BitVec.ofNat 64 q)
        ∧ ∀ j ∈ hartsOf q, ∀ w g, (s.getHart j).region = some w → s.region? w = some g → (g.fdom, 0x14#8) ∈ t.rollbacks))
    ∧ (∃ t, exec (.timingErrorReplay count) s = .next t ∧ t.hart = { s.hart with rcnt := BitVec.ofNat 32 (min (s.hart.rcnt.toNat + count) (2 ^ 32 - 1)) }
        ∧ (recent + count ≤ 64 → t.domains = s.domains ∧ t.replays = lasting ++ [(dom, s.now, count)])
        ∧ (64 < recent + count → t.replays = lasting.filter (fun p => p.1 != dom) ∧ (t.domain dom).cap.toNat = (s.domain dom).cap.toNat - 1 ∧ (t.domain dom).point = (s.domain dom).point
            ∧ ∀ k, k ≠ dom → t.domain k = s.domain k))
    ∧ (¬allowed ∨ ¬due → exec (.budgetRecompute n cap duty) s = .next s)
    ∧ (allowed → due → ∃ t, exec (.budgetRecompute n cap duty) s = .next t ∧ SameBytes s t
      ∧ (t.domain n).cap = cap ∧ (t.domain n).point = (s.domain n).point ∧ (t.domain n).given = some s.now
      ∧ (t.domain n).next = (if point = (s.domain n).point.toNat then none else some (BitVec.ofNat 3 point))
      ∧ (∀ k, k ≠ n → t.domain k = s.domain k)
      ∧ (n < 256 ∨ 384 ≤ n → ∀ k ∈ members, s.present k = true → (t.getHart k).duty = duty))
    ∧ (((s.domain n).next = none → exec (.clockRelock n) s = .next s)
      ∧ ∀ p, (s.domain n).next = some p → ∃ t, exec (.clockRelock n) s = .next t
          ∧ (t.domain n).point = p ∧ (t.domain n).cap = (s.domain n).cap ∧ (t.domain n).next = none ∧ ∀ k, k ≠ n → t.domain k = s.domain k)
    ∧ (let b := s.boot
      let absent (k : Nat) : Prop := k < 1024 ∧ (k / 4 ∈ b.quads ∨ k / 8 ∈ b.frames)
      ∀ k, ¬absent k → (∀ j < k, absent j) → ∃ t, exec .moduleReset s = .next t ∧ t.hart = { Hart.reset k with run := .running }
        ∧ (∀ j < 2 ^ 60, Cells.get t.mem (b.node.toNat * 2 ^ 60 + j) = Cells.get s.mem (s.nodeId.toNat * 2 ^ 60 + j))
        ∧ t = { State.reset with
          hart := t.hart
          mem := t.mem
          poison := t.poison
          lastOwner := s.lastOwner.map (fun p => (p.1, 0xFFFF#16))
          lastFrame := s.lastFrame.map (fun p => (p.1, 0xFFFF#16))
          capW := min 2400 b.cap
          nodeId := b.node
          removedQuads := b.quads
          removedFrames := b.frames
          partRev := b.partRev
          fwVer := b.fwVer
          hosts := b.hosts
          recovery := !b.verified
          boot := b
          wear := s.wear
          sched := s.sched
          tick := s.tick
          freeCtr := s.freeCtr
          noiseCtr := s.noiseCtr })
    ∧ (s.isHost node = true → node ≠ s.nodeId → (∃ t, exec (.attestationRequest node) s = .next t ∧ Sends s t (.report node false))
        ∧ ∃ t, exec (.firmwareUpdateRequest node) s = .next t ∧ Sends s t (.report node true))
    ∧ (s.isHost node = false ∨ node = s.nodeId → exec (.attestationRequest node) s = .next s ∧ exec (.firmwareUpdateRequest node) s = .next s)

/-- R2, R62, R63, R72, R115, R347, R392, R419, logs 2, 25 and 29: a step is exec of the instruction at the pc. -/
def Obligations.StepRunsDecodedInstruction : Prop :=
  ∀ (s : State) (i : Instr),
    let u := advance s
    let v : State := { u with sched := s.sched.tail, hart := { s.hart with run := .running } }
    let first := fetchHalf v.hart.pc v
    let second := fetchHalf (v.hart.pc + 2) first.st
    let low_ := first.st.mem.bytes first.key 2
    let high := second.st.mem.bytes second.key 2
    let may : Prop := (s.hart.run = .running ∨ s.hart.run = .blocked) ∧ s.present s.hart.num = true ∧ s.hart.duty ≠ 0
      ∧ ∀ r, s.hart.region = some r → u.stopsNow r = false
    let recalls : Prop := (s.hart.recalled ≠ [] ∨ s.hart.holdTo ≠ 0) ∧ (s.hart.back = none ∨ s.hart.holdTo = 0)
    let issues : Prop := may ∧ (s.hart.run = .blocked ∨ s.hart.nextIrq = none) ∧ ¬recalls
    let ended (t : State) : State := { t with
      far := if t.hart.run = .blocked then t.far
        else t.far.filter (fun f => !(f.hart == t.hart.num && (f.use == .block || f.use == .text))) }
    let readable : Prop := gaNode s.hart.pc = s.nodeId ∧ first.cause = 0 ∧ first.st.poisoned first.key = false ∧ keyInRing first.st first.key = false
    let decodes (w : State) : Prop := readable ∧ (w = first.st ∧ decode low_ = .ok (i, [])
      ∨ w = second.st ∧ gaNode (s.hart.pc + 2) = s.nodeId ∧ second.cause = 0 ∧ second.st.poisoned second.key = false ∧ keyInRing second.st second.key = false ∧ decode (low_ ++ high) = .ok (i, []))
    (∀ rest, s.sched = .issue :: rest → ¬may → step s = .next { u with sched := rest })
    ∧ (∀ w rest, s.sched = .issue :: rest → issues → decodes w → gate i w = .open_ →
        (∀ t, exec i w = .next t → step s = .next (ended t))
        ∧ (∀ r, exec i w = .fault r → step s = .fault r) ∧ ∀ r, exec i w = .refused r → step s = .refused r)
    ∧ (∀ w t, s.sched = [] → unitAction u = none → issues → decodes w → gate i w = .open_ → exec i w = .next t → step s = .next (passTurn (ended t)))
    ∧ (∀ w : State, w.hart.ops = [] → w.hart.rets = [] → w.hart.faults = [] → w.hart.cmds = [] → gate i w = .open_)
    ∧ (u.tick = s.tick + 1 ∧ s.now.toNat ≤ u.now.toNat ∧ u = { s with now := u.now, tick := u.tick })

/-- R65, R76, R83 and the example words of 10 to 15. -/
def Obligations.DecodeWords : Prop :=
  decodeTableWord 32 0x20D6A4D3 = some (.amoAdd 9 10 11 true 3 false)
  ∧ decodeTableWord 32 0x068C5267 = some (.vfma 4 5 6 false 2 false)
  ∧ decodeTableWord 32 0x01234033 = some (.lpad 0x1234 false)
  ∧ decodeTableWord 16 0x0D0E = some (.cLd 8 3)
  ∧ decodeTableWord 16 0x001C = some .cNop
  ∧ decodeTableWord 32 0x100462C7 = some (.ldD 5 6 2 2 false)
  ∧ decodeTableWord 32 0x500462C7 = none
  ∧ decodeTableWord 16 0x0000 = none
  ∧ decodeTableWord 32 0x02CE6075 = some (.mload 6 7 3 false)
  ∧ decodeTableWord 32 0x0EC062F7 = some (.kcnt 5 6 3 false)
  ∧ decodeTableWord 32 0x060062F9 = some (.cytest 5 6 false)
  ∧ decodeTableWord 32 0x040E537B = some (.cpwait 6 5 7 false)
  ∧ decodeTableWord 32 0x004E62FD = some (.msend 5 6 7 1 false)
  ∧ decodeTableWord 32 0x00CE62FF = some (.ndep 5 6 7 false)
  ∧ decodeTableWord 32 0x020512FF = some (.srd 5 0x051 false)

/-- R62, R65, R83, log 15: the decoder inverts the encoder on every well-formed instruction. -/
def Obligations.DecodeInvertsEncode : Prop :=
  ∀ (i : Instr), i.wf = true → i.isEvent = false →
    ∃ e, encode i = some e ∧ (e.bytes.length = 2 ∨ e.bytes.length = 4)
      ∧ (i.sharesWord = false → ∀ rest, decode (e.bytes ++ rest) = .ok (i, rest))
      ∧ (i.sharesWord = true → ∃ j, j.sharesWord = false ∧ encode j = some e ∧ ∀ rest, decode (e.bytes ++ rest) = .ok (j, rest))

/-- R24 to R26, R232 and the model's form of its stores (log 6): the canonical form is an invariant of step. -/
def Obligations.MemoryStaysCanonical : Prop := ∀ (s t : State), Inv s → step s = .next t → Inv t

/-- R30, R32, R104, R108, R140, R155, R169, R177, R201, R238, R268, R294, R330, R358, R368, R371, R383, R396, R397, R409, R419, R425, R449. -/
def Obligations.ResetState : Prop :=
  Inv State.reset ∧ Live State.reset
  ∧ (∀ n, let h := State.reset.getHart n
      (∀ i, (h.spin i).issue = 0 ∧ (h.spin i).perf = 0 ∧ (h.spin i).status = 0 ∧ (h.spin i).mark = false)
      ∧ (∀ l, (h.bank l).ie = false ∧ (h.bank l).pie = false ∧ (h.bank l).ppl = .U ∧ (h.bank l).tip = false ∧ (h.bank l).vec = 0 ∧ (h.bank l).scr = 0)
      ∧ h.deleg = 0x1000 ∧ h.fxRound = 0 ∧ h.fxFlags = 0 ∧ h.srSrc = 0 ∧ h.srLost = false ∧ h.srStep = 0 ∧ h.logb = 0 ∧ h.logn = 0 ∧ h.logp = 0
      ∧ h.scout = true ∧ h.fcnt = 0 ∧ h.scnt = 0 ∧ h.cfg = 0 ∧ h.msOvf = 0 ∧ h.msPend = false ∧ h.msLost = 0 ∧ h.ovfq = []
      ∧ h.gwRid = 0xFFFF ∧ h.gwNext = 0 ∧ h.duty = 16 ∧ h.req = 5 ∧ h.rcnt = 0 ∧ h.icnt = 0 ∧ h.msent = 0 ∧ h.mrecv = 0
      ∧ State.reset.pwOp n = BitVec.ofNat 64 (5 + 7 * 2 ^ 8) ∧ State.reset.ownerOf n = 0xFFFF)
  ∧ State.reset.now = 0 ∧ (∀ core bank, State.reset.bankReg core bank = 0) ∧ (∀ i : Fin 16, State.reset.cgPat[i] = 0) ∧ State.reset.tkKey = 0 ∧ State.reset.capW = 2400
  ∧ State.reset.csTab = 0 ∧ State.reset.csOvf = 0 ∧ State.reset.csOvfsz = 0 ∧ State.reset.csOvfuse = 0 ∧ State.reset.rgAsel = 0
  ∧ (∀ i : Fin 64, State.reset.rgAlias[i] = 0) ∧ State.reset.ringOverrun = 0
  ∧ (∀ i : Fin 16, State.reset.seqs[i].state = .closed ∧ State.reset.seqs[i].stat = .none ∧ State.reset.seqs[i].bound = false)
  ∧ (∀ f k, let e := State.reset.engine f
      Cells.get e.acc k = 0 ∧ Cells.get e.cim k = 0 ∧ Cells.get e.scale k = 0 ∧ e.lo = 0 ∧ e.h = 0 ∧ e.hinv = 0 ∧ e.g = 0 ∧ e.p = 0 ∧ e.mode = 0
      ∧ e.cntLo = 0 ∧ e.cntHi = 0)

/-- R17, R67: the registers that are constants. -/
def Obligations.ConstantRegisters : Prop :=
  ∀ (s : State) (w : Word),
    s.x 0 = 0 ∧ s.mr 0 = BitVec.allOnes 64 ∧ s.setX 0 w = s ∧ s.setM 0 w = s
    ∧ (∀ d r : BitVec 5, d ≠ 0 → (s.setX d w).x r = if r = d then w else s.x r)
    ∧ (∀ d r : BitVec 3, d ≠ 0 → (s.setM d w).mr r = if r = d then w else s.mr r)

/-- R119, R120, R127, R67, R68: the register-to-register integer instructions in every state, with their .w forms. Each answers
a next state in which x[d] holds the result of the table and everything else is as before. -/
def Obligations.IntegerResults : Prop :=
  ∀ (s : State) (d a b : BitVec 5) (m : Bool),
    let p := s.x a
    let q := s.x b
    (∀ w, RunsX (.add d a b w m) s d (wide w (p.toNat + q.toNat)) 4 m)
    ∧ (∀ w, RunsX (.sub d a b w m) s d (wideInt w (p.toInt - q.toInt)) 4 m)
    ∧ RunsX (.and d a b m) s d (p &&& q) 4 m
    ∧ RunsX (.or d a b m) s d (p ||| q) 4 m
    ∧ RunsX (.xor d a b m) s d (p ^^^ q) 4 m
    ∧ (∀ w, RunsX (.sll d a b w m) s d (wide w (low w p * 2 ^ (q.toNat % width w))) 4 m)
    ∧ (∀ w, RunsX (.srl d a b w m) s d (wide w (low w p / 2 ^ (q.toNat % width w))) 4 m)
    ∧ (∀ w, RunsX (.sra d a b w m) s d (wideInt w (lowInt w p / 2 ^ (q.toNat % width w))) 4 m)
    ∧ (∀ w, RunsX (.rotl d a b w m) s d
        (wide w (low w p * 2 ^ (q.toNat % width w) + low w p / 2 ^ (width w - q.toNat % width w))) 4 m)
    ∧ (∀ w, RunsX (.rotr d a b w m) s d
        (wide w (low w p / 2 ^ (q.toNat % width w) + low w p * 2 ^ (width w - q.toNat % width w))) 4 m)
    ∧ RunsX (.slt d a b m) s d (bit (p.toInt < q.toInt)) 4 m
    ∧ RunsX (.sltu d a b m) s d (bit (p.toNat < q.toNat)) 4 m
    ∧ RunsX (.min d a b m) s d (BitVec.ofInt 64 (min p.toInt q.toInt)) 4 m
    ∧ RunsX (.max d a b m) s d (BitVec.ofInt 64 (max p.toInt q.toInt)) 4 m
    ∧ RunsX (.minu d a b m) s d (BitVec.ofNat 64 (min p.toNat q.toNat)) 4 m
    ∧ RunsX (.maxu d a b m) s d (BitVec.ofNat 64 (max p.toNat q.toNat)) 4 m
    ∧ (∀ w, RunsX (.mul d a b w m) s d (wide w (p.toNat * q.toNat)) 4 m)
    ∧ RunsX (.mulh d a b m) s d (BitVec.ofInt 64 (p.toInt * q.toInt / 2 ^ 64)) 4 m
    ∧ RunsX (.mulhu d a b m) s d (BitVec.ofNat 64 (p.toNat * q.toNat / 2 ^ 64)) 4 m
    ∧ (∀ l, RunsX (.lea d a b l m) s d (BitVec.ofNat 64 (p.toNat + q.toNat * 2 ^ l.toNat)) 4 m)
    ∧ RunsX (.gadr d a b m) s d
        (BitVec.ofNat 64 (p.toNat / 2 ^ 16 % 16 * 2 ^ 60 + p.toNat % 2 ^ 11 * 2 ^ 49 + q.toNat % 2 ^ 49)) 4 m
    ∧ ∀ w : Bool,
      let A := lowInt w p
      let B := lowInt w q
      let U := low w p
      let V := low w q
      (B ≠ 0 → ∃ n r : Int, A = n * B + r ∧ r.natAbs < B.natAbs ∧ (r ≠ 0 → (0 < r ↔ 0 < A))
        ∧ RunsX (.div d a b w m) s d (wideInt w n) 4 m ∧ RunsX (.rem d a b w m) s d (wideInt w r) 4 m)
      ∧ (V ≠ 0 → ∃ n r : Nat, U = n * V + r ∧ r < V
        ∧ RunsX (.divu d a b w m) s d (wide w n) 4 m ∧ RunsX (.remu d a b w m) s d (wide w r) 4 m)
      ∧ (V = 0 → RunsX (.div d a b w m) s d (BitVec.allOnes 64) 4 m
        ∧ RunsX (.divu d a b w m) s d (BitVec.allOnes 64) 4 m
        ∧ RunsX (.rem d a b w m) s d (wideInt w A) 4 m ∧ RunsX (.remu d a b w m) s d (wide w U) 4 m)
      ∧ (A = -2 ^ (width w - 1) → B = -1 → RunsX (.div d a b w m) s d (wideInt w A) 4 m
        ∧ RunsX (.rem d a b w m) s d 0 4 m)

/-- R119, R122, R124 to R126, R130, R133, R134: instructions with one source or an immediate, in every state. -/
def Obligations.UnaryAndImmediateResults : Prop :=
  ∀ (s : State) (d a : BitVec 5) (m : Bool),
    let p := s.x a
    let pos := (s.oxr 0).toNat % 64
    let wid := min ((s.oxr 0).toNat / 256 % 128) 64
    (∀ w, ∃ n, n ≤ width w ∧ low w p / 2 ^ (width w - n) = 0 ∧ (n < width w → (low w p).testBit (width w - 1 - n) = true)
      ∧ RunsX (.clz d a w m) s d (BitVec.ofNat 64 n) 4 m)
    ∧ (∀ w, ∃ n, n ≤ width w ∧ low w p % 2 ^ n = 0 ∧ (n < width w → (low w p).testBit n = true)
      ∧ RunsX (.ctz d a w m) s d (BitVec.ofNat 64 n) 4 m)
    ∧ (∀ w, RunsX (.popc d a w m) s d
        (BitVec.ofNat 64 ((List.range (width w)).filter (fun i => (low w p).testBit i)).length) 4 m)
    ∧ (∀ c : BitVec 3, c.toNat ≤ 2 →
        RunsX (.sext d a c m) s d (BitVec.ofInt 64 (Int.bmod p.toNat (2 ^ (8 * 2 ^ c.toNat)))) 4 m
        ∧ RunsX (.zext d a c m) s d (BitVec.ofNat 64 (p.toNat % 2 ^ (8 * 2 ^ c.toNat))) 4 m)
    ∧ RunsX (.bext d a m) s d (BitVec.ofNat 64 (p.toNat / 2 ^ pos % 2 ^ wid)) 4 m
    ∧ (∃ v : Word, (∀ i < 64, v.getLsbD i = if pos ≤ i ∧ i < pos + wid then p.getLsbD (i - pos) else (s.x d).getLsbD i)
        ∧ RunsX (.bins d a m) s d v 4 m)
    ∧ (∀ i : BitVec 14, RunsX (.addi d a i m) s d (BitVec.ofInt 64 (p.toInt + i.toInt)) 4 m
        ∧ RunsX (.andi d a i m) s d (p &&& BitVec.ofInt 64 i.toInt) 4 m
        ∧ RunsX (.ori d a i m) s d (p ||| BitVec.ofInt 64 i.toInt) 4 m
        ∧ RunsX (.xori d a i m) s d (p ^^^ BitVec.ofInt 64 i.toInt) 4 m
        ∧ RunsX (.slti d a i m) s d (bit (p.toInt < i.toInt)) 4 m
        ∧ RunsX (.sltiu d a i m) s d (bit (p.toNat < (BitVec.ofInt 64 i.toInt).toNat)) 4 m)
    ∧ (∀ h : BitVec 6, RunsX (.slli d a h m) s d (BitVec.ofNat 64 (p.toNat * 2 ^ h.toNat)) 4 m
        ∧ RunsX (.srli d a h m) s d (BitVec.ofNat 64 (p.toNat / 2 ^ h.toNat)) 4 m
        ∧ RunsX (.srai d a h m) s d (BitVec.ofInt 64 (p.toInt / 2 ^ h.toNat)) 4 m)
    ∧ (∀ i : BitVec 19, RunsX (.li d i m) s d (BitVec.ofInt 64 i.toInt) 4 m
        ∧ RunsX (.lsh d i m) s d (BitVec.ofNat 64 ((s.x d).toNat * 2 ^ 19 + i.toNat)) 4 m
        ∧ RunsX (.pcrel d i m) s d (BitVec.ofInt 64 (s.hart.pc.toInt + 2 * i.toInt)) 4 m)
    ∧ (∀ n : BitVec 3, RunsX (.oxrd d n m) s d (s.oxr n) 4 m
        ∧ RunsOx (.oxmv a n m) s n p 4 m
        ∧ ∀ i : BitVec 14, RunsOx (.oxli a n i m) s n (BitVec.ofInt 64 (p.toInt + i.toInt)) 4 m)
    ∧ RunsX (.tsnow d m) s d s.now 4 m
    ∧ (∀ l, RunsTo (.lpad l m) s (s.hart.pc + 4) m)
    ∧ RunsTo .cNop s (s.hart.pc + 2) false ∧ RunsTo .cMark s (s.hart.pc + 2) true

/-- R121: the six forms of sel in every state. -/
def Obligations.SelectTestsOldDestination : Prop :=
  ∀ (s : State) (d a b : BitVec 5) (m : Bool),
    let v := (s.x d).toInt
    let pick (c : Bool) : Word := if c = true then s.x a else s.x b
    RunsX (.sel d a b 0 m) s d (pick (v == 0)) 4 m
    ∧ RunsX (.sel d a b 1 m) s d (pick (v != 0)) 4 m
    ∧ RunsX (.sel d a b 2 m) s d (pick (decide (v < 0))) 4 m
    ∧ RunsX (.sel d a b 3 m) s d (pick (decide (0 ≤ v))) 4 m
    ∧ RunsX (.sel d a b 4 m) s d (pick (decide (0 < v))) 4 m
    ∧ RunsX (.sel d a b 5 m) s d (pick (decide (v ≤ 0))) 4 m

/-- R68, R83, R128, R129, R137: the compact forms that touch neither memory nor a trap, and the direct transfers of control, in
every state. -/
def Obligations.CompactFormsAndBranches : Prop :=
  ∀ (s : State) (d a b : BitVec 5) (o : BitVec 14) (j : BitVec 24) (m : Bool),
    let old := s.x d
    let p := s.x a
    let q := s.x b
    let pc := s.hart.pc
    let near := BitVec.ofInt 64 (pc.toInt + 2 * o.toInt)
    let far := BitVec.ofInt 64 (pc.toInt + 2 * j.toInt)
    RunsX (.cMov d a) s d p 2 false
    ∧ (∀ i : BitVec 6, RunsX (.cLi d i) s d (BitVec.ofInt 64 i.toInt) 2 false
        ∧ RunsX (.cAddi d i) s d (BitVec.ofInt 64 (old.toInt + i.toInt)) 2 false
        ∧ RunsTo (.cBz d i) s (if old.toNat = 0 then BitVec.ofInt 64 (pc.toInt + 2 * i.toInt) else pc + 2) false
        ∧ RunsTo (.cBnz d i) s (if old.toNat = 0 then pc + 2 else BitVec.ofInt 64 (pc.toInt + 2 * i.toInt)) false)
    ∧ RunsX (.cAdd d a) s d (BitVec.ofNat 64 (old.toNat + p.toNat)) 2 false
    ∧ RunsX (.cSub d a) s d (BitVec.ofInt 64 (old.toInt - p.toInt)) 2 false
    ∧ RunsX (.cAnd d a) s d (old &&& p) 2 false
    ∧ RunsX (.cOr d a) s d (old ||| p) 2 false
    ∧ (∀ c : BitVec 11, RunsTo (.cJmp c) s (BitVec.ofInt 64 (pc.toInt + 2 * c.toInt)) false)
    ∧ RunsTo (.beq a b o m) s (if p = q then near else pc + 4) m
    ∧ RunsTo (.bne a b o m) s (if p = q then pc + 4 else near) m
    ∧ RunsTo (.blt a b o m) s (if p.toInt < q.toInt then near else pc + 4) m
    ∧ RunsTo (.bge a b o m) s (if q.toInt ≤ p.toInt then near else pc + 4) m
    ∧ RunsTo (.bltu a b o m) s (if p.toNat < q.toNat then near else pc + 4) m
    ∧ RunsTo (.bgeu a b o m) s (if q.toNat ≤ p.toNat then near else pc + 4) m
    ∧ RunsTo (.jmp j m) s far m
    ∧ RunsXTo (.call j m) s 1 (pc + 4) far m

/-- R131, R132, R64, R13: the returns and the checked jumps. The state after a fetch or a blocking read is the one those
operations answer. A trap in Land leaves sn0 without the table read's number: the model's reading of R13 (log 27). -/
def Obligations.ReturnsAndLandingPads : Prop :=
  ∀ (s : State) (a b : BitVec 5) (m : Bool),
    let t := s.x a
    let label : BitVec 16 := (s.oxr 0).setWidth 16
    let count := (s.oxr 0).toNat / 2 ^ 32 % 2 ^ 16
    let table (i : Instr) (link : Bool) : Prop :=
      (count ≤ (s.x b).toNat → exec i s = .next (trap 0x08 (s.x b) s))
      ∧ ((s.x b).toNat < count → t.toNat % 4 ≠ 0 → exec i s = .next (trap 0x03 t s))
      ∧ ((s.x b).toNat < count → t.toNat % 4 = 0 →
        (∀ st, blockRead (t + 4 * s.x b) 4 s = .wait st → exec i s = .next st)
        ∧ (∀ c at_ st, blockRead (t + 4 * s.x b) 4 s = .fault c at_ st → exec i s = .next (trap c at_ st))
        ∧ ∀ e s1, blockRead (t + 4 * s.x b) 4 s = .got e s1 →
          Lands i s s1 (BitVec.ofInt 64 (t.toInt + Int.bmod (leNat e) (2 ^ 32))) label link State.readDone m)
    (t.toNat % 2 = 0 → RunsTo (.ret a m) s t m)
    ∧ (t.toNat % 2 = 1 → exec (.ret a m) s = .next (trap 0x03 t s))
    ∧ ((s.x 1).toNat % 2 = 0 → RunsTo .cRet s (s.x 1) false)
    ∧ ((s.x 1).toNat % 2 = 1 → exec .cRet s = .next (trap 0x03 (s.x 1) s))
    ∧ Lands (.callr a m) s s t label true id m
    ∧ table (.jt a b m) false ∧ table (.jtc a b m) true
    ∧ (s.readDone.hart.spin 0).issue = (s.hart.spin 0).issue + 1

/-- R134: the waits of the time instructions, in every state. -/
def Obligations.TimeInstructions : Prop :=
  ∀ (s : State) (d a : BitVec 5) (m : Bool),
    let rel := BitVec.ofNat 64 (s.now.toNat + min (s.x a).toNat 1048576)
    let abs_ := BitVec.ofNat 64 (min (s.x a).toNat (s.now.toNat + 1048576))
    let waits (i : Instr) (kind : BitVec 2) (deadline : Word) : Prop :=
      exec i s = .next { s with hart := { s.hart with run := .timed kind deadline d m, idleSince := s.now } }
    (rel.toNat ≤ s.now.toNat → RunsX (.twait d a m) s d s.now 4 m ∧ RunsX (.sleep d a m) s d 0 4 m)
    ∧ (s.now.toNat < rel.toNat → waits (.twait d a m) 0 rel ∧ waits (.sleep d a m) 1 rel)
    ∧ (abs_.toNat ≤ s.now.toNat → RunsX (.tsat d a m) s d s.now 4 m)
    ∧ (s.now.toNat < abs_.toNat → waits (.tsat d a m) 2 abs_)

/-- R148, R149, R116, R157, R168, R182, R188, R189, R348, R83: every scalar load in every state. What holds a reply slot, and that an access of
the own slice needs none, is log 58. -/
def Obligations.LoadsIssue : Prop :=
  ∀ (s : State) (d a b : BitVec 5) (sn : BitVec 3) (m : Bool),
    let at_ (n : Nat) (o : BitVec 10) : Word := BitVec.ofInt 64 ((s.x a).toInt + n * o.toInt)
    let ix : Word := BitVec.ofNat 64 ((s.x a).toNat + (s.x b).toNat)
    (∀ o : BitVec 10, LoadsAt (.ldB d a sn o m) s (at_ 1 o) 1 false d sn 4 m)
    ∧ (∀ o : BitVec 10, LoadsAt (.lduB d a sn o m) s (at_ 1 o) 1 true d sn 4 m)
    ∧ (∀ o : BitVec 10, LoadsAt (.ldH d a sn o m) s (at_ 2 o) 2 false d sn 4 m)
    ∧ (∀ o : BitVec 10, LoadsAt (.lduH d a sn o m) s (at_ 2 o) 2 true d sn 4 m)
    ∧ (∀ o : BitVec 10, LoadsAt (.ldW d a sn o m) s (at_ 4 o) 4 false d sn 4 m)
    ∧ (∀ o : BitVec 10, LoadsAt (.lduW d a sn o m) s (at_ 4 o) 4 true d sn 4 m)
    ∧ (∀ o : BitVec 10, LoadsAt (.ldD d a sn o m) s (at_ 8 o) 8 false d sn 4 m)
    ∧ LoadsAt (.ldxB d a b sn m) s ix 1 false d sn 4 m
    ∧ LoadsAt (.ldxuB d a b sn m) s ix 1 true d sn 4 m
    ∧ LoadsAt (.ldxH d a b sn m) s ix 2 false d sn 4 m
    ∧ LoadsAt (.ldxuH d a b sn m) s ix 2 true d sn 4 m
    ∧ LoadsAt (.ldxW d a b sn m) s ix 4 false d sn 4 m
    ∧ LoadsAt (.ldxuW d a b sn m) s ix 4 true d sn 4 m
    ∧ LoadsAt (.ldxD d a b sn m) s ix 8 false d sn 4 m
    ∧ (∀ o : BitVec 6, LoadsAt (.cLd d o) s (BitVec.ofNat 64 ((s.x 2).toNat + 8 * o.toNat)) 8 false d 0 2 false)

/-- R148, R149, R156, R158, R184, R188, R189, R83: every scalar store in every state. A store to a place that no hart of another
node has is left to that node (log 59). -/
def Obligations.StoresIssue : Prop :=
  ∀ (s : State) (d a b : BitVec 5) (sn : BitVec 3) (m : Bool),
    let at_ (n : Nat) (o : BitVec 10) : Word := BitVec.ofInt 64 ((s.x a).toInt + n * o.toInt)
    let ix : Word := BitVec.ofNat 64 ((s.x a).toNat + (s.x b).toNat)
    (∀ o : BitVec 10, StoresAt (.stB d a sn o m) s (at_ 1 o) 1 (leBytes (s.x d).toNat 1) sn 4 m)
    ∧ (∀ o : BitVec 10, StoresAt (.stH d a sn o m) s (at_ 2 o) 2 (leBytes (s.x d).toNat 2) sn 4 m)
    ∧ (∀ o : BitVec 10, StoresAt (.stW d a sn o m) s (at_ 4 o) 4 (leBytes (s.x d).toNat 4) sn 4 m)
    ∧ (∀ o : BitVec 10, StoresAt (.stD d a sn o m) s (at_ 8 o) 8 (leBytes (s.x d).toNat 8) sn 4 m)
    ∧ StoresAt (.stxB d a b sn m) s ix 1 (leBytes (s.x d).toNat 1) sn 4 m
    ∧ StoresAt (.stxH d a b sn m) s ix 2 (leBytes (s.x d).toNat 2) sn 4 m
    ∧ StoresAt (.stxW d a b sn m) s ix 4 (leBytes (s.x d).toNat 4) sn 4 m
    ∧ StoresAt (.stxD d a b sn m) s ix 8 (leBytes (s.x d).toNat 8) sn 4 m
    ∧ (∀ o : BitVec 6, StoresAt (.cSt d o) s (BitVec.ofNat 64 ((s.x 2).toNat + 8 * o.toNat)) 8 (leBytes (s.x d).toNat 8) 0 2 false)

/-- R161, R116, R158, R188, R189, R348: every atomic in every state. What holds a reply slot, and that an access of the own
slice needs none, is log 58. -/
def Obligations.AtomicsIssue : Prop :=
  ∀ (s : State) (d a b : BitVec 5) (sn : BitVec 3) (m : Bool),
    AtomicAt (.amoAdd d a b false sn m) s a b 0 8 d sn m ∧ AtomicAt (.amoAdd d a b true sn m) s a b 16 4 d sn m
    ∧ AtomicAt (.amoAnd d a b false sn m) s a b 1 8 d sn m ∧ AtomicAt (.amoAnd d a b true sn m) s a b 17 4 d sn m
    ∧ AtomicAt (.amoOr d a b false sn m) s a b 2 8 d sn m ∧ AtomicAt (.amoOr d a b true sn m) s a b 18 4 d sn m
    ∧ AtomicAt (.amoXor d a b false sn m) s a b 3 8 d sn m ∧ AtomicAt (.amoXor d a b true sn m) s a b 19 4 d sn m
    ∧ AtomicAt (.amoMin d a b false sn m) s a b 4 8 d sn m ∧ AtomicAt (.amoMin d a b true sn m) s a b 20 4 d sn m
    ∧ AtomicAt (.amoMax d a b false sn m) s a b 5 8 d sn m ∧ AtomicAt (.amoMax d a b true sn m) s a b 21 4 d sn m
    ∧ AtomicAt (.amoMinu d a b false sn m) s a b 6 8 d sn m ∧ AtomicAt (.amoMinu d a b true sn m) s a b 22 4 d sn m
    ∧ AtomicAt (.amoMaxu d a b false sn m) s a b 7 8 d sn m ∧ AtomicAt (.amoMaxu d a b true sn m) s a b 23 4 d sn m
    ∧ AtomicAt (.amoSwap d a b false sn m) s a b 8 8 d sn m ∧ AtomicAt (.amoSwap d a b true sn m) s a b 24 4 d sn m
    ∧ AtomicAt (.amoCas d a b false sn m) s a b 9 8 d sn m ∧ AtomicAt (.amoCas d a b true sn m) s a b 25 4 d sn m
    ∧ AtomicAt (.amoFadd d a b sn m) s a b 10 4 d sn m
    ∧ AtomicAt (.amoFadd2 d a b sn m) s a b 11 4 d sn m

/-- R162, R163: prefetch and flush in every state. -/
def Obligations.PrefetchAndFlush : Prop :=
  ∀ (s : State) (a n : BitVec 5) (sn : BitVec 3) (m : Bool),
    let page (at_ : Word) (u v : State) : Prop :=
      let hit := u.tlbFind (.data u.hart.num) (gaNode at_) ((u.hart.region).getD 0) (gaOff at_) false
      (gaCore at_ ≠ hbmCore → v = u)
      ∧ (gaCore at_ = hbmCore → gaNode at_ = u.nodeId →
          let w := translateLocal u (.data u.hart.num) u.hart.region u.hart.level .load false true (gaOff at_)
          (w.cause ≠ 0xFF → v = w.st) ∧ (w.cause = 0xFF → v = reportPoison u.hart.region w.key w.st))
      ∧ (gaCore at_ = hbmCore → gaNode at_ ≠ u.nodeId → u.hart.region = none ∨ u.reaches (gaNode at_) = false → v = u)
      ∧ (gaCore at_ = hbmCore → gaNode at_ ≠ u.nodeId → ∀ r, u.hart.region = some r → u.reaches (gaNode at_) = true →
          let q : Ask := ⟨u.hart.num, gaNode at_, r, gaOff at_ / 65536, 4, u.hart.level == .U⟩
          (∀ e u1, hit = some (e, u1) → v = u1)
          ∧ (hit = none → q ∈ u.asks → v = u)
          ∧ (hit = none → q ∉ u.asks → v = { u with asks := v.asks, sendq := v.sendq, msgMoved := v.msgMoved } ∧ v.asks = u.asks ++ [q]
              ∧ v.sendq = u.sendq ++ [⟨gaNode at_, 0, .transRequest (gaNode at_) (some r) (at_.setWidth 49) 4 (u.hart.level == .U)⟩]))
    (∃ us : Nat → State, us 0 = s ∧ (∀ k ≤ n.toNat, page (BitVec.ofNat 64 ((s.x a).toNat + 65536 * k)) (us k) (us (k + 1)))
      ∧ exec (.pref a n sn m) s = .next ((us (n.toNat + 1)).done 4 m))
    ∧ (s.poison = [] → ∃ t, exec (.pref a n sn m) s = .next t ∧ Ends s t (s.hart.pc + 4) m ∧ SameBytes s t
      ∧ t = { s with
          hart := { mayEnd s.hart t.hart with dtlb := t.hart.dtlb }
          tlb := t.tlb
          csPages := t.csPages
          asks := t.asks
          sendq := t.sendq
          msgMoved := t.msgMoved
          freeCtr := t.freeCtr })
    ∧ ∃ t, exec (.cbflush a sn m) s = .next t ∧ Ends s t (s.hart.pc + 4) m
      ∧ Drains s t (fun e => e.strand == sn && (a == 0 || e.line == (s.x a).toNat / 64))
      ∧ Only (fun old new => { mayEnd old new with comb := new.comb }) s t

/-- R116, R149, R151, R157, R159, R168, R204, R206, R209, R212: a load is performed and its result returns. -/
def Obligations.LoadsDeliver : Prop :=
  (∀ (s s1 : State) (o : Op) (p : Word) (n key : Nat),
    Due s o → s.moving = true → o.kind.loadPlace = some (p, n) → 0 < n →
    let isVec := (match o.kind with | .vload .. | .streamLoad .. => true | _ => false)
    let got (st : State) (b : List Byte) : Result := o.kind.result st.hart (seenBytes s o p.toNat b)
    let reader : Reader := ⟨s.hart.num, o.strand, true, false⟩
    let table := hartTable s.hart.num
    (Supplied s o p.toNat n → ∃ t, exec (.routerReadAbsorb o.id) s = .next t
      ∧ Returns s t o (got s (List.replicate n 0)) [] ∧ Only mayPerform s t)
    ∧ (¬Supplied s o p.toNat n → isVec = true → s.foreignFormatted s.hart.num p = true →
      ∃ t, exec (.routerReadAbsorb o.id) s = .next t ∧ Performs s t o.id ∧ Only mayPerform s t
      ∧ (∀ r j ea fmt, o.kind = .streamLoad r j ea fmt →
          t.hart.rets = s.hart.rets ++ [⟨o.id, o.strand, .stream r j 0 0 0x05, none, []⟩])
      ∧ ((∀ r j ea fmt, o.kind ≠ .streamLoad r j ea fmt) → ∃ f, f.cause = 0x05 ∧ f.reason = 11 ∧ f.pc = o.pc
          ∧ t.hart.rets = s.hart.rets ++ [⟨o.id, o.strand, .nothing [] [], some f, []⟩]))
    ∧ (¬Supplied s o p.toNat n → (isVec = true → s.foreignFormatted s.hart.num p = false) →
      translate s o.region o.level .load p = ⟨s1, 0, 0, key⟩ →
      (gaNode p = s.nodeId → gaCore p ≠ hbmCore → s1.poisoned key = false → ∃ t, exec (.routerReadAbsorb o.id) s = .next t
        ∧ Returns s1 t o (got s1 (s1.readKey key n)) [] ∧ Only mayPerform s1 t)
      ∧ (gaNode p = s.nodeId → gaCore p = hbmCore → s1.poisoned key = false → key % 64 + n ≤ 64 →
        (∀ e ∈ s1.reads, absorbs s1.hart reader key n e = false) → (∀ e ∈ s1.reads, e.id ≠ s1.nextRead) →
        ∃ t e, exec (.routerReadAbsorb o.id) s = .next t
        ∧ t.reads = s1.reads.map (fun f => if f.id < s1.nextRead ∧ f.cluster = table ∧ f.line = key / 64 then
            { f with barred := (s.hart.num, key, key + n) :: f.barred } else f) ++ [e]
        ∧ e.id = s1.nextRead ∧ e.line = key / 64 ∧ e.opened = s.now ∧ e.written = false ∧ e.remote = false ∧ e.barred = []
        ∧ (∀ i < 64, e.data.extractLsb' (8 * i) 8 = Cells.get s1.mem (key / 64 * 64 + i))
        ∧ (table < 32 → (s1.reads.filter (fun f => f.cluster == table)).length < 16 → e.cluster = table)
        ∧ (32 ≤ table ∨ 16 ≤ (s1.reads.filter (fun f => f.cluster == table)).length →
            e.cluster = aloneTable ∧ ∀ (h : Hart) (q : Reader) (k j : Nat), h.num < 1092 → absorbs h q k j e = false)
        ∧ e.readers = [(s.hart.num, o.strand)] ∧ t.nextRead = s1.nextRead + 1
        ∧ Returns s1 t o (got s1 (s1.mem.bytes key n)) [e.id] ∧ SameBytes s1 t
        ∧ t = { s1 with hart := mayPerform s1.hart t.hart, reads := t.reads, nextRead := t.nextRead })
      ∧ (gaNode p = s.nodeId → gaCore p = hbmCore → s1.poisoned key = false → key % 64 + n ≤ 64 →
        ∀ e, s1.reads.find? (absorbs s1.hart reader key n) = some e → (∀ f ∈ s1.reads, f.id = e.id → f.data = e.data) →
        ∃ t, exec (.routerReadAbsorb o.id) s = .next t ∧ t.reads.length = s1.reads.length
        ∧ (∃ f ∈ t.reads, f.id = e.id ∧ (s.hart.num, o.strand) ∈ f.readers)
        ∧ Returns s1 t o (got s1 (leBytes (e.data.toNat / 2 ^ (8 * (key % 64))) n)) [e.id]
        ∧ SameBytes s1 t ∧ t = { s1 with hart := mayPerform s1.hart t.hart, reads := t.reads })
      ∧ (gaNode p ≠ s.nodeId → (∀ e ∈ s1.reads, absorbs s1.hart reader key n e = false) →
        ∃ t q, exec (.routerReadAbsorb o.id) s = .next t ∧ t.hart.op? o.id = some q ∧ q.kind = o.kind ∧ q.sent = some s1.nextRead
        ∧ (∀ a b, (a, b) ∈ q.fwd → forwardByte (s.hart.olderOps o.id) a = some b) ∧ t.hart.rets = s1.hart.rets
        ∧ t.sendq = s1.sendq ++ [⟨gaNode p, 0, .request (gaNode p) s.hart.num s1.nextRead
            ⟨s.nodeId, o.region, o.level == .M, .read, BitVec.ofNat 64 key, n, 0, 0, 0, isVec⟩⟩] ∧ SameBytes s1 t)))
  ∧ (∀ (s : State) (o : Op) (fmt : BitVec 4) (t : Bool) (vd idx : BitVec 5) (base : Word) (lanes : List (Nat × Word)),
    Due s o → s.moving = true → o.kind = .vloadx fmt t vd idx base lanes →
    (∀ f ∈ s.far, ¬(f.hart = s.hart.num ∧ f.use = .op o.id)) → (∀ l ∈ s.locks, ¬(l.hart = some s.hart.num ∧ l.op = o.id)) →
    let at_ (l : Nat × Word) : Word := (gatherPlace fmt t l.2).1
    let size (l : Nat × Word) : Nat := (gatherPlace fmt t l.2).2
    (∀ l ∈ lanes, 0 < size l ∧ gaNode (at_ l) = s.nodeId ∧ gaCore (at_ l) ≠ hbmCore ∧ s.foreignFormatted s.hart.num (at_ l) = false
      ∧ ∃ key, translate s o.region o.level .load (at_ l) = ⟨s, 0, 0, key⟩ ∧ s.poisoned key = false) →
    let value (l : Nat × Word) : Rounded := gatherValue fmt (l.2.toNat % 2 ^ 15)
      (seenBytes s o (at_ l).toNat (s.readKey (translate s o.region o.level .load (at_ l)).key (size l)))
    ∃ u, exec (.routerReadAbsorb o.id) s = .next u ∧ Only mayPerform s u
      ∧ Returns s u o (.lanes vd t (lanes.map (fun l => (l.1, BitVec.ofNat 32 (value l).bits))) idx
          (lanes.foldl (fun acc l => acc ||| (value l).flags) 0)) [])
  ∧ (∀ (s s1 : State) (o : Op) (ea : Word) (size key : Nat) (uns : Bool) (d : BitVec 5),
    size = 1 ∨ size = 2 ∨ size = 4 ∨ size = 8 → Due s o → o.kind = .load ea size uns d → s.moving = true
    → (∀ r ∈ s1.hart.rets, r.id ≠ o.id) → gaNode ea = s.nodeId → gaCore ea ≠ hbmCore → ¬Supplied s o ea.toNat size
    → translate s o.region o.level .load ea = ⟨s1, 0, 0, key⟩ → s1.poisoned key = false →
    ∃ t, exec (.nonblockingResultReturn o.id) s = .next t
      ∧ WritesX s1 t d (extended uns size (leNat (seenBytes s o ea.toNat (s1.readKey key size)))) ∧ Performs s1 t o.id
      ∧ t.hart.rets = s1.hart.rets ∧ Only (fun old new => { mayPerform old new with x := new.x }) s1 t)
  ∧ (∀ (s : State) (k : Nat) (ok : Bool) (reason : BitVec 8) (data : BitVec 512) (e : ReadEntry),
      s.reads.find? (fun f => f.id == k) = some e →
      let closed : State := { s with reads := s.reads.filter (fun f => f.id != k) }
      (e.remote = false → exec (.readReplyArrival k ok reason data) s = .next closed)
      ∧ (e.remote = true → s.answerable ((e.readers.head?.map (·.1)).getD 0) k ok reason = false →
          exec (.readReplyArrival k ok reason data) s = .next s)
      ∧ ∀ o p n, e.remote = true → s.answerable ((e.readers.head?.map (·.1)).getD 0) k ok reason = true → e.readers ≠ [] →
        (∀ q ∈ e.readers, q.1 = s.hart.num) → s.hart.waitingOn k = [o] → o.kind.loadPlace = some (p, n) →
        s.hart.op? o.id = some o → p.toNat % 64 + n ≤ 64 → (∀ f ∈ s.far, f.num = k → f.write = true) →
        (∀ q ∈ s.hart.ops, q.sent ≠ some gatherSent) →
        (ok = true → ∃ t, exec (.readReplyArrival k ok reason data) s = .next t ∧ Only mayPerform closed t
          ∧ Returns s t o (o.kind.result s.hart ((List.range n).map (fun i =>
              ((o.fwd.find? (fun q => q.1 == p.toNat + i)).map (·.2)).getD (data.extractLsb' (8 * (p.toNat % 64 + i)) 8)))) [])
        ∧ (ok = false → (∀ r j ea fmt, o.kind ≠ .streamLoad r j ea fmt) →
          ∃ t f, exec (.readReplyArrival k ok reason data) s = .next t
          ∧ Only mayPerform closed t ∧ Performs s t o.id ∧ f.cause = 0x05 ∧ f.reason = reason ∧ f.pc = o.pc
          ∧ t.hart.rets = s.hart.rets ++ [⟨o.id, o.strand, .nothing [] [], some f, []⟩]))
  ∧ (∀ (s : State) (r : Ret), s.moving = true → s.hart.op? r.id = none → s.hart.rets.find? (fun q => q.id == r.id) = some r
      → (∀ k ∈ r.entries, ∀ e ∈ s.reads, e.id ≠ k) →
      let gone (t : State) : Prop := t.hart.rets = s.hart.rets.filter (fun q => q.id != r.id)
      let mayVec (old new : Hart) : Hart := { old with v := new.v, fxFlags := new.fxFlags, rets := new.rets }
      let out (p : State → Prop) : Prop := ∃ t, exec (.nonblockingResultReturn r.id) s = .next t ∧ gone t ∧ p t
      (∀ d v, r.res = .xval d v → r.fault = none → out (fun t => WritesX s t d v
        ∧ Only (fun old new => { old with x := new.x, rets := new.rets }) s t))
      ∧ (∀ vd vals fl, r.res = .vval vals fl ∨ r.res = .acc vd vals fl → r.fault = none → (vals.map (·.1)).Nodup →
        (∀ p ∈ vals, s.hart.bound p.1 = none) → out (fun t => t.hart.fxFlags = s.hart.fxFlags ||| fl ∧ Only mayVec s t
          ∧ ∀ q, t.vr q = ((vals.find? (fun p => p.1 == q)).map (·.2)).getD (s.vr q)))
      ∧ (∀ vd t16 vals idx fl, r.res = .lanes vd t16 vals idx fl → r.fault = none → s.hart.bound vd = none →
        out (fun t => t.hart.fxFlags = s.hart.fxFlags ||| fl ∧ Only mayVec s t ∧ (∀ q, q ≠ vd → t.vr q = s.vr q)
          ∧ ∀ j < laneCount t16, lane t16 (t.vr vd) j
              = ((vals.find? (fun p => p.1 == j)).map (fun p => p.2.toNat % 2 ^ laneWidth t16)).getD (lane t16 (s.vr vd) j)))
      ∧ (∀ q j v fl c b, r.res = .stream q j v fl c → r.fault = none → s.hart.bound q = some b → b.pos ≤ j →
        out (fun t => t.hart.bound q = some { b with ready := b.ready ++ [(j, v, fl, c)] }
          ∧ (∀ g, 24 ≤ g.toNat → g ≠ q → t.hart.bound g = s.hart.bound g)
          ∧ Only (fun old new => { old with binds := new.binds, rets := new.rets }) s t))
      ∧ (∀ f, r.res = .nothing [] [] → r.fault = some f → out (fun t => f ∈ t.hart.faults
        ∧ (∀ g ∈ s.hart.faults, g.id ≠ f.id → g ∈ t.hart.faults)
        ∧ Only (fun old new => { old with rets := new.rets, faults := new.faults }) s t)))

/-- R149, R156, R158, R168, R171, R204, R348, R353: a store is performed. Which level and region a merged entry's write carries is log
75. -/
def Obligations.StoresReachMemory : Prop :=
  (∀ (s : State) (o : Op) (ws : List (Word × Nat × List Byte)) (vec : Bool) (st : BitVec 3),
    Inv s → Due s o → o.kind = .store ws vec false → s.unsentBy o.id = false → s.farWriting o.id = false → (∀ w ∈ s.hart.writes, w.num ≠ o.id) →
    (∀ w ∈ ws, gaNode w.1 = s.nodeId ∧ PlainPlace s w.2.1 w.2.2.length) →
    ((∀ w ∈ ws, vec = true → s.foreignFormatted s.hart.num w.1 = false) → ∃ t, exec (.writeAcknowledgement o.id st) s = .next t
      ∧ WritesPieces s t (ws.map (fun w => (w.2.1, w.2.2))) ∧ Performs s t o.id
      ∧ t = { s with hart := mayPerform s.hart t.hart, mem := t.mem, reads := t.reads })
    ∧ (ws ≠ [] → vec = true → (∀ w ∈ ws, s.foreignFormatted s.hart.num w.1 = true) →
      ∃ t, exec (.writeAcknowledgement o.id st) s = .next t ∧ Performs s t o.id ∧ Only mayPerform s t
        ∧ (t.hart.spin o.strand).status.getLsbD 1 = true))
  ∧ (∀ (s : State) (k : Nat) (e : CombEntry), s.hart.comb[k]? = some e → s.hart.drainable k = true →
    let os := s.hart.entryOps e
    let pieces := os.flatMap (fun o => o.pieces e.line)
    let left (h : Hart) : Prop := h.comb = s.hart.comb.take k ++ s.hart.comb.drop (k + 1)
    let may (old new : Hart) : Hart := { mayPerform old new with comb := new.comb }
    (Inv s → pieces ≠ [] → (∀ w ∈ pieces, gaNode w.1 = s.nodeId ∧ gaCore w.1 = hbmCore ∧ PlainPlace s w.2.1 w.2.2.length) →
      ∃ t, exec (.combiningDrain k) s = .next t ∧ WritesPieces s t (pieces.map (fun w => (w.2.1, w.2.2))) ∧ left t.hart
        ∧ t = { s with hart := may s.hart t.hart, mem := t.mem, reads := t.reads }
        ∧ ∀ o ws vec, os = [o] → o.kind = .store ws vec true → o.sent = none →
          ((∀ w ∈ ws, w.1.toNat / 64 = e.line) → Performs s t o.id)
          ∧ ((∃ w ∈ ws, w.1.toNat / 64 ≠ e.line) →
              t.hart.op? o.id = some { o with kind := .store (ws.filter (fun w => w.1.toNat / 64 ≠ e.line)) vec true }))
    ∧ ∀ o ws vec w, os = [o] → o.kind = .store ws vec true → o.sent = none → pieces.head? = some w →
      (∀ q ∈ pieces, gaNode q.1 = gaNode w.1) → gaNode w.1 ≠ s.nodeId →
      let rest := ws.filter (fun q => q.1.toNat / 64 ≠ e.line)
      (s.reaches (gaNode w.1) = false → rest = [] → ∃ t, exec (.combiningDrain k) s = .next t ∧ Performs s t o.id ∧ left t.hart
        ∧ (t.hart.spin o.strand).status.getLsbD 0 = true ∧ Only may s t)
      ∧ (s.reaches (gaNode w.1) = true → w.2.1 ≠ 0 → ∃ t acc, exec (.combiningDrain k) s = .next t ∧ left t.hart ∧ SameBytes s t
        ∧ t.hart.op? o.id = some { o with kind := .store rest vec true, sent := some 1 }
        ∧ t.hart.writes = s.hart.writes ++ [⟨s.hart.nextOp, gaNode w.1, [o.id], pieces.map (fun q => (q.1.toNat, q.1.toNat + q.2.2.length))⟩]
        ∧ t.hart.nextOp = s.hart.nextOp + 1
        ∧ t.sendq = s.sendq ++ [⟨gaNode w.1, 2, .write (gaNode w.1) s.hart.num s.hart.nextOp acc⟩]
        ∧ acc.node = s.nodeId ∧ acc.region = o.region ∧ acc.mmode = (o.level == .M) ∧ acc.kind = .write ∧ acc.size = 64
        ∧ acc.addr = BitVec.ofNat 64 (w.2.1 / 64 * 64) ∧ acc.vector = vec
        ∧ (∀ i < 64, acc.mask.getLsbD i = (writesByte pieces (64 * e.line + i)).isSome
            ∧ acc.data.extractLsb' (8 * i) 8 = (writesByte pieces (64 * e.line + i)).getD 0)))
  ∧ (∀ (s : State) (w : SentWrite) (o : Op) (rest : List (Word × Nat × List Byte)) (vec buf : Bool) (n : Nat) (st : BitVec 3),
    s.hart.writes.find? (fun v => v.num == w.num) = some w → w.ops = [o.id] → s.hart.op? o.id = some o
    → o.kind = .store rest vec buf → o.sent = some n → 0 < n →
    let gone (t : State) : Prop := t.hart.writes = s.hart.writes.filter (fun v => v.num != w.num)
    let may (old new : Hart) : Hart := { mayPerform old new with writes := new.writes }
    let ored (t : State) (bits : BitVec 3) : Prop := ∀ i < 3,
      (t.hart.spin o.strand).status.getLsbD i = ((s.hart.spin o.strand).status.getLsbD i || bits.getLsbD i)
    (s.unsentBy w.num = true → exec (.writeAcknowledgement w.num st) s = .next s)
    ∧ (s.unsentBy w.num = false → rest = [] → n = 1 → ∃ t, exec (.writeAcknowledgement w.num st) s = .next t ∧ Performs s t o.id
        ∧ gone t ∧ ored t st ∧ Only may s t)
    ∧ (s.unsentBy w.num = false → rest ≠ [] ∨ 1 < n → ∃ t, exec (.writeAcknowledgement w.num st) s = .next t
        ∧ t.hart.op? o.id = some { o with sent := if n = 1 then none else some (n - 1) } ∧ gone t ∧ ored t st ∧ Only may s t)
    ∧ (∀ it, s.sendq.find? (fun i => match i.pkt with | .write _ h m _ => h == s.hart.num && m == w.num | _ => false) = some it →
        (s.suspended it.peer = true → s.sendq.find? (fun i => i.peer == it.peer && i.cls == 2) = some it → rest = [] → n = 1 →
          ∃ t, exec (.postedWriteRefused w.num) s = .next t ∧ Performs s t o.id ∧ gone t ∧ ored t 4
            ∧ t = { s with hart := may s.hart t.hart, sendq := s.sendq.erase it })
        ∧ (s.suspended it.peer = false ∨ s.sendq.find? (fun i => i.peer == it.peer && i.cls == 2) ≠ some it →
          exec (.postedWriteRefused w.num) s = .next s)))
  ∧ (∀ (s : State) (n : Nat) (it : SendItem),
    (∀ w ∈ s.hart.writes, w.num ≠ n) → s.suspended it.peer = true → s.sendq.find? (fun i => i.peer == it.peer && i.cls == 2) = some it →
    s.sendq.find? (fun i => match i.pkt with | .write _ h m _ => h == s.hart.num && m == n | _ => false) = some it →
    exec (.postedWriteRefused n) s = .next { s with
      sendq := s.sendq.erase it
      far := s.far.map (fun f => if f.num = n ∧ f.write = true ∧ f.ans = none then { f with ans := some ⟨0, 0, true, 0⟩ } else f) })
  ∧ (∀ (s : State) (k : Nat) (e : CombEntry), s.hart.comb[k]? = some e → e.draining = false →
    (e.last + 128 ≤ s.hart.cycle → ∃ t, exec (.combiningIdleTimeout k) s = .next t
      ∧ t.hart.comb = s.hart.comb.set k { e with closed := true, draining := true }
      ∧ Only (fun old new => { old with comb := new.comb }) s t)
    ∧ (s.hart.cycle < e.last + 128 → exec (.combiningIdleTimeout k) s = .next s))

/-- R160, R161, R77, R348: an atomic is performed. -/
def Obligations.AtomicsPerformed : Prop :=
  (∀ (s s1 : State) (o : Op) (ea : Word) (fn : BitVec 6) (b cmp : Word) (d : BitVec 5) (key : Nat) (ok : Bool)
      (reason : BitVec 8) (w : Word),
    let size := if fn.toNat < 10 then 8 else 4
    let old := leNat (s1.mem.bytes key size)
    let ends (new : Nat) (ret : Word) : Prop := ∃ t, exec (.atomicPerform o.id ok reason w) s = .next t
      ∧ WritesBytes s1 t key (leBytes new size) ∧ Returns s1 t o (.xval d ret) []
      ∧ t = { s1 with hart := mayPerform s1.hart t.hart, mem := t.mem, reads := t.reads }
    Due s o → o.kind = .atomic ea fn b cmp d → s.moving = true → translate s o.region o.level .atomic ea = ⟨s1, 0, 0, key⟩ →
    (Inv s1 → gaNode ea = s.nodeId → s1.poisoned key = false → PlainPlace s1 key size →
      (fn.toNat < 10 → ends (atomicNew fn.toNat (BitVec.ofNat 64 old) b cmp).toNat (BitVec.ofNat 64 old))
      ∧ (16 ≤ fn.toNat → fn.toNat < 26 → ends
          (atomicNew (fn.toNat - 16) (BitVec.ofNat 32 old) (b.setWidth 32) (cmp.setWidth 32)).toNat
          (BitVec.ofInt 64 (Int.bmod old (2 ^ 32))))
      ∧ (fn = 10 → ends (fpAddV .fp32 .rne (fpDecode .fp32 old) (fpDecode .fp32 (b.toNat % 2 ^ 32))).bits (BitVec.ofNat 64 old))
      ∧ (fn = 11 → ends (bf16Add (old % 2 ^ 16) (b.toNat % 2 ^ 16) + 2 ^ 16 * bf16Add (old / 2 ^ 16) (b.toNat % 2 ^ 32 / 2 ^ 16))
          (BitVec.ofNat 64 old)))
    ∧ (gaNode ea ≠ s.nodeId → ∃ t, exec (.atomicPerform o.id ok reason w) s = .next t
      ∧ t.hart.op? o.id = some { o with sent := some 0 } ∧ t.hart.rets = s1.hart.rets ∧ SameBytes s1 t
      ∧ t.sendq = s1.sendq ++ [⟨gaNode ea, 0, .request (gaNode ea) s.hart.num o.id
          ⟨s.nodeId, o.region, o.level == .M, .atomic fn, BitVec.ofNat 64 key, size, b.setWidth 512, 0, cmp, false⟩⟩]))
  ∧ ∀ (s : State) (o : Op) (ea : Word) (fn : BitVec 6) (b cmp : Word) (d : BitVec 5) (n : Nat) (reason : BitVec 8) (w : Word),
    s.hart.op? o.id = some o → o.kind = .atomic ea fn b cmp d → s.moving = true → o.sent = some n → n ≠ lostRead →
    (s.answerable s.hart.num o.id true reason = true → ∃ t, exec (.atomicPerform o.id true reason w) s = .next t ∧ Only mayPerform s t
      ∧ Returns s t o (.xval d (if fn.toNat < 10 then w else extended (fn.toNat < 16) 4 (w.toNat % 2 ^ 32))) [])
    ∧ (s.answerable s.hart.num o.id false reason = true →
      ∃ t f, exec (.atomicPerform o.id false reason w) s = .next t ∧ Performs s t o.id ∧ Only mayPerform s t
      ∧ t.hart.rets = s.hart.rets ++ [⟨o.id, o.strand, .nothing [] [], some f, []⟩]
      ∧ f.cause = 0x05 ∧ f.reason = reason ∧ f.addr = ea ∧ f.dest = d ∧ f.pc = o.pc ∧ f.fn = fn ∧ f.operand = b)

/-- R172 to R180: the strand instructions in every state. -/
def Obligations.StrandInstructions : Prop :=
  ∀ (s : State) (d : BitVec 5) (sd sa : BitVec 3) (m : Bool),
    let next := s.hart.pc + 4
    let drained (c : CombEntry) : CombEntry := { c with closed := true, draining := true }
    let merged : Word := BitVec.ofNat 64 s.hart.mergedStatus.toNat
    let ecode (r : BitVec 3) : Nat := (s.hart.spin r).status.toNat / 2 ^ 8 % 2 ^ 8
    (sd ≠ sa → ∃ t, exec (.sfork sd sa m) s = .next t ∧ Issued s t sd (.fork sa (s.hart.spin sa).issue)
      ∧ Closes s t (fun e => e.strand == sd) ∧ Ends s t next m ∧ Only mayIssue s t)
    ∧ (∃ t, exec (.sfork sd sd m) s = .next t ∧ (t.hart.spin sd).issue = (s.hart.spin sd).issue + 1
      ∧ t.hart.ops = s.hart.ops.filter (fun o => o.id != s.hart.nextOp) ∧ t.hart.acq = s.hart.acq.set sd.toNat s.now
      ∧ Ends s t next m ∧ Only (fun old new => { mayIssue old new with perfAt := new.perfAt, acq := new.acq }) s t)
    ∧ (∃ t, exec (.sjoin sd sa m) s = .next t ∧ Issued s t sd (.join sa (s.hart.spin sa).issue)
      ∧ t.hart.comb = s.hart.comb.map (fun e => if e.strand = sa then drained e else if e.strand = sd then { e with closed := true } else e)
      ∧ Ends s t next m ∧ Only mayIssue s t)
    ∧ (∀ scope : BitVec 3, s.hart.waitsOn sa scope = false → ∃ t, exec (.swait d sa scope m) s = .next t
      ∧ WritesX s t d (BitVec.ofNat 64 (s.hart.spin sa).status.toNat)
      ∧ t.hart.spin sa = { s.hart.spin sa with status := 0 } ∧ (∀ r, r ≠ sa → t.hart.spin r = s.hart.spin r)
      ∧ t.hart.acq = s.hart.acq.set sa.toNat s.now ∧ Drains s t (fun e => e.strand == sa) ∧ Ends s t next m
      ∧ Only (fun old new => { mayX old new with sp := new.sp, comb := new.comb, acq := new.acq }) s t)
    ∧ (∀ scope : BitVec 3, s.hart.waitsOn sa scope = true → ∃ t, exec (.swait d sa scope m) s = .next t
      ∧ Drains s t (fun e => e.strand == sa) ∧ t.hart.run = .blocked
      ∧ Only (fun old new => { old with comb := new.comb, run := new.run }) s t)
    ∧ (∃ t v, exec (.sexp d sa m) s = .next t ∧ WritesX s t d v
      ∧ v.toNat % 2 ^ 32 = (s.hart.spin sa).issue.toNat ∧ v.toNat / 2 ^ 32 % 8 = sa.toNat
      ∧ v.toNat / 2 ^ 35 % 2 ^ 11 = s.hart.num % 2 ^ 11 ∧ v.toNat / 2 ^ 46 % 16 = s.nodeId.toNat
      ∧ v.toNat / 2 ^ 50 = (tokenCheck s.tkKey v).toNat
      ∧ t.hart.spin sa = { s.hart.spin sa with
          xseq := (s.hart.spin sa).issue
          mark := decide (2 ^ 31 ≤ ((s.hart.spin sa).perf - (s.hart.spin sa).issue).toNat) }
      ∧ (∀ r, r ≠ sa → t.hart.spin r = s.hart.spin r) ∧ Drains s t (fun e => e.strand == sa) ∧ Ends s t next m
      ∧ Only (fun old new => { mayX old new with sp := new.sp, comb := new.comb }) s t)
    ∧ (∀ a : BitVec 5, let tok := s.x a
      let node : BitVec 4 := tok.extractLsb' 46 4
      (node = s.nodeId → tokenVerdict s tok = some true → ∃ t, exec (.simp sd a m) s = .next t
        ∧ t.hart.acq = s.hart.acq.set sd.toNat s.now ∧ Ends s t next m
        ∧ Only (fun old new => { mayEnd old new with acq := new.acq }) s t)
      ∧ (node = s.nodeId → tokenVerdict s tok = some false → exec (.simp sd a m) s = .next (trap 0x0D tok s))
      ∧ (node = s.nodeId → tokenVerdict s tok = none →
        exec (.simp sd a m) s = .next { s with hart := { s.hart with run := .blocked } })
      ∧ (node ≠ s.nodeId → s.reaches node = false → exec (.simp sd a m) s = .next (trap 0x0D tok s))
      ∧ (node ≠ s.nodeId → s.reaches node = true → 64 ≤ s.hart.replySlots →
        exec (.simp sd a m) s = .next { s with hart := { s.hart with run := .blocked } })
      ∧ (node ≠ s.nodeId → s.reaches node = true → s.hart.replySlots < 64 → exec (.simp sd a m) s = .next { s with
          hart := { s.hart with run := .token sd tok m }
          sendq := s.sendq ++ [⟨node, 0, .tokenRequest node tok⟩] }))
    ∧ RunsX (.sstat d sa 0 m) s d (BitVec.ofNat 64 ((s.hart.spin sa).status.toNat
        + ((s.hart.spin sa).issue - (s.hart.spin sa).perf).toNat * 2 ^ 32)) 4 m
    ∧ RunsX (.sstat d sa 1 m) s d (BitVec.ofNat 64 (s.hart.spin sa).issue.toNat) 4 m
    ∧ RunsX (.sstat d sa 2 m) s d (BitVec.ofNat 64 (s.hart.spin sa).perf.toNat) 4 m
    ∧ (∀ scope : BitVec 6, (∀ r, s.hart.waitsOn r (scope.setWidth 3) = false) → ∃ t, exec (.fence d scope m) s = .next t
      ∧ WritesX s t d merged
      ∧ (∀ r, t.hart.spin r = { s.hart.spin r with status := 0 }) ∧ t.hart.acq = Vector.replicate 8 s.now
      ∧ Drains s t (fun _ => true) ∧ Ends s t next m
      ∧ Only (fun old new => { mayX old new with sp := new.sp, comb := new.comb, acq := new.acq }) s t)
    ∧ (∀ scope : BitVec 6, (∃ r, s.hart.waitsOn r (scope.setWidth 3) = true) → ∃ t, exec (.fence d scope m) s = .next t
      ∧ Drains s t (fun _ => true) ∧ t.hart.run = .blocked
      ∧ Only (fun old new => { old with comb := new.comb, run := new.run }) s t)
    ∧ (∀ i ∈ [0, 1, 2, 3, 16], merged.getLsbD i = true ↔ ∃ r : BitVec 3, (s.hart.spin r).status.getLsbD i = true)
    ∧ (∀ r : BitVec 3, (∀ q : BitVec 3, q.toNat < r.toNat → ecode q = 0) → ecode r ≠ 0 → merged.toNat / 2 ^ 8 % 2 ^ 8 = ecode r)
    ∧ ((∀ r : BitVec 3, ecode r = 0) → merged.toNat / 2 ^ 8 % 2 ^ 8 = 0)
    ∧ (∀ i ∈ [4, 5, 6, 7], merged.getLsbD i = false) ∧ merged.toNat < 2 ^ 17

/-- R173, R174, R177, R178, R191, R192, R430: markers, token checks and the verdict on a token. -/
def Obligations.MarkersAndTokens : Prop :=
  (∀ (s : State) (o : Op) (sa : BitVec 3) (n : BitVec 32), Due s o → s.moving = true →
    let here := ((s.hart.spin sa).perf - n).toNat < 2 ^ 31
    let may (old new : Hart) : Hart := { mayPerform old new with acq := new.acq }
    (o.kind = .fork sa n → (here → ∃ t, exec (.forkMarkerPerformed o.id) s = .next t ∧ Performs s t o.id
        ∧ t.hart.acq = s.hart.acq.set o.strand.toNat s.now ∧ Only may s t)
      ∧ (¬here → exec (.forkMarkerPerformed o.id) s = .next s))
    ∧ (o.kind = .join sa n → (here → ∃ t, exec (.joinMarkerPerformed o.id) s = .next t ∧ Performs s t o.id
        ∧ t.hart.acq = s.hart.acq.set o.strand.toNat s.now ∧ Only may s t
        ∧ (let own := (s.hart.spin o.strand).status
           let joined := (s.hart.spin sa).status
           let code (w : BitVec 17) : Nat := w.toNat / 2 ^ 8 % 2 ^ 8
           let now := (t.hart.spin o.strand).status
           (∀ i ∈ [0, 1, 2, 3, 16], now.getLsbD i = (own.getLsbD i || joined.getLsbD i)) ∧ (∀ i ∈ [4, 5, 6, 7], now.getLsbD i = false)
           ∧ code now = if code own = 0 then code joined else code own))
      ∧ (¬here → exec (.joinMarkerPerformed o.id) s = .next s)))
  ∧ (∀ (s : State) (node : BitVec 4) (tok : Word),
    (s.recovery = true → exec (.tokenCheckRequest node tok) s = .next s)
    ∧ (∀ ok, s.recovery = false → tokenVerdict s tok = some ok → ∃ t, exec (.tokenCheckRequest node tok) s = .next t
        ∧ Sends { s with tokenWaits := s.tokenWaits.filter (fun w => w != ⟨node, tok⟩) } t (.tokenReply node ok))
    ∧ (s.recovery = false → tokenVerdict s tok = none → ∃ t, exec (.tokenCheckRequest node tok) s = .next t
        ∧ (⟨node, tok⟩ : TokenWait) ∈ t.tokenWaits ∧ t = { s with tokenWaits := t.tokenWaits }))
  ∧ (∀ (s : State) (sd : BitVec 3) (tok : Word) (m : Bool), s.hart.run = .token sd tok m →
    let waits := s.unsent (fun p => match p with | .tokenRequest _ t => t == tok | _ => false)
    (waits = true → ∀ ok, exec (.tokenCheckReply ok) s = .next s)
    ∧ (waits = false → ∃ t, exec (.tokenCheckReply true) s = .next t ∧ t.hart.acq = s.hart.acq.set sd.toNat s.now
      ∧ Ends s t (s.hart.pc + 4) m ∧ Only (fun old new => { mayEnd old new with acq := new.acq }) s t)
    ∧ (waits = false → exec (.tokenCheckReply false) s = .next (trap 0x0D tok s)))
  ∧ ∀ (s : State) (tok : Word),
      let hart := tok.toNat / 2 ^ 35 % 2 ^ 11
      let p := (s.getHart hart).spin (tok.extractLsb' 32 3)
      let seq : BitVec 32 := tok.setWidth 32
      let within (p : Spindle) : Prop := (p.issue - seq).toNat < 2 ^ 31
        ∧ ∀ lo hi, p.span = some (lo, hi) → (seq - lo).toNat = 0 ∨ (hi - lo).toNat < (seq - lo).toNat
      let held : Prop := ∃ l ∈ s.lent, ∃ k ∈ l.harts, k.num = hart ∧ within (k.spin (tok.extractLsb' 32 3))
        ∧ 2 ^ 31 ≤ ((k.spin (tok.extractLsb' 32 3)).perf - seq).toNat
      let good := s.present hart = true ∧ tok.toNat / 2 ^ 50 = (tokenCheck s.tkKey tok).toNat
        ∧ within p
      (¬good → tokenVerdict s tok = some false)
      ∧ (good → ¬held → (p.perf - seq).toNat < 2 ^ 31 → tokenVerdict s tok = some true)
      ∧ (good → held ∨ 2 ^ 31 ≤ (p.perf - seq).toNat → tokenVerdict s tok = none)
      ∧ ∀ (strand : BitVec 3) (h : Nat), s.present h = true →
        tokenVerdict s (tokenOf s.nodeId s.tkKey h strand ((s.getHart h).spin strand).issue) ≠ some false
          ∨ ((s.getHart h).spin strand).inSpan ((s.getHart h).spin strand).issue = true

/-- R197 to R199, R212, R219, R221, R224: the integer and rearranging vector instructions. -/
def Obligations.VectorIntegerResults : Prop :=
  ∀ (s : State) (d a b : BitVec 5) (t : Bool) (k : BitVec 3) (m : Bool),
    let w := laneWidth t
    let A (s : State) (j : Nat) : Nat := lane t (s.vr a) j
    let B (s : State) (j : Nat) : Nat := lane t (s.vr b) j
    let S (v : Nat) : Int := Int.bmod v (2 ^ w)
    let back (v : Int) : Nat := (v % 2 ^ w).toNat
    RunsInt (.viadd d a b t k m) [a, b] s d t k (fun s j => A s j + B s j) m
    ∧ RunsInt (.visub d a b t k m) [a, b] s d t k (fun s j => A s j + 2 ^ w - B s j) m
    ∧ RunsInt (.vimul d a b t k m) [a, b] s d t k (fun s j => A s j * B s j) m
    ∧ RunsInt (.vimulh d a b t k m) [a, b] s d t k (fun s j => back (S (A s j) * S (B s j) / 2 ^ w)) m
    ∧ RunsInt (.vand d a b t k m) [a, b] s d t k (fun s j => A s j &&& B s j) m
    ∧ RunsInt (.vor d a b t k m) [a, b] s d t k (fun s j => A s j ||| B s j) m
    ∧ RunsInt (.vxor d a b t k m) [a, b] s d t k (fun s j => A s j ^^^ B s j) m
    ∧ RunsInt (.vsll d a b t k m) [a, b] s d t k (fun s j => A s j * 2 ^ (B s j % w)) m
    ∧ RunsInt (.vsrl d a b t k m) [a, b] s d t k (fun s j => A s j / 2 ^ (B s j % w)) m
    ∧ RunsInt (.vsra d a b t k m) [a, b] s d t k (fun s j => back (S (A s j) / 2 ^ (B s j % w))) m
    ∧ RunsInt (.vimin d a b t k m) [a, b] s d t k (fun s j => back (min (S (A s j)) (S (B s j)))) m
    ∧ RunsInt (.vimax d a b t k m) [a, b] s d t k (fun s j => back (max (S (A s j)) (S (B s j)))) m
    ∧ RunsInt (.viminu d a b t k m) [a, b] s d t k (fun s j => min (A s j) (B s j)) m
    ∧ RunsInt (.vimaxu d a b t k m) [a, b] s d t k (fun s j => max (A s j) (B s j)) m
    ∧ RunsInt (.vperm d a b t k m) [a, b] s d t k (fun s j => A s (B s j % laneCount t)) m
    ∧ RunsInt (.vbcast d a t k m) [] s d t k (fun s _ => (s.x a).toNat) m
    ∧ RunsInt (.vslide d a b t k m) [a] s d t k (fun s j =>
        if 0 ≤ j + (s.x b).toInt ∧ j + (s.x b).toInt < laneCount t then A s (j + (s.x b).toInt).toNat else 0) m
    ∧ RunsInt (.vmov d a t k m) [a] s d t k A m
    ∧ RunsAll (.vsel d a b t k m) [a, b] s d t (fun s1 j => if (s.mr k).getLsbD j = true then A s1 j else B s1 j) (fun _ => 0) m
    ∧ (∀ i : BitVec 5, i.toNat < laneCount t → RunsLanes (.vins d a t i m) [] s d t (List.replicate (laneCount t) true)
        (fun j => j == i.toNat) id (fun s1 _ => (s1.x a).toNat) (fun _ => 0) m)
    ∧ ∀ i : BitVec 5, i.toNat < laneCount t → ReadsToX (.vxt d a t i m) [a] s d (fun s1 => BitVec.ofNat 64 (A s1 i.toNat)) m

/-- R105, R197 to R200, R212, R216 to R218: the floating vector instructions. The lane results are those of the exact
arithmetic of Numbers.lean and Transcendental.lean, rounded once. -/
def Obligations.VectorFloatResults : Prop :=
  ∀ (s : State) (d a b : BitVec 5) (t : Bool) (k : BitVec 3) (m : Bool),
    let f : Fp := if t = true then .bf16 else .fp32
    let w := laneWidth t
    let A (s : State) (j : Nat) : FVal := fpDecode f (lane t (s.vr a) j)
    let B (s : State) (j : Nat) : FVal := fpDecode f (lane t (s.vr b) j)
    let D (s : State) (j : Nat) : FVal := fpDecode f (lane t (s.vr d) j)
    let rm (s : State) : Rm := rmArith s.hart.fxRound
    RunsFp (.vadd d a b t k m) [a, b] s d t k (fun s j => fpAddV f (rm s) (A s j) (B s j)) m
    ∧ RunsFp (.vsub d a b t k m) [a, b] s d t k (fun s j => fpAddV f (rm s) (A s j) (fvNeg (B s j))) m
    ∧ RunsFp (.vmul d a b t k m) [a, b] s d t k (fun s j => fpMulV f (rm s) (A s j) (B s j)) m
    ∧ RunsFp (.vfma d a b t k m) [a, b, d] s d t k (fun s j => fpFmaV f (rm s) (A s j) (B s j) (D s j)) m
    ∧ RunsFp (.vfms d a b t k m) [a, b, d] s d t k (fun s j => fpFmaV f (rm s) (A s j) (B s j) (fvNeg (D s j))) m
    ∧ RunsFp (.vfnma d a b t k m) [a, b, d] s d t k (fun s j => fpFmaV f (rm s) (fvNeg (A s j)) (B s j) (D s j)) m
    ∧ RunsFp (.vmin d a b t k m) [a, b] s d t k (fun s j => ⟨fpMinV f (A s j) (B s j), 0⟩) m
    ∧ RunsFp (.vmax d a b t k m) [a, b] s d t k (fun s j => ⟨fpMaxV f (A s j) (B s j), 0⟩) m
    ∧ RunsInt (.vabs d a t k m) [a] s d t k
        (fun s j => if A s j = .nan then fpNaN f else lane t (s.vr a) j % 2 ^ (w - 1)) m
    ∧ RunsInt (.vneg d a t k m) [a] s d t k
        (fun s j => if A s j = .nan then fpNaN f else lane t (s.vr a) j + 2 ^ (w - 1)) m
    ∧ RunsFp (.vdiv d a b t k m) [a, b] s d t k (fun s j => fpDivV f (rm s) (A s j) (B s j)) m
    ∧ RunsFp (.vsqrt d a t k m) [a] s d t k (fun s j => fpSqrtV f (rm s) (A s j)) m
    ∧ RunsFp (.vrsqrt d a t k m) [a] s d t k (fun s j => fpRsqrtV f (A s j)) m
    ∧ RunsFp (.vrcp d a t k m) [a] s d t k (fun s j => fpRcpV f (A s j)) m
    ∧ RunsFp (.vexp2 d a t k m) [a] s d t k (fun s j => fpExp2V f (A s j)) m
    ∧ RunsFp (.vlog2 d a t k m) [a] s d t k (fun s j => fpLog2V f (A s j)) m
    ∧ RunsFp (.vsig d a t k m) [a] s d t k (fun s j => fpSigV f (A s j)) m
    ∧ RunsFp (.vtanh d a t k m) [a] s d t k (fun s j => fpTanhV f (A s j)) m

/-- R112, R198, R200, R220, R222, R223, R225: comparisons, reductions, conversions and masks. -/
def Obligations.VectorCompareReduceConvert : Prop :=
  ∀ (s : State) (d a b : BitVec 5) (d3 a3 b3 : BitVec 3) (t : Bool) (k : BitVec 3) (m : Bool),
    let f : Fp := if t = true then .bf16 else .fp32
    let A (s : State) (j : Nat) : FVal := fpDecode f (lane t (s.vr a) j)
    let B (s : State) (j : Nat) : FVal := fpDecode f (lane t (s.vr b) j)
    let on (j : Nat) : Bool := (s.mr k).getLsbD j
    let n := if t = true then 5 else 4
    let leaf (fill : Nat) (s1 : State) (j : Nat) : Nat := if on j = true then lane t (s1.vr a) j else fill
    let red (op : State → Nat → Nat → Rounded) (fill : Nat) (s1 : State) : Rounded := tree (op s1) (leaf fill s1) n 0
    let vals (g : FVal → FVal → Nat) (_ : State) (x y : Nat) : Rounded := ⟨g (fpDecode f x) (fpDecode f y), 0⟩
    let sum (s1 : State) (x y : Nat) : Rounded := fpAddV f (rmArith s1.hart.fxRound) (fpDecode f x) (fpDecode f y)
    let one (i : Instr) (r : State → Rounded) : Prop :=
      RunsAll i [a] s d t (fun s1 j => if j = 0 then (r s1).bits else 0) (fun s1 => (r s1).flags) m
    ReadsToM (.vcmpEq d3 a b t k m) [a, b] s d3 (fun s1 j => decide (j < laneCount t) && on j && fvEq (A s1 j) (B s1 j)) m
    ∧ ReadsToM (.vcmpLt d3 a b t k m) [a, b] s d3 (fun s1 j => decide (j < laneCount t) && on j && fvLt (A s1 j) (B s1 j)) m
    ∧ ReadsToM (.vcmpLe d3 a b t k m) [a, b] s d3 (fun s1 j => decide (j < laneCount t) && on j && fvLe (A s1 j) (B s1 j)) m
    ∧ one (.vredAdd d a t k m) (red sum (2 ^ (laneWidth t - 1)))
    ∧ one (.vredMax d a t k m) (red (vals (fpMaxV f)) (2 ^ (laneWidth t - 1) + fpInfBits f))
    ∧ one (.vredMin d a t k m) (red (vals (fpMinV f)) (fpInfBits f))
    ∧ (∀ sel : BitVec 5, sel.toNat ≤ 10 →
        let c := sel.toNat
        let half := decide (c ≤ 1)
        let act (j : Nat) : Bool := if half = true then decide (j / 16 = c) && on (j % 16) else on j
        let r (s1 : State) (j : Nat) : Rounded := ((cvtAll c (s.mr k) (s1.vr a) s1).1[j % 16]?).getD ⟨0, 0⟩
        let draws := if c = 2 ∨ c = 3 ∨ c = 4 ∨ c = 9 ∨ s.hart.fxRound ≠ 4 then 0 else ((List.range 16).filter on).length
        LogStops (.vcvt d a k sel m) s draws ∧ ((s.logGate draws).ok = true → RunsLanes (.vcvt d a k sel m) [a] s d half
          (if k = 0 then List.replicate (laneCount half) true else (List.range (laneCount half)).map act) act
          (fun s1 => (cvtAll c (s.mr k) (s1.vr a) s1).2) (fun s1 j => (r s1 j).bits)
          (fun s1 => ((List.range 16).filter on).foldl (fun acc j => acc ||| (r s1 j).flags) 0) m))
    ∧ RunsM (.mand d3 a3 b3 m) s d3 (s.mr a3 &&& s.mr b3) m
    ∧ RunsM (.mor d3 a3 b3 m) s d3 (s.mr a3 ||| s.mr b3) m
    ∧ RunsM (.mxor d3 a3 b3 m) s d3 (s.mr a3 ^^^ s.mr b3) m
    ∧ RunsM (.mnot d3 a3 m) s d3 (BitVec.ofNat 64 (2 ^ 64 - 1 - (s.mr a3).toNat)) m
    ∧ RunsM (.mset d3 a m) s d3 (s.x a) m
    ∧ RunsX (.mpop d a3 m) s d (BitVec.ofNat 64 ((List.range 64).filter (fun i => (s.mr a3).getLsbD i)).length) 4 m
    ∧ ∃ u, exec (.vsr d a m) s = .next u ∧ WritesX s u d s.hart.srStep ∧ u.hart.srStep = s.x a
      ∧ Ends s u (s.hart.pc + 4) m ∧ Only (fun old new => { mayX old new with srStep := new.srStep }) s u

/-- R89, R90, R100 to R103, R106: the value of a magnitude in units of the smallest subnormal, and what rounding makes of an
exact positive rational. -/
def Obligations.RoundingIsCorrect : Prop :=
  ∀ (f : Fp) (rm : Rm) (neg : Bool) (num den : Nat), 0 < num → 0 < den →
    let value (mag : Nat) : Nat :=
      let e := mag / 2 ^ fpMant f
      if e = 0 then mag else (mag % 2 ^ fpMant f + 2 ^ fpMant f) * 2 ^ (e - 1)
    let unit : Nat := (fpBias f + fpMant f - 1).toNat
    let x := num * 2 ^ unit
    let top := fpMax f
    let r := fpRound f rm neg num den
    let code (mag : Nat) : Nat := (if neg = true then 2 ^ fpMag f else 0) + mag
    let towardsZero : Prop := rm = .rz ∨ (rm = .rup ∧ neg = true) ∨ (rm = .rdn ∧ neg = false)
    let away : Prop := (rm = .rup ∧ neg = false) ∨ (rm = .rdn ∧ neg = true)
    let upper (rnd : BitVec 16) (lo : Nat) : Prop := x ≠ value lo * den
      ∧ 2 ^ 16 ≤ (x - value lo * den) * 2 ^ 16 / ((value (lo + 1) - value lo) * den) + rnd.toNat
    let exceeds : Prop :=
      (rm = .rne ∧ ((value top + value (top + 1)) * den < 2 * x ∨ (value top + value (top + 1)) * den = 2 * x ∧ top % 2 = 1))
      ∨ (towardsZero ∧ value (top + 1) * den ≤ x) ∨ (away ∧ value top * den < x)
      ∨ ∃ rnd, rm = .sr rnd ∧ value top * den ≤ x ∧ upper rnd top
    (exceeds → r.flags = flagOF ||| flagNX
      ∧ r.bits = code (if f = .e4m3 ∨ towardsZero then top else (2 ^ fpExp f - 1) * 2 ^ fpMant f))
    ∧ (¬exceeds → ∃ mag ≤ top, r.bits = code mag
      ∧ r.flags = (if value mag * den = x then 0 else if mag < 2 ^ fpMant f then flagNX ||| flagUF else flagNX)
      ∧ (towardsZero → value mag * den ≤ x ∧ x < value (mag + 1) * den)
      ∧ (away → x ≤ value mag * den ∧ ∀ p, p + 1 = mag → value p * den < x)
      ∧ (rm = .rne → (2 * x ≤ (value mag + value (mag + 1)) * den ∧ (2 * x = (value mag + value (mag + 1)) * den → mag % 2 = 0))
          ∧ ∀ p, p + 1 = mag → (value p + value mag) * den ≤ 2 * x ∧ ((value p + value mag) * den = 2 * x → mag % 2 = 0))
      ∧ ∀ rnd, rm = .sr rnd → ∃ lo, value lo * den ≤ x ∧ x < value (lo + 1) * den ∧ (upper rnd lo → mag = lo + 1) ∧ (¬upper rnd lo → mag = lo))

/-- R116, R149, R156, R157, R188, R203, R205, R206, R212, R348: vld and vst in every state. What holds a reply slot is log 58, what
a load into a write stream checks log 17, the order of its traps log 74. -/
def Obligations.VectorLoadsAndStores : Prop :=
  ∀ (s : State) (d a : BitVec 5) (sn : BitVec 3) (o : BitVec 10) (m : Bool),
    let ld : Instr := .vld d a sn o m
    let st : Instr := .vst d a sn o m
    let ea := BitVec.ofInt 64 ((s.x a).toInt + 64 * o.toInt)
    let reg := s.fmtReg s.hart.num ea
    let fmt := fmtCode reg
    let bad := bankRefusal fmt ea d
    let p := bankPlace fmt ea
    let n := codeBytes fmt
    let regs := (List.range (codeRegs fmt)).map (fun i => d + BitVec.ofNat 5 i)
    let lockR := lockHit s p.toNat (p.toNat + n) false sn
    let lockW := lockHit s p.toNat (p.toNat + n) true sn
    let held := fmtDecode fmt (bufferBytes s p.toNat n)
    let whole : List Bool := List.replicate 16 true
    let draws := fmtDraws fmt (fmtRnd reg) (fmtSrs reg) whole
    (bad ≠ 0 → exec ld s = .next (trap bad ea s) ∧ exec st s = .next (trap bad ea s))
    ∧ (bad = 0 → lockR ≠ 0 → exec ld s = .next (trap lockR ea s))
    ∧ (bad = 0 → lockR = 0 → ∀ pre r post, regs = pre ++ r :: post → (∀ q ∈ pre, ¬WriteMisused s q) → WriteMisused s r →
        exec ld s = .next (trap 0x0E (BitVec.ofNat 64 r.toNat) s))
    ∧ (bad = 0 → lockR = 0 → (∀ r ∈ regs, ¬WriteMisused s r) → (produceChecks whole regs s).ok = false → StopsWhole ld s)
    ∧ (bad = 0 → lockR = 0 → (∀ r ∈ regs, ¬WriteMisused s r) → (produceChecks whole regs s).ok = true →
        LoadIssues ld s ea sn (.vload ea fmt d) [(p.toNat, p.toNat + n)] (.vval (numbered d held.1) held.2) 4 m)
    ∧ (bad = 0 → lockW ≠ 0 → exec st s = .next (trap lockW ea s))
    ∧ (bad = 0 → lockW = 0 → StopsOnStreams st s regs)
    ∧ (bad = 0 → lockW = 0 → ∀ s1, consumeAll regs s = ⟨true, s1⟩ →
        let enc := fmtEncode fmt (fmtRnd reg) (fmtSrs reg) (List.replicate 16 true) (s1.hart.rvs d (codeRegs fmt)) s1
        StoresBlock st s (raised enc.2 enc.1.2) ea p enc.1.1 draws sn true m)

/-- R116, R149, R156, R189, R198, R209, R212, R348: vldx and vstx; the index register may be a read stream, consumed first. The strand
is log 18, the order of the conditions log 13, what holds a reply slot log 58. -/
def Obligations.GatherAndScatter : Prop :=
  ∀ (s s1 : State) (d a b : BitVec 5) (t : Bool) (k : BitVec 3) (m : Bool),
    let ld : Instr := .vldx d a b t k m
    let st : Instr := .vstx d a b t k m
    let base := s1.x a
    let reg := s1.fmtReg s1.hart.num base
    let fmt := fmtCode reg
    let size := if t = true then 2 else 4
    let index (j : Nat) : Nat := lane t (s1.vr b) j
    let elem (j : Nat) : Nat := base.toNat % 2 ^ 15 + index j
    let at_ (j : Nat) : Word :=
      if fmt = 0 then BitVec.ofNat 64 (base.toNat + index j * size) else BitVec.ofNat 64 (base.toNat / 2 ^ 15 * 2 ^ 15 + elem j)
    let on := (List.range (laneCount t)).filter (fun j => (s1.mr k).getLsbD j)
    let lanes := on.map (fun j => (j, at_ j))
    let place (j : Nat) : Word × Nat :=
      if fmt = 0 then (at_ j, size) else (bankPlace fmt (at_ j), if fmt = 6 then 32 else if fmt = 7 then 64 else codeSize fmt)
    let traps (i : Instr) (c : BitVec 8) (j : Nat) : Prop := exec i s = .next (trap c (at_ j) s)
    let odd (j : Nat) : Bool := (at_ j).toNat % size != 0
    let inBank (j : Nat) : Bool := fmtCode (s1.fmtReg s1.hart.num (at_ j)) != 0
    let beyond (j : Nat) : Bool := decide (codeCapacity fmt ≤ elem j)
    let shape : Bool := t && fmt != 2 || !t && (fmt == 2 || fmt == 8)
    let block : Bool := fmt == 6 || fmt == 7
    let fits (unfit : Bool) : Prop := if fmt = 0 then ∀ j ∈ on, odd j = false ∧ inBank j = false else (∀ j ∈ on, beyond j = false) ∧ (on = [] ∨ unfit = false)
    let lock (write : Bool) (j : Nat) : BitVec 8 := lockHit s1 (place j).1.toNat ((place j).1.toNat + (place j).2) write 0
    let free (write : Bool) : Prop := ∀ j ∈ on, lock write j = 0
    let checks (i : Instr) (unfit write : Bool) : Prop :=
      (fmt = 0 → (∀ j, on.find? odd = some j → traps i 0x03 j)
        ∧ ∀ j, on.find? odd = none → on.find? inBank = some j → traps i 0x05 j)
      ∧ (fmt ≠ 0 → (∀ j, on.find? beyond = some j → traps i 0x05 j)
        ∧ ∀ j, on.find? beyond = none → unfit = true → on.head? = some j → traps i 0x03 j)
      ∧ ∀ j, fits unfit → on.find? (fun j => lock write j != 0) = some j → traps i (lock write j) j
    let got (j : Nat) : Rounded := gatherValue fmt (elem j) (bufferBytes s1 (place j).1.toNat (place j).2)
    let result : Result := .lanes d t (on.map (fun j => (j, BitVec.ofNat 32 (got j).bits))) b ((on.map got).foldl (fun f r => f ||| r.flags) 0)
    let spans := on.map (fun j => ((place j).1.toNat, (place j).1.toNat + (place j).2))
    let draws := if fmt = 6 ∨ fmt = 7 then 0 else fmtDraws fmt (fmtRnd reg) (fmtSrs reg) (activeLanes t (s1.mr k))
    StopsOnStreams ld s [b] ∧ StopsOnStreams st s [b, d]
    ∧ (consumeAll [b] s = ⟨true, s1⟩ → checks ld shape false
      ∧ (fits shape → free false →
        (WriteMisused s1 d → exec ld s = .next (trap 0x0E (BitVec.ofNat 64 d.toNat) s))
        ∧ (¬WriteMisused s1 d → (produceChecks (activeLanes t (s1.mr k)) [d] s1).ok = false → StopsWhole ld s)
        ∧ (¬WriteMisused s1 d → (produceChecks (activeLanes t (s1.mr k)) [d] s1).ok = true →
          ((∃ j ∈ on, SlotsTaken s1 (at_ j)) → exec ld s = .next { s with hart := { s.hart with run := .blocked } })
          ∧ ((∀ j ∈ on, ¬SlotsTaken s1 (at_ j)) → 64 ≤ s1.hart.entries → WaitsForEntry ld s)
          ∧ ((∀ j ∈ on, ¬SlotsTaken s1 (at_ j)) → s1.hart.entries < 64 → ∃ u, exec ld s = .next u ∧ Ends s1 u (s1.hart.pc + 4) m
            ∧ IssuesLoad s1 u 0 (.vloadx fmt t d b base lanes) spans result))))
    ∧ (consumeAll [b, d] s = ⟨true, s1⟩ → checks st (shape || block) true
      ∧ (fits (shape || block) → free true →
        let f? : Option Fp := if fmt = 0 ∨ fmt = 1 ∨ fmt = 2 then none else fpOfCode fmt
        let conv (f : Fp) := convertLanes f (fmtRnd reg) (fmtSrs reg) ((List.range (laneCount t)).map (fun j => (s1.mr k).getLsbD j))
          (fp32Vals [s1.vr d]) s1
        let v := match f? with
          | none => s1
          | some f => raised (conv f).2 (on.foldl (fun acc j => acc ||| (((conv f).1[j]?).map (·.flags)).getD 0) 0)
        let value (j : Nat) : Nat := match f? with
          | none => lane t (s1.vr d) j
          | some f => (((conv f).1[j]?).map (·.bits)).getD 0
        let stored := on.map (fun j => ((place j).1, leBytes (value j) (place j).2))
        (∀ pre j post u, on = pre ++ j :: post → checkLanes (pre.map (fun i => ((i, at_ i), place i))) s1 = (true, u) →
          let tr := translate u u.hart.region u.hart.level .store (place j).1
          (tr.cause ≠ 0 → tr.cause ≠ 0xFF → ¬LeftToTarget u tr (place j).1 → traps st tr.cause j)
          ∧ (tr.cause = 0xFF → StopsWhole st s))
        ∧ (∀ u, checkLanes (lanes.map (fun p => (p, place p.1))) s1 = (true, u) → (s1.logGate draws).ok = false → StopsWhole st s)
        ∧ ∀ v1 l, (s1.logGate draws).ok = true → checkStores none stored v = (true, v1, l) → l.map (fun w => (w.1, w.2.2)) = stored
          ∧ (BufferFull v1 0 l → WaitsForBuffer st s v1)
          ∧ (¬BufferFull v1 0 l → ∃ u, exec st s = .next u ∧ Ends v1 u (v1.hart.pc + 4) m ∧ IssuesStore v1 u 0 l true)))

/-- R102, R149, R156, R205, R210 to R215, R348: stream registers. What holds a reply slot is log 58, what a load into a write stream
checks log 17. -/
def Obligations.StreamInstructions : Prop :=
  ∀ (s : State) (d : BitVec 3) (x a b : BitVec 5) (sn : BitVec 3) (m : Bool),
    let r : BitVec 5 := 24 + d.setWidth 5
    let base := s.x a
    let n0 := (s.x b).toNat % 2 ^ 16
    let n1 := (s.x b).toNat / 2 ^ 16 % 2 ^ 16
    let writes := (s.x b).getLsbD 32
    let reg := s.fmtReg s.hart.num base
    let fmt := fmtCode reg
    let aligned (v : Word) : Prop := if fmt = 0 then v.toNat % 64 = 0 else
      v.toNat % 2 ^ 15 % (if fmt = 6 ∨ fmt = 7 then 16 else codeElems fmt) = 0
    let misuse := s.hart.bind d ≠ none ∨ n0 = 0 ∨ n1 = 0 ∨ (writes = true ∧ (fmt = 6 ∨ fmt = 7))
    let ok := aligned base ∧ aligned (s.oxr 0) ∧ aligned (s.oxr 1)
    let addr (q : Binding) (j : Nat) : Word := q.base + BitVec.ofNat 64 (j % q.n0.toNat) * q.stride0 + BitVec.ofNat 64 (j / q.n0.toNat) * q.stride1
    let over_ (q : Binding) (j : Nat) : Prop := q.fmt ≠ 0
      ∧ codeCapacity q.fmt < (addr q j).toNat % 2 ^ 15 + (if q.fmt = 6 ∨ q.fmt = 7 then 16 else codeElems q.fmt)
    (misuse → exec (.strbind d a b sn m) s = .next (trap 0x0E (BitVec.ofNat 64 r.toNat) s))
    ∧ (¬misuse → ¬ok → exec (.strbind d a b sn m) s = .next (trap 0x03 base s))
    ∧ (¬misuse → ok → ∃ t q, exec (.strbind d a b sn m) s = .next t ∧ (∀ e, t.hart.bind e = if e = d then some q else s.hart.bind e)
      ∧ q.base = base ∧ q.n0.toNat = n0 ∧ q.n1.toNat = n1 ∧ q.write = writes ∧ q.stride0 = s.oxr 0 ∧ q.stride1 = s.oxr 1
      ∧ q.strand = sn ∧ q.fmt = fmt ∧ q.rnd = fmtRnd reg ∧ q.srs = fmtSrs reg ∧ q.pos = 0 ∧ q.fetched = 0 ∧ q.ready = []
      ∧ Ends s t (s.hart.pc + 4) m ∧ Only (fun old new => { mayEnd old new with binds := new.binds }) s t)
    ∧ ((∃ q, s.hart.bind d = some q ∧ q.strand = sn) → ∃ t, exec (.strfree d sn m) s = .next t ∧ t.hart.bind d = none
      ∧ (∀ e, e ≠ d → t.hart.bind e = s.hart.bind e) ∧ t.hart.ops.length = s.hart.ops.length ∧ Ends s t (s.hart.pc + 4) m
      ∧ Only (fun old new => { mayEnd old new with binds := new.binds, ops := new.ops, rets := new.rets }) s t)
    ∧ ((¬∃ q, s.hart.bind d = some q ∧ q.strand = sn) → exec (.strfree d sn m) s = .next (trap 0x0E (BitVec.ofNat 64 r.toNat) s))
    ∧ (s.hart.bind d = none → RunsX (.strst x d m) s x 0 4 m ∧ exec (.streamFetch d) s = .next s)
    ∧ (∀ q, s.hart.bind d = some q → ∃ v : Word, RunsX (.strst x d m) s x v 4 m
      ∧ v.toNat % 2 ^ 32 = (q.n0.toNat * q.n1.toNat - q.pos) % 2 ^ 32 ∧ v.getLsbD 32 = true ∧ v.getLsbD 33 = q.write
      ∧ v.getLsbD 34 = q.ready.any (fun p => p.2.2.2 != 0) ∧ v.toNat / 2 ^ 35 = q.strand.toNat)
    ∧ (∀ q, s.hart.bind d = some q → s.moving = true → q.pos ≤ q.fetched →
      let j := q.fetched
      let p := bankPlace q.fmt (addr q j)
      let n := codeBytes q.fmt
      let lock := lockHit s p.toNat (p.toNat + n) false q.strand
      let next : Prop := q.write = false ∧ j < q.n0.toNat * q.n1.toNat ∧ j < q.pos + 4
      let had : Prop := (∃ e ∈ q.ready, e.1 = j) ∨ s.hart.fetching r j = true
      let mayFetch : Prop := next ∧ ¬had ∧ ¬SlotsTaken s (addr q j)
      let took (q' : Binding) : State := { s with hart := s.hart.setBind d (some q') }
      let faulty (c : BitVec 8) : Prop :=
        exec (.streamFetch d) s = .next (took { q with fetched := j + 1, ready := q.ready ++ [(j, 0, 0, c)] })
      (¬next ∨ ¬had ∧ SlotsTaken s (addr q j) → exec (.streamFetch d) s = .next s)
      ∧ (next → had → exec (.streamFetch d) s = .next (took { q with fetched := j + 1 }))
      ∧ (mayFetch → over_ q j → faulty 0x05)
      ∧ (mayFetch → ¬over_ q j → lock ≠ 0 → faulty lock)
      ∧ (mayFetch → ¬over_ q j → lock = 0 → ∃ t, exec (.streamFetch d) s = .next t
        ∧ IssuesLoad (took { q with fetched := j + 1 }) t q.strand (.streamLoad r j (addr q j) q.fmt) [(p.toNat, p.toNat + n)]
            (.stream r j (streamDecode q.fmt (addr q j) (bufferBytes s p.toNat n)).1 (streamDecode q.fmt (addr q j) (bufferBytes s p.toNat n)).2 0)))
    ∧ (∀ rs : List (BitVec 5),
      ((∀ q ∈ rs, StreamReady s q) → ∃ u, consumeAll rs s = ⟨true, u⟩ ∧ Only (fun old new => { old with v := new.v, fxFlags := new.fxFlags, binds := new.binds }) s u
        ∧ (∀ e : BitVec 5, e ∉ rs ∨ s.hart.bound e = none → u.vr e = s.vr e ∧ u.hart.bound e = s.hart.bound e)
        ∧ (∀ (e : BitVec 5) (q : Binding) (p : Nat × VReg × BitVec 5 × BitVec 8), e ∈ rs → s.hart.bound e = some q →
            q.ready.find? (fun p => p.1 == q.pos) = some p → u.vr e = p.2.1
              ∧ u.hart.bound e = some { q with pos := q.pos + 1, ready := q.ready.filter (fun p => p.1 != q.pos) }
              ∧ p.2.2.1 &&& u.hart.fxFlags = p.2.2.1)
        ∧ s.hart.fxFlags &&& u.hart.fxFlags = s.hart.fxFlags
        ∧ ((∀ e ∈ rs, s.hart.bound e = none) → u = s))
      ∧ ((∃ q ∈ rs, ¬StreamReady s q) → (consumeAll rs s).ok = false))
    ∧ ((s.hart.bound x = none → ∀ act, produce x act s = ⟨true, s⟩)
      ∧ (WriteMisused s x → ∀ act, produce x act s = ⟨false, trap 0x0E (BitVec.ofNat 64 x.toNat) s⟩)
      ∧ ∀ q act, s.hart.bound x = some q → ¬WriteMisused s x →
        let ea := addr q q.pos
        let p := bankPlace q.fmt ea
        let lock := lockHit s p.toNat (p.toNat + codeBytes q.fmt) true q.strand
        let enc := fmtEncode q.fmt q.rnd q.srs (activeElems act 16) [s.vr x] s
        let v := raised enc.2 enc.1.2
        let bytes := enc.1.1
        let whole : Prop := ∀ z ∈ act, z = true
        let log := s.logGate (fmtDraws q.fmt q.rnd q.srs (activeElems act 16))
        let parts := streamPieces q.fmt p act bytes
        (over_ q q.pos → produce x act s = ⟨false, trap 0x05 ea s⟩)
        ∧ (¬over_ q q.pos → lock ≠ 0 → produce x act s = ⟨false, trap lock ea s⟩)
        ∧ (whole → parts = [(p, bytes)])
        ∧ (¬whole → (q.fmt = 0 ∨ q.fmt = 1 ∨ q.fmt = 2 ∨ q.fmt = 8) → act.length = 16 ∨ act.length = 32 →
            let per := 64 / act.length
            parts = ((List.range act.length).filter (fun i => (act[i]?).getD false)).map (fun i =>
              (p + BitVec.ofNat 64 (per * i), (bytes.drop (per * i)).take per)))
        ∧ (¬over_ q q.pos → lock = 0 → log.ok = false → produce x act s = log)
        ∧ (∀ w rest, ¬over_ q q.pos → lock = 0 → log.ok = true → parts = w :: rest →
            let tr := translate v v.hart.region v.hart.level .store w.1
            (tr.cause = 0xFF → produce x act s = ⟨false, (v.awaitsOwn tr .store w.1).block⟩)
            ∧ (tr.cause ≠ 0 → tr.cause ≠ 0xFF → ¬LeftToTarget v tr w.1 → produce x act s = ⟨false, trap tr.cause ea tr.st⟩))
        ∧ ∀ v1 l, ¬over_ q q.pos → lock = 0 → log.ok = true → checkStores (some ea) parts v = (true, v1, l) → l.map (fun w => (w.1, w.2.2)) = parts
          ∧ (BufferFull v1 q.strand l → (produce x act s).ok = false ∧ (produce x act s).st.hart.run = .blocked)
          ∧ (¬BufferFull v1 q.strand l → ∃ u, produce x act s = ⟨true, { u with hart := u.hart.setBound x (some { q with pos := q.pos + 1 }) }⟩
            ∧ IssuesStore v1 u q.strand l true))
    ∧ ((s.hart.bound x = none → ∀ act, produceCheck x act s = ⟨true, s⟩)
      ∧ (WriteMisused s x → ∀ act, produceCheck x act s = ⟨false, trap 0x0E (BitVec.ofNat 64 x.toNat) s⟩)
      ∧ (∀ q act, s.hart.bound x = some q → ¬WriteMisused s x →
        let ea := addr q q.pos
        let p := bankPlace q.fmt ea
        let lock := lockHit s p.toNat (p.toNat + codeBytes q.fmt) true q.strand
        let targets := checkStores (some ea) (streamPieces q.fmt p act (List.replicate (codeBytes q.fmt) 0)) s
        (over_ q q.pos → produceCheck x act s = ⟨false, trap 0x05 ea s⟩)
        ∧ (¬over_ q q.pos → lock ≠ 0 → produceCheck x act s = ⟨false, trap lock ea s⟩)
        ∧ (¬over_ q q.pos → lock = 0 → produceCheck x act s = ⟨targets.1, targets.2.1⟩))
      ∧ ∀ act r rs, produceChecks act [] s = ⟨true, s⟩ ∧ produceChecks act (r :: rs) s
        = if (produceCheck r act s).ok = true then produceChecks act rs (produceCheck r act s).st else produceCheck r act s)

/-- R116, R149, R156, R212, R226 to R229, R348: the block instructions. What holds a reply slot is log 58, the order of baddq.acc's
traps log 74. -/
def Obligations.BlockInstructions : Prop :=
  ∀ (s : State) (d a b : BitVec 5) (sn : BitVec 3) (m : Bool),
    let acc : Instr := .baddqAcc d a b sn m
    let out : Instr := .baddqOut d a b sn m
    let k8 (s : State) : Bool := (s.x b).getLsbD 0
    let code (s : State) : BitVec 3 := if (s.x b).toNat / 16 % 8 < 5 then BitVec.ofNat 3 ((s.x b).toNat / 16) else 0
    let enc (r : BitVec 5) (s : State) := blockOf (k8 s) (code s) true (s.hart.rvs r 3) s
    let ea := s.x a
    let size := if k8 s = true then 64 else 32
    let regs := [d, d + 1, d + 2]
    let lockR := lockHit s ea.toNat (ea.toNat + size) false sn
    let lockW := lockHit s ea.toNat (ea.toNat + size) true sn
    let draws (s : State) : Nat := if code s = 4 then 48 else 0
    let sums := blockAccLanes (k8 s) (bufferBytes s ea.toNat size) (s.hart.rvs d 3)
    LogStops (.bscale d a b m) s (draws s) ∧ ((s.logGate (draws s)).ok = true →
      RunsLanes (.bscale d a b m) [a, a + 1, a + 2] s d false (List.replicate 16 true) (fun _ => true)
      (fun s1 => (enc a s1).2) (fun s1 j => leNat (((enc a s1).1.1.drop (4 * j)).take 4)) (fun s1 => (enc a s1).1.2) m)
    ∧ (ea.toNat % size ≠ 0 → exec acc s = .next (trap 0x03 ea s) ∧ exec out s = .next (trap 0x03 ea s))
    ∧ (ea.toNat % size = 0 → ∀ pre r post, regs = pre ++ r :: post → (∀ q ∈ pre, s.hart.bound q = none) → s.hart.bound r ≠ none →
        exec acc s = .next (trap 0x0E (BitVec.ofNat 64 r.toNat) s))
    ∧ (ea.toNat % size = 0 → (∀ r ∈ regs, s.hart.bound r = none) →
        (lockR ≠ 0 → exec acc s = .next (trap lockR ea s))
        ∧ (lockR = 0 → LoadIssues acc s ea sn (.blockAcc ea (s.x b) d) [(ea.toNat, ea.toNat + size)] (.acc d (numbered d sums.1) sums.2) 4 m))
    ∧ (ea.toNat % size = 0 → lockW ≠ 0 → exec out s = .next (trap lockW ea s))
    ∧ (ea.toNat % size = 0 → lockW = 0 → StopsOnStreams out s regs
      ∧ ∀ s1, consumeAll regs s = ⟨true, s1⟩ → StoresBlock out s (raised (enc d s1).2 (enc d s1).1.2) ea ea (enc d s1).1.1 (draws s) sn false m)

/-- R188, R212, R240, R242, R253, R254, R258 to R263, R279 to R283, R286, R308: the queued commands in every state. The addresses in
tr.val of the misalignment traps are log 66. -/
def Obligations.EngineCommandsQueue : Prop :=
  ∀ (s : State) (d a b : BitVec 5) (sn : BitVec 3) (m : Bool),
    let c := s.hart.cfg
    let f := s.hart.num / 8
    let al := aAlign (cfgA c)
    let bAl := if cfgB c = 7 then 64 else bSize (cfgB c)
    let valid (l : List (Nat × Nat × LockKind)) := if cfgValid c = true then l else []
    let rowsOf (xa : Word) (n : Nat) := rowSpan xa (cfgM c) (rowBytes (cfgA c) n) (s.oxr 0) .source
    let records := rowSpan (s.x b) (cfgM c) (8 * cfgK c) (s.oxr 1) .dest
    let tile (k : LockKind) : List (Nat × Nat × LockKind) := if tileOk (s.x b) = true
      then [rowSpan (s.x a) (tileOf (s.x b)).2.2.1 (4 * (tileOf (s.x b)).2.2.2) (s.oxr 0) k] else []
    let aOk (xa : Word) : Prop := cfgValid c = true → xa.toNat % al = 0 ∧ (s.oxr 0).toNat % al = 0
    let xOk : Prop := cfgValid c = true → (s.oxr 1).toNat % al = 0 ∧ (s.oxr 2).toNat % al = 0
    let four := (s.x a).toNat % 4 = 0 ∧ (s.oxr 0).toNat % 4 = 0
    let acc : Prop := bitsOf (s.x a) 16 9 % 16 = 0
    let takes : Prop := ¬WriteMisused s d ∧ (produceChecks (List.replicate 16 true) [d] s).ok = true
    let busOf (g : Nat) : Prop := g ≠ f ∧ (if bitsOf (s.x b) 48 2 = 0 then g / 32 = f / 32 ∧ g % 4 = f % 4 else g / 4 = f / 4)
      ∧ s.hart.region ≠ none ∧ s.frameHolder g = s.hart.region
    QueueCommand (.mload a b sn m) s 58 1 sn (s.x a) (s.x b) 0 (fun _ => False) (cfgValid c = true → (s.x a).toNat % bAl = 0 ∧ (s.oxr 0).toNat % bAl = 0) (s.x a) (cfgValid c = true ∧ Withheld s f) (s.x a) (valid [rowSpan (s.x a) (cfgN c) (if cfgB c = 7 then 64 * blocksOf (cfgK c) else bSize (cfgB c) * cfgK c) (s.oxr 0) .source]) m
    ∧ QueueCommand (.mmul a b sn m) s 58 2 sn (s.x a) (s.x b) 0 (fun _ => False) (aOk (s.x a)) (s.x a) (False) (0) (valid [rowsOf (s.x a) (cfgK c)]) m
    ∧ QueueCommand (.mmulz a b sn m) s 58 3 sn (s.x a) (s.x b) 0 (fun _ => False) (aOk (s.x a)) (s.x a) (False) (0) (valid [rowsOf (s.x a) (cfgK c)]) m
    ∧ QueueCommand (.mtmul a b sn m) s 58 5 sn (s.x a) (s.x b) 0 (fun _ => False) (aOk (s.x a)) (s.x a) (False) (0) (valid [rowsOf (s.x a) (cfgN c)]) m
    ∧ QueueCommand (.mmulBc a b sn m) s 58 4 sn (s.x a) (s.x b) 0 busOf (aOk (s.x a)) (s.x a) (False) (0) (valid [rowsOf (s.x a) (cfgK c)]) m
    ∧ QueueCommand (.acld a b sn m) s 58 6 sn (s.x a) (s.x b) 0 (fun _ => False) (four) (s.x a) (False) (0) (tile .source) m
    ∧ QueueCommand (.acst a b sn m) s 58 7 sn (s.x a) (s.x b) 0 (fun _ => False) (four) (s.x a) (OnWeights s (tile .dest)) (s.x a) (tile .dest) m
    ∧ (EngineFor s → acc → WriteMisused s d → exec (.acrd d a sn m) s = .next (trap 0x0E (BitVec.ofNat 64 d.toNat) s))
    ∧ (EngineFor s → acc → ¬WriteMisused s d → (produceChecks (List.replicate 16 true) [d] s).ok = false → StopsWhole (.acrd d a sn m) s)
    ∧ (EngineFor s → acc → takes → 64 ≤ s.hart.entries → WaitsForEntry (.acrd d a sn m) s)
    ∧ (¬EngineFor s ∨ ¬acc ∨ takes ∧ s.hart.entries < 64 → QueueCommand (.acrd d a sn m) s 58 8 sn (s.x a) (0) d (fun _ => False) (acc) (s.x a) (False) (0) ([]) m)
    ∧ (¬EngineFor s → exec (.acwr d a sn m) s = .next (trap 0x05 0 s))
    ∧ (EngineFor s → ¬acc → exec (.acwr d a sn m) s = .next (trap 0x03 (s.x a) s))
    ∧ (EngineFor s → acc → ¬HasRoom s 0 → exec (.acwr d a sn m) s = .next { s with hart := { s.hart with run := .blocked } })
    ∧ (EngineFor s → acc → HasRoom s 0 → StopsOnStreams (.acwr d a sn m) s [d] ∧ ∀ s1, consumeAll [d] s = ⟨true, s1⟩ →
      Queues (.acwr d a sn m) s s1 0x3A 9 sn (s.x a) 0 d (s1.vr d) (fun _ => False) [] m)
    ∧ QueueCommand (.acz a sn m) s 58 10 sn (s.x a) (0) 0 (fun _ => False) (True) (0) (False) (0) ([]) m
    ∧ QueueCommand (.seval a b sn m) s 59 1 sn (s.x a) (s.x b) 0 (fun _ => False) (aOk (s.x a)) (s.x a) (False) (0) (valid [rowsOf (s.x a) (cfgK c)]) m
    ∧ QueueCommand (.sderiv a b sn m) s 59 2 sn (s.x a) (s.x b) 0 (fun _ => False) (aOk (s.x a) ∧ xOk) (if cfgValid c = true ∧ ¬((s.x a).toNat % al = 0 ∧ (s.oxr 0).toNat % al = 0) then s.x a else s.oxr 1) (False) (0) (valid [rowsOf (s.x a) (cfgN c)]) m
    ∧ QueueCommand (.sgfold a b sn m) s 59 3 sn (s.x a) (s.x b) 0 (fun _ => False) (four ∧ (s.oxr 1).toNat % 8 = 0) (if four then s.oxr 1 else s.x a) (False) (0) (if foldOk (s.x b) = true then [rowSpan (s.x a) (foldOf (s.x b)).2.2.2 (4 * (foldOf (s.x b)).2.2.1) (s.oxr 0) .source] else []) m
    ∧ QueueCommand (.sload a b sn m) s 59 4 sn (s.x a) (s.x b) 0 (fun _ => False) ((s.x a).toNat % 64 = 0 ∧ (s.oxr 0).toNat % 64 = 0) (s.x a) (cfgValid c = true ∧ Withheld s f) (s.x a) (valid [rowSpan (s.x a) (cfgN c) (64 * cfgK c) (s.oxr 0) .source]) m
    ∧ (EngineFor s → 64 ≤ s.hart.entries → WaitsForEntry (.kcnt d a sn m) s)
    ∧ (¬EngineFor s ∨ s.hart.entries < 64 → QueueCommand (.kcnt d a sn m) s 59 7 sn (s.x a) (0) d (fun _ => False) (True) (0) (False) (0) ([]) m)
    ∧ QueueCommand (.sbrec a b sn m) s 59 8 sn (s.x a) (s.x b) 0 (fun _ => False) (aOk (s.x a) ∧ (s.x b).toNat % 8 = 0 ∧ (s.oxr 1).toNat % 8 = 0) (if (s.x b).toNat % 8 = 0 ∧ (s.oxr 1).toNat % 8 = 0 then s.x a else s.x b) (OnWeights s (valid [records])) (s.x b) (valid [rowsOf (s.x a) (cfgK c)] ++ valid [records]) m

/-- R238, R239, R248, R256, R257, R264: tile configuration and engine status in every state. -/
def Obligations.EngineControl : Prop :=
  ∀ (s : State) (d a : BitVec 5) (m : Bool),
    let check (c : Word) (red : Bool) : Nat :=
      if cfgA c ≠ 2 ∧ cfgA c ≠ 4 ∧ cfgA c ≠ 5 ∧ cfgA c ≠ 6 ∧ cfgA c ≠ 7 then 1
      else if cfgB c ≠ 1 ∧ cfgB c ≠ 2 ∧ cfgB c ≠ 4 ∧ cfgB c ≠ 5 ∧ cfgB c ≠ 7 ∨ cfgB c = 7 ∧ c.getLsbD 8 = true then 2
      else if c.getLsbD 8 = true ∧ cfgSlot c % 2 = 1 ∨ red = true ∧ 8 ≤ cfgSlot c then 3
      else if cfgM c = 0 ∨ 128 < cfgM c then 4
      else if cfgK c = 0 ∨ 480 < cfgK c then 5
      else if cfgN c = 0 ∨ 512 < cfgN c then 6 else 0
    let field (j : Nat) : Prop := j < 10 ∨ 12 ≤ j ∧ j < 24 ∨ 32 ≤ j ∧ j < 41 ∨ 48 ≤ j ∧ j < 58
    let sets (i : Instr) (c : Word) (red : Bool) : Prop := ∃ t, exec i s = .next t
      ∧ WritesX s t d (BitVec.ofNat 64 (check c red))
      ∧ (∀ j < 64, t.hart.cfg.getLsbD j = true ↔ field j ∧ c.getLsbD j = true ∨ j = 62 ∧ red = true ∨ j = 63 ∧ check c red = 0)
      ∧ Ends s t (s.hart.pc + 4) m ∧ Only (fun old new => { mayX old new with cfg := new.cfg }) s t
    let record (v : EngErr → Word) : Word := match s.hart.engErr with | some e => v e | none => 0
    let onBus (f bus g : Nat) : Prop := if bus = 0 then g / 32 = f / 32 ∧ g % 4 = f % 4 else g / 4 = f / 4
    let waits : Prop := ∃ c rest, s.hart.cmds = c :: rest ∧ c.major = 0x3A ∧ c.fn = 4 ∧ c.holds = false
      ∧ ∃ g p, onBus (s.hart.num / 8) (bitsOf c.xb 48 2) g ∧ p < 8 ∧ ∃ d ∈ (s.getHart (8 * g + p)).cmds,
        d.holds = true ∧ ¬(8 * g + p = s.hart.num ∧ d.op = c.op) ∧ bitsOf d.xb 48 2 = bitsOf c.xb 48 2
    (¬EngineFor s → exec (.mcfg d a m) s = .next (trap 0x05 0 s) ∧ exec (.mredund d a m) s = .next (trap 0x05 0 s)
      ∧ exec (.mqst d a m) s = .next (trap 0x05 0 s))
    ∧ (EngineFor s → sets (.mcfg d a m) (s.x a) (s.hart.cfg.getLsbD 62) ∧ sets (.mredund d a m) s.hart.cfg ((s.x a).getLsbD 0)
      ∧ ∀ k, (s.x a).toNat % 16 = k →
        (k = 0 → (waits → RunsX (.mqst d a m) s d (BitVec.ofNat 64 (s.hart.cmds.length + 256)) 4 m)
          ∧ (¬waits → RunsX (.mqst d a m) s d (BitVec.ofNat 64 s.hart.cmds.length) 4 m))
        ∧ (k = 1 → RunsX (.mqst d a m) s d s.hart.cfg 4 m)
        ∧ (k = 2 → RunsX (.mqst d a m) s d (record (fun e => e.pc ||| 1)) 4 m)
        ∧ (k = 3 → RunsX (.mqst d a m) s d (record (fun e =>
            BitVec.ofNat 64 (e.word.toNat + e.ecode.toNat * 2 ^ 32 + e.strip.toNat * 2 ^ 48))) 4 m)
        ∧ (k = 4 → RunsX (.mqst d a m) s d (record (·.xa)) 4 m) ∧ (k = 5 → RunsX (.mqst d a m) s d (record (·.xb)) 4 m)
        ∧ (k = 6 → RunsX (.mqst d a m) s d (record (·.ox0)) 4 m) ∧ (k = 7 → RunsX (.mqst d a m) s d (record (·.cfg)) 4 m)
        ∧ (k = 8 → RunsX (.mqst d a m) s d (record (fun e => BitVec.ofNat 64 (e.col0.toNat + e.col1.toNat * 2 ^ 16))) 4 m)
        ∧ (9 ≤ k → RunsX (.mqst d a m) s d 0 4 m))

/-- R266, R268, R274, R277, R278, R284, R285: grid commands. What tr.val is for an inexact kn.lo - kn.h is log 78. -/
def Obligations.GridCommands : Prop :=
  ∀ (s : State) (a b : BitVec 5) (sn : BitVec 3) (m : Bool),
    let f := s.hart.num / 8
    let exponent (v : Nat) : Nat := v / 2 ^ 23 % 256
    let normal (v : Nat) : Prop := v < 2 ^ 31 ∧ 1 ≤ exponent v ∧ exponent v ≤ 254
    let recip (h : Nat) : Nat := (fpRcpV .fp32 (fpDecode .fp32 h)).bits
    let xa := (s.x a).toNat
    let xb := (s.x b).toNat
    let g := xb / 2 ^ 32 % 16
    let p := xb / 2 ^ 40 % 4
    let illegal : Prop := g = 0 ∨ p = 0 ∨ 16 < g + p ∨ xb / 2 ^ 48 % 4 = 3 ∨ exponent (xa % 2 ^ 32) = 255 ∨ ¬normal (xa / 2 ^ 32)
      ∨ ¬normal (recip (xa / 2 ^ 32) % 2 ^ 32)
    let mayGrid (old new : Hart) : Hart := { mayEnd old new with
      cmds := new.cmds, sp := new.sp, ops := new.ops, perfAt := new.perfAt, nextOp := old.nextOp + 1 }
    let takes (i : Instr) (fn : Nat) (va vb at_ : Word) (bad : Prop) : Prop :=
      (¬EngineFor s → exec i s = .next (trap 0x05 0 s))
      ∧ (EngineFor s → Withheld s f → exec i s = .next (trap 0x0A at_ s))
      ∧ (EngineFor s → ¬Withheld s f → bad → exec i s = .next (trap 0x0B (s.x b) s))
      ∧ (EngineFor s → ¬Withheld s f → ¬bad → 16 ≤ s.hart.cmds.length →
          exec i s = .next { s with hart := { s.hart with run := .blocked } })
      ∧ (EngineFor s → ¬Withheld s f → ¬bad → s.hart.cmds.length < 16 → ∃ t c, exec i s = .next t
        ∧ t.hart.cmds = s.hart.cmds ++ [c] ∧ c.major = 0x3B ∧ c.fn.toNat = fn ∧ c.strand = sn ∧ c.xa = va ∧ c.xb = vb ∧ c.pc = s.hart.pc
        ∧ c.op = s.hart.nextOp ∧ c.cfg = s.hart.cfg ∧ c.begun = false ∧ encode i = some (.word c.word) ∧ t.hart.run = .grid m
        ∧ Drains s t (fun e => e.strand == sn)
        ∧ Only (fun old new => { old with cmds := new.cmds, run := new.run, nextOp := old.nextOp + 1, comb := new.comb }) s t)
    let performs (c : Cmd) (e : Engine) (bad : Prop) (e' : Engine → Prop) : Prop :=
      ∀ rest, f < 128 → Inv s → s.hart.run = .grid m → s.hart.cmds = c :: rest → c.major = 0x3B → s.gridHart f = some s.hart.num →
        s.engine f = e → e.tile = none → e.busIn = [] → s.begunOn f = false →
        (bad → exec (.gridCommandPerform f) s = .next (trap 0x0B (BitVec.ofNat 64 e.g.toNat)
          { s with hart := { s.hart with cmds := s.hart.cmds.filter (fun d => d.op != c.op), run := .running } }))
        ∧ (¬bad → ∃ t, exec (.gridCommandPerform f) s = .next t ∧ e' (t.engine f) ∧ (∀ k, k ≠ f → t.engine k = s.engine k)
          ∧ t.hart.cmds = s.hart.cmds.filter (fun d => d.op != c.op) ∧ (t.hart.spin c.strand).issue = (s.hart.spin c.strand).issue + 1
          ∧ t.hart.ops = s.hart.ops.filter (fun o => o.id != s.hart.nextOp) ∧ Ends s t (s.hart.pc + 4) m ∧ SameBytes s t
          ∧ t = { s with hart := mayGrid s.hart t.hart, engines := t.engines })
    let byteOf (e : Engine) (row col k : Nat) : Int := (Cells.get e.cim ((row * 512 + col) * 16 + k)).toInt
    let scaleOf (e : Engine) (kb col k : Nat) : Nat := (Cells.get e.scale ((kb * 512 + col) * 16 + k)).toNat
    let choose : List (List Nat) := [[1, 1], [1, 2, 1], [1, 3, 3, 1], [1, 4, 6, 4, 1]]
    let sat127 (v : Int) : Int := max (-127) (min 127 v)
    takes (.kset a b sn m) 0 (s.x a) (s.x b) (s.x a) illegal
    ∧ takes (.srefine sn m) 5 0 0 0 False ∧ takes (.sextend a sn m) 6 (s.x a) 0 0 False
    ∧ (∀ c e, c.fn = 0 → performs c e False (fun e' => e' = { e with
        lo := BitVec.ofNat 32 c.xa.toNat, h := BitVec.ofNat 32 (c.xa.toNat / 2 ^ 32),
        hinv := BitVec.ofNat 32 (recip (c.xa.toNat / 2 ^ 32)), g := BitVec.ofNat 4 (c.xb.toNat / 2 ^ 32),
        p := BitVec.ofNat 2 (c.xb.toNat / 2 ^ 40), mode := BitVec.ofNat 2 (c.xb.toNat / 2 ^ 48), cntLo := 0, cntHi := 0 }))
    ∧ (∀ c e, c.fn = 5 → let g := e.g.toNat
        let p := e.p.toNat
        let len := 2 * g + p
        let sums (row col l : Nat) : Int := sumTo (g + p) (fun k => if 2 * k ≤ l + p ∧ l + p - 2 * k ≤ p + 1
          then byteOf e row col k * ((((choose[p]?).getD [])[l + p - 2 * k]?).getD 0 : Nat) else 0)
        let closed (col kb : Nat) : Prop := scaleOf e kb col 0 = 255
        let blank (col kb : Nat) : Prop := ∀ i < 48, ∀ l < len, sums (48 * kb + i) col l = 0
        performs c e (g = 0 ∨ 16 < len ∨ cfgRed c.cfg = true ∧ 8 < len ∨ exponent e.h.toNat ≤ 1) (fun e' =>
          e'.g.toNat = 2 * g % 16 ∧ e'.h.toNat = e.h.toNat - 2 ^ 23 ∧ e'.hinv = e.hinv + 0x800000#32
          ∧ e' = { e with g := e'.g, h := e'.h, hinv := e'.hinv, cim := e'.cim, scale := e'.scale }
          ∧ (∀ kb < 10, ∀ col < 512, ¬closed col kb → ¬blank col kb → ∃ i0 < 48, ∃ l0 < len,
              let top := (sums (48 * kb + i0) col l0).natAbs
              let scale := ((Nat.log2 top : Int) + scaleOf e kb col 0 - p - 6).toNat
              (∀ i < 48, ∀ l < len, (sums (48 * kb + i) col l).natAbs ≤ top)
              ∧ (∀ l < len, scaleOf e' kb col l = scale % 256)
              ∧ ∀ i < 48, ∀ l < len, ∃ q, Near q (sums (48 * kb + i) col l * 2 ^ scaleOf e kb col 0) (2 ^ (p + scale))
                ∧ byteOf e' (48 * kb + i) col l = sat127 q)
          ∧ (∀ kb < 10, ∀ col < 512, ¬closed col kb → blank col kb →
              ∀ l < len, scaleOf e' kb col l = scaleOf e kb col l ∧ ∀ i < 48, byteOf e' (48 * kb + i) col l = 0)
          ∧ (cfgRed c.cfg = true → ∀ kb < 10, ∀ col < 512, ¬closed col kb → ∀ l < len,
              (∀ i < 48, byteOf e' ((48 * kb + i + 96) % 480) col (l + 8) = byteOf e' (48 * kb + i) col l)
              ∧ scaleOf e' ((kb + 2) % 10) col (l + 8) = if blank col kb then scaleOf e ((kb + 2) % 10) col (l + 8) else scaleOf e' kb col l)
          ∧ (∀ kb < 10, ∀ col < 512, ∀ l < 16, (closed col kb ∨ len ≤ l) →
              (cfgRed c.cfg = true ∧ 8 ≤ l ∧ l < len + 8 ∧ ¬closed col ((kb + 8) % 10)) ∨
              (scaleOf e' kb col l = scaleOf e kb col l ∧ ∀ i < 48, byteOf e' (48 * kb + i) col l = byteOf e (48 * kb + i) col l))))
    ∧ (∀ c e, c.fn = 6 → let len := e.g.toNat + e.p.toNat
        let high := c.xa.getLsbD 0
        let below := fpAddV .fp32 .rne (fpDecode .fp32 e.lo.toNat) (fvNeg (fpDecode .fp32 e.h.toNat))
        let new (row col k : Nat) : Int :=
          if high = true then (if k < len then byteOf e row col k else sat127 (2 * byteOf e row col (len - 1) - byteOf e row col (len - 2)))
          else if k = 0 then sat127 (2 * byteOf e row col 0 - byteOf e row col 1) else byteOf e row col (k - 1)
        performs c e (e.g = 0 ∨ 16 < len + 1 ∨ cfgRed c.cfg = true ∧ 8 < len + 1 ∨ high = false ∧ below.flags ≠ 0) (fun e' =>
          e'.g.toNat = (e.g.toNat + 1) % 16 ∧ e'.lo = (if high = true then e.lo else BitVec.ofNat 32 below.bits)
          ∧ (∀ row < 480, ∀ col < 512, ∀ k < 16, byteOf e' row col k =
              if k ≤ len then new row col k
              else if cfgRed c.cfg = true ∧ 8 ≤ k ∧ k ≤ len + 8 ∧ (high = true → k = len + 8) then new ((row + 384) % 480) col (k - 8)
              else byteOf e row col k)
          ∧ e' = { e with g := e'.g, lo := e'.lo, cim := e'.cim }))

/-- R233, R242, R243, R245, R249, R260, R265, R274, R275: the arbiter of an engine, its bus and its clock. That the strip counts when every peer on the bus has
drained its tile is log 34; what a failed comparison
leaves on the other engines of a bus is log 77. -/
def Obligations.EngineRounds : Prop :=
  ∀ (s : State) (f : Nat), f < 128 → (s.engine f).place < 8 →
    let e := s.engine f
    let grid (c : Cmd) : Prop := c.major = 0x3B ∧ (c.fn = 0 ∨ c.fn = 5 ∨ c.fn = 6)
    let bus (c : Cmd) : Prop := c.major = 0x3A ∧ c.fn = 4
    let stopped (n : Nat) : Prop := (s.getHart n).back ≠ none ∨ ∃ r, (s.getHart n).run = .stopped r
    let gridWaits : Prop := ∃ p < 8, ∃ c rest, (s.getHart (8 * f + p)).cmds = c :: rest ∧ grid c ∧ ¬stopped (8 * f + p)
      ∧ (s.getHart (8 * f + p)).cmdReady c = true
    let again : Prop := e.served < s.tileWeight (8 * f + e.place) ∧ s.canServe f (8 * f + e.place) = true
    let picks (place served : Nat) : Prop :=
      (again → place = e.place ∧ served = e.served + 1)
      ∧ (¬again → served = 1 ∧ ∃ k < 8, place = (e.place + 1 + k) % 8 ∧ s.canServe f (8 * f + place) = true
          ∧ ∀ j < k, s.canServe f (8 * f + (e.place + 1 + j) % 8) = false)
    let asks : State := { s with startq := if s.startq.contains (.engine f) = true then s.startq else s.startq ++ [.engine f] }
    (∀ n, s.canServe f n = true ↔ ∃ c rest, (s.getHart n).cmds = c :: rest ∧ ¬stopped n ∧ ¬grid c ∧ c.lost = false
      ∧ (bus c → c.holds = false → bitsOf c.xb 48 2 < 2 → s.busBusy f (bitsOf c.xb 48 2) n c.op = false)
      ∧ (c.begun = true → c.drained < c.strips
          ∧ (bus c → ∀ g ∈ s.engines, ∀ b ∈ g.busIn, ¬(b.hart = n ∧ b.op = c.op)))
      ∧ (c.begun = false → (s.getHart n).cmdReady c = true ∧ ¬gridWaits))
    ∧ (e.tile ≠ none ∨ e.busIn ≠ [] ∨ (∀ p < 8, s.canServe f (8 * f + p) = false) → exec (.tileBegin f) s = .next s)
    ∧ (∀ place served c rest, e.tile = none → e.busIn = [] → picks place served → (s.getHart (8 * f + place)).cmds = c :: rest →
      let n := 8 * f + place
      let skipped : Prop := c.begun = false ∧ ((s.getHart n).spin c.strand).status.getLsbD 3 = true
      (skipped → ∃ t, exec (.tileBegin f) s = .next t ∧ (t.getHart n).cmds = (s.getHart n).cmds.filter (fun d => d.op != c.op)
          ∧ (t.getHart n).ops = (s.getHart n).ops.filter (fun o => o.id != c.op) ∧ t.engines = s.engines ∧ SameBytes s t
          ∧ ((t.getHart n).spin c.strand).status = ((s.getHart n).spin c.strand).status
          ∧ t.locks = s.locks.filter (fun l => !(l.hart == some n && l.op == c.op)))
      ∧ (¬skipped → e.gated = true → exec (.tileBegin f) s = .next asks)
      ∧ (¬skipped → e.gated = false → ∃ t, exec (.tileBegin f) s = .next t
          ∧ t.engine f = { e with tile := some (n, c.op), place := place, served := served } ∧ (∀ g, g ≠ f → t.engine g = s.engine g)
          ∧ (t.getHart n).cmds = (s.getHart n).cmds.map (fun d => if d.op = c.op then { c with
              begun := true
              holds := decide (bus c)
              kn := if c.major = 0x3B ∧ c.kn = none then some (e.lo, e.h, e.hinv, e.g, e.p, e.mode) else c.kn } else d)
          ∧ (∀ k, k ≠ n → t.getHart k = s.getHart k)
          ∧ t = { s with hart := { s.hart with cmds := t.hart.cmds }, others := t.others, engines := t.engines }))
    ∧ (e.busIn = [] ∨ e.tile ≠ none → exec (.busTileArrival f) s = .next s)
    ∧ (e.busIn ≠ [] → e.tile = none → e.gated = true → exec (.busTileArrival f) s = .next asks)
    ∧ (∀ b rest c, Inv s → e.tile = none → e.busIn = b :: rest → e.gated = false →
      (s.getHart b.hart).cmds.find? (fun d => d.op == b.op) = some c → bitsOf c.xb 16 9 + cfgN c.cfg ≤ 512 →
      let ps (mir : Bool) (r j : Nat) : List Nat :=
        ((b.rows[r]?).getD []).zipIdx.map (fun p => partialMul e c.cfg mir p.1 p.2 (bitsOf c.xb 32 9 + j))
      let differ (j : Nat) : Prop := cfgRed c.cfg = true ∧ j < cfgN c.cfg ∧ ∃ r < b.rows.length, ps true r j ≠ ps false r j
      ∃ t, exec (.busTileArrival f) s = .next t ∧ SameBytes s t ∧ (t.engine f).lastTile = s.now
        ∧ ((∃ j, differ j) → (t.engine f).acc = e.acc ∧ CmdFails s t b.hart c 5 0 b.strip
            (fun c0 c1 => ∃ j, differ j ∧ c0 = (bitsOf c.xb 32 9 + j) / 128 * 128 % 512 ∧ c1 = c0 + 127))
        ∧ ((∀ j, ¬differ j) → (t.engine f).busIn = rest
          ∧ SetsAcc e (t.engine f) (bitsOf c.xb 0 7 + 16 * b.strip) (bitsOf c.xb 16 9) b.rows.length (cfgN c.cfg) (fun r j =>
              BitVec.ofNat 32 ((ps false r j).foldl (fun v p => accAdd (cfgNeg c.cfg) v p)
                (Cells.get e.acc ((bitsOf c.xb 0 7 + 16 * b.strip + r) * 512 + (bitsOf c.xb 16 9 + j))).toNat))
          ∧ (c.drained < c.strips ∨ (∃ g ∈ t.engines, ∃ d ∈ g.busIn, d.hart = b.hart ∧ d.op = b.op) →
              (t.getHart b.hart).cmds = (s.getHart b.hart).cmds ∧ (t.getHart b.hart).ops = (s.getHart b.hart).ops)
          ∧ (c.strips ≤ c.drained → (∀ g ∈ t.engines, ∀ d ∈ g.busIn, ¬(d.hart = b.hart ∧ d.op = b.op)) →
              (t.getHart b.hart).cmds = (s.getHart b.hart).cmds.filter (fun d => d.op != b.op)
              ∧ (t.getHart b.hart).ops = (s.getHart b.hart).ops.filter (fun o => o.id != b.op)
              ∧ t.locks = s.locks.filter (fun l => !(l.hart == some b.hart && l.op == b.op)))))
    ∧ (e.gated = false ∧ e.tile = none ∧ e.busIn = [] ∧ e.lastTile.toNat + 2000 ≤ s.now.toNat → ∃ t,
        exec (.engineClockGate f) s = .next t ∧ t.engine f = { e with gated := true } ∧ (∀ g, g ≠ f → t.engine g = s.engine g)
        ∧ t = { s with engines := t.engines })
    ∧ (¬(e.gated = false ∧ e.tile = none ∧ e.busIn = [] ∧ e.lastTile.toNat + 2000 ≤ s.now.toNat) →
        exec (.engineClockGate f) s = .next s)

/-- R233, R243 to R246, R250, R258 to R263, R267, R270, R279 to R286: the drain of a tile in progress. When a broadcast strip counts
is log 34, what a failed comparison leaves on the bus log 77. -/
def Obligations.TilesDrain : Prop :=
  ∀ (s : State) (f n : Nat) (c : Cmd), TileOf s f n c → Inv s →
    let g := s.cmdAgent n c
    let cfg := c.cfg
    let k := c.grid (s.engine f)
    let r0 := bitsOf c.xb 0 7 + 16 * c.drained
    let c0 := bitsOf c.xb 16 9
    let bcol := bitsOf c.xb 32 9
    let rows := c.rowsAt c.drained
    let from_ (a st : Word) : Word := a + BitVec.ofNat 64 (16 * c.drained) * st
    let valid : Prop := cfgValid cfg = true
    let fits (cols : Nat) : Prop := valid ∧ bitsOf c.xb 0 7 + cfgM cfg ≤ 128 ∧ c0 + cols ≤ 512 ∧ bcol + cfgN cfg ≤ 512
    let gridOk : Prop := k.g ≠ 0 ∧ (cfgRed cfg = true → k.len ≤ 8)
    let ends (s1 : State) (p : State → Prop) : Prop := ∃ t, exec (.stripDrain f) s = .next t ∧ StripCounts s1 t f n c
      ∧ (∀ h, h ≠ f → h ∉ c.peers → t.engine h = s1.engine h) ∧ SameBytes s1 t ∧ p t
    let old (s1 : State) (r j : Nat) : Nat := (Cells.get (s1.engine f).acc ((r0 + r) * 512 + (c0 + j))).toNat
    let sums (s1 : State) (cols : Nat) (ps : Bool → Nat → Nat → List Nat) (start : Nat → Nat → Nat) (more : State → Prop) : Prop :=
      (cfgRed cfg = true → ∀ r < rows, ∀ j < cols, ps true r j = ps false r j) → ends s1 (fun t =>
        SetsAcc (s1.engine f) (t.engine f) r0 c0 rows cols (fun r j =>
          BitVec.ofNat 32 ((ps false r j).foldl (fun v p => accAdd (cfgNeg cfg) v p) (start r j)))
        ∧ (t.engine f).cim = (s1.engine f).cim ∧ (t.engine f).scale = (s1.engine f).scale ∧ more t)
    let loads (s1 : State) (l1 l2 : List (Nat × Byte)) : Prop := ends s1 (fun t => PutsCells (s1.engine f).cim (t.engine f).cim l1
      ∧ PutsCells (s1.engine f).scale (t.engine f).scale l2 ∧ (t.engine f).acc = (s1.engine f).acc)
    (∀ a s1, c.major = 0x3A → c.fn = 2 ∨ c.fn = 3 ∨ c.fn = 4 ∧ bitsOf c.xb 48 2 < 2 ∧ f ∉ c.peers → fits (cfgN cfg) → c.peers.Nodup →
      fetchRows g (cfgA cfg) (cfgK cfg) c.ox0 rows (from_ c.xa c.ox0) s = (.got a, s1) →
      sums s1 (cfgN cfg) (fun mir r j => ((a[r]?).getD []).zipIdx.map (fun b => partialMul (s1.engine f) cfg mir b.1 b.2 (bcol + j)))
        (fun r j => if c.fn = 3 then 0 else old s1 r j) (fun t => f ∉ c.peers → ∀ p ∈ c.peers,
          t.engine p = { s1.engine p with busIn := (s1.engine p).busIn ++ [⟨n, c.op, c.drained, a⟩] }))
    ∧ (∀ a s1, c.major = 0x3A → c.fn = 5 → c.peers = [] → fits (cfgK cfg) →
      fetchRows g (cfgA cfg) (cfgN cfg) c.ox0 rows (from_ c.xa c.ox0) s = (.got a, s1) →
      sums s1 (cfgK cfg) (fun mir r j => ((a[r]?).getD []).zipIdx.map (fun b => partialTr (s1.engine f) cfg mir b.1 b.2 j bcol))
        (old s1) (fun _ => True))
    ∧ (∀ l s1, valid → c.major = 0x3A → c.fn = 6 → tileOk c.xb = true →
      loadTile g c (tileOf c.xb).2.2.2 (List.range (tileOf c.xb).2.2.1) s = (.got l, s1) → ends s1 (fun t =>
        SetsAcc (s1.engine f) (t.engine f) (tileOf c.xb).1 (tileOf c.xb).2.1 (tileOf c.xb).2.2.1 (tileOf c.xb).2.2.2 (fun r j =>
          BitVec.ofNat 32 (leNat ((((l[r]?).getD (0, [])).2.drop (4 * j)).take 4)))))
    ∧ (∀ s1, valid → c.major = 0x3A → c.fn = 7 → tileOk c.xb = true →
      putRows g c.xa c.ox0 ((List.range (tileOf c.xb).2.2.1).map (fun r => (r, (List.range (tileOf c.xb).2.2.2).flatMap (fun j =>
        leBytes (Cells.get (s.engine f).acc (((tileOf c.xb).1 + r) * 512 + ((tileOf c.xb).2.1 + j))).toNat 4)))) s = (.done, s1) →
      ends s1 (fun t => (t.engine f).acc = (s1.engine f).acc))
    ∧ (valid → c.major = 0x3A → c.fn = 8 → c.peers = [] → ends s (fun t => ∃ v, (t.getHart n).rets = (s.getHart n).rets
        ++ [⟨c.op, c.strand, .vval [(c.dest, v)] 0, none, []⟩] ∧ ∀ j < 16, lane false v j
          = (Cells.get (s.engine f).acc (bitsOf c.xa 0 7 * 512 + (bitsOf c.xa 16 9 + j))).toNat))
    ∧ (valid → c.major = 0x3A → c.fn = 9 → ends s (fun t => SetsAcc (s.engine f) (t.engine f) (bitsOf c.xa 0 7) (bitsOf c.xa 16 9) 1 16
        (fun _ j => BitVec.ofNat 32 (lane false c.data j))))
    ∧ (valid → c.major = 0x3A → c.fn = 10 → tileOk c.xa = true → ends s (fun t => SetsAcc (s.engine f) (t.engine f)
        (tileOf c.xa).1 (tileOf c.xa).2.1 (tileOf c.xa).2.2.1 (tileOf c.xa).2.2.2 (fun _ _ => 0)))
    ∧ (∀ l1 l2 s1, valid → c.major = 0x3A → c.fn = 1 → bcol + cfgN cfg ≤ 512 → loadCells g c (loadPlaces cfg) s = (.got (l1, l2), s1) →
      loads s1 l1 l2)
    ∧ (∀ a s1, c.major = 0x3B → c.fn = 1 → c.peers = [] → fits (cfgN cfg) → gridOk →
      fetchValRows g (cfgA cfg) (cfgK cfg) c.ox0 rows (from_ c.xa c.ox0) s = (.got a, s1) →
      sums s1 (cfgN cfg) (fun mir r j => (groups48 10 (((a[r]?).getD []).map k.knot)).zipIdx.map (fun b =>
        partialSpline (s1.engine f) k mir b.2 (bcol + j) b.1)) (old s1) (fun t =>
          (t.engine f).cntLo.toNat = min ((s1.engine f).cntLo.toNat + (stripCounts k a).1) (2 ^ 32 - 1)
          ∧ (t.engine f).cntHi.toNat = min ((s1.engine f).cntHi.toNat + (stripCounts k a).2) (2 ^ 32 - 1)))
    ∧ (∀ a xs s1 s2, c.major = 0x3B → c.fn = 2 → c.peers = [] → fits (cfgK cfg) → gridOk →
      fetchRows g (cfgA cfg) (cfgN cfg) c.ox0 rows (from_ c.xa c.ox0) s = (.got a, s1) →
      fetchValRows g (cfgA cfg) (cfgK cfg) c.ox2 rows (from_ c.ox1 c.ox2) s1 = (.got xs, s2) →
      sums s2 (cfgK cfg) (fun mir r j => ((a[r]?).getD []).zipIdx.map (fun b => partialDeriv (s2.engine f) k mir b.1
        (k.knot ((((xs[r]?).getD [])[j]?).getD .nan)) j b.2 bcol)) (old s2) (fun _ => True))
    ∧ (∀ acc s1, c.major = 0x3B → c.fn = 3 → foldOk c.xb = true →
      foldSamples g c (foldOf c.xb).1 (foldOf c.xb).2.1 (foldOf c.xb).2.2.1
        ((List.range (min 16 ((foldOf c.xb).2.2.2 - 16 * c.drained))).map (fun i => 16 * c.drained + i)) (s.engine f).acc s = (.got acc, s1) →
      ends s1 (fun t => (t.engine f).acc = acc ∧ (t.engine f).cim = (s1.engine f).cim))
    ∧ (∀ l, valid → c.major = 0x3B → c.fn = 4 → bcol + cfgN cfg ≤ 512 → gridOk →
      sloadCells g c k.len (loadPlaces cfg) s = l → l.fetch = .got () → loads l.st l.cells l.scales)
    ∧ (∀ a s1 s2, valid → c.major = 0x3B → c.fn = 8 → k.g ≠ 0 →
      fetchValRows g (cfgA cfg) (cfgK cfg) c.ox0 rows (from_ c.xa c.ox0) s = (.got a, s1) →
      putRows g c.xb c.ox1 (a.zipIdx.map (fun p => (16 * c.drained + p.2, p.1.flatMap (fun x =>
        leBytes ((c.grid (s1.engine f)).record x).toNat 8)))) s1 = (.done, s2) → ends s2 (fun t => (t.engine f).acc = (s2.engine f).acc))
    ∧ (c.major = 0x3B → c.fn = 7 → c.peers = [] →
      let e := s.engine f
      let sel := c.xa.toNat % 256
      let v : Nat := match sel with
        | 0 => e.cntLo.toNat
        | 1 => e.cntHi.toNat
        | 2 => e.lo.toNat + e.h.toNat * 2 ^ 32
        | 3 => e.hinv.toNat + e.g.toNat * 2 ^ 32 + e.p.toNat * 2 ^ 40 + e.mode.toNat * 2 ^ 48
        | 4 => e.cntLo.toNat + e.cntHi.toNat * 2 ^ 32
        | _ => 0
      let clears : Prop := c.xa.getLsbD 8 = true ∧ (sel = 0 ∨ sel = 1 ∨ sel = 4)
      ends s (fun t => (t.getHart n).rets = (s.getHart n).rets ++ [⟨c.op, c.strand, .xval c.dest (BitVec.ofNat 64 v), none, []⟩]
        ∧ (t.engine f).cntLo = (if clears then 0 else e.cntLo) ∧ (t.engine f).cntHi = (if clears then 0 else e.cntHi)))

/-- R233, R240, R241, R247 to R249, R267, R276: error phases. The order of ECODE 1, 2 and 7 is log 32, the columns of a mirror
that differs log 68. -/
def Obligations.EngineErrors : Prop :=
  ∀ (s : State) (f n : Nat) (c : Cmd), TileOf s f n c → c.isGrid = false → Inv s →
    let g := s.cmdAgent n c
    let cfg := c.cfg
    let k := c.grid (s.engine f)
    let noGrid : Prop := k.g = 0 ∨ c.fn ≠ 8 ∧ cfgRed cfg = true ∧ 8 < k.len
    let cfgUser : Prop := c.major = 0x3A ∨ c.fn = 1 ∨ c.fn = 2 ∨ c.fn = 4 ∨ c.fn = 8
    let cols : Nat := if c.major = 0x3A ∧ c.fn = 5 ∨ c.major = 0x3B ∧ c.fn = 2 then cfgK cfg else cfgN cfg
    let bcol := bitsOf c.xb 32 9
    let rows := c.rowsAt c.drained
    let r0 := bitsOf c.xb 0 7 + 16 * c.drained
    let c0 := bitsOf c.xb 16 9
    let from_ (a st : Word) : Word := a + BitVec.ofNat 64 (16 * c.drained) * st
    let outside : Prop := 128 < bitsOf c.xb 0 7 + cfgM cfg ∨ 512 < c0 + cols ∨ 512 < bcol + cfgN cfg
    let places : Prop := c.major = 0x3A ∧ (c.fn = 2 ∨ c.fn = 3 ∨ c.fn = 4 ∨ c.fn = 5) ∨ c.major = 0x3B ∧ (c.fn = 1 ∨ c.fn = 2)
    let matrix (i : BitVec 6) : Prop := cfgValid cfg = true ∧ c.major = 0x3A ∧ c.fn = i
    let spline (i : BitVec 6) : Prop := cfgValid cfg = true ∧ c.major = 0x3B ∧ c.fn = i
    let checked (ec : BitVec 8) : Prop := ∃ t, exec (.stripDrain f) s = .next t ∧ CmdFails s t n c ec 0 c.drained (fun _ _ => True)
      ∧ SameBytes s t ∧ (t.engine f).tile = none
      ∧ (t.engine f).acc = (s.engine f).acc ∧ (t.engine f).cim = (s.engine f).cim ∧ (t.engine f).scale = (s.engine f).scale
    let resident (a b : Nat) : Prop := a = bcol ∧ b = bcol + cfgN cfg - 1
    let ends (s1 : State) (ec : BitVec 8) (bits : BitVec 17) (span : Nat → Nat → Prop) (acc cim : Nat → Prop) : Prop :=
      ∃ t, exec (.stripDrain f) s = .next t ∧ CmdFails s1 t n c ec bits c.drained span ∧ SameBytes s1 t ∧ (t.engine f).tile = none
        ∧ ∀ h, (∀ p, ¬acc p → Cells.get (t.engine h).acc p = Cells.get (s1.engine h).acc p)
          ∧ (∀ p, ¬cim p → Cells.get (t.engine h).cim p = Cells.get (s1.engine h).cim p)
          ∧ (h ≠ f → h ∉ c.peers → (t.engine h).acc = (s1.engine h).acc)
          ∧ (h ≠ f → (t.engine h).cim = (s1.engine h).cim ∧ (t.engine h).scale = (s1.engine h).scale)
    let refused (x y : BitVec 8) (s1 : State) (span : Nat → Nat → Prop) (acc cim : Nat → Prop) : Prop :=
      if x = 0x04 then ends s1 3 0x10000 span acc cim else ends s1 4 (if y = 8 then 1 else 2) span acc cim
    let no (_ : Nat) : Prop := False
    let rect (r c nr nc p : Nat) : Prop := ∃ i < nr, ∃ j < nc, p = (r + i) * 512 + (c + j)
    let strip : Nat → Prop := rect r0 c0 rows cols
    let slots (lo hi p : Nat) : Prop := bcol ≤ p / 16 % 512 ∧ p / 16 % 512 < bcol + cfgN cfg
      ∧ (lo ≤ p % 16 ∧ p % 16 < hi ∨ cfgRed cfg = true ∧ lo + 8 ≤ p % 16 ∧ p % 16 < hi + 8)
    let tile := tileOf c.xb
    let tileCols (a b : Nat) : Prop := a = tile.2.1 ∧ b = tile.2.1 + tile.2.2.2 - 1
    (cfgUser → cfgValid cfg = false → checked 1)
    ∧ (cfgValid cfg = true → places → outside → checked 2)
    ∧ (matrix 4 → 2 ≤ bitsOf c.xb 48 2 → checked 2)
    ∧ (matrix 1 ∨ spline 4 → 512 < bcol + cfgN cfg → checked 2)
    ∧ (matrix 6 ∨ matrix 7 → tileOk c.xb = false → checked 2)
    ∧ (matrix 10 → tileOk c.xa = false → checked 2)
    ∧ (c.major = 0x3B → c.fn = 3 → foldOk c.xb = false → checked 2)
    ∧ (spline 1 ∨ spline 2 → ¬outside → noGrid → checked 7)
    ∧ (spline 4 → bcol + cfgN cfg ≤ 512 → noGrid → checked 7)
    ∧ (spline 8 → noGrid → checked 7)
    ∧ (∀ x y s1, matrix 2 ∨ matrix 3 ∨ matrix 4 ∧ bitsOf c.xb 48 2 < 2 → ¬outside →
        fetchRows g (cfgA cfg) (cfgK cfg) c.ox0 rows (from_ c.xa c.ox0) s = (.fault x y, s1) → refused x y s1 resident strip no)
    ∧ (∀ x y s1, matrix 5 → ¬outside →
        fetchRows g (cfgA cfg) (cfgN cfg) c.ox0 rows (from_ c.xa c.ox0) s = (.fault x y, s1) → refused x y s1 resident strip no)
    ∧ (∀ x y s1, matrix 1 → cfgCheck cfg (cfgRed cfg) = 0 → bcol + cfgN cfg ≤ 512 → loadCells g c (loadPlaces cfg) s = (.fault x y, s1) →
        refused x y s1 resident no (slots (cfgSlot cfg) (cfgSlot cfg + if cfgBw cfg = true then 2 else 1)))
    ∧ (∀ x y s1, matrix 6 → tileOk c.xb = true → loadTile g c tile.2.2.2 (List.range tile.2.2.1) s = (.fault x y, s1) →
        refused x y s1 tileCols (rect tile.1 tile.2.1 tile.2.2.1 tile.2.2.2) no)
    ∧ (∀ p s1, matrix 7 → tileOk c.xb = true →
        putRows g c.xa c.ox0 ((List.range tile.2.2.1).map (fun r => (r, (List.range tile.2.2.2).flatMap (fun j =>
          leBytes (Cells.get (s.engine f).acc ((tile.1 + r) * 512 + (tile.2.1 + j))).toNat 4)))) s = (p, s1) →
        (∀ a, p = .suspended a → ends s1 4 4 tileCols no no) ∧ ∀ x y a, p = .fault x y a → refused x y s1 tileCols no no)
    ∧ (∀ x y s1, spline 1 → ¬outside → ¬noGrid →
        fetchValRows g (cfgA cfg) (cfgK cfg) c.ox0 rows (from_ c.xa c.ox0) s = (.fault x y, s1) → refused x y s1 resident strip no)
    ∧ (∀ x y s1, spline 2 → ¬outside → ¬noGrid →
        fetchRows g (cfgA cfg) (cfgN cfg) c.ox0 rows (from_ c.xa c.ox0) s = (.fault x y, s1)
          ∨ (∃ a s0, fetchRows g (cfgA cfg) (cfgN cfg) c.ox0 rows (from_ c.xa c.ox0) s = (.got a, s0)
              ∧ fetchValRows g (cfgA cfg) (cfgK cfg) c.ox2 rows (from_ c.ox1 c.ox2) s0 = (.fault x y, s1)) →
        refused x y s1 resident strip no)
    ∧ (∀ x y s1, c.major = 0x3B → c.fn = 3 → foldOk c.xb = true →
        foldSamples g c (foldOf c.xb).1 (foldOf c.xb).2.1 (foldOf c.xb).2.2.1
          ((List.range (min 16 ((foldOf c.xb).2.2.2 - 16 * c.drained))).map (fun i => 16 * c.drained + i)) (s.engine f).acc s
          = (.fault x y, s1) →
        refused x y s1 (fun a b => a = 0 ∧ b = 16 * (foldOf c.xb).2.2.1 - 1)
          (rect (foldOf c.xb).1 0 (foldOf c.xb).2.1 (16 * (foldOf c.xb).2.2.1)) no)
    ∧ (∀ x y l, spline 4 → k.len ≤ 16 → bcol + cfgN cfg ≤ 512 → ¬noGrid → sloadCells g c k.len (loadPlaces cfg) s = l → l.fetch = .fault x y →
        refused x y l.st resident no (slots 0 k.len)
        ∧ ∃ t, exec (.stripDrain f) s = .next t
          ∧ (let e := l.st.engine f
             let undone (part : List (Nat × Byte) × List (Nat × Byte) → List (Nat × Byte)) (p : Nat) : Prop :=
               ∃ b ∈ l.rest, p ∈ (part (sloadBlock (cfgRed cfg) k.len b.2 (bcol + b.1) [])).map (·.1)
             let put (c : Cells 8) (ws : List (Nat × Byte)) (p : Nat) : Byte := ((ws.reverse.find? (fun w => w.1 == p)).map (·.2)).getD (Cells.get c p)
             ∀ p, (¬undone (·.1) p → Cells.get (t.engine f).cim p = put e.cim l.cells p)
               ∧ (¬undone (·.2) p → Cells.get (t.engine f).scale p = put e.scale l.scales p)))
    ∧ (∀ x y s1, spline 8 → ¬noGrid →
        fetchValRows g (cfgA cfg) (cfgK cfg) c.ox0 rows (from_ c.xa c.ox0) s = (.fault x y, s1) →
        refused x y s1 (fun a b => a = 0 ∧ b = 0) no no)
    ∧ (∀ a p s1 s2, spline 8 → ¬noGrid → fetchValRows g (cfgA cfg) (cfgK cfg) c.ox0 rows (from_ c.xa c.ox0) s = (.got a, s1) →
        putRows g c.xb c.ox1 (a.zipIdx.map (fun p => (16 * c.drained + p.2, p.1.flatMap (fun x =>
          leBytes ((c.grid (s1.engine f)).record x).toNat 8)))) s1 = (p, s2) →
        (∀ a, p = .suspended a → ends s2 4 4 (fun a b => a = 0 ∧ b = 0) no no)
        ∧ ∀ x y a, p = .fault x y a → refused x y s2 (fun a b => a = 0 ∧ b = 0) no no)
    ∧ (∀ s1 (ps : Bool → Nat → Nat → List Nat) (place : Nat → Nat → Nat), cfgRed cfg = true → ¬outside →
        ((matrix 2 ∨ matrix 3 ∨ matrix 4 ∧ bitsOf c.xb 48 2 < 2) ∧ (∃ a,
            fetchRows g (cfgA cfg) (cfgK cfg) c.ox0 rows (from_ c.xa c.ox0) s = (.got a, s1)
            ∧ ps = fun mir r j => ((a[r]?).getD []).zipIdx.map (fun b => partialMul (s1.engine f) cfg mir b.1 b.2 (bcol + j)))
          ∧ place = fun j _ => bcol + j)
        ∨ (matrix 5 ∧ (∃ a, fetchRows g (cfgA cfg) (cfgN cfg) c.ox0 rows (from_ c.xa c.ox0) s = (.got a, s1)
            ∧ ps = fun mir r j => ((a[r]?).getD []).zipIdx.map (fun b => partialTr (s1.engine f) cfg mir b.1 b.2 j bcol))
          ∧ place = fun _ nb => bcol + 48 * nb)
        ∨ (spline 1 ∧ ¬noGrid ∧ (∃ a, fetchValRows g (cfgA cfg) (cfgK cfg) c.ox0 rows (from_ c.xa c.ox0) s = (.got a, s1)
            ∧ ps = fun mir r j => (groups48 10 (((a[r]?).getD []).map k.knot)).zipIdx.map (fun b =>
                partialSpline (s1.engine f) k mir b.2 (bcol + j) b.1))
          ∧ place = fun j _ => bcol + j)
        ∨ (spline 2 ∧ ¬noGrid ∧ (∃ a s0 xs, fetchRows g (cfgA cfg) (cfgN cfg) c.ox0 rows (from_ c.xa c.ox0) s = (.got a, s0)
            ∧ fetchValRows g (cfgA cfg) (cfgK cfg) c.ox2 rows (from_ c.ox1 c.ox2) s0 = (.got xs, s1)
            ∧ ps = fun mir r j => ((a[r]?).getD []).zipIdx.map (fun b => partialDeriv (s1.engine f) k mir b.1
                (k.knot ((((xs[r]?).getD [])[j]?).getD .nan)) j b.2 bcol))
          ∧ place = fun _ nb => bcol + 48 * nb) →
        let differ (r j i : Nat) : Prop := r < rows ∧ j < cols ∧ i < (ps false r j).length ∧ (ps true r j)[i]? ≠ (ps false r j)[i]?
        (∃ r j i, differ r j i) → ∃ t, exec (.stripDrain f) s = .next t ∧ SameBytes s1 t ∧ (t.engine f).acc = (s1.engine f).acc
          ∧ (t.engine f).cntLo = (s1.engine f).cntLo ∧ (t.engine f).cntHi = (s1.engine f).cntHi
          ∧ CmdFails s1 t n c 5 0 c.drained (fun a b => ∃ r j i, differ r j i ∧ a = place j i / 128 * 128 ∧ b = a + 127)
          ∧ ∀ q w, g.region = some q → s1.region? q = some w → w.fpol.getLsbD 0 = true →
              ∃ v, (w.fdom, v) ∈ t.rollbacks)

/-- R110, R111, R233, R245, R246, R269 to R273, R279, R281, R282: what an engine computes. -/
def Obligations.EngineArithmetic : Prop :=
  let nan : Nat := 0x7FC00000
  let slotOf (mir : Bool) (slot : Nat) : Nat := if mir = true then slot + 8 else slot
  let cell (e : Engine) (mir : Bool) (slot row col : Nat) : Byte :=
    Cells.get e.cim (((if mir = true then (row + 96) % 480 else row) * 512 + col) * 16 + slotOf mir slot)
  let weight (e : Engine) (cfg : Word) (mir : Bool) (row col : Nat) : Int :=
    if cfgBw cfg = true then (cell e mir (cfgSlot cfg) row col).toNat + 256 * (cell e mir (cfgSlot cfg + 1) row col).toInt
    else (cell e mir (cfgSlot cfg) row col).toInt
  let scale (e : Engine) (mir : Bool) (slot kb col : Nat) : Nat :=
    (Cells.get e.scale (((if mir = true then (kb + 2) % 10 else kb) * 512 + col) * 16 + slotOf mir slot)).toNat
  let at_ (l : List Int) (i : Nat) : Int := (l[i]?).getD 0
  let fp (v e : Int) : Nat := (roundedTo .fp32 .rne v e).bits
  let fold (old d : Nat) (b : Int) : Nat := match fpDecode .fp32 d with
    | .nan => nan
    | .inf neg => if b = 0 then nan else (fpAddV .fp32 .rne (fpDecode .fp32 old) (.inf (neg != decide (b < 0)))).bits
    | .fin neg m e => (fpAddV .fp32 .rne (fpDecode .fp32 old) (.fin (neg != decide (b < 0)) (m * b.natAbs) (e - 8))).bits
  (∀ neg old p, accAdd neg old p = (fpAddV .fp32 .rne (fpDecode .fp32 old)
      (if neg = true then fvNeg (fpDecode .fp32 p) else fpDecode .fp32 p)).bits)
  ∧ (∀ vals : List FVal, ((∃ v ∈ vals, ∀ neg m e, v ≠ .fin neg m e) → alignBlock vals = none)
      ∧ ((∀ v ∈ vals, ∃ neg e, v = .fin neg 0 e) → alignBlock vals = some (vals.map (fun _ => 0), 0))
      ∧ ((∀ v ∈ vals, ∃ neg m e, v = .fin neg m e) → (∃ neg m e, .fin neg m e ∈ vals ∧ m ≠ 0) → ∃ q sa, alignBlock vals = some (q, sa)
          ∧ q.length = vals.length
          ∧ (∃ neg m e, .fin neg m e ∈ vals ∧ m ≠ 0 ∧ sa = (Nat.log2 m : Int) + e - 14)
          ∧ (∀ neg m e, .fin neg m e ∈ vals → m ≠ 0 → (Nat.log2 m : Int) + e - 14 ≤ sa)
          ∧ ∀ i neg m e, vals[i]? = some (.fin neg m e) →
              Near (at_ q i) (signed neg m * 2 ^ (e - sa).toNat) (2 ^ (sa - e).toNat)))
  ∧ (∀ e cfg mir kb col, partialMul e cfg mir none kb col = nan
      ∧ ∀ qa sa, partialMul e cfg mir (some (qa, sa)) kb col = if scale e mir (cfgSlot cfg) kb col = 255 then nan
          else fp (sumTo qa.length (fun i => at_ qa i * weight e cfg mir (48 * kb + i) col)) (sa + scale e mir (cfgSlot cfg) kb col - 127))
  ∧ (∀ e cfg mir nb row bcol, partialTr e cfg mir none nb row bcol = nan
      ∧ ∀ qa sa, let sc (i : Nat) : Nat := scale e mir (cfgSlot cfg) (row / 48) (bcol + 48 * nb + i)
          ((∃ i < qa.length, sc i = 255) → partialTr e cfg mir (some (qa, sa)) nb row bcol = nan)
          ∧ ((∀ i < qa.length, sc i ≠ 255) → partialTr e cfg mir (some (qa, sa)) nb row bcol
              = fp (sumTo qa.length (fun i => at_ qa i * weight e cfg mir row (bcol + 48 * nb + i) * 2 ^ sc i)) (sa - 127)))
  ∧ (∀ e k mir kb col ins, partialSpline e k mir kb col ins = if scale e mir 0 kb col = 255 ∨ .nan ∈ ins then nan
      else fp (sumTo ins.length (fun i => match ins[i]? with
        | some (.inside m a c _) => sumTo (k.p.toNat + 1) (fun j => at_ (basis k.p.toNat a c) j * (cell e mir (m + j) (48 * kb + i) col).toInt)
        | _ => 0)) ((scale e mir 0 kb col : Int) - 135))
  ∧ (∀ e k mir blk x row nb bcol, (blk = none ∨ x = .nan → partialDeriv e k mir blk x row nb bcol = nan)
      ∧ ∀ qa sa mh eh, x ≠ .nan → fpDecode .fp32 k.hinv.toNat = .fin false mh eh → 1 ≤ k.p.toNat →
          let sc (i : Nat) : Nat := scale e mir 0 (row / 48) (bcol + 48 * nb + i)
          let slope (i : Nat) : Int := match x with
            | .inside m a c none => sumTo (k.p.toNat + 1) (fun j => at_ (derivBasis k.p.toNat a c) j * (cell e mir (m + j) row (bcol + 48 * nb + i)).toInt)
            | _ => 0
          ((∃ i < qa.length, sc i = 255) → partialDeriv e k mir (some (qa, sa)) x row nb bcol = nan)
          ∧ ((∀ i < qa.length, sc i ≠ 255) → partialDeriv e k mir (some (qa, sa)) x row nb bcol
              = fp (sumTo qa.length (fun i => at_ qa i * slope i * 2 ^ sc i) * mh) (sa - 134 + eh)))
  ∧ (∀ a c : Nat, 0 < c → a ≤ c →
      let s : Int := a
      let o : Int := c
      let b (p i : Nat) : Int := at_ (basis p a c) i
      let d (p i : Nat) : Int := at_ (derivBasis p a c) i
      (∀ p, 1 ≤ p → p ≤ 3 → (basis p a c).length = p + 1 ∧ (basis p a c).sum = 256
        ∧ (derivBasis p a c).length = p + 1 ∧ (derivBasis p a c).sum = 0)
      ∧ Near (b 1 0) (256 * (o - s)) c
      ∧ Near (b 2 0) (256 * (o - s) ^ 2) (2 * c ^ 2) ∧ Near (b 2 1) (256 * (o ^ 2 + 2 * s * o - 2 * s ^ 2)) (2 * c ^ 2)
      ∧ Near (b 3 0) (256 * (o - s) ^ 3) (6 * c ^ 3) ∧ Near (b 3 1) (256 * (4 * o ^ 3 - 6 * s ^ 2 * o + 3 * s ^ 3)) (6 * c ^ 3)
      ∧ Near (b 3 2) (256 * (o ^ 3 + 3 * s * o ^ 2 + 3 * s ^ 2 * o - 3 * s ^ 3)) (6 * c ^ 3)
      ∧ Near (d 1 0) (-128 * o) c ∧ Near (d 2 0) (128 * (s - o)) c ∧ Near (d 2 1) (128 * (o - 2 * s)) c
      ∧ Near (d 3 0) (-128 * (o - s) ^ 2) (2 * c ^ 2) ∧ Near (d 3 1) (128 * (3 * s ^ 2 - 4 * s * o)) (2 * c ^ 2)
      ∧ Near (d 3 2) (128 * (o ^ 2 + 2 * s * o - 3 * s ^ 2)) (2 * c ^ 2))
  ∧ (∀ (k : Grid) (x : FVal),
      let diff := fpAddV .fp32 .rne x (fvNeg (fpDecode .fp32 k.lo.toNat))
      let u := fpDecode .fp32 (fpMulV .fp32 .rne (fpDecode .fp32 diff.bits) (fpDecode .fp32 k.hinv.toNat)).bits
      let below : Knot := if k.mode = 1 then .void false else .inside 0 0 1 (some false)
      let above : Knot := if k.mode = 1 then .void true else .inside (k.g.toNat - 1) 1 1 (some true)
      k.knot .nan = .nan
      ∧ (x ≠ .nan → (u = .nan → k.knot x = .nan) ∧ (u = .inf true → k.knot x = below) ∧ (u = .inf false → k.knot x = above)
        ∧ ∀ neg m e, u = .fin neg m e →
          let n := m * 2 ^ e.toNat
          let q := 2 ^ (-e).toNat
          (neg = true → m ≠ 0 → k.knot x = below)
          ∧ (neg = false ∨ m = 0 → k.g.toNat * q ≤ n → k.knot x = above)
          ∧ (neg = false ∨ m = 0 → n < k.g.toNat * q → k.knot x = .inside (n / q) (n % q) q none)))
  ∧ (∀ (k : Grid) (x : FVal), 1 ≤ k.p.toNat →
      let field (p : Nat) (l : List Int) : Nat := ((List.range (p + 1)).map (fun i => (at_ l i % 4096).toNat * 2 ^ (16 + 12 * i))).sum
      let out (side : Option Bool) : Nat := match side with
        | none => 0
        | some high => if high = true then 2 ^ 10 else 2 ^ 9
      k.record x = BitVec.ofNat 64 (k.p.toNat * 2 ^ 11 + match k.knot x with
        | .nan => 2 ^ 8 + 2 ^ 13
        | .void high => 2 ^ 8 + out (some high)
        | .inside m a c side => m + out side + field k.p.toNat (basis k.p.toNat a c)))
  ∧ (∀ (k : Grid) (rows : List (List FVal)),
      let count (side : Bool) : Nat := (rows.flatten.filter (fun x => match k.knot x with
        | .inside _ _ _ (some high) => high == side
        | _ => false)).length
      stripCounts k rows = if k.mode = 2 then (count false, count true) else (0, 0))
  ∧ (∀ (row nj : Nat) (rec : Word) (ds : List Nat) (acc : Cells 32), nj ≤ 32 → Cells.wf acc = true →
      let acc' := foldRecord row nj rec ds acc
      let b (k : Nat) : Int := Int.bmod (rec.toNat / 2 ^ (16 + 12 * k) % 4096) 4096
      let m := rec.toNat % 256
      let p := rec.toNat / 2 ^ 11 % 4
      let term (j k key : Nat) : Prop := j < nj ∧ k ≤ p ∧ m + k ≤ 15 ∧ key = row * 512 + 16 * j + m + k
      (rec.getLsbD 13 = true → ∀ key, Cells.get acc' key
        = if row * 512 ≤ key ∧ key < row * 512 + 16 * nj then BitVec.ofNat 32 nan else Cells.get acc key)
      ∧ (rec.getLsbD 13 = false → rec.getLsbD 8 = true → acc' = acc)
      ∧ (rec.getLsbD 13 = false → rec.getLsbD 8 = false →
          (∀ j k key, term j k key → Cells.get acc' key = BitVec.ofNat 32 (fold (Cells.get acc key).toNat ((ds[j]?).getD 0) (b k)))
          ∧ ∀ key, (∀ j k, ¬term j k key) → Cells.get acc' key = Cells.get acc key))

/-- R20, R110, R233, R235, R236, R258, R262, R269, R279 to R283: the operands of the engines. -/
def Obligations.EngineOperands : Prop :=
  ∀ (g : Agent) (s : State) (byte : Word → Byte),
    let off (a : Word) (n : Nat) : Word := a + BitVec.ofNat 64 n
    let num (a : Word) (n : Nat) : Nat := leNat ((List.range n).map (fun i => byte (off a i)))
    let code (a : Word) (i : Nat) : Nat := if i % 2 = 0 then (byte (off a (i / 2))).toNat % 16 else (byte (off a (i / 2))).toNat / 16
    let grid (c : Nat) : Int := (([0, 1, 2, 3, 4, 6, 8, 12] : List Int)[c % 8]?).getD 0
    let int (fmt : Nat) (a : Word) (i : Nat) : Int := if fmt = 7 then (byte (off a i)).toInt
      else if code a i = 8 then (byte (off a 25)).toInt else if 8 < code a i then -grid (code a i) else grid (code a i)
    let mark (fmt : Nat) (a : Word) : Nat := (byte (off a (if fmt = 7 then 48 else 24))).toNat
    let unit (fmt : Nat) (a : Word) : Int := (mark fmt a : Int) - if fmt = 7 then 127 else 128
    let size (fmt : Nat) : Nat := if fmt = 6 then 32 else if fmt = 7 then 64 else if fmt = 2 then 96 else 48
    let scalar (fmt : Nat) (a : Word) (i : Nat) : FVal := if fmt = 2 then fpDecode .bf16 (num (off a (2 * i)) 2)
      else if fmt = 4 then fpDecode .e4m3 (byte (off a i)).toNat else fpDecode .e5m2 (byte (off a i)).toNat
    let block (fmt : Nat) (a : Word) (n : Nat) : ABlock :=
      if fmt = 6 ∨ fmt = 7 then (if mark fmt a = 255 then none else some ((List.range n).map (int fmt a), unit fmt a))
      else alignBlock ((List.range n).map (scalar fmt a))
    let value (fmt : Nat) (a : Word) (i : Nat) : FVal :=
      let r := off a (size fmt * (i / 48))
      if fmt = 6 ∨ fmt = 7 then (if mark fmt r = 255 then .nan else fpDecode .fp32 (roundedTo .fp32 .rne (int fmt r (i % 48)) (unit fmt r)).bits)
      else scalar fmt r (i % 48)
    let fmtOk (fmt : Nat) : Prop := fmt = 2 ∨ fmt = 4 ∨ fmt = 5 ∨ fmt = 6 ∨ fmt = 7
    (∀ (a : Word) (n : Nat) (key : Nat → Nat), Fresh s →
      (∀ i < n, (∀ u, OnlyReads s u → g.translate .load (off a i) u = ⟨u, 0, 0, key i⟩) ∧ gaNode (off a i) = s.nodeId
        ∧ key i / 2 ^ 60 = s.nodeId.toNat ∧ key i % 64 = (off a i).toNat % 64 ∧ s.poisoned (key i) = false ∧ keyInRing s (key i) = false) →
      (∀ i, i + 1 < n → (off a (i + 1)).toNat % 64 ≠ 0 → key (i + 1) = key i + 1) →
      ∃ v, deviceGet g a n s = (.bytes ((List.range n).map (fun i => Cells.get s.mem (key i))), v) ∧ OnlyReads s v ∧ Fresh v)
    ∧ (∀ fmt len rows (stride a : Word), fmtOk fmt → len ≤ 512 → Fresh s →
        (∀ r < rows, Reads g s byte (a + BitVec.ofNat 64 r * stride) (rowBytes fmt len)) →
        (∃ l v, fetchRows g fmt len stride rows a s = (.got l, v) ∧ OnlyReads s v ∧ l.length = rows ∧ ∀ r < rows, l[r]? = some
          ((List.range ((len + 47) / 48)).map (fun kb => block fmt (off (a + BitVec.ofNat 64 r * stride) (size fmt * kb)) (min 48 (len - 48 * kb)))))
        ∧ ∃ l v, fetchValRows g fmt len stride rows a s = (.got l, v) ∧ OnlyReads s v ∧ l.length = rows ∧ ∀ r < rows, l[r]? = some
          ((List.range len).map (value fmt (a + BitVec.ofNat 64 r * stride))))
    ∧ (∀ (c : Cmd) (cols rows : Nat), Fresh s → (∀ r < rows, Reads g s byte (c.xa + BitVec.ofNat 64 r * c.ox0) (4 * cols)) →
        ∃ v, OnlyReads s v ∧ loadTile g c cols (List.range rows) s = (.got ((List.range rows).map (fun r =>
          (r, (List.range (4 * cols)).map (fun i => byte (off (c.xa + BitVec.ofNat 64 r * c.ox0) i))))), v))
    ∧ (∀ (c : Cmd) (row0 ni nj : Nat) (ns : List Nat) (acc : Cells 32), Fresh s →
        (∀ n ∈ ns, Reads g s byte (c.xa + BitVec.ofNat 64 n * c.ox0) (4 * nj) ∧ Reads g s byte (c.ox1 + BitVec.ofNat 64 n * c.ox2) (8 * ni)) →
        ∃ v, OnlyReads s v ∧ foldSamples g c row0 ni nj ns acc s = (.got (ns.foldl (fun acc n => (List.range ni).foldl (fun acc i =>
          foldRecord (row0 + i) nj (BitVec.ofNat 64 (num (off (c.ox1 + BitVec.ofNat 64 n * c.ox2) (8 * i)) 8))
            ((List.range nj).map (fun j => num (off (c.xa + BitVec.ofNat 64 n * c.ox0) (4 * j)) 4)) acc) acc) acc), v))
    ∧ (∀ c : Cmd, cfgK c.cfg ≤ 480 →
      let cfg := c.cfg
      let fmt := cfgB cfg
      let z := if fmt = 1 then 4 else if fmt = 2 then 2 else 1
      let bcol := bitsOf c.xb 32 9
      let kbs := (cfgK cfg + 47) / 48
      let cnt (kb : Nat) : Nat := min 48 (cfgK cfg - 48 * kb)
      let col (j : Nat) : Word := c.xa + BitVec.ofNat 64 j * c.ox0
      let vals (j kb : Nat) : List FVal := (List.range (cnt kb)).map (fun i =>
        let v := num (off (col j) (z * (48 * kb + i))) z
        if fmt = 1 then fpDecode .fp32 v else if fmt = 2 then fpDecode .bf16 v else if fmt = 4 then fpDecode .e4m3 v else fpDecode .e5m2 v)
      let holds (j kb : Nat) (q : Nat → Int) (sc : Nat) : Prop :=
        (fmt = 7 → sc = (byte (off (col j) (64 * kb + 48))).toNat ∧ ∀ i < cnt kb, q i = (byte (off (col j) (64 * kb + i))).toInt)
        ∧ (fmt ≠ 7 → cfgBw cfg = false → sc = (encodeBlock true 0 [] (vals j kb)).scale
            ∧ ∀ i < cnt kb, q i = (BitVec.ofNat 8 (((encodeBlock true 0 [] (vals j kb)).elems[i]?).getD 0)).toInt)
        ∧ (fmt ≠ 7 → cfgBw cfg = true →
            ((∃ v ∈ vals j kb, ∀ neg m e, v ≠ .fin neg m e) → sc = 255)
            ∧ ((∀ v ∈ vals j kb, ∃ neg e, v = .fin neg 0 e) → sc = 127 ∧ ∀ i < cnt kb, q i = 0)
            ∧ ((∀ v ∈ vals j kb, ∃ neg m e, v = .fin neg m e) → (∃ neg m e, .fin neg m e ∈ vals j kb ∧ m ≠ 0) →
                (∃ neg m, ∃ e : Int, .fin neg m e ∈ vals j kb ∧ m ≠ 0 ∧ (sc : Int) = max ((Nat.log2 m : Int) + e - 14) (-127) + 127)
                ∧ (∀ neg m (e : Int), .fin neg m e ∈ vals j kb → m ≠ 0 → max ((Nat.log2 m : Int) + e - 14) (-127) + 127 ≤ (sc : Int))
                ∧ ∀ i neg m (e : Int), (vals j kb)[i]? = some (.fin neg m e) → ∃ v,
                    Near v (signed neg m * 2 ^ (e + 127 - sc).toNat) (2 ^ ((sc : Int) - 127 - e).toNat) ∧ q i = max (-32768) (min 32767 v)))
        ∧ ∀ i, cnt kb ≤ i → q i = 0
      fmt = 1 ∨ fmt = 2 ∨ fmt = 4 ∨ fmt = 5 ∨ fmt = 7 → Fresh s → (∀ j < cfgN cfg, ∀ n, Reads g { s with freeCtr := n } byte (col j) (if fmt = 7 then 64 * kbs else z * cfgK cfg)) →
      ∃ l1 l2 s1, ∃ (q : Nat → Nat → Nat → Int) (sc : Nat → Nat → Nat), loadCells g c (loadPlaces cfg) s = (.got (l1, l2), s1) ∧ (∀ j < cfgN cfg, ∀ kb < kbs, holds j kb (q j kb) (sc j kb))
        ∧ (∀ key v, (key, v) ∈ l1 ↔ ∃ j < cfgN cfg, ∃ kb < kbs, ∃ i < 48, ∃ mir hi : Bool, (mir = true → cfgRed cfg = true)
            ∧ (hi = true → cfgBw cfg = true) ∧ v = BitVec.ofInt 8 (if hi = true then q j kb i / 256 else q j kb i)
            ∧ key = ((if mir = true then (48 * kb + i + 96) % 480 else 48 * kb + i) * 512 + (bcol + j)) * 16
                + (cfgSlot cfg + (if mir = true then 8 else 0) + if hi = true then 1 else 0))
        ∧ (∀ key v, (key, v) ∈ l2 ↔ ∃ j < cfgN cfg, ∃ kb < kbs, ∃ mir : Bool, (mir = true → cfgRed cfg = true)
            ∧ v = BitVec.ofNat 8 (sc j kb)
            ∧ key = ((if mir = true then (kb + 2) % 10 else kb) * 512 + (bcol + j)) * 16 + (cfgSlot cfg + if mir = true then 8 else 0))
        ∧ s1 = { s with freeCtr := s1.freeCtr, reads := s1.reads, nextRead := s1.nextRead })
    ∧ (∀ (c : Cmd) (len : Nat), cfgK c.cfg ≤ 480 → 0 < len → len ≤ 16 →
      let bcol := bitsOf c.xb 32 9
      let col (j : Nat) : Word := c.xa + BitVec.ofNat 64 j * c.ox0
      let enc (j kb : Nat) : BlockEnc := encodeBlock true 0 [] ((List.range (48 * len)).map (fun p =>
        if 48 * kb + p / len < cfgK c.cfg then fpDecode .fp32 (num (off (col j) (64 * (48 * kb + p / len) + 4 * (p % len))) 4) else .fin false 0 0))
      Fresh s → (∀ j < cfgN c.cfg, Reads g s byte (col j) (64 * cfgK c.cfg)) →
      ∃ l1 l2 v, sloadCells g c len (loadPlaces c.cfg) s = ⟨l1, l2, [], .got (), v⟩ ∧ OnlyReads s v
        ∧ (∀ key v, (key, v) ∈ l1 ↔ ∃ j < cfgN c.cfg, ∃ kb < (cfgK c.cfg + 47) / 48, ∃ i < 48, ∃ k < len, ∃ mir : Bool,
            (mir = true → cfgRed c.cfg = true) ∧ v = BitVec.ofNat 8 (((enc j kb).elems[i * len + k]?).getD 0)
            ∧ key = ((if mir = true then (48 * kb + i + 96) % 480 else 48 * kb + i) * 512 + (bcol + j)) * 16 + (k + if mir = true then 8 else 0))
        ∧ ∀ key v, (key, v) ∈ l2 ↔ ∃ j < cfgN c.cfg, ∃ kb < (cfgK c.cfg + 47) / 48, ∃ k < len, ∃ mir : Bool,
            (mir = true → cfgRed c.cfg = true) ∧ v = BitVec.ofNat 8 (enc j kb).scale
            ∧ key = ((if mir = true then (kb + 2) % 10 else kb) * 512 + (bcol + j)) * 16 + (k + if mir = true then 8 else 0))
    ∧ (∀ (c : Cmd) (len j kb : Nat) (t : List (Nat × Nat)),
      let get := fetchCells g len ((List.range (min 48 (cfgK c.cfg - 48 * kb))).map (fun i => 48 * kb + i)) (c.xa + BitVec.ofNat 64 j * c.ox0) s
      (∀ x y u, get = (.fault x y, u) → sloadCells g c len ((j, kb) :: t) s = ⟨[], [], (j, kb) :: t, .fault x y, u⟩)
      ∧ ∀ l u, get = (.got l, u) →
        let part := sloadBlock (cfgRed c.cfg) len kb (bitsOf c.xb 32 9 + j) l
        let rest := sloadCells g c len t u
        sloadCells g c len ((j, kb) :: t) s = ⟨part.1 ++ rest.cells, part.2 ++ rest.scales, rest.rest, rest.fetch, rest.st⟩)
    ∧ (∀ (a : Word) (b : List Byte) (key : Nat), Inv s → b ≠ [] → a.toNat % 64 + b.length ≤ 64 → gaNode a = s.nodeId →
        g.translate .store a s = ⟨s, 0, 0, key⟩ → PlainPlace s key b.length → ∃ t, devicePut g a b s = (.done, t) ∧ WritesBytes s t key b)
    ∧ (∀ (a : Word) (b : List Byte), 64 - a.toNat % 64 < b.length →
        let m := 64 - a.toNat % 64
        ∀ e t, devicePut g a (b.take m) s = (e, t) →
          (e = .done → devicePut g a b s = devicePut g (off a m) (b.drop m) t) ∧ (e ≠ .done → devicePut g a b s = (e, t)))
    ∧ (∀ (a stride : Word) (r : Nat) (b : List Byte) (l : List (Nat × List Byte)), putRows g a stride [] s = (.done, s)
        ∧ ∀ e t, devicePut g (a + BitVec.ofNat 64 r * stride) b s = (e, t) →
          (e = .done → putRows g a stride ((r, b) :: l) s = putRows g a stride l t)
          ∧ (e ≠ .done → putRows g a stride ((r, b) :: l) s = (e, t)))

/-- R89 to R102, R105 to R110, R161, R182, R189, R206, R209, R216, R217, R223, R228: the functions on numbers. Which vcvt selectors
draw is log 19, the discarded part past the largest value log 16, the log of random values log 57. -/
def Obligations.NumberOperations : Prop :=
  let NX : Flags := 1
  let UF : Flags := 2
  let OF : Flags := 4
  let DZ : Flags := 8
  let NV : Flags := 16
  let value (f : Fp) (mag : Nat) : Nat := if mag / 2 ^ fpMant f = 0 then mag
    else (mag % 2 ^ fpMant f + 2 ^ fpMant f) * 2 ^ (mag / 2 ^ fpMant f - 1)
  let all (l : List Rounded) : Flags := l.foldl (fun acc r => acc ||| r.flags) 0
  let at_ (l : List Nat) (i : Nat) : Nat := (l[i]?).getD 0
  -- sums, products, quotients and roots in FP32 and BF16
  (∀ (f : Fp) (rm : Rm) (n n1 n2 : Bool) (m m1 m2 : Nat) (e e1 e2 : Int) (v w : FVal), f = .fp32 ∨ f = .bf16 →
    let sgn (neg : Bool) : Nat := if neg = true then 2 ^ fpMag f else 0
    let inf (neg : Bool) : Nat := sgn neg + fpInfBits f
    let one (neg : Bool) : Rounded := fpRound f .rne neg 1 1
    let num := m * 2 ^ e.toNat
    let den := 2 ^ (-e).toNat
    let sum : Int := signed n1 m1 * 2 ^ (e1 - min e1 e2).toNat + signed n2 m2 * 2 ^ (e2 - min e1 e2).toNat
    fpAddV f rm .nan v = ⟨fpNaN f, 0⟩ ∧ fpAddV f rm v .nan = ⟨fpNaN f, 0⟩
    ∧ fpAddV f rm (.inf n) (.inf n) = ⟨inf n, 0⟩ ∧ fpAddV f rm (.inf n) (.inf !n) = ⟨fpNaN f, NV⟩
    ∧ fpAddV f rm (.inf n) (.fin n1 m1 e1) = ⟨inf n, 0⟩ ∧ fpAddV f rm (.fin n1 m1 e1) (.inf n) = ⟨inf n, 0⟩
    ∧ fpAddV f rm (.fin n1 m1 e1) (.fin n2 m2 e2) = (if sum ≠ 0 then roundedTo f rm sum (min e1 e2)
        else ⟨sgn (if m1 = 0 ∧ n1 = n2 then n1 else decide (rm = .rdn)), 0⟩)
    ∧ fpMulV f rm .nan v = ⟨fpNaN f, 0⟩ ∧ fpMulV f rm v .nan = ⟨fpNaN f, 0⟩
    ∧ fpMulV f rm (.inf n1) (.inf n2) = ⟨inf (n1 != n2), 0⟩
    ∧ fpMulV f rm (.inf n1) (.fin n2 m e) = (if m = 0 then ⟨fpNaN f, NV⟩ else ⟨inf (n1 != n2), 0⟩)
    ∧ fpMulV f rm (.fin n2 m e) (.inf n1) = (if m = 0 then ⟨fpNaN f, NV⟩ else ⟨inf (n2 != n1), 0⟩)
    ∧ fpMulV f rm (.fin n1 m1 e1) (.fin n2 m2 e2) = (if m1 * m2 = 0 then ⟨sgn (n1 != n2), 0⟩
        else roundedTo f rm (signed (n1 != n2) (m1 * m2)) (e1 + e2))
    ∧ fpFmaV f rm (.inf n1) (.fin n2 0 e) v = ⟨fpNaN f, NV⟩ ∧ fpFmaV f rm (.fin n2 0 e) (.inf n1) v = ⟨fpNaN f, NV⟩
    ∧ fpFmaV f rm .nan w v = ⟨fpNaN f, 0⟩ ∧ fpFmaV f rm w .nan v = ⟨fpNaN f, 0⟩
    ∧ (m ≠ 0 → fpFmaV f rm (.inf n1) (.fin n2 m e) v = fpAddV f rm (.inf (n1 != n2)) v
        ∧ fpFmaV f rm (.fin n2 m e) (.inf n1) v = fpAddV f rm (.inf (n2 != n1)) v)
    ∧ fpFmaV f rm (.inf n1) (.inf n2) v = fpAddV f rm (.inf (n1 != n2)) v
    ∧ fpFmaV f rm (.fin n1 m1 e1) (.fin n2 m2 e2) v = fpAddV f rm (.fin (n1 != n2) (m1 * m2) (e1 + e2)) v
    ∧ fpDivV f rm .nan v = ⟨fpNaN f, 0⟩ ∧ fpDivV f rm v .nan = ⟨fpNaN f, 0⟩ ∧ fpDivV f rm (.inf n1) (.inf n2) = ⟨fpNaN f, NV⟩
    ∧ fpDivV f rm (.inf n1) (.fin n2 m e) = ⟨inf (n1 != n2), 0⟩ ∧ fpDivV f rm (.fin n2 m e) (.inf n1) = ⟨sgn (n2 != n1), 0⟩
    ∧ fpDivV f rm (.fin n1 m1 e1) (.fin n2 m2 e2) = (if m2 = 0 then (if m1 = 0 then ⟨fpNaN f, NV⟩ else ⟨inf (n1 != n2), DZ⟩)
        else fpRound f rm (n1 != n2) (m1 * 2 ^ e1.toNat * 2 ^ (-e2).toNat) (2 ^ (-e1).toNat * (m2 * 2 ^ e2.toNat)))
    ∧ fpRcpV f .nan = ⟨fpNaN f, 0⟩ ∧ fpRcpV f (.inf n) = ⟨sgn n, 0⟩
    ∧ fpRcpV f (.fin n m e) = (if m = 0 then ⟨inf n, DZ⟩ else fpRound f .rne n den num)
    ∧ fpSqrtV f rm .nan = ⟨fpNaN f, 0⟩ ∧ fpSqrtV f rm (.inf n) = (if n = true then ⟨fpNaN f, NV⟩ else ⟨inf false, 0⟩)
    ∧ fpSqrtV f rm (.fin n 0 e) = ⟨sgn n, 0⟩ ∧ (m ≠ 0 → fpSqrtV f rm (.fin true m e) = ⟨fpNaN f, NV⟩)
    ∧ (m ≠ 0 → ∃ r, r ^ 2 * den ≤ num * 2 ^ 800 ∧ num * 2 ^ 800 < (r + 1) ^ 2 * den ∧ fpSqrtV f rm (.fin false m e)
        = if r ^ 2 * den = num * 2 ^ 800 then fpRound f rm false r (2 ^ 400) else fpRound f rm false (2 * r + 1) (2 ^ 401))
    ∧ fpRsqrtV f .nan = ⟨fpNaN f, 0⟩ ∧ fpRsqrtV f (.inf n) = (if n = true then ⟨fpNaN f, NV⟩ else ⟨0, 0⟩)
    ∧ fpRsqrtV f (.fin n 0 e) = ⟨inf n, DZ⟩ ∧ (m ≠ 0 → fpRsqrtV f (.fin true m e) = ⟨fpNaN f, NV⟩)
    ∧ (m ≠ 0 → ∃ r, r ^ 2 * num ≤ den * 2 ^ 800 ∧ den * 2 ^ 800 < (r + 1) ^ 2 * num ∧ fpRsqrtV f (.fin false m e)
        = if r ^ 2 * num = den * 2 ^ 800 then fpRound f .rne false r (2 ^ 400) else fpRound f .rne false (2 * r + 1) (2 ^ 401))
    -- the transcendental forms
    ∧ fpExp2V f .nan = ⟨fpNaN f, 0⟩ ∧ fpExp2V f (.inf n) = (if n = true then ⟨0, 0⟩ else ⟨inf false, 0⟩)
    ∧ fpLog2V f .nan = ⟨fpNaN f, 0⟩ ∧ fpLog2V f (.inf n) = (if n = true then ⟨fpNaN f, NV⟩ else ⟨inf false, 0⟩)
    ∧ fpLog2V f (.fin n 0 e) = ⟨inf true, DZ⟩ ∧ (m ≠ 0 → fpLog2V f (.fin true m e) = ⟨fpNaN f, NV⟩)
    ∧ fpLog2V f (.fin false (2 ^ m) e) = roundedTo f .rne (m + e) 0
    ∧ fpSigV f .nan = ⟨fpNaN f, 0⟩ ∧ fpSigV f (.inf n) = (if n = true then ⟨0, 0⟩ else one false)
    ∧ fpSigV f (.fin n 0 e) = fpRound f .rne false 1 2
    ∧ fpTanhV f .nan = ⟨fpNaN f, 0⟩ ∧ fpTanhV f (.inf n) = one n ∧ fpTanhV f (.fin n 0 e) = ⟨sgn n, 0⟩
    ∧ ∀ bits, fpDecode f bits = .fin n m e →
        (n = false → 128 * den ≤ num → fpExp2V f (.fin n m e) = ⟨inf false, OF ||| NX⟩)
        ∧ (n = true → 300 * den ≤ num → fpExp2V f (.fin n m e) = ⟨0, UF ||| NX⟩)
        ∧ ∀ k : Int, signed n num = k * den → -300 ≤ k → k ≤ 300 → fpExp2V f (.fin n m e) = fpRound f .rne false (2 ^ k.toNat) (2 ^ (-k).toNat))
  -- order
  ∧ (∀ (f : Fp) (a b : Nat), f = .fp32 ∨ f = .bf16 → a < 2 ^ fpWidth f → b < 2 ^ fpWidth f →
    let A := fpDecode f a
    let B := fpDecode f b
    let key (v : Nat) : Int := signed (decide (2 ^ fpMag f ≤ v)) (v % 2 ^ fpMag f)
    let rank (v : Nat) : Int := if 2 ^ fpMag f ≤ v then -(v % 2 ^ fpMag f : Nat) - 1 else v
    (A = .nan ∨ B = .nan → fpMinV f A B = fpNaN f ∧ fpMaxV f A B = fpNaN f ∧ fvLt A B = false ∧ fvLe A B = false ∧ fvEq A B = false)
    ∧ (A ≠ .nan → B ≠ .nan → fpMinV f A B = (if rank a ≤ rank b then a else b) ∧ fpMaxV f A B = (if rank a ≤ rank b then b else a)
        ∧ (fvLt A B = true ↔ key a < key b) ∧ (fvLe A B = true ↔ key a ≤ key b) ∧ (fvEq A B = true ↔ key a = key b)))
  -- conversions
  ∧ (∀ (f : Fp) (rm : Rm) (n : Bool) (m : Nat) (e : Int),
    let sgn (neg : Bool) : Nat := if neg = true then 2 ^ fpMag f else 0
    fpConvert f rm .nan = ⟨fpNaN f, if f = .e4m3 then NV else 0⟩
    ∧ fpConvert f rm (.inf n) = (if f = .e4m3 then ⟨sgn n + fpMax f, NV⟩ else ⟨sgn n + fpInfBits f, 0⟩)
    ∧ fpConvert f rm (.fin n m e) = (if m = 0 then ⟨sgn n, 0⟩ else roundedTo f rm (signed n m) e))
  ∧ (∀ (rm : Rm) (lo hi : Int) (n : Bool) (m : Nat) (e : Int), rm = .rne ∨ rm = .rz ∨ rm = .rup ∨ rm = .rdn →
    let num := signed n m * 2 ^ e.toNat
    let den := 2 ^ (-e).toNat
    let bits (v : Int) : Nat := (v % 2 ^ 32).toNat
    cvtInt rm lo hi .nan = ⟨0, NV⟩ ∧ cvtInt rm lo hi (.inf n) = ⟨bits (if n = true then lo else hi), NV⟩
    ∧ ∃ v : Int, (rm = .rne → Near v num den) ∧ (rm = .rup ∨ rm = .rz ∧ n = true → num ≤ v * den ∧ v * den < num + den)
      ∧ (rm = .rdn ∨ rm = .rz ∧ n = false → v * den ≤ num ∧ num < v * den + den)
      ∧ cvtInt rm lo hi (.fin n m e) = if v < lo then ⟨bits lo, OF ||| NX⟩ else if hi < v then ⟨bits hi, OF ||| NX⟩
          else ⟨bits v, if v * den = num then 0 else NX⟩)
  ∧ (∀ (sel : Nat) (k : Word) (src : VReg) (s : State), sel ≤ 10 →
    let rs := (cvtAll sel k src s).1
    let f32 (i : Nat) : FVal := fpDecode .fp32 (lane false src i)
    let half (i : Nat) : Nat := lane true src (if sel = 3 then 16 + i else i)
    let f : Fp := if sel ≤ 1 then .bf16 else if sel = 6 then .fp16 else if sel = 7 then .e4m3 else if sel = 8 then .e5m2 else .fp32
    let code := s.hart.fxRound
    let source (i : Nat) : FVal := if sel = 5 then .fin (decide ((BitVec.ofNat 32 (lane false src i)).toInt < 0))
      (BitVec.ofNat 32 (lane false src i)).toInt.natAbs 0 else if sel = 10 then .fin false (lane false src i) 0 else f32 i
    let draws := drawFrom ((List.range 16).map (fun i => discarded f (source i))) ((List.range 16).map (fun i => (i, k.getLsbD i))) s
    let random : Prop := code = 4 ∧ sel ≠ 2 ∧ sel ≠ 3 ∧ sel ≠ 4 ∧ sel ≠ 9
    rs.length = 16 ∧ (¬random → (cvtAll sel k src s).2 = s) ∧ (random → (cvtAll sel k src s).2 = draws.2)
    ∧ ∀ i < 16, ∀ rm, (random → rm = .sr ((draws.1[i]?).getD 0)) → (¬random → rm = rmArith code) →
      (sel = 2 ∨ sel = 3 → rs[i]? = some ⟨if fpDecode .bf16 (half i) = .nan then fpNaN .fp32 else half i * 2 ^ 16, 0⟩)
      ∧ (sel = 4 → rs[i]? = some (cvtInt (rmArith code) (-2 ^ 31) (2 ^ 31 - 1) (f32 i)))
      ∧ (sel = 9 → rs[i]? = some (cvtInt (rmArith code) 0 (2 ^ 32 - 1) (f32 i)))
      ∧ (sel ≤ 1 ∨ sel = 5 ∨ sel = 10 → rs[i]? = some (fpConvert f rm (source i)))
      ∧ (6 ≤ sel ∧ sel ≤ 8 → rs[i]? = some ⟨(fpConvert .fp32 .rne (fpDecode f (fpConvert f rm (f32 i)).bits)).bits, (fpConvert f rm (f32 i)).flags⟩))
  -- blocks
  ∧ (∀ (k8 : Bool) (code : BitVec 3) (rnds : List (BitVec 16)) (vals : List FVal),
    let b := encodeBlock k8 code rnds vals
    let top := if k8 = true then 127 else 7
    let grid (i : Nat) : Nat := if k8 = true then i else at_ [0, 1, 2, 3, 4, 6, 8, 12, 16] i
    let ref : Int := if k8 = true then 127 else 128
    let mode (i : Nat) : Rm := if code = 4 then .sr ((rnds[i]?).getD 0) else rmArith code
    ((∃ v ∈ vals, ∀ neg m e, v ≠ .fin neg m e) → b = ⟨255, vals.map (fun _ => 0), 0, NV⟩)
    ∧ ((∀ v ∈ vals, ∃ neg e, v = .fin neg 0 e) → b = ⟨127, vals.map (fun _ => 0), 0, 0⟩)
    ∧ ((∀ v ∈ vals, ∃ neg m e, v = .fin neg m e) → (∃ neg m e, .fin neg m e ∈ vals ∧ m ≠ 0) →
      let rank (m : Nat) (e : Int) : Nat := ((Nat.log2 m : Int) + e + 127 - if k8 = true then 6 else 2).toNat
      (∃ neg m e, .fin neg m e ∈ vals ∧ m ≠ 0 ∧ b.scale = rank m e) ∧ (∀ neg m e, .fin neg m e ∈ vals → m ≠ 0 → rank m e ≤ b.scale)
      ∧ b.elems.length = vals.length ∧ (k8 = true → b.special = 0)
      ∧ (k8 = false → ∃ (i0 : Nat) (neg : Bool) (m : Nat) (e v : Int), vals[i0]? = some (FVal.fin neg m e) ∧ Near v (signed neg m * 2 ^ (e + 128 - b.scale).toNat) (2 ^ ((b.scale : Int) - 128 - e).toNat)
          ∧ b.special = max (-127) (min 127 v)
          ∧ ∀ (i : Nat) (neg2 : Bool) (m2 : Nat) (e2 : Int), vals[i]? = some (FVal.fin neg2 m2 e2) →
              m2 * 2 ^ (e2 - min e e2).toNat ≤ m * 2 ^ (e - min e e2).toNat
              ∧ (i < i0 → m2 * 2 ^ (e2 - min e e2).toNat < m * 2 ^ (e - min e e2).toNat))
      ∧ ∃ fl : Nat → Flags, b.flags = (List.range vals.length).foldl (fun acc i => acc ||| fl i) 0
        ∧ ∀ (i : Nat) (neg : Bool) (m : Nat) (e : Int), vals[i]? = some (FVal.fin neg m e) →
          let num := m * 2 ^ (e + ref - b.scale).toNat
          let den := 2 ^ ((b.scale : Int) - ref - e).toNat
          ∃ lo ≤ top, grid lo * den ≤ num ∧ (lo = top ∨ num < grid (lo + 1) * den)
            ∧ let past := num - grid lo * den
              let gap := (grid (lo + 1) - grid lo) * den
              let up : Prop := match mode i with
                | .rne => gap < 2 * past ∨ (gap = 2 * past ∧ lo % 2 = 1)
                | .rz => False
                | .rup => neg = false ∧ past ≠ 0
                | .rdn => neg = true ∧ past ≠ 0
                | .sr r => past ≠ 0 ∧ 2 ^ 16 ≤ past * 2 ^ 16 / gap + r.toNat
              ∃ r : Nat, (up → r = min top (lo + 1)) ∧ (¬up → r = lo)
                ∧ let near (v : Int) : Nat := (signed neg num - v * den).natAbs
                  let plain : Nat := if k8 = true then (signed neg r % 256).toNat else if r = 0 then 0 else if neg = true then 8 + r else r
                  let gridFlags : Flags := if past = 0 then 0 else if r = 0 ∨ k8 = false ∧ r = 1 then NX ||| UF else NX
                  let special : Prop := k8 = false ∧ near b.special < near (signed neg (grid r))
                  (¬special → b.elems[i]? = some plain ∧ fl i = gridFlags)
                  ∧ (special → b.elems[i]? = some 8 ∧ fl i = if near b.special = 0 then 0 else if b.special = 0 then NX ||| UF else NX)))
  ∧ (∀ (k8 : Bool) (e : BlockEnc), blockBytes k8 e = if k8 = true then (e.elems.take 48).map (BitVec.ofNat 8) ++ [BitVec.ofNat 8 e.scale] ++ List.replicate 15 0
      else (List.range 24).map (fun i => BitVec.ofNat 8 (at_ e.elems (2 * i) + 16 * at_ e.elems (2 * i + 1))) ++ [BitVec.ofNat 8 e.scale, BitVec.ofInt 8 e.special] ++ List.replicate 6 0)
  ∧ (∀ (k8 : Bool) (rec : List Byte) (i : Nat),
    let byte (j : Nat) : Byte := (rec[j]?).getD 0
    let sc : Nat := (byte (if k8 = true then 48 else 24)).toNat
    let code : Nat := if i % 2 = 0 then (byte (i / 2)).toNat % 16 else (byte (i / 2)).toNat / 16
    let int : Int := if k8 = true then (byte i).toInt else if code = 8 then (byte 25).toInt
      else signed (decide (8 ≤ code)) (at_ [0, 1, 2, 3, 4, 6, 8, 12] (code % 8))
    let unit : Int := (sc : Int) - if k8 = true then 127 else 128
    recordFp32 k8 rec i = (if sc = 255 then ⟨fpNaN .fp32, 0⟩ else roundedTo .fp32 .rne int unit)
    ∧ recordValue k8 rec i = if sc = 255 then .nan else .fin (decide (int < 0)) int.natAbs unit)
  -- accesses of bank formats
  ∧ (∀ (c : BitVec 4) (b : List Byte), b.length = codeBytes c →
    let f : Fp := if c = 3 then .fp16 else if c = 4 then .e4m3 else .e5m2
    let z := if c = 3 then 2 else 1
    let r (i : Nat) : Rounded := recordFp32 (c == 7) b i
    (c = 3 ∨ c = 4 ∨ c = 5 → ∃ w, fmtDecode c b = ([w], 0) ∧ ∀ i < 16,
        lane false w i = (fpConvert .fp32 .rne (fpDecode f (leNat ((b.drop (z * i)).take z)))).bits)
    ∧ (c = 6 ∨ c = 7 → (fmtDecode c b).1.length = 3 ∧ (fmtDecode c b).2 = all ((List.range 48).map r)
        ∧ (∀ j < 3, ∀ i < 16, lane false (((fmtDecode c b).1[j]?).getD 0) i = (r (16 * j + i)).bits)
        ∧ ∀ ea : Word, ∃ w, streamDecode c ea b = (w, all ((List.range 16).map (fun i => r (ea.toNat % 2 ^ 15 % 48 + i))))
          ∧ ∀ i < 16, lane false w i = (r (ea.toNat % 2 ^ 15 % 48 + i)).bits)
    ∧ (c ≠ 3 → c ≠ 4 → c ≠ 5 → c ≠ 6 → c ≠ 7 → fmtDecode c b = ([BitVec.ofNat 512 (leNat b)], 0))
    ∧ (c ≠ 6 → c ≠ 7 → ∀ ea, streamDecode c ea b = (((fmtDecode c b).1[0]?).getD 0, 0)))
  ∧ (∀ (c : BitVec 4) (k : Nat) (b : List Byte),
    (c = 6 ∨ c = 7 → gatherValue c k b = recordFp32 (c == 7) b (k % 48))
    ∧ (c = 3 → gatherValue c k b = ⟨(fpConvert .fp32 .rne (fpDecode .fp16 (leNat b))).bits, 0⟩)
    ∧ (c = 4 → gatherValue c k b = ⟨(fpConvert .fp32 .rne (fpDecode .e4m3 (leNat b))).bits, 0⟩)
    ∧ (c = 5 → gatherValue c k b = ⟨(fpConvert .fp32 .rne (fpDecode .e5m2 (leNat b))).bits, 0⟩)
    ∧ (c = 0 ∨ c = 1 ∨ c = 2 → gatherValue c k b = ⟨leNat b, 0⟩))
  ∧ (∀ (c : BitVec 4) (code : BitVec 3) (own : Bool) (act : List Bool) (regs : List VReg) (s : State) (b : List Byte) (fl : Flags) (s1 : State),
    act.length = 16 → fmtEncode c code own act regs s = ((b, fl), s1) →
    let v (i : Nat) : FVal := fpDecode .fp32 (lane false ((regs[i / 16]?).getD 0) (i % 16))
    let f : Fp := if c = 3 then .fp16 else if c = 4 then .e4m3 else .e5m2
    let z := if c = 3 then 2 else 1
    let drawn (ds : List (BitVec 32)) (on : List Bool) : List (BitVec 16) × State :=
      if code ≠ 4 then ([], s) else if own = true then drawFrom ds (on.zipIdx.map (fun p => (p.2, p.1))) s
      else ((List.range ds.length).map (fun i => dither16 ((ds[(i + 1) % ds.length]?).getD 0) s.hart.srStep), s)
    let small := drawn ((List.range 16).map (fun i => discarded f (v i))) act
    let mode (i : Nat) : Rm := if code = 4 then .sr ((small.1[i]?).getD 0) else rmArith code
    (c = 3 ∨ c = 4 ∨ c = 5 → s1 = small.2 ∧ b = (List.range 16).flatMap (fun i => leBytes (fpConvert f (mode i) (v i)).bits z)
        ∧ fl = all (((List.range 16).filter (fun i => (act[i]?).getD false)).map (fun i => fpConvert f (mode i) (v i))))
    ∧ (c = 6 ∨ c = 7 → regs.length = 3 → ∃ ds : List (BitVec 32), ds.length = 48 ∧ s1 = (drawn ds (List.replicate 48 true)).2
        ∧ let e := encodeBlock (c == 7) code (drawn ds (List.replicate 48 true)).1 ((List.range 48).map v)
          b = blockBytes (c == 7) e ∧ fl = e.flags)
    ∧ (c ≠ 3 → c ≠ 4 → c ≠ 5 → c ≠ 6 → c ≠ 7 → s1 = s ∧ b = leBytes ((regs[0]?).getD 0).toNat 64 ∧ fl = 0))
  ∧ (∀ (k8 : Bool) (rec : List Byte) (regs : List VReg),
    let sum (i : Nat) : Rounded := fpAddV .fp32 .rne (fpDecode .fp32 (lane false ((regs[i / 16]?).getD 0) (i % 16))) (recordValue k8 rec i)
    (blockAccLanes k8 rec regs).1.length = 3 ∧ (blockAccLanes k8 rec regs).2 = all ((List.range 48).map sum)
    ∧ ∀ j < 3, ∀ i < 16, lane false (((blockAccLanes k8 rec regs).1[j]?).getD 0) i = (sum (16 * j + i)).bits)
  ∧ (∀ (h : Hart) (b : List Byte) (ea xb : Word) (size : Nat) (uns : Bool) (fmt : BitVec 4) (d : BitVec 5) (j : Nat),
    (OpKind.load ea size uns d).result h b = .xval d (extend size uns (leNat b))
    ∧ (OpKind.vload ea fmt d).result h b = .vval ((fmtDecode fmt b).1.zipIdx.map (fun p => (d + BitVec.ofNat 5 p.2, p.1))) (fmtDecode fmt b).2
    ∧ (OpKind.streamLoad d j ea fmt).result h b = .stream d j (streamDecode fmt ea b).1 (streamDecode fmt ea b).2 0
    ∧ (OpKind.blockAcc ea xb d).result h b = .acc d
        ((blockAccLanes (xb.getLsbD 0) b (h.rvs d 3)).1.zipIdx.map (fun p => (d + BitVec.ofNat 5 p.2, p.1))) (blockAccLanes (xb.getLsbD 0) b (h.rvs d 3)).2)
  ∧ (∀ a b, bf16Add a b = (fpAddV .bf16 .rne (fpDecode .bf16 a) (fpDecode .bf16 b)).bits)
  -- random values
  ∧ (∀ (f : Fp) (n : Bool) (m : Nat) (e : Int), discarded f .nan = 0 ∧ discarded f (.inf n) = 0 ∧ discarded f (.fin n 0 e) = 0
    ∧ (m ≠ 0 → let unit := (fpBias f + fpMant f - 1).toNat
        let num := m * 2 ^ e.toNat * 2 ^ unit
        let den := 2 ^ (-e).toNat
        ∃ lo ≤ fpMax f, value f lo * den ≤ num ∧ (lo = fpMax f ∨ num < value f (lo + 1) * den)
          ∧ discarded f (.fin n m e) = BitVec.ofNat 32 ((num - value f lo * den) * 2 ^ 16 / ((value f (lo + 1) - value f lo) * den))))
  ∧ (∀ (dn : BitVec 32) (step : Word),
    let x0 := dn ^^^ BitVec.ofNat 32 (step.toNat * 0x2545F491)
    let x1 := (x0 ^^^ (x0 >>> 16)) * 0x7FEB352D#32
    let x2 := (x1 ^^^ (x1 >>> 15)) * 0x846CA68B#32
    dither16 dn step = BitVec.ofNat 16 (x2 ^^^ (x2 >>> 16)).toNat)
  ∧ (∀ (ds : List (BitVec 32)) (i : Nat) (on : Bool) (l : List (Nat × Bool)) (s : State), drawFrom ds [] s = ([], s)
    ∧ let one := drawOne ((ds[(i + 1) % ds.length]?).getD 0) s
      drawFrom ds ((i, on) :: l) s = if on = true then (one.1 :: (drawFrom ds l one.2).1, (drawFrom ds l one.2).2)
        else (0 :: (drawFrom ds l s).1, (drawFrom ds l s).2))
  ∧ (∀ (dn : BitVec 32) (s : State),
    let off := 2 * s.hart.logb.toNat + 2 * s.hart.logp.toNat
    let inside : Prop := s.hart.logp ≠ s.hart.logn ∧ off < 2 ^ 18
    let noise := Config.noise s.noiseCtr
    let lost (t : State) : State := { t with hart := { t.hart with srLost := true } }
    let drawn := { s with noiseCtr := s.noiseCtr + 1 }
    (s.hart.srSrc = 0 → drawOne dn s = (dither16 dn s.hart.srStep, s))
    ∧ (s.hart.srSrc = 1 → drawOne dn s = (noise, drawn))
    ∧ (s.hart.srSrc = 2 → ¬inside → drawOne dn s = (noise, lost drawn))
    ∧ (s.hart.srSrc = 2 → inside → ∃ t, drawOne dn s = (noise, t) ∧ t.hart.logp = s.hart.logp + 1
        ∧ Issued drawn t 0 (.store [(mkGa s.nodeId s.hart.num off, memKey s.nodeId s.hart.num off, leBytes noise.toNat 2)] false false)
        ∧ Only (fun old new => { mayIssue old new with logp := new.logp }) drawn t)
    ∧ (s.hart.srSrc = 3 → ¬inside → drawOne dn s = (0, lost s))
    ∧ (s.hart.srSrc = 3 → inside → ∃ v t, drawOne dn s = (v, t) ∧ t.hart.logp = s.hart.logp + 1
        ∧ (t.hart.spin 0).issue = (s.hart.spin 0).issue + 1 ∧ t.hart.ops = s.hart.ops.filter (fun o => o.id != s.hart.nextOp)
        ∧ v = BitVec.ofNat 16 (leNat (s.readKey (memKey s.nodeId s.hart.num off) 2))
        ∧ SameBytes s t))
  ∧ (∀ (n : Nat) (s : State),
    let pos (i : Nat) : Nat := (s.hart.logp.toNat + i) % 2 ^ 17
    let off (i : Nat) : Nat := 2 * s.hart.logb.toNat + 2 * pos i
    let met (i : Nat) : Prop := i < n ∧ ∀ j ≤ i, pos j ≠ s.hart.logn.toNat ∧ off j < 2 ^ 18
    let at_ (i : Nat) : Word := mkGa s.nodeId s.hart.num (off i)
    let lock (i : Nat) : BitVec 8 := lockHit s (at_ i).toNat ((at_ i).toNat + 2) (s.hart.srSrc == 2) 0
    let ready (i : Nat) : Prop := s.hart.ready (s.hart.loadNow (at_ i) 2) = true
    (n = 0 ∨ s.hart.srSrc = 0 ∨ s.hart.srSrc = 1 → s.logGate n = ⟨true, s⟩)
    ∧ (n ≠ 0 → s.hart.srSrc = 2 ∨ s.hart.srSrc = 3 →
      (∀ i, met i → lock i ≠ 0 → (∀ j < i, lock j = 0) → s.logGate n = ⟨false, trap (lock i) (at_ i) s⟩)
      ∧ ((∀ i, met i → lock i = 0) →
        (s.hart.srSrc = 2 ∨ (∀ i, met i → ready i) → s.logGate n = ⟨true, s⟩)
        ∧ (s.hart.srSrc = 3 → (∃ i, met i ∧ ¬ready i) → (s.logGate n).ok = false ∧ (s.logGate n).st.hart.run = .blocked
          ∧ Only (fun old new => { old with run := new.run, comb := new.comb }) s (s.logGate n).st))))
end

