-- ==== Sys2Proof/Laws/Encode.lean ====
section
/-! SUPPORT. Every field and every checked slice of the words that the encoder writes, format by format, and what the
decoder's first step answers for a major opcode. -/

namespace Sys2Proof.Laws

theorem extDrop {n : Nat} (k lo len : Nat) (x : BitVec n) (y : BitVec k) :
    (x ++ y).extractLsb' (k + lo) len = x.extractLsb' lo len := by
  apply BitVec.eq_of_getLsbD_eq; intro i hi
  simp only [BitVec.getLsbD_append, BitVec.getLsbD_extractLsb']
  rw [if_neg (by omega), show k + lo + i - k = lo + i by omega]

theorem extLow {n k : Nat} (lo len : Nat) (h : lo + len ≤ k) (x : BitVec n) (y : BitVec k) :
    (x ++ y).extractLsb' lo len = y.extractLsb' lo len := by
  apply BitVec.eq_of_getLsbD_eq; intro i hi
  simp only [BitVec.getLsbD_append, BitVec.getLsbD_extractLsb']
  rw [if_pos (by omega)]

theorem extAll {n : Nat} (x : BitVec n) : x.extractLsb' 0 n = x := BitVec.extractLsb'_eq_self

theorem extLo {n k : Nat} (x : BitVec n) (y : BitVec k) : (x ++ y).extractLsb' 0 k = y :=
  (extLow 0 k (by omega) x y).trans (extAll y)

theorem extHi {n k : Nat} (x : BitVec n) (y : BitVec k) : (x ++ y).extractLsb' k n = x := by
  apply BitVec.eq_of_getLsbD_eq; intro i hi
  simp [BitVec.getLsbD_append, hi]

theorem extJoin {n : Nat} (lo a b : Nat) (x : BitVec n) :
    x.extractLsb' (lo + b) a ++ x.extractLsb' lo b = x.extractLsb' lo (a + b) := by
  apply BitVec.eq_of_getLsbD_eq; intro i hi
  simp only [BitVec.getLsbD_append, BitVec.getLsbD_extractLsb']
  by_cases c : i < b
  · simp [c, hi]
  · rw [if_neg c, decide_eq_true (by omega), decide_eq_true hi, show lo + b + (i - b) = lo + i by omega]

theorem bit0Bool (n : Nat) (x : BitVec n) (c : Bool) : (x ++ BitVec.ofBool c).getLsbD 0 = c := by
  cases c <;> simp only [BitVec.getLsbD_append] <;> rfl

theorem bitSelf (c : Bool) : (BitVec.ofBool c).getLsbD 0 = c := by cases c <;> rfl

theorem join6 (x : BitVec 6) : x.extractLsb' 5 1 ++ x.extractLsb' 0 5 = x := (extJoin 0 1 5 x).trans (extAll x)

theorem join11 (x : BitVec 11) : x.extractLsb' 10 1 ++ x.extractLsb' 5 5 ++ x.extractLsb' 0 5 = x := by
  rw [extJoin 5 1 5 x, extJoin 0 6 5 x]; exact extAll x

theorem join12 (x : BitVec 12) : x.extractLsb' 10 2 ++ (x.extractLsb' 5 5 ++ x.extractLsb' 0 5) = x := by
  rw [extJoin 0 5 5 x, extJoin 0 2 10 x]; exact extAll x

theorem checked_ok {i : Instr} (h : i.wf = true) : checked (.ok i) = .ok i := by simp [checked, h]

theorem checked_must {c : Bool} {i : Instr} (hc : c = true) (h : i.wf = true) : checked (must c i) = .ok i := by
  simp [checked, must, hc, h]

/-! ### encA -/

theorem encA_1_6 (m : Bool) (q : BitVec 3) (fn : BitVec 6) (b : BitVec 5) (a : BitVec 5) (d : BitVec 5) (mj : BitVec 6) :
    (encA m q fn b a d mj).extractLsb' 1 6 = mj :=
  (extDrop 1 0 6 ..).trans ((extLow 0 6 (by omega) ..).trans (extAll _))

theorem encA_7_3 (m : Bool) (q : BitVec 3) (fn : BitVec 6) (b : BitVec 5) (a : BitVec 5) (d : BitVec 5) (mj : BitVec 6) :
    (encA m q fn b a d mj).extractLsb' 7 3 = d.extractLsb' 0 3 :=
  (extDrop 1 6 3 ..).trans ((extDrop 6 0 3 ..).trans (extLow 0 3 (by omega) ..))

theorem encA_7_5 (m : Bool) (q : BitVec 3) (fn : BitVec 6) (b : BitVec 5) (a : BitVec 5) (d : BitVec 5) (mj : BitVec 6) :
    (encA m q fn b a d mj).extractLsb' 7 5 = d :=
  (extDrop 1 6 5 ..).trans ((extDrop 6 0 5 ..).trans ((extLow 0 5 (by omega) ..).trans (extAll _)))

theorem encA_7_15 (m : Bool) (q : BitVec 3) (fn : BitVec 6) (b : BitVec 5) (a : BitVec 5) (d : BitVec 5) (mj : BitVec 6) :
    (encA m q fn b a d mj).extractLsb' 7 15 = b ++ a ++ d := by
  unfold encA; apply BitVec.eq_of_getLsbD_eq; intro i hi
  simp only [BitVec.getLsbD_append, BitVec.getLsbD_extractLsb', hi, decide_true, Bool.true_and]
  split_ifs <;> first | omega | (congr 1; omega)

theorem encA_10_2 (m : Bool) (q : BitVec 3) (fn : BitVec 6) (b : BitVec 5) (a : BitVec 5) (d : BitVec 5) (mj : BitVec 6) :
    (encA m q fn b a d mj).extractLsb' 10 2 = d.extractLsb' 3 2 :=
  (extDrop 1 9 2 ..).trans ((extDrop 6 3 2 ..).trans (extLow 3 2 (by omega) ..))

theorem encA_12_3 (m : Bool) (q : BitVec 3) (fn : BitVec 6) (b : BitVec 5) (a : BitVec 5) (d : BitVec 5) (mj : BitVec 6) :
    (encA m q fn b a d mj).extractLsb' 12 3 = a.extractLsb' 0 3 :=
  (extDrop 1 11 3 ..).trans ((extDrop 6 5 3 ..).trans ((extDrop 5 0 3 ..).trans (extLow 0 3 (by omega) ..)))

theorem encA_12_5 (m : Bool) (q : BitVec 3) (fn : BitVec 6) (b : BitVec 5) (a : BitVec 5) (d : BitVec 5) (mj : BitVec 6) :
    (encA m q fn b a d mj).extractLsb' 12 5 = a :=
  (extDrop 1 11 5 ..).trans ((extDrop 6 5 5 ..).trans ((extDrop 5 0 5 ..).trans ((extLow 0 5 (by omega) ..).trans (extAll _))))

theorem encA_12_10 (m : Bool) (q : BitVec 3) (fn : BitVec 6) (b : BitVec 5) (a : BitVec 5) (d : BitVec 5) (mj : BitVec 6) :
    (encA m q fn b a d mj).extractLsb' 12 10 = b ++ a := by
  unfold encA; apply BitVec.eq_of_getLsbD_eq; intro i hi
  simp only [BitVec.getLsbD_append, BitVec.getLsbD_extractLsb', hi, decide_true, Bool.true_and]
  split_ifs <;> first | omega | (congr 1; omega)

theorem encA_15_7 (m : Bool) (q : BitVec 3) (fn : BitVec 6) (b : BitVec 5) (a : BitVec 5) (d : BitVec 5) (mj : BitVec 6) :
    (encA m q fn b a d mj).extractLsb' 15 7 = b ++ a.extractLsb' 3 2 := by
  unfold encA; apply BitVec.eq_of_getLsbD_eq; intro i hi
  simp only [BitVec.getLsbD_append, BitVec.getLsbD_extractLsb', hi, decide_true, Bool.true_and]
  split_ifs <;> first | omega | (congr 1; omega) | (rw [decide_eq_true (by omega), Bool.true_and]; congr 1; omega)

theorem encA_17_1 (m : Bool) (q : BitVec 3) (fn : BitVec 6) (b : BitVec 5) (a : BitVec 5) (d : BitVec 5) (mj : BitVec 6) :
    (encA m q fn b a d mj).extractLsb' 17 1 = b.extractLsb' 0 1 :=
  (extDrop 1 16 1 ..).trans ((extDrop 6 10 1 ..).trans ((extDrop 5 5 1 ..).trans ((extDrop 5 0 1 ..).trans (extLow 0 1 (by omega) ..))))

theorem encA_17_5 (m : Bool) (q : BitVec 3) (fn : BitVec 6) (b : BitVec 5) (a : BitVec 5) (d : BitVec 5) (mj : BitVec 6) :
    (encA m q fn b a d mj).extractLsb' 17 5 = b :=
  (extDrop 1 16 5 ..).trans ((extDrop 6 10 5 ..).trans ((extDrop 5 5 5 ..).trans ((extDrop 5 0 5 ..).trans ((extLow 0 5 (by omega) ..).trans (extAll _)))))

theorem encA_18_4 (m : Bool) (q : BitVec 3) (fn : BitVec 6) (b : BitVec 5) (a : BitVec 5) (d : BitVec 5) (mj : BitVec 6) :
    (encA m q fn b a d mj).extractLsb' 18 4 = b.extractLsb' 1 4 :=
  (extDrop 1 17 4 ..).trans ((extDrop 6 11 4 ..).trans ((extDrop 5 6 4 ..).trans ((extDrop 5 1 4 ..).trans (extLow 1 4 (by omega) ..))))

theorem encA_22_6 (m : Bool) (q : BitVec 3) (fn : BitVec 6) (b : BitVec 5) (a : BitVec 5) (d : BitVec 5) (mj : BitVec 6) :
    (encA m q fn b a d mj).extractLsb' 22 6 = fn :=
  (extDrop 1 21 6 ..).trans ((extDrop 6 15 6 ..).trans ((extDrop 5 10 6 ..).trans ((extDrop 5 5 6 ..).trans ((extDrop 5 0 6 ..).trans ((extLow 0 6 (by omega) ..).trans (extAll _))))))

theorem encA_28_1 (m : Bool) (q : BitVec 3) (fn : BitVec 6) (b : BitVec 5) (a : BitVec 5) (d : BitVec 5) (mj : BitVec 6) :
    (encA m q fn b a d mj).extractLsb' 28 1 = q.extractLsb' 0 1 :=
  (extDrop 1 27 1 ..).trans ((extDrop 6 21 1 ..).trans ((extDrop 5 16 1 ..).trans ((extDrop 5 11 1 ..).trans ((extDrop 5 6 1 ..).trans ((extDrop 6 0 1 ..).trans (extLow 0 1 (by omega) ..))))))

theorem encA_28_2 (m : Bool) (q : BitVec 3) (fn : BitVec 6) (b : BitVec 5) (a : BitVec 5) (d : BitVec 5) (mj : BitVec 6) :
    (encA m q fn b a d mj).extractLsb' 28 2 = q.extractLsb' 0 2 :=
  (extDrop 1 27 2 ..).trans ((extDrop 6 21 2 ..).trans ((extDrop 5 16 2 ..).trans ((extDrop 5 11 2 ..).trans ((extDrop 5 6 2 ..).trans ((extDrop 6 0 2 ..).trans (extLow 0 2 (by omega) ..))))))

theorem encA_28_3 (m : Bool) (q : BitVec 3) (fn : BitVec 6) (b : BitVec 5) (a : BitVec 5) (d : BitVec 5) (mj : BitVec 6) :
    (encA m q fn b a d mj).extractLsb' 28 3 = q :=
  (extDrop 1 27 3 ..).trans ((extDrop 6 21 3 ..).trans ((extDrop 5 16 3 ..).trans ((extDrop 5 11 3 ..).trans ((extDrop 5 6 3 ..).trans ((extDrop 6 0 3 ..).trans ((extLow 0 3 (by omega) ..).trans (extAll _)))))))

theorem encA_29_2 (m : Bool) (q : BitVec 3) (fn : BitVec 6) (b : BitVec 5) (a : BitVec 5) (d : BitVec 5) (mj : BitVec 6) :
    (encA m q fn b a d mj).extractLsb' 29 2 = q.extractLsb' 1 2 :=
  (extDrop 1 28 2 ..).trans ((extDrop 6 22 2 ..).trans ((extDrop 5 17 2 ..).trans ((extDrop 5 12 2 ..).trans ((extDrop 5 7 2 ..).trans ((extDrop 6 1 2 ..).trans (extLow 1 2 (by omega) ..))))))

theorem encA_30_1 (m : Bool) (q : BitVec 3) (fn : BitVec 6) (b : BitVec 5) (a : BitVec 5) (d : BitVec 5) (mj : BitVec 6) :
    (encA m q fn b a d mj).extractLsb' 30 1 = q.extractLsb' 2 1 :=
  (extDrop 1 29 1 ..).trans ((extDrop 6 23 1 ..).trans ((extDrop 5 18 1 ..).trans ((extDrop 5 13 1 ..).trans ((extDrop 5 8 1 ..).trans ((extDrop 6 2 1 ..).trans (extLow 2 1 (by omega) ..))))))

theorem encA_bit28 (m : Bool) (q : BitVec 3) (fn : BitVec 6) (b : BitVec 5) (a : BitVec 5) (d : BitVec 5) (mj : BitVec 6) : (encA m q fn b a d mj).getLsbD 28 = q.getLsbD 0 := by
  unfold encA; simp only [BitVec.getLsbD_append, BitVec.getLsbD_ofBool]; rfl

theorem encA_bit31 (m : Bool) (q : BitVec 3) (fn : BitVec 6) (b : BitVec 5) (a : BitVec 5) (d : BitVec 5) (mj : BitVec 6) : (encA m q fn b a d mj).getLsbD 31 = m := by
  unfold encA; simp only [BitVec.getLsbD_append, BitVec.getLsbD_ofBool]; simp

theorem encA_major (m : Bool) (q : BitVec 3) (fn : BitVec 6) (b : BitVec 5) (a : BitVec 5) (d : BitVec 5) (mj : BitVec 6) : major (encA m q fn b a d mj) = mj.toNat := congrArg BitVec.toNat (encA_1_6 ..)

theorem encA_fn (m : Bool) (q : BitVec 3) (fn : BitVec 6) (b : BitVec 5) (a : BitVec 5) (d : BitVec 5) (mj : BitVec 6) : fnA (encA m q fn b a d mj) = fn.toNat := congrArg BitVec.toNat (encA_22_6 ..)

theorem encA_long (m : Bool) (q : BitVec 3) (fn : BitVec 6) (b : BitVec 5) (a : BitVec 5) (d : BitVec 5) (mj : BitVec 6) : (encA m q fn b a d mj).getLsbD 0 = true := by
  unfold encA; simp only [BitVec.getLsbD_append]; rfl

theorem encA_fields (m : Bool) (q : BitVec 3) (fn : BitVec 6) (b : BitVec 5) (a : BitVec 5) (d : BitVec 5) (mj : BitVec 6) :
    major (encA m q fn b a d mj) = mj.toNat
    ∧ (encA m q fn b a d mj).extractLsb' 7 3 = d.extractLsb' 0 3
    ∧ fD3 (encA m q fn b a d mj) = d.extractLsb' 0 3
    ∧ (encA m q fn b a d mj).extractLsb' 7 5 = d
    ∧ fD (encA m q fn b a d mj) = d
    ∧ (encA m q fn b a d mj).extractLsb' 7 15 = b ++ a ++ d
    ∧ (encA m q fn b a d mj).extractLsb' 10 2 = d.extractLsb' 3 2
    ∧ (encA m q fn b a d mj).extractLsb' 12 3 = a.extractLsb' 0 3
    ∧ fA3 (encA m q fn b a d mj) = a.extractLsb' 0 3
    ∧ (encA m q fn b a d mj).extractLsb' 12 5 = a
    ∧ fA (encA m q fn b a d mj) = a
    ∧ (encA m q fn b a d mj).extractLsb' 12 10 = b ++ a
    ∧ (encA m q fn b a d mj).extractLsb' 15 7 = b ++ a.extractLsb' 3 2
    ∧ (encA m q fn b a d mj).extractLsb' 17 1 = b.extractLsb' 0 1
    ∧ (encA m q fn b a d mj).extractLsb' 17 5 = b
    ∧ fB (encA m q fn b a d mj) = b
    ∧ (encA m q fn b a d mj).extractLsb' 18 4 = b.extractLsb' 1 4
    ∧ fnA (encA m q fn b a d mj) = fn.toNat
    ∧ (encA m q fn b a d mj).extractLsb' 28 1 = q.extractLsb' 0 1
    ∧ (encA m q fn b a d mj).extractLsb' 28 2 = q.extractLsb' 0 2
    ∧ (encA m q fn b a d mj).extractLsb' 28 3 = q
    ∧ fQ (encA m q fn b a d mj) = q
    ∧ (encA m q fn b a d mj).extractLsb' 29 2 = q.extractLsb' 1 2
    ∧ (encA m q fn b a d mj).extractLsb' 30 1 = q.extractLsb' 2 1
    ∧ (encA m q fn b a d mj).getLsbD 28 = q.getLsbD 0
    ∧ (encA m q fn b a d mj).getLsbD 31 = m
    ∧ fM (encA m q fn b a d mj) = m :=
  ⟨congrArg BitVec.toNat (encA_1_6 ..), encA_7_3 .., encA_7_3 .., encA_7_5 .., encA_7_5 .., encA_7_15 .., encA_10_2 .., encA_12_3 .., encA_12_3 .., encA_12_5 .., encA_12_5 .., encA_12_10 .., encA_15_7 .., encA_17_1 .., encA_17_5 .., encA_17_5 .., encA_18_4 .., congrArg BitVec.toNat (encA_22_6 ..), encA_28_1 .., encA_28_2 .., encA_28_3 .., encA_28_3 .., encA_29_2 .., encA_30_1 .., encA_bit28 .., encA_bit31 .., encA_bit31 ..⟩

/-! ### encB -/

theorem encB_1_6 (m : Bool) (i : BitVec 14) (a : BitVec 5) (d : BitVec 5) (mj : BitVec 6) :
    (encB m i a d mj).extractLsb' 1 6 = mj :=
  (extDrop 1 0 6 ..).trans ((extLow 0 6 (by omega) ..).trans (extAll _))

theorem encB_7_3 (m : Bool) (i : BitVec 14) (a : BitVec 5) (d : BitVec 5) (mj : BitVec 6) :
    (encB m i a d mj).extractLsb' 7 3 = d.extractLsb' 0 3 :=
  (extDrop 1 6 3 ..).trans ((extDrop 6 0 3 ..).trans (extLow 0 3 (by omega) ..))

theorem encB_7_5 (m : Bool) (i : BitVec 14) (a : BitVec 5) (d : BitVec 5) (mj : BitVec 6) :
    (encB m i a d mj).extractLsb' 7 5 = d :=
  (extDrop 1 6 5 ..).trans ((extDrop 6 0 5 ..).trans ((extLow 0 5 (by omega) ..).trans (extAll _)))

theorem encB_10_2 (m : Bool) (i : BitVec 14) (a : BitVec 5) (d : BitVec 5) (mj : BitVec 6) :
    (encB m i a d mj).extractLsb' 10 2 = d.extractLsb' 3 2 :=
  (extDrop 1 9 2 ..).trans ((extDrop 6 3 2 ..).trans (extLow 3 2 (by omega) ..))

theorem encB_12_5 (m : Bool) (i : BitVec 14) (a : BitVec 5) (d : BitVec 5) (mj : BitVec 6) :
    (encB m i a d mj).extractLsb' 12 5 = a :=
  (extDrop 1 11 5 ..).trans ((extDrop 6 5 5 ..).trans ((extDrop 5 0 5 ..).trans ((extLow 0 5 (by omega) ..).trans (extAll _))))

theorem encB_17_14 (m : Bool) (i : BitVec 14) (a : BitVec 5) (d : BitVec 5) (mj : BitVec 6) :
    (encB m i a d mj).extractLsb' 17 14 = i :=
  (extDrop 1 16 14 ..).trans ((extDrop 6 10 14 ..).trans ((extDrop 5 5 14 ..).trans ((extDrop 5 0 14 ..).trans ((extLow 0 14 (by omega) ..).trans (extAll _)))))

theorem encB_bit31 (m : Bool) (i : BitVec 14) (a : BitVec 5) (d : BitVec 5) (mj : BitVec 6) : (encB m i a d mj).getLsbD 31 = m := by
  unfold encB; simp only [BitVec.getLsbD_append, BitVec.getLsbD_ofBool]; simp

theorem encB_major (m : Bool) (i : BitVec 14) (a : BitVec 5) (d : BitVec 5) (mj : BitVec 6) : major (encB m i a d mj) = mj.toNat := congrArg BitVec.toNat (encB_1_6 ..)

theorem encB_long (m : Bool) (i : BitVec 14) (a : BitVec 5) (d : BitVec 5) (mj : BitVec 6) : (encB m i a d mj).getLsbD 0 = true := by
  unfold encB; simp only [BitVec.getLsbD_append]; rfl

theorem encB_fields (m : Bool) (i : BitVec 14) (a : BitVec 5) (d : BitVec 5) (mj : BitVec 6) :
    major (encB m i a d mj) = mj.toNat
    ∧ (encB m i a d mj).extractLsb' 7 3 = d.extractLsb' 0 3
    ∧ fD3 (encB m i a d mj) = d.extractLsb' 0 3
    ∧ (encB m i a d mj).extractLsb' 7 5 = d
    ∧ fD (encB m i a d mj) = d
    ∧ (encB m i a d mj).extractLsb' 10 2 = d.extractLsb' 3 2
    ∧ (encB m i a d mj).extractLsb' 12 5 = a
    ∧ fA (encB m i a d mj) = a
    ∧ (encB m i a d mj).extractLsb' 17 14 = i
    ∧ fImm14 (encB m i a d mj) = i
    ∧ (encB m i a d mj).getLsbD 31 = m
    ∧ fM (encB m i a d mj) = m :=
  ⟨congrArg BitVec.toNat (encB_1_6 ..), encB_7_3 .., encB_7_3 .., encB_7_5 .., encB_7_5 .., encB_10_2 .., encB_12_5 .., encB_12_5 .., encB_17_14 .., encB_17_14 .., encB_bit31 .., encB_bit31 ..⟩

/-! ### encCFmt -/

theorem encCFmt_1_6 (m : Bool) (u : BitVec 1) (s : BitVec 3) (o : BitVec 10) (a : BitVec 5) (d : BitVec 5) (mj : BitVec 6) :
    (encCFmt m u s o a d mj).extractLsb' 1 6 = mj :=
  (extDrop 1 0 6 ..).trans ((extLow 0 6 (by omega) ..).trans (extAll _))

theorem encCFmt_7_5 (m : Bool) (u : BitVec 1) (s : BitVec 3) (o : BitVec 10) (a : BitVec 5) (d : BitVec 5) (mj : BitVec 6) :
    (encCFmt m u s o a d mj).extractLsb' 7 5 = d :=
  (extDrop 1 6 5 ..).trans ((extDrop 6 0 5 ..).trans ((extLow 0 5 (by omega) ..).trans (extAll _)))

theorem encCFmt_12_5 (m : Bool) (u : BitVec 1) (s : BitVec 3) (o : BitVec 10) (a : BitVec 5) (d : BitVec 5) (mj : BitVec 6) :
    (encCFmt m u s o a d mj).extractLsb' 12 5 = a :=
  (extDrop 1 11 5 ..).trans ((extDrop 6 5 5 ..).trans ((extDrop 5 0 5 ..).trans ((extLow 0 5 (by omega) ..).trans (extAll _))))

theorem encCFmt_17_10 (m : Bool) (u : BitVec 1) (s : BitVec 3) (o : BitVec 10) (a : BitVec 5) (d : BitVec 5) (mj : BitVec 6) :
    (encCFmt m u s o a d mj).extractLsb' 17 10 = o :=
  (extDrop 1 16 10 ..).trans ((extDrop 6 10 10 ..).trans ((extDrop 5 5 10 ..).trans ((extDrop 5 0 10 ..).trans ((extLow 0 10 (by omega) ..).trans (extAll _)))))

theorem encCFmt_27_3 (m : Bool) (u : BitVec 1) (s : BitVec 3) (o : BitVec 10) (a : BitVec 5) (d : BitVec 5) (mj : BitVec 6) :
    (encCFmt m u s o a d mj).extractLsb' 27 3 = s :=
  (extDrop 1 26 3 ..).trans ((extDrop 6 20 3 ..).trans ((extDrop 5 15 3 ..).trans ((extDrop 5 10 3 ..).trans ((extDrop 10 0 3 ..).trans ((extLow 0 3 (by omega) ..).trans (extAll _))))))

theorem encCFmt_30_1 (m : Bool) (u : BitVec 1) (s : BitVec 3) (o : BitVec 10) (a : BitVec 5) (d : BitVec 5) (mj : BitVec 6) :
    (encCFmt m u s o a d mj).extractLsb' 30 1 = u :=
  (extDrop 1 29 1 ..).trans ((extDrop 6 23 1 ..).trans ((extDrop 5 18 1 ..).trans ((extDrop 5 13 1 ..).trans ((extDrop 10 3 1 ..).trans ((extDrop 3 0 1 ..).trans ((extLow 0 1 (by omega) ..).trans (extAll _)))))))

theorem encCFmt_bit30 (m : Bool) (u : BitVec 1) (s : BitVec 3) (o : BitVec 10) (a : BitVec 5) (d : BitVec 5) (mj : BitVec 6) : (encCFmt m u s o a d mj).getLsbD 30 = u.getLsbD 0 := by
  unfold encCFmt; simp only [BitVec.getLsbD_append, BitVec.getLsbD_ofBool]; rfl

theorem encCFmt_bit31 (m : Bool) (u : BitVec 1) (s : BitVec 3) (o : BitVec 10) (a : BitVec 5) (d : BitVec 5) (mj : BitVec 6) : (encCFmt m u s o a d mj).getLsbD 31 = m := by
  unfold encCFmt; simp only [BitVec.getLsbD_append, BitVec.getLsbD_ofBool]; simp

theorem encCFmt_major (m : Bool) (u : BitVec 1) (s : BitVec 3) (o : BitVec 10) (a : BitVec 5) (d : BitVec 5) (mj : BitVec 6) : major (encCFmt m u s o a d mj) = mj.toNat := congrArg BitVec.toNat (encCFmt_1_6 ..)

theorem encCFmt_long (m : Bool) (u : BitVec 1) (s : BitVec 3) (o : BitVec 10) (a : BitVec 5) (d : BitVec 5) (mj : BitVec 6) : (encCFmt m u s o a d mj).getLsbD 0 = true := by
  unfold encCFmt; simp only [BitVec.getLsbD_append]; rfl

theorem encCFmt_fields (m : Bool) (u : BitVec 1) (s : BitVec 3) (o : BitVec 10) (a : BitVec 5) (d : BitVec 5) (mj : BitVec 6) :
    major (encCFmt m u s o a d mj) = mj.toNat
    ∧ (encCFmt m u s o a d mj).extractLsb' 7 5 = d
    ∧ fD (encCFmt m u s o a d mj) = d
    ∧ (encCFmt m u s o a d mj).extractLsb' 12 5 = a
    ∧ fA (encCFmt m u s o a d mj) = a
    ∧ (encCFmt m u s o a d mj).extractLsb' 17 10 = o
    ∧ fOff10 (encCFmt m u s o a d mj) = o
    ∧ (encCFmt m u s o a d mj).extractLsb' 27 3 = s
    ∧ fSnC (encCFmt m u s o a d mj) = s
    ∧ (encCFmt m u s o a d mj).extractLsb' 30 1 = u
    ∧ (encCFmt m u s o a d mj).getLsbD 30 = u.getLsbD 0
    ∧ (encCFmt m u s o a d mj).getLsbD 31 = m
    ∧ fM (encCFmt m u s o a d mj) = m :=
  ⟨congrArg BitVec.toNat (encCFmt_1_6 ..), encCFmt_7_5 .., encCFmt_7_5 .., encCFmt_12_5 .., encCFmt_12_5 .., encCFmt_17_10 .., encCFmt_17_10 .., encCFmt_27_3 .., encCFmt_27_3 .., encCFmt_30_1 .., encCFmt_bit30 .., encCFmt_bit31 .., encCFmt_bit31 ..⟩

/-! ### encD -/

theorem encD_1_6 (m : Bool) (o : BitVec 14) (b : BitVec 5) (a : BitVec 5) (mj : BitVec 6) :
    (encD m o b a mj).extractLsb' 1 6 = mj :=
  (extDrop 1 0 6 ..).trans ((extLow 0 6 (by omega) ..).trans (extAll _))

theorem encD_7_5 (m : Bool) (o : BitVec 14) (b : BitVec 5) (a : BitVec 5) (mj : BitVec 6) :
    (encD m o b a mj).extractLsb' 7 5 = a :=
  (extDrop 1 6 5 ..).trans ((extDrop 6 0 5 ..).trans ((extLow 0 5 (by omega) ..).trans (extAll _)))

theorem encD_12_5 (m : Bool) (o : BitVec 14) (b : BitVec 5) (a : BitVec 5) (mj : BitVec 6) :
    (encD m o b a mj).extractLsb' 12 5 = b :=
  (extDrop 1 11 5 ..).trans ((extDrop 6 5 5 ..).trans ((extDrop 5 0 5 ..).trans ((extLow 0 5 (by omega) ..).trans (extAll _))))

theorem encD_17_14 (m : Bool) (o : BitVec 14) (b : BitVec 5) (a : BitVec 5) (mj : BitVec 6) :
    (encD m o b a mj).extractLsb' 17 14 = o :=
  (extDrop 1 16 14 ..).trans ((extDrop 6 10 14 ..).trans ((extDrop 5 5 14 ..).trans ((extDrop 5 0 14 ..).trans ((extLow 0 14 (by omega) ..).trans (extAll _)))))

theorem encD_bit31 (m : Bool) (o : BitVec 14) (b : BitVec 5) (a : BitVec 5) (mj : BitVec 6) : (encD m o b a mj).getLsbD 31 = m := by
  unfold encD; simp only [BitVec.getLsbD_append, BitVec.getLsbD_ofBool]; simp

theorem encD_major (m : Bool) (o : BitVec 14) (b : BitVec 5) (a : BitVec 5) (mj : BitVec 6) : major (encD m o b a mj) = mj.toNat := congrArg BitVec.toNat (encD_1_6 ..)

theorem encD_long (m : Bool) (o : BitVec 14) (b : BitVec 5) (a : BitVec 5) (mj : BitVec 6) : (encD m o b a mj).getLsbD 0 = true := by
  unfold encD; simp only [BitVec.getLsbD_append]; rfl

theorem encD_fields (m : Bool) (o : BitVec 14) (b : BitVec 5) (a : BitVec 5) (mj : BitVec 6) :
    major (encD m o b a mj) = mj.toNat
    ∧ (encD m o b a mj).extractLsb' 7 5 = a
    ∧ fD (encD m o b a mj) = a
    ∧ (encD m o b a mj).extractLsb' 12 5 = b
    ∧ fA (encD m o b a mj) = b
    ∧ (encD m o b a mj).extractLsb' 17 14 = o
    ∧ fImm14 (encD m o b a mj) = o
    ∧ (encD m o b a mj).getLsbD 31 = m
    ∧ fM (encD m o b a mj) = m :=
  ⟨congrArg BitVec.toNat (encD_1_6 ..), encD_7_5 .., encD_7_5 .., encD_12_5 .., encD_12_5 .., encD_17_14 .., encD_17_14 .., encD_bit31 .., encD_bit31 ..⟩

/-! ### encE -/

theorem encE_1_6 (m : Bool) (i : BitVec 19) (d : BitVec 5) (mj : BitVec 6) :
    (encE m i d mj).extractLsb' 1 6 = mj :=
  (extDrop 1 0 6 ..).trans ((extLow 0 6 (by omega) ..).trans (extAll _))

theorem encE_7_5 (m : Bool) (i : BitVec 19) (d : BitVec 5) (mj : BitVec 6) :
    (encE m i d mj).extractLsb' 7 5 = d :=
  (extDrop 1 6 5 ..).trans ((extDrop 6 0 5 ..).trans ((extLow 0 5 (by omega) ..).trans (extAll _)))

theorem encE_12_16 (m : Bool) (i : BitVec 19) (d : BitVec 5) (mj : BitVec 6) :
    (encE m i d mj).extractLsb' 12 16 = i.extractLsb' 0 16 :=
  (extDrop 1 11 16 ..).trans ((extDrop 6 5 16 ..).trans ((extDrop 5 0 16 ..).trans (extLow 0 16 (by omega) ..)))

theorem encE_12_19 (m : Bool) (i : BitVec 19) (d : BitVec 5) (mj : BitVec 6) :
    (encE m i d mj).extractLsb' 12 19 = i :=
  (extDrop 1 11 19 ..).trans ((extDrop 6 5 19 ..).trans ((extDrop 5 0 19 ..).trans ((extLow 0 19 (by omega) ..).trans (extAll _))))

theorem encE_28_3 (m : Bool) (i : BitVec 19) (d : BitVec 5) (mj : BitVec 6) :
    (encE m i d mj).extractLsb' 28 3 = i.extractLsb' 16 3 :=
  (extDrop 1 27 3 ..).trans ((extDrop 6 21 3 ..).trans ((extDrop 5 16 3 ..).trans (extLow 16 3 (by omega) ..)))

theorem encE_bit31 (m : Bool) (i : BitVec 19) (d : BitVec 5) (mj : BitVec 6) : (encE m i d mj).getLsbD 31 = m := by
  unfold encE; simp only [BitVec.getLsbD_append, BitVec.getLsbD_ofBool]; simp

theorem encE_major (m : Bool) (i : BitVec 19) (d : BitVec 5) (mj : BitVec 6) : major (encE m i d mj) = mj.toNat := congrArg BitVec.toNat (encE_1_6 ..)

theorem encE_long (m : Bool) (i : BitVec 19) (d : BitVec 5) (mj : BitVec 6) : (encE m i d mj).getLsbD 0 = true := by
  unfold encE; simp only [BitVec.getLsbD_append]; rfl

theorem encE_fields (m : Bool) (i : BitVec 19) (d : BitVec 5) (mj : BitVec 6) :
    major (encE m i d mj) = mj.toNat
    ∧ (encE m i d mj).extractLsb' 7 5 = d
    ∧ fD (encE m i d mj) = d
    ∧ (encE m i d mj).extractLsb' 12 16 = i.extractLsb' 0 16
    ∧ (encE m i d mj).extractLsb' 12 19 = i
    ∧ fImm19 (encE m i d mj) = i
    ∧ (encE m i d mj).extractLsb' 28 3 = i.extractLsb' 16 3
    ∧ fQ (encE m i d mj) = i.extractLsb' 16 3
    ∧ (encE m i d mj).getLsbD 31 = m
    ∧ fM (encE m i d mj) = m :=
  ⟨congrArg BitVec.toNat (encE_1_6 ..), encE_7_5 .., encE_7_5 .., encE_12_16 .., encE_12_19 .., encE_12_19 .., encE_28_3 .., encE_28_3 .., encE_bit31 .., encE_bit31 ..⟩

/-! ### encJ -/

theorem encJ_1_6 (m : Bool) (o : BitVec 24) (mj : BitVec 6) :
    (encJ m o mj).extractLsb' 1 6 = mj :=
  (extDrop 1 0 6 ..).trans ((extLow 0 6 (by omega) ..).trans (extAll _))

theorem encJ_7_24 (m : Bool) (o : BitVec 24) (mj : BitVec 6) :
    (encJ m o mj).extractLsb' 7 24 = o :=
  (extDrop 1 6 24 ..).trans ((extDrop 6 0 24 ..).trans ((extLow 0 24 (by omega) ..).trans (extAll _)))

theorem encJ_bit31 (m : Bool) (o : BitVec 24) (mj : BitVec 6) : (encJ m o mj).getLsbD 31 = m := by
  unfold encJ; simp only [BitVec.getLsbD_append, BitVec.getLsbD_ofBool]; simp

theorem encJ_major (m : Bool) (o : BitVec 24) (mj : BitVec 6) : major (encJ m o mj) = mj.toNat := congrArg BitVec.toNat (encJ_1_6 ..)

theorem encJ_long (m : Bool) (o : BitVec 24) (mj : BitVec 6) : (encJ m o mj).getLsbD 0 = true := by
  unfold encJ; simp only [BitVec.getLsbD_append]; rfl

theorem encJ_fields (m : Bool) (o : BitVec 24) (mj : BitVec 6) :
    major (encJ m o mj) = mj.toNat
    ∧ (encJ m o mj).extractLsb' 7 24 = o
    ∧ fOff24 (encJ m o mj) = o
    ∧ (encJ m o mj).getLsbD 31 = m
    ∧ fM (encJ m o mj) = m :=
  ⟨congrArg BitVec.toNat (encJ_1_6 ..), encJ_7_24 .., encJ_7_24 .., encJ_bit31 .., encJ_bit31 ..⟩

/-! ### encV -/

theorem encV_1_6 (m : Bool) (t : BitVec 1) (fn : BitVec 5) (k : BitVec 3) (b : BitVec 5) (a : BitVec 5) (d : BitVec 5) (mj : BitVec 6) :
    (encV m t fn k b a d mj).extractLsb' 1 6 = mj :=
  (extDrop 1 0 6 ..).trans ((extLow 0 6 (by omega) ..).trans (extAll _))

theorem encV_7_3 (m : Bool) (t : BitVec 1) (fn : BitVec 5) (k : BitVec 3) (b : BitVec 5) (a : BitVec 5) (d : BitVec 5) (mj : BitVec 6) :
    (encV m t fn k b a d mj).extractLsb' 7 3 = d.extractLsb' 0 3 :=
  (extDrop 1 6 3 ..).trans ((extDrop 6 0 3 ..).trans (extLow 0 3 (by omega) ..))

theorem encV_7_5 (m : Bool) (t : BitVec 1) (fn : BitVec 5) (k : BitVec 3) (b : BitVec 5) (a : BitVec 5) (d : BitVec 5) (mj : BitVec 6) :
    (encV m t fn k b a d mj).extractLsb' 7 5 = d :=
  (extDrop 1 6 5 ..).trans ((extDrop 6 0 5 ..).trans ((extLow 0 5 (by omega) ..).trans (extAll _)))

theorem encV_10_2 (m : Bool) (t : BitVec 1) (fn : BitVec 5) (k : BitVec 3) (b : BitVec 5) (a : BitVec 5) (d : BitVec 5) (mj : BitVec 6) :
    (encV m t fn k b a d mj).extractLsb' 10 2 = d.extractLsb' 3 2 :=
  (extDrop 1 9 2 ..).trans ((extDrop 6 3 2 ..).trans (extLow 3 2 (by omega) ..))

theorem encV_12_3 (m : Bool) (t : BitVec 1) (fn : BitVec 5) (k : BitVec 3) (b : BitVec 5) (a : BitVec 5) (d : BitVec 5) (mj : BitVec 6) :
    (encV m t fn k b a d mj).extractLsb' 12 3 = a.extractLsb' 0 3 :=
  (extDrop 1 11 3 ..).trans ((extDrop 6 5 3 ..).trans ((extDrop 5 0 3 ..).trans (extLow 0 3 (by omega) ..)))

theorem encV_12_5 (m : Bool) (t : BitVec 1) (fn : BitVec 5) (k : BitVec 3) (b : BitVec 5) (a : BitVec 5) (d : BitVec 5) (mj : BitVec 6) :
    (encV m t fn k b a d mj).extractLsb' 12 5 = a :=
  (extDrop 1 11 5 ..).trans ((extDrop 6 5 5 ..).trans ((extDrop 5 0 5 ..).trans ((extLow 0 5 (by omega) ..).trans (extAll _))))

theorem encV_15_2 (m : Bool) (t : BitVec 1) (fn : BitVec 5) (k : BitVec 3) (b : BitVec 5) (a : BitVec 5) (d : BitVec 5) (mj : BitVec 6) :
    (encV m t fn k b a d mj).extractLsb' 15 2 = a.extractLsb' 3 2 :=
  (extDrop 1 14 2 ..).trans ((extDrop 6 8 2 ..).trans ((extDrop 5 3 2 ..).trans (extLow 3 2 (by omega) ..)))

theorem encV_15_10 (m : Bool) (t : BitVec 1) (fn : BitVec 5) (k : BitVec 3) (b : BitVec 5) (a : BitVec 5) (d : BitVec 5) (mj : BitVec 6) :
    (encV m t fn k b a d mj).extractLsb' 15 10 = k ++ b ++ a.extractLsb' 3 2 := by
  unfold encV; apply BitVec.eq_of_getLsbD_eq; intro i hi
  simp only [BitVec.getLsbD_append, BitVec.getLsbD_extractLsb', hi, decide_true, Bool.true_and]
  split_ifs <;> first | omega | (congr 1; omega) | (rw [decide_eq_true (by omega), Bool.true_and]; congr 1; omega)

theorem encV_17_3 (m : Bool) (t : BitVec 1) (fn : BitVec 5) (k : BitVec 3) (b : BitVec 5) (a : BitVec 5) (d : BitVec 5) (mj : BitVec 6) :
    (encV m t fn k b a d mj).extractLsb' 17 3 = b.extractLsb' 0 3 :=
  (extDrop 1 16 3 ..).trans ((extDrop 6 10 3 ..).trans ((extDrop 5 5 3 ..).trans ((extDrop 5 0 3 ..).trans (extLow 0 3 (by omega) ..))))

theorem encV_17_5 (m : Bool) (t : BitVec 1) (fn : BitVec 5) (k : BitVec 3) (b : BitVec 5) (a : BitVec 5) (d : BitVec 5) (mj : BitVec 6) :
    (encV m t fn k b a d mj).extractLsb' 17 5 = b :=
  (extDrop 1 16 5 ..).trans ((extDrop 6 10 5 ..).trans ((extDrop 5 5 5 ..).trans ((extDrop 5 0 5 ..).trans ((extLow 0 5 (by omega) ..).trans (extAll _)))))

theorem encV_17_8 (m : Bool) (t : BitVec 1) (fn : BitVec 5) (k : BitVec 3) (b : BitVec 5) (a : BitVec 5) (d : BitVec 5) (mj : BitVec 6) :
    (encV m t fn k b a d mj).extractLsb' 17 8 = k ++ b := by
  unfold encV; apply BitVec.eq_of_getLsbD_eq; intro i hi
  simp only [BitVec.getLsbD_append, BitVec.getLsbD_extractLsb', hi, decide_true, Bool.true_and]
  split_ifs <;> first | omega | (congr 1; omega)

theorem encV_20_5 (m : Bool) (t : BitVec 1) (fn : BitVec 5) (k : BitVec 3) (b : BitVec 5) (a : BitVec 5) (d : BitVec 5) (mj : BitVec 6) :
    (encV m t fn k b a d mj).extractLsb' 20 5 = k ++ b.extractLsb' 3 2 := by
  unfold encV; apply BitVec.eq_of_getLsbD_eq; intro i hi
  simp only [BitVec.getLsbD_append, BitVec.getLsbD_extractLsb', hi, decide_true, Bool.true_and]
  split_ifs <;> first | omega | (congr 1; omega) | (rw [decide_eq_true (by omega), Bool.true_and]; congr 1; omega)

theorem encV_22_3 (m : Bool) (t : BitVec 1) (fn : BitVec 5) (k : BitVec 3) (b : BitVec 5) (a : BitVec 5) (d : BitVec 5) (mj : BitVec 6) :
    (encV m t fn k b a d mj).extractLsb' 22 3 = k :=
  (extDrop 1 21 3 ..).trans ((extDrop 6 15 3 ..).trans ((extDrop 5 10 3 ..).trans ((extDrop 5 5 3 ..).trans ((extDrop 5 0 3 ..).trans ((extLow 0 3 (by omega) ..).trans (extAll _))))))

theorem encV_25_5 (m : Bool) (t : BitVec 1) (fn : BitVec 5) (k : BitVec 3) (b : BitVec 5) (a : BitVec 5) (d : BitVec 5) (mj : BitVec 6) :
    (encV m t fn k b a d mj).extractLsb' 25 5 = fn :=
  (extDrop 1 24 5 ..).trans ((extDrop 6 18 5 ..).trans ((extDrop 5 13 5 ..).trans ((extDrop 5 8 5 ..).trans ((extDrop 5 3 5 ..).trans ((extDrop 3 0 5 ..).trans ((extLow 0 5 (by omega) ..).trans (extAll _)))))))

theorem encV_30_1 (m : Bool) (t : BitVec 1) (fn : BitVec 5) (k : BitVec 3) (b : BitVec 5) (a : BitVec 5) (d : BitVec 5) (mj : BitVec 6) :
    (encV m t fn k b a d mj).extractLsb' 30 1 = t :=
  (extDrop 1 29 1 ..).trans ((extDrop 6 23 1 ..).trans ((extDrop 5 18 1 ..).trans ((extDrop 5 13 1 ..).trans ((extDrop 5 8 1 ..).trans ((extDrop 3 5 1 ..).trans ((extDrop 5 0 1 ..).trans ((extLow 0 1 (by omega) ..).trans (extAll _))))))))

theorem encV_bit30 (m : Bool) (t : BitVec 1) (fn : BitVec 5) (k : BitVec 3) (b : BitVec 5) (a : BitVec 5) (d : BitVec 5) (mj : BitVec 6) : (encV m t fn k b a d mj).getLsbD 30 = t.getLsbD 0 := by
  unfold encV; simp only [BitVec.getLsbD_append, BitVec.getLsbD_ofBool]; rfl

theorem encV_bit31 (m : Bool) (t : BitVec 1) (fn : BitVec 5) (k : BitVec 3) (b : BitVec 5) (a : BitVec 5) (d : BitVec 5) (mj : BitVec 6) : (encV m t fn k b a d mj).getLsbD 31 = m := by
  unfold encV; simp only [BitVec.getLsbD_append, BitVec.getLsbD_ofBool]; simp

theorem encV_major (m : Bool) (t : BitVec 1) (fn : BitVec 5) (k : BitVec 3) (b : BitVec 5) (a : BitVec 5) (d : BitVec 5) (mj : BitVec 6) : major (encV m t fn k b a d mj) = mj.toNat := congrArg BitVec.toNat (encV_1_6 ..)

theorem encV_fn (m : Bool) (t : BitVec 1) (fn : BitVec 5) (k : BitVec 3) (b : BitVec 5) (a : BitVec 5) (d : BitVec 5) (mj : BitVec 6) : fnV (encV m t fn k b a d mj) = fn.toNat := congrArg BitVec.toNat (encV_25_5 ..)

theorem encV_long (m : Bool) (t : BitVec 1) (fn : BitVec 5) (k : BitVec 3) (b : BitVec 5) (a : BitVec 5) (d : BitVec 5) (mj : BitVec 6) : (encV m t fn k b a d mj).getLsbD 0 = true := by
  unfold encV; simp only [BitVec.getLsbD_append]; rfl

theorem encV_fields (m : Bool) (t : BitVec 1) (fn : BitVec 5) (k : BitVec 3) (b : BitVec 5) (a : BitVec 5) (d : BitVec 5) (mj : BitVec 6) :
    major (encV m t fn k b a d mj) = mj.toNat
    ∧ (encV m t fn k b a d mj).extractLsb' 7 3 = d.extractLsb' 0 3
    ∧ fD3 (encV m t fn k b a d mj) = d.extractLsb' 0 3
    ∧ (encV m t fn k b a d mj).extractLsb' 7 5 = d
    ∧ fD (encV m t fn k b a d mj) = d
    ∧ (encV m t fn k b a d mj).extractLsb' 10 2 = d.extractLsb' 3 2
    ∧ (encV m t fn k b a d mj).extractLsb' 12 3 = a.extractLsb' 0 3
    ∧ fA3 (encV m t fn k b a d mj) = a.extractLsb' 0 3
    ∧ (encV m t fn k b a d mj).extractLsb' 12 5 = a
    ∧ fA (encV m t fn k b a d mj) = a
    ∧ (encV m t fn k b a d mj).extractLsb' 15 2 = a.extractLsb' 3 2
    ∧ (encV m t fn k b a d mj).extractLsb' 15 10 = k ++ b ++ a.extractLsb' 3 2
    ∧ (encV m t fn k b a d mj).extractLsb' 17 3 = b.extractLsb' 0 3
    ∧ fB3 (encV m t fn k b a d mj) = b.extractLsb' 0 3
    ∧ (encV m t fn k b a d mj).extractLsb' 17 5 = b
    ∧ fB (encV m t fn k b a d mj) = b
    ∧ (encV m t fn k b a d mj).extractLsb' 17 8 = k ++ b
    ∧ (encV m t fn k b a d mj).extractLsb' 20 5 = k ++ b.extractLsb' 3 2
    ∧ (encV m t fn k b a d mj).extractLsb' 22 3 = k
    ∧ fSn (encV m t fn k b a d mj) = k
    ∧ fnV (encV m t fn k b a d mj) = fn.toNat
    ∧ (encV m t fn k b a d mj).extractLsb' 30 1 = t
    ∧ (encV m t fn k b a d mj).getLsbD 30 = t.getLsbD 0
    ∧ (encV m t fn k b a d mj).getLsbD 31 = m
    ∧ fM (encV m t fn k b a d mj) = m :=
  ⟨congrArg BitVec.toNat (encV_1_6 ..), encV_7_3 .., encV_7_3 .., encV_7_5 .., encV_7_5 .., encV_10_2 .., encV_12_3 .., encV_12_3 .., encV_12_5 .., encV_12_5 .., encV_15_2 .., encV_15_10 .., encV_17_3 .., encV_17_3 .., encV_17_5 .., encV_17_5 .., encV_17_8 .., encV_20_5 .., encV_22_3 .., encV_22_3 .., congrArg BitVec.toNat (encV_25_5 ..), encV_30_1 .., encV_bit30 .., encV_bit31 .., encV_bit31 ..⟩

/-! ### encX -/

theorem encX_1_6 (m : Bool) (fn : BitVec 6) (s : BitVec 3) (b : BitVec 5) (a : BitVec 5) (d : BitVec 5) (mj : BitVec 6) :
    (encX m fn s b a d mj).extractLsb' 1 6 = mj :=
  (extDrop 1 0 6 ..).trans ((extLow 0 6 (by omega) ..).trans (extAll _))

theorem encX_7_3 (m : Bool) (fn : BitVec 6) (s : BitVec 3) (b : BitVec 5) (a : BitVec 5) (d : BitVec 5) (mj : BitVec 6) :
    (encX m fn s b a d mj).extractLsb' 7 3 = d.extractLsb' 0 3 :=
  (extDrop 1 6 3 ..).trans ((extDrop 6 0 3 ..).trans (extLow 0 3 (by omega) ..))

theorem encX_7_5 (m : Bool) (fn : BitVec 6) (s : BitVec 3) (b : BitVec 5) (a : BitVec 5) (d : BitVec 5) (mj : BitVec 6) :
    (encX m fn s b a d mj).extractLsb' 7 5 = d :=
  (extDrop 1 6 5 ..).trans ((extDrop 6 0 5 ..).trans ((extLow 0 5 (by omega) ..).trans (extAll _)))

theorem encX_7_15 (m : Bool) (fn : BitVec 6) (s : BitVec 3) (b : BitVec 5) (a : BitVec 5) (d : BitVec 5) (mj : BitVec 6) :
    (encX m fn s b a d mj).extractLsb' 7 15 = b ++ a ++ d := by
  unfold encX; apply BitVec.eq_of_getLsbD_eq; intro i hi
  simp only [BitVec.getLsbD_append, BitVec.getLsbD_extractLsb', hi, decide_true, Bool.true_and]
  split_ifs <;> first | omega | (congr 1; omega)

theorem encX_10_2 (m : Bool) (fn : BitVec 6) (s : BitVec 3) (b : BitVec 5) (a : BitVec 5) (d : BitVec 5) (mj : BitVec 6) :
    (encX m fn s b a d mj).extractLsb' 10 2 = d.extractLsb' 3 2 :=
  (extDrop 1 9 2 ..).trans ((extDrop 6 3 2 ..).trans (extLow 3 2 (by omega) ..))

theorem encX_10_12 (m : Bool) (fn : BitVec 6) (s : BitVec 3) (b : BitVec 5) (a : BitVec 5) (d : BitVec 5) (mj : BitVec 6) :
    (encX m fn s b a d mj).extractLsb' 10 12 = b ++ a ++ d.extractLsb' 3 2 := by
  unfold encX; apply BitVec.eq_of_getLsbD_eq; intro i hi
  simp only [BitVec.getLsbD_append, BitVec.getLsbD_extractLsb', hi, decide_true, Bool.true_and]
  split_ifs <;> first | omega | (congr 1; omega) | (rw [decide_eq_true (by omega), Bool.true_and]; congr 1; omega)

theorem encX_12_3 (m : Bool) (fn : BitVec 6) (s : BitVec 3) (b : BitVec 5) (a : BitVec 5) (d : BitVec 5) (mj : BitVec 6) :
    (encX m fn s b a d mj).extractLsb' 12 3 = a.extractLsb' 0 3 :=
  (extDrop 1 11 3 ..).trans ((extDrop 6 5 3 ..).trans ((extDrop 5 0 3 ..).trans (extLow 0 3 (by omega) ..)))

theorem encX_12_5 (m : Bool) (fn : BitVec 6) (s : BitVec 3) (b : BitVec 5) (a : BitVec 5) (d : BitVec 5) (mj : BitVec 6) :
    (encX m fn s b a d mj).extractLsb' 12 5 = a :=
  (extDrop 1 11 5 ..).trans ((extDrop 6 5 5 ..).trans ((extDrop 5 0 5 ..).trans ((extLow 0 5 (by omega) ..).trans (extAll _))))

theorem encX_12_13 (m : Bool) (fn : BitVec 6) (s : BitVec 3) (b : BitVec 5) (a : BitVec 5) (d : BitVec 5) (mj : BitVec 6) :
    (encX m fn s b a d mj).extractLsb' 12 13 = s ++ b ++ a := by
  unfold encX; apply BitVec.eq_of_getLsbD_eq; intro i hi
  simp only [BitVec.getLsbD_append, BitVec.getLsbD_extractLsb', hi, decide_true, Bool.true_and]
  split_ifs <;> first | omega | (congr 1; omega)

theorem encX_15_2 (m : Bool) (fn : BitVec 6) (s : BitVec 3) (b : BitVec 5) (a : BitVec 5) (d : BitVec 5) (mj : BitVec 6) :
    (encX m fn s b a d mj).extractLsb' 15 2 = a.extractLsb' 3 2 :=
  (extDrop 1 14 2 ..).trans ((extDrop 6 8 2 ..).trans ((extDrop 5 3 2 ..).trans (extLow 3 2 (by omega) ..)))

theorem encX_15_7 (m : Bool) (fn : BitVec 6) (s : BitVec 3) (b : BitVec 5) (a : BitVec 5) (d : BitVec 5) (mj : BitVec 6) :
    (encX m fn s b a d mj).extractLsb' 15 7 = b ++ a.extractLsb' 3 2 := by
  unfold encX; apply BitVec.eq_of_getLsbD_eq; intro i hi
  simp only [BitVec.getLsbD_append, BitVec.getLsbD_extractLsb', hi, decide_true, Bool.true_and]
  split_ifs <;> first | omega | (congr 1; omega) | (rw [decide_eq_true (by omega), Bool.true_and]; congr 1; omega)

theorem encX_15_10 (m : Bool) (fn : BitVec 6) (s : BitVec 3) (b : BitVec 5) (a : BitVec 5) (d : BitVec 5) (mj : BitVec 6) :
    (encX m fn s b a d mj).extractLsb' 15 10 = s ++ b ++ a.extractLsb' 3 2 := by
  unfold encX; apply BitVec.eq_of_getLsbD_eq; intro i hi
  simp only [BitVec.getLsbD_append, BitVec.getLsbD_extractLsb', hi, decide_true, Bool.true_and]
  split_ifs <;> first | omega | (congr 1; omega) | (rw [decide_eq_true (by omega), Bool.true_and]; congr 1; omega)

theorem encX_17_5 (m : Bool) (fn : BitVec 6) (s : BitVec 3) (b : BitVec 5) (a : BitVec 5) (d : BitVec 5) (mj : BitVec 6) :
    (encX m fn s b a d mj).extractLsb' 17 5 = b :=
  (extDrop 1 16 5 ..).trans ((extDrop 6 10 5 ..).trans ((extDrop 5 5 5 ..).trans ((extDrop 5 0 5 ..).trans ((extLow 0 5 (by omega) ..).trans (extAll _)))))

theorem encX_17_8 (m : Bool) (fn : BitVec 6) (s : BitVec 3) (b : BitVec 5) (a : BitVec 5) (d : BitVec 5) (mj : BitVec 6) :
    (encX m fn s b a d mj).extractLsb' 17 8 = s ++ b := by
  unfold encX; apply BitVec.eq_of_getLsbD_eq; intro i hi
  simp only [BitVec.getLsbD_append, BitVec.getLsbD_extractLsb', hi, decide_true, Bool.true_and]
  split_ifs <;> first | omega | (congr 1; omega)

theorem encX_22_3 (m : Bool) (fn : BitVec 6) (s : BitVec 3) (b : BitVec 5) (a : BitVec 5) (d : BitVec 5) (mj : BitVec 6) :
    (encX m fn s b a d mj).extractLsb' 22 3 = s :=
  (extDrop 1 21 3 ..).trans ((extDrop 6 15 3 ..).trans ((extDrop 5 10 3 ..).trans ((extDrop 5 5 3 ..).trans ((extDrop 5 0 3 ..).trans ((extLow 0 3 (by omega) ..).trans (extAll _))))))

theorem encX_25_6 (m : Bool) (fn : BitVec 6) (s : BitVec 3) (b : BitVec 5) (a : BitVec 5) (d : BitVec 5) (mj : BitVec 6) :
    (encX m fn s b a d mj).extractLsb' 25 6 = fn :=
  (extDrop 1 24 6 ..).trans ((extDrop 6 18 6 ..).trans ((extDrop 5 13 6 ..).trans ((extDrop 5 8 6 ..).trans ((extDrop 5 3 6 ..).trans ((extDrop 3 0 6 ..).trans ((extLow 0 6 (by omega) ..).trans (extAll _)))))))

theorem encX_bit31 (m : Bool) (fn : BitVec 6) (s : BitVec 3) (b : BitVec 5) (a : BitVec 5) (d : BitVec 5) (mj : BitVec 6) : (encX m fn s b a d mj).getLsbD 31 = m := by
  unfold encX; simp only [BitVec.getLsbD_append, BitVec.getLsbD_ofBool]; simp

theorem encX_major (m : Bool) (fn : BitVec 6) (s : BitVec 3) (b : BitVec 5) (a : BitVec 5) (d : BitVec 5) (mj : BitVec 6) : major (encX m fn s b a d mj) = mj.toNat := congrArg BitVec.toNat (encX_1_6 ..)

theorem encX_fn (m : Bool) (fn : BitVec 6) (s : BitVec 3) (b : BitVec 5) (a : BitVec 5) (d : BitVec 5) (mj : BitVec 6) : fnX (encX m fn s b a d mj) = fn.toNat := congrArg BitVec.toNat (encX_25_6 ..)

theorem encX_long (m : Bool) (fn : BitVec 6) (s : BitVec 3) (b : BitVec 5) (a : BitVec 5) (d : BitVec 5) (mj : BitVec 6) : (encX m fn s b a d mj).getLsbD 0 = true := by
  unfold encX; simp only [BitVec.getLsbD_append]; rfl

theorem encX_fields (m : Bool) (fn : BitVec 6) (s : BitVec 3) (b : BitVec 5) (a : BitVec 5) (d : BitVec 5) (mj : BitVec 6) :
    major (encX m fn s b a d mj) = mj.toNat
    ∧ (encX m fn s b a d mj).extractLsb' 7 3 = d.extractLsb' 0 3
    ∧ fD3 (encX m fn s b a d mj) = d.extractLsb' 0 3
    ∧ (encX m fn s b a d mj).extractLsb' 7 5 = d
    ∧ fD (encX m fn s b a d mj) = d
    ∧ (encX m fn s b a d mj).extractLsb' 7 15 = b ++ a ++ d
    ∧ (encX m fn s b a d mj).extractLsb' 10 2 = d.extractLsb' 3 2
    ∧ (encX m fn s b a d mj).extractLsb' 10 12 = b ++ a ++ d.extractLsb' 3 2
    ∧ (encX m fn s b a d mj).extractLsb' 12 3 = a.extractLsb' 0 3
    ∧ fA3 (encX m fn s b a d mj) = a.extractLsb' 0 3
    ∧ (encX m fn s b a d mj).extractLsb' 12 5 = a
    ∧ fA (encX m fn s b a d mj) = a
    ∧ (encX m fn s b a d mj).extractLsb' 12 13 = s ++ b ++ a
    ∧ (encX m fn s b a d mj).extractLsb' 15 2 = a.extractLsb' 3 2
    ∧ (encX m fn s b a d mj).extractLsb' 15 7 = b ++ a.extractLsb' 3 2
    ∧ (encX m fn s b a d mj).extractLsb' 15 10 = s ++ b ++ a.extractLsb' 3 2
    ∧ (encX m fn s b a d mj).extractLsb' 17 5 = b
    ∧ fB (encX m fn s b a d mj) = b
    ∧ (encX m fn s b a d mj).extractLsb' 17 8 = s ++ b
    ∧ (encX m fn s b a d mj).extractLsb' 22 3 = s
    ∧ fSn (encX m fn s b a d mj) = s
    ∧ fnX (encX m fn s b a d mj) = fn.toNat
    ∧ (encX m fn s b a d mj).extractLsb' 25 6 = fn
    ∧ (encX m fn s b a d mj).getLsbD 31 = m
    ∧ fM (encX m fn s b a d mj) = m :=
  ⟨congrArg BitVec.toNat (encX_1_6 ..), encX_7_3 .., encX_7_3 .., encX_7_5 .., encX_7_5 .., encX_7_15 .., encX_10_2 .., encX_10_12 .., encX_12_3 .., encX_12_3 .., encX_12_5 .., encX_12_5 .., encX_12_13 .., encX_15_2 .., encX_15_7 .., encX_15_10 .., encX_17_5 .., encX_17_5 .., encX_17_8 .., encX_22_3 .., encX_22_3 .., congrArg BitVec.toNat (encX_25_6 ..), encX_25_6 .., encX_bit31 .., encX_bit31 ..⟩

/-! ### encC -/

theorem encC_1_4 (x : BitVec 1) (a : BitVec 5) (d : BitVec 5) (op : BitVec 4) :
    (encC x a d op).extractLsb' 1 4 = op :=
  (extDrop 1 0 4 ..).trans ((extLow 0 4 (by omega) ..).trans (extAll _))

theorem encC_5_5 (x : BitVec 1) (a : BitVec 5) (d : BitVec 5) (op : BitVec 4) :
    (encC x a d op).extractLsb' 5 5 = d :=
  (extDrop 1 4 5 ..).trans ((extDrop 4 0 5 ..).trans ((extLow 0 5 (by omega) ..).trans (extAll _)))

theorem encC_5_11 (x : BitVec 1) (a : BitVec 5) (d : BitVec 5) (op : BitVec 4) :
    (encC x a d op).extractLsb' 5 11 = x ++ a ++ d := by
  unfold encC; apply BitVec.eq_of_getLsbD_eq; intro i hi
  simp only [BitVec.getLsbD_append, BitVec.getLsbD_extractLsb', hi, decide_true, Bool.true_and]
  split_ifs <;> first | omega | (congr 1; omega)

theorem encC_10_5 (x : BitVec 1) (a : BitVec 5) (d : BitVec 5) (op : BitVec 4) :
    (encC x a d op).extractLsb' 10 5 = a :=
  (extDrop 1 9 5 ..).trans ((extDrop 4 5 5 ..).trans ((extDrop 5 0 5 ..).trans ((extLow 0 5 (by omega) ..).trans (extAll _))))

theorem encC_10_6 (x : BitVec 1) (a : BitVec 5) (d : BitVec 5) (op : BitVec 4) :
    (encC x a d op).extractLsb' 10 6 = x ++ a := by
  unfold encC; apply BitVec.eq_of_getLsbD_eq; intro i hi
  simp only [BitVec.getLsbD_append, BitVec.getLsbD_extractLsb', hi, decide_true, Bool.true_and]
  split_ifs <;> first | omega | (congr 1; omega)

theorem encC_15_1 (x : BitVec 1) (a : BitVec 5) (d : BitVec 5) (op : BitVec 4) :
    (encC x a d op).extractLsb' 15 1 = x := by
  unfold encC; apply BitVec.eq_of_getLsbD_eq; intro i hi
  simp only [BitVec.getLsbD_append, BitVec.getLsbD_extractLsb', hi, decide_true, Bool.true_and]
  split_ifs <;> first | omega | (congr 1; omega)

theorem encC_fields (x : BitVec 1) (a : BitVec 5) (d : BitVec 5) (op : BitVec 4) :
    (encC x a d op).extractLsb' 1 4 = op
    ∧ (encC x a d op).extractLsb' 5 5 = d
    ∧ (encC x a d op).extractLsb' 5 11 = x ++ a ++ d
    ∧ (encC x a d op).extractLsb' 10 5 = a
    ∧ (encC x a d op).extractLsb' 10 6 = x ++ a
    ∧ (encC x a d op).extractLsb' 15 1 = x :=
  ⟨encC_1_4 .., encC_5_5 .., encC_5_11 .., encC_10_5 .., encC_10_6 .., encC_15_1 ..⟩

theorem encC_short (x : BitVec 1) (a : BitVec 5) (d : BitVec 5) (op : BitVec 4) : (encC x a d op).getLsbD 0 = false := by
  unfold encC; simp only [BitVec.getLsbD_append]; rfl

theorem encC_ne {x : BitVec 1} {a d : BitVec 5} {op : BitVec 4} (h : op ≠ 0) : encC x a d op ≠ 0 := fun e =>
  h (by rw [← encC_1_4 x a d op, e]; rfl)

theorem encC_mov {a d : BitVec 5} (e : encC 0#1 a d 0 = 0) : d = 0 ∧ a = 0 :=
  ⟨by rw [← encC_5_5 0#1 a d 0, e]; rfl, by rw [← encC_10_5 0#1 a d 0, e]; rfl⟩

/-! ### The majors that a function number divides -/

theorem major01 {v : BitVec 32} (h : major v = 0x01) : decodeMajor v = decodeMajor01 v := by
  unfold decodeMajor; rw [h]; rfl

theorem major08 {v : BitVec 32} (h : major v = 0x08) : decodeMajor v = decodeMajor08 v := by
  unfold decodeMajor; rw [h]; rfl

theorem major0C {v : BitVec 32} (h : major v = 0x0C) : decodeMajor v = decodeMajor0C v := by
  unfold decodeMajor; rw [h]; rfl

theorem major18 {v : BitVec 32} (h : major v = 0x18) : decodeMajor v = decodeMajor18 v := by
  unfold decodeMajor; rw [h]; rfl

theorem major1A {v : BitVec 32} (h : major v = 0x1A) : decodeMajor v = decodeMajor1A v := by
  unfold decodeMajor; rw [h]; rfl

theorem major1C {v : BitVec 32} (h : major v = 0x1C) : decodeMajor v = decodeMajor1C v := by
  unfold decodeMajor; rw [h]; rfl

theorem major28 {v : BitVec 32} (h : major v = 0x28) : decodeMajor v = decodeMajor28 v := by
  unfold decodeMajor; rw [h]; rfl

theorem major29 {v : BitVec 32} (h : major v = 0x29) : decodeMajor v = decodeMajor29 v := by
  unfold decodeMajor; rw [h]; rfl

theorem major2A {v : BitVec 32} (h : major v = 0x2A) : decodeMajor v = decodeMajor2A v := by
  unfold decodeMajor; rw [h]; rfl

theorem major2B {v : BitVec 32} (h : major v = 0x2B) : decodeMajor v = decodeMajor2B v := by
  unfold decodeMajor; rw [h]; rfl

theorem major32 {v : BitVec 32} (h : major v = 0x32) : decodeMajor v = decodeMajor32 v := by
  unfold decodeMajor; rw [h]; rfl

theorem major33 {v : BitVec 32} (h : major v = 0x33) : decodeMajor v = decodeMajor33 v := by
  unfold decodeMajor; rw [h]; rfl

theorem major34 {v : BitVec 32} (h : major v = 0x34) : decodeMajor v = decodeMajor34 v := by
  unfold decodeMajor; rw [h]; rfl

theorem major35 {v : BitVec 32} (h : major v = 0x35) : decodeMajor v = decodeMajor35 v := by
  unfold decodeMajor; rw [h]; rfl

theorem major36 {v : BitVec 32} (h : major v = 0x36) : decodeMajor v = decodeMajor36 v := by
  unfold decodeMajor; rw [h]; rfl

theorem major37 {v : BitVec 32} (h : major v = 0x37) : decodeMajor v = decodeMajor37 v := by
  unfold decodeMajor; rw [h]; rfl

theorem major38 {v : BitVec 32} (h : major v = 0x38) : decodeMajor v = decodeMajor38 v := by
  unfold decodeMajor; rw [h]; rfl

theorem major3A {v : BitVec 32} (h : major v = 0x3A) : decodeMajor v = decodeMajor3A v := by
  unfold decodeMajor; rw [h]; rfl

theorem major3B {v : BitVec 32} (h : major v = 0x3B) : decodeMajor v = decodeMajor3B v := by
  unfold decodeMajor; rw [h]; rfl

theorem major3C {v : BitVec 32} (h : major v = 0x3C) : decodeMajor v = decodeMajor3C v := by
  unfold decodeMajor; rw [h]; rfl

theorem major3D {v : BitVec 32} (h : major v = 0x3D) : decodeMajor v = decodeMajor3D v := by
  unfold decodeMajor; rw [h]; rfl

theorem major3E {v : BitVec 32} (h : major v = 0x3E) : decodeMajor v = decodeMajor3E v := by
  unfold decodeMajor; rw [h]; rfl

theorem major3F {v : BitVec 32} (h : major v = 0x3F) : decodeMajor v = decodeMajor3F v := by
  unfold decodeMajor; rw [h]; rfl

end Sys2Proof.Laws
end

