-- ==== Sys2Proof/Laws/Memory.lean ====
section
/-! SUPPORT. Every operation on sparse storage keeps its canonical form, and a read after a write. -/

namespace Sys2Proof.Machine

/-- The canonical form as a proposition: keys rising from `lo` on, no zero entry. -/
def Cells.From {w : Nat} (lo : Nat) : Cells w → Prop
  | [] => True
  | (a, v) :: t => lo ≤ a ∧ v ≠ 0 ∧ Cells.From (a + 1) t

theorem Cells.from_mono {w : Nat} {lo lo' : Nat} (h : lo' ≤ lo) : ∀ {c : Cells w}, Cells.From lo c → Cells.From lo' c
  | [], _ => trivial
  | (_, _) :: _, ⟨a, b, c⟩ => ⟨Nat.le_trans h a, b, c⟩

/-- The Bool form says the same. -/
theorem Cells.wf_iff {w : Nat} : ∀ c : Cells w, Cells.wf c = true ↔ Cells.From 0 c
  | [] => by simp [Cells.wf, Cells.From]
  | [(a, v)] => by simp [Cells.wf, Cells.From]
  | (a, v) :: (b, u) :: t => by
    have ih := Cells.wf_iff ((b, u) :: t)
    simp only [Cells.wf, Bool.and_eq_true, ih, Cells.From, decide_eq_true_eq, bne_iff_ne, ne_eq, Nat.zero_le, true_and,
      Nat.succ_le_iff]
    tauto

theorem Cells.set_from {w : Nat} {lo k : Nat} (v : BitVec w) (hk : lo ≤ k) :
    ∀ {c : Cells w}, Cells.From lo c → Cells.From lo (Cells.set c k v)
  | [], _ => by
    unfold Cells.set
    split
    · trivial
    · next h => exact ⟨hk, h, trivial⟩
  | (a, u) :: t, ⟨ha, hu, ht⟩ => by
    unfold Cells.set
    split
    · next e =>
      subst e
      split
      · exact Cells.from_mono (by omega) ht
      · next h => exact ⟨ha, h, ht⟩
    · split
      · split
        · exact ⟨ha, hu, ht⟩
        · next h => exact ⟨hk, h, by omega, hu, ht⟩
      · exact ⟨ha, hu, Cells.set_from v (by omega) ht⟩

/-- A write keeps the canonical form. -/
theorem Cells.set_wf {w : Nat} {c : Cells w} (k : Nat) (v : BitVec w) (h : Cells.wf c = true) :
    Cells.wf (Cells.set c k v) = true := by
  rw [Cells.wf_iff] at *
  exact Cells.set_from v (Nat.zero_le _) h

theorem Cells.filter_from {w : Nat} {lo : Nat} (p : Nat × BitVec w → Bool) : ∀ {c : Cells w}, Cells.From lo c → Cells.From lo (c.filter p)
  | [], _ => trivial
  | (a, u) :: t, ⟨ha, hu, ht⟩ => by
    rw [List.filter_cons]
    split
    · exact ⟨ha, hu, Cells.filter_from p ht⟩
    · exact Cells.from_mono (by omega) (Cells.filter_from p ht)

/-- Clearing an interval keeps the canonical form. -/
theorem Cells.clear_wf {w : Nat} {c : Cells w} (lo hi : Nat) (h : Cells.wf c = true) : Cells.wf (Cells.clear c lo hi) = true := by
  rw [Cells.wf_iff] at *
  exact Cells.filter_from _ h

/-- A store of consecutive bytes keeps the canonical form. -/
theorem Memory.store_wf : ∀ (b : List Byte) {m : Memory} (k : Nat), Memory.wf m = true → Memory.wf (Memory.store m k b) = true
  | [], _, _, h => h
  | v :: t, _, k, h => Memory.store_wf t (k + 1) (Cells.set_wf k v h)

theorem Cells.get_below {w : Nat} {lo k : Nat} (hk : k < lo) : ∀ {c : Cells w}, Cells.From lo c → Cells.get c k = 0
  | [], _ => rfl
  | (a, u) :: t, ⟨ha, _, ht⟩ => by
    rw [Cells.get, if_neg (by omega)]
    exact Cells.get_below (lo := a + 1) (by omega) ht

theorem Cells.get_set_from {w : Nat} (k : Nat) (v : BitVec w) (j : Nat) :
    ∀ {lo : Nat} {c : Cells w}, Cells.From lo c → Cells.get (Cells.set c k v) j = if j = k then v else Cells.get c j
  | _, [], _ => by
    unfold Cells.set
    split
    · next h => subst h; simp [Cells.get]
    · simp [Cells.get, eq_comm]
  | _, (a, u) :: t, ⟨_, _, ht⟩ => by
    unfold Cells.set
    split
    · next e =>
      subst e
      split
      · next hv =>
        subst hv
        by_cases c : j = a
        · subst c; simpa using Cells.get_below (Nat.lt_succ_self _) ht
        · rw [if_neg c, Cells.get, if_neg (Ne.symm c)]
      · by_cases c : j = a
        · subst c; simp [Cells.get]
        · simp [Cells.get, c, Ne.symm c]
    · next e =>
      split
      · next l =>
        by_cases c : j = k
        · subst c
          split
          · next hv =>
            subst hv
            simp only [if_true, Cells.get, if_neg e]
            exact Cells.get_below (lo := a + 1) (by omega) ht
          · simp [Cells.get]
        · split <;> simp [Cells.get, Ne.symm c]
      · rw [Cells.get, Cells.get, Cells.get_set_from k v j ht]
        by_cases c : j = k
        · subst c; simp [e]
        · simp [c]

/-- A read after a write: the value at the key written, every other key as before. -/
theorem Cells.get_set {w : Nat} {c : Cells w} (h : Cells.wf c = true) (k : Nat) (v : BitVec w) (j : Nat) :
    Cells.get (Cells.set c k v) j = if j = k then v else Cells.get c j :=
  Cells.get_set_from k v j ((Cells.wf_iff c).mp h)

/-- A read after clearing an interval. -/
theorem Cells.get_clear {w : Nat} (lo hi j : Nat) : ∀ c : Cells w,
    Cells.get (Cells.clear c lo hi) j = if lo ≤ j ∧ j < hi then 0 else Cells.get c j
  | [] => by simp [Cells.clear, Cells.get]
  | (a, u) :: t => by
    have ih := Cells.get_clear lo hi j t
    unfold Cells.clear at *
    rw [List.filter_cons]
    by_cases c : (decide (a < lo) || decide (hi ≤ a)) = true
    · rw [if_pos (by simpa using c), Cells.get, Cells.get, ih]
      simp only [Bool.or_eq_true, decide_eq_true_eq] at c
      by_cases e : a = j
      · subst e; rw [if_pos rfl, if_pos rfl, if_neg (by omega)]
      · rw [if_neg e, if_neg e]
    · rw [if_neg (by simpa using c), ih, Cells.get]
      simp only [Bool.or_eq_true, decide_eq_true_eq] at c
      by_cases e : a = j
      · subst e; rw [if_pos (by omega), if_pos (by omega)]
      · rw [if_neg e]

/-- Bytes that a store does not touch read as before. -/
theorem Memory.store_get_other : ∀ (b : List Byte) {m : Memory} (k : Nat), Memory.wf m = true →
    ∀ j, (j < k ∨ k + b.length ≤ j) → Cells.get (Memory.store m k b) j = Cells.get m j
  | [], _, _, _, _, _ => rfl
  | v :: t, m, k, h, j, hj => by
    rw [Memory.store, Memory.store_get_other t (k + 1) (Cells.set_wf k v h) j (by simp at hj; omega), Cells.get_set h, if_neg]
    simp at hj; omega

/-- A store read back. -/
theorem Memory.bytes_store : ∀ (b : List Byte) {m : Memory} (k : Nat), Memory.wf m = true →
    Memory.bytes (Memory.store m k b) k b.length = b
  | [], _, _, _ => rfl
  | v :: t, m, k, h => by
    have h' := Cells.set_wf (c := m) k v h
    rw [Memory.store, List.length_cons, Memory.bytes, Memory.bytes_store t (k + 1) h',
      Memory.store_get_other t (k + 1) h' k (by omega), Cells.get_set h, if_pos rfl]

/-- A node's memory under another number keeps the canonical form; `lo` bounds the offsets of its keys. -/
theorem Memory.renode_from (old new : BitVec 4) : ∀ {m : Memory} {lo : Nat}, Cells.From lo m → ∀ lo', (∀ k, lo ≤ k →
    k / 2 ^ 60 = old.toNat → lo' ≤ rekey new k) → Cells.From lo' (Memory.renode old new m)
  | [], _, _, _, _ => trivial
  | (a, u) :: t, lo, ⟨ha, hu, ht⟩, lo', hb => by
    by_cases e : a / 2 ^ 60 = old.toNat
    · have ih := Memory.renode_from old new ht (rekey new a + 1) (fun k hk hn => by unfold rekey; omega)
      have eb : (a / 2 ^ 60 == old.toNat) = true := by simpa using e
      simp only [Memory.renode, List.filter_cons, eb, if_true, List.map_cons] at ih ⊢
      exact ⟨hb a ha e, hu, ih⟩
    · have ih := Memory.renode_from old new ht lo' (fun k hk hn => hb k (by omega) hn)
      have eb : (a / 2 ^ 60 == old.toNat) = false := by simpa using e
      simp only [Memory.renode, List.filter_cons, eb] at ih ⊢
      exact ih
/-- A module that gets another node number keeps the canonical form. -/
theorem Memory.renode_wf {m : Memory} (old new : BitVec 4) (h : Memory.wf m = true) : Memory.wf (Memory.renode old new m) = true := by
  unfold Memory.wf at *
  rw [Cells.wf_iff] at *
  exact Memory.renode_from old new h 0 (fun _ _ _ => Nat.zero_le _)

/-- The canonical form at reset. -/
theorem reset_mem_wf : Memory.wf State.reset.mem = true := rfl

end Sys2Proof.Machine
end

