-- ==== Sys2Proof/Laws/State.lean ====
section
/-! SUPPORT. What each update of a hart and of the state leaves alone, one lemma for each field, and what it writes. -/

namespace Sys2Proof.Machine

/-! ### The hart in focus changed -/

@[simp] theorem State.onHart_hart (s : State) (f : Hart → Hart) : (s.onHart f).hart = f s.hart := rfl
@[simp] theorem State.onHart_others (s : State) (f : Hart → Hart) : (s.onHart f).others = s.others := rfl
@[simp] theorem State.onHart_now (s : State) (f : Hart → Hart) : (s.onHart f).now = s.now := rfl
@[simp] theorem State.onHart_mem (s : State) (f : Hart → Hart) : (s.onHart f).mem = s.mem := rfl
@[simp] theorem State.onHart_nodeId (s : State) (f : Hart → Hart) : (s.onHart f).nodeId = s.nodeId := rfl
@[simp] theorem State.onHart_owner (s : State) (f : Hart → Hart) : (s.onHart f).owner = s.owner := rfl
@[simp] theorem State.onHart_lastOwner (s : State) (f : Hart → Hart) : (s.onHart f).lastOwner = s.lastOwner := rfl
@[simp] theorem State.onHart_bankFmt (s : State) (f : Hart → Hart) : (s.onHart f).bankFmt = s.bankFmt := rfl
@[simp] theorem State.onHart_cgPat (s : State) (f : Hart → Hart) : (s.onHart f).cgPat = s.cgPat := rfl
@[simp] theorem State.onHart_csTab (s : State) (f : Hart → Hart) : (s.onHart f).csTab = s.csTab := rfl
@[simp] theorem State.onHart_csOvf (s : State) (f : Hart → Hart) : (s.onHart f).csOvf = s.csOvf := rfl
@[simp] theorem State.onHart_csOvfsz (s : State) (f : Hart → Hart) : (s.onHart f).csOvfsz = s.csOvfsz := rfl
@[simp] theorem State.onHart_csOvfuse (s : State) (f : Hart → Hart) : (s.onHart f).csOvfuse = s.csOvfuse := rfl
@[simp] theorem State.onHart_tkKey (s : State) (f : Hart → Hart) : (s.onHart f).tkKey = s.tkKey := rfl
@[simp] theorem State.onHart_rgAsel (s : State) (f : Hart → Hart) : (s.onHart f).rgAsel = s.rgAsel := rfl
@[simp] theorem State.onHart_rgAlias (s : State) (f : Hart → Hart) : (s.onHart f).rgAlias = s.rgAlias := rfl
@[simp] theorem State.onHart_evFw (s : State) (f : Hart → Hart) : (s.onHart f).evFw = s.evFw := rfl
@[simp] theorem State.onHart_ringWp (s : State) (f : Hart → Hart) : (s.onHart f).ringWp = s.ringWp := rfl
@[simp] theorem State.onHart_ringRp (s : State) (f : Hart → Hart) : (s.onHart f).ringRp = s.ringRp := rfl
@[simp] theorem State.onHart_ringOverrun (s : State) (f : Hart → Hart) : (s.onHart f).ringOverrun = s.ringOverrun := rfl
@[simp] theorem State.onHart_ringBase (s : State) (f : Hart → Hart) : (s.onHart f).ringBase = s.ringBase := rfl
@[simp] theorem State.onHart_engines (s : State) (f : Hart → Hart) : (s.onHart f).engines = s.engines := rfl
@[simp] theorem State.onHart_lastFrame (s : State) (f : Hart → Hart) : (s.onHart f).lastFrame = s.lastFrame := rfl
@[simp] theorem State.onHart_seqs (s : State) (f : Hart → Hart) : (s.onHart f).seqs = s.seqs := rfl
@[simp] theorem State.onHart_locks (s : State) (f : Hart → Hart) : (s.onHart f).locks = s.locks := rfl
@[simp] theorem State.onHart_regions (s : State) (f : Hart → Hart) : (s.onHart f).regions = s.regions := rfl
@[simp] theorem State.onHart_nodes (s : State) (f : Hart → Hart) : (s.onHart f).nodes = s.nodes := rfl
@[simp] theorem State.onHart_releases (s : State) (f : Hart → Hart) : (s.onHart f).releases = s.releases := rfl
@[simp] theorem State.onHart_lent (s : State) (f : Hart → Hart) : (s.onHart f).lent = s.lent := rfl
@[simp] theorem State.onHart_nextOrder (s : State) (f : Hart → Hart) : (s.onHart f).nextOrder = s.nextOrder := rfl
@[simp] theorem State.onHart_tlb (s : State) (f : Hart → Hart) : (s.onHart f).tlb = s.tlb := rfl
@[simp] theorem State.onHart_asks (s : State) (f : Hart → Hart) : (s.onHart f).asks = s.asks := rfl
@[simp] theorem State.onHart_tlbFaults (s : State) (f : Hart → Hart) : (s.onHart f).tlbFaults = s.tlbFaults := rfl
@[simp] theorem State.onHart_holders (s : State) (f : Hart → Hart) : (s.onHart f).holders = s.holders := rfl
@[simp] theorem State.onHart_tickets (s : State) (f : Hart → Hart) : (s.onHart f).tickets = s.tickets := rfl
@[simp] theorem State.onHart_nextTicket (s : State) (f : Hart → Hart) : (s.onHart f).nextTicket = s.nextTicket := rfl
@[simp] theorem State.onHart_thrash (s : State) (f : Hart → Hart) : (s.onHart f).thrash = s.thrash := rfl
@[simp] theorem State.onHart_pins (s : State) (f : Hart → Hart) : (s.onHart f).pins = s.pins := rfl
@[simp] theorem State.onHart_csPages (s : State) (f : Hart → Hart) : (s.onHart f).csPages = s.csPages := rfl
@[simp] theorem State.onHart_reads (s : State) (f : Hart → Hart) : (s.onHart f).reads = s.reads := rfl
@[simp] theorem State.onHart_nextRead (s : State) (f : Hart → Hart) : (s.onHart f).nextRead = s.nextRead := rfl
@[simp] theorem State.onHart_far (s : State) (f : Hart → Hart) : (s.onHart f).far = s.far := rfl
@[simp] theorem State.onHart_lanes (s : State) (f : Hart → Hart) : (s.onHart f).lanes = s.lanes := rfl
@[simp] theorem State.onHart_skeins (s : State) (f : Hart → Hart) : (s.onHart f).skeins = s.skeins := rfl
@[simp] theorem State.onHart_leaving (s : State) (f : Hart → Hart) : (s.onHart f).leaving = s.leaving := rfl
@[simp] theorem State.onHart_degraded (s : State) (f : Hart → Hart) : (s.onHart f).degraded = s.degraded := rfl
@[simp] theorem State.onHart_stripe (s : State) (f : Hart → Hart) : (s.onHart f).stripe = s.stripe := rfl
@[simp] theorem State.onHart_sendq (s : State) (f : Hart → Hart) : (s.onHart f).sendq = s.sendq := rfl
@[simp] theorem State.onHart_flights (s : State) (f : Hart → Hart) : (s.onHart f).flights = s.flights := rfl
@[simp] theorem State.onHart_msgMoved (s : State) (f : Hart → Hart) : (s.onHart f).msgMoved = s.msgMoved := rfl
@[simp] theorem State.onHart_probes (s : State) (f : Hart → Hart) : (s.onHart f).probes = s.probes := rfl
@[simp] theorem State.onHart_startq (s : State) (f : Hart → Hart) : (s.onHart f).startq = s.startq := rfl
@[simp] theorem State.onHart_lastAdmit (s : State) (f : Hart → Hart) : (s.onHart f).lastAdmit = s.lastAdmit := rfl
@[simp] theorem State.onHart_lastSkein (s : State) (f : Hart → Hart) : (s.onHart f).lastSkein = s.lastSkein := rfl
@[simp] theorem State.onHart_tokenWaits (s : State) (f : Hart → Hart) : (s.onHart f).tokenWaits = s.tokenWaits := rfl
@[simp] theorem State.onHart_forwards (s : State) (f : Hart → Hart) : (s.onHart f).forwards = s.forwards := rfl
@[simp] theorem State.onHart_intervals (s : State) (f : Hart → Hart) : (s.onHart f).intervals = s.intervals := rfl
@[simp] theorem State.onHart_domains (s : State) (f : Hart → Hart) : (s.onHart f).domains = s.domains := rfl
@[simp] theorem State.onHart_capW (s : State) (f : Hart → Hart) : (s.onHart f).capW = s.capW := rfl
@[simp] theorem State.onHart_replays (s : State) (f : Hart → Hart) : (s.onHart f).replays = s.replays := rfl
@[simp] theorem State.onHart_removedQuads (s : State) (f : Hart → Hart) : (s.onHart f).removedQuads = s.removedQuads := rfl
@[simp] theorem State.onHart_removedFrames (s : State) (f : Hart → Hart) : (s.onHart f).removedFrames = s.removedFrames := rfl
@[simp] theorem State.onHart_partRev (s : State) (f : Hart → Hart) : (s.onHart f).partRev = s.partRev := rfl
@[simp] theorem State.onHart_fwVer (s : State) (f : Hart → Hart) : (s.onHart f).fwVer = s.fwVer := rfl
@[simp] theorem State.onHart_wear (s : State) (f : Hart → Hart) : (s.onHart f).wear = s.wear := rfl
@[simp] theorem State.onHart_hosts (s : State) (f : Hart → Hart) : (s.onHart f).hosts = s.hosts := rfl
@[simp] theorem State.onHart_recovery (s : State) (f : Hart → Hart) : (s.onHart f).recovery = s.recovery := rfl
@[simp] theorem State.onHart_boot (s : State) (f : Hart → Hart) : (s.onHart f).boot = s.boot := rfl
@[simp] theorem State.onHart_outbox (s : State) (f : Hart → Hart) : (s.onHart f).outbox = s.outbox := rfl
@[simp] theorem State.onHart_channels (s : State) (f : Hart → Hart) : (s.onHart f).channels = s.channels := rfl
@[simp] theorem State.onHart_rollbacks (s : State) (f : Hart → Hart) : (s.onHart f).rollbacks = s.rollbacks := rfl
@[simp] theorem State.onHart_restarts (s : State) (f : Hart → Hart) : (s.onHart f).restarts = s.restarts := rfl
@[simp] theorem State.onHart_poison (s : State) (f : Hart → Hart) : (s.onHart f).poison = s.poison := rfl
@[simp] theorem State.onHart_sched (s : State) (f : Hart → Hart) : (s.onHart f).sched = s.sched := rfl
@[simp] theorem State.onHart_tick (s : State) (f : Hart → Hart) : (s.onHart f).tick = s.tick := rfl
@[simp] theorem State.onHart_freeCtr (s : State) (f : Hart → Hart) : (s.onHart f).freeCtr = s.freeCtr := rfl
@[simp] theorem State.onHart_noiseCtr (s : State) (f : Hart → Hart) : (s.onHart f).noiseCtr = s.noiseCtr := rfl
@[simp] theorem State.onHart_onHart (s : State) (f g : Hart → Hart) : (s.onHart f).onHart g = s.onHart (fun h => g (f h)) := rfl
@[simp] theorem State.setX_eq (s : State) (r : BitVec 5) (v : Word) : s.setX r v = s.onHart (fun h => h.wx r v) := rfl
@[simp] theorem State.setV_eq (s : State) (r : BitVec 5) (v : VReg) : s.setV r v = s.onHart (fun h => h.wv r v) := rfl
@[simp] theorem State.setM_eq (s : State) (r : BitVec 3) (v : Word) : s.setM r v = s.onHart (fun h => h.wm r v) := rfl
@[simp] theorem State.setOx_eq (s : State) (r : BitVec 3) (v : Word) : s.setOx r v = s.onHart (fun h => h.wox r v) := rfl
@[simp] theorem State.done_eq (s : State) (n : Nat) (m : Bool) :
    s.done n m = s.onHart (fun h => h.retire (h.pc + BitVec.ofNat 64 n) m) := rfl
@[simp] theorem State.jump_eq (s : State) (pc : Word) (m : Bool) : s.jump pc m = s.onHart (fun h => h.retire pc m) := rfl
@[simp] theorem State.block_eq (s : State) : s.block = s.onHart (fun h => { h with run := .blocked }) := rfl
@[simp] theorem State.x_eq (s : State) (r : BitVec 5) : s.x r = s.hart.rx r := rfl
@[simp] theorem State.vr_eq (s : State) (r : BitVec 5) : s.vr r = s.hart.rv r := rfl
@[simp] theorem State.mr_eq (s : State) (r : BitVec 3) : s.mr r = s.hart.rm r := rfl
@[simp] theorem State.oxr_eq (s : State) (r : BitVec 3) : s.oxr r = s.hart.rox r := rfl

/-! ### A general register written (R67) -/

@[simp] theorem Hart.wx_num (h : Hart) (r : BitVec 5) (v : Word) : (h.wx r v).num = h.num := by unfold Hart.wx; split <;> rfl
@[simp] theorem Hart.wx_level (h : Hart) (r : BitVec 5) (v : Word) : (h.wx r v).level = h.level := by unfold Hart.wx; split <;> rfl
@[simp] theorem Hart.wx_pc (h : Hart) (r : BitVec 5) (v : Word) : (h.wx r v).pc = h.pc := by unfold Hart.wx; split <;> rfl
@[simp] theorem Hart.wx_v (h : Hart) (r : BitVec 5) (v : Word) : (h.wx r v).v = h.v := by unfold Hart.wx; split <;> rfl
@[simp] theorem Hart.wx_k (h : Hart) (r : BitVec 5) (v : Word) : (h.wx r v).k = h.k := by unfold Hart.wx; split <;> rfl
@[simp] theorem Hart.wx_ox (h : Hart) (r : BitVec 5) (v : Word) : (h.wx r v).ox = h.ox := by unfold Hart.wx; split <;> rfl
@[simp] theorem Hart.wx_sp (h : Hart) (r : BitVec 5) (v : Word) : (h.wx r v).sp = h.sp := by unfold Hart.wx; split <;> rfl
@[simp] theorem Hart.wx_bankU (h : Hart) (r : BitVec 5) (v : Word) : (h.wx r v).bankU = h.bankU := by unfold Hart.wx; split <;> rfl
@[simp] theorem Hart.wx_bankS (h : Hart) (r : BitVec 5) (v : Word) : (h.wx r v).bankS = h.bankS := by unfold Hart.wx; split <;> rfl
@[simp] theorem Hart.wx_bankM (h : Hart) (r : BitVec 5) (v : Word) : (h.wx r v).bankM = h.bankM := by unfold Hart.wx; split <;> rfl
@[simp] theorem Hart.wx_deleg (h : Hart) (r : BitVec 5) (v : Word) : (h.wx r v).deleg = h.deleg := by unfold Hart.wx; split <;> rfl
@[simp] theorem Hart.wx_irqs (h : Hart) (r : BitVec 5) (v : Word) : (h.wx r v).irqs = h.irqs := by unfold Hart.wx; split <;> rfl
@[simp] theorem Hart.wx_fxRound (h : Hart) (r : BitVec 5) (v : Word) : (h.wx r v).fxRound = h.fxRound := by unfold Hart.wx; split <;> rfl
@[simp] theorem Hart.wx_fxFlags (h : Hart) (r : BitVec 5) (v : Word) : (h.wx r v).fxFlags = h.fxFlags := by unfold Hart.wx; split <;> rfl
@[simp] theorem Hart.wx_srSrc (h : Hart) (r : BitVec 5) (v : Word) : (h.wx r v).srSrc = h.srSrc := by unfold Hart.wx; split <;> rfl
@[simp] theorem Hart.wx_srLost (h : Hart) (r : BitVec 5) (v : Word) : (h.wx r v).srLost = h.srLost := by unfold Hart.wx; split <;> rfl
@[simp] theorem Hart.wx_srStep (h : Hart) (r : BitVec 5) (v : Word) : (h.wx r v).srStep = h.srStep := by unfold Hart.wx; split <;> rfl
@[simp] theorem Hart.wx_logb (h : Hart) (r : BitVec 5) (v : Word) : (h.wx r v).logb = h.logb := by unfold Hart.wx; split <;> rfl
@[simp] theorem Hart.wx_logn (h : Hart) (r : BitVec 5) (v : Word) : (h.wx r v).logn = h.logn := by unfold Hart.wx; split <;> rfl
@[simp] theorem Hart.wx_logp (h : Hart) (r : BitVec 5) (v : Word) : (h.wx r v).logp = h.logp := by unfold Hart.wx; split <;> rfl
@[simp] theorem Hart.wx_scout (h : Hart) (r : BitVec 5) (v : Word) : (h.wx r v).scout = h.scout := by unfold Hart.wx; split <;> rfl
@[simp] theorem Hart.wx_fcnt (h : Hart) (r : BitVec 5) (v : Word) : (h.wx r v).fcnt = h.fcnt := by unfold Hart.wx; split <;> rfl
@[simp] theorem Hart.wx_scnt (h : Hart) (r : BitVec 5) (v : Word) : (h.wx r v).scnt = h.scnt := by unfold Hart.wx; split <;> rfl
@[simp] theorem Hart.wx_cfg (h : Hart) (r : BitVec 5) (v : Word) : (h.wx r v).cfg = h.cfg := by unfold Hart.wx; split <;> rfl
@[simp] theorem Hart.wx_engErr (h : Hart) (r : BitVec 5) (v : Word) : (h.wx r v).engErr = h.engErr := by unfold Hart.wx; split <;> rfl
@[simp] theorem Hart.wx_cmds (h : Hart) (r : BitVec 5) (v : Word) : (h.wx r v).cmds = h.cmds := by unfold Hart.wx; split <;> rfl
@[simp] theorem Hart.wx_msOvf (h : Hart) (r : BitVec 5) (v : Word) : (h.wx r v).msOvf = h.msOvf := by unfold Hart.wx; split <;> rfl
@[simp] theorem Hart.wx_msPend (h : Hart) (r : BitVec 5) (v : Word) : (h.wx r v).msPend = h.msPend := by unfold Hart.wx; split <;> rfl
@[simp] theorem Hart.wx_msLost (h : Hart) (r : BitVec 5) (v : Word) : (h.wx r v).msLost = h.msLost := by unfold Hart.wx; split <;> rfl
@[simp] theorem Hart.wx_posts (h : Hart) (r : BitVec 5) (v : Word) : (h.wx r v).posts = h.posts := by unfold Hart.wx; split <;> rfl
@[simp] theorem Hart.wx_ovfq (h : Hart) (r : BitVec 5) (v : Word) : (h.wx r v).ovfq = h.ovfq := by unfold Hart.wx; split <;> rfl
@[simp] theorem Hart.wx_gwRid (h : Hart) (r : BitVec 5) (v : Word) : (h.wx r v).gwRid = h.gwRid := by unfold Hart.wx; split <;> rfl
@[simp] theorem Hart.wx_gwNext (h : Hart) (r : BitVec 5) (v : Word) : (h.wx r v).gwNext = h.gwNext := by unfold Hart.wx; split <;> rfl
@[simp] theorem Hart.wx_duty (h : Hart) (r : BitVec 5) (v : Word) : (h.wx r v).duty = h.duty := by unfold Hart.wx; split <;> rfl
@[simp] theorem Hart.wx_req (h : Hart) (r : BitVec 5) (v : Word) : (h.wx r v).req = h.req := by unfold Hart.wx; split <;> rfl
@[simp] theorem Hart.wx_rcnt (h : Hart) (r : BitVec 5) (v : Word) : (h.wx r v).rcnt = h.rcnt := by unfold Hart.wx; split <;> rfl
@[simp] theorem Hart.wx_icnt (h : Hart) (r : BitVec 5) (v : Word) : (h.wx r v).icnt = h.icnt := by unfold Hart.wx; split <;> rfl
@[simp] theorem Hart.wx_msent (h : Hart) (r : BitVec 5) (v : Word) : (h.wx r v).msent = h.msent := by unfold Hart.wx; split <;> rfl
@[simp] theorem Hart.wx_mrecv (h : Hart) (r : BitVec 5) (v : Word) : (h.wx r v).mrecv = h.mrecv := by unfold Hart.wx; split <;> rfl
@[simp] theorem Hart.wx_ops (h : Hart) (r : BitVec 5) (v : Word) : (h.wx r v).ops = h.ops := by unfold Hart.wx; split <;> rfl
@[simp] theorem Hart.wx_rets (h : Hart) (r : BitVec 5) (v : Word) : (h.wx r v).rets = h.rets := by unfold Hart.wx; split <;> rfl
@[simp] theorem Hart.wx_faults (h : Hart) (r : BitVec 5) (v : Word) : (h.wx r v).faults = h.faults := by unfold Hart.wx; split <;> rfl
@[simp] theorem Hart.wx_nextOp (h : Hart) (r : BitVec 5) (v : Word) : (h.wx r v).nextOp = h.nextOp := by unfold Hart.wx; split <;> rfl
@[simp] theorem Hart.wx_comb (h : Hart) (r : BitVec 5) (v : Word) : (h.wx r v).comb = h.comb := by unfold Hart.wx; split <;> rfl
@[simp] theorem Hart.wx_writes (h : Hart) (r : BitVec 5) (v : Word) : (h.wx r v).writes = h.writes := by unfold Hart.wx; split <;> rfl
@[simp] theorem Hart.wx_dtlb (h : Hart) (r : BitVec 5) (v : Word) : (h.wx r v).dtlb = h.dtlb := by unfold Hart.wx; split <;> rfl
@[simp] theorem Hart.wx_itlb (h : Hart) (r : BitVec 5) (v : Word) : (h.wx r v).itlb = h.itlb := by unfold Hart.wx; split <;> rfl
@[simp] theorem Hart.wx_binds (h : Hart) (r : BitVec 5) (v : Word) : (h.wx r v).binds = h.binds := by unfold Hart.wx; split <;> rfl
@[simp] theorem Hart.wx_copies (h : Hart) (r : BitVec 5) (v : Word) : (h.wx r v).copies = h.copies := by unfold Hart.wx; split <;> rfl
@[simp] theorem Hart.wx_run (h : Hart) (r : BitVec 5) (v : Word) : (h.wx r v).run = h.run := by unfold Hart.wx; split <;> rfl
@[simp] theorem Hart.wx_node (h : Hart) (r : BitVec 5) (v : Word) : (h.wx r v).node = h.node := by unfold Hart.wx; split <;> rfl
@[simp] theorem Hart.wx_acq (h : Hart) (r : BitVec 5) (v : Word) : (h.wx r v).acq = h.acq := by unfold Hart.wx; split <;> rfl
@[simp] theorem Hart.wx_perfAt (h : Hart) (r : BitVec 5) (v : Word) : (h.wx r v).perfAt = h.perfAt := by unfold Hart.wx; split <;> rfl
@[simp] theorem Hart.wx_cycle (h : Hart) (r : BitVec 5) (v : Word) : (h.wx r v).cycle = h.cycle := by unfold Hart.wx; split <;> rfl
@[simp] theorem Hart.wx_idleSince (h : Hart) (r : BitVec 5) (v : Word) : (h.wx r v).idleSince = h.idleSince := by unfold Hart.wx; split <;> rfl
@[simp] theorem Hart.wx_gstopEret (h : Hart) (r : BitVec 5) (v : Word) : (h.wx r v).gstopEret = h.gstopEret := by unfold Hart.wx; split <;> rfl
@[simp] theorem Hart.wx_back (h : Hart) (r : BitVec 5) (v : Word) : (h.wx r v).back = h.back := by unfold Hart.wx; split <;> rfl
@[simp] theorem Hart.wx_recInfo (h : Hart) (r : BitVec 5) (v : Word) : (h.wx r v).recInfo = h.recInfo := by unfold Hart.wx; split <;> rfl
@[simp] theorem Hart.wx_holdTo (h : Hart) (r : BitVec 5) (v : Word) : (h.wx r v).holdTo = h.holdTo := by unfold Hart.wx; split <;> rfl
@[simp] theorem Hart.wx_recalled (h : Hart) (r : BitVec 5) (v : Word) : (h.wx r v).recalled = h.recalled := by unfold Hart.wx; split <;> rfl
/-- What reading a general register gives after a write: x0 keeps nothing. -/
theorem Hart.rx_wx (h : Hart) (d r : BitVec 5) (v : Word) : (h.wx d v).rx r = if r = d ∧ r ≠ 0 then v else h.rx r := by
  by_cases hr : r = 0
  · rw [if_neg (fun q => q.2 hr)]; unfold Hart.rx; rw [if_pos hr, if_pos hr]
  · by_cases hd : d = 0
    · rw [if_neg (fun q => hr (q.1.trans hd))]; unfold Hart.wx; rw [if_pos hd]
    · unfold Hart.rx Hart.wx
      rw [if_neg hr, if_neg hr, if_neg hd]
      by_cases e : r = d
      · subst e; rw [if_pos ⟨rfl, hr⟩]; exact Vector.getElem_set_self ..
      · rw [if_neg (fun q => e q.1)]
        exact Vector.getElem_set_ne (by have := d.isLt; omega) _ (fun q => e (BitVec.eq_of_toNat_eq q.symm))
/-- A write of a general register touches the registers alone. -/
theorem Hart.wx_eq (h : Hart) (r : BitVec 5) (v : Word) : h.wx r v = { h with x := (h.wx r v).x } := by
  unfold Hart.wx; split <;> rfl

/-! ### Vector, mask and operand-extension registers written -/

@[simp] theorem Hart.wv_num (h : Hart) (r : BitVec 5) (v : VReg) : (h.wv r v).num = h.num := rfl
@[simp] theorem Hart.wv_level (h : Hart) (r : BitVec 5) (v : VReg) : (h.wv r v).level = h.level := rfl
@[simp] theorem Hart.wv_pc (h : Hart) (r : BitVec 5) (v : VReg) : (h.wv r v).pc = h.pc := rfl
@[simp] theorem Hart.wv_x (h : Hart) (r : BitVec 5) (v : VReg) : (h.wv r v).x = h.x := rfl
@[simp] theorem Hart.wv_k (h : Hart) (r : BitVec 5) (v : VReg) : (h.wv r v).k = h.k := rfl
@[simp] theorem Hart.wv_ox (h : Hart) (r : BitVec 5) (v : VReg) : (h.wv r v).ox = h.ox := rfl
@[simp] theorem Hart.wv_sp (h : Hart) (r : BitVec 5) (v : VReg) : (h.wv r v).sp = h.sp := rfl
@[simp] theorem Hart.wv_bankU (h : Hart) (r : BitVec 5) (v : VReg) : (h.wv r v).bankU = h.bankU := rfl
@[simp] theorem Hart.wv_bankS (h : Hart) (r : BitVec 5) (v : VReg) : (h.wv r v).bankS = h.bankS := rfl
@[simp] theorem Hart.wv_bankM (h : Hart) (r : BitVec 5) (v : VReg) : (h.wv r v).bankM = h.bankM := rfl
@[simp] theorem Hart.wv_deleg (h : Hart) (r : BitVec 5) (v : VReg) : (h.wv r v).deleg = h.deleg := rfl
@[simp] theorem Hart.wv_irqs (h : Hart) (r : BitVec 5) (v : VReg) : (h.wv r v).irqs = h.irqs := rfl
@[simp] theorem Hart.wv_fxRound (h : Hart) (r : BitVec 5) (v : VReg) : (h.wv r v).fxRound = h.fxRound := rfl
@[simp] theorem Hart.wv_fxFlags (h : Hart) (r : BitVec 5) (v : VReg) : (h.wv r v).fxFlags = h.fxFlags := rfl
@[simp] theorem Hart.wv_srSrc (h : Hart) (r : BitVec 5) (v : VReg) : (h.wv r v).srSrc = h.srSrc := rfl
@[simp] theorem Hart.wv_srLost (h : Hart) (r : BitVec 5) (v : VReg) : (h.wv r v).srLost = h.srLost := rfl
@[simp] theorem Hart.wv_srStep (h : Hart) (r : BitVec 5) (v : VReg) : (h.wv r v).srStep = h.srStep := rfl
@[simp] theorem Hart.wv_logb (h : Hart) (r : BitVec 5) (v : VReg) : (h.wv r v).logb = h.logb := rfl
@[simp] theorem Hart.wv_logn (h : Hart) (r : BitVec 5) (v : VReg) : (h.wv r v).logn = h.logn := rfl
@[simp] theorem Hart.wv_logp (h : Hart) (r : BitVec 5) (v : VReg) : (h.wv r v).logp = h.logp := rfl
@[simp] theorem Hart.wv_scout (h : Hart) (r : BitVec 5) (v : VReg) : (h.wv r v).scout = h.scout := rfl
@[simp] theorem Hart.wv_fcnt (h : Hart) (r : BitVec 5) (v : VReg) : (h.wv r v).fcnt = h.fcnt := rfl
@[simp] theorem Hart.wv_scnt (h : Hart) (r : BitVec 5) (v : VReg) : (h.wv r v).scnt = h.scnt := rfl
@[simp] theorem Hart.wv_cfg (h : Hart) (r : BitVec 5) (v : VReg) : (h.wv r v).cfg = h.cfg := rfl
@[simp] theorem Hart.wv_engErr (h : Hart) (r : BitVec 5) (v : VReg) : (h.wv r v).engErr = h.engErr := rfl
@[simp] theorem Hart.wv_cmds (h : Hart) (r : BitVec 5) (v : VReg) : (h.wv r v).cmds = h.cmds := rfl
@[simp] theorem Hart.wv_msOvf (h : Hart) (r : BitVec 5) (v : VReg) : (h.wv r v).msOvf = h.msOvf := rfl
@[simp] theorem Hart.wv_msPend (h : Hart) (r : BitVec 5) (v : VReg) : (h.wv r v).msPend = h.msPend := rfl
@[simp] theorem Hart.wv_msLost (h : Hart) (r : BitVec 5) (v : VReg) : (h.wv r v).msLost = h.msLost := rfl
@[simp] theorem Hart.wv_posts (h : Hart) (r : BitVec 5) (v : VReg) : (h.wv r v).posts = h.posts := rfl
@[simp] theorem Hart.wv_ovfq (h : Hart) (r : BitVec 5) (v : VReg) : (h.wv r v).ovfq = h.ovfq := rfl
@[simp] theorem Hart.wv_gwRid (h : Hart) (r : BitVec 5) (v : VReg) : (h.wv r v).gwRid = h.gwRid := rfl
@[simp] theorem Hart.wv_gwNext (h : Hart) (r : BitVec 5) (v : VReg) : (h.wv r v).gwNext = h.gwNext := rfl
@[simp] theorem Hart.wv_duty (h : Hart) (r : BitVec 5) (v : VReg) : (h.wv r v).duty = h.duty := rfl
@[simp] theorem Hart.wv_req (h : Hart) (r : BitVec 5) (v : VReg) : (h.wv r v).req = h.req := rfl
@[simp] theorem Hart.wv_rcnt (h : Hart) (r : BitVec 5) (v : VReg) : (h.wv r v).rcnt = h.rcnt := rfl
@[simp] theorem Hart.wv_icnt (h : Hart) (r : BitVec 5) (v : VReg) : (h.wv r v).icnt = h.icnt := rfl
@[simp] theorem Hart.wv_msent (h : Hart) (r : BitVec 5) (v : VReg) : (h.wv r v).msent = h.msent := rfl
@[simp] theorem Hart.wv_mrecv (h : Hart) (r : BitVec 5) (v : VReg) : (h.wv r v).mrecv = h.mrecv := rfl
@[simp] theorem Hart.wv_ops (h : Hart) (r : BitVec 5) (v : VReg) : (h.wv r v).ops = h.ops := rfl
@[simp] theorem Hart.wv_rets (h : Hart) (r : BitVec 5) (v : VReg) : (h.wv r v).rets = h.rets := rfl
@[simp] theorem Hart.wv_faults (h : Hart) (r : BitVec 5) (v : VReg) : (h.wv r v).faults = h.faults := rfl
@[simp] theorem Hart.wv_nextOp (h : Hart) (r : BitVec 5) (v : VReg) : (h.wv r v).nextOp = h.nextOp := rfl
@[simp] theorem Hart.wv_comb (h : Hart) (r : BitVec 5) (v : VReg) : (h.wv r v).comb = h.comb := rfl
@[simp] theorem Hart.wv_writes (h : Hart) (r : BitVec 5) (v : VReg) : (h.wv r v).writes = h.writes := rfl
@[simp] theorem Hart.wv_dtlb (h : Hart) (r : BitVec 5) (v : VReg) : (h.wv r v).dtlb = h.dtlb := rfl
@[simp] theorem Hart.wv_itlb (h : Hart) (r : BitVec 5) (v : VReg) : (h.wv r v).itlb = h.itlb := rfl
@[simp] theorem Hart.wv_binds (h : Hart) (r : BitVec 5) (v : VReg) : (h.wv r v).binds = h.binds := rfl
@[simp] theorem Hart.wv_copies (h : Hart) (r : BitVec 5) (v : VReg) : (h.wv r v).copies = h.copies := rfl
@[simp] theorem Hart.wv_run (h : Hart) (r : BitVec 5) (v : VReg) : (h.wv r v).run = h.run := rfl
@[simp] theorem Hart.wv_node (h : Hart) (r : BitVec 5) (v : VReg) : (h.wv r v).node = h.node := rfl
@[simp] theorem Hart.wv_acq (h : Hart) (r : BitVec 5) (v : VReg) : (h.wv r v).acq = h.acq := rfl
@[simp] theorem Hart.wv_perfAt (h : Hart) (r : BitVec 5) (v : VReg) : (h.wv r v).perfAt = h.perfAt := rfl
@[simp] theorem Hart.wv_cycle (h : Hart) (r : BitVec 5) (v : VReg) : (h.wv r v).cycle = h.cycle := rfl
@[simp] theorem Hart.wv_idleSince (h : Hart) (r : BitVec 5) (v : VReg) : (h.wv r v).idleSince = h.idleSince := rfl
@[simp] theorem Hart.wv_gstopEret (h : Hart) (r : BitVec 5) (v : VReg) : (h.wv r v).gstopEret = h.gstopEret := rfl
@[simp] theorem Hart.wv_back (h : Hart) (r : BitVec 5) (v : VReg) : (h.wv r v).back = h.back := rfl
@[simp] theorem Hart.wv_recInfo (h : Hart) (r : BitVec 5) (v : VReg) : (h.wv r v).recInfo = h.recInfo := rfl
@[simp] theorem Hart.wv_holdTo (h : Hart) (r : BitVec 5) (v : VReg) : (h.wv r v).holdTo = h.holdTo := rfl
@[simp] theorem Hart.wv_recalled (h : Hart) (r : BitVec 5) (v : VReg) : (h.wv r v).recalled = h.recalled := rfl
/-- What reading a vector register gives after a write. -/
theorem Hart.rv_wv (h : Hart) (d r : BitVec 5) (v : VReg) : (h.wv d v).rv r = if r = d then v else h.rv r := by
  unfold Hart.rv Hart.wv
  by_cases e : r = d
  · subst e; simp
  · have : d.toNat ≠ r.toNat := fun q => e (BitVec.eq_of_toNat_eq q.symm)
    simp [e, Vector.getElem_set_ne, this]

@[simp] theorem Hart.wm_num (h : Hart) (r : BitVec 3) (v : Word) : (h.wm r v).num = h.num := by unfold Hart.wm; split <;> rfl
@[simp] theorem Hart.wm_level (h : Hart) (r : BitVec 3) (v : Word) : (h.wm r v).level = h.level := by unfold Hart.wm; split <;> rfl
@[simp] theorem Hart.wm_pc (h : Hart) (r : BitVec 3) (v : Word) : (h.wm r v).pc = h.pc := by unfold Hart.wm; split <;> rfl
@[simp] theorem Hart.wm_x (h : Hart) (r : BitVec 3) (v : Word) : (h.wm r v).x = h.x := by unfold Hart.wm; split <;> rfl
@[simp] theorem Hart.wm_v (h : Hart) (r : BitVec 3) (v : Word) : (h.wm r v).v = h.v := by unfold Hart.wm; split <;> rfl
@[simp] theorem Hart.wm_ox (h : Hart) (r : BitVec 3) (v : Word) : (h.wm r v).ox = h.ox := by unfold Hart.wm; split <;> rfl
@[simp] theorem Hart.wm_sp (h : Hart) (r : BitVec 3) (v : Word) : (h.wm r v).sp = h.sp := by unfold Hart.wm; split <;> rfl
@[simp] theorem Hart.wm_bankU (h : Hart) (r : BitVec 3) (v : Word) : (h.wm r v).bankU = h.bankU := by unfold Hart.wm; split <;> rfl
@[simp] theorem Hart.wm_bankS (h : Hart) (r : BitVec 3) (v : Word) : (h.wm r v).bankS = h.bankS := by unfold Hart.wm; split <;> rfl
@[simp] theorem Hart.wm_bankM (h : Hart) (r : BitVec 3) (v : Word) : (h.wm r v).bankM = h.bankM := by unfold Hart.wm; split <;> rfl
@[simp] theorem Hart.wm_deleg (h : Hart) (r : BitVec 3) (v : Word) : (h.wm r v).deleg = h.deleg := by unfold Hart.wm; split <;> rfl
@[simp] theorem Hart.wm_irqs (h : Hart) (r : BitVec 3) (v : Word) : (h.wm r v).irqs = h.irqs := by unfold Hart.wm; split <;> rfl
@[simp] theorem Hart.wm_fxRound (h : Hart) (r : BitVec 3) (v : Word) : (h.wm r v).fxRound = h.fxRound := by unfold Hart.wm; split <;> rfl
@[simp] theorem Hart.wm_fxFlags (h : Hart) (r : BitVec 3) (v : Word) : (h.wm r v).fxFlags = h.fxFlags := by unfold Hart.wm; split <;> rfl
@[simp] theorem Hart.wm_srSrc (h : Hart) (r : BitVec 3) (v : Word) : (h.wm r v).srSrc = h.srSrc := by unfold Hart.wm; split <;> rfl
@[simp] theorem Hart.wm_srLost (h : Hart) (r : BitVec 3) (v : Word) : (h.wm r v).srLost = h.srLost := by unfold Hart.wm; split <;> rfl
@[simp] theorem Hart.wm_srStep (h : Hart) (r : BitVec 3) (v : Word) : (h.wm r v).srStep = h.srStep := by unfold Hart.wm; split <;> rfl
@[simp] theorem Hart.wm_logb (h : Hart) (r : BitVec 3) (v : Word) : (h.wm r v).logb = h.logb := by unfold Hart.wm; split <;> rfl
@[simp] theorem Hart.wm_logn (h : Hart) (r : BitVec 3) (v : Word) : (h.wm r v).logn = h.logn := by unfold Hart.wm; split <;> rfl
@[simp] theorem Hart.wm_logp (h : Hart) (r : BitVec 3) (v : Word) : (h.wm r v).logp = h.logp := by unfold Hart.wm; split <;> rfl
@[simp] theorem Hart.wm_scout (h : Hart) (r : BitVec 3) (v : Word) : (h.wm r v).scout = h.scout := by unfold Hart.wm; split <;> rfl
@[simp] theorem Hart.wm_fcnt (h : Hart) (r : BitVec 3) (v : Word) : (h.wm r v).fcnt = h.fcnt := by unfold Hart.wm; split <;> rfl
@[simp] theorem Hart.wm_scnt (h : Hart) (r : BitVec 3) (v : Word) : (h.wm r v).scnt = h.scnt := by unfold Hart.wm; split <;> rfl
@[simp] theorem Hart.wm_cfg (h : Hart) (r : BitVec 3) (v : Word) : (h.wm r v).cfg = h.cfg := by unfold Hart.wm; split <;> rfl
@[simp] theorem Hart.wm_engErr (h : Hart) (r : BitVec 3) (v : Word) : (h.wm r v).engErr = h.engErr := by unfold Hart.wm; split <;> rfl
@[simp] theorem Hart.wm_cmds (h : Hart) (r : BitVec 3) (v : Word) : (h.wm r v).cmds = h.cmds := by unfold Hart.wm; split <;> rfl
@[simp] theorem Hart.wm_msOvf (h : Hart) (r : BitVec 3) (v : Word) : (h.wm r v).msOvf = h.msOvf := by unfold Hart.wm; split <;> rfl
@[simp] theorem Hart.wm_msPend (h : Hart) (r : BitVec 3) (v : Word) : (h.wm r v).msPend = h.msPend := by unfold Hart.wm; split <;> rfl
@[simp] theorem Hart.wm_msLost (h : Hart) (r : BitVec 3) (v : Word) : (h.wm r v).msLost = h.msLost := by unfold Hart.wm; split <;> rfl
@[simp] theorem Hart.wm_posts (h : Hart) (r : BitVec 3) (v : Word) : (h.wm r v).posts = h.posts := by unfold Hart.wm; split <;> rfl
@[simp] theorem Hart.wm_ovfq (h : Hart) (r : BitVec 3) (v : Word) : (h.wm r v).ovfq = h.ovfq := by unfold Hart.wm; split <;> rfl
@[simp] theorem Hart.wm_gwRid (h : Hart) (r : BitVec 3) (v : Word) : (h.wm r v).gwRid = h.gwRid := by unfold Hart.wm; split <;> rfl
@[simp] theorem Hart.wm_gwNext (h : Hart) (r : BitVec 3) (v : Word) : (h.wm r v).gwNext = h.gwNext := by unfold Hart.wm; split <;> rfl
@[simp] theorem Hart.wm_duty (h : Hart) (r : BitVec 3) (v : Word) : (h.wm r v).duty = h.duty := by unfold Hart.wm; split <;> rfl
@[simp] theorem Hart.wm_req (h : Hart) (r : BitVec 3) (v : Word) : (h.wm r v).req = h.req := by unfold Hart.wm; split <;> rfl
@[simp] theorem Hart.wm_rcnt (h : Hart) (r : BitVec 3) (v : Word) : (h.wm r v).rcnt = h.rcnt := by unfold Hart.wm; split <;> rfl
@[simp] theorem Hart.wm_icnt (h : Hart) (r : BitVec 3) (v : Word) : (h.wm r v).icnt = h.icnt := by unfold Hart.wm; split <;> rfl
@[simp] theorem Hart.wm_msent (h : Hart) (r : BitVec 3) (v : Word) : (h.wm r v).msent = h.msent := by unfold Hart.wm; split <;> rfl
@[simp] theorem Hart.wm_mrecv (h : Hart) (r : BitVec 3) (v : Word) : (h.wm r v).mrecv = h.mrecv := by unfold Hart.wm; split <;> rfl
@[simp] theorem Hart.wm_ops (h : Hart) (r : BitVec 3) (v : Word) : (h.wm r v).ops = h.ops := by unfold Hart.wm; split <;> rfl
@[simp] theorem Hart.wm_rets (h : Hart) (r : BitVec 3) (v : Word) : (h.wm r v).rets = h.rets := by unfold Hart.wm; split <;> rfl
@[simp] theorem Hart.wm_faults (h : Hart) (r : BitVec 3) (v : Word) : (h.wm r v).faults = h.faults := by unfold Hart.wm; split <;> rfl
@[simp] theorem Hart.wm_nextOp (h : Hart) (r : BitVec 3) (v : Word) : (h.wm r v).nextOp = h.nextOp := by unfold Hart.wm; split <;> rfl
@[simp] theorem Hart.wm_comb (h : Hart) (r : BitVec 3) (v : Word) : (h.wm r v).comb = h.comb := by unfold Hart.wm; split <;> rfl
@[simp] theorem Hart.wm_writes (h : Hart) (r : BitVec 3) (v : Word) : (h.wm r v).writes = h.writes := by unfold Hart.wm; split <;> rfl
@[simp] theorem Hart.wm_dtlb (h : Hart) (r : BitVec 3) (v : Word) : (h.wm r v).dtlb = h.dtlb := by unfold Hart.wm; split <;> rfl
@[simp] theorem Hart.wm_itlb (h : Hart) (r : BitVec 3) (v : Word) : (h.wm r v).itlb = h.itlb := by unfold Hart.wm; split <;> rfl
@[simp] theorem Hart.wm_binds (h : Hart) (r : BitVec 3) (v : Word) : (h.wm r v).binds = h.binds := by unfold Hart.wm; split <;> rfl
@[simp] theorem Hart.wm_copies (h : Hart) (r : BitVec 3) (v : Word) : (h.wm r v).copies = h.copies := by unfold Hart.wm; split <;> rfl
@[simp] theorem Hart.wm_run (h : Hart) (r : BitVec 3) (v : Word) : (h.wm r v).run = h.run := by unfold Hart.wm; split <;> rfl
@[simp] theorem Hart.wm_node (h : Hart) (r : BitVec 3) (v : Word) : (h.wm r v).node = h.node := by unfold Hart.wm; split <;> rfl
@[simp] theorem Hart.wm_acq (h : Hart) (r : BitVec 3) (v : Word) : (h.wm r v).acq = h.acq := by unfold Hart.wm; split <;> rfl
@[simp] theorem Hart.wm_perfAt (h : Hart) (r : BitVec 3) (v : Word) : (h.wm r v).perfAt = h.perfAt := by unfold Hart.wm; split <;> rfl
@[simp] theorem Hart.wm_cycle (h : Hart) (r : BitVec 3) (v : Word) : (h.wm r v).cycle = h.cycle := by unfold Hart.wm; split <;> rfl
@[simp] theorem Hart.wm_idleSince (h : Hart) (r : BitVec 3) (v : Word) : (h.wm r v).idleSince = h.idleSince := by unfold Hart.wm; split <;> rfl
@[simp] theorem Hart.wm_gstopEret (h : Hart) (r : BitVec 3) (v : Word) : (h.wm r v).gstopEret = h.gstopEret := by unfold Hart.wm; split <;> rfl
@[simp] theorem Hart.wm_back (h : Hart) (r : BitVec 3) (v : Word) : (h.wm r v).back = h.back := by unfold Hart.wm; split <;> rfl
@[simp] theorem Hart.wm_recInfo (h : Hart) (r : BitVec 3) (v : Word) : (h.wm r v).recInfo = h.recInfo := by unfold Hart.wm; split <;> rfl
@[simp] theorem Hart.wm_holdTo (h : Hart) (r : BitVec 3) (v : Word) : (h.wm r v).holdTo = h.holdTo := by unfold Hart.wm; split <;> rfl
@[simp] theorem Hart.wm_recalled (h : Hart) (r : BitVec 3) (v : Word) : (h.wm r v).recalled = h.recalled := by unfold Hart.wm; split <;> rfl
/-- What reading a mask register gives after a write: m0 keeps nothing. -/
theorem Hart.rm_wm (h : Hart) (d r : BitVec 3) (v : Word) : (h.wm d v).rm r = if r = d ∧ r ≠ 0 then v else h.rm r := by
  by_cases hr : r = 0
  · rw [if_neg (fun q => q.2 hr)]; unfold Hart.rm; rw [if_pos hr, if_pos hr]
  · by_cases hd : d = 0
    · rw [if_neg (fun q => hr (q.1.trans hd))]; unfold Hart.wm; rw [if_pos hd]
    · unfold Hart.rm Hart.wm
      rw [if_neg hr, if_neg hr, if_neg hd]
      by_cases e : r = d
      · subst e; rw [if_pos ⟨rfl, hr⟩]; exact Vector.getElem_set_self ..
      · rw [if_neg (fun q => e q.1)]
        exact Vector.getElem_set_ne (by have := d.isLt; omega) _ (fun q => e (BitVec.eq_of_toNat_eq q.symm))
/-- A write of a mask register touches the masks alone. -/
theorem Hart.wm_eq (h : Hart) (r : BitVec 3) (v : Word) : h.wm r v = { h with k := (h.wm r v).k } := by
  unfold Hart.wm; split <;> rfl

@[simp] theorem Hart.wox_num (h : Hart) (r : BitVec 3) (v : Word) : (h.wox r v).num = h.num := rfl
@[simp] theorem Hart.wox_level (h : Hart) (r : BitVec 3) (v : Word) : (h.wox r v).level = h.level := rfl
@[simp] theorem Hart.wox_pc (h : Hart) (r : BitVec 3) (v : Word) : (h.wox r v).pc = h.pc := rfl
@[simp] theorem Hart.wox_x (h : Hart) (r : BitVec 3) (v : Word) : (h.wox r v).x = h.x := rfl
@[simp] theorem Hart.wox_v (h : Hart) (r : BitVec 3) (v : Word) : (h.wox r v).v = h.v := rfl
@[simp] theorem Hart.wox_k (h : Hart) (r : BitVec 3) (v : Word) : (h.wox r v).k = h.k := rfl
@[simp] theorem Hart.wox_sp (h : Hart) (r : BitVec 3) (v : Word) : (h.wox r v).sp = h.sp := rfl
@[simp] theorem Hart.wox_bankU (h : Hart) (r : BitVec 3) (v : Word) : (h.wox r v).bankU = h.bankU := rfl
@[simp] theorem Hart.wox_bankS (h : Hart) (r : BitVec 3) (v : Word) : (h.wox r v).bankS = h.bankS := rfl
@[simp] theorem Hart.wox_bankM (h : Hart) (r : BitVec 3) (v : Word) : (h.wox r v).bankM = h.bankM := rfl
@[simp] theorem Hart.wox_deleg (h : Hart) (r : BitVec 3) (v : Word) : (h.wox r v).deleg = h.deleg := rfl
@[simp] theorem Hart.wox_irqs (h : Hart) (r : BitVec 3) (v : Word) : (h.wox r v).irqs = h.irqs := rfl
@[simp] theorem Hart.wox_fxRound (h : Hart) (r : BitVec 3) (v : Word) : (h.wox r v).fxRound = h.fxRound := rfl
@[simp] theorem Hart.wox_fxFlags (h : Hart) (r : BitVec 3) (v : Word) : (h.wox r v).fxFlags = h.fxFlags := rfl
@[simp] theorem Hart.wox_srSrc (h : Hart) (r : BitVec 3) (v : Word) : (h.wox r v).srSrc = h.srSrc := rfl
@[simp] theorem Hart.wox_srLost (h : Hart) (r : BitVec 3) (v : Word) : (h.wox r v).srLost = h.srLost := rfl
@[simp] theorem Hart.wox_srStep (h : Hart) (r : BitVec 3) (v : Word) : (h.wox r v).srStep = h.srStep := rfl
@[simp] theorem Hart.wox_logb (h : Hart) (r : BitVec 3) (v : Word) : (h.wox r v).logb = h.logb := rfl
@[simp] theorem Hart.wox_logn (h : Hart) (r : BitVec 3) (v : Word) : (h.wox r v).logn = h.logn := rfl
@[simp] theorem Hart.wox_logp (h : Hart) (r : BitVec 3) (v : Word) : (h.wox r v).logp = h.logp := rfl
@[simp] theorem Hart.wox_scout (h : Hart) (r : BitVec 3) (v : Word) : (h.wox r v).scout = h.scout := rfl
@[simp] theorem Hart.wox_fcnt (h : Hart) (r : BitVec 3) (v : Word) : (h.wox r v).fcnt = h.fcnt := rfl
@[simp] theorem Hart.wox_scnt (h : Hart) (r : BitVec 3) (v : Word) : (h.wox r v).scnt = h.scnt := rfl
@[simp] theorem Hart.wox_cfg (h : Hart) (r : BitVec 3) (v : Word) : (h.wox r v).cfg = h.cfg := rfl
@[simp] theorem Hart.wox_engErr (h : Hart) (r : BitVec 3) (v : Word) : (h.wox r v).engErr = h.engErr := rfl
@[simp] theorem Hart.wox_cmds (h : Hart) (r : BitVec 3) (v : Word) : (h.wox r v).cmds = h.cmds := rfl
@[simp] theorem Hart.wox_msOvf (h : Hart) (r : BitVec 3) (v : Word) : (h.wox r v).msOvf = h.msOvf := rfl
@[simp] theorem Hart.wox_msPend (h : Hart) (r : BitVec 3) (v : Word) : (h.wox r v).msPend = h.msPend := rfl
@[simp] theorem Hart.wox_msLost (h : Hart) (r : BitVec 3) (v : Word) : (h.wox r v).msLost = h.msLost := rfl
@[simp] theorem Hart.wox_posts (h : Hart) (r : BitVec 3) (v : Word) : (h.wox r v).posts = h.posts := rfl
@[simp] theorem Hart.wox_ovfq (h : Hart) (r : BitVec 3) (v : Word) : (h.wox r v).ovfq = h.ovfq := rfl
@[simp] theorem Hart.wox_gwRid (h : Hart) (r : BitVec 3) (v : Word) : (h.wox r v).gwRid = h.gwRid := rfl
@[simp] theorem Hart.wox_gwNext (h : Hart) (r : BitVec 3) (v : Word) : (h.wox r v).gwNext = h.gwNext := rfl
@[simp] theorem Hart.wox_duty (h : Hart) (r : BitVec 3) (v : Word) : (h.wox r v).duty = h.duty := rfl
@[simp] theorem Hart.wox_req (h : Hart) (r : BitVec 3) (v : Word) : (h.wox r v).req = h.req := rfl
@[simp] theorem Hart.wox_rcnt (h : Hart) (r : BitVec 3) (v : Word) : (h.wox r v).rcnt = h.rcnt := rfl
@[simp] theorem Hart.wox_icnt (h : Hart) (r : BitVec 3) (v : Word) : (h.wox r v).icnt = h.icnt := rfl
@[simp] theorem Hart.wox_msent (h : Hart) (r : BitVec 3) (v : Word) : (h.wox r v).msent = h.msent := rfl
@[simp] theorem Hart.wox_mrecv (h : Hart) (r : BitVec 3) (v : Word) : (h.wox r v).mrecv = h.mrecv := rfl
@[simp] theorem Hart.wox_ops (h : Hart) (r : BitVec 3) (v : Word) : (h.wox r v).ops = h.ops := rfl
@[simp] theorem Hart.wox_rets (h : Hart) (r : BitVec 3) (v : Word) : (h.wox r v).rets = h.rets := rfl
@[simp] theorem Hart.wox_faults (h : Hart) (r : BitVec 3) (v : Word) : (h.wox r v).faults = h.faults := rfl
@[simp] theorem Hart.wox_nextOp (h : Hart) (r : BitVec 3) (v : Word) : (h.wox r v).nextOp = h.nextOp := rfl
@[simp] theorem Hart.wox_comb (h : Hart) (r : BitVec 3) (v : Word) : (h.wox r v).comb = h.comb := rfl
@[simp] theorem Hart.wox_writes (h : Hart) (r : BitVec 3) (v : Word) : (h.wox r v).writes = h.writes := rfl
@[simp] theorem Hart.wox_dtlb (h : Hart) (r : BitVec 3) (v : Word) : (h.wox r v).dtlb = h.dtlb := rfl
@[simp] theorem Hart.wox_itlb (h : Hart) (r : BitVec 3) (v : Word) : (h.wox r v).itlb = h.itlb := rfl
@[simp] theorem Hart.wox_binds (h : Hart) (r : BitVec 3) (v : Word) : (h.wox r v).binds = h.binds := rfl
@[simp] theorem Hart.wox_copies (h : Hart) (r : BitVec 3) (v : Word) : (h.wox r v).copies = h.copies := rfl
@[simp] theorem Hart.wox_run (h : Hart) (r : BitVec 3) (v : Word) : (h.wox r v).run = h.run := rfl
@[simp] theorem Hart.wox_node (h : Hart) (r : BitVec 3) (v : Word) : (h.wox r v).node = h.node := rfl
@[simp] theorem Hart.wox_acq (h : Hart) (r : BitVec 3) (v : Word) : (h.wox r v).acq = h.acq := rfl
@[simp] theorem Hart.wox_perfAt (h : Hart) (r : BitVec 3) (v : Word) : (h.wox r v).perfAt = h.perfAt := rfl
@[simp] theorem Hart.wox_cycle (h : Hart) (r : BitVec 3) (v : Word) : (h.wox r v).cycle = h.cycle := rfl
@[simp] theorem Hart.wox_idleSince (h : Hart) (r : BitVec 3) (v : Word) : (h.wox r v).idleSince = h.idleSince := rfl
@[simp] theorem Hart.wox_gstopEret (h : Hart) (r : BitVec 3) (v : Word) : (h.wox r v).gstopEret = h.gstopEret := rfl
@[simp] theorem Hart.wox_back (h : Hart) (r : BitVec 3) (v : Word) : (h.wox r v).back = h.back := rfl
@[simp] theorem Hart.wox_recInfo (h : Hart) (r : BitVec 3) (v : Word) : (h.wox r v).recInfo = h.recInfo := rfl
@[simp] theorem Hart.wox_holdTo (h : Hart) (r : BitVec 3) (v : Word) : (h.wox r v).holdTo = h.holdTo := rfl
@[simp] theorem Hart.wox_recalled (h : Hart) (r : BitVec 3) (v : Word) : (h.wox r v).recalled = h.recalled := rfl
/-- What reading an operand-extension register gives after a write. -/
theorem Hart.rox_wox (h : Hart) (d r : BitVec 3) (v : Word) : (h.wox d v).rox r = if r = d then v else h.rox r := by
  unfold Hart.rox Hart.wox
  by_cases e : r = d
  · subst e; simp
  · have : d.toNat ≠ r.toNat := fun q => e (BitVec.eq_of_toNat_eq q.symm)
    simp [e, Vector.getElem_set_ne, this]

/-! ### Spindles and bindings replaced -/

@[simp] theorem Hart.setSpin_num (h : Hart) (r : BitVec 3) (p : Spindle) : (h.setSpin r p).num = h.num := rfl
@[simp] theorem Hart.setSpin_level (h : Hart) (r : BitVec 3) (p : Spindle) : (h.setSpin r p).level = h.level := rfl
@[simp] theorem Hart.setSpin_pc (h : Hart) (r : BitVec 3) (p : Spindle) : (h.setSpin r p).pc = h.pc := rfl
@[simp] theorem Hart.setSpin_x (h : Hart) (r : BitVec 3) (p : Spindle) : (h.setSpin r p).x = h.x := rfl
@[simp] theorem Hart.setSpin_v (h : Hart) (r : BitVec 3) (p : Spindle) : (h.setSpin r p).v = h.v := rfl
@[simp] theorem Hart.setSpin_k (h : Hart) (r : BitVec 3) (p : Spindle) : (h.setSpin r p).k = h.k := rfl
@[simp] theorem Hart.setSpin_ox (h : Hart) (r : BitVec 3) (p : Spindle) : (h.setSpin r p).ox = h.ox := rfl
@[simp] theorem Hart.setSpin_bankU (h : Hart) (r : BitVec 3) (p : Spindle) : (h.setSpin r p).bankU = h.bankU := rfl
@[simp] theorem Hart.setSpin_bankS (h : Hart) (r : BitVec 3) (p : Spindle) : (h.setSpin r p).bankS = h.bankS := rfl
@[simp] theorem Hart.setSpin_bankM (h : Hart) (r : BitVec 3) (p : Spindle) : (h.setSpin r p).bankM = h.bankM := rfl
@[simp] theorem Hart.setSpin_deleg (h : Hart) (r : BitVec 3) (p : Spindle) : (h.setSpin r p).deleg = h.deleg := rfl
@[simp] theorem Hart.setSpin_irqs (h : Hart) (r : BitVec 3) (p : Spindle) : (h.setSpin r p).irqs = h.irqs := rfl
@[simp] theorem Hart.setSpin_fxRound (h : Hart) (r : BitVec 3) (p : Spindle) : (h.setSpin r p).fxRound = h.fxRound := rfl
@[simp] theorem Hart.setSpin_fxFlags (h : Hart) (r : BitVec 3) (p : Spindle) : (h.setSpin r p).fxFlags = h.fxFlags := rfl
@[simp] theorem Hart.setSpin_srSrc (h : Hart) (r : BitVec 3) (p : Spindle) : (h.setSpin r p).srSrc = h.srSrc := rfl
@[simp] theorem Hart.setSpin_srLost (h : Hart) (r : BitVec 3) (p : Spindle) : (h.setSpin r p).srLost = h.srLost := rfl
@[simp] theorem Hart.setSpin_srStep (h : Hart) (r : BitVec 3) (p : Spindle) : (h.setSpin r p).srStep = h.srStep := rfl
@[simp] theorem Hart.setSpin_logb (h : Hart) (r : BitVec 3) (p : Spindle) : (h.setSpin r p).logb = h.logb := rfl
@[simp] theorem Hart.setSpin_logn (h : Hart) (r : BitVec 3) (p : Spindle) : (h.setSpin r p).logn = h.logn := rfl
@[simp] theorem Hart.setSpin_logp (h : Hart) (r : BitVec 3) (p : Spindle) : (h.setSpin r p).logp = h.logp := rfl
@[simp] theorem Hart.setSpin_scout (h : Hart) (r : BitVec 3) (p : Spindle) : (h.setSpin r p).scout = h.scout := rfl
@[simp] theorem Hart.setSpin_fcnt (h : Hart) (r : BitVec 3) (p : Spindle) : (h.setSpin r p).fcnt = h.fcnt := rfl
@[simp] theorem Hart.setSpin_scnt (h : Hart) (r : BitVec 3) (p : Spindle) : (h.setSpin r p).scnt = h.scnt := rfl
@[simp] theorem Hart.setSpin_cfg (h : Hart) (r : BitVec 3) (p : Spindle) : (h.setSpin r p).cfg = h.cfg := rfl
@[simp] theorem Hart.setSpin_engErr (h : Hart) (r : BitVec 3) (p : Spindle) : (h.setSpin r p).engErr = h.engErr := rfl
@[simp] theorem Hart.setSpin_cmds (h : Hart) (r : BitVec 3) (p : Spindle) : (h.setSpin r p).cmds = h.cmds := rfl
@[simp] theorem Hart.setSpin_msOvf (h : Hart) (r : BitVec 3) (p : Spindle) : (h.setSpin r p).msOvf = h.msOvf := rfl
@[simp] theorem Hart.setSpin_msPend (h : Hart) (r : BitVec 3) (p : Spindle) : (h.setSpin r p).msPend = h.msPend := rfl
@[simp] theorem Hart.setSpin_msLost (h : Hart) (r : BitVec 3) (p : Spindle) : (h.setSpin r p).msLost = h.msLost := rfl
@[simp] theorem Hart.setSpin_posts (h : Hart) (r : BitVec 3) (p : Spindle) : (h.setSpin r p).posts = h.posts := rfl
@[simp] theorem Hart.setSpin_ovfq (h : Hart) (r : BitVec 3) (p : Spindle) : (h.setSpin r p).ovfq = h.ovfq := rfl
@[simp] theorem Hart.setSpin_gwRid (h : Hart) (r : BitVec 3) (p : Spindle) : (h.setSpin r p).gwRid = h.gwRid := rfl
@[simp] theorem Hart.setSpin_gwNext (h : Hart) (r : BitVec 3) (p : Spindle) : (h.setSpin r p).gwNext = h.gwNext := rfl
@[simp] theorem Hart.setSpin_duty (h : Hart) (r : BitVec 3) (p : Spindle) : (h.setSpin r p).duty = h.duty := rfl
@[simp] theorem Hart.setSpin_req (h : Hart) (r : BitVec 3) (p : Spindle) : (h.setSpin r p).req = h.req := rfl
@[simp] theorem Hart.setSpin_rcnt (h : Hart) (r : BitVec 3) (p : Spindle) : (h.setSpin r p).rcnt = h.rcnt := rfl
@[simp] theorem Hart.setSpin_icnt (h : Hart) (r : BitVec 3) (p : Spindle) : (h.setSpin r p).icnt = h.icnt := rfl
@[simp] theorem Hart.setSpin_msent (h : Hart) (r : BitVec 3) (p : Spindle) : (h.setSpin r p).msent = h.msent := rfl
@[simp] theorem Hart.setSpin_mrecv (h : Hart) (r : BitVec 3) (p : Spindle) : (h.setSpin r p).mrecv = h.mrecv := rfl
@[simp] theorem Hart.setSpin_ops (h : Hart) (r : BitVec 3) (p : Spindle) : (h.setSpin r p).ops = h.ops := rfl
@[simp] theorem Hart.setSpin_rets (h : Hart) (r : BitVec 3) (p : Spindle) : (h.setSpin r p).rets = h.rets := rfl
@[simp] theorem Hart.setSpin_faults (h : Hart) (r : BitVec 3) (p : Spindle) : (h.setSpin r p).faults = h.faults := rfl
@[simp] theorem Hart.setSpin_nextOp (h : Hart) (r : BitVec 3) (p : Spindle) : (h.setSpin r p).nextOp = h.nextOp := rfl
@[simp] theorem Hart.setSpin_comb (h : Hart) (r : BitVec 3) (p : Spindle) : (h.setSpin r p).comb = h.comb := rfl
@[simp] theorem Hart.setSpin_writes (h : Hart) (r : BitVec 3) (p : Spindle) : (h.setSpin r p).writes = h.writes := rfl
@[simp] theorem Hart.setSpin_dtlb (h : Hart) (r : BitVec 3) (p : Spindle) : (h.setSpin r p).dtlb = h.dtlb := rfl
@[simp] theorem Hart.setSpin_itlb (h : Hart) (r : BitVec 3) (p : Spindle) : (h.setSpin r p).itlb = h.itlb := rfl
@[simp] theorem Hart.setSpin_binds (h : Hart) (r : BitVec 3) (p : Spindle) : (h.setSpin r p).binds = h.binds := rfl
@[simp] theorem Hart.setSpin_copies (h : Hart) (r : BitVec 3) (p : Spindle) : (h.setSpin r p).copies = h.copies := rfl
@[simp] theorem Hart.setSpin_run (h : Hart) (r : BitVec 3) (p : Spindle) : (h.setSpin r p).run = h.run := rfl
@[simp] theorem Hart.setSpin_node (h : Hart) (r : BitVec 3) (p : Spindle) : (h.setSpin r p).node = h.node := rfl
@[simp] theorem Hart.setSpin_acq (h : Hart) (r : BitVec 3) (p : Spindle) : (h.setSpin r p).acq = h.acq := rfl
@[simp] theorem Hart.setSpin_perfAt (h : Hart) (r : BitVec 3) (p : Spindle) : (h.setSpin r p).perfAt = h.perfAt := rfl
@[simp] theorem Hart.setSpin_cycle (h : Hart) (r : BitVec 3) (p : Spindle) : (h.setSpin r p).cycle = h.cycle := rfl
@[simp] theorem Hart.setSpin_idleSince (h : Hart) (r : BitVec 3) (p : Spindle) : (h.setSpin r p).idleSince = h.idleSince := rfl
@[simp] theorem Hart.setSpin_gstopEret (h : Hart) (r : BitVec 3) (p : Spindle) : (h.setSpin r p).gstopEret = h.gstopEret := rfl
@[simp] theorem Hart.setSpin_back (h : Hart) (r : BitVec 3) (p : Spindle) : (h.setSpin r p).back = h.back := rfl
@[simp] theorem Hart.setSpin_recInfo (h : Hart) (r : BitVec 3) (p : Spindle) : (h.setSpin r p).recInfo = h.recInfo := rfl
@[simp] theorem Hart.setSpin_holdTo (h : Hart) (r : BitVec 3) (p : Spindle) : (h.setSpin r p).holdTo = h.holdTo := rfl
@[simp] theorem Hart.setSpin_recalled (h : Hart) (r : BitVec 3) (p : Spindle) : (h.setSpin r p).recalled = h.recalled := rfl
/-- What reading a spindle gives after a write. -/
theorem Hart.spin_setSpin (h : Hart) (d r : BitVec 3) (p : Spindle) : (h.setSpin d p).spin r = if r = d then p else h.spin r := by
  unfold Hart.spin Hart.setSpin
  by_cases e : r = d
  · subst e; simp
  · have : d.toNat ≠ r.toNat := fun q => e (BitVec.eq_of_toNat_eq q.symm)
    simp [e, Vector.getElem_set_ne, this]

@[simp] theorem Hart.setBind_num (h : Hart) (r : BitVec 3) (b : Option Binding) : (h.setBind r b).num = h.num := rfl
@[simp] theorem Hart.setBind_level (h : Hart) (r : BitVec 3) (b : Option Binding) : (h.setBind r b).level = h.level := rfl
@[simp] theorem Hart.setBind_pc (h : Hart) (r : BitVec 3) (b : Option Binding) : (h.setBind r b).pc = h.pc := rfl
@[simp] theorem Hart.setBind_x (h : Hart) (r : BitVec 3) (b : Option Binding) : (h.setBind r b).x = h.x := rfl
@[simp] theorem Hart.setBind_v (h : Hart) (r : BitVec 3) (b : Option Binding) : (h.setBind r b).v = h.v := rfl
@[simp] theorem Hart.setBind_k (h : Hart) (r : BitVec 3) (b : Option Binding) : (h.setBind r b).k = h.k := rfl
@[simp] theorem Hart.setBind_ox (h : Hart) (r : BitVec 3) (b : Option Binding) : (h.setBind r b).ox = h.ox := rfl
@[simp] theorem Hart.setBind_sp (h : Hart) (r : BitVec 3) (b : Option Binding) : (h.setBind r b).sp = h.sp := rfl
@[simp] theorem Hart.setBind_bankU (h : Hart) (r : BitVec 3) (b : Option Binding) : (h.setBind r b).bankU = h.bankU := rfl
@[simp] theorem Hart.setBind_bankS (h : Hart) (r : BitVec 3) (b : Option Binding) : (h.setBind r b).bankS = h.bankS := rfl
@[simp] theorem Hart.setBind_bankM (h : Hart) (r : BitVec 3) (b : Option Binding) : (h.setBind r b).bankM = h.bankM := rfl
@[simp] theorem Hart.setBind_deleg (h : Hart) (r : BitVec 3) (b : Option Binding) : (h.setBind r b).deleg = h.deleg := rfl
@[simp] theorem Hart.setBind_irqs (h : Hart) (r : BitVec 3) (b : Option Binding) : (h.setBind r b).irqs = h.irqs := rfl
@[simp] theorem Hart.setBind_fxRound (h : Hart) (r : BitVec 3) (b : Option Binding) : (h.setBind r b).fxRound = h.fxRound := rfl
@[simp] theorem Hart.setBind_fxFlags (h : Hart) (r : BitVec 3) (b : Option Binding) : (h.setBind r b).fxFlags = h.fxFlags := rfl
@[simp] theorem Hart.setBind_srSrc (h : Hart) (r : BitVec 3) (b : Option Binding) : (h.setBind r b).srSrc = h.srSrc := rfl
@[simp] theorem Hart.setBind_srLost (h : Hart) (r : BitVec 3) (b : Option Binding) : (h.setBind r b).srLost = h.srLost := rfl
@[simp] theorem Hart.setBind_srStep (h : Hart) (r : BitVec 3) (b : Option Binding) : (h.setBind r b).srStep = h.srStep := rfl
@[simp] theorem Hart.setBind_logb (h : Hart) (r : BitVec 3) (b : Option Binding) : (h.setBind r b).logb = h.logb := rfl
@[simp] theorem Hart.setBind_logn (h : Hart) (r : BitVec 3) (b : Option Binding) : (h.setBind r b).logn = h.logn := rfl
@[simp] theorem Hart.setBind_logp (h : Hart) (r : BitVec 3) (b : Option Binding) : (h.setBind r b).logp = h.logp := rfl
@[simp] theorem Hart.setBind_scout (h : Hart) (r : BitVec 3) (b : Option Binding) : (h.setBind r b).scout = h.scout := rfl
@[simp] theorem Hart.setBind_fcnt (h : Hart) (r : BitVec 3) (b : Option Binding) : (h.setBind r b).fcnt = h.fcnt := rfl
@[simp] theorem Hart.setBind_scnt (h : Hart) (r : BitVec 3) (b : Option Binding) : (h.setBind r b).scnt = h.scnt := rfl
@[simp] theorem Hart.setBind_cfg (h : Hart) (r : BitVec 3) (b : Option Binding) : (h.setBind r b).cfg = h.cfg := rfl
@[simp] theorem Hart.setBind_engErr (h : Hart) (r : BitVec 3) (b : Option Binding) : (h.setBind r b).engErr = h.engErr := rfl
@[simp] theorem Hart.setBind_cmds (h : Hart) (r : BitVec 3) (b : Option Binding) : (h.setBind r b).cmds = h.cmds := rfl
@[simp] theorem Hart.setBind_msOvf (h : Hart) (r : BitVec 3) (b : Option Binding) : (h.setBind r b).msOvf = h.msOvf := rfl
@[simp] theorem Hart.setBind_msPend (h : Hart) (r : BitVec 3) (b : Option Binding) : (h.setBind r b).msPend = h.msPend := rfl
@[simp] theorem Hart.setBind_msLost (h : Hart) (r : BitVec 3) (b : Option Binding) : (h.setBind r b).msLost = h.msLost := rfl
@[simp] theorem Hart.setBind_posts (h : Hart) (r : BitVec 3) (b : Option Binding) : (h.setBind r b).posts = h.posts := rfl
@[simp] theorem Hart.setBind_ovfq (h : Hart) (r : BitVec 3) (b : Option Binding) : (h.setBind r b).ovfq = h.ovfq := rfl
@[simp] theorem Hart.setBind_gwRid (h : Hart) (r : BitVec 3) (b : Option Binding) : (h.setBind r b).gwRid = h.gwRid := rfl
@[simp] theorem Hart.setBind_gwNext (h : Hart) (r : BitVec 3) (b : Option Binding) : (h.setBind r b).gwNext = h.gwNext := rfl
@[simp] theorem Hart.setBind_duty (h : Hart) (r : BitVec 3) (b : Option Binding) : (h.setBind r b).duty = h.duty := rfl
@[simp] theorem Hart.setBind_req (h : Hart) (r : BitVec 3) (b : Option Binding) : (h.setBind r b).req = h.req := rfl
@[simp] theorem Hart.setBind_rcnt (h : Hart) (r : BitVec 3) (b : Option Binding) : (h.setBind r b).rcnt = h.rcnt := rfl
@[simp] theorem Hart.setBind_icnt (h : Hart) (r : BitVec 3) (b : Option Binding) : (h.setBind r b).icnt = h.icnt := rfl
@[simp] theorem Hart.setBind_msent (h : Hart) (r : BitVec 3) (b : Option Binding) : (h.setBind r b).msent = h.msent := rfl
@[simp] theorem Hart.setBind_mrecv (h : Hart) (r : BitVec 3) (b : Option Binding) : (h.setBind r b).mrecv = h.mrecv := rfl
@[simp] theorem Hart.setBind_ops (h : Hart) (r : BitVec 3) (b : Option Binding) : (h.setBind r b).ops = h.ops := rfl
@[simp] theorem Hart.setBind_rets (h : Hart) (r : BitVec 3) (b : Option Binding) : (h.setBind r b).rets = h.rets := rfl
@[simp] theorem Hart.setBind_faults (h : Hart) (r : BitVec 3) (b : Option Binding) : (h.setBind r b).faults = h.faults := rfl
@[simp] theorem Hart.setBind_nextOp (h : Hart) (r : BitVec 3) (b : Option Binding) : (h.setBind r b).nextOp = h.nextOp := rfl
@[simp] theorem Hart.setBind_comb (h : Hart) (r : BitVec 3) (b : Option Binding) : (h.setBind r b).comb = h.comb := rfl
@[simp] theorem Hart.setBind_writes (h : Hart) (r : BitVec 3) (b : Option Binding) : (h.setBind r b).writes = h.writes := rfl
@[simp] theorem Hart.setBind_dtlb (h : Hart) (r : BitVec 3) (b : Option Binding) : (h.setBind r b).dtlb = h.dtlb := rfl
@[simp] theorem Hart.setBind_itlb (h : Hart) (r : BitVec 3) (b : Option Binding) : (h.setBind r b).itlb = h.itlb := rfl
@[simp] theorem Hart.setBind_copies (h : Hart) (r : BitVec 3) (b : Option Binding) : (h.setBind r b).copies = h.copies := rfl
@[simp] theorem Hart.setBind_run (h : Hart) (r : BitVec 3) (b : Option Binding) : (h.setBind r b).run = h.run := rfl
@[simp] theorem Hart.setBind_node (h : Hart) (r : BitVec 3) (b : Option Binding) : (h.setBind r b).node = h.node := rfl
@[simp] theorem Hart.setBind_acq (h : Hart) (r : BitVec 3) (b : Option Binding) : (h.setBind r b).acq = h.acq := rfl
@[simp] theorem Hart.setBind_perfAt (h : Hart) (r : BitVec 3) (b : Option Binding) : (h.setBind r b).perfAt = h.perfAt := rfl
@[simp] theorem Hart.setBind_cycle (h : Hart) (r : BitVec 3) (b : Option Binding) : (h.setBind r b).cycle = h.cycle := rfl
@[simp] theorem Hart.setBind_idleSince (h : Hart) (r : BitVec 3) (b : Option Binding) : (h.setBind r b).idleSince = h.idleSince := rfl
@[simp] theorem Hart.setBind_gstopEret (h : Hart) (r : BitVec 3) (b : Option Binding) : (h.setBind r b).gstopEret = h.gstopEret := rfl
@[simp] theorem Hart.setBind_back (h : Hart) (r : BitVec 3) (b : Option Binding) : (h.setBind r b).back = h.back := rfl
@[simp] theorem Hart.setBind_recInfo (h : Hart) (r : BitVec 3) (b : Option Binding) : (h.setBind r b).recInfo = h.recInfo := rfl
@[simp] theorem Hart.setBind_holdTo (h : Hart) (r : BitVec 3) (b : Option Binding) : (h.setBind r b).holdTo = h.holdTo := rfl
@[simp] theorem Hart.setBind_recalled (h : Hart) (r : BitVec 3) (b : Option Binding) : (h.setBind r b).recalled = h.recalled := rfl
/-- What reading a binding gives after a write. -/
theorem Hart.bind_setBind (h : Hart) (d r : BitVec 3) (b : Option Binding) : (h.setBind d b).bind r = if r = d then b else h.bind r := by
  unfold Hart.bind Hart.setBind
  by_cases e : r = d
  · subst e; simp
  · have : d.toNat ≠ r.toNat := fun q => e (BitVec.eq_of_toNat_eq q.symm)
    simp [e, Vector.getElem_set_ne, this]

/-! ### A trap bank replaced (R396) -/

@[simp] theorem Hart.setBank_num (h : Hart) (l : Level) (b : TrapBank) : (h.setBank l b).num = h.num := by cases l <;> rfl
@[simp] theorem Hart.setBank_level (h : Hart) (l : Level) (b : TrapBank) : (h.setBank l b).level = h.level := by cases l <;> rfl
@[simp] theorem Hart.setBank_pc (h : Hart) (l : Level) (b : TrapBank) : (h.setBank l b).pc = h.pc := by cases l <;> rfl
@[simp] theorem Hart.setBank_x (h : Hart) (l : Level) (b : TrapBank) : (h.setBank l b).x = h.x := by cases l <;> rfl
@[simp] theorem Hart.setBank_v (h : Hart) (l : Level) (b : TrapBank) : (h.setBank l b).v = h.v := by cases l <;> rfl
@[simp] theorem Hart.setBank_k (h : Hart) (l : Level) (b : TrapBank) : (h.setBank l b).k = h.k := by cases l <;> rfl
@[simp] theorem Hart.setBank_ox (h : Hart) (l : Level) (b : TrapBank) : (h.setBank l b).ox = h.ox := by cases l <;> rfl
@[simp] theorem Hart.setBank_sp (h : Hart) (l : Level) (b : TrapBank) : (h.setBank l b).sp = h.sp := by cases l <;> rfl
@[simp] theorem Hart.setBank_deleg (h : Hart) (l : Level) (b : TrapBank) : (h.setBank l b).deleg = h.deleg := by cases l <;> rfl
@[simp] theorem Hart.setBank_irqs (h : Hart) (l : Level) (b : TrapBank) : (h.setBank l b).irqs = h.irqs := by cases l <;> rfl
@[simp] theorem Hart.setBank_fxRound (h : Hart) (l : Level) (b : TrapBank) : (h.setBank l b).fxRound = h.fxRound := by cases l <;> rfl
@[simp] theorem Hart.setBank_fxFlags (h : Hart) (l : Level) (b : TrapBank) : (h.setBank l b).fxFlags = h.fxFlags := by cases l <;> rfl
@[simp] theorem Hart.setBank_srSrc (h : Hart) (l : Level) (b : TrapBank) : (h.setBank l b).srSrc = h.srSrc := by cases l <;> rfl
@[simp] theorem Hart.setBank_srLost (h : Hart) (l : Level) (b : TrapBank) : (h.setBank l b).srLost = h.srLost := by cases l <;> rfl
@[simp] theorem Hart.setBank_srStep (h : Hart) (l : Level) (b : TrapBank) : (h.setBank l b).srStep = h.srStep := by cases l <;> rfl
@[simp] theorem Hart.setBank_logb (h : Hart) (l : Level) (b : TrapBank) : (h.setBank l b).logb = h.logb := by cases l <;> rfl
@[simp] theorem Hart.setBank_logn (h : Hart) (l : Level) (b : TrapBank) : (h.setBank l b).logn = h.logn := by cases l <;> rfl
@[simp] theorem Hart.setBank_logp (h : Hart) (l : Level) (b : TrapBank) : (h.setBank l b).logp = h.logp := by cases l <;> rfl
@[simp] theorem Hart.setBank_scout (h : Hart) (l : Level) (b : TrapBank) : (h.setBank l b).scout = h.scout := by cases l <;> rfl
@[simp] theorem Hart.setBank_fcnt (h : Hart) (l : Level) (b : TrapBank) : (h.setBank l b).fcnt = h.fcnt := by cases l <;> rfl
@[simp] theorem Hart.setBank_scnt (h : Hart) (l : Level) (b : TrapBank) : (h.setBank l b).scnt = h.scnt := by cases l <;> rfl
@[simp] theorem Hart.setBank_cfg (h : Hart) (l : Level) (b : TrapBank) : (h.setBank l b).cfg = h.cfg := by cases l <;> rfl
@[simp] theorem Hart.setBank_engErr (h : Hart) (l : Level) (b : TrapBank) : (h.setBank l b).engErr = h.engErr := by cases l <;> rfl
@[simp] theorem Hart.setBank_cmds (h : Hart) (l : Level) (b : TrapBank) : (h.setBank l b).cmds = h.cmds := by cases l <;> rfl
@[simp] theorem Hart.setBank_msOvf (h : Hart) (l : Level) (b : TrapBank) : (h.setBank l b).msOvf = h.msOvf := by cases l <;> rfl
@[simp] theorem Hart.setBank_msPend (h : Hart) (l : Level) (b : TrapBank) : (h.setBank l b).msPend = h.msPend := by cases l <;> rfl
@[simp] theorem Hart.setBank_msLost (h : Hart) (l : Level) (b : TrapBank) : (h.setBank l b).msLost = h.msLost := by cases l <;> rfl
@[simp] theorem Hart.setBank_posts (h : Hart) (l : Level) (b : TrapBank) : (h.setBank l b).posts = h.posts := by cases l <;> rfl
@[simp] theorem Hart.setBank_ovfq (h : Hart) (l : Level) (b : TrapBank) : (h.setBank l b).ovfq = h.ovfq := by cases l <;> rfl
@[simp] theorem Hart.setBank_gwRid (h : Hart) (l : Level) (b : TrapBank) : (h.setBank l b).gwRid = h.gwRid := by cases l <;> rfl
@[simp] theorem Hart.setBank_gwNext (h : Hart) (l : Level) (b : TrapBank) : (h.setBank l b).gwNext = h.gwNext := by cases l <;> rfl
@[simp] theorem Hart.setBank_duty (h : Hart) (l : Level) (b : TrapBank) : (h.setBank l b).duty = h.duty := by cases l <;> rfl
@[simp] theorem Hart.setBank_req (h : Hart) (l : Level) (b : TrapBank) : (h.setBank l b).req = h.req := by cases l <;> rfl
@[simp] theorem Hart.setBank_rcnt (h : Hart) (l : Level) (b : TrapBank) : (h.setBank l b).rcnt = h.rcnt := by cases l <;> rfl
@[simp] theorem Hart.setBank_icnt (h : Hart) (l : Level) (b : TrapBank) : (h.setBank l b).icnt = h.icnt := by cases l <;> rfl
@[simp] theorem Hart.setBank_msent (h : Hart) (l : Level) (b : TrapBank) : (h.setBank l b).msent = h.msent := by cases l <;> rfl
@[simp] theorem Hart.setBank_mrecv (h : Hart) (l : Level) (b : TrapBank) : (h.setBank l b).mrecv = h.mrecv := by cases l <;> rfl
@[simp] theorem Hart.setBank_ops (h : Hart) (l : Level) (b : TrapBank) : (h.setBank l b).ops = h.ops := by cases l <;> rfl
@[simp] theorem Hart.setBank_rets (h : Hart) (l : Level) (b : TrapBank) : (h.setBank l b).rets = h.rets := by cases l <;> rfl
@[simp] theorem Hart.setBank_faults (h : Hart) (l : Level) (b : TrapBank) : (h.setBank l b).faults = h.faults := by cases l <;> rfl
@[simp] theorem Hart.setBank_nextOp (h : Hart) (l : Level) (b : TrapBank) : (h.setBank l b).nextOp = h.nextOp := by cases l <;> rfl
@[simp] theorem Hart.setBank_comb (h : Hart) (l : Level) (b : TrapBank) : (h.setBank l b).comb = h.comb := by cases l <;> rfl
@[simp] theorem Hart.setBank_writes (h : Hart) (l : Level) (b : TrapBank) : (h.setBank l b).writes = h.writes := by cases l <;> rfl
@[simp] theorem Hart.setBank_dtlb (h : Hart) (l : Level) (b : TrapBank) : (h.setBank l b).dtlb = h.dtlb := by cases l <;> rfl
@[simp] theorem Hart.setBank_itlb (h : Hart) (l : Level) (b : TrapBank) : (h.setBank l b).itlb = h.itlb := by cases l <;> rfl
@[simp] theorem Hart.setBank_binds (h : Hart) (l : Level) (b : TrapBank) : (h.setBank l b).binds = h.binds := by cases l <;> rfl
@[simp] theorem Hart.setBank_copies (h : Hart) (l : Level) (b : TrapBank) : (h.setBank l b).copies = h.copies := by cases l <;> rfl
@[simp] theorem Hart.setBank_run (h : Hart) (l : Level) (b : TrapBank) : (h.setBank l b).run = h.run := by cases l <;> rfl
@[simp] theorem Hart.setBank_node (h : Hart) (l : Level) (b : TrapBank) : (h.setBank l b).node = h.node := by cases l <;> rfl
@[simp] theorem Hart.setBank_acq (h : Hart) (l : Level) (b : TrapBank) : (h.setBank l b).acq = h.acq := by cases l <;> rfl
@[simp] theorem Hart.setBank_perfAt (h : Hart) (l : Level) (b : TrapBank) : (h.setBank l b).perfAt = h.perfAt := by cases l <;> rfl
@[simp] theorem Hart.setBank_cycle (h : Hart) (l : Level) (b : TrapBank) : (h.setBank l b).cycle = h.cycle := by cases l <;> rfl
@[simp] theorem Hart.setBank_idleSince (h : Hart) (l : Level) (b : TrapBank) : (h.setBank l b).idleSince = h.idleSince := by cases l <;> rfl
@[simp] theorem Hart.setBank_gstopEret (h : Hart) (l : Level) (b : TrapBank) : (h.setBank l b).gstopEret = h.gstopEret := by cases l <;> rfl
@[simp] theorem Hart.setBank_back (h : Hart) (l : Level) (b : TrapBank) : (h.setBank l b).back = h.back := by cases l <;> rfl
@[simp] theorem Hart.setBank_recInfo (h : Hart) (l : Level) (b : TrapBank) : (h.setBank l b).recInfo = h.recInfo := by cases l <;> rfl
@[simp] theorem Hart.setBank_holdTo (h : Hart) (l : Level) (b : TrapBank) : (h.setBank l b).holdTo = h.holdTo := by cases l <;> rfl
@[simp] theorem Hart.setBank_recalled (h : Hart) (l : Level) (b : TrapBank) : (h.setBank l b).recalled = h.recalled := by cases l <;> rfl
/-- What reading a bank gives after a write. -/
theorem Hart.bank_setBank (h : Hart) (l k : Level) (b : TrapBank) : (h.setBank l b).bank k = if k = l then b else h.bank k := by
  cases l <;> cases k <;> rfl

/-! ### The end of an instruction (R68, R409) -/

/-- The end of an instruction: the pc, the park of a marked word and the two counts, and nothing else. -/
theorem Hart.retire_eq (h : Hart) (pc : Word) (m : Bool) :
    h.retire pc m = { h with
      pc := pc
      run := if m = true ∧ (h.outstanding ≠ 0 ∨ h.faults ≠ []) then .parked else .running
      cycle := h.cycle + 1
      icnt := if h.level = .M then h.icnt else h.icnt + 1 } := by
  unfold Hart.retire Hart.parkIf
  dsimp only
  generalize hn : (if h.level = Level.M then h.icnt else h.icnt + 1) = n
  have e : Hart.outstanding { h with pc := pc, run := .running, cycle := h.cycle + 1, icnt := n } = h.outstanding := rfl
  rw [e]
  by_cases c : m = true ∧ (h.outstanding ≠ 0 ∨ h.faults ≠ [])
  · rw [if_pos c, if_pos]
    obtain ⟨rfl, c⟩ := c
    rcases c with c | c
    · simp [Nat.pos_of_ne_zero c]
    · simp [c]
  · rw [if_neg c, if_neg]
    intro q
    apply c
    simp only [Bool.and_eq_true, Bool.or_eq_true, decide_eq_true_eq, Bool.not_eq_true', List.isEmpty_eq_false_iff] at q
    exact ⟨q.1, q.2.imp Nat.pos_iff_ne_zero.mp id⟩

@[simp] theorem Hart.retire_num (h : Hart) (pc : Word) (m : Bool) : (h.retire pc m).num = h.num := by rw [Hart.retire_eq]
@[simp] theorem Hart.retire_level (h : Hart) (pc : Word) (m : Bool) : (h.retire pc m).level = h.level := by rw [Hart.retire_eq]
@[simp] theorem Hart.retire_x (h : Hart) (pc : Word) (m : Bool) : (h.retire pc m).x = h.x := by rw [Hart.retire_eq]
@[simp] theorem Hart.retire_v (h : Hart) (pc : Word) (m : Bool) : (h.retire pc m).v = h.v := by rw [Hart.retire_eq]
@[simp] theorem Hart.retire_k (h : Hart) (pc : Word) (m : Bool) : (h.retire pc m).k = h.k := by rw [Hart.retire_eq]
@[simp] theorem Hart.retire_ox (h : Hart) (pc : Word) (m : Bool) : (h.retire pc m).ox = h.ox := by rw [Hart.retire_eq]
@[simp] theorem Hart.retire_sp (h : Hart) (pc : Word) (m : Bool) : (h.retire pc m).sp = h.sp := by rw [Hart.retire_eq]
@[simp] theorem Hart.retire_bankU (h : Hart) (pc : Word) (m : Bool) : (h.retire pc m).bankU = h.bankU := by rw [Hart.retire_eq]
@[simp] theorem Hart.retire_bankS (h : Hart) (pc : Word) (m : Bool) : (h.retire pc m).bankS = h.bankS := by rw [Hart.retire_eq]
@[simp] theorem Hart.retire_bankM (h : Hart) (pc : Word) (m : Bool) : (h.retire pc m).bankM = h.bankM := by rw [Hart.retire_eq]
@[simp] theorem Hart.retire_deleg (h : Hart) (pc : Word) (m : Bool) : (h.retire pc m).deleg = h.deleg := by rw [Hart.retire_eq]
@[simp] theorem Hart.retire_irqs (h : Hart) (pc : Word) (m : Bool) : (h.retire pc m).irqs = h.irqs := by rw [Hart.retire_eq]
@[simp] theorem Hart.retire_fxRound (h : Hart) (pc : Word) (m : Bool) : (h.retire pc m).fxRound = h.fxRound := by rw [Hart.retire_eq]
@[simp] theorem Hart.retire_fxFlags (h : Hart) (pc : Word) (m : Bool) : (h.retire pc m).fxFlags = h.fxFlags := by rw [Hart.retire_eq]
@[simp] theorem Hart.retire_srSrc (h : Hart) (pc : Word) (m : Bool) : (h.retire pc m).srSrc = h.srSrc := by rw [Hart.retire_eq]
@[simp] theorem Hart.retire_srLost (h : Hart) (pc : Word) (m : Bool) : (h.retire pc m).srLost = h.srLost := by rw [Hart.retire_eq]
@[simp] theorem Hart.retire_srStep (h : Hart) (pc : Word) (m : Bool) : (h.retire pc m).srStep = h.srStep := by rw [Hart.retire_eq]
@[simp] theorem Hart.retire_logb (h : Hart) (pc : Word) (m : Bool) : (h.retire pc m).logb = h.logb := by rw [Hart.retire_eq]
@[simp] theorem Hart.retire_logn (h : Hart) (pc : Word) (m : Bool) : (h.retire pc m).logn = h.logn := by rw [Hart.retire_eq]
@[simp] theorem Hart.retire_logp (h : Hart) (pc : Word) (m : Bool) : (h.retire pc m).logp = h.logp := by rw [Hart.retire_eq]
@[simp] theorem Hart.retire_scout (h : Hart) (pc : Word) (m : Bool) : (h.retire pc m).scout = h.scout := by rw [Hart.retire_eq]
@[simp] theorem Hart.retire_fcnt (h : Hart) (pc : Word) (m : Bool) : (h.retire pc m).fcnt = h.fcnt := by rw [Hart.retire_eq]
@[simp] theorem Hart.retire_scnt (h : Hart) (pc : Word) (m : Bool) : (h.retire pc m).scnt = h.scnt := by rw [Hart.retire_eq]
@[simp] theorem Hart.retire_cfg (h : Hart) (pc : Word) (m : Bool) : (h.retire pc m).cfg = h.cfg := by rw [Hart.retire_eq]
@[simp] theorem Hart.retire_engErr (h : Hart) (pc : Word) (m : Bool) : (h.retire pc m).engErr = h.engErr := by rw [Hart.retire_eq]
@[simp] theorem Hart.retire_cmds (h : Hart) (pc : Word) (m : Bool) : (h.retire pc m).cmds = h.cmds := by rw [Hart.retire_eq]
@[simp] theorem Hart.retire_msOvf (h : Hart) (pc : Word) (m : Bool) : (h.retire pc m).msOvf = h.msOvf := by rw [Hart.retire_eq]
@[simp] theorem Hart.retire_msPend (h : Hart) (pc : Word) (m : Bool) : (h.retire pc m).msPend = h.msPend := by rw [Hart.retire_eq]
@[simp] theorem Hart.retire_msLost (h : Hart) (pc : Word) (m : Bool) : (h.retire pc m).msLost = h.msLost := by rw [Hart.retire_eq]
@[simp] theorem Hart.retire_posts (h : Hart) (pc : Word) (m : Bool) : (h.retire pc m).posts = h.posts := by rw [Hart.retire_eq]
@[simp] theorem Hart.retire_ovfq (h : Hart) (pc : Word) (m : Bool) : (h.retire pc m).ovfq = h.ovfq := by rw [Hart.retire_eq]
@[simp] theorem Hart.retire_gwRid (h : Hart) (pc : Word) (m : Bool) : (h.retire pc m).gwRid = h.gwRid := by rw [Hart.retire_eq]
@[simp] theorem Hart.retire_gwNext (h : Hart) (pc : Word) (m : Bool) : (h.retire pc m).gwNext = h.gwNext := by rw [Hart.retire_eq]
@[simp] theorem Hart.retire_duty (h : Hart) (pc : Word) (m : Bool) : (h.retire pc m).duty = h.duty := by rw [Hart.retire_eq]
@[simp] theorem Hart.retire_req (h : Hart) (pc : Word) (m : Bool) : (h.retire pc m).req = h.req := by rw [Hart.retire_eq]
@[simp] theorem Hart.retire_rcnt (h : Hart) (pc : Word) (m : Bool) : (h.retire pc m).rcnt = h.rcnt := by rw [Hart.retire_eq]
@[simp] theorem Hart.retire_msent (h : Hart) (pc : Word) (m : Bool) : (h.retire pc m).msent = h.msent := by rw [Hart.retire_eq]
@[simp] theorem Hart.retire_mrecv (h : Hart) (pc : Word) (m : Bool) : (h.retire pc m).mrecv = h.mrecv := by rw [Hart.retire_eq]
@[simp] theorem Hart.retire_ops (h : Hart) (pc : Word) (m : Bool) : (h.retire pc m).ops = h.ops := by rw [Hart.retire_eq]
@[simp] theorem Hart.retire_rets (h : Hart) (pc : Word) (m : Bool) : (h.retire pc m).rets = h.rets := by rw [Hart.retire_eq]
@[simp] theorem Hart.retire_faults (h : Hart) (pc : Word) (m : Bool) : (h.retire pc m).faults = h.faults := by rw [Hart.retire_eq]
@[simp] theorem Hart.retire_nextOp (h : Hart) (pc : Word) (m : Bool) : (h.retire pc m).nextOp = h.nextOp := by rw [Hart.retire_eq]
@[simp] theorem Hart.retire_comb (h : Hart) (pc : Word) (m : Bool) : (h.retire pc m).comb = h.comb := by rw [Hart.retire_eq]
@[simp] theorem Hart.retire_writes (h : Hart) (pc : Word) (m : Bool) : (h.retire pc m).writes = h.writes := by rw [Hart.retire_eq]
@[simp] theorem Hart.retire_dtlb (h : Hart) (pc : Word) (m : Bool) : (h.retire pc m).dtlb = h.dtlb := by rw [Hart.retire_eq]
@[simp] theorem Hart.retire_itlb (h : Hart) (pc : Word) (m : Bool) : (h.retire pc m).itlb = h.itlb := by rw [Hart.retire_eq]
@[simp] theorem Hart.retire_binds (h : Hart) (pc : Word) (m : Bool) : (h.retire pc m).binds = h.binds := by rw [Hart.retire_eq]
@[simp] theorem Hart.retire_copies (h : Hart) (pc : Word) (m : Bool) : (h.retire pc m).copies = h.copies := by rw [Hart.retire_eq]
@[simp] theorem Hart.retire_node (h : Hart) (pc : Word) (m : Bool) : (h.retire pc m).node = h.node := by rw [Hart.retire_eq]
@[simp] theorem Hart.retire_acq (h : Hart) (pc : Word) (m : Bool) : (h.retire pc m).acq = h.acq := by rw [Hart.retire_eq]
@[simp] theorem Hart.retire_perfAt (h : Hart) (pc : Word) (m : Bool) : (h.retire pc m).perfAt = h.perfAt := by rw [Hart.retire_eq]
@[simp] theorem Hart.retire_idleSince (h : Hart) (pc : Word) (m : Bool) : (h.retire pc m).idleSince = h.idleSince := by rw [Hart.retire_eq]
@[simp] theorem Hart.retire_gstopEret (h : Hart) (pc : Word) (m : Bool) : (h.retire pc m).gstopEret = h.gstopEret := by rw [Hart.retire_eq]
@[simp] theorem Hart.retire_back (h : Hart) (pc : Word) (m : Bool) : (h.retire pc m).back = h.back := by rw [Hart.retire_eq]
@[simp] theorem Hart.retire_recInfo (h : Hart) (pc : Word) (m : Bool) : (h.retire pc m).recInfo = h.recInfo := by rw [Hart.retire_eq]
@[simp] theorem Hart.retire_holdTo (h : Hart) (pc : Word) (m : Bool) : (h.retire pc m).holdTo = h.holdTo := by rw [Hart.retire_eq]
@[simp] theorem Hart.retire_recalled (h : Hart) (pc : Word) (m : Bool) : (h.retire pc m).recalled = h.recalled := by rw [Hart.retire_eq]
@[simp] theorem Hart.retire_pc (h : Hart) (pc : Word) (m : Bool) : (h.retire pc m).pc = pc := by rw [Hart.retire_eq]
@[simp] theorem Hart.retire_cycle (h : Hart) (pc : Word) (m : Bool) : (h.retire pc m).cycle = h.cycle + 1 := by
  rw [Hart.retire_eq]
@[simp] theorem Hart.retire_icnt (h : Hart) (pc : Word) (m : Bool) :
    (h.retire pc m).icnt = if h.level = .M then h.icnt else h.icnt + 1 := by rw [Hart.retire_eq]
/-- A marked instruction parks when a result or a fault is outstanding. -/
theorem Hart.retire_run (h : Hart) (pc : Word) (m : Bool) :
    (h.retire pc m).run = if m = true ∧ (h.outstanding ≠ 0 ∨ h.faults ≠ []) then .parked else .running := by
  rw [Hart.retire_eq]
/-- Outstanding results are those of the operations, the commands and the results on their way. -/
theorem Hart.outstanding_congr {g h : Hart} (a : g.ops = h.ops) (b : g.cmds = h.cmds) (c : g.rets = h.rets)
    (d : g.holdTo = h.holdTo) : g.outstanding = h.outstanding := by
  unfold Hart.outstanding Hart.liveOps Hart.liveCmds; rw [a, b, c, d]
@[simp] theorem Hart.retire_outstanding (h : Hart) (pc : Word) (m : Bool) : (h.retire pc m).outstanding = h.outstanding :=
  Hart.outstanding_congr (by simp) (by simp) (by simp) (by simp)
@[simp] theorem Hart.wx_outstanding (h : Hart) (r : BitVec 5) (v : Word) : (h.wx r v).outstanding = h.outstanding :=
  Hart.outstanding_congr (by simp) (by simp) (by simp) (by simp)
@[simp] theorem Hart.wv_outstanding (h : Hart) (r : BitVec 5) (v : VReg) : (h.wv r v).outstanding = h.outstanding := rfl
@[simp] theorem Hart.wm_outstanding (h : Hart) (r : BitVec 3) (v : Word) : (h.wm r v).outstanding = h.outstanding :=
  Hart.outstanding_congr (by simp) (by simp) (by simp) (by simp)
@[simp] theorem Hart.wox_outstanding (h : Hart) (r : BitVec 3) (v : Word) : (h.wox r v).outstanding = h.outstanding := rfl

/-! ### Registers read after an update of another kind -/

@[simp] theorem Hart.rx_wv (h : Hart) (d : BitVec 5) (v : VReg) (r : BitVec 5) : (h.wv d v).rx r = h.rx r := by unfold Hart.rx; simp
@[simp] theorem Hart.rx_wm (h : Hart) (d : BitVec 3) (v : Word) (r : BitVec 5) : (h.wm d v).rx r = h.rx r := by unfold Hart.rx; simp
@[simp] theorem Hart.rx_wox (h : Hart) (d : BitVec 3) (v : Word) (r : BitVec 5) : (h.wox d v).rx r = h.rx r := by unfold Hart.rx; simp
@[simp] theorem Hart.rx_setSpin (h : Hart) (d : BitVec 3) (p : Spindle) (r : BitVec 5) : (h.setSpin d p).rx r = h.rx r := by unfold Hart.rx; simp
@[simp] theorem Hart.rx_setBind (h : Hart) (d : BitVec 3) (b : Option Binding) (r : BitVec 5) : (h.setBind d b).rx r = h.rx r := by unfold Hart.rx; simp
@[simp] theorem Hart.rx_setBank (h : Hart) (l : Level) (b : TrapBank) (r : BitVec 5) : (h.setBank l b).rx r = h.rx r := by unfold Hart.rx; simp
@[simp] theorem Hart.rx_retire (h : Hart) (pc : Word) (m : Bool) (r : BitVec 5) : (h.retire pc m).rx r = h.rx r := by unfold Hart.rx; simp
@[simp] theorem Hart.rv_wx (h : Hart) (d : BitVec 5) (v : Word) (r : BitVec 5) : (h.wx d v).rv r = h.rv r := by unfold Hart.rv; simp
@[simp] theorem Hart.rv_wm (h : Hart) (d : BitVec 3) (v : Word) (r : BitVec 5) : (h.wm d v).rv r = h.rv r := by unfold Hart.rv; simp
@[simp] theorem Hart.rv_wox (h : Hart) (d : BitVec 3) (v : Word) (r : BitVec 5) : (h.wox d v).rv r = h.rv r := by unfold Hart.rv; simp
@[simp] theorem Hart.rv_setSpin (h : Hart) (d : BitVec 3) (p : Spindle) (r : BitVec 5) : (h.setSpin d p).rv r = h.rv r := by unfold Hart.rv; simp
@[simp] theorem Hart.rv_setBind (h : Hart) (d : BitVec 3) (b : Option Binding) (r : BitVec 5) : (h.setBind d b).rv r = h.rv r := by unfold Hart.rv; simp
@[simp] theorem Hart.rv_setBank (h : Hart) (l : Level) (b : TrapBank) (r : BitVec 5) : (h.setBank l b).rv r = h.rv r := by unfold Hart.rv; simp
@[simp] theorem Hart.rv_retire (h : Hart) (pc : Word) (m : Bool) (r : BitVec 5) : (h.retire pc m).rv r = h.rv r := by unfold Hart.rv; simp
@[simp] theorem Hart.rm_wx (h : Hart) (d : BitVec 5) (v : Word) (r : BitVec 3) : (h.wx d v).rm r = h.rm r := by unfold Hart.rm; simp
@[simp] theorem Hart.rm_wv (h : Hart) (d : BitVec 5) (v : VReg) (r : BitVec 3) : (h.wv d v).rm r = h.rm r := by unfold Hart.rm; simp
@[simp] theorem Hart.rm_wox (h : Hart) (d : BitVec 3) (v : Word) (r : BitVec 3) : (h.wox d v).rm r = h.rm r := by unfold Hart.rm; simp
@[simp] theorem Hart.rm_setSpin (h : Hart) (d : BitVec 3) (p : Spindle) (r : BitVec 3) : (h.setSpin d p).rm r = h.rm r := by unfold Hart.rm; simp
@[simp] theorem Hart.rm_setBind (h : Hart) (d : BitVec 3) (b : Option Binding) (r : BitVec 3) : (h.setBind d b).rm r = h.rm r := by unfold Hart.rm; simp
@[simp] theorem Hart.rm_setBank (h : Hart) (l : Level) (b : TrapBank) (r : BitVec 3) : (h.setBank l b).rm r = h.rm r := by unfold Hart.rm; simp
@[simp] theorem Hart.rm_retire (h : Hart) (pc : Word) (m : Bool) (r : BitVec 3) : (h.retire pc m).rm r = h.rm r := by unfold Hart.rm; simp
@[simp] theorem Hart.rox_wx (h : Hart) (d : BitVec 5) (v : Word) (r : BitVec 3) : (h.wx d v).rox r = h.rox r := by unfold Hart.rox; simp
@[simp] theorem Hart.rox_wv (h : Hart) (d : BitVec 5) (v : VReg) (r : BitVec 3) : (h.wv d v).rox r = h.rox r := by unfold Hart.rox; simp
@[simp] theorem Hart.rox_wm (h : Hart) (d : BitVec 3) (v : Word) (r : BitVec 3) : (h.wm d v).rox r = h.rox r := by unfold Hart.rox; simp
@[simp] theorem Hart.rox_setSpin (h : Hart) (d : BitVec 3) (p : Spindle) (r : BitVec 3) : (h.setSpin d p).rox r = h.rox r := by unfold Hart.rox; simp
@[simp] theorem Hart.rox_setBind (h : Hart) (d : BitVec 3) (b : Option Binding) (r : BitVec 3) : (h.setBind d b).rox r = h.rox r := by unfold Hart.rox; simp
@[simp] theorem Hart.rox_setBank (h : Hart) (l : Level) (b : TrapBank) (r : BitVec 3) : (h.setBank l b).rox r = h.rox r := by unfold Hart.rox; simp
@[simp] theorem Hart.rox_retire (h : Hart) (pc : Word) (m : Bool) (r : BitVec 3) : (h.retire pc m).rox r = h.rox r := by unfold Hart.rox; simp
@[simp] theorem Hart.spin_wx (h : Hart) (d : BitVec 5) (v : Word) (r : BitVec 3) : (h.wx d v).spin r = h.spin r := by unfold Hart.spin; simp
@[simp] theorem Hart.spin_wv (h : Hart) (d : BitVec 5) (v : VReg) (r : BitVec 3) : (h.wv d v).spin r = h.spin r := by unfold Hart.spin; simp
@[simp] theorem Hart.spin_wm (h : Hart) (d : BitVec 3) (v : Word) (r : BitVec 3) : (h.wm d v).spin r = h.spin r := by unfold Hart.spin; simp
@[simp] theorem Hart.spin_wox (h : Hart) (d : BitVec 3) (v : Word) (r : BitVec 3) : (h.wox d v).spin r = h.spin r := by unfold Hart.spin; simp
@[simp] theorem Hart.spin_setBind (h : Hart) (d : BitVec 3) (b : Option Binding) (r : BitVec 3) : (h.setBind d b).spin r = h.spin r := by unfold Hart.spin; simp
@[simp] theorem Hart.spin_setBank (h : Hart) (l : Level) (b : TrapBank) (r : BitVec 3) : (h.setBank l b).spin r = h.spin r := by unfold Hart.spin; simp
@[simp] theorem Hart.spin_retire (h : Hart) (pc : Word) (m : Bool) (r : BitVec 3) : (h.retire pc m).spin r = h.spin r := by unfold Hart.spin; simp
@[simp] theorem Hart.bind_wx (h : Hart) (d : BitVec 5) (v : Word) (r : BitVec 3) : (h.wx d v).bind r = h.bind r := by unfold Hart.bind; simp
@[simp] theorem Hart.bind_wv (h : Hart) (d : BitVec 5) (v : VReg) (r : BitVec 3) : (h.wv d v).bind r = h.bind r := by unfold Hart.bind; simp
@[simp] theorem Hart.bind_wm (h : Hart) (d : BitVec 3) (v : Word) (r : BitVec 3) : (h.wm d v).bind r = h.bind r := by unfold Hart.bind; simp
@[simp] theorem Hart.bind_wox (h : Hart) (d : BitVec 3) (v : Word) (r : BitVec 3) : (h.wox d v).bind r = h.bind r := by unfold Hart.bind; simp
@[simp] theorem Hart.bind_setSpin (h : Hart) (d : BitVec 3) (p : Spindle) (r : BitVec 3) : (h.setSpin d p).bind r = h.bind r := by unfold Hart.bind; simp
@[simp] theorem Hart.bind_setBank (h : Hart) (l : Level) (b : TrapBank) (r : BitVec 3) : (h.setBank l b).bind r = h.bind r := by unfold Hart.bind; simp
@[simp] theorem Hart.bind_retire (h : Hart) (pc : Word) (m : Bool) (r : BitVec 3) : (h.retire pc m).bind r = h.bind r := by unfold Hart.bind; simp
@[simp] theorem Hart.bank_wx (h : Hart) (d : BitVec 5) (v : Word) (r : Level) : (h.wx d v).bank r = h.bank r := by cases r <;> simp [Hart.bank]
@[simp] theorem Hart.bank_wv (h : Hart) (d : BitVec 5) (v : VReg) (r : Level) : (h.wv d v).bank r = h.bank r := by cases r <;> simp [Hart.bank]
@[simp] theorem Hart.bank_wm (h : Hart) (d : BitVec 3) (v : Word) (r : Level) : (h.wm d v).bank r = h.bank r := by cases r <;> simp [Hart.bank]
@[simp] theorem Hart.bank_wox (h : Hart) (d : BitVec 3) (v : Word) (r : Level) : (h.wox d v).bank r = h.bank r := by cases r <;> simp [Hart.bank]
@[simp] theorem Hart.bank_setSpin (h : Hart) (d : BitVec 3) (p : Spindle) (r : Level) : (h.setSpin d p).bank r = h.bank r := by cases r <;> simp [Hart.bank]
@[simp] theorem Hart.bank_setBind (h : Hart) (d : BitVec 3) (b : Option Binding) (r : Level) : (h.setBind d b).bank r = h.bank r := by cases r <;> simp [Hart.bank]
@[simp] theorem Hart.bank_retire (h : Hart) (pc : Word) (m : Bool) (r : Level) : (h.retire pc m).bank r = h.bank r := by cases r <;> simp [Hart.bank]

end Sys2Proof.Machine
end

