-- ==== Sys2Proof/Laws/Ops.lean ====
section
/-! SUPPORT. What each shared operation can do, said once: issuing, performing, a load, a store, an atomic, a command
put in a queue. -/

namespace Sys2Proof.Laws

open Sys2Proof.Machine Sys2Proof.Claims


theorem Only.of_hart {may : Hart → Hart → Hart} {s : State} {h : Hart} (e : h = may s.hart h) :
    Only may s { s with hart := h } := ⟨by rw [← e], fun _ => rfl⟩

theorem ends_retire (s t : State) (h : Hart) (pc : Word) (m : Bool) (e : t.hart = h.retire pc m)
  (hc : h.cycle = s.hart.cycle) (hi : h.icnt = s.hart.icnt) (hl : h.level = s.hart.level) : Ends s t pc m := by
  unfold Ends
  rw [e]
  simp [Hart.retire_run, hc, hi, hl]

theorem runsXTo_jump {i : Instr} {s : State} {d : BitVec 5} {v v' pc : Word} {m : Bool}
   (h : exec i s = .next ((s.setX d v').jump pc m)) (e : v' = v) : RunsXTo i s d v pc m := by
  subst e
  refine ⟨_, h, ?_, ?_, ?_⟩
  · intro r; simp [Hart.rx_wx]
  · refine ends_retire _ _ (s.hart.wx d v') _ _ rfl ?_ ?_ ?_ <;> simp
  · refine Only.of_hart ?_
    simp only [State.setX_eq, State.onHart_hart, mayX, mayEnd]
    rw [Hart.retire_eq, Hart.wx_eq]


theorem Spindle.ageSpan_eq (p : Spindle) : p.ageSpan = { p with span := p.ageSpan.span } := by
  unfold Spindle.ageSpan; split <;> (try split) <;> rfl

/-- everything issuing an operation does -/
theorem Hart.issueRaw_spec (h : Hart) (sn : BitVec 3) (k : OpKind) :
   ∃ sp : Spindle, ∃ o : Op, h.issueRaw sn k = { h with sp := h.sp.set sn.toNat sp, ops := h.ops ++ [o], nextOp := h.nextOp + 1 }
     ∧ (sp.issue = (h.spin sn).issue + 1 ∧ sp.perf = (h.spin sn).perf ∧ sp.status = (h.spin sn).status)
     ∧ o.id = h.nextOp ∧ o.kind = k ∧ o.strand = sn ∧ o.seq = (h.spin sn).issue + 1 ∧ o.pc = h.pc ∧ o.level = h.level
     ∧ o.region = h.region ∧ o.sent = none := by
  unfold Hart.issueRaw
  refine ⟨_, _, rfl, ⟨?_, ?_, ?_⟩, rfl, rfl, rfl, ?_, rfl, rfl, rfl, rfl⟩ <;> rw [Spindle.ageSpan_eq]

theorem issued_intro {s t : State} {sn : BitVec 3} {k : OpKind} {sp : Spindle} {o : Op}
  (p : sp.issue = (s.hart.spin sn).issue + 1 ∧ sp.perf = (s.hart.spin sn).perf ∧ sp.status = (s.hart.spin sn).status)
  (q : o.id = s.hart.nextOp ∧ o.kind = k ∧ o.strand = sn ∧ o.seq = (s.hart.spin sn).issue + 1 ∧ o.pc = s.hart.pc ∧ o.level = s.hart.level
     ∧ o.region = s.hart.region ∧ o.sent = none)
  (e1 : t.hart.ops = s.hart.ops ++ [o]) (e2 : t.hart.nextOp = s.hart.nextOp + 1) (e3 : t.hart.sp = s.hart.sp.set sn.toNat sp) :
  Issued s t sn k := by
  have a3 : ∀ r, t.hart.spin r = if r = sn then sp else s.hart.spin r := by
    intro r
    rw [← Hart.spin_setSpin]
    unfold Hart.spin
    simp only [e3]
    rfl
  refine ⟨⟨o, e1, q⟩, e2, ?_, ?_, ?_, ?_⟩
  · rw [a3]; simpa using p.1
  · rw [a3]; simpa using p.2.1
  · rw [a3]; simpa using p.2.2
  · intro r hr; rw [a3]; simp [hr]

theorem Only.self {may : Hart → Hart → Hart} {s t : State} (e : t = { s with hart := may s.hart t.hart }) : Only may s t :=
  ⟨e, fun k => by rw [e]⟩

theorem Hart.perform_spec {h : Hart} {id : Nat} {o : Op} (now : Word) (e : h.ops.find? (fun q => q.id == id) = some o) :
    ∃ sp pa, h.perform id now = { h with ops := h.ops.filter (fun q => q.id != id), perfAt := pa, sp := sp }
      ∧ ∀ r : BitVec 3, sp[r.toNat].issue = (h.spin r).issue ∧ sp[r.toNat].status = (h.spin r).status := by
  unfold Hart.perform
  rw [e]
  refine ⟨_, _, rfl, fun r => ?_⟩
  simp [settleSpin, Hart.spin]

/-! ### Loads -/

/-- What the buffer of the hart in focus supplies for some places, by address. -/
def supply (s : State) (spans : List (Nat × Nat)) : Fwd :=
  spans.flatMap (fun r => (List.range (r.2 - r.1)).filterMap (fun i => (bufferByte s (r.1 + i)).map (fun b => (r.1 + i, b))))

theorem mem_supply {s : State} {spans : List (Nat × Nat)} {a : Nat} {b : Byte} :
    (a, b) ∈ supply s spans ↔ ∃ r ∈ spans, r.1 ≤ a ∧ a < r.2 ∧ bufferByte s a = some b := by
  simp only [supply, List.mem_flatMap, List.mem_filterMap, List.mem_range, Option.map_eq_some_iff, Prod.mk.injEq]
  constructor
  · rintro ⟨r, hr, i, hi, c, hc, rfl, rfl⟩
    exact ⟨r, hr, by omega, by omega, hc⟩
  · rintro ⟨r, hr, h1, h2, h3⟩
    refine ⟨r, hr, a - r.1, by omega, b, ?_, by omega, rfl⟩
    rwa [Nat.add_sub_cancel' h1]

/-- The buffer supplies an address of the places exactly when it holds a byte for it. -/
theorem any_supply {s : State} {spans : List (Nat × Nat)} {r : Nat × Nat} (hr : r ∈ spans) {a : Nat} (h1 : r.1 ≤ a) (h2 : a < r.2) :
    (supply s spans).any (fun p => p.1 == a) = (bufferByte s a).isSome := by
  rw [Bool.eq_iff_iff, List.any_eq_true, Option.isSome_iff_exists]
  constructor
  · rintro ⟨⟨x, b⟩, hx, hxa⟩
    obtain ⟨_, _, _, _, h⟩ := mem_supply.mp hx
    simp only [beq_iff_eq] at hxa
    exact ⟨b, hxa ▸ h⟩
  · rintro ⟨b, hb⟩
    exact ⟨(a, b), mem_supply.mpr ⟨r, hr, h1, h2, hb⟩, by simp⟩

theorem covered_supply (s : State) (spans : List (Nat × Nat)) :
    covered spans (supply s spans) = true ↔ (∃ p ∈ spans, p.1 < p.2)
      ∧ ∀ p ∈ spans, ∀ a, p.1 ≤ a → a < p.2 → (bufferByte s a).isSome = true := by
  unfold covered gaps
  by_cases e : supply s spans = []
  · rw [e]
    simp only [List.isEmpty_nil, Bool.not_true, Bool.false_and, Bool.false_eq_true, false_iff, not_and]
    rintro ⟨p, hp, h⟩ all
    have := all p hp p.1 (le_refl _) h
    obtain ⟨b, hb⟩ := Option.isSome_iff_exists.mp this
    have : (p.1, b) ∈ supply s spans := mem_supply.mpr ⟨p, hp, le_refl _, h, hb⟩
    rw [e] at this
    cases this
  · obtain ⟨⟨x, b⟩, hx⟩ := List.exists_mem_of_ne_nil _ e
    obtain ⟨r, hr, h1, h2, _⟩ := mem_supply.mp hx
    have e' : (supply s spans).isEmpty = false := by simpa using e
    rw [e']
    simp only [Bool.not_false, Bool.true_and, Bool.false_eq_true, if_false, List.isEmpty_iff, List.flatMap_eq_nil_iff,
      List.filterMap_eq_nil_iff, List.mem_range]
    constructor
    · intro h
      refine ⟨⟨r, hr, by omega⟩, fun p hp a ha ha' => ?_⟩
      have := h p hp (a - p.1) (by omega)
      rw [Nat.add_sub_cancel' ha, any_supply hp ha ha'] at this
      by_contra c
      simp [c] at this
    · rintro ⟨_, h⟩ p hp i hi
      rw [any_supply hp (by omega) (by omega), h p hp _ (by omega) (by omega)]
      rfl

/-- The bytes of a place that the buffer supplies whole. -/
theorem fwdBytes_supply {s : State} {spans : List (Nat × Nat)} {ea : Word} {n : Nat} (hp : spanOf (ea, n) ∈ spans)
    (h : Forwarded s spans) : fwdBytes (ea, n) (supply s spans) = bufferBytes s ea.toNat n := by
  have ne : (supply s spans).isEmpty = false := by
    have c := (covered_supply s spans).mpr ⟨h.1, h.2.1⟩
    unfold covered at c
    simpa using (Bool.and_eq_true_iff.mp c).1
  unfold fwdBytes fillFwd bufferBytes
  rw [ne]
  apply List.ext_getElem
  · simp
  · intro i h1 h2
    have hi : i < n := by simpa using h2
    simp only [Bool.false_eq_true, if_false, List.getElem_map, List.getElem_zipIdx, List.getElem_replicate, List.getElem_range,
      Nat.zero_add]
    obtain ⟨b, hb⟩ := Option.isSome_iff_exists.mp (h.2.1 _ hp (ea.toNat + i) (by simp [spanOf]) (by simp [spanOf]; omega))
    have hm : (ea.toNat + i, b) ∈ supply s spans := mem_supply.mpr ⟨_, hp, by simp [spanOf], by simp [spanOf]; omega, hb⟩
    cases hf : (supply s spans).find? (fun q => q.1 == ea.toNat + i) with
    | none => exact absurd (List.find?_eq_none.mp hf _ hm) (by simp)
    | some q =>
      obtain ⟨x, y⟩ := q
      have q1 : x = ea.toNat + i := by simpa using List.find?_some hf
      obtain ⟨_, _, _, _, q2⟩ := mem_supply.mp (List.mem_of_find?_eq_some hf)
      rw [q1, hb] at q2
      simpa [hb] using (Option.some.inj q2).symm

theorem fwdOf_issued {s : State} {h1 : Hart} {o : Op} {spans : List (Nat × Nat)} (hk : o.kind.isRead = true) (hs : o.sent = none)
    (hr : o.reads = spans) (hid : o.id = s.hart.nextOp) (hops : h1.ops = s.hart.ops ++ [o]) (hc : h1.comb = s.hart.comb) :
    h1.fwdOf o = supply s spans := by
  unfold Hart.fwdOf supply Hart.forward bufferByte Hart.olderOps
  rw [hs, hk, hr, hid, hops, hc, List.filter_append]
  simp only [List.filter_cons, hid, Nat.lt_irrefl, decide_false, List.filter_nil, List.append_nil, Bool.false_eq_true, if_false,
    Option.isSome_none, if_true]
  congr 1
  funext r
  cases s.hart.comb <;> simp

/-- Everything the issue of a load does: it waits in order, or is performed from the buffer (R149, R157, R168, R184). -/
theorem issueLoad_spec {i : Instr} {s : State} {sn : BitVec 3} {k : OpKind} {spans : List (Nat × Nat)} {res : Result} {m : Bool}
    {len : Nat} (hk : k.isRead = true) (hspan : ∀ o : Op, o.kind = k → o.reads = spans)
    (hres : Forwarded s spans → ∀ h : Hart, h.v = s.hart.v → k.fwdResult h (supply s spans) = res)
    (h : exec i s = .next ((issueLoad sn k s).done len m)) :
    ∃ t, exec i s = .next t ∧ Ends s t (s.hart.pc + BitVec.ofNat 64 len) m ∧ IssuesLoad s t sn k spans res := by
  obtain ⟨sp, o, e, p, q⟩ := Hart.issueRaw_spec s.hart sn k
  have hr : o.reads = spans := hspan o q.2.1
  have hf := fwdOf_issued (h1 := s.hart.issueRaw sn k) (spans := spans) (by rw [q.2.1]; exact hk) q.2.2.2.2.2.2.2 hr q.1
    (by rw [e]) (by rw [e])
  have hl : (s.hart.issueRaw sn k).ops.getLast? = some o := by rw [e]; simp
  rw [State.done_eq] at h
  unfold issueLoad Hart.issueRead at h
  simp only [State.onHart_onHart] at h
  unfold State.onHart at h
  simp only [hl, hf, hr] at h
  by_cases c : Forwarded s spans
  · have c1 : covered spans (supply s spans) = true := (covered_supply s spans).mpr ⟨c.1, c.2.1⟩
    have c2 : s.hart.ops.any (fun p => anyMeet p.reads spans) = false := by
      simpa [List.any_eq_false] using c.2.2
    have ef : (s.hart.issueRaw sn k).ops.find? (fun q => q.id == o.id) ≠ none := by
      rw [e]; intro hh; exact List.find?_eq_none.mp hh o (by simp) (by simp)
    obtain ⟨o', ho'⟩ := Option.ne_none_iff_exists'.mp ef
    obtain ⟨sp', pa, e', i'⟩ := Hart.perform_spec s.now ho'
    have fo : (s.hart.ops ++ [o]).filter (fun q => q.id != o.id) = s.hart.ops.filter (fun q => q.id != s.hart.nextOp) := by
      simp [q.1]
    rw [c1, c2] at h
    simp only [Bool.not_false, Bool.and_true, if_true, Hart.finish] at h
    rw [e', e] at h
    simp only [hres c s.hart rfl, fo] at h
    refine ⟨_, h, ends_retire _ _ _ _ _ rfl rfl rfl rfl, fun n => absurd c n, fun _ => ?_⟩
    rw [Hart.retire_eq]
    refine ⟨by simp [q.1, q.2.2.1], rfl, rfl, ?_, rfl, Only.self rfl⟩
    show sp'[sn.toNat].issue = _
    rw [(i' sn).1, e]
    simp only [Hart.spin]
    rw [Vector.getElem_set_self]
    exact p.1
  · have c1 : (covered spans (supply s spans) && !s.hart.ops.any (fun p => anyMeet p.reads spans)) = false := by
      by_contra hh
      rw [Bool.not_eq_false, Bool.and_eq_true, covered_supply] at hh
      exact c ⟨hh.1.1, hh.1.2, by simpa [List.any_eq_false] using hh.2⟩
    rw [c1] at h
    simp only [Bool.false_eq_true, if_false] at h
    refine ⟨_, h, ?_, fun _ => ?_, fun n => absurd n c⟩
    · refine ends_retire _ _ _ _ _ rfl ?_ ?_ ?_ <;> simp [Hart.closeStrand, Hart.drainStrand, e]
    · rw [Hart.retire_eq, e]
      refine ⟨issued_intro p q rfl rfl rfl, ?_, Only.self rfl⟩
      unfold Drains Hart.drainStrand Hart.closeStrand
      simp only [List.map_map]
      apply List.map_congr_left
      intro x hx
      by_cases c : x.strand = sn <;> simp [c]

theorem slotsTaken_iff (s : State) (ea : Word) : s.noSlot ea = true ↔ SlotsTaken s ea := by
  unfold State.noSlot State.leaves SlotsTaken
  rw [Bool.and_eq_true, Bool.not_eq_true', Bool.and_eq_false_iff, decide_eq_true_iff]
  simp

/-- Without a scoreboard entry an instruction waits (R116). -/
theorem noEntry_spec {i : Instr} {s : State} (h : exec i s = .next s.noEntry) : WaitsForEntry i s := by
  unfold WaitsForEntry
  rw [h]
  unfold State.noEntry State.deferred State.block State.onHart
  split <;> rfl

/-- A load that has passed its checks. -/
theorem loadIssues_spec {i : Instr} {s : State} {ea : Word} {sn : BitVec 3} {k : OpKind} {spans : List (Nat × Nat)} {res : Result}
    {m : Bool} {len : Nat} (hk : k.isRead = true) (hspan : ∀ o : Op, o.kind = k → o.reads = spans)
    (hres : Forwarded s spans → ∀ h : Hart, h.v = s.hart.v → k.fwdResult h (supply s spans) = res)
    (h : exec i s = .next (if s.noSlot ea = true then s.block
      else if s.hart.entries ≥ Config.scoreboard then s.noEntry else (issueLoad sn k s).done len m)) :
    LoadIssues i s ea sn k spans res len m := by
  refine ⟨fun a => ?_, fun a b => ?_, fun a b => ?_⟩
  · rw [h, if_pos ((slotsTaken_iff s ea).mpr a)]
  · rw [if_neg (fun c => a ((slotsTaken_iff s ea).mp c)),
      if_pos (show s.hart.entries ≥ Config.scoreboard from b)] at h
    exact noEntry_spec h
  · rw [if_neg (fun c => a ((slotsTaken_iff s ea).mp c)), if_neg (by simpa [Config.scoreboard] using b)] at h
    exact issueLoad_spec hk hspan hres h

theorem loadAt_spec {i : Instr} {s : State} {ea : Word} {size : Nat} {uns : Bool} {d : BitVec 5} {sn : BitVec 3} {len : Nat} {m : Bool}
    (h : exec i s = .next (loadAt ea size uns d sn len m s)) : LoadsAt i s ea size uns d sn len m := by
  unfold loadAt at h
  refine ⟨fun a => ?_, fun a b => ?_, fun a b => ?_⟩
  · rw [h, if_pos a]
  · rw [h, if_neg (by omega), if_pos b]
  · rw [if_neg (by omega), if_neg (by simpa using b)] at h
    refine loadIssues_spec rfl (fun o ho => by simp [Op.reads, ho, OpKind.loadPlace, spanOf]) (fun c g _ => ?_) h
    simp only [OpKind.fwdResult, OpKind.loadPlace, OpKind.result]
    rw [fwdBytes_supply (by simp [spanOf]) c]

theorem comb_amo (l : List CombEntry) (n : Nat) (sn : BitVec 3) :
    ((l.map (fun e => if e.line == n then { e with closed := true, draining := true } else e)).map
      (fun e => if e.strand == sn then { e with closed := true, draining := true } else e)).map
      (fun e => if e.strand == sn then { e with closed := true } else e)
    = l.map (fun e => if (e.line == n || e.strand == sn) = true then { e with closed := true, draining := true } else e) := by
  simp only [List.map_map]
  apply List.map_congr_left
  intro x _
  by_cases c1 : x.strand = sn <;> by_cases c2 : x.line = n <;> simp [c1, c2]

theorem amoAt_spec {i : Instr} {s : State} {a b d : BitVec 5} {fn : BitVec 6} {sn : BitVec 3} {m : Bool}
  (h : exec i s = .next (amoAt fn d a b sn m s)) : AtomicAt i s a b fn (amoSize fn) d sn m := by
  unfold amoAt at h
  refine ⟨?_, ?_, ?_, ?_, ?_⟩
  · intro a; rw [h, if_pos a]
  · intro a b; rw [h, if_neg (by omega), if_pos b]
  · intro a b c; rw [h, if_neg (by omega), if_neg (by simpa using b), if_pos ((slotsTaken_iff s _).mpr c)]
  · intro a b c d
    rw [if_neg (by omega), if_neg (by simpa using b), if_neg (fun x => c ((slotsTaken_iff s _).mp x)),
      if_pos (by simpa [Config.scoreboard] using d)] at h
    exact noEntry_spec h
  · intro a' b' c' c
    rw [if_neg (by omega), if_neg (by simpa using b'), if_neg (fun x => c' ((slotsTaken_iff s _).mp x)),
      if_neg (by simpa [Config.scoreboard] using c)] at h
    obtain ⟨hd, e0, ec⟩ : ∃ c, (s.hart.drainLine ((s.x a).toNat / 64)).drainStrand sn = { s.hart with comb := c }
        ∧ c = (s.hart.comb.map (fun e => if e.line == (s.x a).toNat / 64 then { e with closed := true, draining := true } else e)).map
          (fun e => if e.strand == sn then { e with closed := true, draining := true } else e) := ⟨_, rfl, rfl⟩
    obtain ⟨sp, o, e, p, q⟩ := Hart.issueRaw_spec ({ s.hart with comb := hd }) sn (.atomic (s.x a) fn (s.x b) (s.oxr 0) d)
    simp only [State.onHart_onHart, State.done_eq, Hart.issueOp] at h
    unfold State.onHart at h
    dsimp only at h
    rw [e0, e] at h
    refine ⟨_, h, ?_, ?_⟩
    · exact ends_retire _ _ _ _ _ rfl rfl rfl rfl
    · rw [Hart.retire_eq]
      refine ⟨issued_intro p q rfl rfl rfl, ?_, Only.self rfl⟩
      show hd.map _ = _
      rw [ec]
      exact comb_amo _ _ _

theorem lineMask_eq (ea : Word) (n : Nat) (hn : n = 1 ∨ n = 2 ∨ n = 4 ∨ n = 8) (ha : ea.toNat % n = 0) :
   lineMask ea n = lineBytes (ea.toNat % 64) n := by
  have h64 : ea.toNat % 64 % n = 0 := by rcases hn with rfl | rfl | rfl | rfl <;> omega
  have hlt : ea.toNat % 64 < 64 := Nat.mod_lt _ (by decide)
  have key : ∀ r < 64, ∀ n ∈ [1,2,4,8], r % n = 0 → (List.range n).foldl (fun m i => m ||| (1#64 <<< ((r + i) % 64))) 0 = lineBytes r n := by decide +kernel
  have := key _ hlt n (by rcases hn with rfl | rfl | rfl | rfl <;> simp) h64
  rw [← this]
  unfold lineMask
  congr 1
  funext m i
  congr 2
  omega

theorem leBytes_length (v n : Nat) : (leBytes v n).length = n := by
  induction n generalizing v with
  | zero => rfl
  | succ n ih => simp [leBytes, ih]

theorem lineBytes_bit (ea : Word) (n : Nat) (hn : n = 1 ∨ n = 2 ∨ n = 4 ∨ n = 8) (ha : ea.toNat % n = 0) (i : Nat) (hi : i < n) :
    (lineBytes (ea.toNat % 64) n).getLsbD ((ea.toNat + i) % 64) = true := by
  have h64 : ea.toNat % 64 % n = 0 := by rcases hn with rfl | rfl | rfl | rfl <;> omega
  have hlt : ea.toNat % 64 < 64 := Nat.mod_lt _ (by decide)
  have key : ∀ r < 64, ∀ n ∈ [1, 2, 4, 8], r % n = 0 → ∀ i < n, (lineBytes r n).getLsbD ((r + i) % 64) = true := by decide +kernel
  rw [show (ea.toNat + i) % 64 = (ea.toNat % 64 + i) % 64 by omega]
  exact key _ hlt n (by rcases hn with rfl | rfl | rfl | rfl <;> simp) h64 i hi

/-- The check of a store's target, case by case; `tv` is what a trap reports. -/
theorem checkStore_spec (s : State) (tv ea : Word) (tr : Trans) (htr : translate s s.hart.region s.hart.level .store ea = tr) :
   (tr.cause = 0xFF → checkStore tv ea s = ⟨false, (s.awaitsOwn tr .store ea).block, 0⟩)
   ∧ (tr.cause ≠ 0 → tr.cause ≠ 0xFF → ¬LeftToTarget s tr ea → checkStore tv ea s = ⟨false, trap tr.cause tv tr.st, 0⟩)
   ∧ (tr.cause = 0 ∨ LeftToTarget s tr ea → checkStore tv ea s = ⟨true, tr.st, if tr.cause = 0 then tr.key else 0⟩) := by
  unfold checkStore LeftToTarget
  rw [htr]
  have hd : ((gaNode ea != s.nodeId && (tr.reason == 8 || gaCore ea != hbmCore)) = true)
      ↔ (gaNode ea ≠ s.nodeId ∧ (tr.reason = 8 ∨ gaCore ea ≠ hbmCore)) := by simp
  refine ⟨fun c => ?_, fun c c' d => ?_, fun c => ?_⟩
  · have c0 : tr.cause ≠ 0 := by rw [c]; decide
    simp only [if_neg c0]
    rw [if_pos (show tr.cause = awaitRemote from c)]
  · simp only [if_neg c, if_neg (show ¬ tr.cause = awaitRemote from c'), if_neg (fun x => d ⟨c', hd.mp x⟩)]
  · by_cases c0 : tr.cause = 0
    · simp only [if_pos c0]
    · obtain ⟨c1, c2⟩ := c.resolve_left c0
      simp only [if_neg c0, if_neg (show ¬ tr.cause = awaitRemote from c1), if_pos (hd.mpr c2)]

/-- One write of a store enters the combining buffer (R156, R158, R184). -/
theorem combine_spec (h : Hart) (id : Nat) (sn : BitVec 3) (ea : Word) (key size : Nat) (v : Word)
    (hs : size = 1 ∨ size = 2 ∨ size = 4 ∨ size = 8) (ha : ea.toNat % size = 0) :
    let mine (e : CombEntry) : Bool := e.line == ea.toNat / 64 && e.strand == sn && !e.closed
    let full (e : CombEntry) : Prop := e.closed = (e.mask == BitVec.allOnes 64) ∧ e.draining = (e.mask == BitVec.allOnes 64)
    ∃ c, combine id sn (ea, key, leBytes v.toNat size) h = { h with comb := c }
      ∧ (h.comb.any mine = true → c.length = h.comb.length ∧ ∀ e ∈ c, e ∈ h.comb ∨ ∃ f ∈ h.comb, mine f = true ∧ e.line = f.line
              ∧ e.strand = sn ∧ id ∈ e.ops ∧ e.mask = f.mask ||| lineBytes (ea.toNat % 64) size
              ∧ e.last = h.cycle ∧ full e)
      ∧ (h.comb.any mine = false → ∃ e rest, c = rest ++ [e] ∧ rest.length = h.comb.length
            ∧ e.line = ea.toNat / 64 ∧ e.strand = sn ∧ e.ops = [id] ∧ e.last = h.cycle
            ∧ e.mask = lineBytes (ea.toNat % 64) size ∧ full e
            ∧ ∀ f ∈ rest, (f.strand = sn → f.closed = true) ∧ (f.line = e.line → f.strand ≠ sn → f.draining = true))
      ∧ ∃ e ∈ c, e.line = ea.toNat / 64 ∧ e.strand = sn ∧ id ∈ e.ops
          ∧ ∀ i < size, e.mask.getLsbD ((ea.toNat + i) % 64) = true := by
  intro mine full
  have hm : lineMask ea (leBytes v.toNat size).length = lineBytes (ea.toNat % 64) size := by
    rw [leBytes_length]; exact lineMask_eq ea size hs ha
  have hf (mk : BitVec 64) : decide (mk = BitVec.allOnes 64) = (mk == BitVec.allOnes 64) := rfl
  unfold combine
  simp only [hm]
  by_cases c : h.comb.any mine = true
  · rw [if_pos c]
    refine ⟨_, rfl, fun _ => ⟨by simp, ?_⟩, fun c' => absurd (c.symm.trans c') (by decide), ?_⟩
    · intro e he
      obtain ⟨f, hf', rfl⟩ := List.mem_map.mp he
      by_cases o : mine f = true
      · right
        refine ⟨f, hf', o, ?_⟩
        have o' := o
        simp only [mine, Bool.and_eq_true, beq_iff_eq] at o'
        rw [if_pos o]
        refine ⟨rfl, o'.1.2, ?_, rfl, rfl, hf _, hf _⟩
        show id ∈ (if f.ops.contains id then f.ops else f.ops ++ [id])
        split
        · next h => simpa using h
        · simp
      · left; rw [if_neg o]; exact hf'
    · obtain ⟨f, hf', o⟩ := List.any_eq_true.mp c
      refine ⟨_, List.mem_map.mpr ⟨f, hf', rfl⟩, ?_⟩
      have o' := o
      simp only [mine, Bool.and_eq_true, beq_iff_eq] at o'
      rw [if_pos o]
      refine ⟨o'.1.1, o'.1.2, ?_, fun i hi => ?_⟩
      · show id ∈ (if f.ops.contains id then f.ops else f.ops ++ [id])
        split
        · next h => simpa using h
        · simp
      · show (f.mask ||| lineBytes (ea.toNat % 64) size).getLsbD _ = true
        rw [BitVec.getLsbD_or, lineBytes_bit ea size hs ha i hi, Bool.or_true]
  · rw [if_neg c]
    refine ⟨_, rfl, fun c' => absurd c' c, fun _ => ⟨_, _, rfl, by simp, rfl, rfl, rfl, rfl, rfl, ⟨hf _, hf _⟩, ?_⟩,
      _, List.mem_append_right _ (List.mem_singleton.mpr rfl), rfl, rfl, by simp, fun i hi => lineBytes_bit ea size hs ha i hi⟩
    intro f hf'
    obtain ⟨g, hg, rfl⟩ := List.mem_map.mp hf'
    by_cases c1 : g.line = ea.toNat / 64 <;> by_cases c2 : g.strand = sn <;> simp [c1, c2]

/-- A scalar store, wherever it goes (R149, R156, R188, R189). -/
theorem storeAt_spec {i : Instr} {s : State} {ea : Word} {size : Nat} {v : Word} {sn : BitVec 3} {len : Nat} {m : Bool}
  (hs : size = 1 ∨ size = 2 ∨ size = 4 ∨ size = 8)
  (h : exec i s = .next (storeAt ea size v sn len m s)) : StoresAt i s ea size (leBytes v.toNat size) sn len m := by
  unfold storeAt at h
  obtain ⟨k1, k2, k3⟩ := checkStore_spec s ea ea _ rfl
  have hno : ∀ c : Checked, checkStore ea ea s = c → c.ok = false → (storeBytes none [(ea, leBytes v.toNat size)] sn false s).then (fun s => s.done len m) = c.st := by
    intro c e ho
    unfold storeBytes
    simp only [checkStores, Option.getD_none, e, ho]
    rfl
  have hyes : ∀ c : Checked, checkStore ea ea s = c → c.ok = true → storeBytes none [(ea, leBytes v.toNat size)] sn false s = issueStore [(ea, c.key, leBytes v.toNat size)] sn false c.st := by
    intro c e ho
    unfold storeBytes
    simp only [checkStores, Option.getD_none, e, ho]
    rfl
  refine ⟨fun a => ?_, fun a b => ?_, fun a b => ⟨fun c => ?_, fun c c' d => ?_⟩, fun a b c => ?_⟩
  · rw [h, if_pos a]
  · rw [h, if_neg (by omega), if_pos b]
  · rw [h, if_neg (by omega), if_neg (by simpa using b), hno _ (k1 c) rfl]
  · rw [h, if_neg (by omega), if_neg (by simpa using b), hno _ (k2 c c' d) rfl]
  · rw [if_neg (by omega), if_neg (by simpa using b)] at h
    have e := k3 c
    rw [hyes _ e rfl] at h
    dsimp only at h
    clear hno hyes k1 k2 k3 c e
    unfold pieceAt
    generalize translate s s.hart.region s.hart.level .store ea = tr at *
    generalize (if tr.cause = 0 then tr.key else 0) = key at *
    by_cases hb : tr.st.buffers ea = true
    · have hB : Buffered tr.st [(ea, key, leBytes v.toNat size)] := ⟨by simp, by simpa using hb⟩
      have hF : BufferFull tr.st sn [(ea, key, leBytes v.toNat size)]
          ↔ newLines sn [(ea, key, leBytes v.toNat size)] tr.st.hart + tr.st.hart.comb.length > Config.combining := by
        unfold BufferFull newLines Config.combining
        simp only [hB, true_and]
        rw [Nat.add_comm]
      refine ⟨fun hn => ?_, fun hn => ?_⟩
      · have e2 : issueStore [(ea, key, leBytes v.toNat size)] sn false tr.st = ⟨false, (tr.st.onHart Hart.drainOldest).block⟩ := by
          unfold issueStore
          rw [if_pos (by simp [hb]), if_pos (hF.mp hn)]
        rw [h, e2]
        rfl
      · obtain ⟨sp, o, e', p, q⟩ := Hart.issueRaw_spec tr.st.hart sn (.store [(ea, key, leBytes v.toNat size)] false true)
        have e2 : issueStore [(ea, key, leBytes v.toNat size)] sn false tr.st = ⟨true, tr.st.onHart (fun h =>
            combine tr.st.hart.nextOp sn (ea, key, leBytes v.toNat size) (h.issueRaw sn (.store [(ea, key, leBytes v.toNat size)] false true)))⟩ := by
          unfold issueStore
          rw [if_pos (by simp [hb]), if_neg (fun x => hn (hF.mpr x))]
          dsimp only
          unfold State.onHart
          dsimp only
          rw [e']
          rfl
        rw [e2] at h
        simp only [Attempt.then, if_true, State.done_eq, State.onHart_onHart] at h
        unfold State.onHart at h
        dsimp only at h
        rw [e'] at h
        obtain ⟨c, e3, r1, r2, r3⟩ := combine_spec { tr.st.hart with sp := tr.st.hart.sp.set sn.toNat sp, ops := tr.st.hart.ops ++ [o], nextOp := tr.st.hart.nextOp + 1 }
          tr.st.hart.nextOp sn ea key size v hs a
        rw [e3] at h
        refine ⟨_, h, ends_retire _ _ _ _ _ rfl rfl rfl rfl, fun hnb => absurd hB hnb, fun _ => ⟨?_, ?_, fun w hw => ?_, fun w hw => ?_⟩⟩
        · rw [Hart.retire_eq]
          exact issued_intro p q rfl rfl rfl
        · rw [Hart.retire_eq]
          exact Only.self rfl
        · rw [Hart.retire_eq]
          obtain rfl : (ea, key, leBytes v.toNat size) = w := by simpa using hw
          unfold Combines
          simp only [leBytes_length]
          exact ⟨r1, r2⟩
        · rw [Hart.retire_eq]
          obtain rfl : w = (ea, key, leBytes v.toNat size) := by simpa using hw
          simpa only [leBytes_length] using r3
    · have hB : ¬Buffered tr.st [(ea, key, leBytes v.toNat size)] := fun x => hb (by simpa using x.2)
      refine ⟨fun hn => absurd hn.1 hB, fun _ => ?_⟩
      obtain ⟨sp, o, e', p, q⟩ := Hart.issueRaw_spec tr.st.hart sn (.store [(ea, key, leBytes v.toNat size)] false false)
      have e2 : issueStore [(ea, key, leBytes v.toNat size)] sn false tr.st = ⟨true, tr.st.onHart (fun h => h.issueOp sn (.store [(ea, key, leBytes v.toNat size)] false false))⟩ := by
        unfold issueStore; simp [hb]
      rw [e2] at h
      simp only [Attempt.then, if_true, State.done_eq, State.onHart_onHart, Hart.issueOp] at h
      unfold State.onHart at h
      dsimp only at h
      rw [e'] at h
      refine ⟨_, h, ends_retire _ _ _ _ _ rfl rfl rfl rfl, fun _ => ?_, fun x => absurd x hB⟩
      rw [Hart.retire_eq]
      exact ⟨issued_intro p q rfl rfl rfl, rfl, Only.self rfl⟩

theorem drain_close (l : List CombEntry) (sn : BitVec 3) :
    (l.map (fun e => if e.strand == sn then { e with closed := true } else e)).map
      (fun e => if e.strand == sn then { e with closed := true, draining := true } else e)
    = l.map (fun e => if (e.strand == sn) = true then { e with closed := true, draining := true } else e) := by
  simp only [List.map_map]
  apply List.map_congr_left
  intro x _
  by_cases c1 : x.strand = sn <;> simp [c1]

theorem lock_spec (s : State) (lo hi : Nat) (k : LockKind) (sn : BitVec 3) :
   s.lock lo hi k sn = { s with locks := s.locks ++ lockEntries { s with hart := { s.hart with nextOp := s.hart.nextOp - 1 } } sn [(lo, hi, k)] } := by
  unfold State.lock lockEntries
  by_cases c : lo < hi
  · rw [if_neg (by omega)]
    simp only [List.filter_cons, c, decide_true, if_true, List.filter_nil, List.map_cons, List.map_nil]
    rfl
  · rw [if_pos (by omega)]
    simp only [List.filter_cons, c, decide_false, List.filter_nil]
    simp

theorem locks_spec (sn : BitVec 3) : ∀ (l : List (Nat × Nat × LockKind)) (s : State),
   l.foldl (fun st l => st.lock l.1 l.2.1 l.2.2 sn) s
     = { s with locks := s.locks ++ lockEntries { s with hart := { s.hart with nextOp := s.hart.nextOp - 1 } } sn l } := by
  intro l
  induction l with
  | nil => intro s; simp [lockEntries]
  | cons p t ih =>
    intro s
    rw [List.foldl_cons, ih, lock_spec]
    dsimp only
    rw [List.append_assoc]
    congr 2
    unfold lockEntries
    dsimp only
    rw [← List.map_append, ← List.filter_append]
    rfl

/-- A command put in the queue with its locks, then the next instruction. -/
theorem queues_intro {i : Instr} {s s1 : State} {major fn : BitVec 6} {sn : BitVec 3} {word : BitVec 32} {xa xb : Word} {d : BitVec 5}
   {data : VReg} {ps : List Nat} {spans : List (Nat × Nat × LockKind)} {m : Bool} {peers : Nat → Prop}
   (h : exec i s = .next (((spans.foldl (fun st l => st.lock l.1 l.2.1 l.2.2 sn)
       (enqueue major fn sn word xa xb d data none ps none s1))).done 4 m))
   (hw : encode i = some (.word word)) (hp : ∀ g, g ∈ ps ↔ peers g) :
   Queues i s s1 major.toNat fn.toNat sn xa xb d data peers spans m := by
  rw [locks_spec] at h
  unfold enqueue at h
  dsimp only at h
  rw [State.done_eq] at h
  obtain ⟨sp, o, e, p, q⟩ := Hart.issueRaw_spec s1.hart sn .engine
  unfold State.onHart Hart.issueOp at h
  dsimp only at h
  rw [e] at h
  refine ⟨_, ⟨s1.hart.nextOp, s1.hart.pc, word, major, fn, sn, xa, xb, s1.oxr 0, s1.oxr 1, s1.oxr 2, s1.hart.cfg, d, data, 0, false, none, ps, false, false⟩, h, ?_, ?_, ?_, ?_, rfl, rfl, hw, rfl, rfl, rfl, rfl, rfl, rfl, rfl, rfl, rfl, rfl, rfl, rfl, rfl, rfl, rfl, rfl, ?_, ?_, ?_, ?_⟩
  · rw [Hart.retire_eq]; exact issued_intro p q rfl rfl rfl
  · rw [Hart.retire_eq]; exact drain_close _ _
  · exact ends_retire _ _ _ _ _ rfl rfl rfl rfl
  · rw [Hart.retire_eq]; rfl
  · exact hp
  · rfl
  · rw [Hart.retire_eq]; rfl
  · intro k; rfl

theorem engineFor_iff (s : State) : s.engineAllowed = true ↔ EngineFor s := by
  unfold State.engineAllowed EngineFor
  cases h : s.hart.node <;> simp

theorem room_iff (s : State) (n : Nat) : s.queueFull n = false ↔ HasRoom s n := by
  unfold State.queueFull HasRoom State.lockRoom
  simp [Config.queue, Config.locks]
  intro _; exact decide_eq_true_iff

theorem issueCmd_spec {i : Instr} {s : State} {fn : BitVec 6} {sn : BitVec 3} {b a d : BitVec 5} {xa xb : Word} {al w : Bool} {ps : List Nat}
   {lk : Option (Nat × Nat × LockKind)} {m : Bool} {peers : Nat → Prop} {aligned weights : Prop} {spans : List (Nat × Nat × LockKind)}
   (h : exec i s = .next (issueCmd fn sn b a d xa xb 0 al w ps lk m s))
   (hw : encode i = some (.word (encX m fn sn b a d 0x3A))) (hp : ∀ g, g ∈ ps ↔ peers g)
   (ha : al = true ↔ aligned) (hwt : w = true ↔ weights) (hl : spans = lk.toList) :
   QueueCommand i s 0x3A fn.toNat sn xa xb d peers aligned xa weights xa spans m := by
  unfold issueCmd at h
  subst hl
  have hlen : lk.toList.length = if lk.isSome then 1 else 0 := by cases lk <;> rfl
  refine ⟨?_, ?_, ?_, ?_, ?_⟩
  · intro c; rw [h, if_pos]; rw [← engineFor_iff] at c; simpa using c
  · intro c c'; rw [← engineFor_iff] at c; rw [← ha] at c'; rw [h, c]; simp [c']
  · intro c c' c''; rw [← engineFor_iff] at c; rw [← ha] at c'; rw [← hwt] at c''; rw [h, c, c', c'']; simp
  · intro c c' c'' c3; rw [← engineFor_iff] at c; rw [← ha] at c'; rw [← hwt] at c''; rw [hlen, ← room_iff] at c3
    rw [h, c, c']; simp only [Bool.not_eq_true] at c''; rw [c'']; simp only [Bool.not_eq_false] at c3; rw [c3]
    simp [State.block, State.onHart]
  · intro c c' c'' c3; rw [← engineFor_iff] at c; rw [← ha] at c'; rw [← hwt] at c''; rw [hlen, ← room_iff] at c3
    rw [c, c'] at h; simp only [Bool.not_eq_true] at c''; rw [c'', c3] at h
    refine queues_intro (major := 0x3A) (ps := ps) ?_ hw hp
    rw [h]
    simp
    cases lk with
    | none => rfl
    | some p => rfl

theorem issueSpline_spec {i : Instr} {s : State} {fn : BitVec 6} {sn : BitVec 3} {b a d : BitVec 5} {xa xb : Word} {bad : Option (BitVec 8 × Word)}
   {spans : List (Nat × Nat × LockKind)} {m : Bool} {aligned weights : Prop} {b3 bA : Word}
   (h : exec i s = .next (issueSpline fn sn b a d xa xb bad spans m s))
   (hw : encode i = some (.word (encX m fn sn b a d 0x3B)))
   (h1 : ¬aligned → bad = some (0x03, b3)) (h2 : aligned → weights → bad = some (0x0A, bA)) (h3 : aligned → ¬weights → bad = none) :
   QueueCommand i s 0x3B fn.toNat sn xa xb d (fun _ => False) aligned b3 weights bA spans m := by
  unfold issueSpline at h
  refine ⟨?_, ?_, ?_, ?_, ?_⟩
  · intro c; rw [h, if_pos]; rw [← engineFor_iff] at c; simpa using c
  · intro c c'; rw [← engineFor_iff] at c; rw [h, c, h1 c']; simp
  · intro c c' c''; rw [← engineFor_iff] at c; rw [h, c, h2 c' c'']; simp
  · intro c c' c'' c3; rw [← engineFor_iff] at c; rw [← room_iff] at c3; rw [h, c, h3 c' c'']; simp only [Bool.not_eq_false] at c3; 
    simp [State.block, State.onHart, c3]
  · intro c c' c'' c3; rw [← engineFor_iff] at c; rw [← room_iff] at c3
    rw [c, h3 c' c''] at h
    refine queues_intro (major := 0x3B) (ps := []) ?_ hw (fun g => by simp)
    rw [h]
    simp [c3]

theorem withheld_iff (s : State) (f : Nat) : s.withholds f = true ↔ Withheld s f := by
  unfold State.withholds Withheld flightHasFrame
  rw [List.any_eq_true]
  simp only [Bool.and_eq_true, List.any_eq_true, decide_eq_true_eq, Bool.not_eq_true', and_assoc]
theorem rowsSpan_eq (a : Word) (rows len : Nat) (st : Word) (k : LockKind) :
   ((rowsSpan a rows len st).1, (rowsSpan a rows len st).2, k) = rowSpan a rows len st k := by
  unfold rowsSpan rowSpan
  simp only
  rw [Prod.mk.injEq, Prod.mk.injEq]
  generalize ((rows - 1 : Nat) : Int) * st.toInt = z
  refine ⟨?_, ?_, rfl⟩ <;> congr 1 <;> omega

/-! ### Traps -/

/-- Clearing bit 0 rounds down to an even number. -/
theorem even_eq (w : Word) : w &&& ~~~1#64 = BitVec.ofNat 64 (w.toNat / 2 * 2) := by
  apply BitVec.eq_of_getLsbD_eq
  intro i hi
  rw [show w.toNat / 2 * 2 = (w.toNat >>> 1) <<< 1 by rw [Nat.shiftLeft_eq, Nat.shiftRight_eq_div_pow]]
  rw [BitVec.getLsbD_and, BitVec.getLsbD_not, BitVec.getLsbD_ofNat, BitVec.getLsbD_ofNat, Nat.testBit_shiftLeft,
    Nat.testBit_shiftRight]
  by_cases c : i = 0
  · subst c; simp
  · have z : Nat.testBit 1 i = false := Nat.testBit_lt_two_pow (Nat.one_lt_two_pow c)
    rw [show 1 + (i - 1) = i by omega]
    simp [z, hi, show i ≥ 1 by omega, BitVec.getLsbD]

theorem trapTarget_eq (h : Hart) (c : BitVec 8) : trapTarget h c = targetOf h c := by
  unfold targetOf
  simp only [show (c = 0x0C) = (c.toNat = 0x0C) by simp [BitVec.toNat_eq], show (c = 0x12) = (c.toNat = 0x12) by simp [BitVec.toNat_eq],
    show (c = 0x13) = (c.toNat = 0x13) by simp [BitVec.toNat_eq], show (c = 0x14) = (c.toNat = 0x14) by simp [BitVec.toNat_eq],
    show (c = 0x15) = (c.toNat = 0x15) by simp [BitVec.toNat_eq]]
  unfold trapTarget
  have d : (decide (c.toNat < 32) && h.deleg.getLsbD c.toNat) = decide (c.toNat < 32 ∧ h.deleg.toNat / 2 ^ c.toNat % 2 = 1) := by
    rw [BitVec.getLsbD, Nat.testBit_eq_decide_div_mod_eq]; simp
  split <;> simp_all

theorem setBank_bank (h : Hart) (l k : Level) (b : TrapBank) : (h.setBank l b).bank k = if k = l then b else h.bank k := by
  cases l <;> cases k <;> rfl

/-- What taking a trap at a level writes (R400). -/
theorem enters_intro (s : State) (l : Level) (cause : BitVec 8) (async : Bool) (pc epc val : Word) :
    Enters s (s.onHart (fun h => { h.setBank l ((s.hart.bank l).entered cause async s.hart.level pc epc val) with
      level := l, pc := (s.hart.bank l).vec, run := .running })) l cause async pc epc val (s.hart.bank l).vec := by
  unfold Enters TrapBank.entered
  simp only [even_eq]
  refine ⟨?_, ?_, ?_⟩
  · cases l <;> rfl
  · cases l <;> rfl
  · intro k hk; cases l <;> cases k <;> first | rfl | exact absurd rfl hk

theorem askRollback_mem (r : Option (BitVec 16)) (c : BitVec 8) (s : State) :
    (askRollback r c s).mem = s.mem ∧ (askRollback r c s).hart = s.hart
    ∧ (∀ g, r.bind s.region? = some g → (g.fdom, c) ∈ (askRollback r c s).rollbacks) := by
  unfold askRollback
  split
  · next g hg =>
    split
    · next c => refine ⟨rfl, rfl, fun g' h => ?_⟩; rw [hg] at h; cases h; simpa using c
    · refine ⟨rfl, rfl, fun g' h => ?_⟩; rw [hg] at h; cases h; simp
  · next hg => exact ⟨rfl, rfl, fun g' h => by rw [hg] at h; cases h⟩

/-- A double trap of a hart whose region has a record (R401). -/
theorem doubleTrap_spec (s : State) (c : BitVec 8) (hr : (s.hart.region.bind s.region?).isSome) :
    let t := doubleTrap c s
    t.hart.run = .halted ∧ t.hart.pc = s.hart.pc ∧ t.hart.level = s.hart.level
    ∧ ∀ g, s.hart.region.bind s.region? = some g → (g.fdom, c) ∈ t.rollbacks ∧ SameBytes s t := by
  unfold doubleTrap
  dsimp only
  rw [if_pos hr]
  obtain ⟨m, hh, q⟩ := askRollback_mem s.hart.region c (s.onHart (fun h => { h with run := .halted }))
  exact ⟨(congrArg Hart.run hh).trans rfl, (congrArg Hart.pc hh).trans rfl, (congrArg Hart.level hh).trans rfl,
    fun g hg => ⟨q g hg, fun k => (congrArg (fun c => Cells.get c k) m).trans rfl⟩⟩

/-- Everything a synchronous trap can do, once no result is outstanding (R400, R401). -/
theorem enterTrap_spec (s : State) (cause : BitVec 8) (pc epc val : Word)
    (hr : (s.hart.bank (targetOf s.hart cause)).tip = true → targetOf s.hart cause ≠ .S → (s.hart.region.bind s.region?).isSome) :
    TakesTrap s (enterTrap cause false pc epc val none s) cause pc epc val := by
  unfold enterTrap TakesTrap
  dsimp only
  rw [trapTarget_eq]
  generalize targetOf s.hart cause = l at *
  refine ⟨fun h => ?_, fun h e => ?_, fun h e => ?_⟩
  · simp only [h, Bool.and_false, Bool.false_and]
    exact enters_intro ..
  · subst e
    simp only [h]
    exact enters_intro ..
  · have g : (!false && (s.hart.bank l).tip && decide (l ≠ Level.S)) = true := by simp [h, e]
    rw [if_pos g]
    exact doubleTrap_spec s cause (hr h e)

end Sys2Proof.Laws
end

