-- ==== Sys2Proof/Laws/PerInstr.lean ====
section
/-! SUPPORT. The family Encoding, one lemma for each constructor: the decoder reads back every well-formed instruction
from the bits that the encoder writes, and an event has no bits. -/

namespace Sys2Proof.Laws.Encoding

/-- What the encoding of an instruction is worth: bit 0 says its length (R62), and the decoder answers the instruction
from its bits, but for the rows that share another row's word (log 15). -/
def Statement (i : Instr) : Prop :=
  i.wf = true →
  match encode i with
  | none => i.isEvent = true
  | some (.word w) => i.isEvent = false ∧ w.getLsbD 0 = true ∧ (i.sharesWord = false → decodeWord w = .ok i)
  | some (.half v) => i.isEvent = false ∧ v.getLsbD 0 = false ∧ (i.sharesWord = false → decodeHalf v = .ok i)

theorem add d a b w m : Statement (.add d a b w m) := by
  refine fun h => ⟨rfl, encA_long .., fun _ => ?_⟩
  rw [decodeWord, major01 (encA_major ..), decodeMajor01, encA_fn]
  simp only [encA_fields, extHi, bit0Bool]
  exact checked_must rfl h
theorem sub d a b w m : Statement (.sub d a b w m) := by
  refine fun h => ⟨rfl, encA_long .., fun _ => ?_⟩
  rw [decodeWord, major01 (encA_major ..), decodeMajor01, encA_fn]
  simp only [encA_fields, extHi, bit0Bool]
  exact checked_must rfl h
theorem and d a b m : Statement (.and d a b m) := by
  refine fun h => ⟨rfl, encA_long .., fun _ => ?_⟩
  rw [decodeWord, major01 (encA_major ..), decodeMajor01, encA_fn]
  simp only [encA_fields]
  exact checked_must rfl h
theorem or d a b m : Statement (.or d a b m) := by
  refine fun h => ⟨rfl, encA_long .., fun _ => ?_⟩
  rw [decodeWord, major01 (encA_major ..), decodeMajor01, encA_fn]
  simp only [encA_fields]
  exact checked_must rfl h
theorem xor d a b m : Statement (.xor d a b m) := by
  refine fun h => ⟨rfl, encA_long .., fun _ => ?_⟩
  rw [decodeWord, major01 (encA_major ..), decodeMajor01, encA_fn]
  simp only [encA_fields]
  exact checked_must rfl h
theorem sll d a b w m : Statement (.sll d a b w m) := by
  refine fun h => ⟨rfl, encA_long .., fun _ => ?_⟩
  rw [decodeWord, major01 (encA_major ..), decodeMajor01, encA_fn]
  simp only [encA_fields, extHi, bit0Bool]
  exact checked_must rfl h
theorem srl d a b w m : Statement (.srl d a b w m) := by
  refine fun h => ⟨rfl, encA_long .., fun _ => ?_⟩
  rw [decodeWord, major01 (encA_major ..), decodeMajor01, encA_fn]
  simp only [encA_fields, extHi, bit0Bool]
  exact checked_must rfl h
theorem sra d a b w m : Statement (.sra d a b w m) := by
  refine fun h => ⟨rfl, encA_long .., fun _ => ?_⟩
  rw [decodeWord, major01 (encA_major ..), decodeMajor01, encA_fn]
  simp only [encA_fields, extHi, bit0Bool]
  exact checked_must rfl h
theorem slt d a b m : Statement (.slt d a b m) := by
  refine fun h => ⟨rfl, encA_long .., fun _ => ?_⟩
  rw [decodeWord, major01 (encA_major ..), decodeMajor01, encA_fn]
  simp only [encA_fields]
  exact checked_must rfl h
theorem sltu d a b m : Statement (.sltu d a b m) := by
  refine fun h => ⟨rfl, encA_long .., fun _ => ?_⟩
  rw [decodeWord, major01 (encA_major ..), decodeMajor01, encA_fn]
  simp only [encA_fields]
  exact checked_must rfl h
theorem min d a b m : Statement (.min d a b m) := by
  refine fun h => ⟨rfl, encA_long .., fun _ => ?_⟩
  rw [decodeWord, major01 (encA_major ..), decodeMajor01, encA_fn]
  simp only [encA_fields]
  exact checked_must rfl h
theorem max d a b m : Statement (.max d a b m) := by
  refine fun h => ⟨rfl, encA_long .., fun _ => ?_⟩
  rw [decodeWord, major01 (encA_major ..), decodeMajor01, encA_fn]
  simp only [encA_fields]
  exact checked_must rfl h
theorem minu d a b m : Statement (.minu d a b m) := by
  refine fun h => ⟨rfl, encA_long .., fun _ => ?_⟩
  rw [decodeWord, major01 (encA_major ..), decodeMajor01, encA_fn]
  simp only [encA_fields]
  exact checked_must rfl h
theorem maxu d a b m : Statement (.maxu d a b m) := by
  refine fun h => ⟨rfl, encA_long .., fun _ => ?_⟩
  rw [decodeWord, major01 (encA_major ..), decodeMajor01, encA_fn]
  simp only [encA_fields]
  exact checked_must rfl h
theorem rotl d a b w m : Statement (.rotl d a b w m) := by
  refine fun h => ⟨rfl, encA_long .., fun _ => ?_⟩
  rw [decodeWord, major01 (encA_major ..), decodeMajor01, encA_fn]
  simp only [encA_fields, extHi, bit0Bool]
  exact checked_must rfl h
theorem rotr d a b w m : Statement (.rotr d a b w m) := by
  refine fun h => ⟨rfl, encA_long .., fun _ => ?_⟩
  rw [decodeWord, major01 (encA_major ..), decodeMajor01, encA_fn]
  simp only [encA_fields, extHi, bit0Bool]
  exact checked_must rfl h
theorem mul d a b w m : Statement (.mul d a b w m) := by
  refine fun h => ⟨rfl, encA_long .., fun _ => ?_⟩
  rw [decodeWord, major01 (encA_major ..), decodeMajor01, encA_fn]
  simp only [encA_fields, extHi, bit0Bool]
  exact checked_must rfl h
theorem mulh d a b m : Statement (.mulh d a b m) := by
  refine fun h => ⟨rfl, encA_long .., fun _ => ?_⟩
  rw [decodeWord, major01 (encA_major ..), decodeMajor01, encA_fn]
  simp only [encA_fields]
  exact checked_must rfl h
theorem mulhu d a b m : Statement (.mulhu d a b m) := by
  refine fun h => ⟨rfl, encA_long .., fun _ => ?_⟩
  rw [decodeWord, major01 (encA_major ..), decodeMajor01, encA_fn]
  simp only [encA_fields]
  exact checked_must rfl h
theorem div d a b w m : Statement (.div d a b w m) := by
  refine fun h => ⟨rfl, encA_long .., fun _ => ?_⟩
  rw [decodeWord, major01 (encA_major ..), decodeMajor01, encA_fn]
  simp only [encA_fields, extHi, bit0Bool]
  exact checked_must rfl h
theorem divu d a b w m : Statement (.divu d a b w m) := by
  refine fun h => ⟨rfl, encA_long .., fun _ => ?_⟩
  rw [decodeWord, major01 (encA_major ..), decodeMajor01, encA_fn]
  simp only [encA_fields, extHi, bit0Bool]
  exact checked_must rfl h
theorem rem d a b w m : Statement (.rem d a b w m) := by
  refine fun h => ⟨rfl, encA_long .., fun _ => ?_⟩
  rw [decodeWord, major01 (encA_major ..), decodeMajor01, encA_fn]
  simp only [encA_fields, extHi, bit0Bool]
  exact checked_must rfl h
theorem remu d a b w m : Statement (.remu d a b w m) := by
  refine fun h => ⟨rfl, encA_long .., fun _ => ?_⟩
  rw [decodeWord, major01 (encA_major ..), decodeMajor01, encA_fn]
  simp only [encA_fields, extHi, bit0Bool]
  exact checked_must rfl h
theorem sel d a b c m : Statement (.sel d a b c m) := by
  refine fun h => ⟨rfl, encA_long .., fun _ => ?_⟩
  rw [decodeWord, major01 (encA_major ..), decodeMajor01, encA_fn]
  simp only [encA_fields]
  exact checked_ok h
theorem clz d a w m : Statement (.clz d a w m) := by
  refine fun h => ⟨rfl, encA_long .., fun _ => ?_⟩
  rw [decodeWord, major01 (encA_major ..), decodeMajor01, encA_fn]
  simp only [encA_fields, extHi, bit0Bool]
  exact checked_must rfl h
theorem ctz d a w m : Statement (.ctz d a w m) := by
  refine fun h => ⟨rfl, encA_long .., fun _ => ?_⟩
  rw [decodeWord, major01 (encA_major ..), decodeMajor01, encA_fn]
  simp only [encA_fields, extHi, bit0Bool]
  exact checked_must rfl h
theorem popc d a w m : Statement (.popc d a w m) := by
  refine fun h => ⟨rfl, encA_long .., fun _ => ?_⟩
  rw [decodeWord, major01 (encA_major ..), decodeMajor01, encA_fn]
  simp only [encA_fields, extHi, bit0Bool]
  exact checked_must rfl h
theorem sext d a s m : Statement (.sext d a s m) := by
  refine fun h => ⟨rfl, encA_long .., fun _ => ?_⟩
  rw [decodeWord, major01 (encA_major ..), decodeMajor01, encA_fn]
  simp only [encA_fields]
  exact checked_must rfl h
theorem zext d a s m : Statement (.zext d a s m) := by
  refine fun h => ⟨rfl, encA_long .., fun _ => ?_⟩
  rw [decodeWord, major01 (encA_major ..), decodeMajor01, encA_fn]
  simp only [encA_fields]
  exact checked_must rfl h
theorem bext d a m : Statement (.bext d a m) := by
  refine fun h => ⟨rfl, encA_long .., fun _ => ?_⟩
  rw [decodeWord, major01 (encA_major ..), decodeMajor01, encA_fn]
  simp only [encA_fields]
  exact checked_must rfl h
theorem bins d a m : Statement (.bins d a m) := by
  refine fun h => ⟨rfl, encA_long .., fun _ => ?_⟩
  rw [decodeWord, major01 (encA_major ..), decodeMajor01, encA_fn]
  simp only [encA_fields]
  exact checked_must rfl h
theorem lea d a b l m : Statement (.lea d a b l m) := by
  refine fun h => ⟨rfl, encA_long .., fun _ => ?_⟩
  rw [decodeWord, major01 (encA_major ..), decodeMajor01, encA_fn]
  simp only [encA_fields]
  exact checked_ok h
theorem addi d a i m : Statement (.addi d a i m) := by
  refine fun h => ⟨rfl, encB_long .., fun _ => ?_⟩
  rw [decodeWord, decodeMajor, encB_major]
  simp only [encB_fields]
  exact checked_ok h
theorem andi d a i m : Statement (.andi d a i m) := by
  refine fun h => ⟨rfl, encB_long .., fun _ => ?_⟩
  rw [decodeWord, decodeMajor, encB_major]
  simp only [encB_fields]
  exact checked_ok h
theorem ori d a i m : Statement (.ori d a i m) := by
  refine fun h => ⟨rfl, encB_long .., fun _ => ?_⟩
  rw [decodeWord, decodeMajor, encB_major]
  simp only [encB_fields]
  exact checked_ok h
theorem xori d a i m : Statement (.xori d a i m) := by
  refine fun h => ⟨rfl, encB_long .., fun _ => ?_⟩
  rw [decodeWord, decodeMajor, encB_major]
  simp only [encB_fields]
  exact checked_ok h
theorem slti d a i m : Statement (.slti d a i m) := by
  refine fun h => ⟨rfl, encB_long .., fun _ => ?_⟩
  rw [decodeWord, decodeMajor, encB_major]
  simp only [encB_fields]
  exact checked_ok h
theorem sltiu d a i m : Statement (.sltiu d a i m) := by
  refine fun h => ⟨rfl, encB_long .., fun _ => ?_⟩
  rw [decodeWord, decodeMajor, encB_major]
  simp only [encB_fields]
  exact checked_ok h
theorem slli d a s m : Statement (.slli d a s m) := by
  refine fun h => ⟨rfl, encA_long .., fun _ => ?_⟩
  rw [decodeWord, major08 (encA_major ..), decodeMajor08, encA_fn]
  simp only [encA_fields, extHi, extLo, join6]
  exact checked_must rfl h
theorem srli d a s m : Statement (.srli d a s m) := by
  refine fun h => ⟨rfl, encA_long .., fun _ => ?_⟩
  rw [decodeWord, major08 (encA_major ..), decodeMajor08, encA_fn]
  simp only [encA_fields, extHi, extLo, join6]
  exact checked_must rfl h
theorem srai d a s m : Statement (.srai d a s m) := by
  refine fun h => ⟨rfl, encA_long .., fun _ => ?_⟩
  rw [decodeWord, major08 (encA_major ..), decodeMajor08, encA_fn]
  simp only [encA_fields, extHi, extLo, join6]
  exact checked_must rfl h
theorem li d i m : Statement (.li d i m) := by
  refine fun h => ⟨rfl, encE_long .., fun _ => ?_⟩
  rw [decodeWord, decodeMajor, encE_major]
  simp only [encE_fields]
  exact checked_ok h
theorem lsh d i m : Statement (.lsh d i m) := by
  refine fun h => ⟨rfl, encE_long .., fun _ => ?_⟩
  rw [decodeWord, decodeMajor, encE_major]
  simp only [encE_fields]
  exact checked_ok h
theorem pcrel d i m : Statement (.pcrel d i m) := by
  refine fun h => ⟨rfl, encE_long .., fun _ => ?_⟩
  rw [decodeWord, decodeMajor, encE_major]
  simp only [encE_fields]
  exact checked_ok h
theorem gadr d a b m : Statement (.gadr d a b m) := by
  refine fun h => ⟨rfl, encA_long .., fun _ => ?_⟩
  rw [decodeWord, major0C (encA_major ..), decodeMajor0C, encA_fn]
  simp only [encA_fields]
  exact checked_must rfl h
theorem beq a b o m : Statement (.beq a b o m) := by
  refine fun h => ⟨rfl, encD_long .., fun _ => ?_⟩
  rw [decodeWord, decodeMajor, encD_major]
  simp only [encD_fields]
  exact checked_ok h
theorem bne a b o m : Statement (.bne a b o m) := by
  refine fun h => ⟨rfl, encD_long .., fun _ => ?_⟩
  rw [decodeWord, decodeMajor, encD_major]
  simp only [encD_fields]
  exact checked_ok h
theorem blt a b o m : Statement (.blt a b o m) := by
  refine fun h => ⟨rfl, encD_long .., fun _ => ?_⟩
  rw [decodeWord, decodeMajor, encD_major]
  simp only [encD_fields]
  exact checked_ok h
theorem bge a b o m : Statement (.bge a b o m) := by
  refine fun h => ⟨rfl, encD_long .., fun _ => ?_⟩
  rw [decodeWord, decodeMajor, encD_major]
  simp only [encD_fields]
  exact checked_ok h
theorem bltu a b o m : Statement (.bltu a b o m) := by
  refine fun h => ⟨rfl, encD_long .., fun _ => ?_⟩
  rw [decodeWord, decodeMajor, encD_major]
  simp only [encD_fields]
  exact checked_ok h
theorem bgeu a b o m : Statement (.bgeu a b o m) := by
  refine fun h => ⟨rfl, encD_long .., fun _ => ?_⟩
  rw [decodeWord, decodeMajor, encD_major]
  simp only [encD_fields]
  exact checked_ok h
theorem jmp o m : Statement (.jmp o m) := by
  refine fun h => ⟨rfl, encJ_long .., fun _ => ?_⟩
  rw [decodeWord, decodeMajor, encJ_major]
  simp only [encJ_fields]
  exact checked_ok h
theorem call o m : Statement (.call o m) := by
  refine fun h => ⟨rfl, encJ_long .., fun _ => ?_⟩
  rw [decodeWord, decodeMajor, encJ_major]
  simp only [encJ_fields]
  exact checked_ok h
theorem ret a m : Statement (.ret a m) := by
  refine fun h => ⟨rfl, encA_long .., fun _ => ?_⟩
  rw [decodeWord, major18 (encA_major ..), decodeMajor18, encA_fn]
  simp only [encA_fields]
  exact checked_must rfl h
theorem jt a b m : Statement (.jt a b m) := by
  refine fun h => ⟨rfl, encA_long .., fun _ => ?_⟩
  rw [decodeWord, major18 (encA_major ..), decodeMajor18, encA_fn]
  simp only [encA_fields]
  exact checked_must rfl h
theorem jtc a b m : Statement (.jtc a b m) := by
  refine fun h => ⟨rfl, encA_long .., fun _ => ?_⟩
  rw [decodeWord, major18 (encA_major ..), decodeMajor18, encA_fn]
  simp only [encA_fields]
  exact checked_must rfl h
theorem callr a m : Statement (.callr a m) := by
  refine fun h => ⟨rfl, encA_long .., fun _ => ?_⟩
  rw [decodeWord, major18 (encA_major ..), decodeMajor18, encA_fn]
  simp only [encA_fields]
  exact checked_must rfl h
theorem lpad l m : Statement (.lpad l m) := by
  refine fun h => ⟨rfl, encE_long .., fun _ => ?_⟩
  rw [decodeWord, decodeMajor, encE_major]
  simp only [encE_fields, extHi, extLo]
  exact checked_must rfl h
theorem oxmv a n m : Statement (.oxmv a n m) := by
  refine fun h => ⟨rfl, encA_long .., fun _ => ?_⟩
  rw [decodeWord, major1A (encA_major ..), decodeMajor1A, encA_fn]
  simp only [encA_fields, extHi, extLo]
  exact checked_must rfl h
theorem oxrd d n m : Statement (.oxrd d n m) := by
  refine fun h => ⟨rfl, encA_long .., fun _ => ?_⟩
  rw [decodeWord, major1A (encA_major ..), decodeMajor1A, encA_fn]
  simp only [encA_fields, extHi, extLo]
  exact checked_must rfl h
theorem oxli a n i m : Statement (.oxli a n i m) := by
  refine fun h => ⟨rfl, encB_long .., fun _ => ?_⟩
  rw [decodeWord, decodeMajor, encB_major]
  simp only [encB_fields, extHi, extLo]
  exact checked_must rfl h
theorem twait d a m : Statement (.twait d a m) := by
  refine fun h => ⟨rfl, encA_long .., fun _ => ?_⟩
  rw [decodeWord, major1C (encA_major ..), decodeMajor1C, encA_fn]
  simp only [encA_fields]
  exact checked_must rfl h
theorem sleep d a m : Statement (.sleep d a m) := by
  refine fun h => ⟨rfl, encA_long .., fun _ => ?_⟩
  rw [decodeWord, major1C (encA_major ..), decodeMajor1C, encA_fn]
  simp only [encA_fields]
  exact checked_must rfl h
theorem tsnow d m : Statement (.tsnow d m) := by
  refine fun h => ⟨rfl, encA_long .., fun _ => ?_⟩
  rw [decodeWord, major1C (encA_major ..), decodeMajor1C, encA_fn]
  simp only [encA_fields]
  exact checked_must rfl h
theorem tsat d a m : Statement (.tsat d a m) := by
  refine fun h => ⟨rfl, encA_long .., fun _ => ?_⟩
  rw [decodeWord, major1C (encA_major ..), decodeMajor1C, encA_fn]
  simp only [encA_fields]
  exact checked_must rfl h
theorem ldB d a s o m : Statement (.ldB d a s o m) := by
  refine fun h => ⟨rfl, encCFmt_long .., fun _ => ?_⟩
  rw [decodeWord, decodeMajor, encCFmt_major]
  simp only [encCFmt_fields]
  exact checked_ok h
theorem lduB d a s o m : Statement (.lduB d a s o m) := by
  refine fun h => ⟨rfl, encCFmt_long .., fun _ => ?_⟩
  rw [decodeWord, decodeMajor, encCFmt_major]
  simp only [encCFmt_fields]
  exact checked_ok h
theorem ldH d a s o m : Statement (.ldH d a s o m) := by
  refine fun h => ⟨rfl, encCFmt_long .., fun _ => ?_⟩
  rw [decodeWord, decodeMajor, encCFmt_major]
  simp only [encCFmt_fields]
  exact checked_ok h
theorem lduH d a s o m : Statement (.lduH d a s o m) := by
  refine fun h => ⟨rfl, encCFmt_long .., fun _ => ?_⟩
  rw [decodeWord, decodeMajor, encCFmt_major]
  simp only [encCFmt_fields]
  exact checked_ok h
theorem ldW d a s o m : Statement (.ldW d a s o m) := by
  refine fun h => ⟨rfl, encCFmt_long .., fun _ => ?_⟩
  rw [decodeWord, decodeMajor, encCFmt_major]
  simp only [encCFmt_fields]
  exact checked_ok h
theorem lduW d a s o m : Statement (.lduW d a s o m) := by
  refine fun h => ⟨rfl, encCFmt_long .., fun _ => ?_⟩
  rw [decodeWord, decodeMajor, encCFmt_major]
  simp only [encCFmt_fields]
  exact checked_ok h
theorem ldD d a s o m : Statement (.ldD d a s o m) := by
  refine fun h => ⟨rfl, encCFmt_long .., fun _ => ?_⟩
  rw [decodeWord, decodeMajor, encCFmt_major]
  simp only [encCFmt_fields]
  exact checked_must rfl h
theorem stB d a s o m : Statement (.stB d a s o m) := by
  refine fun h => ⟨rfl, encCFmt_long .., fun _ => ?_⟩
  rw [decodeWord, decodeMajor, encCFmt_major]
  simp only [encCFmt_fields]
  exact checked_must rfl h
theorem stH d a s o m : Statement (.stH d a s o m) := by
  refine fun h => ⟨rfl, encCFmt_long .., fun _ => ?_⟩
  rw [decodeWord, decodeMajor, encCFmt_major]
  simp only [encCFmt_fields]
  exact checked_must rfl h
theorem stW d a s o m : Statement (.stW d a s o m) := by
  refine fun h => ⟨rfl, encCFmt_long .., fun _ => ?_⟩
  rw [decodeWord, decodeMajor, encCFmt_major]
  simp only [encCFmt_fields]
  exact checked_must rfl h
theorem stD d a s o m : Statement (.stD d a s o m) := by
  refine fun h => ⟨rfl, encCFmt_long .., fun _ => ?_⟩
  rw [decodeWord, decodeMajor, encCFmt_major]
  simp only [encCFmt_fields]
  exact checked_must rfl h
theorem ldxB d a b s m : Statement (.ldxB d a b s m) := by
  refine fun h => ⟨rfl, encA_long .., fun _ => ?_⟩
  rw [decodeWord, major28 (encA_major ..), decodeMajor28, encA_fn]
  simp only [encA_fields]
  exact checked_ok h
theorem ldxH d a b s m : Statement (.ldxH d a b s m) := by
  refine fun h => ⟨rfl, encA_long .., fun _ => ?_⟩
  rw [decodeWord, major28 (encA_major ..), decodeMajor28, encA_fn]
  simp only [encA_fields]
  exact checked_ok h
theorem ldxW d a b s m : Statement (.ldxW d a b s m) := by
  refine fun h => ⟨rfl, encA_long .., fun _ => ?_⟩
  rw [decodeWord, major28 (encA_major ..), decodeMajor28, encA_fn]
  simp only [encA_fields]
  exact checked_ok h
theorem ldxD d a b s m : Statement (.ldxD d a b s m) := by
  refine fun h => ⟨rfl, encA_long .., fun _ => ?_⟩
  rw [decodeWord, major28 (encA_major ..), decodeMajor28, encA_fn]
  simp only [encA_fields]
  exact checked_ok h
theorem ldxuB d a b s m : Statement (.ldxuB d a b s m) := by
  refine fun h => ⟨rfl, encA_long .., fun _ => ?_⟩
  rw [decodeWord, major28 (encA_major ..), decodeMajor28, encA_fn]
  simp only [encA_fields]
  exact checked_ok h
theorem ldxuH d a b s m : Statement (.ldxuH d a b s m) := by
  refine fun h => ⟨rfl, encA_long .., fun _ => ?_⟩
  rw [decodeWord, major28 (encA_major ..), decodeMajor28, encA_fn]
  simp only [encA_fields]
  exact checked_ok h
theorem ldxuW d a b s m : Statement (.ldxuW d a b s m) := by
  refine fun h => ⟨rfl, encA_long .., fun _ => ?_⟩
  rw [decodeWord, major28 (encA_major ..), decodeMajor28, encA_fn]
  simp only [encA_fields]
  exact checked_ok h
theorem stxB d a b s m : Statement (.stxB d a b s m) := by
  refine fun h => ⟨rfl, encA_long .., fun _ => ?_⟩
  rw [decodeWord, major28 (encA_major ..), decodeMajor28, encA_fn]
  simp only [encA_fields]
  exact checked_ok h
theorem stxH d a b s m : Statement (.stxH d a b s m) := by
  refine fun h => ⟨rfl, encA_long .., fun _ => ?_⟩
  rw [decodeWord, major28 (encA_major ..), decodeMajor28, encA_fn]
  simp only [encA_fields]
  exact checked_ok h
theorem stxW d a b s m : Statement (.stxW d a b s m) := by
  refine fun h => ⟨rfl, encA_long .., fun _ => ?_⟩
  rw [decodeWord, major28 (encA_major ..), decodeMajor28, encA_fn]
  simp only [encA_fields]
  exact checked_ok h
theorem stxD d a b s m : Statement (.stxD d a b s m) := by
  refine fun h => ⟨rfl, encA_long .., fun _ => ?_⟩
  rw [decodeWord, major28 (encA_major ..), decodeMajor28, encA_fn]
  simp only [encA_fields]
  exact checked_ok h
theorem amoAdd d a b w s m : Statement (.amoAdd d a b w s m) := by
  refine fun h => ⟨rfl, encX_long .., fun _ => ?_⟩
  cases w
  · rw [decodeWord, major29 (encX_major ..), decodeMajor29, encX_fn]
    simp only [encX_fields]
    exact checked_ok h
  · rw [decodeWord, major29 (encX_major ..), decodeMajor29, encX_fn]
    simp only [encX_fields]
    exact checked_ok h
theorem amoAnd d a b w s m : Statement (.amoAnd d a b w s m) := by
  refine fun h => ⟨rfl, encX_long .., fun _ => ?_⟩
  cases w
  · rw [decodeWord, major29 (encX_major ..), decodeMajor29, encX_fn]
    simp only [encX_fields]
    exact checked_ok h
  · rw [decodeWord, major29 (encX_major ..), decodeMajor29, encX_fn]
    simp only [encX_fields]
    exact checked_ok h
theorem amoOr d a b w s m : Statement (.amoOr d a b w s m) := by
  refine fun h => ⟨rfl, encX_long .., fun _ => ?_⟩
  cases w
  · rw [decodeWord, major29 (encX_major ..), decodeMajor29, encX_fn]
    simp only [encX_fields]
    exact checked_ok h
  · rw [decodeWord, major29 (encX_major ..), decodeMajor29, encX_fn]
    simp only [encX_fields]
    exact checked_ok h
theorem amoXor d a b w s m : Statement (.amoXor d a b w s m) := by
  refine fun h => ⟨rfl, encX_long .., fun _ => ?_⟩
  cases w
  · rw [decodeWord, major29 (encX_major ..), decodeMajor29, encX_fn]
    simp only [encX_fields]
    exact checked_ok h
  · rw [decodeWord, major29 (encX_major ..), decodeMajor29, encX_fn]
    simp only [encX_fields]
    exact checked_ok h
theorem amoMin d a b w s m : Statement (.amoMin d a b w s m) := by
  refine fun h => ⟨rfl, encX_long .., fun _ => ?_⟩
  cases w
  · rw [decodeWord, major29 (encX_major ..), decodeMajor29, encX_fn]
    simp only [encX_fields]
    exact checked_ok h
  · rw [decodeWord, major29 (encX_major ..), decodeMajor29, encX_fn]
    simp only [encX_fields]
    exact checked_ok h
theorem amoMax d a b w s m : Statement (.amoMax d a b w s m) := by
  refine fun h => ⟨rfl, encX_long .., fun _ => ?_⟩
  cases w
  · rw [decodeWord, major29 (encX_major ..), decodeMajor29, encX_fn]
    simp only [encX_fields]
    exact checked_ok h
  · rw [decodeWord, major29 (encX_major ..), decodeMajor29, encX_fn]
    simp only [encX_fields]
    exact checked_ok h
theorem amoMinu d a b w s m : Statement (.amoMinu d a b w s m) := by
  refine fun h => ⟨rfl, encX_long .., fun _ => ?_⟩
  cases w
  · rw [decodeWord, major29 (encX_major ..), decodeMajor29, encX_fn]
    simp only [encX_fields]
    exact checked_ok h
  · rw [decodeWord, major29 (encX_major ..), decodeMajor29, encX_fn]
    simp only [encX_fields]
    exact checked_ok h
theorem amoMaxu d a b w s m : Statement (.amoMaxu d a b w s m) := by
  refine fun h => ⟨rfl, encX_long .., fun _ => ?_⟩
  cases w
  · rw [decodeWord, major29 (encX_major ..), decodeMajor29, encX_fn]
    simp only [encX_fields]
    exact checked_ok h
  · rw [decodeWord, major29 (encX_major ..), decodeMajor29, encX_fn]
    simp only [encX_fields]
    exact checked_ok h
theorem amoSwap d a b w s m : Statement (.amoSwap d a b w s m) := by
  refine fun h => ⟨rfl, encX_long .., fun _ => ?_⟩
  cases w
  · rw [decodeWord, major29 (encX_major ..), decodeMajor29, encX_fn]
    simp only [encX_fields]
    exact checked_ok h
  · rw [decodeWord, major29 (encX_major ..), decodeMajor29, encX_fn]
    simp only [encX_fields]
    exact checked_ok h
theorem amoCas d a b w s m : Statement (.amoCas d a b w s m) := by
  refine fun h => ⟨rfl, encX_long .., fun _ => ?_⟩
  cases w
  · rw [decodeWord, major29 (encX_major ..), decodeMajor29, encX_fn]
    simp only [encX_fields]
    exact checked_ok h
  · rw [decodeWord, major29 (encX_major ..), decodeMajor29, encX_fn]
    simp only [encX_fields]
    exact checked_ok h
theorem amoFadd d a b s m : Statement (.amoFadd d a b s m) := by
  refine fun h => ⟨rfl, encX_long .., fun _ => ?_⟩
  rw [decodeWord, major29 (encX_major ..), decodeMajor29, encX_fn]
  simp only [encX_fields]
  exact checked_ok h
theorem amoFadd2 d a b s m : Statement (.amoFadd2 d a b s m) := by
  refine fun h => ⟨rfl, encX_long .., fun _ => ?_⟩
  rw [decodeWord, major29 (encX_major ..), decodeMajor29, encX_fn]
  simp only [encX_fields]
  exact checked_ok h
theorem pref a n s m : Statement (.pref a n s m) := by
  refine fun h => ⟨rfl, encX_long .., fun _ => ?_⟩
  rw [decodeWord, major2A (encX_major ..), decodeMajor2A, encX_fn]
  simp only [encX_fields]
  exact checked_must rfl h
theorem cbflush a s m : Statement (.cbflush a s m) := by
  refine fun h => ⟨rfl, encX_long .., fun _ => ?_⟩
  rw [decodeWord, major2A (encX_major ..), decodeMajor2A, encX_fn]
  simp only [encX_fields]
  exact checked_must rfl h
theorem sfork d a m : Statement (.sfork d a m) := by
  refine fun h => ⟨rfl, encX_long .., fun _ => ?_⟩
  rw [decodeWord, major2B (encX_major ..), decodeMajor2B, encX_fn]
  simp only [encX_fields, extHi, extLo]
  exact checked_must rfl h
theorem sjoin d a m : Statement (.sjoin d a m) := by
  refine fun h => ⟨rfl, encX_long .., fun _ => ?_⟩
  rw [decodeWord, major2B (encX_major ..), decodeMajor2B, encX_fn]
  simp only [encX_fields, extHi, extLo]
  exact checked_must rfl h
theorem swait d a s m : Statement (.swait d a s m) := by
  refine fun h => ⟨rfl, encX_long .., fun _ => ?_⟩
  rw [decodeWord, major2B (encX_major ..), decodeMajor2B, encX_fn]
  simp only [encX_fields, extHi, extLo]
  exact checked_must rfl h
theorem sexp d a m : Statement (.sexp d a m) := by
  refine fun h => ⟨rfl, encX_long .., fun _ => ?_⟩
  rw [decodeWord, major2B (encX_major ..), decodeMajor2B, encX_fn]
  simp only [encX_fields, extHi, extLo]
  exact checked_must rfl h
theorem simp d a m : Statement (.simp d a m) := by
  refine fun h => ⟨rfl, encX_long .., fun _ => ?_⟩
  rw [decodeWord, major2B (encX_major ..), decodeMajor2B, encX_fn]
  simp only [encX_fields, extHi, extLo]
  exact checked_must rfl h
theorem sstat d a b m : Statement (.sstat d a b m) := by
  refine fun h => ⟨rfl, encX_long .., fun _ => ?_⟩
  rw [decodeWord, major2B (encX_major ..), decodeMajor2B, encX_fn]
  simp only [encX_fields, extHi, extLo]
  exact checked_must rfl h
theorem fence d s m : Statement (.fence d s m) := by
  refine fun h => ⟨rfl, encX_long .., fun _ => ?_⟩
  rw [decodeWord, decodeMajor, encX_major]
  simp only [encX_fields]
  exact checked_must rfl h
theorem vld d a s o m : Statement (.vld d a s o m) := by
  refine fun h => ⟨rfl, encCFmt_long .., fun _ => ?_⟩
  rw [decodeWord, decodeMajor, encCFmt_major]
  simp only [encCFmt_fields]
  exact checked_must rfl h
theorem vst d a s o m : Statement (.vst d a s o m) := by
  refine fun h => ⟨rfl, encCFmt_long .., fun _ => ?_⟩
  rw [decodeWord, decodeMajor, encCFmt_major]
  simp only [encCFmt_fields]
  exact checked_must rfl h
theorem vldx d a b t k m : Statement (.vldx d a b t k m) := by
  refine fun h => ⟨rfl, encV_long .., fun _ => ?_⟩
  rw [decodeWord, major32 (encV_major ..), decodeMajor32, encV_fn]
  simp only [encV_fields, bitSelf]
  exact checked_ok h
theorem vstx d a b t k m : Statement (.vstx d a b t k m) := by
  refine fun h => ⟨rfl, encV_long .., fun _ => ?_⟩
  rw [decodeWord, major32 (encV_major ..), decodeMajor32, encV_fn]
  simp only [encV_fields, bitSelf]
  exact checked_ok h
theorem vadd d a b t k m : Statement (.vadd d a b t k m) := by
  refine fun h => ⟨rfl, encV_long .., fun _ => ?_⟩
  rw [decodeWord, major33 (encV_major ..), decodeMajor33, encV_fn]
  simp only [encV_fields, bitSelf]
  exact checked_ok h
theorem vsub d a b t k m : Statement (.vsub d a b t k m) := by
  refine fun h => ⟨rfl, encV_long .., fun _ => ?_⟩
  rw [decodeWord, major33 (encV_major ..), decodeMajor33, encV_fn]
  simp only [encV_fields, bitSelf]
  exact checked_ok h
theorem vmul d a b t k m : Statement (.vmul d a b t k m) := by
  refine fun h => ⟨rfl, encV_long .., fun _ => ?_⟩
  rw [decodeWord, major33 (encV_major ..), decodeMajor33, encV_fn]
  simp only [encV_fields, bitSelf]
  exact checked_ok h
theorem vfma d a b t k m : Statement (.vfma d a b t k m) := by
  refine fun h => ⟨rfl, encV_long .., fun _ => ?_⟩
  rw [decodeWord, major33 (encV_major ..), decodeMajor33, encV_fn]
  simp only [encV_fields, bitSelf]
  exact checked_ok h
theorem vfms d a b t k m : Statement (.vfms d a b t k m) := by
  refine fun h => ⟨rfl, encV_long .., fun _ => ?_⟩
  rw [decodeWord, major33 (encV_major ..), decodeMajor33, encV_fn]
  simp only [encV_fields, bitSelf]
  exact checked_ok h
theorem vfnma d a b t k m : Statement (.vfnma d a b t k m) := by
  refine fun h => ⟨rfl, encV_long .., fun _ => ?_⟩
  rw [decodeWord, major33 (encV_major ..), decodeMajor33, encV_fn]
  simp only [encV_fields, bitSelf]
  exact checked_ok h
theorem vmin d a b t k m : Statement (.vmin d a b t k m) := by
  refine fun h => ⟨rfl, encV_long .., fun _ => ?_⟩
  rw [decodeWord, major33 (encV_major ..), decodeMajor33, encV_fn]
  simp only [encV_fields, bitSelf]
  exact checked_ok h
theorem vmax d a b t k m : Statement (.vmax d a b t k m) := by
  refine fun h => ⟨rfl, encV_long .., fun _ => ?_⟩
  rw [decodeWord, major33 (encV_major ..), decodeMajor33, encV_fn]
  simp only [encV_fields, bitSelf]
  exact checked_ok h
theorem vabs d a t k m : Statement (.vabs d a t k m) := by
  refine fun h => ⟨rfl, encV_long .., fun _ => ?_⟩
  rw [decodeWord, major33 (encV_major ..), decodeMajor33, encV_fn]
  simp only [encV_fields, bitSelf]
  exact checked_must rfl h
theorem vneg d a t k m : Statement (.vneg d a t k m) := by
  refine fun h => ⟨rfl, encV_long .., fun _ => ?_⟩
  rw [decodeWord, major33 (encV_major ..), decodeMajor33, encV_fn]
  simp only [encV_fields, bitSelf]
  exact checked_must rfl h
theorem vdiv d a b t k m : Statement (.vdiv d a b t k m) := by
  refine fun h => ⟨rfl, encV_long .., fun _ => ?_⟩
  rw [decodeWord, major33 (encV_major ..), decodeMajor33, encV_fn]
  simp only [encV_fields, bitSelf]
  exact checked_ok h
theorem vsqrt d a t k m : Statement (.vsqrt d a t k m) := by
  refine fun h => ⟨rfl, encV_long .., fun _ => ?_⟩
  rw [decodeWord, major33 (encV_major ..), decodeMajor33, encV_fn]
  simp only [encV_fields, bitSelf]
  exact checked_must rfl h
theorem vrsqrt d a t k m : Statement (.vrsqrt d a t k m) := by
  refine fun h => ⟨rfl, encV_long .., fun _ => ?_⟩
  rw [decodeWord, major33 (encV_major ..), decodeMajor33, encV_fn]
  simp only [encV_fields, bitSelf]
  exact checked_must rfl h
theorem vrcp d a t k m : Statement (.vrcp d a t k m) := by
  refine fun h => ⟨rfl, encV_long .., fun _ => ?_⟩
  rw [decodeWord, major33 (encV_major ..), decodeMajor33, encV_fn]
  simp only [encV_fields, bitSelf]
  exact checked_must rfl h
theorem vexp2 d a t k m : Statement (.vexp2 d a t k m) := by
  refine fun h => ⟨rfl, encV_long .., fun _ => ?_⟩
  rw [decodeWord, major33 (encV_major ..), decodeMajor33, encV_fn]
  simp only [encV_fields, bitSelf]
  exact checked_must rfl h
theorem vlog2 d a t k m : Statement (.vlog2 d a t k m) := by
  refine fun h => ⟨rfl, encV_long .., fun _ => ?_⟩
  rw [decodeWord, major33 (encV_major ..), decodeMajor33, encV_fn]
  simp only [encV_fields, bitSelf]
  exact checked_must rfl h
theorem vsig d a t k m : Statement (.vsig d a t k m) := by
  refine fun h => ⟨rfl, encV_long .., fun _ => ?_⟩
  rw [decodeWord, major33 (encV_major ..), decodeMajor33, encV_fn]
  simp only [encV_fields, bitSelf]
  exact checked_must rfl h
theorem vtanh d a t k m : Statement (.vtanh d a t k m) := by
  refine fun h => ⟨rfl, encV_long .., fun _ => ?_⟩
  rw [decodeWord, major33 (encV_major ..), decodeMajor33, encV_fn]
  simp only [encV_fields, bitSelf]
  exact checked_must rfl h
theorem viadd d a b t k m : Statement (.viadd d a b t k m) := by
  refine fun h => ⟨rfl, encV_long .., fun _ => ?_⟩
  rw [decodeWord, major34 (encV_major ..), decodeMajor34, encV_fn]
  simp only [encV_fields, bitSelf]
  exact checked_ok h
theorem visub d a b t k m : Statement (.visub d a b t k m) := by
  refine fun h => ⟨rfl, encV_long .., fun _ => ?_⟩
  rw [decodeWord, major34 (encV_major ..), decodeMajor34, encV_fn]
  simp only [encV_fields, bitSelf]
  exact checked_ok h
theorem vimul d a b t k m : Statement (.vimul d a b t k m) := by
  refine fun h => ⟨rfl, encV_long .., fun _ => ?_⟩
  rw [decodeWord, major34 (encV_major ..), decodeMajor34, encV_fn]
  simp only [encV_fields, bitSelf]
  exact checked_ok h
theorem vimulh d a b t k m : Statement (.vimulh d a b t k m) := by
  refine fun h => ⟨rfl, encV_long .., fun _ => ?_⟩
  rw [decodeWord, major34 (encV_major ..), decodeMajor34, encV_fn]
  simp only [encV_fields, bitSelf]
  exact checked_ok h
theorem vand d a b t k m : Statement (.vand d a b t k m) := by
  refine fun h => ⟨rfl, encV_long .., fun _ => ?_⟩
  rw [decodeWord, major34 (encV_major ..), decodeMajor34, encV_fn]
  simp only [encV_fields, bitSelf]
  exact checked_ok h
theorem vor d a b t k m : Statement (.vor d a b t k m) := by
  refine fun h => ⟨rfl, encV_long .., fun _ => ?_⟩
  rw [decodeWord, major34 (encV_major ..), decodeMajor34, encV_fn]
  simp only [encV_fields, bitSelf]
  exact checked_ok h
theorem vxor d a b t k m : Statement (.vxor d a b t k m) := by
  refine fun h => ⟨rfl, encV_long .., fun _ => ?_⟩
  rw [decodeWord, major34 (encV_major ..), decodeMajor34, encV_fn]
  simp only [encV_fields, bitSelf]
  exact checked_ok h
theorem vsll d a b t k m : Statement (.vsll d a b t k m) := by
  refine fun h => ⟨rfl, encV_long .., fun _ => ?_⟩
  rw [decodeWord, major34 (encV_major ..), decodeMajor34, encV_fn]
  simp only [encV_fields, bitSelf]
  exact checked_ok h
theorem vsrl d a b t k m : Statement (.vsrl d a b t k m) := by
  refine fun h => ⟨rfl, encV_long .., fun _ => ?_⟩
  rw [decodeWord, major34 (encV_major ..), decodeMajor34, encV_fn]
  simp only [encV_fields, bitSelf]
  exact checked_ok h
theorem vsra d a b t k m : Statement (.vsra d a b t k m) := by
  refine fun h => ⟨rfl, encV_long .., fun _ => ?_⟩
  rw [decodeWord, major34 (encV_major ..), decodeMajor34, encV_fn]
  simp only [encV_fields, bitSelf]
  exact checked_ok h
theorem vimin d a b t k m : Statement (.vimin d a b t k m) := by
  refine fun h => ⟨rfl, encV_long .., fun _ => ?_⟩
  rw [decodeWord, major34 (encV_major ..), decodeMajor34, encV_fn]
  simp only [encV_fields, bitSelf]
  exact checked_ok h
theorem vimax d a b t k m : Statement (.vimax d a b t k m) := by
  refine fun h => ⟨rfl, encV_long .., fun _ => ?_⟩
  rw [decodeWord, major34 (encV_major ..), decodeMajor34, encV_fn]
  simp only [encV_fields, bitSelf]
  exact checked_ok h
theorem viminu d a b t k m : Statement (.viminu d a b t k m) := by
  refine fun h => ⟨rfl, encV_long .., fun _ => ?_⟩
  rw [decodeWord, major34 (encV_major ..), decodeMajor34, encV_fn]
  simp only [encV_fields, bitSelf]
  exact checked_ok h
theorem vimaxu d a b t k m : Statement (.vimaxu d a b t k m) := by
  refine fun h => ⟨rfl, encV_long .., fun _ => ?_⟩
  rw [decodeWord, major34 (encV_major ..), decodeMajor34, encV_fn]
  simp only [encV_fields, bitSelf]
  exact checked_ok h
theorem vcmpEq d a b t k m : Statement (.vcmpEq d a b t k m) := by
  refine fun h => ⟨rfl, encV_long .., fun _ => ?_⟩
  rw [decodeWord, major35 (encV_major ..), decodeMajor35, encV_fn]
  simp only [encV_fields, extHi, extLo, bitSelf]
  exact checked_must rfl h
theorem vcmpLt d a b t k m : Statement (.vcmpLt d a b t k m) := by
  refine fun h => ⟨rfl, encV_long .., fun _ => ?_⟩
  rw [decodeWord, major35 (encV_major ..), decodeMajor35, encV_fn]
  simp only [encV_fields, extHi, extLo, bitSelf]
  exact checked_must rfl h
theorem vcmpLe d a b t k m : Statement (.vcmpLe d a b t k m) := by
  refine fun h => ⟨rfl, encV_long .., fun _ => ?_⟩
  rw [decodeWord, major35 (encV_major ..), decodeMajor35, encV_fn]
  simp only [encV_fields, extHi, extLo, bitSelf]
  exact checked_must rfl h
theorem vsel d a b t k m : Statement (.vsel d a b t k m) := by
  refine fun h => ⟨rfl, encV_long .., fun _ => ?_⟩
  rw [decodeWord, major35 (encV_major ..), decodeMajor35, encV_fn]
  simp only [encV_fields, bitSelf]
  exact checked_ok h
theorem vperm d a b t k m : Statement (.vperm d a b t k m) := by
  refine fun h => ⟨rfl, encV_long .., fun _ => ?_⟩
  rw [decodeWord, major35 (encV_major ..), decodeMajor35, encV_fn]
  simp only [encV_fields, bitSelf]
  exact checked_ok h
theorem vbcast d a t k m : Statement (.vbcast d a t k m) := by
  refine fun h => ⟨rfl, encV_long .., fun _ => ?_⟩
  rw [decodeWord, major35 (encV_major ..), decodeMajor35, encV_fn]
  simp only [encV_fields, bitSelf]
  exact checked_must rfl h
theorem vslide d a b t k m : Statement (.vslide d a b t k m) := by
  refine fun h => ⟨rfl, encV_long .., fun _ => ?_⟩
  rw [decodeWord, major35 (encV_major ..), decodeMajor35, encV_fn]
  simp only [encV_fields, bitSelf]
  exact checked_ok h
theorem vmov d a t k m : Statement (.vmov d a t k m) := by
  refine fun h => ⟨rfl, encV_long .., fun _ => ?_⟩
  rw [decodeWord, major35 (encV_major ..), decodeMajor35, encV_fn]
  simp only [encV_fields, bitSelf]
  exact checked_must rfl h
theorem vredAdd d a t k m : Statement (.vredAdd d a t k m) := by
  refine fun h => ⟨rfl, encV_long .., fun _ => ?_⟩
  rw [decodeWord, major35 (encV_major ..), decodeMajor35, encV_fn]
  simp only [encV_fields, bitSelf]
  exact checked_must rfl h
theorem vredMax d a t k m : Statement (.vredMax d a t k m) := by
  refine fun h => ⟨rfl, encV_long .., fun _ => ?_⟩
  rw [decodeWord, major35 (encV_major ..), decodeMajor35, encV_fn]
  simp only [encV_fields, bitSelf]
  exact checked_must rfl h
theorem vredMin d a t k m : Statement (.vredMin d a t k m) := by
  refine fun h => ⟨rfl, encV_long .., fun _ => ?_⟩
  rw [decodeWord, major35 (encV_major ..), decodeMajor35, encV_fn]
  simp only [encV_fields, bitSelf]
  exact checked_must rfl h
theorem vcvt d a k s m : Statement (.vcvt d a k s m) := by
  refine fun h => ⟨rfl, encV_long .., fun _ => ?_⟩
  rw [decodeWord, major35 (encV_major ..), decodeMajor35, encV_fn]
  simp only [encV_fields]
  exact checked_must rfl h
theorem vxt d a t i m : Statement (.vxt d a t i m) := by
  refine fun h => ⟨rfl, encV_long .., fun _ => ?_⟩
  rw [decodeWord, major35 (encV_major ..), decodeMajor35, encV_fn]
  simp only [encV_fields, bitSelf]
  exact checked_must rfl h
theorem vins d a t i m : Statement (.vins d a t i m) := by
  refine fun h => ⟨rfl, encV_long .., fun _ => ?_⟩
  rw [decodeWord, major35 (encV_major ..), decodeMajor35, encV_fn]
  simp only [encV_fields, bitSelf]
  exact checked_must rfl h
theorem mand d a b m : Statement (.mand d a b m) := by
  refine fun h => ⟨rfl, encV_long .., fun _ => ?_⟩
  rw [decodeWord, major36 (encV_major ..), decodeMajor36, encV_fn]
  simp only [encV_fields, extHi, extLo]
  exact checked_must rfl h
theorem mor d a b m : Statement (.mor d a b m) := by
  refine fun h => ⟨rfl, encV_long .., fun _ => ?_⟩
  rw [decodeWord, major36 (encV_major ..), decodeMajor36, encV_fn]
  simp only [encV_fields, extHi, extLo]
  exact checked_must rfl h
theorem mxor d a b m : Statement (.mxor d a b m) := by
  refine fun h => ⟨rfl, encV_long .., fun _ => ?_⟩
  rw [decodeWord, major36 (encV_major ..), decodeMajor36, encV_fn]
  simp only [encV_fields, extHi, extLo]
  exact checked_must rfl h
theorem mnot d a m : Statement (.mnot d a m) := by
  refine fun h => ⟨rfl, encV_long .., fun _ => ?_⟩
  rw [decodeWord, major36 (encV_major ..), decodeMajor36, encV_fn]
  simp only [encV_fields, extHi, extLo]
  exact checked_must rfl h
theorem mpop d a m : Statement (.mpop d a m) := by
  refine fun h => ⟨rfl, encV_long .., fun _ => ?_⟩
  rw [decodeWord, major36 (encV_major ..), decodeMajor36, encV_fn]
  simp only [encV_fields, extHi, extLo]
  exact checked_must rfl h
theorem mset d a m : Statement (.mset d a m) := by
  refine fun h => ⟨rfl, encV_long .., fun _ => ?_⟩
  rw [decodeWord, major36 (encV_major ..), decodeMajor36, encV_fn]
  simp only [encV_fields, extHi, extLo]
  exact checked_must rfl h
theorem strbind d a b s m : Statement (.strbind d a b s m) := by
  refine fun h => ⟨rfl, encX_long .., fun _ => ?_⟩
  rw [decodeWord, major37 (encX_major ..), decodeMajor37, encX_fn]
  simp only [encX_fields, extHi, extLo]
  exact checked_must rfl h
theorem strfree d s m : Statement (.strfree d s m) := by
  refine fun h => ⟨rfl, encX_long .., fun _ => ?_⟩
  rw [decodeWord, major37 (encX_major ..), decodeMajor37, encX_fn]
  simp only [encX_fields, extHi, extLo]
  exact checked_must rfl h
theorem strst d a m : Statement (.strst d a m) := by
  refine fun h => ⟨rfl, encX_long .., fun _ => ?_⟩
  rw [decodeWord, major37 (encX_major ..), decodeMajor37, encX_fn]
  simp only [encX_fields, extHi, extLo]
  exact checked_must rfl h
theorem bscale d a b m : Statement (.bscale d a b m) := by
  refine fun h => ⟨rfl, encX_long .., fun _ => ?_⟩
  rw [decodeWord, major38 (encX_major ..), decodeMajor38, encX_fn]
  simp only [encX_fields]
  exact checked_must rfl h
theorem baddqAcc d a b s m : Statement (.baddqAcc d a b s m) := by
  refine fun h => ⟨rfl, encX_long .., fun _ => ?_⟩
  rw [decodeWord, major38 (encX_major ..), decodeMajor38, encX_fn]
  simp only [encX_fields]
  exact checked_ok h
theorem baddqOut d a b s m : Statement (.baddqOut d a b s m) := by
  refine fun h => ⟨rfl, encX_long .., fun _ => ?_⟩
  rw [decodeWord, major38 (encX_major ..), decodeMajor38, encX_fn]
  simp only [encX_fields]
  exact checked_ok h
theorem vsr d a m : Statement (.vsr d a m) := by
  refine fun h => ⟨rfl, encX_long .., fun _ => ?_⟩
  rw [decodeWord, major38 (encX_major ..), decodeMajor38, encX_fn]
  simp only [encX_fields]
  exact checked_must rfl h
theorem mcfg d a m : Statement (.mcfg d a m) := by
  refine fun h => ⟨rfl, encX_long .., fun _ => ?_⟩
  rw [decodeWord, major3A (encX_major ..), decodeMajor3A, encX_fn]
  simp only [encX_fields]
  exact checked_must rfl h
theorem mload a b s m : Statement (.mload a b s m) := by
  refine fun h => ⟨rfl, encX_long .., fun _ => ?_⟩
  rw [decodeWord, major3A (encX_major ..), decodeMajor3A, encX_fn]
  simp only [encX_fields]
  exact checked_must rfl h
theorem mmul a b s m : Statement (.mmul a b s m) := by
  refine fun h => ⟨rfl, encX_long .., fun _ => ?_⟩
  rw [decodeWord, major3A (encX_major ..), decodeMajor3A, encX_fn]
  simp only [encX_fields]
  exact checked_must rfl h
theorem mmulz a b s m : Statement (.mmulz a b s m) := by
  refine fun h => ⟨rfl, encX_long .., fun _ => ?_⟩
  rw [decodeWord, major3A (encX_major ..), decodeMajor3A, encX_fn]
  simp only [encX_fields]
  exact checked_must rfl h
theorem mmulBc a b s m : Statement (.mmulBc a b s m) := by
  refine fun h => ⟨rfl, encX_long .., fun _ => ?_⟩
  rw [decodeWord, major3A (encX_major ..), decodeMajor3A, encX_fn]
  simp only [encX_fields]
  exact checked_must rfl h
theorem mtmul a b s m : Statement (.mtmul a b s m) := by
  refine fun h => ⟨rfl, encX_long .., fun _ => ?_⟩
  rw [decodeWord, major3A (encX_major ..), decodeMajor3A, encX_fn]
  simp only [encX_fields]
  exact checked_must rfl h
theorem acld a b s m : Statement (.acld a b s m) := by
  refine fun h => ⟨rfl, encX_long .., fun _ => ?_⟩
  rw [decodeWord, major3A (encX_major ..), decodeMajor3A, encX_fn]
  simp only [encX_fields]
  exact checked_must rfl h
theorem acst a b s m : Statement (.acst a b s m) := by
  refine fun h => ⟨rfl, encX_long .., fun _ => ?_⟩
  rw [decodeWord, major3A (encX_major ..), decodeMajor3A, encX_fn]
  simp only [encX_fields]
  exact checked_must rfl h
theorem acrd d a s m : Statement (.acrd d a s m) := by
  refine fun h => ⟨rfl, encX_long .., fun _ => ?_⟩
  rw [decodeWord, major3A (encX_major ..), decodeMajor3A, encX_fn]
  simp only [encX_fields]
  exact checked_must rfl h
theorem acwr d a s m : Statement (.acwr d a s m) := by
  refine fun h => ⟨rfl, encX_long .., fun _ => ?_⟩
  rw [decodeWord, major3A (encX_major ..), decodeMajor3A, encX_fn]
  simp only [encX_fields]
  exact checked_must rfl h
theorem acz a s m : Statement (.acz a s m) := by
  refine fun h => ⟨rfl, encX_long .., fun _ => ?_⟩
  rw [decodeWord, major3A (encX_major ..), decodeMajor3A, encX_fn]
  simp only [encX_fields]
  exact checked_must rfl h
theorem mredund d a m : Statement (.mredund d a m) := by
  refine fun h => ⟨rfl, encX_long .., fun _ => ?_⟩
  rw [decodeWord, major3A (encX_major ..), decodeMajor3A, encX_fn]
  simp only [encX_fields]
  exact checked_must rfl h
theorem mqst d a m : Statement (.mqst d a m) := by
  refine fun h => ⟨rfl, encX_long .., fun _ => ?_⟩
  rw [decodeWord, major3A (encX_major ..), decodeMajor3A, encX_fn]
  simp only [encX_fields]
  exact checked_must rfl h
theorem kset a b s m : Statement (.kset a b s m) := by
  refine fun h => ⟨rfl, encX_long .., fun _ => ?_⟩
  rw [decodeWord, major3B (encX_major ..), decodeMajor3B, encX_fn]
  simp only [encX_fields]
  exact checked_must rfl h
theorem seval a b s m : Statement (.seval a b s m) := by
  refine fun h => ⟨rfl, encX_long .., fun _ => ?_⟩
  rw [decodeWord, major3B (encX_major ..), decodeMajor3B, encX_fn]
  simp only [encX_fields]
  exact checked_must rfl h
theorem sderiv a b s m : Statement (.sderiv a b s m) := by
  refine fun h => ⟨rfl, encX_long .., fun _ => ?_⟩
  rw [decodeWord, major3B (encX_major ..), decodeMajor3B, encX_fn]
  simp only [encX_fields]
  exact checked_must rfl h
theorem sgfold a b s m : Statement (.sgfold a b s m) := by
  refine fun h => ⟨rfl, encX_long .., fun _ => ?_⟩
  rw [decodeWord, major3B (encX_major ..), decodeMajor3B, encX_fn]
  simp only [encX_fields]
  exact checked_must rfl h
theorem sload a b s m : Statement (.sload a b s m) := by
  refine fun h => ⟨rfl, encX_long .., fun _ => ?_⟩
  rw [decodeWord, major3B (encX_major ..), decodeMajor3B, encX_fn]
  simp only [encX_fields]
  exact checked_must rfl h
theorem srefine s m : Statement (.srefine s m) := by
  refine fun h => ⟨rfl, encX_long .., fun _ => ?_⟩
  rw [decodeWord, major3B (encX_major ..), decodeMajor3B, encX_fn]
  simp only [encX_fields]
  exact checked_must rfl h
theorem sextend a s m : Statement (.sextend a s m) := by
  refine fun h => ⟨rfl, encX_long .., fun _ => ?_⟩
  rw [decodeWord, major3B (encX_major ..), decodeMajor3B, encX_fn]
  simp only [encX_fields]
  exact checked_must rfl h
theorem kcnt d a s m : Statement (.kcnt d a s m) := by
  refine fun h => ⟨rfl, encX_long .., fun _ => ?_⟩
  rw [decodeWord, major3B (encX_major ..), decodeMajor3B, encX_fn]
  simp only [encX_fields]
  exact checked_must rfl h
theorem sbrec a b s m : Statement (.sbrec a b s m) := by
  refine fun h => ⟨rfl, encX_long .., fun _ => ?_⟩
  rw [decodeWord, major3B (encX_major ..), decodeMajor3B, encX_fn]
  simp only [encX_fields]
  exact checked_must rfl h
theorem cyopen d a b m : Statement (.cyopen d a b m) := by
  refine fun h => ⟨rfl, encX_long .., fun _ => ?_⟩
  rw [decodeWord, major3C (encX_major ..), decodeMajor3C, encX_fn]
  simp only [encX_fields]
  exact checked_must rfl h
theorem cyphase d a b m : Statement (.cyphase d a b m) := by
  refine fun h => ⟨rfl, encX_long .., fun _ => ?_⟩
  rw [decodeWord, major3C (encX_major ..), decodeMajor3C, encX_fn]
  simp only [encX_fields]
  exact checked_must rfl h
theorem cyres d a b m : Statement (.cyres d a b m) := by
  refine fun h => ⟨rfl, encX_long .., fun _ => ?_⟩
  rw [decodeWord, major3C (encX_major ..), decodeMajor3C, encX_fn]
  simp only [encX_fields]
  exact checked_must rfl h
theorem cytest d a m : Statement (.cytest d a m) := by
  refine fun h => ⟨rfl, encX_long .., fun _ => ?_⟩
  rw [decodeWord, major3C (encX_major ..), decodeMajor3C, encX_fn]
  simp only [encX_fields]
  exact checked_must rfl h
theorem cyclose d a m : Statement (.cyclose d a m) := by
  refine fun h => ⟨rfl, encX_long .., fun _ => ?_⟩
  rw [decodeWord, major3C (encX_major ..), decodeMajor3C, encX_fn]
  simp only [encX_fields]
  exact checked_must rfl h
theorem cystat d a m : Statement (.cystat d a m) := by
  refine fun h => ⟨rfl, encX_long .., fun _ => ?_⟩
  rw [decodeWord, major3C (encX_major ..), decodeMajor3C, encX_fn]
  simp only [encX_fields]
  exact checked_must rfl h
theorem cyack d a m : Statement (.cyack d a m) := by
  refine fun h => ⟨rfl, encX_long .., fun _ => ?_⟩
  rw [decodeWord, major3C (encX_major ..), decodeMajor3C, encX_fn]
  simp only [encX_fields]
  exact checked_must rfl h
theorem cpq d a m : Statement (.cpq d a m) := by
  refine fun h => ⟨rfl, encX_long .., fun _ => ?_⟩
  rw [decodeWord, major3D (encX_major ..), decodeMajor3D, encX_fn]
  simp only [encX_fields]
  exact checked_must rfl h
theorem cpwp d a m : Statement (.cpwp d a m) := by
  refine fun h => ⟨rfl, encX_long .., fun _ => ?_⟩
  rw [decodeWord, major3D (encX_major ..), decodeMajor3D, encX_fn]
  simp only [encX_fields]
  exact checked_must rfl h
theorem cpwait d a b m : Statement (.cpwait d a b m) := by
  refine fun h => ⟨rfl, encX_long .., fun _ => ?_⟩
  rw [decodeWord, major3D (encX_major ..), decodeMajor3D, encX_fn]
  simp only [encX_fields]
  exact checked_must rfl h
theorem cpst d a b m : Statement (.cpst d a b m) := by
  refine fun h => ⟨rfl, encX_long .., fun _ => ?_⟩
  rw [decodeWord, major3D (encX_major ..), decodeMajor3D, encX_fn]
  simp only [encX_fields]
  exact checked_must rfl h
theorem cpqNb d a m : Statement (.cpqNb d a m) := by
  refine fun h => ⟨rfl, encX_long .., fun _ => ?_⟩
  rw [decodeWord, major3D (encX_major ..), decodeMajor3D, encX_fn]
  simp only [encX_fields]
  exact checked_must rfl h
theorem msend d a b s m : Statement (.msend d a b s m) := by
  refine fun h => ⟨rfl, encX_long .., fun _ => ?_⟩
  rw [decodeWord, major3E (encX_major ..), decodeMajor3E, encX_fn]
  simp only [encX_fields]
  exact checked_ok h
theorem mpost d a b s m : Statement (.mpost d a b s m) := by
  refine fun h => ⟨rfl, encX_long .., fun _ => ?_⟩
  rw [decodeWord, major3E (encX_major ..), decodeMajor3E, encX_fn]
  simp only [encX_fields]
  exact checked_ok h
theorem mprobe d a b m : Statement (.mprobe d a b m) := by
  refine fun h => ⟨rfl, encX_long .., fun _ => ?_⟩
  rw [decodeWord, major3E (encX_major ..), decodeMajor3E, encX_fn]
  simp only [encX_fields]
  exact checked_must rfl h
theorem mcancel d a m : Statement (.mcancel d a m) := by
  refine fun h => ⟨rfl, encX_long .., fun _ => ?_⟩
  rw [decodeWord, major3E (encX_major ..), decodeMajor3E, encX_fn]
  simp only [encX_fields]
  exact checked_must rfl h
theorem lnpark d a m : Statement (.lnpark d a m) := by
  refine fun h => ⟨rfl, encX_long .., fun _ => ?_⟩
  rw [decodeWord, major3E (encX_major ..), decodeMajor3E, encX_fn]
  simp only [encX_fields]
  exact checked_must rfl h
theorem lnwake d a m : Statement (.lnwake d a m) := by
  refine fun h => ⟨rfl, encX_long .., fun _ => ?_⟩
  rw [decodeWord, major3E (encX_major ..), decodeMajor3E, encX_fn]
  simp only [encX_fields]
  exact checked_must rfl h
theorem lnst d a m : Statement (.lnst d a m) := by
  refine fun h => ⟨rfl, encX_long .., fun _ => ?_⟩
  rw [decodeWord, major3E (encX_major ..), decodeMajor3E, encX_fn]
  simp only [encX_fields]
  exact checked_must rfl h
theorem gwtake d a m : Statement (.gwtake d a m) := by
  refine fun h => ⟨rfl, encX_long .., fun _ => ?_⟩
  rw [decodeWord, major3E (encX_major ..), decodeMajor3E, encX_fn]
  simp only [encX_fields]
  exact checked_must rfl h
theorem nspawn d a m : Statement (.nspawn d a m) := by
  refine fun h => ⟨rfl, encA_long .., fun _ => ?_⟩
  rw [decodeWord, major3F (encA_major ..), decodeMajor3F, encA_fn]
  simp only [encA_fields]
  exact checked_must rfl h
theorem ndone m : Statement (.ndone m) := by
  refine fun h => ⟨rfl, encA_long .., fun _ => ?_⟩
  rw [decodeWord, major3F (encA_major ..), decodeMajor3F, encA_fn]
  simp only [encA_fields]
  exact checked_must rfl h
theorem nyield d m : Statement (.nyield d m) := by
  refine fun h => ⟨rfl, encA_long .., fun _ => ?_⟩
  rw [decodeWord, major3F (encA_major ..), decodeMajor3F, encA_fn]
  simp only [encA_fields]
  exact checked_must rfl h
theorem ndep d a b m : Statement (.ndep d a b m) := by
  refine fun h => ⟨rfl, encA_long .., fun _ => ?_⟩
  rw [decodeWord, major3F (encA_major ..), decodeMajor3F, encA_fn]
  simp only [encA_fields]
  exact checked_must rfl h
theorem rlaunch d a b m : Statement (.rlaunch d a b m) := by
  refine fun h => ⟨rfl, encA_long .., fun _ => ?_⟩
  rw [decodeWord, major3F (encA_major ..), decodeMajor3F, encA_fn]
  simp only [encA_fields]
  exact checked_must rfl h
theorem rswitchSuspend d a b m : Statement (.rswitchSuspend d a b m) := by
  refine fun h => ⟨rfl, encA_long .., fun _ => ?_⟩
  rw [decodeWord, major3F (encA_major ..), decodeMajor3F, encA_fn]
  simp only [encA_fields]
  exact checked_must rfl h
theorem sys a k m : Statement (.sys a k m) := by
  refine fun h => ⟨rfl, encA_long .., fun _ => ?_⟩
  rw [decodeWord, major3F (encA_major ..), decodeMajor3F, encA_fn]
  simp only [encA_fields, extHi, extLo]
  exact checked_must rfl h
theorem eret m : Statement (.eret m) := by
  refine fun h => ⟨rfl, encA_long .., fun _ => ?_⟩
  rw [decodeWord, major3F (encA_major ..), decodeMajor3F, encA_fn]
  simp only [encA_fields]
  exact checked_must rfl h
theorem srd d n m : Statement (.srd d n m) := by
  refine fun h => ⟨rfl, encA_long .., fun _ => ?_⟩
  rw [decodeWord, major3F (encA_major ..), decodeMajor3F, encA_fn]
  simp only [encA_fields, extHi, extLo, join12]
  exact checked_must rfl h
theorem swr d n m : Statement (.swr d n m) := by
  refine fun h => ⟨rfl, encA_long .., fun _ => ?_⟩
  rw [decodeWord, major3F (encA_major ..), decodeMajor3F, encA_fn]
  simp only [encA_fields, extHi, extLo, join12]
  exact checked_must rfl h
theorem wfi m : Statement (.wfi m) := by
  refine fun h => ⟨rfl, encA_long .., fun _ => ?_⟩
  rw [decodeWord, major3F (encA_major ..), decodeMajor3F, encA_fn]
  simp only [encA_fields]
  exact checked_must rfl h
theorem gstop d a m : Statement (.gstop d a m) := by
  refine fun h => ⟨rfl, encA_long .., fun _ => ?_⟩
  rw [decodeWord, major3F (encA_major ..), decodeMajor3F, encA_fn]
  simp only [encA_fields]
  exact checked_must rfl h
theorem tlbinv d a b m : Statement (.tlbinv d a b m) := by
  refine fun h => ⟨rfl, encA_long .., fun _ => ?_⟩
  rw [decodeWord, major3F (encA_major ..), decodeMajor3F, encA_fn]
  simp only [encA_fields]
  exact checked_must rfl h
theorem pginvack d a m : Statement (.pginvack d a m) := by
  refine fun h => ⟨rfl, encA_long .., fun _ => ?_⟩
  rw [decodeWord, major3F (encA_major ..), decodeMajor3F, encA_fn]
  simp only [encA_fields]
  exact checked_must rfl h
theorem pwreq d a m : Statement (.pwreq d a m) := by
  refine fun h => ⟨rfl, encA_long .., fun _ => ?_⟩
  rw [decodeWord, major3F (encA_major ..), decodeMajor3F, encA_fn]
  simp only [encA_fields]
  exact checked_must rfl h
theorem ckpt d a m : Statement (.ckpt d a m) := by
  refine fun h => ⟨rfl, encA_long .., fun _ => ?_⟩
  rw [decodeWord, major3F (encA_major ..), decodeMajor3F, encA_fn]
  simp only [encA_fields]
  exact checked_must rfl h
theorem cMov d a : Statement (.cMov d a) := by
  refine fun h => ⟨rfl, encC_short .., fun _ => ?_⟩
  rw [decodeHalf, if_neg (fun e => absurd (encC_mov e) (by rintro ⟨p, q⟩; subst p; subst q; cases h)), decodeCompact, encC_1_4]
  simp only [encC_fields]
  exact checked_must rfl h
theorem cLi d i : Statement (.cLi d i) := by
  refine fun h => ⟨rfl, encC_short .., fun _ => ?_⟩
  rw [decodeHalf, if_neg (encC_ne (by decide)), decodeCompact, encC_1_4]
  simp only [encC_fields, join6]
  exact checked_ok h
theorem cAddi d i : Statement (.cAddi d i) := by
  refine fun h => ⟨rfl, encC_short .., fun _ => ?_⟩
  rw [decodeHalf, if_neg (encC_ne (by decide)), decodeCompact, encC_1_4]
  simp only [encC_fields, join6]
  exact checked_ok h
theorem cAdd d a : Statement (.cAdd d a) := by
  refine fun h => ⟨rfl, encC_short .., fun _ => ?_⟩
  rw [decodeHalf, if_neg (encC_ne (by decide)), decodeCompact, encC_1_4]
  simp only [encC_fields]
  exact checked_must rfl h
theorem cSub d a : Statement (.cSub d a) := by
  refine fun h => ⟨rfl, encC_short .., fun _ => ?_⟩
  rw [decodeHalf, if_neg (encC_ne (by decide)), decodeCompact, encC_1_4]
  simp only [encC_fields]
  exact checked_must rfl h
theorem cAnd d a : Statement (.cAnd d a) := by
  refine fun h => ⟨rfl, encC_short .., fun _ => ?_⟩
  rw [decodeHalf, if_neg (encC_ne (by decide)), decodeCompact, encC_1_4]
  simp only [encC_fields]
  exact checked_must rfl h
theorem cOr d a : Statement (.cOr d a) := by
  refine fun h => ⟨rfl, encC_short .., fun _ => ?_⟩
  rw [decodeHalf, if_neg (encC_ne (by decide)), decodeCompact, encC_1_4]
  simp only [encC_fields]
  exact checked_must rfl h
theorem cLd d o : Statement (.cLd d o) := by
  refine fun h => ⟨rfl, encC_short .., fun _ => ?_⟩
  rw [decodeHalf, if_neg (encC_ne (by decide)), decodeCompact, encC_1_4]
  simp only [encC_fields, join6]
  exact checked_ok h
theorem cSt d o : Statement (.cSt d o) := by
  refine fun h => ⟨rfl, encC_short .., fun _ => ?_⟩
  rw [decodeHalf, if_neg (encC_ne (by decide)), decodeCompact, encC_1_4]
  simp only [encC_fields, join6]
  exact checked_ok h
theorem cBz d o : Statement (.cBz d o) := by
  refine fun h => ⟨rfl, encC_short .., fun _ => ?_⟩
  rw [decodeHalf, if_neg (encC_ne (by decide)), decodeCompact, encC_1_4]
  simp only [encC_fields, join6]
  exact checked_ok h
theorem cBnz d o : Statement (.cBnz d o) := by
  refine fun h => ⟨rfl, encC_short .., fun _ => ?_⟩
  rw [decodeHalf, if_neg (encC_ne (by decide)), decodeCompact, encC_1_4]
  simp only [encC_fields, join6]
  exact checked_ok h
theorem cJmp o : Statement (.cJmp o) := by
  refine fun h => ⟨rfl, encC_short .., fun _ => ?_⟩
  rw [decodeHalf, if_neg (encC_ne (by decide)), decodeCompact, encC_1_4]
  simp only [encC_fields, join11]
  exact checked_ok h
theorem cRet : Statement (.cRet) := by
  refine fun h => ⟨rfl, encC_short .., fun _ => ?_⟩
  rw [decodeHalf, if_neg (encC_ne (by decide)), decodeCompact, encC_1_4]
  simp only [encC_fields]
  exact checked_must rfl h
theorem cMark : Statement (.cMark) := by
  refine fun h => ⟨rfl, encC_short .., fun _ => ?_⟩
  rw [decodeHalf, if_neg (encC_ne (by decide)), decodeCompact, encC_1_4]
  simp only [encC_fields]
  exact checked_must rfl h
theorem cNop : Statement (.cNop) := by
  refine fun h => ⟨rfl, encC_short .., fun _ => ?_⟩
  rw [decodeHalf, if_neg (encC_ne (by decide)), decodeCompact, encC_1_4]
  simp only [encC_fields]
  exact checked_must rfl h
theorem cpstResume d a b m : Statement (.cpstResume d a b m) := fun _ => ⟨rfl, encX_long .., nofun⟩
theorem cpstAbandon d a b m : Statement (.cpstAbandon d a b m) := fun _ => ⟨rfl, encX_long .., nofun⟩
theorem rswitchResume d a b m : Statement (.rswitchResume d a b m) := fun _ => ⟨rfl, encA_long .., nofun⟩
theorem rswitchEnd d a b m : Statement (.rswitchEnd d a b m) := fun _ => ⟨rfl, encA_long .., nofun⟩
theorem instructionFetch : Statement (.instructionFetch) := fun _ => rfl
theorem parkEnd : Statement (.parkEnd) := fun _ => rfl
theorem nonblockingResultReturn id : Statement (.nonblockingResultReturn id) := fun _ => rfl
theorem interruptTaken : Statement (.interruptTaken) := fun _ => rfl
theorem waitDeadline : Statement (.waitDeadline) := fun _ => rfl
theorem wfiWake : Statement (.wfiWake) := fun _ => rfl
theorem sleepWakeEvent : Statement (.sleepWakeEvent) := fun _ => rfl
theorem pageWalk off write : Statement (.pageWalk off write) := fun _ => rfl
theorem remoteTranslationRequest node region off want : Statement (.remoteTranslationRequest node region off want) := fun _ => rfl
theorem translationReply node region off level leaf cause reason : Statement (.translationReply node region off level leaf cause reason) := fun _ => rfl
theorem tlbInvalidation node ticket kind page bits : Statement (.tlbInvalidation node ticket kind page bits) := fun _ => rfl
theorem invalidationAck node ticket dead : Statement (.invalidationAck node ticket dead) := fun _ => rfl
theorem remoteAccessArrival acc : Statement (.remoteAccessArrival acc) := fun _ => rfl
theorem hostAccessArrival acc : Statement (.hostAccessArrival acc) := fun _ => rfl
theorem combiningDrain k : Statement (.combiningDrain k) := fun _ => rfl
theorem combiningIdleTimeout k : Statement (.combiningIdleTimeout k) := fun _ => rfl
theorem writeAcknowledgement id status : Statement (.writeAcknowledgement id status) := fun _ => rfl
theorem routerReadAbsorb id : Statement (.routerReadAbsorb id) := fun _ => rfl
theorem readReplyArrival k ok reason data : Statement (.readReplyArrival k ok reason data) := fun _ => rfl
theorem atomicPerform id ok reason old : Statement (.atomicPerform id ok reason old) := fun _ => rfl
theorem pinExpiry k : Statement (.pinExpiry k) := fun _ => rfl
theorem forkMarkerPerformed id : Statement (.forkMarkerPerformed id) := fun _ => rfl
theorem joinMarkerPerformed id : Statement (.joinMarkerPerformed id) := fun _ => rfl
theorem tokenCheckRequest node token : Statement (.tokenCheckRequest node token) := fun _ => rfl
theorem tokenCheckReply ok : Statement (.tokenCheckReply ok) := fun _ => rfl
theorem streamFetch r : Statement (.streamFetch r) := fun _ => rfl
theorem tileBegin frame : Statement (.tileBegin frame) := fun _ => rfl
theorem stripDrain frame : Statement (.stripDrain frame) := fun _ => rfl
theorem busTileArrival frame : Statement (.busTileArrival frame) := fun _ => rfl
theorem gridCommandPerform frame : Statement (.gridCommandPerform frame) := fun _ => rfl
theorem engineClockGate frame : Statement (.engineClockGate frame) := fun _ => rfl
theorem startSequencerAdmit : Statement (.startSequencerAdmit) := fun _ => rfl
theorem barrierRelease stair : Statement (.barrierRelease stair) := fun _ => rfl
theorem phaseTimeout stair : Statement (.phaseTimeout stair) := fun _ => rfl
theorem cycleDecision stair : Statement (.cycleDecision stair) := fun _ => rfl
theorem copyBegin group : Statement (.copyBegin group) := fun _ => rfl
theorem copyUnitDelivered slot : Statement (.copyUnitDelivered slot) := fun _ => rfl
theorem copyErrorStop slot code : Statement (.copyErrorStop slot code) := fun _ => rfl
theorem messageArrival msg : Statement (.messageArrival msg) := fun _ => rfl
theorem overflowPayloadCopy slot : Statement (.overflowPayloadCopy slot) := fun _ => rfl
theorem deadlockProbe node : Statement (.deadlockProbe node) := fun _ => rfl
theorem probeReturn node : Statement (.probeReturn node) := fun _ => rfl
theorem laneFailure peer loss : Statement (.laneFailure peer loss) := fun _ => rfl
theorem crcErrorResend peer fibre : Statement (.crcErrorResend peer fibre) := fun _ => rfl
theorem postedWriteRefused id : Statement (.postedWriteRefused id) := fun _ => rfl
theorem packetBoundary peer cls : Statement (.packetBoundary peer cls) := fun _ => rfl
theorem laneLocked peer fibre : Statement (.laneLocked peer fibre) := fun _ => rfl
theorem skeinParked skein : Statement (.skeinParked skein) := fun _ => rfl
theorem skeinWakeTimeout skein : Statement (.skeinWakeTimeout skein) := fun _ => rfl
theorem firmwareRetune peer fibre : Statement (.firmwareRetune peer fibre) := fun _ => rfl
theorem migrationForwardExpiry k : Statement (.migrationForwardExpiry k) := fun _ => rfl
theorem releasePointPerformed k : Statement (.releasePointPerformed k) := fun _ => rfl
theorem dispatch : Statement (.dispatch) := fun _ => rfl
theorem priorityAgeing k : Statement (.priorityAgeing k) := fun _ => rfl
theorem ringWp v : Statement (.ringWp v) := fun _ => rfl
theorem ringReset v : Statement (.ringReset v) := fun _ => rfl
theorem launch : Statement (.launch) := fun _ => rfl
theorem suspend : Statement (.suspend) := fun _ => rfl
theorem resume : Statement (.resume) := fun _ => rfl
theorem endRec : Statement (.endRec) := fun _ => rfl
theorem gangStop region : Statement (.gangStop region) := fun _ => rfl
theorem gangResume region : Statement (.gangResume region) := fun _ => rfl
theorem gstopResume region : Statement (.gstopResume region) := fun _ => rfl
theorem checkpointTick : Statement (.checkpointTick) := fun _ => rfl
theorem uncorrectableMemoryError place met : Statement (.uncorrectableMemoryError place met) := fun _ => rfl
theorem patrolScrub pa correctable : Statement (.patrolScrub pa correctable) := fun _ => rfl
theorem retentionEntry quad : Statement (.retentionEntry quad) := fun _ => rfl
theorem retentionExit quad parityFails : Statement (.retentionExit quad parityFails) := fun _ => rfl
theorem timingErrorReplay count : Statement (.timingErrorReplay count) := fun _ => rfl
theorem budgetRecompute domain cap duty : Statement (.budgetRecompute domain cap duty) := fun _ => rfl
theorem clockRelock domain : Statement (.clockRelock domain) := fun _ => rfl
theorem moduleReset : Statement (.moduleReset) := fun _ => rfl
theorem tkKey d m : Statement (.tkKey d m) := fun _ => rfl
theorem bkFmt n d m : Statement (.bkFmt n d m) := fun _ => rfl
theorem cgPat n d m : Statement (.cgPat n d m) := fun _ => rfl
theorem csTab n d m : Statement (.csTab n d m) := fun _ => rfl
theorem rgAlias d m : Statement (.rgAlias d m) := fun _ => rfl
theorem mxCfg d m : Statement (.mxCfg d m) := fun _ => rfl
theorem unknownKindRingRecord : Statement (.unknownKindRingRecord) := fun _ => rfl
theorem attestationRequest node : Statement (.attestationRequest node) := fun _ => rfl
theorem firmwareUpdateRequest node : Statement (.firmwareUpdateRequest node) := fun _ => rfl

end Sys2Proof.Laws.Encoding
end

