-- ==== Sys2Proof/Tests/Slice0.lean ====
section
/-! SUPPORT. Tests of the model's own work: ill-formed terms, the words of the encoding tables, and concrete states and
operands that meet the hypotheses of the statements, at the ends of their ranges. -/

namespace Sys2Proof.Tests

set_option Elab.async false

open Sys2Proof.Machine Sys2Proof.Claims

/-! ### States to test on -/

/-- A reset module with some general registers of hart 0 set. -/
def regs (l : List (BitVec 5 × Word)) : State := l.foldl (fun s p => s.setX p.1 p.2) State.reset

/-- A live root region. -/
def region5 : Region where
  num := 5
  parent := none
  frames := 128
  gw := 64
  svc := true
  hbm := 8
  ew := 1
  prio := 1
  pool := 16
  fdom := 5
  ptroot := 0x10000
  ckpt := 0
  evq := 0
  ovf := 0
  saveA := 0xFFE000000000000
  saveSz := 0x8000000
  fpol := 0
  enter := .S
  switch := .running
  vnum := 0
  vden := 1
  hadPrio := []
  saves := []

/-- The node that hart 0 runs in that region. -/
def node5 : NodeRun := ⟨5, 0x1000, 0, 1, true, false⟩

/-- A state with hart 0 in the region. -/
def inRegion (s : State) : State := { s with regions := [region5], hart := { s.hart with node := some node5 } }

/-- A little-endian dword written to memory. -/
def poke (k : Nat) (v : Word) (s : State) : State := { s with mem := Memory.store s.mem k (leBytes v.toNat 8) }

/-- The first GiB of HBM mapped onto itself by one leaf of level 2, with every permission. -/
def mapped (s : State) : State := s |> poke (hbmKey 0 0x10000) 0x12001 |> poke (hbmKey 0 0x12000) 0x11F

/-- A global address of the HBM of node 0. -/
def hbm (off : Nat) : Word := mkGa 0 hbmCore off

/-- An unperformed operation of hart 0. -/
def opOf (k : OpKind) : Op := ⟨0, 0x100, 0, 1, 0, .M, none, k, none, []⟩

/-! ### Cycle control -/

/-- Stairwell 1 opened by the region of hart 0. -/
def stair (st : SeqState) (n : Nat) : Sequencer :=
  { Sequencer.reset with state := st, bound := true, region := 5, nflight := 1, flights := [BitVec.ofNat 64 (n * 65536)] }

/-- Hart 0 in the region of stairwell 1, with x10 and x11. -/
def cyc (q : Sequencer) (a b : Word) : State :=
  (inRegion { State.reset with seqs := State.reset.seqs.set 1 q }).setX 10 a |>.setX 11 b

theorem test_hyps_cycle :
    Bound (cyc (stair .open_ 1) 1 0) ((cyc (stair .open_ 1) 1 0).seqr 1) ∧ ¬Bound State.reset (State.reset.seqr 1)
    ∧ (stair .open_ 1).flightOf 0 = some 0 ∧ (stair .open_ 1).flightOf 1 = none
    ∧ (∀ st ∈ [SeqState.open_, .relax, .coarse, .test], (stair st 1).state ≠ .closed ∧ (stair st 1).state ≠ .done)
    ∧ (stair .open_ 2).members = 2 ∧ (stair .open_ 1).members = 1
    ∧ (∀ j : BitVec 3, (cyc (stair .open_ 1) 1 0).hart.waitsOn j 4 = false)
    ∧ ({ State.reset.hart with ops := [opOf .engine] }.waitsOn 0 4 = true)
    ∧ ({ stair .test 1 with partials := [(0, 7)] }).partials = [(0, 7)] ∧ (stair .test 1).partials = [] := by
  unfold Bound; decide +kernel

/-- The ends of the selector ranges of cystat and the phases of cyphase. -/
theorem test_hyps_cycle_fields :
    bitsOf 0x001 8 4 = 0 ∧ bitsOf 0x101 8 4 = 1 ∧ bitsOf 0x601 8 4 = 6 ∧ bitsOf 0x701 8 4 = 7 ∧ bitsOf 0xF01 8 4 = 15
    ∧ bitsOf 0x001 8 2 = 0 ∧ bitsOf 0x301 8 2 = 3 := by decide +kernel

/-- A descriptor that opens stairwell 1 for hart 0: one flight, a limit of 3. -/
def stairBlock : State :=
  (cyc { Sequencer.reset with region := 5 } 0x1000 1) |> poke 0x1000 0x30001 |> poke 0x1028 0x2000 |> poke 0x1030 0x2100 |> poke 0x2000 0x10000

/-- How a blocking read of some dwords ends. -/
def readOk (a : Word) (n : Nat) (s : State) : Bool := match blockRange a n s with | .got _ _ => true | _ => false
def readFault (a : Word) (n : Nat) (s : State) : Bool := match blockRange a n s with | .fault _ _ _ => true | _ => false
def readWait (a : Word) (n : Nat) (s : State) : Bool := match blockRange a n s with | .wait _ => true | _ => false

/-- A descriptor whose flights and landings lie at a node whose translation this module does not hold yet. -/
def stairFar (flt lnd : Word) : State := stairBlock |> poke 0x1028 flt |> poke 0x1030 lnd

/-- How far the opening of stairwell 1 comes: 0 a table faults, 1 a table waits, 2 a code, 3 no room, 4 it opens. -/
def opening (s : State) : Option Nat := match blockRange 0x1000 32 s with
  | .got b u0 =>
    let u := u0.onTime 1
    let e := stairDesc b
    if e.bad || (u.seqr 1).state != .closed || (u.seqr 1).bound then none
    else match blockRange e.flt 1 u with
      | .fault _ _ _ => some 0
      | .wait _ => some 1
      | .got b1 u1 => match blockRange e.lnd 2 u1 with
        | .fault _ _ _ => some 0
        | .wait _ => some 1
        | .got _ u2 => if openTableCode 1 [dwordAt b1 0] u2 != 0 then some 2
          else if u2.tablesRoom (u2.newRanges 1 e.ranges).length then (if u2.hart.region == some 5 then some 4 else none) else some 3
  | _ => none

theorem test_hyps_cyopen :
    readOk 0x1000 32 stairBlock = true ∧ readFault 0x41000 32 stairBlock = true ∧ readWait (mkGa 1 hbmCore 0) 32 stairBlock = true
    ∧ opening stairBlock = some 4 ∧ opening (stairFar 0x41000 0x2100) = some 0 ∧ opening (stairFar 0x2000 0x41000) = some 0
    ∧ opening (stairFar (mkGa 1 hbmCore 0) 0x2100) = some 1 ∧ opening (stairFar 0x2000 (mkGa 1 hbmCore 0)) = some 1
    ∧ opening (poke 0x2000 0 stairBlock) = some 2
    ∧ opening { (stairBlock |> poke 0x1000 0x1030001 |> poke 0x1080 0x1000 |> poke 0x1088 64) with
        locks := List.replicate 256 ⟨0, 0, 64, .source, some 0, 0, none, 7, none⟩ } = some 3
    ∧ (match blockRange 0x1000 32 (poke 0x1000 0x30000 stairBlock) with | .got b _ => (stairDesc b).bad | _ => false) = true := by
  decide +kernel

theorem test_hyps_cyclose :
    let s (q : Sequencer) : State := cyc q 0x101 0
    let gone (st : SeqState) : Sequencer := { stair st 1 with stat := .converged, lastF := .converged, lastB := .converged, permit := true }
    (∀ st ∈ [SeqState.closed, .done, .open_, .test], ((s (gone st)).onTime 1).seqr 1 = gone st ∧ Bound ((s (gone st)).onTime 1) (gone st))
    ∧ ((0x101 : Word).getLsbD 8 = true ∧ (1 : Word).getLsbD 8 = false) := by unfold Bound; decide +kernel

theorem test_hyps_cycle_events :
    let q : Sequencer := { stair .test 1 with arrivals := [⟨0, 5, 9⟩] }
    let w : Sequencer := { stair .open_ 2 with arrivals := [⟨0, 5, 9⟩] }
    (q.state = .test ∧ q.arrivals.length = q.members ∧ q.bound = true)
    ∧ (w.state ≠ .closed ∧ w.state ≠ .done ∧ w.arrivals.length < w.members ∧ (5 : Word).toNat + 1000000 ≤ (1000005 : Word).toNat)
    ∧ (stair .test 1).nflight.toNat = 1 ∧ (({ q with partials := [(0, 7)] } : Sequencer).partials.find? (fun p => p.1 == 0)) = some (0, 7)
    ∧ (cyc w 0 0).hart.waitsAt 1 false = false
    ∧ ({ (cyc w 0 0).hart with run := .barrier 1 0 5 false none false }.waitsAt 1 false = true)
    ∧ (combine64 (stair .test 1)).2 = true ∧ (∃ v, (0, v) ∈ ({ q with partials := [(0, 7)] } : Sequencer).partials)
    ∧ ({ (cyc w 0 0).hart with run := .barrier 1 0 5 false (some 9) true } : Hart).run = .barrier 1 0 5 false (some 9) true
    ∧ ((9 : Word).toNat ≤ (9 : Word).toNat ∧ (8 : Word).toNat < (9 : Word).toNat) ∧ (cyc w 0 0).others = []
    ∧ ((5 : Word).toNat + 1000000 ≤ (1000006 : Word).toNat - 1 ∧ ¬(5 : Word).toNat + 1000000 ≤ (1000005 : Word).toNat - 1) := by
  refine ⟨by decide +kernel, by decide +kernel, by decide +kernel, by decide +kernel, by decide +kernel, by decide +kernel, by decide +kernel,
    ⟨7, by simp⟩, by decide +kernel, by decide +kernel, by decide +kernel, by decide +kernel⟩

/-! ### Copies -/

/-- x10 to x13 of a copy of two rows of three raw units. -/
def copyRegs : State := regs [(10, 0x1000), (11, 0x2000), (12, 0x30002), (13, 0)]

/-- A slot that holds the copy of `copyRegs`. -/
def slotIn (st : CopyState) (w3 : Word) : CopySlot :=
  { CopySlot.reset with st := st, taken := true, gen := 1, w0 := 0x1000, w1 := 0x2000, w2 := 0x30002, w3 := w3, op := 0, seq := 1 }

/-- Hart 0 with that slot and the operation of its copy; x10 holds its handle. -/
def withSlot (c : CopySlot) : State :=
  (State.reset.onHart (fun h => { h with copies := [(0, c)], ops := [{ opOf (.copy 0) with region := some 5 }], nextOp := 1 }) |> inRegion).setX 10 0x10000000000

theorem test_hyps_copy_queue :
    let s := copyRegs
    (bankWord 0x1000 s).1 = 0 ∧ copyMisaligned (s.x 10) (s.x 11) (s.x 12) 0 0 s.cgPat[0] = false
    ∧ (s.x 12).toNat % 2 ^ 16 = 2 ∧ (s.x 12).toNat / 2 ^ 16 % 2 ^ 16 = 3 ∧ (s.x 13).toNat / 8 % 2 ^ 13 = 0 ∧ (s.x 13).getLsbD 32 = false
    ∧ waitingCopies s.hart < 16 ∧ (assocGet s.hart.copies 0 CopySlot.reset).taken = false
    ∧ (∀ e ∈ s.locks, e.kind ≠ .weight)
    ∧ copyMisaligned 0x1001 0x2000 0x30002 0 1 0 = true ∧ (1#64 <<< 32).getLsbD 32 = true
    ∧ (let t := { inRegion s with seqs := Vector.replicate 16 { stair .open_ 1 with ranges := [(0x2000, 64)] } }
       t.hart.region = some 5 ∧ (t.seqr 0).bound = true ∧ (t.seqr 0).permit = false
        ∧ (copySpans 0x1000 0x2000 0x30002 0 0 0).2.1 < 0x2000 + 64 ∧ 0x2000 < (copySpans 0x1000 0x2000 0x30002 0 0 0).2.2)
    ∧ (let t := s.onHart (fun h => { h with copies := (List.range 16).map (fun i => (i, { CopySlot.reset with st := .queued, taken := true })) })
       ¬waitingCopies t.hart < 16 ∧ (t.x 12) = s.x 12) := by decide +kernel

theorem test_hyps_copy_slots :
    let mine := withSlot (slotIn .stopped 0)
    State.reset.findCopy 0 = none
    ∧ mine.findCopy (mine.x 10) = some (0, 0, slotIn .stopped 0, false)
    ∧ (withSlot (slotIn .running 0)).findCopy 0x10000000000 = some (0, 0, slotIn .running 0, false)
    ∧ (((mine.findCopy 0).map (fun p => p.2.2.2)) = some true)
    ∧ ¬((1 : Word).toNat ≤ (slotIn .running 0).wp.toNat) ∧ (0 : Word).toNat ≤ (slotIn .running 0).wp.toNat
    ∧ (slotIn .stopped 0).nonReplay = false ∧ ({ slotIn .stopped 0 with begun := true }).begun = true := by decide +kernel

/-- How the next move of the copy in slot 0 ends: the units moved, or 100 with an error code, or 200 for a wait and 201 for one
that has met a failed line. -/
def moving (c : CopySlot) (s : State) : Nat := match moveUnits (copyAgent c s) c s with
  | .moved n s1 => if s1.hart.copies == s.hart.copies then n else 0
  | .fail ec _ _ _ => 100 + ec.toNat
  | .wait s1 => if s1.poison == s.poison then 200 else 201

/-- The copy of a row from another node, or to it. -/
def farSrc : CopySlot := { slotIn .running 0 with w0 := mkGa 1 hbmCore 0 }
def farDst : CopySlot := { slotIn .running 0 with w1 := mkGa 1 hbmCore 0 }

theorem test_hyps_copy_events :
    let s := withSlot (slotIn .queued 0)
    let c := slotIn .running 0
    State.reset.nextCopy 0 = none
    ∧ s.nextCopy 0 = some (0, 0, 0)
    ∧ (s.hart.spin 0).status.getLsbD 3 = false ∧ ({ s.hart.spin 0 with status := 8 } : Spindle).status.getLsbD 3 = true
    ∧ 1 ≤ moving c (withSlot c) ∧ moving c (withSlot c) < 6 ∧ 3 ≤ moving { c with wp := 3 } (withSlot { c with wp := 3 })
    ∧ moving { c with w1 := 0x40000 } s = 104
    ∧ moving farDst (withSlot farDst) = 200 ∧ moving c { withSlot c with poison := [0x1000 / 64] } = 201
    ∧ isBlockCode (sideFmt 0 0) = false ∧ isBlockCode (sideFmt 1 0) = false ∧ fpOfCode 1 = some .fp32 ∧ fpOfCode 2 = some .bf16
    ∧ capacityBreach c = none ∧ capacityBreach { c with dfmt := 1, w1 := 0xFFFF } ≠ none
    ∧ gaNode farDst.w1 ≠ s.nodeId ∧ gaNode farDst.w0 = s.nodeId ∧ gaNode farSrc.w0 ≠ s.nodeId ∧ gaNode farSrc.w1 = s.nodeId
    ∧ farDst.nonReplay = false ∧ c.taken = true ∧ c.lost = false ∧ ({ c with handler := 0x2000 }).handler ≠ 0
    ∧ c.w2.getLsbD 59 = false ∧ gaCore c.w1 < 1024 ∧ gaOff c.w1 + 6 ≤ 2 ^ 18 ∧ s.intervals = [] ∧ ¬(CopySlot.reset.taken = true) := by
  decide +kernel

/-! ### Messages -/

/-- A receive posted in slot 0. -/
def postIn : Post := { Post.reset with used := true, gen := 1, buf := 0x1000, cap := 8, spec := 0x1000000100000, op := 0 }

/-- Hart 0 with a posted receive and an arrival in its overflow queue. -/
def withPost (p : Post) : State :=
  (State.reset.onHart (fun h => { h with posts := h.posts.set 0 p, ops := [opOf (.mpost 0)], nextOp := 1, ovfq := [⟨0, 7, 0, 3, 8, false⟩] })).setX 10 0x100

theorem test_hyps_message_instructions :
    let s := regs [(10, 0x1000), (11, 4096)]
    (s.x 11).toNat = 4096 ∧ (s.x 10).toNat % 8 = 0 ∧ (s.x 10).toNat / 2 ^ 60 = s.nodeId.toNat ∧ (s.oxr 0).toNat % 2 ^ 11 ≤ 1091
    ∧ (s.hart.post 0).used = false ∧ (withPost postIn).hart.findPost 0x100 = some (0, postIn) ∧ s.hart.findPost 0x100 = none
    ∧ (withPost postIn).hart.matchQueued 0x1000000100000 = some ⟨0, 7, 0, 3, 8, false⟩ ∧ s.hart.matchQueued 0 = none
    ∧ postIn.matched = false ∧ postIn.done = false
    ∧ specMatches 0x1000000100000 7 0 3 = true ∧ specMatches 0 7 0 3 = false := by decide +kernel

/-- A message of 8 bytes from node 1 to hart 0. -/
def msgIn : Message := ⟨1, 7, 0, none, true, [0], [1, 2, 3, 4, 5, 6, 7, 8]⟩

/-- The region of hart 0, whose overflow buffer lies at HBM offset 0x40000. -/
def withOvf : State := (mapped (inRegion State.reset)).onHart (fun h => { h with msOvf := 1 })

/-- Hart 0 with an msend in progress, and its frame lent away by region 6. -/
def sending (src dst : Word) : State := State.reset.onHart (fun h => { h with ops := [opOf (.msend src 8 dst)] })
def lentAway : State := { inRegion State.reset with lent := [⟨0, 5, [{ Hart.reset 0 with node := some node5 }], Engine.reset 0, [], [], 0, 0⟩] }

/-- The reads and writes of hart 0's own devices end well. -/
def putOk (a : Word) (b : List Byte) (s : State) : Nat := match devicePut ⟨0, none, .M, 0, 0⟩ a b s with
  | (.done, s1) => if s1.hart == s.hart then 1 else 0
  | (.fault _ _ _, s1) => if s1.hart == s.hart then 2 else 0
  | _ => 0
def getOk (a : Word) (n : Nat) (s : State) : Nat := match deviceGet ⟨0, none, .M, 0, 0⟩ a n s with
  | (.bytes b, s1) => if s1.hart == s.hart && b.length == n then 1 else 0
  | (.fault _ _, s1) => if s1.hart == s.hart then 2 else 0
  | _ => 0

theorem test_hyps_message_events :
    let s := withPost postIn
    (msgIn.srcNode ≠ s.nodeId ∧ s.recovery = false ∧ s.forwarded (some 5) 1 0 = some 0 ∧ s.present 0 = true ∧ s.present 1092 = false ∧ msgIn.mmode = true
      ∧ s.hart.isStopped = false ∧ s.hart.matchPost 7 1 (msgTag msgIn) = some 0 ∧ State.reset.hart.matchPost 7 1 0 = none)
    ∧ (let t := { s with forwards := [⟨0, 1, 5, 5, false⟩, ⟨1, 2, 5, 5, false⟩], now := 4 }
       t.forwarded (some 5) 3 0 = some 2 ∧ t.forwarded (some 6) 3 0 = some 0 ∧ { t with now := 5 }.forwarded (some 5) 3 0 = none
        ∧ (t.getHart 0).node = none ∧ { t with now := 5 }.forwards[0]? = some ⟨0, 1, 5, 5, false⟩)
    ∧ s.hart.op? (s.hart.post 0).op = some (opOf (.mpost 0)) ∧ s.hart.ready (opOf (.mpost 0)) = true
    ∧ (let t := s.onHart (fun h => { h with ops := [opOf (.store [(0x1000, 0x1000, [1])] false false), { opOf (.mpost 0) with id := 1, seq := 2 }] })
       t.hart.ready { opOf (.mpost 0) with id := 1, seq := 2 } = false)
    ∧ putOk 0x1000 (msgIn.payload.take 8) s = 1 ∧ putOk 0x41000 [1] s = 2
    ∧ lentAway.lentHart 0 5 = true ∧ (regionBytes (some 5) (1 * 2 ^ 18) [1] withOvf).1 = true ∧ (regionBytes none (1 * 2 ^ 18) [1] withOvf).1 = false
    ∧ withOvf.hart.msOvf ≠ 0 ∧ withOvf.hart.ovfq = [] ∧ State.reset.hart.msOvf = 0
    ∧ (State.reset.onHart (fun h => { h with run := .stopped .running })).hart.isStopped = true := by decide +kernel

theorem test_hyps_messages_sent :
    let s := sending 0x1000 0x10001
    let own (src : Word) := sending src 1
    s.hart.msendsOpen = [0] ∧ s.hart.op? 0 = some (opOf (.msend 0x1000 8 0x10001)) ∧ s.hart.ready (opOf (.msend 0x1000 8 0x10001)) = true
    ∧ (0x10001 : Word).toNat % 2 ^ 11 = 1 ∧ BitVec.ofNat 4 ((0x10001 : Word).toNat / 2 ^ 16) ≠ s.nodeId ∧ 0 < s.liveLanes 1
    ∧ ({ s with lanes := (List.range 64).map (fun n => ⟨1, BitVec.ofNat 6 n, .failed⟩) }).liveLanes 1 = 0
    ∧ getOk 0x1000 8 s = 1 ∧ getOk 0x41000 8 s = 2 ∧ s.moving = true
    ∧ (let g : Message := ⟨0, 0, 1, none, true, [1, 0], leBytes 0 8⟩
       (match arrival g (own 0x1000) with | .refused t => t.hart.num == 0 | _ => false) = true
        ∧ (let t := (own 0x1000).withHart 1 (fun u => u.onHart (fun h => { h with
             posts := h.posts.set 0 { postIn with buf := mkGa 0 1 0x1000, spec := 1 <<< 20 }, ops := [opOf (.mpost 0)] }))
           (match arrival { g with dstHart := 1 } t with | .delivered u => u.hart.num == 0 | _ => false) = true)
        ∧ (let t := (own 0x1000).withHart 1 (fun u => u.onHart (fun h => { h with run := .stopped .running }))
           (match arrival g t with | .later => true | _ => false) = true))
    ∧ (let p : Post := { postIn with queued := some 0, matched := true }
       let t := (withPost p).onHart (fun h => { h with ovfq := [⟨0, 7, 0, 3, 0, true⟩] })
       (t.hart.post 0).queued = some 0 ∧ (t.hart.post 0).done = false ∧ t.hart.ovfq.find? (fun q => q.entry == 0) = some ⟨0, 7, 0, 3, 0, true⟩
        ∧ t.hart.op? 0 = some (opOf (.mpost 0)) ∧ putOk 0x1000 [] t = 1)
    ∧ (let t := (withPost { postIn with queued := some 0, matched := true }).onHart (fun h => { h with
         ovfq := [⟨0, 7, 0, 3, 8, true⟩], msOvf := 1, node := some node5 })
       let u : State := mapped { t with regions := [region5] }
       let tr := translateLocal u .walker (some 5) .S .load true true (u.hart.msOvf.toNat * 2 ^ 18)
       u.hart.region.bind u.region? = some region5 ∧ { region5 with enter := .S }.enter = region5.enter ∧ tr.cause = 0 ∧ tr.st.poisoned tr.key = false
        ∧ putOk 0x1000 (tr.st.readKey tr.key 8) tr.st = 1 ∧ (tr.st.hart == u.hart) = true)
    ∧ (let t := withPost { postIn with held := some [1], matched := true }
       (t.hart.post 0).queued = none ∧ (t.hart.post 0).held = some [1] ∧ putOk 0x1000 [1] t = 1) := by decide +kernel

theorem test_hyps_probes :
    let it : SendItem := ⟨1, 1, .message 1 msgIn⟩
    let s : State := { State.reset with sendq := [it], now := 4000, probes := 2 }
    it ∈ s.sendq ∧ (assocGet s.msgMoved 1 0).toNat + 4000 ≤ s.now.toNat ∧ 0 < s.liveLanes 1
    ∧ s.sendq.find? (fun i : SendItem => i.peer == 1 && i.cls == 1 && !s.fallsOut i.pkt) = some it ∧ s.probes.getLsbD 1 = true ∧ s.probes.getLsbD 2 = false
    ∧ { s with sendq := [] }.sendq.find? (fun i : SendItem => i.peer == 1 && i.cls == 1 && !s.fallsOut i.pkt) = none
    ∧ ¬(assocGet s.msgMoved 1 0).toNat + 4000 ≤ (3999 : Word).toNat := by decide +kernel

/-! ### Links -/

/-- A gateway hart with x10. -/
def gateway (v : Word) : State := (State.reset.onHart (fun h => { h with num := 1024 })).setX 10 v

theorem test_hyps_link_instructions :
    State.reset.hart.num < 1024 ∧ 1024 ≤ (gateway 0xFF).hart.num ∧ 0xFF < (0x100 : Word).toNat ∧ ((gateway 0xFF).x 10).toNat ≤ 0xFF
    ∧ (∀ k : BitVec 3, (0xFF : Word).getLsbD k.toNat = true) ∧ ((State.reset.skein 0).st = .awake ∧ (0xFE : Word).getLsbD 0 = false)
    ∧ (1 : BitVec 4) ≠ State.reset.nodeId ∧ BitVec.ofNat 4 ((0x104 : Word).toNat / 256) = 1 ∧ (0x104 : Word).toNat % 256 = 4
    ∧ (0xFF : Word).toNat % 256 > 4 := by decide +kernel

/-- A module with one failed, one idle and one locked lane towards node 1, and skein 7 waking. -/
def laned : State := { State.reset with
  lanes := [⟨1, 0, .failed⟩, ⟨1, 63, .idle⟩, ⟨1, 2, .locked⟩], leaving := [(1, 3)], now := 3200
  skeins := (State.reset.skeins.set 7 ⟨.waking, false, some 0⟩).set 6 ⟨.parking, true, none⟩, startq := [.skein 5, .engine 0] }

theorem test_hyps_link_events :
    laned.evFw = 0 ∧ laned.laneState 1 0 = .failed ∧ laned.laneState 1 1 = .active ∧ laned.laneState 1 63 = .idle
    ∧ laned.laneState 1 2 = .locked ∧ (1, (3 : BitVec 6)) ∈ laned.leaving ∧ laned.fibres 1 .active ≠ []
    ∧ (63 : BitVec 6).extractLsb' 3 3 = 7#3 ∧ (laned.skein 7).st = .waking ∧ (laned.skein 7).admitted = some 0 ∧ (0 : Word).toNat + 3200 ≤ laned.now.toNat
    ∧ (laned.skein 6).st = .parking ∧ (∀ q ∈ laned.leaving, q.2.extractLsb' 3 3 ≠ 6#3)
    ∧ laned.lastAdmit = none ∧ laned.lastSkein = none ∧ laned.startq = [] ++ .skein 5 :: [.engine 0] ∧ 0 < laned.liveLanes 1
    ∧ (laned.stripe.map (·.1)).Pairwise (· < ·) := by decide +kernel

/-- A message on its way over lanes 1 to 5 of node 1. -/
def flying : Flight := ⟨⟨1, 1, .message 1 msgIn⟩, 0x3E, [(0, 1), (1, 2), (2, 3), (3, 4), (4, 5), (5, 1)], false⟩

theorem test_hyps_packets :
    let s : State := { laned with flights := [flying] }
    let q : State := { State.reset with sendq := [flying.item] }
    s.flight? 1 = some flying ∧ (1 : BitVec 6) ∈ flying.plan.map (·.2) ∧ (6 : BitVec 6) ∉ flying.plan.map (·.2) ∧ State.reset.flight? 1 = none
    ∧ flying.mask.getLsbD 0 = false ∧ flying.mask.getLsbD 1 = true ∧ (laned.leaving.filter (fun x => x.1 == 1) ≠ [])
    ∧ q.sendq.find? (fun i : SendItem => i.peer == 1 && i.cls == 1 && !q.fallsOut i.pkt) = some flying.item
    ∧ ((List.range 64).map (BitVec.ofNat 6)).filter (fun g => q.laneState 1 g == .active) ≠ []
    ∧ { laned with lanes := (List.range 64).map (fun n => ⟨1, BitVec.ofNat 6 n, if n = 0 then .active else .failed⟩) }.liveLanes 1 = 1 := by
  decide +kernel

/-! ### Tasks and regions -/

/-- Hart 0 in the region with a descriptor of one compute instance at 0x1000, its entry 0x2000. -/
def described : State := (inRegion State.reset |> poke 0x1000 0x2000 |> poke 0x1008 7 |> poke 0x1010 4).setX 10 0x1000

/-- The node of that descriptor as the pool holds it. -/
def node0 : NodeRec := ⟨5, 0x1000, 0x2000, 7, 0, true, false, false, 1, 0, 0, [], [], some 0, 0, 0, 0, false, false, []⟩

/-- How readDesc ends: 0 a fault, 1 an invalid descriptor, 2 a valid one. -/
def descEnd (a : Word) (s : State) : Nat := match readDesc 5 a s with
  | .got _ bad _ => if bad then 1 else 2
  | .fault _ _ _ => 0
  | .wait _ => 3

/-- The code of the descriptor at 0x1000 in region `g`. -/
def spawned (g : Region) (s : State) : Option Nat := match readDesc 5 0x1000 s with
  | .got n bad s1 => if s1.hart.region.bind s1.region? == some region5 then some (spawnCode s1 g bad n) else none
  | _ => none

theorem test_hyps_node_instructions :
    let s := described
    (s.x 10).toNat % 64 = 0 ∧ readOk 0x1000 8 s = true ∧ (s.setX 10 0x1001 |>.x 10).toNat % 64 ≠ 0
    ∧ (match blockRange 0x1000 8 s with | .got b _ => dwordAt b 3 == 0 | _ => false) = true
    ∧ descEnd 0x1000 s = 2 ∧ descEnd 0x1000 (poke 0x1000 0x2001 s) = 1 ∧ descEnd 0x41000 s = 0
    ∧ spawned region5 s = some 0 ∧ spawned region5 (poke 0x1000 0x2001 s) = some 2 ∧ spawned { region5 with frames := 0 } s = some 3
    ∧ spawned region5 { s with nodes := [node0] } = some 4 ∧ spawned { region5 with pool := 0 } s = some 1
    ∧ (match readDesc 0xFFFF 0x1000 State.reset with | .got _ _ s1 => (s1.hart.region.bind s1.region?).isNone | _ => false) = true
    ∧ s.hart.region = some 5 ∧ State.reset.hart.region = none := by decide +kernel

theorem test_hyps_ndone :
    let s : State := { described with nodes := [node0] }
    (endInstance s).hart.ops = [] ∧ (endInstance (s.onHart (fun h => { h with ops := [opOf .engine] }))).hart.ops ≠ []
    ∧ (endInstance State.reset).hart.node = none ∧ (endInstance s).hart.node = some node5
    ∧ (endInstance s).nodes.find? (fun n => n.region == 5 && n.desc == 0x1000) = some node0
    ∧ node0.retired + 1 = node0.count ∧ ({ node0 with count := 2 } : NodeRec).retired + 1 ≠ 2
    ∧ (endInstance s).hart.mergedStatus = 0 ∧ node0.hold = false ∧ ({ node0 with hold := true, bad := true } : NodeRec).bad = true
    ∧ (endInstance s).region? 5 = some region5 ∧ region5.parent = none ∧ (∀ q ∈ (endInstance s).regions, q.parent ≠ some 5)
    ∧ (endInstance s).releases = [] ∧ node0.succ = [] ∧ (endInstance s).lineage 5 = [5] ∧ (endInstance s).switchOf 5 = some .running := by
  decide +kernel

/-- A hart that nyield takes from its place: another node of the pool waits. -/
def yielding : State :=
  let run : NodeRun := ⟨5, 0x1000, 0, 1, false, false⟩
  { mapped State.reset with
    regions := [{ region5 with saveSz := 1024 }]
    hart := { State.reset.hart with node := some run }
    nodes := [{ node0 with engine := false, placed := 1 }, { node0 with desc := 0x3000, engine := false }] }

theorem test_hyps_nyield :
    let s := yielding
    s.staysHere = false ∧ s.hart.ops = [] ∧ s.hart.rets = [] ∧ State.reset.hart.node = none
    ∧ s.nodes.find? (fun n => n.region == 5 && n.desc == 0x1000) = some { node0 with engine := false, placed := 1 }
    ∧ described.hart.node = some node5 ∧ node5.engine = true ∧ s.region? 5 = some { region5 with saveSz := 1024 }
    ∧ (s.onHart (fun h => { h with ops := [opOf .engine] })).hart.ops ≠ []
    ∧ (fillSave 5 (min (4096 + 64 * 0) 1024 / 1024) (gaOff region5.saveA) s).1 = true
    ∧ (fillSave 5 (min (4096 + 64 * 0) 1024 / 1024) (gaOff region5.saveA) { s with mem := [] }).1 = false
    ∧ Memory.wf s.mem = true ∧ s.engines = [] ∧ s.lent = [] ∧ 0 / 2 ^ 49 % 2 ^ 11 ≠ hbmCore ∧ (3 : BitVec 5) ≠ 0 ∧ (3 : BitVec 5) ≠ 2 := by
  decide +kernel

/-- Hart 0 in the region with an RCB at 0x1000 that takes one frame of its own, and a root descriptor in HBM. -/
def rcb : State := (((mapped (inRegion State.reset) |> poke 0x1008 0x10000000001 |> poke 0x1030 2 |> poke (hbmKey 0 0x200000) 0x3000).setX 10 0x1000).setX 11 (hbm 0x200000))

/-- How the launch of that RCB ends: a code of the block, a code of the root descriptor or of the write of the number. -/
def launching (root : Word) (s : State) : Option Nat := match blockRange 0x1000 32 s with
  | .got b s1 =>
    let (code, g) := checkRcb b (some region5) false .U s1
    if code != 0 then some (10 + code) else match checkRoot 0 .block g root s1 with
      | (_, some _, s2) => (match blockWrite (0x1000 + 0x38) (zext64 g.num) s2 with | .ok _ => some 0 | .fault _ _ => some 1 | .wait _ => none)
      | (c2, none, _) => some (20 + c2)
  | _ => none

theorem test_hyps_region_instructions :
    let s := rcb
    (s.x 10).toNat % 256 = 0 ∧ (0x1080 : Word).toNat % 256 ≠ 0 ∧ readOk 0x1000 32 s = true ∧ readFault 0x40F00 32 s = true
    ∧ State.reset.hart.region = none ∧ s.hart.region.bind s.region? = some region5
    ∧ launching (hbm 0x200000) s = some 0 ∧ launching (hbm 0x200001) s = some 22
    ∧ launching (hbm 0x200000) (poke 0x1000 1 s) = some 12
    ∧ launching (hbm 0x200000) (poke 0x1008 0x1000000000081 s) = some 12
    ∧ launching (hbm 0x200000) (poke 0x1008 0x700000000001 s) = some 13 := by decide +kernel

/-- The region with a switch state, hart 0 in it in M mode. -/
def switched (w : Switch) (now : Word) : State := { inRegion State.reset with regions := [{ region5 with switch := w }], now := now }

/-- The same with a child region, in which hart 0 runs. -/
def nested (up down : Switch) (now : Word) : State := { inRegion State.reset with
  regions := [{ region5 with switch := up }, { region5 with num := 6, parent := some 5, switch := down }]
  hart := { State.reset.hart with node := some { node5 with region := 6 } }
  now := now }

theorem test_hyps_rswitch :
    (switched .running 0).switchOf 5 = some .running ∧ (switched .running 0).inGstop 5 = false
    ∧ (switched (.gstopped none) 0).inGstop 5 = true ∧ State.reset.switchOf 5 = none
    ∧ (switched .suspended 0).switchOf 5 = some .suspended ∧ (switched (.resuming 9 none) 0).switchOf 5 = some (.resuming 9 none)
    ∧ (5 + 0 * 2 ^ 16) / 2 ^ 16 % 4 = 0 ∧ (5 + 3 * 2 ^ 16) / 2 ^ 16 % 4 = 3 ∧ (1048576 : Word).toNat ≤ (switched .running 0).now.toNat + 1048576
    ∧ ¬(1048577 : Word).toNat ≤ (switched .running 0).now.toNat + 1048576
    ∧ (5 : BitVec 16) ∈ (switched .running 0).lineage 5 ∧ (switched .running 0).hart.level = .M
    ∧ (nested (.suspending 9) .running 0).covered 6 = some false ∧ (nested (.resuming 9 none) .suspended 0).covered 6 = some true
    ∧ (nested .running .running 0).covered 6 = none ∧ (switched .running 0).covered 5 = none := by decide +kernel

/-- A pool with a ready node and a release point that is due; the budget tree has given quad 0 and engine 0 their caps. -/
def pooled : State := { inRegion State.reset with
  nodes := [{ node0 with engine := false }]
  releases := [⟨0, [(0, 0)], .register node0⟩]
  domains := [⟨0, 5, 7, none, some 0⟩, ⟨engineDomain 0, 5, 7, none, some 0⟩] }

theorem test_hyps_dispatch :
    pooled.releases[0]? = some ⟨0, [(0, 0)], .register node0⟩ ∧ (((pooled.getHart 0).spin 0).perf - 0).toNat < 2 ^ 31
    ∧ ¬(((pooled.getHart 0).spin 0).perf - 1).toNat < 2 ^ 31 ∧ (pooled.region? 5).isSome = true ∧ (pooled.region? 6).isSome = false
    ∧ (lentAway.lent.any (fun l => l.harts.any (fun h => h.num == 0)) = true) ∧ pooled.lent = []
    ∧ pooled.waits { node0 with engine := false } = true ∧ (choose (catchUp pooled) 0).isSome = true ∧ (choose State.reset 0).isSome = false
    ∧ pooled.findHart { node0 with engine := false } = some 1 ∧ pooled.lendable 0 = false ∧ node0.gang = false ∧ node0.moved = []
    ∧ pooled.frameHolder 0 = some 5 ∧ pooled.hartFree 1 5 false = true ∧ (choices pooled 0).length = 1
    ∧ ({ pooled with hart := State.reset.hart, others := [{ Hart.reset 0 with run := .running }] } : State).frameOpen 0 = true
    ∧ ({ node0 with pred := 1 } : NodeRec).pred ≠ 0 ∧ node0.pred = 0 ∧ pooled.candidate { node0 with engine := false } = true
    ∧ pooled.nodes.find? (fun n => n.region == 5 && n.desc == 0x1000) = some { node0 with engine := false }
    ∧ State.reset.nodes = [] ∧ (∀ g ∈ pooled.regions, 0 < g.vden ∧ g.hadPrio = []) := by decide +kernel

theorem test_hyps_held_gang :
    let g : NodeRec := { node0 with gang := true, count := 9, held := true, engine := false }
    let s : State := { pooled with nodes := [g] }
    s.candidate g = true ∧ g.held = true ∧ g.kind = 0 := by decide +kernel

/-- A launch ring with one record at its read pointer. -/
def ring (kind : Nat) (w1 w2 w3 w4 : Word) : State := { inRegion State.reset with ringWp := 1 }
  |> poke (hbmKey 0 0) (BitVec.ofNat 64 (kind * 65536)) |> poke (hbmKey 0 8) w1 |> poke (hbmKey 0 16) w2 |> poke (hbmKey 0 24) w3 |> poke (hbmKey 0 32) w4

/-- A launch record for an RCB at HBM offset 0x100. -/
def launchRing : State := mapped (ring 1 0x100 (hbm 0x200000) 0 0) |> poke (hbmKey 0 0x108) 0x10000000001 |> poke (hbmKey 0 0x118) 0x10000
  |> poke (hbmKey 0 0x148) (hbm 0) |> poke (hbmKey 0 0x150) 0x8000000 |> poke (hbmKey 0 0x200000) 0x3000

theorem test_hyps_ring :
    RingHolds (ring 1 0 0 0 0) ∧ ¬RingHolds State.reset ∧ ({ State.reset with recovery := true }).recovery = true
    ∧ BitVec.ofNat 16 (ringWord (ring 4 0 0 5 0) 0).toNat = (ring 4 0 0 5 0).ringRp
    ∧ BitVec.ofNat 16 (ringWord (poke (hbmKey 0 0) 0x40007 (ring 4 0 0 5 0)) 0).toNat ≠ (ring 4 0 0 5 0).ringRp
    ∧ (ringWord (ring 4 0 0 5 0) 0).toNat / 2 ^ 16 % 2 ^ 8 = 4 ∧ (ringWord (ring 5 0 0 0 0) 0).toNat / 2 ^ 16 % 2 ^ 8 = 5
    ∧ ((4096 : BitVec 16) - 0).toNat ≤ 4096 ∧ 4096 < ((4097 : BitVec 16) - 0).toNat ∧ State.reset.ringOverrun.toNat % 2 = 0
    ∧ (ring 2 0 0 5 1048576).switchOf 5 = some .running ∧ (switchTo 0 .running 1000 false).isSome = true ∧ switchTo 1 .running 1000 false = none
    ∧ (ring 2 0 0 5 0).covered 5 = none ∧ (ring 2 0 0 6 0).switchOf 6 = none ∧ (0x101 : Word).toNat % 256 ≠ 0 := by unfold RingHolds; decide +kernel

theorem test_hyps_launch :
    let s := launchRing
    let c := checkRcb (s.mem.bytes (hbmKey 0 0x100) 256) none false .S s
    c.1 = 0 ∧ (checkRcb (s.mem.bytes (hbmKey 0 0x300) 256) none false .S s).1 ≠ 0
    ∧ (match checkRoot 1088 .ring c.2 (hbm 0x200000) s with
      | (_, some _, s1) => (writeHome none (hbmKey 0 0x138) (leBytes c.2.num.toNat 8) s1).1
      | _ => false) = true
    ∧ (match checkRoot 1088 .ring c.2 (hbm 0x200001) s with | (_, none, _) => true | _ => false) = true := by decide +kernel

theorem test_hyps_gang :
    let due (w : Switch) : State := switched w 1000
    (due (.suspending 1000)).switchOf 5 = some (.suspending 1000) ∧ ¬(1001 : Word).toNat ≤ (due (.suspending 1001)).now.toNat
    ∧ (∀ n ∈ (due (.suspending 1000)).hartsOf ((due (.suspending 1000)).subtree 5), ((due (.suspending 1000)).getHart n).nonReplayable = false)
    ∧ ((due .running).onHart (fun h => { h with copies := [(0, { slotIn .running 0 with nonReplay := true, begun := true })] })).hart.nonReplayable = true
    ∧ (due (.ending 1000 false)).hartsOf [5] = [0] ∧ (∀ g ∈ (due (.ending 1000 false)).regions, g.parent ≠ some 5)
    ∧ (due (.gstopped (some 1000))).switchOf 5 = some (.gstopped (some 1000)) ∧ (due (.gstopping 1000)).switchOf 5 = some (.gstopping 1000)
    ∧ ((due (.gstopping 1000)).onHart (fun h => { h with level := .U })).hart.level ≠ .M
    ∧ (due (.resuming 1000 none)).switchOf 5 = some (.resuming 1000 none) ∧ region5.saves.zipIdx = [] ∧ (due (.resuming 1000 none)).lent = []
    ∧ ((due (.resuming 1000 none)).lineage 5).tail = [] ∧ ((nested (.resuming 9 none) (.resuming 9 none) 0).lineage 6).tail = [5]
    ∧ (nested (.resuming 9 none) (.resuming 9 none) 0).resumes 5 = true ∧ lentAway.frameFree 0 = false
    ∧ ((due (.resuming 1000 none)).onHart (fun h => { h with run := .stopped .running })).hart.run = .stopped .running
    ∧ ((due (.gresuming 1000 none)).onHart (fun h => { h with back := some .running })).hart.back = some .running
    ∧ (due (.gresuming 1000 (some 2000))).switchOf 5 = some (.gresuming 1000 (some 2000)) := by decide +kernel

/-! ### System -/

/-- Hart 0 at a level. -/
def atLevel (l : Level) (s : State) : State := s.onHart (fun h => { h with level := l })

theorem test_hyps_system_registers :
    State.reset.hart.num < 1024 ∧ State.reset.removedQuads = [] ∧ State.reset.removedFrames = [] ∧ (atLevel .U State.reset).hart.level = .U
    ∧ (atLevel .S State.reset).hart.level ≠ .U ∧ (atLevel .S State.reset).hart.level ≠ .M ∧ State.reset.hart.level = .M
    ∧ 1024 ≤ (gateway 0).hart.num ∧ (63 : BitVec 8).toNat < 64
    ∧ ({ inRegion State.reset with owner := [(7, 5)] }).ownerOf 7 = 5 ∧ (5 : BitVec 16) ≠ 0xFFFF ∧ State.reset.ownerOf 7 = 0xFFFF := by
  decide +kernel

/-- A module with a waiting interrupt of hart 0. -/
def irqOf (c : BitVec 8) (s : State) : State := s.onHart (fun h => { h with irqs := [⟨c, 9, 0, 0x2000⟩] })

/-- A page of the region cached, held at node 1 as well, and one ticket. -/
def ticketed (w : BitVec 16) : State := { inRegion State.reset with
  nextTicket := 4
  tickets := [⟨3, w, 0⟩]
  holders := [⟨5, 0, 16, 2⟩]
  tlb := [(0, ⟨0, 5, 0, 16, 0x1F⟩)] }

/-- The page pinned, and used often. -/
def pinnedPage : State := { ticketed 0 with pins := [⟨5, 0, 0, 0⟩], thrash := [⟨5, 0, 0, [0, 0, 0, 0]⟩] }

theorem test_hyps_system_instructions :
    (irqOf 0x13 State.reset).hart.irqs ≠ [] ∧ State.reset.hart.irqs = []
    ∧ ((inRegion State.reset).region? 5).isSome = true ∧ (State.reset.region? 5).isSome = false
    ∧ ((inRegion State.reset).subtree 5 = [5] ∧ (inRegion State.reset).switchOf 5 = some .running ∧ (inRegion State.reset).covered 5 = none
      ∧ (inRegion State.reset).inGstop 5 = false)
    ∧ (switched .suspended 0).switchOf 5 ≠ some .running ∧ (5 : BitVec 16) ∈ (inRegion State.reset).lineage 5
    ∧ (∀ k ∈ (ticketed 0).harts, k.underOld ⟨0, 5, 0⟩ ((ticketed 0).tlb.map (·.2)) 0 = false) ∧ (ticketed 0).tlbAll = (ticketed 0).tlb.map (·.2)
    ∧ ((inRegion State.reset).onHart (fun h => { h with ops := [{ opOf (.store [(hbm 0, hbmKey 0 0, [7])] false false) with region := some 5 }] })).hart.underOld
        ⟨0, 5, 0⟩ ((ticketed 0).tlb.map (·.2)) 0 = true
    ∧ (3 : Word).toNat < (ticketed 2).nextTicket.toNat ∧ (ticketed 2).tickets.find? (fun k => k.num.toNat == 3) = some ⟨3, 2, 0⟩
    ∧ (ticketed 0).tickets.find? (fun k => k.num.toNat == 2) = none ∧ (ticketed 0).nextTicket.toNat ≤ (4 : Word).toNat
    ∧ (0 : Word).toNat < (0 : Word).toNat + 10000000 ∧ pinnedPage.pins = [⟨5, 0, 0, 0⟩] ∧ (0x40005 : Word).getLsbD 18 = true
    ∧ (((ticketed 0).thrashOf 5 0).elim [] (·.uses)).length < 4 ∧ 4 ≤ ((pinnedPage.thrashOf 5 0).elim [] (·.uses)).length
    ∧ (∀ q ∈ (ticketed 0).holders, q.bits ≤ 16) ∧ 16 < (⟨5, 0, 21, 2⟩ : Holder).bits := by decide +kernel

/-- The region logs checkpoints; the restart descriptor lies at 0x1000. -/
def logging : State := { described with regions := [{ region5 with ckpt := 0x10000010001 }] }

theorem test_hyps_ckpt :
    State.reset.hart.region.bind State.reset.region? = none
    ∧ (logging.hart.region.bind logging.region?).map (fun g => decide (g.ckpt.toNat % 2 = 1 ∧ g.ckpt.toNat / 2 ^ 40 ≠ 0)) = some true
    ∧ (described.hart.region.bind described.region?).map (fun g => decide (g.ckpt.toNat % 2 = 1)) = some false
    ∧ (match readDesc 5 0x1000 logging with | .got _ bad s1 => !bad && s1.hart.ops.isEmpty | _ => false) = true
    ∧ (let s : State := { logging with hart := { logging.hart with run := .ckpt 200 1 false }, restarts := [(0, node0)], now := 200 }
       s.restarts.find? (fun p => p.1 == s.hart.num) = some (s.hart.num, node0) ∧ (200 : Word).toNat ≤ s.now.toNat
        ∧ s.intervalOf (some 5) = none) := by decide +kernel

/-- A record of one faulted 8-byte load of address 0x1000 into x5, under strand 0, in the slice of hart 0. -/
def recorded : State := (State.reset |> poke (memKey 0 0 recordOff) 1 |> poke (memKey 0 0 recordOff + 0xA0) 0x1000
  |> poke (memKey 0 0 recordOff + 0xA8) 0x650000).onHart (fun h => { h with recInfo := [0x650000] })

theorem test_hyps_traps :
    (State.reset.hart.outstanding = 0 ∧ State.reset.hart.faults = [])
    ∧ (State.reset.onHart (fun h => { h with rets := [⟨0, 0, .xval 1 2, none, []⟩] })).hart.outstanding ≠ 0
    ∧ (State.reset.hart.bank .M).cause ≠ 0x13 ∧ (State.reset.hart.bank .M).cause ≠ 0x07
    ∧ (let s := State.reset.onHart (fun h => { h with bankM := { h.bankM with cause := 7 } })
       let o (k : Nat) := opOf (.store [(mkGa 0 0 k, 0, [0])] false false)
       (s.hart.bank .M).cause = 0x07 ∧ (s.hart.bank .M).async = false ∧ s.mem.bytes (memKey 0 0 recordOff) 1 = [0]
        ∧ anyMeet (o 0x3F000).writes [(memKey 0 0 recordOff, memKey 0 0 recordOff + 0x8A0)] = true
        ∧ anyMeet (o 0x3F89F).writes [(memKey 0 0 recordOff, memKey 0 0 recordOff + 0x8A0)] = true
        ∧ anyMeet (o 0x3F8A0).writes [(memKey 0 0 recordOff, memKey 0 0 recordOff + 0x8A0)] = false ∧ reissueLock s = none)
    ∧ (let s := State.reset.onHart (fun h => { h with bankM := { h.bankM with cause := 0x13 }, back := some .running })
       (s.hart.bank .M).cause = 0x13 ∧ s.hart.back = some .running ∧ s.hart.region = none ∧ (inRegion s).hart.region = some 5)
    ∧ (let s := recorded
       s.mem.bytes (memKey 0 0 recordOff) 1 = [1] ∧ s.hart.recInfo.head? = some (leWord (s.mem.bytes (memKey 0 0 recordOff + 0xA8) 8))
        ∧ (0x650000 : Word).toNat / 2 ^ 27 % 4 = 0 ∧ reissueLock s = none ∧ lockHit s 0x1000 0x1008 false 0 = 0
        ∧ (reissueLock { s with locks := [⟨hartTable 0, 0x1000, 0x1040, .dest, some 0, 1, none, 7, none⟩] }).isSome = true
        ∧ ({ s.hart with recInfo := [0] } : Hart).recInfo.head? ≠ some 0x650000)
    ∧ ((State.reset.onHart (fun h => { h with bankM := { h.bankM with tip := true } })).hart.bank .M).tip = true := by decide +kernel

theorem test_hyps_interrupts :
    State.reset.hart.run = .running ∧ State.reset.hart.nextIrq = none ∧ State.reset.present 0 = true ∧ State.reset.hart.duty ≠ 0
    ∧ State.reset.hart.region = none ∧ (switched (.suspending 9) 9).stopsNow 5 = true ∧ (switched (.suspending 9) 8).stopsNow 5 = false
    ∧ (match fetchAt (mkGa 1 hbmCore 0) (inRegion State.reset) with | .wait _ => true | _ => false) = true
    ∧ (let f : FaultEntry := ⟨0, 0x100, 0x1000, 4, 1, 5, 3, false, 0, 0, 0, 0, 0, []⟩
       (State.reset.onHart (fun h => { h with run := .parked, faults := [f] })).hart.faults = f :: [])
    ∧ (match fetchAt 0 (poke 0 0x001C State.reset) with | .got .cNop _ _ _ => true | _ => false) = true
    ∧ (match fetchAt 0 State.reset with | .illegal _ _ => true | _ => false) = true
    ∧ (match fetchAt 0x40000 State.reset with | .fault _ _ _ => true | _ => false) = true
    ∧ (irqOf 0x13 (atLevel .U State.reset)).hart.nextIrq = some ⟨0x13, 9, 0, 0x2000⟩
    ∧ (let s := irqOf 0x12 ((atLevel .U State.reset).onHart (fun h => { h with bankU := { h.bankU with ie := true } }))
       s.hart.nextIrq = some ⟨0x12, 9, 0, 0x2000⟩)
    ∧ (match fetchAt 0x2000 (poke 0x2000 0x00000033 State.reset) with | .got (.lpad 0 false) _ _ u => u.hart == State.reset.hart | _ => false) = true
    ∧ (irqOf 0x12 State.reset).hart.nextIrq = none
    ∧ ({ State.reset.hart with run := .parkTrap 7 0 0 0 } : Hart).faults = [] ∧ (5 : Word).toNat ≤ (5 : Word).toNat := by decide +kernel

/-! ### Translation and arriving accesses -/

theorem test_hyps_walks :
    (leWord ((mapped State.reset).mem.bytes (hbmKey 0 (0x10000 + 8 * 0)) 8)).toNat % 2 = 1
    ∧ (leWord (State.reset.mem.bytes (hbmKey 0 0x10000) 8)).toNat % 2 = 0
    ∧ walk (mapped State.reset) 0x10000 0x1234 .load .M = .leaf 0x11F 30 (hbmKey 0 0x12000)
    ∧ walk (poke (hbmKey 0 0x12000) 0x103 (mapped State.reset)) 0x10000 0 .load .M = .fault 5 7
    ∧ walk (poke (hbmKey 0 0x12000) 0x13 (mapped State.reset)) 0x10000 0 .load .M = .fault 5 7
    ∧ walk (poke (hbmKey 0 0x10000) 0x3 State.reset) 0x10000 0 .load .M = .fault 4 3
    ∧ walk (poke (hbmKey 0 0x10000) (1 + 2 ^ 39) State.reset) 0x10000 0 .load .M = .fault 4 2 := by decide +kernel

/-- Hart 0 in the mapped region with a load of HBM unperformed. -/
def walking : State := (mapped (inRegion State.reset)).onHart (fun h => { h with ops := [{ opOf (.load (hbm 0x10000) 8 false 1) with region := some 5 }] })

/-- The translation of that load as a TLB holds it. -/
def leaf5 : TlbEntry := ⟨0, 5, 0, 30, 0x11F⟩
def fitsLoad (e : TlbEntry) : Bool := e.node == 0 && e.region == 5 && decide (e.base ≤ 0x10000) && decide (0x10000 < e.base + 2 ^ e.bits)

theorem test_hyps_translation :
    (Memory.wf walking.mem = true ∧ walking.engines = [] ∧ walking.lent = [])
    ∧ (∃ o ∈ walking.hart.ops, ∃ p ∈ o.reads, 0x10000 + hbmCore * 2 ^ 49 < p.2 ∧ p.1 < 0x10000 + hbmCore * 2 ^ 49 + 65536)
    ∧ walking.hart.region = some 5 ∧ (walking.tlbFind (.data 0) 0 5 0x10000 false).isNone = true
    ∧ walk walking 0x10000 0x10000 .load .M = .leaf 0x11F 30 (hbmKey 0 0x12000)
    ∧ ((walking.onHart (fun h => { h with dtlb := [leaf5] })).hart.dtlb.find? fitsLoad = some leaf5)
    ∧ (walking.hart.dtlb.find? fitsLoad = none ∧ (({ walking with tlb := [(hartTable 0, leaf5)] }).secondTlb (hartTable 0)).find? fitsLoad = some leaf5
      ∧ leafPermits leaf5.leaf .load .M = true)
    ∧ State.reset.aliasRegion 7 = none ∧ (State.reset.carried 1 (some 7)).bind State.reset.region? = none
    ∧ (let s : State := { mapped (inRegion State.reset) with rgAlias := State.reset.rgAlias.set 0 0x8000000000051007 }
       s.aliasRegion 0x1007 = some 5 ∧ (s.carried 1 (some 0x1007)).bind s.region? = some region5 ∧ s.recovery = false
        ∧ walk s 0x10000 0 .store .U = .leaf 0x11F 30 (hbmKey 0 0x12000) ∧ walk s 0x10000 0 .load .M = .leaf 0x11F 30 (hbmKey 0 0x12000)
        ∧ walk { s with mem := [] } 0x10000 0 .load .M = .fault 4 1) := by decide +kernel

theorem test_hyps_replies :
    let a : Ask := ⟨0, 1, 5, 0, 0, false⟩
    let s : State := { State.reset with asks := [a] }
    let asked (a : Ask) : Bool := a.node == 1 && a.region == 5 && a.page == 0
    let is (p : Packet) : Bool := match p with
      | .transRequest n r o nd u => n == 1 && r == some 5 && o.toNat / 65536 == 0 && nd == 0 && u == false
      | _ => false
    s.asks.find? asked = some a ∧ State.reset.asks.find? asked = none ∧ s.unsent is = false
    ∧ ({ s with sendq := [⟨1, 0, .transRequest 1 (some 5) 0 0 false⟩] }).unsent is = true ∧ (a.need ≠ 4 ∧ ({ a with need := 4 } : Ask).need = 4) := by
  decide +kernel

/-- Whether an access of a hart still stands under the first page of node 1. -/
def under (h : Hart) : Bool := h.ops.any (fun o => o.writes.any (fun p => decide (p.1 < memKey 1 hbmCore 65536) && decide (memKey 1 hbmCore 0 < p.2)))

theorem test_hyps_invalidations :
    (∀ h ∈ State.reset.harts, under h = false ∧ h.writes = [])
    ∧ under (State.reset.onHart (fun h => { h with ops := [opOf (.store [(mkGa 1 hbmCore 0, memKey 1 hbmCore 0, [7])] false false)] })).hart = true
    ∧ (ticketed 2).tickets[0]? = some ⟨3, 2, 0⟩ ∧ (2 : BitVec 16) &&& (1#16 <<< (1 : BitVec 4).toNat) ≠ 0
    ∧ pinnedPage.pins[0]? = some ⟨5, 0, 0, 0⟩ ∧ (0 : Word).toNat + 10000000 ≤ (10000000 : Word).toNat
    ∧ (0 : Word).toNat < (0 : Word).toNat + 10000000 ∧ (mapped pinnedPage).region? 5 = some region5
    ∧ walk (mapped pinnedPage) 0x10000 0 .load .M = .leaf 0x11F 30 (hbmKey 0 0x12000) ∧ Memory.wf (mapped pinnedPage).mem = true := by
  decide +kernel

/-- An access of 8 bytes of hart 0's slice from node 1, carried in M mode. -/
def accIn (k : AccKind) (off : Nat) : Access := ⟨1, none, true, k, BitVec.ofNat 64 off, 8, 0, 0, 0, false⟩

theorem test_hyps_arrivals :
    State.reset.recovery = false ∧ (accIn .read 0).node ≠ State.reset.nodeId ∧ State.reset.isHost 1 = false
    ∧ ({ State.reset with hosts := 2 }).isHost 1 = true ∧ State.reset.present 0 = true ∧ State.reset.present 1091 = true
    ∧ State.reset.present 1092 = false ∧ (accIn .read 0x3FFF8).addr.toNat % 2 ^ 49 < 2 ^ 18 ∧ 2 ^ 18 ≤ (accIn .read 0x40000).addr.toNat % 2 ^ 49
    ∧ (accIn .write 0).kind = .write ∧ (accIn (.atomic 9) 0).kind = .atomic 9 ∧ (accIn (.atomic 25) 0).kind = .atomic 25
    ∧ (accIn (.atomic 10) 0).kind = .atomic 10 ∧ (accIn (.atomic 11) 0).kind = .atomic 11
    ∧ State.reset.carried 1 none = none ∧ State.reset.ownerOf 0 = 0xFFFF ∧ fmtCode (State.reset.bankReg 0 0) = 0
    ∧ fmtCode (({ State.reset with bankFmt := [(0, 3)] }).bankReg 0 0) ≠ 0
    ∧ State.reset.poisoned 0 = false ∧ ({ State.reset with poison := [0] }).poisoned 0 = true ∧ keyInRing State.reset 0 = false
    ∧ Memory.wf State.reset.mem = true ∧ (0 % 64 + 8 ≤ 64 ∧ csPage State.reset 0 = false ∧ State.reset.intervals = []) := by decide +kernel

/-! ### Power and the module -/

/-- Four harts of quad 0 asleep since tick 0. -/
def dozing (run : Run) (now : Word) : State :=
  { State.reset with hart := { State.reset.hart with run := run }, others := [1, 2, 3].map (fun n => { Hart.reset n with run := run }), now := now }

theorem test_hyps_power :
    (∀ k ∈ [0, 1, 2, 3], ((dozing (.timed 1 90000 1 false) 20000).getHart k).run = .timed 1 90000 1 false
      ∧ ((dozing (.timed 1 90000 1 false) 20000).getHart k).idleSince.toNat + 20000 ≤ (dozing (.timed 1 90000 1 false) 20000).now.toNat
      ∧ ((dozing (.timed 1 90000 1 false) 20000).getHart k).cmds = [] ∧ ((dozing (.timed 1 90000 1 false) 20000).getHart k).copies = [])
    ∧ (∀ k ∈ [0, 1, 2, 3], ((dozing (.retention (some (1, 90000, 1)) false) 90000).getHart k).run = .retention (some (1, 90000, 1)) false)
    ∧ (90000 : Word).toNat ≤ (dozing (.retention none false) 90000).now.toNat ∧ (dozing .running 0).lastAdmit = none
    ∧ ¬((dozing (.timed 1 90000 1 false) 19999).hart.idleSince.toNat + 20000 ≤ (dozing (.timed 1 90000 1 false) 19999).now.toNat)
    ∧ (451 < 452 ∧ (16 : BitVec 5).toNat ≤ 16 ∧ (0 : BitVec 5) = 0 ∧ (Hart.reset 0).node = none)
    ∧ ({ State.reset with domains := [⟨0, 5, 7, some 3, some 0⟩] }).domain 0 = ⟨0, 5, 7, some 3, some 0⟩ ∧ (State.reset.domain 0).next = none
    ∧ (State.reset.domain 0).given = none
    ∧ (let o := { opOf (.load 0x1000 8 false 1) with region := some 5 }
       let s := (inRegion State.reset).onHart (fun h => { h with ops := [o, { opOf .engine with id := 1 }, { opOf (.copy 0) with id := 2 }] })
       (s.getHart 0).op? 0 = some o ∧ (s.getHart 0).op? 1 = some { opOf .engine with id := 1 } ∧ (s.getHart 0).op? 2 = some { opOf (.copy 0) with id := 2 }
        ∧ (s.getHart 0).op? 3 = none ∧ s.present 0 = true ∧ s.frameLive 0 = true ∧ 0x3FFFF < 2 ^ 18)
    ∧ ({ State.reset with hosts := 2 }).isHost 1 = true ∧ (1 : BitVec 4) ≠ State.reset.nodeId
    ∧ (State.reset.boot.quads = [] ∧ (4 / 4 : Nat) ∈ ({ State.reset.boot with quads := [0, 1] }).quads) ∧ ((inRegion State.reset).region? 5).isSome = true := by decide +kernel

/-! ### Steps and encodings -/

theorem test_hyps_step :
    let s := { State.reset.withFetchWord 16 0x001C with sched := [.issue] }
    let u := advance s
    let w : State := { u with sched := [], hart := { s.hart with run := .running } }
    s.hart.run = .running ∧ s.hart.nextIrq = none ∧ (fetchHalf 0 w).cause = 0 ∧ (fetchHalf 0 w).st.poisoned (fetchHalf 0 w).key = false
    ∧ keyInRing (fetchHalf 0 w).st (fetchHalf 0 w).key = false ∧ decode (w.mem.bytes (fetchHalf 0 w).key 2) = .ok (.cNop, [])
    ∧ gate .cNop w = .open_ ∧ w.hart.ops = [] ∧ w.hart.rets = [] ∧ w.hart.faults = [] ∧ w.hart.cmds = []
    ∧ (unitAction (advance { s with sched := [] })).isNone = true
    ∧ s.present s.hart.num = true ∧ s.hart.duty ≠ 0 ∧ s.hart.region = none ∧ ({ s with removedQuads := [0] }).present 0 = false
    ∧ ({ s with hart := { s.hart with run := .blocked } }).hart.run = .blocked ∧ gaNode s.hart.pc = s.nodeId
    ∧ (let s := { State.reset.withFetchWord 32 0x01234033 with sched := [.issue] }
       let a := fetchHalf 0 (advance s)
       let b := fetchHalf 2 a.st
       b.cause = 0 ∧ b.st.poisoned b.key = false ∧ keyInRing b.st b.key = false
        ∧ decode (a.st.mem.bytes a.key 2 ++ b.st.mem.bytes b.key 2) = .ok (.lpad 0x1234 false, []))
    ∧ (let s := (inRegion State.reset).onHart (fun h => { h with run := .running })
       s.hart.region = some 5 ∧ (advance s).stopsNow 5 = false) := by decide +kernel

theorem test_hyps_encoding :
    (Instr.sel 1 2 3 5 false).wf = true ∧ (Instr.sel 1 2 3 5 false).isEvent = false ∧ (Instr.sel 1 2 3 5 false).sharesWord = false
    ∧ (Instr.cpstResume 1 2 3 false).wf = true ∧ (Instr.cpstResume 1 2 3 false).sharesWord = true := by decide +kernel

theorem test_hyps_canonical :
    Memory.wf (State.reset.withFetchWord 16 0x001C).mem = true
    ∧ (match step (State.reset.withFetchWord 16 0x001C) with | .next t => Memory.wf t.mem && t.hart.pc == 2 | _ => false) = true := by
  decide +kernel

/-! ### Scalar results, branches and time -/

theorem test_hyps_division :
    (let s := regs [(1, 7), (2, 0xFFFFFFFFFFFFFFFE)]; lowInt false (s.x 2) ≠ 0 ∧ low false (s.x 2) ≠ 0 ∧ lowInt true (s.x 2) ≠ 0)
    ∧ low false ((regs [(1, 7)]).x 2) = 0 ∧ low true ((regs [(1, 7), (2, 0x100000000)]).x 2) = 0
    ∧ (let s := regs [(1, 0x8000000000000000), (2, 0xFFFFFFFFFFFFFFFF)]; lowInt false (s.x 1) = -2 ^ (width false - 1) ∧ lowInt false (s.x 2) = -1)
    ∧ (let s := regs [(1, 0x80000000), (2, 0xFFFFFFFF)]; lowInt true (s.x 1) = -2 ^ (width true - 1) ∧ lowInt true (s.x 2) = -1)
    ∧ (2 : BitVec 3).toNat ≤ 2 ∧ (63 < 64 ∧ 0 < 64) := by decide +kernel

/-- Words of landing pads, nops and a jump table for the returns and calls below. -/
def padded : State :=
  ((poke 0x2000 0x00000033 State.reset) |> poke 0x2008 0x001C |> poke 0x3000 0xFFFFFFFFFFFFF001 |>
    poke 0x3008 0xFFFFFFF8).setX 3 0x3000

/-- The same with the operand-extension register that bounds a jump table. -/
def tabled (n : Word) : State := padded.onHart (fun h => { h with ox := h.ox.set 0 (n <<< 32) })

theorem test_hyps_returns :
    (0x2000 : Word).toNat % 2 = 0 ∧ (0x2001 : Word).toNat % 2 = 1 ∧ ((regs [(1, 2)]).x 1).toNat % 2 = 0 ∧ ((regs [(1, 1)]).x 1).toNat % 2 = 1
    ∧ (match fetchAt 0x40000 padded with | .fault _ _ _ => true | _ => false) = true
    ∧ (match fetchAt 0x2000 State.reset with | .illegal _ _ => true | _ => false) = true
    ∧ (let u : State := (mapped (inRegion State.reset)).onHart (fun h => { h with level := .S })
       (match fetchAt (mkGa 1 hbmCore 0) u with | .wait _ => true | _ => false) = true)
    ∧ (match fetchAt 0x2000 padded with | .got i _ _ _ => i == .lpad ((tabled 0).oxr 0 |>.setWidth 16) false | _ => false) = true
    ∧ (match fetchAt 0x2008 padded with | .got i _ _ _ => i == .cNop | _ => false) = true := by decide +kernel

theorem test_hyps_jump_tables :
    ((tabled 1).oxr 0).toNat / 2 ^ 32 % 2 ^ 16 ≤ ((tabled 1).setX 4 1 |>.x 4).toNat
    ∧ ((tabled 1).x 4).toNat < ((tabled 1).oxr 0).toNat / 2 ^ 32 % 2 ^ 16
    ∧ (0x3002 : Word).toNat % 4 ≠ 0 ∧ ((tabled 3).x 3).toNat % 4 = 0
    ∧ (match blockRead 0x40000 4 (tabled 3) with | .fault _ _ _ => true | _ => false) = true
    ∧ (match blockRead 0x3000 4 ((tabled 3).onHart (fun h => { h with ops := [opOf (.load 0x1000 8 false 1)], nextOp := 1 })) with
       | .wait _ => true | _ => false) = true
    ∧ (match blockRead ((tabled 3).x 3 + 4 * 0) 4 (tabled 3) with
       | .got e _ => (BitVec.ofInt 64 (0x3000 + Int.bmod (leNat e) (2 ^ 32))).toNat % 2 == 1 | _ => false) = true
    ∧ (match blockRead ((tabled 3).x 3 + 4 * 1) 4 (tabled 3) with
       | .got e _ => (BitVec.ofInt 64 (0x3000 + Int.bmod (leNat e) (2 ^ 32))).toNat % 2 == 1 | _ => false) = true
    ∧ (match blockRead ((tabled 3).x 3 + 4 * 2) 4 (tabled 3) with
       | .got e s1 => BitVec.ofInt 64 (0x3000 + Int.bmod (leNat e) (2 ^ 32)) == 0x2FF8
          && (match fetchAt 0x2000 s1.readDone, fetchAt 0x2008 s1.readDone with
              | .got (.lpad 0 false) _ _ _, .got .cNop _ _ _ => true | _, _ => false)
       | _ => false) = true := by decide +kernel

theorem test_hyps_time :
    (let s := { regs [(1, 5), (2, 0xFFFFFFFFFFFFFFFF)] with now := 9 }
     s.now.toNat < s.now.toNat + min (s.x 1).toNat 1048576 ∧ s.now.toNat + min (s.x 0).toNat 1048576 ≤ s.now.toNat
      ∧ min (s.x 1).toNat (s.now.toNat + 1048576) ≤ s.now.toNat ∧ s.now.toNat < min (s.x 2).toNat (s.now.toNat + 1048576)) := by
  decide +kernel

/-! ### Memory operations -/

/-- Sixty-four results on their way: no entry of the scoreboard is free. -/
def full : State := State.reset.onHart (fun h => { h with rets := (List.range 64).map (fun n => ⟨n, 0, .xval 1 2, none, []⟩) })

/-- A range of the slice of hart 0 locked by an engine command of another strand. -/
def locked : State := { State.reset with locks := [⟨hartTable 0, 0, 64, .dest, some 0, 1, none, 7, none⟩] }

/-- A combining entry of strand 0 with eight bytes at HBM offset 0. -/
def combined : State :=
  ((mapped (inRegion State.reset)).onHart (fun h => { h with level := .S })) |> fun s =>
    match execStD 0 1 0 0 false (s.setX 1 (hbm 0)) with | .next t => t | _ => s

theorem test_hyps_loads :
    (0x1001 : Word).toNat % 2 ≠ 0 ∧ lockHit State.reset 0x1000 0x1008 false 0 = 0 ∧ lockHit locked 0 8 false 0 ≠ 0
    ∧ 64 ≤ full.hart.entries ∧ State.reset.hart.entries < 64
    ∧ bufferByte State.reset 0x1000 = none ∧ ((List.range 8).all (fun i => (bufferByte combined ((hbm 0).toNat + i)).isSome)) = true
    ∧ (∀ o ∈ combined.hart.ops, anyMeet o.reads [((hbm 0).toNat, (hbm 0).toNat + 8)] = false)
    ∧ (gaCore 0x2000000001000 ≠ full.hart.num ∧ 64 ≤ full.hart.replySlots) ∧ ¬(gaCore 0x1000 ≠ full.hart.num)
    ∧ (full.hart.outstanding ≠ 0 ∧ State.reset.hart.outstanding = 0)
    ∧ lockHit combined (hbm 0).toNat ((hbm 0).toNat + 8) false 0 = 0 ∧ combined.hart.entries < 64 := by decide +kernel

theorem test_hyps_stores :
    let s : State := (mapped (inRegion State.reset)).onHart (fun h => { h with level := .S })
    lockHit State.reset 0x1000 0x1008 true 0 = 0 ∧ lockHit locked 0 8 true 0 ≠ 0
    ∧ (translate State.reset none .M .store 0x1000).cause = 0 ∧ State.reset.buffers 0x1000 = false
    ∧ (translate s (some 5) .S .store (hbm 0x10000)).cause = 0 ∧ (translate s (some 5) .S .store (hbm 0x10000)).st.buffers (hbm 0x10000) = true
    ∧ (translate s (some 5) .S .store (hbm 0x40000000)).cause ≠ 0 ∧ (translate s (some 5) .S .store (hbm 0x40000000)).cause ≠ 0xFF
    ∧ gaNode (hbm 0) = s.nodeId
    ∧ (translate s (some 5) .S .store (mkGa 1 hbmCore 0)).cause = 0xFF
    ∧ (let t := translate s (some 5) .S .store (mkGa 1 1092 0)
       t.cause ≠ 0 ∧ t.cause ≠ 0xFF ∧ gaNode (mkGa 1 1092 0) ≠ s.nodeId ∧ gaCore (mkGa 1 1092 0) ≠ hbmCore)
    ∧ (let t := translate s none .M .store (mkGa 1 3 0)
       t.cause = 0 ∧ t.st.buffers (mkGa 1 3 0) = true)
    ∧ (translate { s with lanes := (List.range 64).map (fun n => ⟨1, n, .failed⟩) } (some 5) .S .store (mkGa 1 hbmCore 0)).reason = 8
    ∧ (let t := translate (s.onHart (fun h => { h with comb := [] })) (some 5) .S .store (hbm 0x10000)
       t.st.hart.comb.length + 1 ≤ 32)
    ∧ combined.hart.comb.any (fun e => e.line == (hbm 0).toNat / 64 && e.strand == 0 && !e.closed) = true
    ∧ (let u := s.onHart (fun h => { h with comb := List.replicate 32 (⟨1, 0, [], 0, true, true, 0⟩ : CombEntry) })
       32 < (translate u (some 5) .S .store (hbm 0x10000)).st.hart.comb.length + 1) := by decide +kernel

theorem test_hyps_atomics_and_flush :
    (0x1004 : Word).toNat % 8 ≠ 0 ∧ (0x1004 : Word).toNat % 4 = 0 ∧ lockHit locked 0 8 true 0 ≠ 0 ∧ 64 ≤ full.hart.entries
    ∧ 64 ≤ full.hart.replySlots ∧ State.reset.hart.entries < 64
    ∧ gaCore (hbm 0) = hbmCore ∧ gaNode (hbm 0) = State.reset.nodeId ∧ gaCore 0x1000 ≠ hbmCore
    ∧ (let u : State := (mapped (inRegion State.reset)).onHart (fun h => { h with level := .S })
       let q : Ask := ⟨0, 1, 5, 0, 4, false⟩
       u.hart.region = some 5 ∧ u.reaches 1 = true ∧ u.tlbFind (.data 0) 1 5 0 false = none ∧ q ∉ u.asks
        ∧ q ∈ ({ u with asks := [q] }).asks) := by decide +kernel

/-! ### Operations performed -/

/-- Hart 0 with one unperformed operation. -/
def op1 (k : OpKind) (s : State) : State := s.onHart (fun h => { h with ops := [opOf k], sp := h.sp.set 0 { h.spin 0 with issue := 1 } })

/-- A read-combining entry of cluster 0 for a line, opened at tick 9. -/
def entryOf (line : Nat) (remote : Bool) : ReadEntry := ⟨7, 0, line, line * 64, 9, 0x55, false, remote, [], []⟩

/-- The operation may be performed now, where the agent of the hart moves. -/
def dueIn (s : State) (o : Op) : Bool := decide (s.hart.op? o.id = some o) && s.hart.ready o && o.sent.isNone && s.moving

/-- The access of an operation of hart 0 translates to a key that holds no poison, and changes nothing. -/
def lands (s : State) (o : Op) (p : Word) (key : Nat) : Bool :=
  let t := translate s o.region o.level .load p
  t.cause == 0 && t.reason == 0 && t.key == key && t.st == s && !s.poisoned key

/-- A load of bytes that the combining buffer holds. -/
def suppliedLoad : State :=
  let st : Op := { opOf (.store [(hbm 0, hbmKey 0 0, leBytes 7 8)] false true) with id := 0 }
  let ld : Op := { opOf (.load (hbm 0) 8 false 1) with id := 1, strand := 1 }
  State.reset.onHart (fun h => { h with ops := [st, ld], comb := [⟨(hbm 0).toNat / 64, 0, [0], 0xFF, false, false, 0⟩], nextOp := 2 })

theorem test_hyps_loads_deliver :
    (let o := { opOf (.load (hbm 0) 8 false 1) with id := 1, strand := 1 }
     dueIn suppliedLoad o = true ∧ suppliedLoad.hart.comb ≠ []
      ∧ ((List.range 8).all (fun i => (forwardByte (suppliedLoad.hart.olderOps 1) ((hbm 0).toNat + i)).isSome)) = true)
    ∧ (let o := opOf (.load 0x1000 8 false 1)
       let s := op1 o.kind State.reset
       dueIn s o = true ∧ o.kind.loadPlace = some (0x1000, 8) ∧ s.hart.comb = [] ∧ gaNode 0x1000 = s.nodeId ∧ gaCore 0x1000 ≠ hbmCore
        ∧ lands s o 0x1000 0x1000 = true ∧ s.hart.rets = [])
    ∧ (let o := opOf (.vload 0x8000000000000 0 1)
       let s := { op1 o.kind State.reset with bankFmt := [(32, 3)] }
       dueIn s o = true ∧ s.foreignFormatted 0 0x8000000000000 = true)
    ∧ (let o := opOf (.streamLoad 24 0 0x8000000000000 0)
       let s := { op1 o.kind State.reset with bankFmt := [(32, 3)] }
       dueIn s o = true ∧ s.foreignFormatted 0 0x8000000000000 = true)
    ∧ (let a := hbm 0x10038
       let o := { opOf (.load a 8 false 1) with region := some 5, level := .S }
       let s := (translate (mapped (inRegion State.reset)) (some 5) .S .load a).st.onHart (fun h => { h with ops := [o] })
       dueIn s o = true ∧ lands s o a (hbmKey 0 0x10038) = true ∧ hbmKey 0 0x10038 % 64 + 8 ≤ 64 ∧ s.reads = []
        ∧ absorbs s.hart ⟨0, 0, true, false⟩ (hbmKey 0 0x10038) 8 (entryOf (hbmKey 0 0x10038 / 64) false) = true
        ∧ absorbs s.hart ⟨0, 0, true, false⟩ 0 8 (entryOf 1 false) = false)
    ∧ (let a := mkGa 1 3 0
       let o := opOf (.load a 8 false 1)
       let s := op1 o.kind State.reset
       dueIn s o = true ∧ (translate s none .M .load a).cause = 0 ∧ gaNode a ≠ s.nodeId ∧ s.reads = [])
    ∧ (let o := opOf (.vloadx 0 false 1 2 0 [(0, 0x1000), (15, 0x1004)])
       let s := op1 o.kind State.reset
       dueIn s o = true ∧ (∀ l ∈ [((0 : Nat), (0x1000 : Word)), (15, 0x1004)], (gatherPlace 0 false l.2).1 = l.2 ∧ (gatherPlace 0 false l.2).2 = 4
        ∧ s.foreignFormatted 0 l.2 = false ∧ lands s o l.2 l.2.toNat = true)) := by decide +kernel

/-- A load that waits for another node, as hart 0 opened its entry. -/
def awaiting (sendq : List SendItem) : State :=
  { State.reset with
    hart := { State.reset.hart with ops := [{ opOf (.load (mkGa 1 3 0) 8 false 1) with sent := some 7 }] }
    reads := [{ entryOf 1 true with readers := [(0, 0)] }]
    sendq := sendq }

theorem test_hyps_results_return :
    ([entryOf 1 false].find? (fun f => f.id == 7) = some (entryOf 1 false) ∧ (entryOf 1 false).remote = false)
    ∧ (let s := awaiting []
       s.answerable 0 7 true 0 = true ∧ s.answerable 0 7 false 5 = true ∧ s.hart.waitingOn 7 = s.hart.ops ∧ s.hart.ops.length = 1
        ∧ s.reads.all (fun e => e.readers == [(s.hart.num, 0)]) = true)
    ∧ (awaiting [⟨1, 0, .request 1 0 7 ⟨0, none, true, .read, 0, 8, 0, 0, 0, false⟩⟩]).answerable 0 7 true 0 = false
    ∧ (∀ r ∈ ([⟨3, 0, .xval 1 2, none, []⟩, ⟨3, 0, .vval [(2, 5)] 1, none, []⟩, ⟨3, 0, .acc 2 [(2, 5)] 1, none, []⟩,
          ⟨3, 0, .lanes 2 true [(0, 5), (31, 6)] 3 1, none, []⟩, ⟨3, 0, .stream 24 0 5 1 0, none, []⟩,
          ⟨3, 0, .nothing [] [], some ⟨3, 0, 0x1000, 5, 7, 1, 3, false, 0, 0, 0, 0, 0, []⟩, [7]⟩] : List Ret),
        let s := State.reset.onHart (fun h => { h with rets := [r] })
        s.moving = true ∧ s.hart.op? 3 = none ∧ s.hart.rets.find? (fun q => q.id == 3) = some r ∧ s.reads = [])
    ∧ State.reset.hart.bound 2 = none
    ∧ ((State.reset.onHart (fun h => h.setBind 0 (some ⟨0x1000, 1, 1, false, 64, 0, 0, 0, 0, false, 0, 1, []⟩))).hart.bound 24).isSome = true := by
  decide +kernel

/-- Whether a place is within a line and plain. -/
def plain (s : State) (key n : Nat) : Bool := decide (key % 64 + n ≤ 64) && !keyInRing s key && !csPage s key && s.intervals.isEmpty

/-- A combining entry that drains the only store of hart 0. -/
def drainingFor (ws : List (Word × Nat × List Byte)) (a : Word) : State :=
  (op1 (.store ws false true) State.reset).onHart (fun h => { h with comb := [⟨a.toNat / 64, 0, [0], 0xFF, true, true, 5⟩] })

theorem test_hyps_stores_reach :
    (let k : OpKind := .store [(0x1038, 0x1038, leBytes 7 8), (0x2000, 0x2000, [1])] true false
     let s := op1 k State.reset
     dueIn s (opOf k) = true ∧ s.unsentBy 0 = false ∧ s.hart.writes = [] ∧ gaNode 0x1038 = s.nodeId ∧ plain s 0x1038 8 = true
      ∧ plain s 0x2000 1 = true ∧ s.foreignFormatted 0 0x1038 = false ∧ Memory.wf s.mem = true ∧ s.engines = [] ∧ s.lent = [])
    ∧ (let k : OpKind := .store [(0x8000000000000, 0x400000, [1])] true false
       let s := { op1 k State.reset with bankFmt := [(32, 3)] }
       dueIn s (opOf k) = true ∧ s.foreignFormatted 0 0x8000000000000 = true)
    ∧ (let s := drainingFor [(hbm 0, hbmKey 0 0, leBytes 7 8), (hbm 64, hbmKey 0 64, leBytes 9 8)] (hbm 0)
       s.hart.drainable 0 = true ∧ s.hart.comb.map (s.hart.entryOps ·) = [s.hart.ops]
        ∧ (s.hart.ops.flatMap (fun o => o.pieces ((hbm 0).toNat / 64))) = [(hbm 0, hbmKey 0 0, leBytes 7 8)]
        ∧ gaCore (hbm 0) = hbmCore ∧ plain s (hbmKey 0 0) 8 = true ∧ (hbm 64).toNat / 64 ≠ (hbm 0).toNat / 64)
    ∧ (let a := mkGa 1 hbmCore 0
       let s := drainingFor [(a, 9, leBytes 7 8)] a
       s.hart.drainable 0 = true ∧ gaNode a ≠ s.nodeId ∧ s.reaches (gaNode a) = true
        ∧ ({ s with lanes := (List.range 64).map (fun n => ⟨1, n, .failed⟩) }).reaches (gaNode a) = false) := by decide +kernel

/-- A store of hart 0 whose one write, number 4, stands in the send queue for a peer or has left it. -/
def writing (rest : List (Word × Nat × List Byte)) (n : Nat) (queued : Bool) : State :=
  { State.reset.onHart (fun h => { h with ops := [{ opOf (.store rest false true) with sent := some n }], writes := [⟨4, 1, [0], []⟩] }) with
    sendq := if queued = true then [⟨1, 2, .write 1 0 4 ⟨0, none, true, .write, 0, 64, 0, 0, 0, false⟩⟩] else [] }

theorem test_hyps_acknowledgements :
    (let s := writing [] 1 false
     s.hart.writes.find? (fun v => v.num == 4) = some ⟨4, 1, [0], []⟩ ∧ s.hart.op? 0 = some { opOf (.store [] false true) with sent := some 1 }
      ∧ s.unsentBy 4 = false)
    ∧ (writing [] 1 true).unsentBy 4 = true ∧ (writing [] 2 false).unsentBy 4 = false ∧ (writing [(0, 0, [1])] 1 false).unsentBy 4 = false
    ∧ (let s := writing [] 1 true
       s.suspended 1 = false ∧ ({ s with degraded := 2 }).suspended 1 = true
        ∧ (s.sendq.find? (fun i => i.peer == 1 && i.cls == 2)) = s.sendq.head?)
    ∧ (let s := State.reset.onHart (fun h => { h with comb := [⟨1, 0, [], 1, false, false, 0⟩], cycle := 128 })
       s.hart.comb[0]? = some ⟨1, 0, [], 1, false, false, 0⟩ ∧ 0 + 128 ≤ s.hart.cycle ∧ State.reset.hart.cycle < 0 + 128) := by decide +kernel

theorem test_hyps_atomics_performed :
    (let o := opOf (.atomic 0x1000 9 1 0 5)
     let s := op1 o.kind State.reset
     let t := translate s none .M .atomic 0x1000
     dueIn s o = true ∧ gaNode 0x1000 = s.nodeId ∧ t.cause = 0 ∧ t.reason = 0 ∧ t.key = 0x1000 ∧ (t.st == s) = true
      ∧ Memory.wf s.mem = true ∧ s.engines = [] ∧ s.lent = [] ∧ s.poisoned 0x1000 = false ∧ plain s 0x1000 8 = true)
    ∧ (9 : BitVec 6).toNat < 10 ∧ (25 : BitVec 6).toNat < 26 ∧ 16 ≤ (16 : BitVec 6).toNat
    ∧ (let a := mkGa 1 0 0x1000
       let o := opOf (.atomic a 0 1 0 5)
       let s := op1 o.kind State.reset
       dueIn s o = true ∧ gaNode a ≠ s.nodeId ∧ (translate s none .M .atomic a).cause = 0)
    ∧ (let o := { opOf (.atomic (mkGa 1 0 0x1000) 0 1 0 5) with sent := some 0 }
       let s := State.reset.onHart (fun h => { h with ops := [o] })
       s.hart.op? 0 = some o ∧ s.moving = true ∧ 0 ≠ lostRead ∧ s.answerable 0 0 true 0 = true ∧ s.answerable 0 0 false 5 = true) := by
  decide +kernel

/-! ### Strands -/

theorem test_hyps_strands :
    (1 : BitVec 3) ≠ 2 ∧ State.reset.hart.waitsOn 3 0 = false ∧ (∀ r, State.reset.hart.waitsOn r 0 = false)
    ∧ (op1 (.store [(0, 0, [1])] false false) State.reset).hart.waitsOn 0 1 = true
    ∧ (let tok := tokenOf 0 State.reset.tkKey 0 0 1
       let s := op1 (.store [(0, 0, [1])] false false) State.reset
       tok.extractLsb' 46 4 = s.nodeId ∧ tokenVerdict s tok = none)
    ∧ tokenVerdict State.reset (tokenOf 0 State.reset.tkKey 0 0 0) = some true
    ∧ tokenVerdict State.reset (tokenOf 0 State.reset.tkKey 0 0 1) = some false
    ∧ (let tok := tokenOf 1 State.reset.tkKey 0 0 0
       tok.extractLsb' 46 4 ≠ State.reset.nodeId ∧ State.reset.reaches (tok.extractLsb' 46 4) = true ∧ State.reset.hart.replySlots < 64
        ∧ 64 ≤ full.hart.replySlots
        ∧ ({ State.reset with lanes := (List.range 64).map (fun n => ⟨1, n, .failed⟩) }).reaches (tok.extractLsb' 46 4) = false) := by
  decide +kernel

theorem test_hyps_markers :
    (∀ k ∈ [OpKind.fork 1 0, .join 1 0], let s := op1 k State.reset
      dueIn s (opOf k) = true ∧ ((s.hart.spin 1).perf - 0).toNat < 2 ^ 31 ∧ ¬((s.hart.spin 1).perf - 1).toNat < 2 ^ 31)
    ∧ State.reset.recovery = false ∧ ({ State.reset with recovery := true }).recovery = true
    ∧ (let s (q : List SendItem) : State := { State.reset with hart := { State.reset.hart with run := .token 1 5 false }, sendq := q }
       let waits (q : List SendItem) : Bool := (s q).unsent (fun p => match p with | .tokenRequest _ t => t == 5 | _ => false)
       (s []).hart.run = .token 1 5 false ∧ waits [] = false ∧ waits [⟨1, 0, .tokenRequest 1 5⟩] = true) := by decide +kernel

theorem test_hyps_token_verdict :
    let s := State.reset.onHart (fun h => { h with sp := h.sp.set 0 { h.spin 0 with issue := 9, perf := 4, span := some (6, 7) } })
    let tok (n : BitVec 32) := tokenOf 0 s.tkKey 0 0 n
    let away : State := { s with lent := [⟨1, 5, [s.hart], Engine.reset 1, [], [], 0, 0⟩] }
    s.present 0 = true ∧ (tok 9).toNat / 2 ^ 50 = (tokenCheck s.tkKey (tok 9)).toNat
    ∧ (tok 9).toNat / 2 ^ 35 % 2 ^ 11 = 0 ∧ ((9 : BitVec 32) - 9).toNat < 2 ^ 31 ∧ ((7 : BitVec 32) - 6).toNat < ((9 : BitVec 32) - 6).toNat
    ∧ tokenVerdict s (tok 4) = some true ∧ tokenVerdict s (tok 6) = none ∧ tokenVerdict s (tok 7) = some false ∧ tokenVerdict s (tok 9) = none
    ∧ (∀ l ∈ away.lent, ∀ k ∈ l.harts, k.num = 0 ∧ ((k.spin 0).issue - 9).toNat < 2 ^ 31 ∧ 2 ^ 31 ≤ ((k.spin 0).perf - 9).toNat)
    ∧ tokenVerdict away (tok 9) = none := by decide +kernel

/-! ### Vectors -/

/-- Register v24 of hart 0 bound as a raw stream of one register. -/
def streamed (w : Bool) (pos : Nat) (ready : List (Nat × VReg × BitVec 5 × BitVec 8)) : State :=
  State.reset.onHart (fun h => h.setBind 0 (some ⟨0x1000, 1, 1, w, 64, 0, 0, 0, 0, false, pos, 0, ready⟩))

theorem test_hyps_vectors :
    (State.reset.hart.bound 24 = none ∧ (consumeAll [1, 2] State.reset).ok = true ∧ ((consumeAll [1, 2] State.reset).st == State.reset) = true)
    ∧ (streamed false 0 []).hart.bound 24 = some ⟨0x1000, 1, 1, false, 64, 0, 0, 0, 0, false, 0, 0, []⟩
    ∧ (streamed false 1 []).hart.bound 24 = some ⟨0x1000, 1, 1, false, 64, 0, 0, 0, 0, false, 1, 0, []⟩
    ∧ (streamed false 0 [(0, 5, 0, 5)]).hart.bound 24 = some ⟨0x1000, 1, 1, false, 64, 0, 0, 0, 0, false, 0, 0, [(0, 5, 0, 5)]⟩
    ∧ (let s := streamed true 0 []
       s.hart.bound 24 = some ⟨0x1000, 1, 1, true, 64, 0, 0, 0, 0, false, 0, 0, []⟩ ∧ (consumeAll [1, 2] s).ok = true
        ∧ (produce 24 (List.replicate 16 true) s).ok = true ∧ (produce 24 (List.replicate 16 true) (streamed true 1 [])).ok = false)
    ∧ (consumeAll [24] (streamed false 0 [(0, 5, 1, 0)])).ok = true
    ∧ (15 : BitVec 5).toNat < laneCount false ∧ (31 : BitVec 5).toNat < laneCount true ∧ (10 : BitVec 5).toNat ≤ 10 := by decide +kernel

theorem test_hyps_rounding :
    (0 < 1 ∧ 0 < 3) ∧ (fpRound .fp32 .rne false 1 3).flags &&& flagOF = 0 ∧ (fpRound .fp32 .rz true 1 3).flags &&& flagNX ≠ 0
    ∧ (fpRound .fp32 .rne false 3 2).flags = 0 := by decide +kernel

/-- Bank 0 of the slice of hart 0 in a format. -/
def banked (f : Word) : State := { State.reset with bankFmt := [(0, f)] }

theorem test_hyps_vector_memory :
    fmtCode ((banked 3).fmtReg 0 0) = 3 ∧ bankRefusal 3 16 1 = 0 ∧ bankRefusal 3 17 1 = 0x03 ∧ bankRefusal 3 0x4000 1 = 0x05 ∧ bankRefusal 6 0 30 = 0x03
    ∧ bankRefusal 0 0x1020 1 = 0x03 ∧ bankRefusal 7 24528 1 = 0 ∧ lockHit locked 0 64 false 0 ≠ 0 ∧ lockHit locked 0 64 true 0 ≠ 0
    ∧ lockHit (banked 3) 0 32 false 0 = 0 ∧ WriteMisused (streamed false 0 []) 24 ∧ ¬WriteMisused (banked 3) 1
    ∧ 64 ≤ full.hart.entries ∧ (banked 3).hart.entries < 64
    ∧ (let c := checkStore 16 (bankPlace 3 16) (banked 3)
       c.ok = true ∧ c.key = 32 ∧ (c.st == banked 3) = true ∧ bankPlace 3 16 = 32 ∧ (banked 3).buffers 32 = false)
    ∧ (consumeAll [1] (banked 3)).ok = true := by
  refine ⟨?_, ?_, ?_, ?_, ?_, ?_, ?_, ?_, ?_, ?_, ⟨⟨0x1000, 1, 1, false, 64, 0, 0, 0, 0, false, 0, 0, []⟩, ?_, .inl rfl⟩, ?_, ?_⟩
  case refine_12 => rintro ⟨b, h, -⟩; simp [banked, State.reset, Hart.reset, Hart.bound] at h
  all_goals decide +kernel

theorem test_hyps_gather :
    let s := State.reset.onHart (fun h => { h with x := h.x.set 1 0x1000, v := h.v.set 2 1 })
    let on := (List.range 16).filter (fun j => (s.mr 0).getLsbD j)
    let at_ (j : Nat) : Word := BitVec.ofNat 64 (0x1000 + lane false (s.vr 2) j * 4)
    fmtCode (s.fmtReg 0 (s.x 1)) = 0 ∧ (consumeAll [2] s).ok = true ∧ ((consumeAll [2] s).st == s) = true ∧ on = List.range 16
    ∧ on.find? (fun j => (at_ j).toNat % 4 != 0) = none ∧ on.find? (fun j => fmtCode (s.fmtReg 0 (at_ j)) != 0) = none
    ∧ (0x1001 : Word).toNat % 2 ≠ 0 ∧ fmtCode ((banked 3).fmtReg 0 0) ≠ 0
    ∧ on.find? (fun j => lockHit s (at_ j).toNat ((at_ j).toNat + 4) true 0 != 0) = none ∧ lockHit locked 0 4 true 0 ≠ 0
    ∧ s.hart.bound 1 = none ∧ s.hart.entries < 64
    ∧ (checkStores none (on.map (fun j => (at_ j, [1, 0, 0, 0]))) s).1 = true
    ∧ (translate s none .M .store 0x40000).cause ≠ 0 ∧ (translate s none .M .store 0x40000).cause ≠ 0xFF ∧ gaNode 0x40000 = s.nodeId
    ∧ codeCapacity 3 ≤ 0x3FFF + 1 := by decide +kernel

theorem test_hyps_streams :
    (streamed false 0 []).hart.bind 0 ≠ none ∧ State.reset.hart.bind 0 = none ∧ (0x100000001 : Word).getLsbD 32 = true
    ∧ (0x100000001 : Word).toNat / 2 ^ 16 % 2 ^ 16 = 0 ∧ (0x10001 : Word).toNat / 2 ^ 16 % 2 ^ 16 = 1 ∧ (0x1000 : Word).toNat % 64 = 0
    ∧ (let s := streamed false 0 []
       s.moving = true ∧ lockHit s 0x1000 0x1040 false 0 = 0 ∧ (bankPlace 0 0x1000).toNat = 0x1000 ∧ (0 : Nat) < 1 * 1 ∧ (0 : Nat) < 0 + 4
        ∧ gaCore 0x1000 = s.hart.num ∧ lockHit locked 0 64 false 0 ≠ 0 ∧ codeCapacity 3 < 0x4000 + codeElems 3)
    ∧ (let s := streamed false 0 [(0, 5, 1, 0)]
       s.hart.bound 24 = some ⟨0x1000, 1, 1, false, 64, 0, 0, 0, 0, false, 0, 0, [(0, 5, 1, 0)]⟩ ∧ (consumeAll [24] s).ok = true)
    ∧ (consumeAll [24] (streamed false 0 [])).ok = false
    ∧ (let s := streamed true 0 []
       lockHit s 0x1000 0x1040 true 0 = 0 ∧ s.buffers 0x1000 = false
        ∧ streamPieces 0 0x1000 (List.replicate 16 true) (leBytes 5 64) = [(0x1000, leBytes 5 64)]
        ∧ (checkStores (some 0x1000) [(0x1000, leBytes 5 64)] s).1 = true
        ∧ (let t := translate s none .M .store 0x1000; (t.st == s) = true ∧ t.cause = 0 ∧ t.reason = 0 ∧ t.key = 0x1000)) := by decide +kernel

theorem test_hyps_blocks :
    let s := (regs [(1, 0x1000), (2, 0x1001), (3, 1)])
    (s.x 1).toNat % 64 = 0 ∧ (s.x 2).toNat % 32 ≠ 0 ∧ (s.x 3).getLsbD 0 = true ∧ (s.x 1).getLsbD 0 = false
    ∧ lockHit s 0x1000 0x1040 true 0 = 0 ∧ lockHit s 0x1000 0x1040 false 0 = 0 ∧ lockHit locked 0 32 false 0 ≠ 0 ∧ lockHit locked 0 32 true 0 ≠ 0
    ∧ (∀ r ∈ [(1 : BitVec 5), 2, 3], s.hart.bound r = none) ∧ (streamed false 0 []).hart.bound 24 ≠ none
    ∧ (consumeAll [1, 2, 3] s).ok = true ∧ s.hart.entries < 64 := by decide +kernel

/-- The premises of the number functions: finite values of each sign, an empty draw list, a block with and without a number that
is not finite, and a code of each class. -/
theorem test_hyps_numbers :
    fpDecode .fp32 0x43000000 = .fin false 8388608 (-16) ∧ 128 * 65536 ≤ 8388608 ∧ fpDecode .fp32 0xC3960000 = .fin true 9830400 (-15)
    ∧ 300 * 32768 ≤ 9830400 ∧ fpDecode .fp32 0x7FC00000 = .nan ∧ fpDecode .bf16 0xFF80 = .inf true
    ∧ (∃ v ∈ [FVal.nan], v = .nan) ∧ (FVal.fin false 1 0) ∈ [FVal.fin false 1 0]
    ∧ (leBytes 0 (codeBytes 3)).length = codeBytes 3 ∧ (leBytes 0 (codeBytes 7)).length = codeBytes 7 ∧ (List.replicate 16 true).length = 16
    ∧ ({ State.reset.hart with logn := 1 }.logp ≠ { State.reset.hart with logn := 1 }.logn) ∧ State.reset.hart.logp = State.reset.hart.logn
    ∧ 2 * State.reset.hart.logb.toNat + 2 * State.reset.hart.logp.toNat < 2 ^ 18 ∧ State.reset.hart.srSrc = 0 := by decide +kernel

/-! ### Blocks, engines and grids -/

/-- A configuration of one row, one A element and one column: A FP32 (2), B INT8 (4), valid. -/
def cfg1 : Word := 0x8001000100010042

/-- A command of hart 0 with operation 0 and a grid of one piece of degree 1. -/
def cmd (major fn : BitVec 6) (xa xb : Word) (begun : Bool) : Cmd :=
  ⟨0, 0x100, 0, major, fn, 0, xa, xb, 0, 0, 0, cfg1, 1, 0, 0, begun, if begun then some (0, 0x3F800000, 0x3F800000, 1, 1, 0) else none, [], false, false⟩

/-- Hart 0 with such commands, its engine with a tile in progress or none. -/
def engineOf (cs : List Cmd) (tile : Option (Nat × Nat)) : State :=
  { (op1 .engine State.reset).onHart (fun h => { h with cmds := cs, cfg := cfg1 }) with
    engines := [{ Engine.reset 0 with tile := tile, g := 1, p := 1, h := 0x3F800000, hinv := 0x3F800000 }] }

/-- Hart 0 in a grid command. -/
def gridOf (c : Cmd) : State := (engineOf [c] none).onHart (fun h => { h with run := .grid false })

/-- A sequencer that withholds weight writes on the engine of frame 0 (R306). -/
def holder : Sequencer := { Sequencer.reset with bound := true, region := 5, flights := [0x80000] }

theorem test_hyps_engine_queue :
    (EngineFor State.reset ∧ HasRoom State.reset 2) ∧ ¬EngineFor (gateway 0)
    ∧ ¬HasRoom (engineOf (List.replicate 16 (cmd 0x3A 2 0 0 false)) none) 0
    ∧ cfgValid cfg1 = true ∧ cfgM cfg1 = 1 ∧ cfgK cfg1 = 1 ∧ cfgN cfg1 = 1 ∧ cfgValid State.reset.hart.cfg = false
    ∧ (0x1004 : Word).toNat % 4 = 0 ∧ (0x1002 : Word).toNat % 4 ≠ 0 ∧ bitsOf 0x100000 16 9 % 16 = 0 ∧ bitsOf 0x10000 16 9 % 16 ≠ 0
    ∧ 64 ≤ full.hart.entries ∧ EngineFor full ∧ (consumeAll [1] State.reset).ok = true := by
  have none_of (s : State) (h : s.hart.node = none) (n : NodeRun) (e : s.hart.node = some n) : n.engine = true := by
    rw [h] at e; cases e
  have far : 1024 ≤ (gateway 0).hart.num := by decide +kernel
  have long : 16 ≤ (engineOf (List.replicate 16 (cmd 0x3A 2 0 0 false)) none).hart.cmds.length := by decide +kernel
  have alone (s : State) (n : s.hart.num < 1024) (h : s.hart.node = none) : EngineFor s := ⟨n, none_of s h⟩
  refine ⟨⟨alone _ (by decide +kernel) (by decide +kernel), ?_⟩, fun e => absurd e.1 (Nat.not_lt.mpr far),
    fun r => absurd r.1 (Nat.not_lt.mpr long), ?_⟩
  · unfold HasRoom; decide +kernel
  · simp only [and_assoc, alone full (by decide +kernel) (by decide +kernel), true_and]
    decide +kernel

theorem test_hyps_engine_withheld :
    Withheld { State.reset with seqs := Vector.replicate 16 holder } 0 ∧ ¬Withheld State.reset 0
    ∧ OnWeights { inRegion State.reset with seqs := Vector.replicate 16 { holder with ranges := [(0, 64)] } } [(0, 4, .dest)]
    ∧ ¬OnWeights State.reset [] := by
  refine ⟨⟨holder, by simp, by decide +kernel, by decide +kernel, 0x80000, by simp [holder], by decide +kernel⟩, ?_, ?_, ?_⟩
  · unfold Withheld; decide +kernel
  · exact ⟨(0, 4, .dest), by simp, { holder with ranges := [(0, 64)] }, by simp, by decide +kernel, by decide +kernel, by decide +kernel,
      (0, 64), by simp, by decide +kernel⟩
  · unfold OnWeights; decide +kernel

theorem test_hyps_engine_control :
    (let s := engineOf [cmd 0x3A 4 0 0 false] none
     s.hart.cmds = [cmd 0x3A 4 0 0 false] ∧ (cmd 0x3A 4 0 0 false).begun = false)
    ∧ (let c : Cmd := cmd 0x3A 4 0 0 false
       let s := { engineOf [c] none with others := [{ Hart.reset 32 with cmds := [{ cmd 0x3A 4 0 0 true with holds := true }] }] }
       s.busBusy 0 0 0 0 = true)
    ∧ (let d : Cmd := { cmd 0x3A 4 0 0 true with holds := true }
       let s := { engineOf [cmd 0x3A 4 0 0 false] none with others := [{ Hart.reset 32 with cmds := [d] }] }
       (s.getHart 32).cmds = [d] ∧ d.holds = true ∧ (8 * 4 + 0 : Nat) ≠ s.hart.num ∧ 4 / 32 = 0 / 32 ∧ 4 % 4 = 0 % 4
        ∧ (s.hart.cmds.map (·.holds)) = [false])
    ∧ (0xF : Word).toNat % 16 = 15 ∧ 9 ≤ 15 := by decide +kernel

theorem test_hyps_grid_commands :
    (let c := cmd 0x3B 0 0x3F80000000000000 0x10100000000 false
     let s := gridOf c
     s.hart.run = .grid false ∧ s.hart.cmds = [c] ∧ c.major = 0x3B ∧ c.fn = 0 ∧ s.gridHart 0 = some s.hart.num
      ∧ (s.engine 0).tile = none ∧ (s.engine 0).busIn = [] ∧ s.begunOn 0 = false)
    ∧ (let c := cmd 0x3B 5 0 0 false
       let e := (gridOf c).engine 0
       c.fn = 5 ∧ (gridOf c).gridHart 0 = some 0 ∧ e.g ≠ 0 ∧ 2 * e.g.toNat + e.p.toNat ≤ 16 ∧ cfgRed c.cfg = false ∧ 1 < e.h.toNat / 2 ^ 23 % 256)
    ∧ (let c := cmd 0x3B 6 0 0 false
       let e := (gridOf c).engine 0
       c.fn = 6 ∧ cfgRed c.cfg = false ∧ Cells.wf e.cim = true ∧ e.p ≠ 0 ∧ e.g.toNat + e.p.toNat + 1 ≤ 16
        ∧ (fpAddV .fp32 .rne (fpDecode .fp32 e.lo.toNat) (fvNeg (fpDecode .fp32 e.h.toNat))).flags = 0)
    ∧ (Engine.reset 0).g = 0 ∧ (engineOf (List.replicate 16 (cmd 0x3A 2 0 0 false)) none).hart.cmds.length = 16
    ∧ (let xa := 0x3F80000000000000
       let r := (fpRcpV .fp32 (fpDecode .fp32 (xa / 2 ^ 32))).bits
       xa / 2 ^ 32 < 2 ^ 31 ∧ xa / 2 ^ 32 / 2 ^ 23 % 256 = 127 ∧ xa % 2 ^ 32 / 2 ^ 23 % 256 ≠ 255 ∧ r / 2 ^ 23 % 256 = 127)
    ∧ (1 + 1 ≤ 16 ∧ ¬16 < 15 + 1 ∧ 16 < 15 + 2) := by decide +kernel

theorem test_hyps_engine_rounds :
    (let c := cmd 0x3A 2 0x1000 0 false
     let s := engineOf [c] none
     (s.engine 0).place < 8 ∧ (s.engine 0).served < s.tileWeight 0 ∧ s.canServe 0 0 = true ∧ s.canServe 0 1 = false
      ∧ (s.getHart 0).cmds = [c] ∧ (s.engine 0).gated = false ∧ ((s.getHart 0).spin 0).status.getLsbD 3 = false)
    ∧ (let s := (engineOf [cmd 0x3A 2 0x1000 0 false] none).onHart (fun h => { h with sp := h.sp.set 0 { h.spin 0 with status := 8 } })
       ((s.getHart 0).spin 0).status.getLsbD 3 = true ∧ s.canServe 0 0 = true)
    ∧ (let c := { cmd 0x3A 4 0x1000 0 true with peers := [] }
       let b : BusTile := ⟨0, 0, 0, [[some ([3], 0)]]⟩
       let e : Engine := { Engine.reset 0 with busIn := [b] }
       let s := { engineOf [c] none with engines := [e] }
       (s.engine 0).tile = none ∧ (s.engine 0).busIn = [b] ∧ (s.getHart b.hart).cmds.find? (fun d => d.op == b.op) = some c
        ∧ cfgRed c.cfg = false ∧ bitsOf c.xb 16 9 + cfgN c.cfg ≤ 512 ∧ b.rows.length ≤ 16 ∧ Cells.wf e.acc = true)
    ∧ (let s := { State.reset with now := 2000 }
       (s.engine 0).gated = false ∧ (s.engine 0).lastTile.toNat + 2000 ≤ s.now.toNat ∧ ¬0 + 2000 ≤ (1999 : Word).toNat) := by decide +kernel

/-- The engine serves the command of hart 0, its tile in progress. -/
def serving (major fn : BitVec 6) (xa xb : Word) : State := engineOf [cmd major fn xa xb true] (some (0, 0))

/-- The fetch answers rows. -/
def got {α : Type} (r : Fetch α × State) : Bool := match r.1 with | .got _ => true | _ => false

theorem test_hyps_tiles :
    (let c := cmd 0x3A 2 0x1000 0 true
     let s := serving 0x3A 2 0x1000 0
     (s.engine 0).tile = some (0, 0) ∧ (s.getHart 0).cmds.find? (fun d => d.op == 0) = some c ∧ cfgRed c.cfg = false ∧ cfgValid c.cfg = true
      ∧ Cells.wf (s.engine 0).acc = true ∧ bitsOf c.xb 0 7 + cfgM c.cfg ≤ 128 ∧ bitsOf c.xb 16 9 + cfgN c.cfg ≤ 512 ∧ bitsOf c.xb 16 9 + cfgK c.cfg ≤ 512 ∧ c.strips = 1 ∧ c.peers = []
      ∧ got (fetchRows (s.cmdAgent 0 c) 2 1 0 (c.rowsAt 0) 0x1000 s) = true ∧ (c.grid (s.engine 0)).g ≠ 0
      ∧ got (fetchValRows (s.cmdAgent 0 c) 2 1 0 (c.rowsAt 0) 0x1000 s) = true
      ∧ got (loadCells (s.cmdAgent 0 c) c (loadPlaces c.cfg) s) = true
      ∧ (sloadCells (s.cmdAgent 0 c) c (c.grid (s.engine 0)).len (loadPlaces c.cfg) s).fetch = .got ())
    ∧ (let c := cmd 0x3A 6 0x1000 0x1000100000000 true
       let s := serving 0x3A 6 0x1000 0x1000100000000
       tileOk c.xb = true ∧ got (loadTile (s.cmdAgent 0 c) c 1 [0] s) = true
        ∧ (match putRows (s.cmdAgent 0 c) c.xa c.ox0 [(0, leBytes 7 4)] s with | (.done, _) => true | _ => false) = true)
    ∧ (let c := cmd 0x3B 3 0x1000 0x100010100 true
       let s := serving 0x3B 3 0x1000 0x100010100
       foldOk c.xb = true ∧ got (foldSamples (s.cmdAgent 0 c) c 0 1 1 [0] [] s) = true)
    ∧ tileOk 0x200008000000000 = true ∧ tileOk 0 = false ∧ (cmd 0x3B 7 0x104 0 true).xa.getLsbD 8 = true := by decide +kernel

theorem test_hyps_engine_errors :
    (cmd 0x3A 2 0 0 true).isGrid = false ∧ cfgValid ({ cmd 0x3A 2 0 0 true with cfg := 0 }).cfg = false
    ∧ 128 < bitsOf 0x7F 0 7 + cfgM 0x8001000100020042 ∧ 512 < bitsOf 0x1FF0000 16 9 + cfgN 0x8002000100010042
    ∧ (Engine.reset 0).grid.g = 0 ∧ ({ cmd 0x3B 1 0 0 true with kn := none }).grid (Engine.reset 0) = (Engine.reset 0).grid
    ∧ tileOk 0 = false ∧ foldOk 0 = false
    ∧ (let c := cmd 0x3A 2 0x41000 0 true
       let s := serving 0x3A 2 0x41000 0
       (match fetchRows (s.cmdAgent 0 c) 2 1 0 (c.rowsAt 0) 0x41000 s with | (.fault _ _, s1) => s1 == s | _ => false) = true) := by decide +kernel

/-- The same configuration in redundant mode. -/
def cfgR : Word := cfg1 ||| (1 <<< 62)

/-- Hart 0 in a grid command in redundant mode, its engine with one coefficient of a cell. -/
def redGrid (fn : BitVec 6) (l : List (Nat × Byte)) : State :=
  let s := gridOf { cmd 0x3B fn 1 0 false with cfg := cfgR }
  { s with engines := s.engines.map (fun e => { e with cim := l }) }

theorem test_hyps_redundant_grids :
    (let e := (redGrid 5 [(0, 4)]).engine 0
     cfgRed cfgR = true ∧ 2 * e.g.toNat + e.p.toNat ≤ 8 ∧ Cells.wf e.cim = true ∧ (Cells.get e.cim 0).toInt ≠ 0 ∧ Cells.get e.scale 0 ≠ 255)
    ∧ (let e := (redGrid 6 []).engine 0
       e.g.toNat + e.p.toNat + 1 ≤ 8 ∧ (cmd 0x3B 6 1 0 false).xa.getLsbD 0 = true ∧ e.g ≠ 0)
    ∧ 8 < 2 * 4 + 1 ∧ (8 : Nat) < 8 + 1 := by decide +kernel

/-- A redundant mmul in progress, whose primary weight differs from its mirror. -/
def differing : State :=
  { (op1 .engine State.reset).onHart (fun h => { h with cmds := [{ cmd 0x3A 2 0x1000 0 true with cfg := cfgR }] }) with
    mem := Memory.store [] 0x1000 [0x80, 0x3F]
    engines := [{ Engine.reset 0 with tile := some (0, 0), cim := [(0, 4)] }] }

theorem test_hyps_redundant_strips :
    (let c : Cmd := { cmd 0x3A 2 0x1000 0 true with cfg := cfgR }
     let s := differing
     cfgRed c.cfg = true ∧ cfgValid c.cfg = true ∧ (s.engine 0).tile = some (0, 0) ∧ (s.getHart 0).cmds.find? (fun d => d.op == 0) = some c
      ∧ (match fetchRows (s.cmdAgent 0 c) 2 1 0 (c.rowsAt 0) 0x1000 s with
         | (.got a, s1) => s1 == s && ((a[0]?).getD []).zipIdx.map (fun b => partialMul (s.engine 0) c.cfg true b.1 b.2 0)
             != ((a[0]?).getD []).zipIdx.map (fun b => partialMul (s.engine 0) c.cfg false b.1 b.2 0)
         | _ => false) = true)
    ∧ (let c : Cmd := { cmd 0x3A 2 0x1000 0 true with cfg := cfgR }
       let s : State := { differing with engines := [{ Engine.reset 0 with tile := some (0, 0) }] }
       (match fetchRows (s.cmdAgent 0 c) 2 1 0 (c.rowsAt 0) 0x1000 s with
         | (.got a, s1) => s1 == s && ((a[0]?).getD []).zipIdx.map (fun b => partialMul (s.engine 0) c.cfg true b.1 b.2 0)
             == ((a[0]?).getD []).zipIdx.map (fun b => partialMul (s.engine 0) c.cfg false b.1 b.2 0)
         | _ => false) = true) := by decide +kernel

/-- The read or write of an operand ends in a fault. -/
def faults {α : Type} (r : Fetch α × State) : Bool := match r.1 with | .fault _ _ => true | _ => false

theorem test_hyps_operand_faults :
    (let c := cmd 0x3A 1 0x41000 0 true
     let s := serving 0x3A 1 0x41000 0
     faults (loadCells (s.cmdAgent 0 c) c (loadPlaces c.cfg) s) = true ∧ cfgCheck c.cfg (cfgRed c.cfg) = 0
      ∧ faults ((sloadCells (s.cmdAgent 0 c) c 2 (loadPlaces c.cfg) s).fetch, s) = true
      ∧ faults (fetchValRows (s.cmdAgent 0 c) 2 1 0 (c.rowsAt 0) 0x41000 s) = true
      ∧ faults (loadTile (s.cmdAgent 0 c) c 1 (List.range 1) s) = true
      ∧ faults (foldSamples (s.cmdAgent 0 c) c 0 1 1 [0] [] s) = true)
    ∧ (let c := cmd 0x3A 7 0x41000 0x1000100000000 true
       let s := serving 0x3A 7 0x41000 0x1000100000000
       tileOk c.xb = true ∧ (match putRows (s.cmdAgent 0 c) c.xa c.ox0 [(0, leBytes 7 4)] s with | (.fault _ _ _, _) => true | _ => false) = true
        ∧ (match putRows (s.cmdAgent 0 c) (mkGa 1 3 0) 0 [(0, leBytes 7 4)] { s with degraded := 2 } with
           | (.suspended _, _) => true | _ => false) = true) := by decide +kernel

/-- An engine operand of one byte in hart 0's slice: what its reads meet, and what a write of it meets. -/
theorem test_hyps_engine_operands :
    let s := serving 0x3A 2 0x1000 0
    let g := s.cmdAgent 0 (cmd 0x3A 2 0x1000 0 true)
    (let t := g.translate .load 0x1000 s; (t.st == s) = true ∧ t.cause = 0 ∧ t.reason = 0 ∧ t.key = 0x1000)
    ∧ (let t := g.translate .store 0x1000 s; (t.st == s) = true ∧ t.cause = 0 ∧ t.reason = 0 ∧ t.key = 0x1000)
    ∧ gaNode 0x1000 = s.nodeId ∧ s.poisoned 0x1000 = false ∧ keyInRing s 0x1000 = false ∧ plain s 0x1000 4 = true
    ∧ Memory.wf s.mem = true ∧ s.engines.all (fun e => Cells.wf e.acc && Cells.wf e.cim && Cells.wf e.scale) = true ∧ s.lent = []
    ∧ (match deviceGet g 0x1000 4 s with | (.bytes b, t) => b == List.replicate 4 0 && t == s | _ => false) = true
    ∧ (match devicePut g 0x1000 [1] s with | (.done, _) => true | _ => false) = true
    ∧ (64 - (0x103F : Word).toNat % 64 < 2) ∧ cfgK cfg1 ≤ 480 ∧ cfgB cfg1 = 4 := by decide +kernel

/-- The premises of the arithmetic of the engines: a row of each kind, a grid in range, an input inside and out of it. -/
theorem test_hyps_engine_arithmetic :
    let k : Grid := (cmd 0x3B 1 0 0 true).grid (Engine.reset 0)
    k.p = 1 ∧ fpDecode .fp32 k.hinv.toNat = .fin false 8388608 (-23) ∧ (match k.knot (.fin false 1 (-1)) with | .inside 0 a c none => 2 * a == c | _ => false) = true
    ∧ (FVal.nan ∈ [FVal.nan]) ∧ (∀ v ∈ [FVal.fin false 0 0], v = .fin false 0 0) ∧ (FVal.fin true 3 0) ∈ [FVal.fin true 3 0]
    ∧ (Cells.get (Engine.reset 0).scale 0).toNat ≠ 255 ∧ (0 < 1 ∧ 0 ≤ 1) ∧ (0x2000 : Word).getLsbD 13 = true
    ∧ (0x100 : Word).getLsbD 8 = true ∧ (0x100 : Word).getLsbD 13 = false ∧ (32 ≤ 32 ∧ Cells.wf (Engine.reset 0).acc = true) := by decide +kernel

/-! ### Words of the encoding table

Each word is the row's match with a distinctive value in every field, laid out by hand from the bit positions of
spec/opcode_table.json; rows that share a word with another row stand under that row. -/

theorem test_decode_compact :
    decodeTableWord 16 0x28A0 = some (.cMov 5 10)
    ∧ decodeTableWord 16 0x94A2 = some (.cLi 5 37)
    ∧ decodeTableWord 16 0x94A4 = some (.cAddi 5 37)
    ∧ decodeTableWord 16 0x28A6 = some (.cAdd 5 10)
    ∧ decodeTableWord 16 0x28A8 = some (.cSub 5 10)
    ∧ decodeTableWord 16 0x28AA = some (.cAnd 5 10)
    ∧ decodeTableWord 16 0x28AC = some (.cOr 5 10)
    ∧ decodeTableWord 16 0x94AE = some (.cLd 5 37)
    ∧ decodeTableWord 16 0x94B0 = some (.cSt 5 37)
    ∧ decodeTableWord 16 0x94B2 = some (.cBz 5 37)
    ∧ decodeTableWord 16 0x94B4 = some (.cBnz 5 37)
    ∧ decodeTableWord 16 0xB4B6 = some (.cJmp 0x5a5)
    ∧ decodeTableWord 16 0x0018 = some .cRet
    ∧ decodeTableWord 16 0x001A = some .cMark
    ∧ decodeTableWord 16 0x001C = some .cNop := by decide +kernel

theorem test_decode_major_01 :
    decodeTableWord 32 0x9026A283 = some (.add 5 10 19 true true)
    ∧ decodeTableWord 32 0x9066A283 = some (.sub 5 10 19 true true)
    ∧ decodeTableWord 32 0x80A6A283 = some (.and 5 10 19 true)
    ∧ decodeTableWord 32 0x80E6A283 = some (.or 5 10 19 true)
    ∧ decodeTableWord 32 0x8126A283 = some (.xor 5 10 19 true)
    ∧ decodeTableWord 32 0x9166A283 = some (.sll 5 10 19 true true)
    ∧ decodeTableWord 32 0x91A6A283 = some (.srl 5 10 19 true true)
    ∧ decodeTableWord 32 0x91E6A283 = some (.sra 5 10 19 true true)
    ∧ decodeTableWord 32 0x8226A283 = some (.slt 5 10 19 true)
    ∧ decodeTableWord 32 0x8266A283 = some (.sltu 5 10 19 true)
    ∧ decodeTableWord 32 0x82A6A283 = some (.min 5 10 19 true)
    ∧ decodeTableWord 32 0x82E6A283 = some (.max 5 10 19 true)
    ∧ decodeTableWord 32 0x8326A283 = some (.minu 5 10 19 true)
    ∧ decodeTableWord 32 0x8366A283 = some (.maxu 5 10 19 true)
    ∧ decodeTableWord 32 0x93A6A283 = some (.rotl 5 10 19 true true)
    ∧ decodeTableWord 32 0x93E6A283 = some (.rotr 5 10 19 true true)
    ∧ decodeTableWord 32 0x9426A283 = some (.mul 5 10 19 true true)
    ∧ decodeTableWord 32 0x8466A283 = some (.mulh 5 10 19 true)
    ∧ decodeTableWord 32 0x84A6A283 = some (.mulhu 5 10 19 true)
    ∧ decodeTableWord 32 0x94E6A283 = some (.div 5 10 19 true true)
    ∧ decodeTableWord 32 0x9526A283 = some (.divu 5 10 19 true true)
    ∧ decodeTableWord 32 0x9566A283 = some (.rem 5 10 19 true true)
    ∧ decodeTableWord 32 0x95A6A283 = some (.remu 5 10 19 true true)
    ∧ decodeTableWord 32 0xD5E6A283 = some (.sel 5 10 19 5 true)
    ∧ decodeTableWord 32 0x9600A283 = some (.clz 5 10 true true)
    ∧ decodeTableWord 32 0x9640A283 = some (.ctz 5 10 true true)
    ∧ decodeTableWord 32 0x9680A283 = some (.popc 5 10 true true)
    ∧ decodeTableWord 32 0xA6C0A283 = some (.sext 5 10 2 true)
    ∧ decodeTableWord 32 0xA700A283 = some (.zext 5 10 2 true)
    ∧ decodeTableWord 32 0x8740A283 = some (.bext 5 10 true)
    ∧ decodeTableWord 32 0x8780A283 = some (.bins 5 10 true)
    ∧ decodeTableWord 32 0xA7E6A283 = some (.lea 5 10 19 2 true) := by decide +kernel

theorem test_decode_majors_02_to_1b :
    decodeTableWord 32 0xCB4AA285 = some (.addi 5 10 0x25a5 true)
    ∧ decodeTableWord 32 0xCB4AA287 = some (.andi 5 10 0x25a5 true)
    ∧ decodeTableWord 32 0xCB4AA289 = some (.ori 5 10 0x25a5 true)
    ∧ decodeTableWord 32 0xCB4AA28B = some (.xori 5 10 0x25a5 true)
    ∧ decodeTableWord 32 0xCB4AA28D = some (.slti 5 10 0x25a5 true)
    ∧ decodeTableWord 32 0xCB4AA28F = some (.sltiu 5 10 0x25a5 true)
    ∧ decodeTableWord 32 0x900AA291 = some (.slli 5 10 37 true)
    ∧ decodeTableWord 32 0x904AA291 = some (.srli 5 10 37 true)
    ∧ decodeTableWord 32 0x908AA291 = some (.srai 5 10 37 true)
    ∧ decodeTableWord 32 0xDA5A5293 = some (.li 5 0x5a5a5 true)
    ∧ decodeTableWord 32 0xDA5A5295 = some (.lsh 5 0x5a5a5 true)
    ∧ decodeTableWord 32 0xDA5A5297 = some (.pcrel 5 0x5a5a5 true)
    ∧ decodeTableWord 32 0x8026A299 = some (.gadr 5 10 19 true)
    ∧ decodeTableWord 32 0xCB4B3521 = some (.beq 10 19 0x25a5 true)
    ∧ decodeTableWord 32 0xCB4B3523 = some (.bne 10 19 0x25a5 true)
    ∧ decodeTableWord 32 0xCB4B3525 = some (.blt 10 19 0x25a5 true)
    ∧ decodeTableWord 32 0xCB4B3527 = some (.bge 10 19 0x25a5 true)
    ∧ decodeTableWord 32 0xCB4B3529 = some (.bltu 10 19 0x25a5 true)
    ∧ decodeTableWord 32 0xCB4B352B = some (.bgeu 10 19 0x25a5 true)
    ∧ decodeTableWord 32 0xD2D2D2AD = some (.jmp 0xa5a5a5 true)
    ∧ decodeTableWord 32 0xD2D2D2AF = some (.call 0xa5a5a5 true)
    ∧ decodeTableWord 32 0x8000A031 = some (.ret 10 true)
    ∧ decodeTableWord 32 0x8066A031 = some (.jt 10 19 true)
    ∧ decodeTableWord 32 0x80A6A031 = some (.jtc 10 19 true)
    ∧ decodeTableWord 32 0x80C0A031 = some (.callr 10 true)
    ∧ decodeTableWord 32 0x8A5A5033 = some (.lpad 0xa5a5 true)
    ∧ decodeTableWord 32 0x8000A135 = some (.oxmv 10 2 true)
    ∧ decodeTableWord 32 0x804022B5 = some (.oxrd 5 2 true)
    ∧ decodeTableWord 32 0xCB4AA137 = some (.oxli 10 2 0x25a5 true) := by decide +kernel

theorem test_decode_majors_1c_to_28 :
    decodeTableWord 32 0x8000A2B9 = some (.twait 5 10 true)
    ∧ decodeTableWord 32 0x8040A2B9 = some (.sleep 5 10 true)
    ∧ decodeTableWord 32 0x808002B9 = some (.tsnow 5 true)
    ∧ decodeTableWord 32 0x80C0A2B9 = some (.tsat 5 10 true)
    ∧ decodeTableWord 32 0x934AA2C1 = some (.ldB 5 10 2 421 true)
    ∧ decodeTableWord 32 0xD34AA2C1 = some (.lduB 5 10 2 421 true)
    ∧ decodeTableWord 32 0x934AA2C3 = some (.ldH 5 10 2 421 true)
    ∧ decodeTableWord 32 0xD34AA2C3 = some (.lduH 5 10 2 421 true)
    ∧ decodeTableWord 32 0x934AA2C5 = some (.ldW 5 10 2 421 true)
    ∧ decodeTableWord 32 0xD34AA2C5 = some (.lduW 5 10 2 421 true)
    ∧ decodeTableWord 32 0x934AA2C7 = some (.ldD 5 10 2 421 true)
    ∧ decodeTableWord 32 0x934AA2C9 = some (.stB 5 10 2 421 true)
    ∧ decodeTableWord 32 0x934AA2CB = some (.stH 5 10 2 421 true)
    ∧ decodeTableWord 32 0x934AA2CD = some (.stW 5 10 2 421 true)
    ∧ decodeTableWord 32 0x934AA2CF = some (.stD 5 10 2 421 true)
    ∧ decodeTableWord 32 0xA026A2D1 = some (.ldxB 5 10 19 2 true)
    ∧ decodeTableWord 32 0xA066A2D1 = some (.ldxH 5 10 19 2 true)
    ∧ decodeTableWord 32 0xA0A6A2D1 = some (.ldxW 5 10 19 2 true)
    ∧ decodeTableWord 32 0xA0E6A2D1 = some (.ldxD 5 10 19 2 true)
    ∧ decodeTableWord 32 0xA126A2D1 = some (.ldxuB 5 10 19 2 true)
    ∧ decodeTableWord 32 0xA166A2D1 = some (.ldxuH 5 10 19 2 true)
    ∧ decodeTableWord 32 0xA1A6A2D1 = some (.ldxuW 5 10 19 2 true)
    ∧ decodeTableWord 32 0xA1E6A2D1 = some (.stxB 5 10 19 2 true)
    ∧ decodeTableWord 32 0xA226A2D1 = some (.stxH 5 10 19 2 true)
    ∧ decodeTableWord 32 0xA266A2D1 = some (.stxW 5 10 19 2 true)
    ∧ decodeTableWord 32 0xA2A6A2D1 = some (.stxD 5 10 19 2 true) := by decide +kernel

theorem test_decode_majors_29_to_32 :
    decodeTableWord 32 0xA0A6A2D3 = some (.amoAdd 5 10 19 true 2 true)
    ∧ decodeTableWord 32 0xA2A6A2D3 = some (.amoAnd 5 10 19 true 2 true)
    ∧ decodeTableWord 32 0xA4A6A2D3 = some (.amoOr 5 10 19 true 2 true)
    ∧ decodeTableWord 32 0xA6A6A2D3 = some (.amoXor 5 10 19 true 2 true)
    ∧ decodeTableWord 32 0xA8A6A2D3 = some (.amoMin 5 10 19 true 2 true)
    ∧ decodeTableWord 32 0xAAA6A2D3 = some (.amoMax 5 10 19 true 2 true)
    ∧ decodeTableWord 32 0xACA6A2D3 = some (.amoMinu 5 10 19 true 2 true)
    ∧ decodeTableWord 32 0xAEA6A2D3 = some (.amoMaxu 5 10 19 true 2 true)
    ∧ decodeTableWord 32 0xB0A6A2D3 = some (.amoSwap 5 10 19 true 2 true)
    ∧ decodeTableWord 32 0xB2A6A2D3 = some (.amoCas 5 10 19 true 2 true)
    ∧ decodeTableWord 32 0x94A6A2D3 = some (.amoFadd 5 10 19 2 true)
    ∧ decodeTableWord 32 0x96A6A2D3 = some (.amoFadd2 5 10 19 2 true)
    ∧ decodeTableWord 32 0x8080A2D5 = some (.pref 10 5 2 true)
    ∧ decodeTableWord 32 0x8280A055 = some (.cbflush 10 2 true)
    ∧ decodeTableWord 32 0x800022D7 = some (.sfork 5 2 true)
    ∧ decodeTableWord 32 0x820022D7 = some (.sjoin 5 2 true)
    ∧ decodeTableWord 32 0x858022D7 = some (.swait 5 2 6 true)
    ∧ decodeTableWord 32 0x860022D7 = some (.sexp 5 2 true)
    ∧ decodeTableWord 32 0x8800A2D7 = some (.simp 5 10 true)
    ∧ decodeTableWord 32 0x8A0422D7 = some (.sstat 5 2 2 true)
    ∧ decodeTableWord 32 0x8C0002D9 = some (.fence 5 6 true)
    ∧ decodeTableWord 32 0x934AA2E1 = some (.vld 5 10 2 421 true)
    ∧ decodeTableWord 32 0x934AA2E3 = some (.vst 5 10 2 421 true)
    ∧ decodeTableWord 32 0xC0E6A2E5 = some (.vldx 5 10 19 true 3 true)
    ∧ decodeTableWord 32 0xC2E6A2E5 = some (.vstx 5 10 19 true 3 true) := by decide +kernel

theorem test_decode_majors_33_to_34 :
    decodeTableWord 32 0xC0E6A2E7 = some (.vadd 5 10 19 true 3 true)
    ∧ decodeTableWord 32 0xC2E6A2E7 = some (.vsub 5 10 19 true 3 true)
    ∧ decodeTableWord 32 0xC4E6A2E7 = some (.vmul 5 10 19 true 3 true)
    ∧ decodeTableWord 32 0xC6E6A2E7 = some (.vfma 5 10 19 true 3 true)
    ∧ decodeTableWord 32 0xC8E6A2E7 = some (.vfms 5 10 19 true 3 true)
    ∧ decodeTableWord 32 0xCAE6A2E7 = some (.vfnma 5 10 19 true 3 true)
    ∧ decodeTableWord 32 0xCCE6A2E7 = some (.vmin 5 10 19 true 3 true)
    ∧ decodeTableWord 32 0xCEE6A2E7 = some (.vmax 5 10 19 true 3 true)
    ∧ decodeTableWord 32 0xD0C0A2E7 = some (.vabs 5 10 true 3 true)
    ∧ decodeTableWord 32 0xD2C0A2E7 = some (.vneg 5 10 true 3 true)
    ∧ decodeTableWord 32 0xD4E6A2E7 = some (.vdiv 5 10 19 true 3 true)
    ∧ decodeTableWord 32 0xD6C0A2E7 = some (.vsqrt 5 10 true 3 true)
    ∧ decodeTableWord 32 0xD8C0A2E7 = some (.vrsqrt 5 10 true 3 true)
    ∧ decodeTableWord 32 0xDAC0A2E7 = some (.vrcp 5 10 true 3 true)
    ∧ decodeTableWord 32 0xDCC0A2E7 = some (.vexp2 5 10 true 3 true)
    ∧ decodeTableWord 32 0xDEC0A2E7 = some (.vlog2 5 10 true 3 true)
    ∧ decodeTableWord 32 0xE0C0A2E7 = some (.vsig 5 10 true 3 true)
    ∧ decodeTableWord 32 0xE2C0A2E7 = some (.vtanh 5 10 true 3 true)
    ∧ decodeTableWord 32 0xC0E6A2E9 = some (.viadd 5 10 19 true 3 true)
    ∧ decodeTableWord 32 0xC2E6A2E9 = some (.visub 5 10 19 true 3 true)
    ∧ decodeTableWord 32 0xC4E6A2E9 = some (.vimul 5 10 19 true 3 true)
    ∧ decodeTableWord 32 0xC6E6A2E9 = some (.vimulh 5 10 19 true 3 true)
    ∧ decodeTableWord 32 0xC8E6A2E9 = some (.vand 5 10 19 true 3 true)
    ∧ decodeTableWord 32 0xCAE6A2E9 = some (.vor 5 10 19 true 3 true)
    ∧ decodeTableWord 32 0xCCE6A2E9 = some (.vxor 5 10 19 true 3 true)
    ∧ decodeTableWord 32 0xCEE6A2E9 = some (.vsll 5 10 19 true 3 true)
    ∧ decodeTableWord 32 0xD0E6A2E9 = some (.vsrl 5 10 19 true 3 true)
    ∧ decodeTableWord 32 0xD2E6A2E9 = some (.vsra 5 10 19 true 3 true)
    ∧ decodeTableWord 32 0xD4E6A2E9 = some (.vimin 5 10 19 true 3 true)
    ∧ decodeTableWord 32 0xD6E6A2E9 = some (.vimax 5 10 19 true 3 true)
    ∧ decodeTableWord 32 0xD8E6A2E9 = some (.viminu 5 10 19 true 3 true)
    ∧ decodeTableWord 32 0xDAE6A2E9 = some (.vimaxu 5 10 19 true 3 true) := by decide +kernel

theorem test_decode_majors_35_to_38 :
    decodeTableWord 32 0xC0E6A2EB = some (.vcmpEq 5 10 19 true 3 true)
    ∧ decodeTableWord 32 0xC2E6A2EB = some (.vcmpLt 5 10 19 true 3 true)
    ∧ decodeTableWord 32 0xC4E6A2EB = some (.vcmpLe 5 10 19 true 3 true)
    ∧ decodeTableWord 32 0xC6E6A2EB = some (.vsel 5 10 19 true 3 true)
    ∧ decodeTableWord 32 0xC8E6A2EB = some (.vperm 5 10 19 true 3 true)
    ∧ decodeTableWord 32 0xCAC0A2EB = some (.vbcast 5 10 true 3 true)
    ∧ decodeTableWord 32 0xCCE6A2EB = some (.vslide 5 10 19 true 3 true)
    ∧ decodeTableWord 32 0xCEC0A2EB = some (.vmov 5 10 true 3 true)
    ∧ decodeTableWord 32 0xD0C0A2EB = some (.vredAdd 5 10 true 3 true)
    ∧ decodeTableWord 32 0xD2C0A2EB = some (.vredMax 5 10 true 3 true)
    ∧ decodeTableWord 32 0xD4C0A2EB = some (.vredMin 5 10 true 3 true)
    ∧ decodeTableWord 32 0x96D4A2EB = some (.vcvt 5 10 3 10 true)
    ∧ decodeTableWord 32 0xD81AA2EB = some (.vxt 5 10 true 13 true)
    ∧ decodeTableWord 32 0xDA1AA2EB = some (.vins 5 10 true 13 true)
    ∧ decodeTableWord 32 0x800622ED = some (.mand 5 2 3 true)
    ∧ decodeTableWord 32 0x820622ED = some (.mor 5 2 3 true)
    ∧ decodeTableWord 32 0x840622ED = some (.mxor 5 2 3 true)
    ∧ decodeTableWord 32 0x860022ED = some (.mnot 5 2 true)
    ∧ decodeTableWord 32 0x880022ED = some (.mpop 5 2 true)
    ∧ decodeTableWord 32 0x8A00A2ED = some (.mset 5 10 true)
    ∧ decodeTableWord 32 0x80A6AEEF = some (.strbind 5 10 19 2 true)
    ∧ decodeTableWord 32 0x82800EEF = some (.strfree 5 2 true)
    ∧ decodeTableWord 32 0x8401A2EF = some (.strst 5 2 true)
    ∧ decodeTableWord 32 0x8026A2F1 = some (.bscale 5 10 19 true)
    ∧ decodeTableWord 32 0x82A6A2F1 = some (.baddqAcc 5 10 19 2 true)
    ∧ decodeTableWord 32 0x84A6A2F1 = some (.baddqOut 5 10 19 2 true)
    ∧ decodeTableWord 32 0x8600A2F1 = some (.vsr 5 10 true) := by decide +kernel

theorem test_decode_majors_3a_to_3c :
    decodeTableWord 32 0x8000A2F5 = some (.mcfg 5 10 true)
    ∧ decodeTableWord 32 0x82A6A075 = some (.mload 10 19 2 true)
    ∧ decodeTableWord 32 0x84A6A075 = some (.mmul 10 19 2 true)
    ∧ decodeTableWord 32 0x86A6A075 = some (.mmulz 10 19 2 true)
    ∧ decodeTableWord 32 0x88A6A075 = some (.mmulBc 10 19 2 true)
    ∧ decodeTableWord 32 0x8AA6A075 = some (.mtmul 10 19 2 true)
    ∧ decodeTableWord 32 0x8CA6A075 = some (.acld 10 19 2 true)
    ∧ decodeTableWord 32 0x8EA6A075 = some (.acst 10 19 2 true)
    ∧ decodeTableWord 32 0x9080A2F5 = some (.acrd 5 10 2 true)
    ∧ decodeTableWord 32 0x9280A2F5 = some (.acwr 5 10 2 true)
    ∧ decodeTableWord 32 0x9480A075 = some (.acz 10 2 true)
    ∧ decodeTableWord 32 0x9600A2F5 = some (.mredund 5 10 true)
    ∧ decodeTableWord 32 0x9800A2F5 = some (.mqst 5 10 true)
    ∧ decodeTableWord 32 0x80A6A077 = some (.kset 10 19 2 true)
    ∧ decodeTableWord 32 0x82A6A077 = some (.seval 10 19 2 true)
    ∧ decodeTableWord 32 0x84A6A077 = some (.sderiv 10 19 2 true)
    ∧ decodeTableWord 32 0x86A6A077 = some (.sgfold 10 19 2 true)
    ∧ decodeTableWord 32 0x88A6A077 = some (.sload 10 19 2 true)
    ∧ decodeTableWord 32 0x8A800077 = some (.srefine 2 true)
    ∧ decodeTableWord 32 0x8C80A077 = some (.sextend 10 2 true)
    ∧ decodeTableWord 32 0x8E80A2F7 = some (.kcnt 5 10 2 true)
    ∧ decodeTableWord 32 0x90A6A077 = some (.sbrec 10 19 2 true)
    ∧ decodeTableWord 32 0x8026A2F9 = some (.cyopen 5 10 19 true)
    ∧ decodeTableWord 32 0x8226A2F9 = some (.cyphase 5 10 19 true)
    ∧ decodeTableWord 32 0x8426A2F9 = some (.cyres 5 10 19 true)
    ∧ decodeTableWord 32 0x8600A2F9 = some (.cytest 5 10 true)
    ∧ decodeTableWord 32 0x8800A2F9 = some (.cyclose 5 10 true)
    ∧ decodeTableWord 32 0x8A00A2F9 = some (.cystat 5 10 true)
    ∧ decodeTableWord 32 0x8C00A2F9 = some (.cyack 5 10 true) := by decide +kernel

theorem test_decode_majors_3d_to_3f :
    decodeTableWord 32 0x8000A2FB = some (.cpq 5 10 true)
    ∧ decodeTableWord 32 0x8200A2FB = some (.cpwp 5 10 true)
    ∧ decodeTableWord 32 0x8426A2FB = some (.cpwait 5 10 19 true)
    ∧ decodeTableWord 32 0x8626A2FB = some (.cpst 5 10 19 true)
    ∧ decodeTableWord 32 0x8800A2FB = some (.cpqNb 5 10 true)
    ∧ decodeTableWord 32 0x80A6A2FD = some (.msend 5 10 19 2 true)
    ∧ decodeTableWord 32 0x82A6A2FD = some (.mpost 5 10 19 2 true)
    ∧ decodeTableWord 32 0x8426A2FD = some (.mprobe 5 10 19 true)
    ∧ decodeTableWord 32 0x8600A2FD = some (.mcancel 5 10 true)
    ∧ decodeTableWord 32 0x8800A2FD = some (.lnpark 5 10 true)
    ∧ decodeTableWord 32 0x8A00A2FD = some (.lnwake 5 10 true)
    ∧ decodeTableWord 32 0x8C00A2FD = some (.lnst 5 10 true)
    ∧ decodeTableWord 32 0x8E00A2FD = some (.gwtake 5 10 true)
    ∧ decodeTableWord 32 0x8000A2FF = some (.nspawn 5 10 true)
    ∧ decodeTableWord 32 0x8040007F = some (.ndone true)
    ∧ decodeTableWord 32 0x808002FF = some (.nyield 5 true)
    ∧ decodeTableWord 32 0x80E6A2FF = some (.ndep 5 10 19 true)
    ∧ decodeTableWord 32 0x8126A2FF = some (.rlaunch 5 10 19 true)
    ∧ decodeTableWord 32 0x8166A2FF = some (.rswitchSuspend 5 10 19 true)
    ∧ decodeTableWord 32 0x8182A07F = some (.sys 10 1 true)
    ∧ decodeTableWord 32 0x81C0007F = some (.eret true)
    ∧ decodeTableWord 32 0x820E12FF = some (.srd 5 225 true)
    ∧ decodeTableWord 32 0x824E12FF = some (.swr 5 225 true)
    ∧ decodeTableWord 32 0x8280007F = some (.wfi true)
    ∧ decodeTableWord 32 0x82C0A2FF = some (.gstop 5 10 true)
    ∧ decodeTableWord 32 0x8326A2FF = some (.tlbinv 5 10 19 true)
    ∧ decodeTableWord 32 0x8340A2FF = some (.pginvack 5 10 true)
    ∧ decodeTableWord 32 0x8380A2FF = some (.pwreq 5 10 true)
    ∧ decodeTableWord 32 0x83C0A2FF = some (.ckpt 5 10 true) := by decide +kernel

/-! ### Ill-formed terms -/

theorem test_wf_refuses_selectors :
    (Instr.sel 1 2 3 6 false).wf = false ∧ (Instr.sext 1 2 3 false).wf = false ∧ (Instr.zext 1 2 3 false).wf = false
    ∧ (Instr.swait 1 2 7 false).wf = false ∧ (Instr.sstat 1 2 3 false).wf = false ∧ (Instr.fence 1 7 false).wf = false
    ∧ (Instr.vcvt 1 2 3 11 false).wf = false := by decide

theorem test_wf_refuses_registers :
    (Instr.vxt 1 2 false 16 false).wf = false ∧ (Instr.vins 1 2 false 16 false).wf = false ∧ (Instr.vins 1 2 true 31 false).wf = true
    ∧ (Instr.bscale 1 30 2 false).wf = false ∧ (Instr.baddqAcc 30 1 2 0 false).wf = false ∧ (Instr.baddqOut 30 1 2 0 false).wf = false
    ∧ (Instr.cpq 1 29 false).wf = false ∧ (Instr.cpqNb 1 29 false).wf = false ∧ (Instr.cMov 0 0).wf = false
    ∧ (Instr.srd 1 0x007 false).wf = false ∧ (Instr.swr 1 0x0E4 false).wf = false := by decide

/-- The decoder refuses the same: sel with condition 6, sext with width 3, srd of register 0x007, a word of zeros (R66). -/
theorem test_decode_refuses :
    decodeTableWord 32 0x65E6A283 = none ∧ decodeTableWord 32 0x36C0A283 = none ∧ decodeTableWord 32 0x020072FF = none ∧ decodeTableWord 16 0x0000 = none
    ∧ decodeTableWord 32 0x00000001 = none := by decide +kernel

/-- Two rows share one word of cpst, and two one word of rswitch: x[b] chooses between them when they run (log 15). -/
theorem test_shared_words :
    decodeTableWord 32 0x8626A2FB = some (.cpst 5 10 19 true) ∧ encode (.cpstResume 5 10 19 true) = some (.word 0x8626A2FB)
    ∧ encode (.cpstAbandon 5 10 19 true) = some (.word 0x8626A2FB) ∧ encode (.rswitchEnd 5 10 19 true) = encode (.rswitchSuspend 5 10 19 true) := by
  decide +kernel

/-- The hart that runs after reset (log 3). -/
theorem test_reset_state :
    State.reset.hart.num = 0 ∧ State.reset.hart.level = .M ∧ State.reset.hart.pc = 0 ∧ State.reset.hart.bankM.vec = 0 := by decide +kernel

/-! ### The words of the statement on decoding -/

theorem test_words_of_the_spec :
    decodeTableWord 32 0x20D6A4D3 = some (.amoAdd 9 10 11 true 3 false) ∧ decodeTableWord 16 0x0D0E = some (.cLd 8 3)
    ∧ decodeTableWord 32 0x500462C7 = none := by decide +kernel

/-! ### Further premises of the statements on memory, vectors and engines -/

/-- The mapped region with a memory error in the table of level 2. -/
def poisonedWalk : State := { walking with poison := [hbmKey 0 0x12000 / 64] }

theorem test_hyps_memory_errors :
    (translateLocal poisonedWalk (.data 0) (some 5) .M .load false true 0).cause = 0xFF
    ∧ walk poisonedWalk 0x10000 0x10000 .load .M = .poison (hbmKey 0 0x12000) ∧ (poisonedWalk.tlbFind (.data 0) 0 5 0x10000 false).isNone = true
    ∧ (((inRegion State.reset).onHart (fun h => { h with dtlb := [⟨1, 5, 0, 16, 0x1F⟩] })).tlbFind (.data 0) 1 5 0 false).isSome = true
    ∧ ({ ring 4 0 0 5 0 with poison := [hbmKey 0 0 / 64] }).ringPoison = some (hbmKey 0 0) ∧ (ring 4 0 0 5 0).ringPoison = none
    ∧ (let s : State := { rcb with poison := [hbmKey 0 0x12000 / 64] }
       rcbPoison { region5 with evq := hbm 0x40000 } s ≠ none ∧ rcbPoison region5 rcb = none) := by decide +kernel

theorem test_hyps_full_tables :
    let s : State := { State.reset with reads := (List.range 16).map (fun n => { entryOf n false with id := n }), nextRead := 16 }
    (s.reads.filter (fun f => f.cluster == 0)).length = 16 ∧ (∀ e ∈ s.reads, e.id ≠ s.nextRead)
    ∧ (∀ e ∈ s.reads, absorbs s.hart ⟨0, 0, true, false⟩ (99 * 64) 8 e = false) ∧ hartTable 1024 ≥ 32
    ∧ (let e := { entryOf 1 false with barred := [(0, 64, 72)] }
       absorbs s.hart ⟨0, 0, true, false⟩ 64 8 e = false ∧ absorbs s.hart ⟨0, 0, true, false⟩ 72 8 e = true)
    ∧ (let w : State := { (writing [] 1 true).onHart (fun h => { h with writes := [] }) with degraded := 2 }
       w.suspended 1 = true ∧ (w.sendq.find? (fun i => i.peer == 1 && i.cls == 2)).isSome = true)
    ∧ (let h := State.reset.hart.sp.set 2 { State.reset.hart.spin 2 with status := 0x701 }
       ({ State.reset.hart with sp := h }.spin 2).status.toNat / 2 ^ 8 % 2 ^ 8 = 7 ∧ (State.reset.hart.spin 1).status = 0) := by decide +kernel

/-- A write stream in v24 whose next register may not be written: a command of another strand reads there. -/
def lockedStream : State := { streamed true 0 [] with locks := [⟨hartTable 0, 0x1000, 0x1040, .source, some 0, 1, none, 7, none⟩] }

/-- The log of random values in hart 0's slice, to be written (2) or read (3) at its start. -/
def logged (src : BitVec 2) (s : State) : State := s.onHart (fun h => { h with srSrc := src, logn := 1 })

theorem test_hyps_stopped_streams :
    let whole : List Bool := List.replicate 16 true
    (produceChecks whole [24] lockedStream).ok = false ∧ (produceChecks whole [24] (streamed true 0 [])).ok = true
    ∧ (produceChecks whole [1, 2] State.reset).ok = true ∧ ¬WriteMisused lockedStream 24 ∧ WriteMisused (streamed true 1 []) 24
    ∧ ((logged 2 locked).logGate 1).ok = false ∧ ((logged 2 State.reset).logGate 1).ok = true ∧ (locked.logGate 1).ok = true
    ∧ (let s := (logged 3 State.reset).onHart (fun h => { h with ops := [opOf (.store [(0, 0, [1, 1])] false false)], nextOp := 1 })
       (s.logGate 1).ok = false ∧ (s.logGate 1).st.hart.run = .blocked ∧ s.hart.ready (s.hart.loadNow 0 2) = false)
    ∧ (streamed false 0 [(0, 5, 1, 0)]).hart.fetching 24 0 = false
    ∧ (SlotsTaken (full.onHart (fun h => h.setBind 0 (some ⟨mkGa 0 1 0, 1, 1, false, 64, 0, 0, 0, 0, false, 0, 0, []⟩))) (mkGa 0 1 0))
    ∧ EngineFor (inRegion State.reset) ∧ Fresh State.reset ∧ Fresh { State.reset with reads := [{ entryOf 1 false with data := 0 }], nextRead := 8 } := by
  have hb : lockedStream.hart.bound 24 = some ⟨0x1000, 1, 1, true, 64, 0, 0, 0, 0, false, 0, 0, []⟩ := by decide +kernel
  refine ⟨?_, ?_, ?_, ?_, ⟨⟨0x1000, 1, 1, true, 64, 0, 0, 0, 0, false, 1, 0, []⟩, ?_, .inr ?_⟩, ?_⟩
  case refine_4 => rintro ⟨b, h, h2⟩; rw [hb] at h; cases h; revert h2; decide
  all_goals (try unfold SlotsTaken EngineFor Fresh); decide +kernel

/-! ### Further premises of the statements on tasks, messages and the system -/

/-- A node on each of two regions; the second has had candidates of their priority before. -/
def twoRegions : State := { pooled with
  regions := [region5, { region5 with num := 6, hadPrio := [1], vnum := 3 }]
  nodes := [{ node0 with engine := false }, { node0 with engine := false, region := 6 }] }

theorem test_hyps_pools :
    (∃ n, twoRegions.nodes[1]? = some n ∧ twoRegions.candidate n = true ∧ twoRegions.effPrio n = 1 ∧ twoRegions.waits n = true)
    ∧ (∃ n, twoRegions.nodes[0]? = some n ∧ twoRegions.candidate n = true ∧ twoRegions.effPrio n = 1)
    ∧ twoRegions.placeable 5 = true ∧ twoRegions.budgetRoom 6 0 1 = true ∧ (∀ g ∈ twoRegions.regions, 0 < g.vden)
    ∧ State.reset.nodes[0]? = none ∧ descEnd (mkGa 1 hbmCore 0) described = 3 ∧ readWait (mkGa 1 hbmCore 0) 32 rcb = true
    ∧ (let s := described |> poke 0x1018 0x3000 |> poke 0x3000 1 |> poke 0x3008 0x40
       descEnd 0x1000 s = 2 ∧ readOk 0x3000 1 s = true ∧ readOk 0x3008 1 s = true ∧ descEnd 0x1000 (poke 0x3000 17 s) = 1
        ∧ descEnd 0x1000 (poke 0x3008 0x41 s) = 1 ∧ descEnd 0x1000 (poke 0x1018 0x40000 s) = 0 ∧ descEnd 0x1000 (poke 0x1018 0x3001 s) = 1)
    ∧ launching (mkGa 1 hbmCore 0) rcb = some 20
    ∧ launching (hbm 0x200000) { rcb with locks := [⟨hartTable 0, 0x1000, 0x1040, .source, some 0, 1, some 5, 7, none⟩] } = some 1
    ∧ (match checkRoot 1088 .ring region5 (mkGa 1 hbmCore 0) launchRing with | (0, none, s1) => s1.poison == launchRing.poison | _ => false) = true := by
  dsimp only
  refine ⟨⟨_, rfl, ?_⟩, ⟨_, rfl, ?_⟩, ?_⟩
  all_goals decide +kernel

/-- The copy of a row to a slice of node 1, and how its move ends. -/
def farSlice : CopySlot := { slotIn .running 0 with w1 := mkGa 1 3 0 }

theorem test_hyps_suspended_class :
    (let s : State := { withSlot farSlice with degraded := 2 }
     moving farSlice s = 104 ∧ moving farSlice (withSlot farSlice) = 200)
    ∧ capacityBreach { slotIn .running 0 with dfmt := 1, w1 := 0xFFFF, wp := 1 } = some 0x10000 ∧ laned.laneState 1 3 = .active
    ∧ (let s : State := { (switched (.ending 1000 false) 1000).onHart (fun h => { h with copies := [(0, { slotIn .running 0 with nonReplay := true, begun := true })] }) with now := 1000 }
       s.hart.nonReplayable = true ∧ s.switchOf 5 = some (.ending 1000 false) ∧ s.hartsOf (s.subtree 5) = [0] ∧ s.region? 5 = some { region5 with switch := .ending 1000 false }) := by
  decide +kernel

/-- The scout pass before the instruction that stands at 0. -/
def scouting (w : Word) : Scout := ⟨(poke 0 w State.reset).onHart (fun h => { h with faults := [], run := .running }), [5], [], [], [], [], 17⟩
def scouted (w : Word) (i : Instr) : Bool := match scoutFetch 0 (scouting w).st with | .got j _ _ _ => j == i | _ => false
def wordOf (i : Instr) : Word := match encode i with | some e => BitVec.ofNat 64 (leNat e.bytes) | none => 0

theorem test_hyps_scout :
    (∀ i ∈ [Instr.ldD 1 2 0 0 false, .ldD 1 5 0 0 false, .stD 1 2 0 0 false, .add 1 2 3 false false, .add 1 5 3 false false, .beq 5 1 (-4) false,
        .callr 5 false, .ret 5 false, .jt 1 2 false, .jtc 1 2 false, .cMark],
      scouted (wordOf i) i = true) ∧ scouted 0 .cNop = false ∧ (5 : BitVec 5) ∈ (scouting 0).bx ∧ (2 : BitVec 5) ∉ (scouting 0).bx
    ∧ (scoutTranslate State.reset none .M .load 0x1000).cause = 0 ∧ (scoutTranslate (inRegion State.reset) (some 5) .M .load (hbm 0)).cause = 0x04
    ∧ (scoutTranslate State.reset none .U .store 0x1000).cause = 5 ∧ Memory.wf State.reset.mem = true ∧ State.reset.intervals = [] := by decide +kernel

theorem test_hyps_returning :
    (64 < full.hart.entries + 1 ∧ full.hart.outstanding ≠ 0)
    ∧ (let s := (State.reset.onHart (fun h => { h with rets := (List.range 63).map (fun n => ⟨n, 0, .xval 1 2, none, []⟩), ops := [opOf (.streamLoad 24 0 0x1000 0)] }))
       s.hart.entries + 1 ≤ 64 ∧ 64 < s.hart.replySlots + 1)
    ∧ { State.reset.hart with holdTo := 1 }.resuming = true ∧ State.reset.hart.resuming = false
    ∧ { State.reset.hart with holdTo := 1, back := some .running }.resuming = false
    ∧ (match readDesc 5 (mkGa 1 hbmCore 0) logging with | .wait _ => true | _ => false) = true
    ∧ (let f : Far := ⟨0, .block, memKey 1 hbmCore 0 / 64, false, 3, none, false⟩
       ({ ticketed 0 with far := [f] }).farStale (memKey 1 hbmCore 0, memKey 1 hbmCore 0 + 65536) = true ∧ (({ ticketed 0 with far := [f] }).getHart f.hart).region = some 5)
    ∧ (let s := mapped { pinnedPage with pins := [⟨5, 0, 0, 0⟩, ⟨5, 1, 0, 5⟩] }
       (s.leafOf 5 0).map (·.2) = (s.leafOf 5 1).map (·.2) ∧ s.leafOf 5 0 = some (0x11F, hbmKey 0 0x12000) ∧ pinnedPage.leafOf 5 0 = none)
    ∧ (({ State.reset with replays := [(0, 0, 40)] } : State).replaysOf 0 = 40 ∧ (State.reset.hart.run = .running ∧ State.reset.present 0 = true))
    ∧ (State.reset.hart.recalled = [] ∧ State.reset.hart.holdTo = 0) := by decide +kernel

end Sys2Proof.Tests
end

section
/-! The six forms of sel (R121): what each condition code tests, and that sel writes the source its condition picks. -/

namespace Sys2Proof.Proofs

open Sys2Proof.Machine Sys2Proof.Claims Sys2Proof.Laws

/-! ### The condition codes (R78) -/

/-- The model compares the word with zero; as a signed number it is zero exactly then. -/
theorem selCond_eq (v : Word) : selCond 0 v = (v.toInt == 0) := by
  have zero_iff : v = 0 ↔ v.toInt = 0 := by rw [← BitVec.toInt_inj]; rfl
  show (v == 0) = (v.toInt == 0)
  rw [Bool.eq_iff_iff, beq_iff_eq, beq_iff_eq, zero_iff]

/-- Code 1 is the opposite of code 0. -/
theorem selCond_ne (v : Word) : selCond 1 v = (v.toInt != 0) :=
  congrArg (! ·) (selCond_eq v)

theorem selCond_lt (v : Word) : selCond 2 v = decide (v.toInt < 0) := rfl
theorem selCond_ge (v : Word) : selCond 3 v = decide (0 ≤ v.toInt) := rfl
theorem selCond_gt (v : Word) : selCond 4 v = decide (0 < v.toInt) := rfl
theorem selCond_le (v : Word) : selCond 5 v = decide (v.toInt ≤ 0) := rfl

/-! ### The instruction -/

theorem exec_sel (d a b : BitVec 5) (c : BitVec 3) (m : Bool) (s : State) :
    exec (.sel d a b c m) s = .next ((s.setX d (if selCond c (s.x d) then s.x a else s.x b)).done 4 m) := rfl

/-- An instruction that writes x[d] and ends runs with the value written: the write leaves the pc that its end adds to. -/
theorem runsX_setX_done {i : Instr} {s : State} {d : BitVec 5} {v : Word} {len : Nat} {m : Bool}
    (run : exec i s = .next ((s.setX d v).done len m)) : RunsX i s d v len m := by
  have pc_kept : (s.setX d v).hart.pc = s.hart.pc := by simp
  unfold RunsX
  rw [← pc_kept]
  exact runsXTo_jump run rfl

/-- The condition reads x[d] in the state before the write, so its value there alone picks the source. -/
theorem runsX_sel {s : State} {d : BitVec 5} {c : BitVec 3} {holds : Bool} (a b : BitVec 5) (m : Bool)
    (test : selCond c (s.x d) = holds) :
    RunsX (.sel d a b c m) s d (if holds = true then s.x a else s.x b) 4 m := by
  rw [← test]
  exact runsX_setX_done (exec_sel d a b c m s)

/-- Settles O31: each of the six codes tests the old destination as R121 says, and the write follows the test. -/
theorem selectTestsOldDestination : Obligations.SelectTestsOldDestination := by
  intro s d a b m
  exact ⟨runsX_sel a b m (selCond_eq _), runsX_sel a b m (selCond_ne _), runsX_sel a b m (selCond_lt _),
    runsX_sel a b m (selCond_ge _), runsX_sel a b m (selCond_gt _), runsX_sel a b m (selCond_le _)⟩

end Sys2Proof.Proofs
end

section
/-! How a page walk ends (R143, R144): the fields of an entry as numbers, one lemma for each condition of the table, and one for
each way a walk goes on from an entry. -/

namespace Sys2Proof.Proofs

open Sys2Proof.Machine

/-! ### The fields of an entry as numbers -/

theorem bitsOf_eq_div_mod (v : Word) (lo n : Nat) : bitsOf v lo n = v.toNat / 2 ^ lo % 2 ^ n := by
  rw [bitsOf, BitVec.extractLsb'_toNat, Nat.shiftRight_eq_div_pow]

theorem getLsbD_iff_div_mod (v : Word) (i : Nat) : v.getLsbD i = true ↔ v.toNat / 2 ^ i % 2 = 1 := by
  rw [BitVec.getLsbD, Nat.testBit_eq_decide_div_mod_eq, decide_eq_true_iff]

/-- The bits from 39 up reach the top of the word. -/
theorem bitsOf_top (e : Word) : bitsOf e 39 25 = e.toNat / 2 ^ 39 := by
  have := e.isLt
  rw [bitsOf_eq_div_mod]
  omega

/-! ### The four levels (R143) -/

theorem level_cases {lv : Nat} (first : 1 ≤ lv) (last : lv ≤ 4) : lv = 1 ∨ lv = 2 ∨ lv = 3 ∨ lv = 4 := by omega

theorem walkBits_eq {lv : Nat} (first : 1 ≤ lv) (last : lv ≤ 4) :
    walkBits lv = if lv = 1 then 39 else if lv = 2 then 30 else if lv = 3 then 21 else 16 := by
  obtain rfl | rfl | rfl | rfl := level_cases first last <;> rfl

theorem walkIndex_eq {lv : Nat} (first : 1 ≤ lv) (last : lv ≤ 4) (off : Nat) :
    walkIndex lv off = off / 2 ^ walkBits lv % (if lv = 1 then 1024 else if lv = 4 then 32 else 512) := by
  obtain rfl | rfl | rfl | rfl := level_cases first last <;> rfl

/-! ### The conditions of the table (R144) -/

/-- FRAME bits below the page size: the model looks at the 23 frame bits alone, and no page is larger than bits [38:0]. -/
theorem frame_below_page {lv : Nat} (first : 1 ≤ lv) (last : lv ≤ 4) (e : Word) (larger : lv ≠ 1) :
    bitsOf e 16 23 % 2 ^ (walkBits lv - 16) ≠ 0 ↔ e.toNat / 2 ^ 16 * 2 ^ 16 % 2 ^ walkBits lv ≠ 0 := by
  rw [bitsOf_eq_div_mod]
  obtain rfl | rfl | rfl | rfl := level_cases first last
  · exact absurd rfl larger
  all_goals
    simp only [walkBits]
    omega

/-- A NEXT pointer that is no multiple of the 4 KiB of a table. -/
theorem next_below_table (e : Word) : bitsOf e 8 4 ≠ 0 ↔ e.toNat / 2 ^ 8 * 2 ^ 8 % 2 ^ 12 ≠ 0 := by
  rw [bitsOf_eq_div_mod]
  omega

theorem entryReserved_leaf {lv : Nat} {e : Word} (leaf : e.getLsbD 1 = true) : entryReserved lv e = true ↔
    bitsOf e 39 25 ≠ 0 ∨ bitsOf e 10 6 ≠ 0 ∨ lv ≠ 1 ∧ bitsOf e 16 23 % 2 ^ (walkBits lv - 16) ≠ 0 := by
  rw [entryReserved, if_pos leaf]
  simp [or_assoc]

theorem entryReserved_pointer {lv : Nat} {e : Word} (pointer : ¬e.getLsbD 1 = true) : entryReserved lv e = true ↔
    bitsOf e 39 25 ≠ 0 ∨ bitsOf e 2 6 ≠ 0 ∨ (lv = 1 ∨ lv = 2) ∧ bitsOf e 8 4 ≠ 0 := by
  rw [entryReserved, if_neg pointer]
  simp [or_assoc]

theorem entryReserved_iff {lv : Nat} (first : 1 ≤ lv) (last : lv ≤ 4) (e : Word) :
    entryReserved lv e = true ↔ e.toNat / 2 ^ 39 ≠ 0
      ∨ e.toNat / 2 % 2 = 1 ∧ (e.toNat / 2 ^ 10 % 2 ^ 6 ≠ 0 ∨ lv ≠ 1 ∧ e.toNat / 2 ^ 16 * 2 ^ 16 % 2 ^ walkBits lv ≠ 0)
      ∨ ¬e.toNat / 2 % 2 = 1 ∧ (e.toNat / 4 % 2 ^ 6 ≠ 0 ∨ (lv = 1 ∨ lv = 2) ∧ e.toNat / 2 ^ 8 * 2 ^ 8 % 2 ^ 12 ≠ 0) := by
  have isLeaf : e.getLsbD 1 = true ↔ e.toNat / 2 % 2 = 1 := getLsbD_iff_div_mod e 1
  by_cases leaf : e.getLsbD 1 = true
  · rw [entryReserved_leaf leaf, bitsOf_top, bitsOf_eq_div_mod e 10, and_congr_right (frame_below_page first last e)]
    simp only [isLeaf.mp leaf, true_and, not_true_eq_false, false_and, or_false]
  · rw [entryReserved_pointer leaf, bitsOf_top, bitsOf_eq_div_mod e 2, next_below_table]
    simp only [mt isLeaf.mpr leaf, false_and, false_or, not_false_eq_true, true_and, Nat.reducePow]

/-- A leaf at level 1, a pointer at level 4, or CS on a leaf larger than 64 KiB: REASON 3, as the walk tests it. -/
def entryMisplaced (lv : Nat) (e : Word) : Bool :=
  (lv == 1 && e.getLsbD 1) || (lv == 4 && !e.getLsbD 1) || (e.getLsbD 1 && lv != 4 && e.getLsbD 7)

theorem entryMisplaced_iff (lv : Nat) (e : Word) :
    entryMisplaced lv e = true ↔ e.toNat / 2 % 2 = 1 ∧ lv = 1 ∨ ¬e.toNat / 2 % 2 = 1 ∧ lv = 4
      ∨ e.toNat / 2 % 2 = 1 ∧ lv ≠ 4 ∧ e.toNat / 2 ^ 7 % 2 = 1 := by
  have isLeaf : e.getLsbD 1 = true ↔ e.toNat / 2 % 2 = 1 := getLsbD_iff_div_mod e 1
  rw [← isLeaf, ← getLsbD_iff_div_mod]
  simp [entryMisplaced, or_assoc, and_assoc, and_comm, and_left_comm]

theorem reads_iff (need : Need) : need.reads = true ↔ need ≠ .store := by cases need <;> decide

theorem writes_iff (need : Need) : need.writes = true ↔ need = .store ∨ need = .atomic := by cases need <;> decide

theorem leafPermits_iff (e : Word) (need : Need) (level : Level) :
    leafPermits e need level = true ↔ (need ≠ .store → e.toNat / 4 % 2 = 1)
      ∧ (need = .store ∨ need = .atomic → e.toNat / 8 % 2 = 1) ∧ (level = .U → e.toNat / 16 % 2 = 1) := by
  rw [← reads_iff, ← writes_iff, show (4 : Nat) = 2 ^ 2 from rfl, show (8 : Nat) = 2 ^ 3 from rfl,
    show (16 : Nat) = 2 ^ 4 from rfl]
  simp only [← getLsbD_iff_div_mod]
  simp [leafPermits, imp_iff_not_or, and_assoc]

/-! ### The walk at one entry -/

/-- The place of the entry that a walk reads at a level. -/
def entryKey (s : State) (off lv table : Nat) : Nat := hbmKey s.nodeId (table + 8 * walkIndex lv off)

/-- The entry that a walk reads at a level. -/
def entryWord (s : State) (off lv table : Nat) : Word := leWord (s.mem.bytes (entryKey s off lv table) 8)

section
variable {s : State} {off : Nat} {need : Need} {level : Level} {fuel lv table : Nat}

/-- The conditions in their order; the lemmas below say where each leads. -/
theorem walkFrom_succ : walkFrom s off need level (fuel + 1) lv table =
    if s.poisoned (entryKey s off lv table) then .poison (entryKey s off lv table)
    else if !(entryWord s off lv table).getLsbD 0 then .fault 4 1
    else if entryReserved lv (entryWord s off lv table) then .fault 4 2
    else if entryMisplaced lv (entryWord s off lv table) then .fault 4 3
    else if (entryWord s off lv table).getLsbD 1 then
      if leafPermits (entryWord s off lv table) need level then
        .leaf (entryWord s off lv table) (walkBits lv) (entryKey s off lv table)
      else .fault 5 7
    else walkFrom s off need level fuel (lv + 1) (bitsOf (entryWord s off lv table) 8 31 * 256) := rfl

theorem walkFrom_poisoned (poisoned : s.poisoned (entryKey s off lv table) = true) :
    walkFrom s off need level (fuel + 1) lv table = .poison (entryKey s off lv table) := by
  rw [walkFrom_succ, if_pos poisoned]

variable (sound : s.poisoned (entryKey s off lv table) = false)
include sound

theorem walkFrom_invalid (invalid : (entryWord s off lv table).getLsbD 0 = false) :
    walkFrom s off need level (fuel + 1) lv table = .fault 4 1 := by
  rw [walkFrom_succ, sound, invalid]
  rfl

variable (valid : (entryWord s off lv table).getLsbD 0 = true)
include valid

theorem walkFrom_reserved (reserved : entryReserved lv (entryWord s off lv table) = true) :
    walkFrom s off need level (fuel + 1) lv table = .fault 4 2 := by
  rw [walkFrom_succ, sound, valid, reserved]
  rfl

variable (formed : entryReserved lv (entryWord s off lv table) = false)
include formed

theorem walkFrom_misplaced (misplaced : entryMisplaced lv (entryWord s off lv table) = true) :
    walkFrom s off need level (fuel + 1) lv table = .fault 4 3 := by
  rw [walkFrom_succ, sound, valid, formed, misplaced]
  rfl

variable (placed : entryMisplaced lv (entryWord s off lv table) = false)
include placed

theorem walkFrom_leaf (leaf : (entryWord s off lv table).getLsbD 1 = true) :
    walkFrom s off need level (fuel + 1) lv table =
      if leafPermits (entryWord s off lv table) need level then
        .leaf (entryWord s off lv table) (walkBits lv) (entryKey s off lv table)
      else .fault 5 7 := by
  rw [walkFrom_succ, sound, valid, formed, placed, leaf]
  rfl

theorem walkFrom_pointer (pointer : (entryWord s off lv table).getLsbD 1 = false) :
    walkFrom s off need level (fuel + 1) lv table =
      walkFrom s off need level fuel (lv + 1) (bitsOf (entryWord s off lv table) 8 31 * 256) := by
  rw [walkFrom_succ, sound, valid, formed, placed, pointer]
  rfl

end

/-- The walk starts at level 1 from the table that the root names in its bits [38:0]. -/
theorem walk_eq_walkFrom (s : State) (root : Word) (off : Nat) (need : Need) (level : Level) :
    walk s root off need level = walkFrom s off need level 4 1 (root.toNat % 2 ^ 39) := by
  rw [walk, bitsOf_eq_div_mod, pow_zero, Nat.div_one]

/-- Settles O19: the walk tests the conditions of R144 in the table's order, and each condition as the model tests it is the
condition on the entry's number. -/
theorem walksEndAsTheTableSays : Obligations.WalksEndAsTheTableSays := by
  intro s off need level root
  refine ⟨walk_eq_walkFrom s root off need level, fun lv table first last => ?_⟩
  intro bits index entry e n leaf reserved misplaced permitted ends
  have size : walkBits lv = bits := walkBits_eq first last
  have key : entryKey s off lv table = entry := by rw [entryKey, walkIndex_eq first last, size]
  have word : entryWord s off lv table = e := by rw [entryWord, key]
  have isValid : e.getLsbD 0 = true ↔ n % 2 = 1 := by rw [getLsbD_iff_div_mod, pow_zero, Nat.div_one]
  have isInvalid : e.getLsbD 0 = false ↔ n % 2 = 0 := by rw [← Bool.not_eq_true, isValid, Nat.mod_two_not_eq_one]
  have isLeaf : e.getLsbD 1 = true ↔ leaf := getLsbD_iff_div_mod e 1
  have isReserved : entryReserved lv e = true ↔ reserved := by rw [entryReserved_iff first last, size]
  have isMisplaced : entryMisplaced lv e = true ↔ misplaced := entryMisplaced_iff lv e
  have isPermitted : leafPermits e need level = true ↔ permitted := leafPermits_iff e need level
  have next : bitsOf e 8 31 * 256 = n / 2 ^ 8 % 2 ^ 31 * 2 ^ 8 := congrArg (· * 256) (bitsOf_eq_div_mod e 8 31)
  have fuel : 5 - lv = 4 - lv + 1 := by omega
  simp only [ends, fuel, ← isInvalid, ← isValid, ← isLeaf, ← isReserved, ← isMisplaced, ← isPermitted, ← next,
    Bool.not_eq_true]
  rw [← word, ← key, ← size]
  refine ⟨walkFrom_poisoned, fun sound => ⟨walkFrom_invalid sound, walkFrom_reserved sound, walkFrom_misplaced sound,
    fun valid formed placed leaf refused => ?_, fun valid formed placed leaf permitted => ?_, walkFrom_pointer sound⟩⟩
  · rw [walkFrom_leaf sound valid formed placed leaf, refused]
    rfl
  · rw [walkFrom_leaf sound valid formed placed leaf, if_pos permitted]

end Sys2Proof.Proofs
end
